-- ==== Sys2Proof/Word.lean ====
section
/-! DEFINITION. The word types of the Aklon and the one shape of sparse storage. -/

namespace Sys2Proof

/-- A byte of memory (R12). -/
abbrev Byte := BitVec 8

/-- A 64-bit register, address or CSR value. -/
abbrev Word := BitVec 64

/-- Sparse storage by key: keys strictly rising, and no entry that holds the default an unlisted key reads as.
Its operations, which keep that form, are in Machine/Ops.lean. -/
abbrev SMap (α : Type) := List (Nat × α)

end Sys2Proof
end

