-- ==== Sys2Proof/Config.lean ====
section
/-! DEFINITION. What the package fixes: its resources (R25); and what the spec leaves open as a VALUE: constants without a body, of which
nothing can be proved. -/

namespace Sys2Proof.Config

/-- The resources of R25. -/
inductive Resource
  | coreSram | tileFile | registerFile | syncEntries | rangeLocks | copies | accumulators | handlerSram | latencyL2 | latencyL3 | capacityTier
  deriving DecidableEq, Repr

/-- What each unit has of a resource, in bytes or entries (R25). The latency cores' caches hold nothing that another agent could tell from
memory (log 10), and what the granule map names is the tier that is present. -/
def Resource.perUnit : Resource → Nat
  | .coreSram => 2 ^ 20 | .tileFile => 256 * 2 ^ 10 | .registerFile => 512 * 2 ^ 10 | .syncEntries => 64 | .rangeLocks => 64
  | .copies => 16 | .accumulators => 2 * 2 ^ 20 | .handlerSram => 64 * 2 ^ 10 | .latencyL2 => 2 * 2 ^ 20 | .latencyL3 => 96 * 2 ^ 20
  | .capacityTier => 2 ^ 40

/-- The units of the package that have it: SIMT cores, engines, slices, latency cores and latency dies (R25). -/
def Resource.units : Resource → Nat
  | .coreSram | .tileFile | .registerFile | .syncEntries | .rangeLocks | .copies | .handlerSram => 256
  | .accumulators => 64 | .latencyL2 => 72 | .latencyL3 | .capacityTier => 2

/-- A fresh free value of 64 bits for each number of State.freeIdx: a result the spec leaves open (log 3). -/
opaque freeWord : Nat → Word

/-- A fresh free number: a choice the spec leaves to hardware among several allowed ones (log 3), such as the
slot given to a team index (R21) or a new tid (R128). -/
opaque freeNat : Nat → Nat

/-- Whether the hardware makes an optional move that the spec allows and does not promise (log 3), such as the
eviction of an L1 copy of a managed page (R358). -/
opaque freeBool : Nat → Bool

/-- The latency cores' identity registers of the RISC-V standard (mvendorid, marchid, mimpid, misa's extensions),
which the spec does not give (log 12). -/
opaque idCsr : Nat → Word

/-- The set of its home slice that a line falls into: the spec gives no set mapping of the SIMT L2 (R356, R361, log 10). -/
opaque l2Set : Nat → Nat

/-- The interrupt file that a message's physical page names, as 2 * hart + level (0 machine, 1 supervisor) modulo 144: the spec gives no
place of the interrupt files (R10, log 12). -/
opaque intFile : Nat → Nat

/-- The identity of the machine-level interrupts that the device raises on latency core 0 of latency die 0, less 1, modulo 2047: the
spec gives none (R30, log 12). -/
opaque deviceIrq : Nat

end Sys2Proof.Config
end

