-- ==== Sys2Proof/Syntax.lean ====
section
/-! DEFINITION. The instructions and steps of the Aklon: one constructor of Instr for each row of the opcode table.
A wide word keeps the field names of R84 and R87; a standard instruction is decoded to its operation. An event
row carries what the event names (a hart's key, a module, a frame, ...). -/

namespace Sys2Proof

/-- The fields of a full-form wide word that its major does not fix (R84): P = 0 and LEN are understood. -/
structure Wide where
  imm11 : BitVec 11
  lt    : BitVec 2
  fn    : BitVec 6
  s3    : BitVec 7
  s2    : BitVec 7
  s1    : BitVec 7
  w     : Bool
  d     : BitVec 6
  h     : Bool
  deriving DecidableEq, Repr, Inhabited

/-- The pair opcodes of R89. -/
inductive PairOp
  | nop2 | add2 | sub2 | and2 | or2 | xor2 | sll2 | srl2 | sra2 | addi2 | mv2 | li2 | min2 | max2
  | fadd2s | fsub2s | fmul2s | fmin2s | fmax2s | fadd2d | fmul2d | pfadd2b | pfmul2b | pfadd2h | pfmul2h
  deriving DecidableEq, Repr

/-- One slot of a pair-form word (R87). -/
structure PairSlot where
  imm9 : BitVec 9
  s    : BitVec 6
  d    : BitVec 5
  op   : PairOp
  deriving DecidableEq, Repr

/-- Register-register integer operations of RV64IM, Zba, Zbb and Zbs (R9). -/
inductive AluOp
  | add | sub | sll | slt | sltu | xor | srl | sra | or | and
  | addw | subw | sllw | srlw | sraw
  | mul | mulh | mulhsu | mulhu | div | divu | rem | remu | mulw | divw | divuw | remw | remuw
  | sh1add | sh2add | sh3add | adduw | sh1adduw | sh2adduw | sh3adduw
  | andn | orn | xnor | min | max | minu | maxu | rol | ror | rolw | rorw | zexth
  | bclr | bext | binv | bset
  deriving DecidableEq, Repr

/-- Register-immediate and one-register integer operations (R9). -/
inductive AluImmOp
  | addi | slti | sltiu | xori | ori | andi | slli | srli | srai
  | addiw | slliw | srliw | sraiw | slliuw | rori | roriw
  | bclri | bexti | binvi | bseti
  | clz | ctz | cpop | clzw | ctzw | cpopw | sextb | sexth | rev8 | orcb
  deriving DecidableEq, Repr

/-- Standard loads (R9). -/
inductive LoadOp | lb | lh | lw | ld | lbu | lhu | lwu | flw | fld
  deriving DecidableEq, Repr

/-- Standard stores (R9). -/
inductive StoreOp | sb | sh | sw | sd | fsw | fsd
  deriving DecidableEq, Repr

/-- Standard conditional branches (R9, R467). -/
inductive BranchOp | beq | bne | blt | bge | bltu | bgeu
  deriving DecidableEq, Repr

/-- Operations of the standard AMOs (R9) and, with the same names, of amos (R106) and lamo. -/
inductive AmoOp | add | and | or | xor | min | max | minu | maxu | swap
  deriving DecidableEq, Repr

/-- The CSR instructions' kinds (R9). -/
inductive CsrOp | rw | rs | rc
  deriving DecidableEq, Repr

/-- Two-operand floating operations of F and D (R9). -/
inductive FpOp2 | fadd | fsub | fmul | fdiv | fsgnj | fsgnjn | fsgnjx | fmin | fmax | feq | flt | fle
  deriving DecidableEq, Repr

/-- Fused forms of F and D (R9). -/
inductive FpOp3 | fmadd | fmsub | fnmsub | fnmadd
  deriving DecidableEq, Repr

/-- One-operand floating operations of F and D (R9): square root, class, conversions and moves. The source and
destination integer width of a conversion is 4 or 8 bytes; `uns` marks the unsigned form. -/
inductive FpOp1
  | fsqrt
  | fclass
  | cvtToInt (len8 : Bool) (uns : Bool)
  | cvtFromInt (len8 : Bool) (uns : Bool)
  | cvtOther        -- fcvt.s.d for the s form, fcvt.d.s for the d form
  | mvToInt
  | mvFromInt
  deriving DecidableEq, Repr

/-- A standard RISC-V instruction other than a conditional branch, ecall, pause and the cache-block operations,
which have rows of their own. Register numbers are 0-31; `dbl` marks the D form of a floating instruction. -/
inductive Std
  | lui (rd : BitVec 5) (imm : BitVec 20)
  | auipc (rd : BitVec 5) (imm : BitVec 20)
  | jal (rd : BitVec 5) (imm : BitVec 20)              -- offset / 2
  | jalr (rd rs1 : BitVec 5) (imm : BitVec 12)
  | load (op : LoadOp) (rd rs1 : BitVec 5) (imm : BitVec 12)
  | store (op : StoreOp) (rs1 rs2 : BitVec 5) (imm : BitVec 12)
  | alui (op : AluImmOp) (rd rs1 : BitVec 5) (imm : BitVec 12)
  | alu (op : AluOp) (rd rs1 rs2 : BitVec 5)
  | fence (fm pred succ : BitVec 4) (rd rs1 : BitVec 5)
  | fencei
  | csr (op : CsrOp) (useImm : Bool) (rd rs1 : BitVec 5) (num : BitVec 12)
  | lr (dbl aq rl : Bool) (rd rs1 : BitVec 5)
  | sc (dbl aq rl : Bool) (rd rs1 rs2 : BitVec 5)
  | amo (op : AmoOp) (dbl aq rl : Bool) (rd rs1 rs2 : BitVec 5)
  | fp2 (op : FpOp2) (dbl : Bool) (rm : BitVec 3) (rd rs1 rs2 : BitVec 5)
  | fp3 (op : FpOp3) (dbl : Bool) (rm : BitVec 3) (rd rs1 rs2 rs3 : BitVec 5)
  | fp1 (op : FpOp1) (dbl : Bool) (rm : BitVec 3) (rd rs1 : BitVec 5)
  | ebreak
  | mret
  | sret
  | wfi
  | sfencevma (rs1 rs2 : BitVec 5)
  deriving DecidableEq, Repr

/-- Who sent a memory request to a home agent (R30): the kind decides what a blocked request leads to. -/
inductive Requester | thread | copyEngine | cobbler | pcie | ethernet | eyelet
  deriving DecidableEq, Repr

/-- A memory request as a home agent sees it (R29, R30). -/
structure HomeReq where
  tag   : Nat
  kind  : Requester
  tid   : Nat
  key   : Nat
  write : Bool
  pa    : Nat
  va    : Nat
  data  : List Byte
  len   : Nat
  deriving DecidableEq, Repr

/-- A request from another package and the Bolcel port that brings it in (R27, R485). -/
structure PortReq where
  port : Nat
  req  : HomeReq
  deriving DecidableEq, Repr

/-- The kinds of request that a failing completion answers (R486). -/
inductive RemoteReq
  | threadLoad (key : Nat) (va : Nat)
  | threadStore (part tid : Nat) (pc va : Nat)
  | copy (part : Nat) (ticket : Word) (va : Word) (write : Bool)
  | laced (eye : Nat) (stamp : Nat)
  | prefetch
  deriving DecidableEq, Repr

/-- A failing completion (R486): the request that it answers, and the port that is DOWN or ISOLATED, where it is for that. -/
structure Completion where
  port : Option Nat
  req  : RemoteReq
  deriving DecidableEq, Repr

/-- A tenant key of 256 bits and the context that it is for (R44). -/
structure TenantKey where
  asid : Nat
  key  : Nat
  deriving DecidableEq, Repr

/-- An image offered to the boot ROM (R493), with the two signature checks' outcomes as inputs (log 11), where the boot
ROM places it, the links that the signed firmware makes root ports (R491), and the pages of the interrupt files (log 12). -/
structure BootImage where
  rsaOk : Bool
  slhOk : Bool
  bytes : List Byte
  at_   : Nat
  roots : Nat := 0
  intPages : List Nat := []
  deriving DecidableEq, Repr

/-- A life-cycle token (R495). -/
structure BootToken where
  rsaOk : Bool
  slhOk : Bool
  bound : Bool
  src   : Nat
  dst   : Nat
  deriving DecidableEq, Repr

/-- An excluded band of the boot block, as its two doublewords (R496). -/
structure Band where
  dw0 : Word
  dw1 : Word
  deriving DecidableEq, Repr

/-- What the management controller delivers at a package reset (R492): the boot block, its bytes with the address of their
copy, and the first image with the address at which it begins to run. -/
structure BootBlock where
  token : Option BootToken
  bands : List Band
  bytes : List Byte
  copyAt : Nat
  image : BootImage
  entry  : Nat
  deriving DecidableEq, Repr

/-- One constructor for each row of the opcode table. -/
inductive Instr
  -- partitions and contexts
  | partctlConfigure (key : Nat) (v : Word)
  | partctlStart (key : Nat) (v : Word)
  | partctlReset (key : Nat) (v : Word)
  | partctlRelease (key : Nat) (v : Word)
  | resetDrainEnd (part : Nat)
  | drainDeadline (part : Nat)
  | wipeComplete (part : Nat)
  | rtbaseWrite (key : Nat) (v : Word)
  | ctxfreeWrite (key : Nat) (v : Word)
  | contextOpen (key : Nat) (v : Word)
  | homeRequest (r : HomeReq)
  | tframeWrite (key : Nat) (v : Word)
  | tsigWrite (key : Nat) (v : Word)
  | signalMigration (key : Nat)
  | rsvrWrite (key : Nat) (v : Word)
  | dbgctlStop (key : Nat) (v : Word)
  | dbgctlResume (key : Nat) (v : Word)
  | dbgctlReload (key : Nat) (v : Word)
  -- links
  | weltctlPause (key : Nat) (v : Word)
  | weltctlResume (key : Nat) (v : Word)
  | weltctlRetrainX64 (key : Nat) (v : Word)
  | weltctlRetrainX32 (key : Nat) (v : Word)
  | weltctlDown (key : Nat) (v : Word)
  | weltmapWrite (key : Nat) (v : Word)
  | trainingComplete (module : Nat) (ok : Bool)
  | pauseComplete (module : Nat)
  | flitCrcError (module : Nat) (lane : Nat) (again : Bool)
  | retryWindowEnd
  | bcportRetrain (key : Nat) (v : Word)
  | bcportDown (key : Nat) (v : Word)
  | bolcelRequest (r : PortReq)
  | failingCompletion (r : Completion)
  | bolcelTimeout (r : RemoteReq) (waitedUs : Nat)
  | directorySnoop (pa : Nat) (inval : Bool)
  | frameReceive (port : Nat) (tagged : Bool) (pcp : Nat) (udp : Nat) (bytes : List Byte)
  | pfcRepeat (port : Nat) (queue : Nat)
  | transmitFrame (port : Nat) (queue : Nat)
  | pcieDma (link func : Nat) (write : Bool) (pa : Nat) (data : List Byte)
  | packageReset (b : BootBlock)
  | thermalThrottle (die : Nat)
  | thermalResetRequest (die : Nat)
  | registerWrite (key : Nat) (csr : Nat) (v : Word)
  -- wide words
  | pairWord (h : Bool) (slot0 slot1 : PairSlot)
  | pfadd (w : Wide) | pfsub (w : Wide) | pfmul (w : Wide) | pffma (w : Wide) | pfmin (w : Wide) | pfmax (w : Wide)
  | pfsgn (w : Wide) | pfcmp (w : Wide)
  | padd (w : Wide) | psub (w : Wide) | pmul (w : Wide) | pmin (w : Wide) | pmax (w : Wide) | psh (w : Wide)
  | pdot (w : Wide) | pidot (w : Wide) | pcdot (w : Wide)
  | pcvtn (w : Wide) | pcvtw (w : Wide) | pcvti (w : Wide) | pscale (w : Wide) | pgrind (w : Wide)
  | psel (w : Wide) | ppack (w : Wide) | lfsrrd (w : Wide)
  | gshfl (w : Wide) | gqx (w : Wide) | gvote (w : Wide) | gred (w : Wide) | gscan (w : Wide) | gbcast (w : Wide)
  | gsync (w : Wide) | gmatch (w : Wide)
  | mig (w : Wide) | texit (w : Wide) | tspawn (w : Wide)
  | frameLoad (idx : Nat) (die core lane slot : Nat)
  | returnQueuePost (part : Nat)
  | threadPromotion (key : Nat)
  | pause
  | ecall
  | conditionalBranch (op : BranchOp) (rs1 rs2 : BitVec 5) (imm : BitVec 12)
  | operationSent (key : Nat)
  | operationFinish (key : Nat) (idx : Nat)
  | cboClean (rs1 : BitVec 5) | cboFlush (rs1 : BitVec 5) | cboInval (rs1 : BitVec 5) | cboZero (rs1 : BitVec 5)
  -- teams
  | teamnew (w : Wide)
  | admission (part : Nat)
  | teamfree (w : Wide)
  | teamsave (w : Wide)
  | teamsaveImageWritten (part asid team : Nat)
  | saveDeadline (part asid team : Nat)
  | teamload (w : Wide)
  | teaminfo (w : Wide)
  -- queues
  | qpush (w : Wide) | qpop (w : Wide) | jinit (w : Wide) | tend (w : Wide)
  | joinPushRetry (key : Nat)
  | qwait (w : Wide) | qbind (w : Wide)
  | dispatch (core : Nat)
  -- sync
  | syinit (w : Wide) | semadd (w : Wide) | semacq (w : Wide) | semtry (w : Wide) | barrive (w : Wide)
  | bwait (w : Wide) | bexpect (w : Wide) | barw (w : Wide) | drain (w : Wide)
  | watchdogExpiry (key : Nat)
  -- tiles and the matrix engine
  | tld (w : Wide) | tldbp (w : Wide) | tst (w : Wide) | tzero (w : Wide) | tmov (w : Wide) | ttr (w : Wide)
  | tfill (w : Wide) | tres (w : Wide) | trel (w : Wide) | acz (w : Wide) | acld (w : Wide)
  | mma (w : Wide) | mmac (w : Wide) | mmabs (w : Wide) | mwait (w : Wide)
  | passGrant (engine : Nat)
  | passPromotion (engine : Nat) (idx : Nat)
  | passComplete (engine : Nat)
  | engineHang (engine : Nat)
  | tdr (w : Wide) | tdrm (w : Wide) | tdrt (w : Wide)
  | drainComplete (engine : Nat)
  -- copies
  | cpl (w : Wide) | cpr (w : Wide) | cpt (w : Wide) | cpg (w : Wide) | cps (w : Wide) | cpim (w : Wide) | cpq (w : Wide)
  | copyStart (idx : Nat)
  | copyTranslationFault (idx : Nat)
  | copyFaulted (idx : Nat)
  | copyDone (idx : Nat)
  -- ordering
  | fences (w : Wide) | fencesc (w : Wide) | ldacq (w : Wide) | strel (w : Wide) | amos (w : Wide) | casx (w : Wide)
  | raceSweepEnd (part asid team : Nat)
  | tlbip (w : Wide)
  | tlbipAck (part : Nat) (agent : Nat)
  | pageWalk (die : Nat)
  | walkComplete (die : Nat) (idx : Nat)
  -- rows
  | rcpy (w : Wide) | rfil (w : Wide) | rbop (w : Wide) | rq (w : Wide)
  | rowOpStart (idx : Nat)
  | rowOpDone (idx : Nat)
  | rowOpFaulted (idx : Nat) (page : Nat)
  | rowPrecharge (row : Nat) (corrupt : Bool)
  | deferredMitigation (row : Nat)
  -- laces
  | lst (w : Wide) | lamo (w : Wide) | lseq (w : Wide) | lwait (w : Wide) | ljoin (w : Wide) | lleave (w : Wide)
  | lfence (w : Wide)
  | laceStamp (lace : Nat)
  | eyeletReceive (eye : Nat) (stamp : Nat)
  | resendRequest (eye : Nat)
  | eyeletStale (eye : Nat)
  | windowError (eye : Nat)
  -- cobbler cores
  | cmsg (w : Wide) | cbind (w : Wide) | cdone (w : Wide) | cfwd (w : Wide)
  | missEvent (pa : Nat)
  | fillEvent (pa : Nat)
  | evictionEvent (pa : Nat) (dirty : Bool)
  | invocationStart (slice : Nat)
  | budgetAbort (slice : Nat)
  -- traps
  | hret (w : Wide) | htrap (w : Wide) | mbpost (w : Wide) | treplay (w : Wide) | tresume (w : Wide) | engrst (w : Wide)
  | faultRecordPost (part : Nat)
  | impreciseStoreFault (part : Nat) (tid : Nat) (pc va : Nat)
  | uncorrectableError (pa : Nat)
  -- debug and trace
  | tmark (w : Wide) | tbrk (w : Wide) | cexp (w : Wide)
  | trialEnd (part : Nat)
  | traceSync (core : Nat)
  | lossPacket (core : Nat)
  | standardInstruction (i : Std)
  | teamloadComplete (part asid team : Nat)
  | switchLaceClose (lace : Nat)
  | bolcelTrainingComplete (port : Nat) (lanes : BitVec 4)
  | bolcelPortReport (port : Nat) (reachable : Bool) (lanes : BitVec 4)
  | thermalThrottleEnd (die : Nat)
  | powerDown
  | tenantKeyLoad (part slot : Nat) (k : TenantKey)
  | hartInterrupt (key : Nat) (cause : Nat)
  deriving DecidableEq, Repr

end Sys2Proof
end

