-- ==== Sys2Proof/Machine/Encoding.lean ====
section
/-! DEFINITION. The encoding tables of wide words: the major opcode map with operand kinds and runs-on attributes
(R98-R107, R133, R163, R185, R206, R224, R237, R270, R290, R300, R328, R364, R372, R397, R415, R426-R428, R441, R460),
the pair opcodes (R89), and the REASON checks within one word (R108). -/

namespace Sys2Proof

/-- The format code in FN[5:2] (R100). -/
def Wide.fmt (w : Wide) : Nat := w.fn.toNat / 4

/-- The modifier in FN[1:0] (R100). -/
def Wide.md (w : Wide) : Nat := w.fn.toNat % 4

end Sys2Proof

namespace Sys2Proof.Machine

/-- Why bits are not an instruction (R108), in ascending order of REASON. -/
inductive Reason
  /-- 0x0: a wide word at an address that is not a multiple of 8 -/
  | align
  /-- 0x1: 48 bits, or 80 bits and longer -/
  | length
  /-- 0x2: a standard encoding outside the core type's subsets, or reserved -/
  | standard
  /-- 0x3: reserved MAJ, FN, pair OP or FN modifier -/
  | reserved
  /-- 0x4: a non-zero bit where zero is required -/
  | nonzero
  /-- 0x5: a reserved value in a field -/
  | value
  /-- 0x6: pairing parity -/
  | parity
  /-- 0x7: latch rule -/
  | latch
  /-- 0x8: chain rule -/
  | chain
  /-- 0x9: privileged instruction in U mode -/
  | priv
  deriving DecidableEq, Repr

/-- The code of a REASON (R108). -/
def Reason.code : Reason → Nat
  | .align => 0 | .length => 1 | .standard => 2 | .reserved => 3 | .nonzero => 4
  | .value => 5 | .parity => 6 | .latch => 7 | .chain => 8 | .priv => 9

/-- What an operand field holds (R85): nothing; any register or, for a source, a latch; an x register or a latch; or
the number of a tile or an accumulator in bits [4:0]. -/
inductive OpKindField | unused | reg | xreg | num
  deriving DecidableEq, Repr

/-- The core types an instruction runs on (R98). `P` is L with the privileged mark of R99. -/
inductive RunsOn | B | S | L | P | BC | C
  deriving DecidableEq, Repr

/-- The three core types (R9). -/
inductive CoreType | latency | simt | cobbler
  deriving DecidableEq, Repr

/-- Whether an instruction runs on a core type (R98, R99). -/
def RunsOn.on : RunsOn → CoreType → Bool
  | .B, .cobbler => false
  | .B, _ => true
  | .S, c => c == .simt
  | .L, c => c == .latency
  | .P, c => c == .latency
  | .BC, _ => true
  | .C, c => c == .cobbler

/-- A row of the major opcode map: runs-on, the kinds of D, S1, S2 and S3, and the IMM11 bits that are assigned. -/
structure Major where
  run : RunsOn
  d   : OpKindField
  s1  : OpKindField
  s2  : OpKindField
  s3  : OpKindField
  imm : BitVec 11
  deriving DecidableEq, Repr

/-- The major opcode map (R100-R107) with the operand tables of the chapters; none for a reserved major. -/
def major? (maj : BitVec 8) : Option Major :=
  match maj.toNat with
  | 0x00 | 0x01 | 0x02 => some ⟨.B, .reg, .reg, .reg, .unused, 1⟩
  | 0x03 => some ⟨.B, .reg, .reg, .reg, .reg, 1⟩
  | 0x04 | 0x05 | 0x06 | 0x07 | 0x08 | 0x09 | 0x0A | 0x0B | 0x0C | 0x0D => some ⟨.B, .reg, .reg, .reg, .unused, 0⟩
  | 0x10 | 0x11 | 0x12 => some ⟨.B, .reg, .reg, .reg, .reg, 0⟩
  | 0x18 => some ⟨.B, .reg, .reg, .unused, .unused, 0x1F⟩
  | 0x19 => some ⟨.B, .reg, .reg, .reg, .unused, 0x1E⟩
  | 0x1A => some ⟨.B, .reg, .reg, .reg, .unused, 0x3F⟩
  | 0x1B => some ⟨.B, .reg, .reg, .reg, .unused, 0⟩
  | 0x1C => some ⟨.B, .reg, .reg, .unused, .unused, 0x3F⟩
  | 0x1D | 0x1E => some ⟨.B, .reg, .reg, .reg, .reg, 0⟩
  | 0x1F => some ⟨.B, .reg, .unused, .unused, .unused, 0⟩
  | 0x20 => some ⟨.S, .reg, .reg, .reg, .unused, 0x3F⟩
  | 0x21 | 0x22 | 0x23 | 0x24 | 0x28 => some ⟨.S, .reg, .reg, .unused, .unused, 0⟩
  | 0x25 => some ⟨.S, .reg, .reg, .unused, .unused, 0x3F⟩
  | 0x26 => some ⟨.S, .unused, .unused, .unused, .unused, 0⟩
  | 0x30 | 0x38 | 0x39 | 0x3C => some ⟨.B, .reg, .reg, .unused, .unused, 0⟩
  | 0x31 => some ⟨.B, .unused, .reg, .unused, .unused, 0⟩
  | 0x32 => some ⟨.S, .reg, .reg, .reg, .reg, 0⟩
  | 0x3A | 0x3B => some ⟨.P, .reg, .reg, .reg, .unused, 0⟩
  | 0x40 | 0x41 => some ⟨.B, .reg, .reg, .reg, .unused, 0⟩
  | 0x42 => some ⟨.B, .reg, .reg, .reg, .reg, 0⟩
  | 0x43 => some ⟨.S, .unused, .reg, .unused, .unused, 0⟩
  | 0x44 => some ⟨.S, .reg, .reg, .unused, .unused, 0⟩
  | 0x45 => some ⟨.P, .reg, .reg, .unused, .unused, 0⟩
  | 0x48 => some ⟨.S, .reg, .reg, .reg, .unused, 0x3F⟩
  | 0x49 => some ⟨.BC, .reg, .reg, .reg, .unused, 0⟩
  | 0x4A | 0x4B | 0x4D | 0x4E => some ⟨.S, .reg, .reg, .unused, .unused, 0x3F⟩
  | 0x4C | 0x4F => some ⟨.S, .reg, .unused, .unused, .unused, 0x3F⟩
  | 0x50 => some ⟨.S, .reg, .unused, .unused, .unused, 0⟩
  | 0x58 => some ⟨.S, .reg, .reg, .reg, .reg, 0x1FF⟩
  | 0x59 | 0x5A | 0x5B | 0x5C | 0x5D => some ⟨.S, .reg, .reg, .reg, .reg, 0xFF⟩
  | 0x5E => some ⟨.S, .reg, .reg, .unused, .unused, 0⟩
  | 0x60 | 0x61 | 0x62 => some ⟨.S, .num, .reg, .reg, .unused, 0⟩
  | 0x63 | 0x67 | 0x6B => some ⟨.S, .num, .unused, .unused, .unused, 0⟩
  | 0x64 | 0x65 => some ⟨.S, .num, .num, .unused, .unused, 0⟩
  | 0x66 | 0x71 => some ⟨.S, .num, .reg, .unused, .unused, 0⟩
  | 0x68 => some ⟨.S, .num, .num, .num, .unused, 0xF⟩
  | 0x69 => some ⟨.S, .num, .num, .num, .unused, 0⟩
  | 0x6A => some ⟨.S, .num, .num, .num, .num, 0xF⟩
  | 0x6C => some ⟨.S, .num, .reg, .reg, .unused, 0⟩
  | 0x6D => some ⟨.S, .num, .num, .reg, .num, 0⟩
  | 0x6E => some ⟨.S, .unused, .num, .reg, .reg, 0⟩
  | 0x6F => some ⟨.S, .num, .num, .reg, .reg, 0x1FF⟩
  | 0x70 => some ⟨.S, .reg, .unused, .unused, .unused, 0⟩
  | 0x78 | 0x79 => some ⟨.B, .xreg, .xreg, .xreg, .unused, 0x7F⟩
  | 0x7A => some ⟨.B, .xreg, .xreg, .xreg, .xreg, 0x7F⟩
  | 0x7B | 0x83 => some ⟨.B, .xreg, .xreg, .xreg, .unused, 0⟩
  | 0x80 | 0x81 => some ⟨.B, .xreg, .xreg, .xreg, .xreg, 0⟩
  | 0x82 => some ⟨.B, .xreg, .xreg, .unused, .unused, 0⟩
  | 0x84 | 0x85 => some ⟨.P, .xreg, .xreg, .unused, .unused, 0⟩
  | 0x86 => some ⟨.B, .unused, .unused, .unused, .unused, 0⟩
  | 0x88 => some ⟨.B, .xreg, .xreg, .xreg, .xreg, 0xF⟩
  | 0x89 => some ⟨.P, .reg, .reg, .unused, .unused, 0⟩
  | 0x8A => some ⟨.C, .unused, .reg, .unused, .unused, 0⟩
  | 0x8B => some ⟨.C, .unused, .unused, .unused, .unused, 0⟩
  | 0x90 => some ⟨.BC, .unused, .unused, .unused, .unused, 0xF⟩
  | 0x91 => some ⟨.B, .unused, .unused, .unused, .unused, 0xF⟩
  | 0x92 => some ⟨.B, .xreg, .xreg, .unused, .unused, 0xF⟩
  | 0x93 => some ⟨.B, .unused, .xreg, .xreg, .unused, 0xF⟩
  | 0x94 => some ⟨.B, .xreg, .xreg, .xreg, .unused, 0x3F⟩
  | 0x95 => some ⟨.B, .xreg, .xreg, .xreg, .xreg, 0x3F⟩
  | 0xA0 => some ⟨.S, .unused, .unused, .unused, .unused, 0⟩
  | 0xA1 => some ⟨.S, .unused, .xreg, .unused, .unused, 0⟩
  | 0xA2 => some ⟨.S, .xreg, .xreg, .unused, .unused, 0⟩
  | 0xA3 => some ⟨.P, .reg, .reg, .reg, .unused, 3⟩
  | 0xA4 | 0xA6 | 0xA8 => some ⟨.P, .xreg, .xreg, .unused, .unused, 0⟩
  | 0xA5 => some ⟨.P, .xreg, .xreg, .xreg, .unused, 0⟩
  | 0xA7 | 0xA9 => some ⟨.B, .unused, .xreg, .unused, .unused, 0xF⟩
  | _ => none

/-- A word with this major may continue a chain (R93). -/
def chainMajor (maj : BitVec 8) : Bool := maj.toNat ≤ 0x25 || maj.toNat == 0x28

/-- The legal narrowings of `pcvtn` (R252). -/
def narrows (sf df : Nat) : Bool :=
  match sf with
  | 0 => df ∈ [1, 2, 3, 4, 5]
  | 1 | 2 => df ∈ [3, 4, 5]
  | 6 => df ∈ [7, 8, 9, 10, 11]
  | _ => false

/-- The legal widenings of `pcvtw` (R253). -/
def widens (sf df : Nat) : Bool :=
  match sf with
  | 1 | 2 => df == 0
  | 3 | 4 => df ∈ [0, 1, 2]
  | 5 => df ∈ [0, 1, 2, 3, 4]
  | 7 | 8 => df == 6
  | 9 => df ∈ [7, 6]
  | 10 => df ∈ [7, 8, 6]
  | 11 => df ∈ [9, 7, 6]
  | 12 => df == 6
  | 13 => df ∈ [12, 6]
  | _ => false

/-- The pairs of formats of `mma` (R280): some true for a floating pair, some false for an integer one. -/
def mmaPair (a b : Nat) : Option Bool :=
  if a ∈ [1, 2, 5] ∧ a = b then some true
  else if a ∈ [3, 4] ∧ b ∈ [3, 4] then some true
  else if a ∈ [7, 8] ∧ b ∈ [7, 8] then some false
  else if a ∈ [9, 10] ∧ b ∈ [9, 10] then some false
  else if a = 11 ∧ b = 11 then some false
  else if a = 14 ∧ b ∈ [7, 8, 9, 10, 11, 14] then some false
  else if b = 14 ∧ a ∈ [7, 8, 9, 10, 11] then some false
  else none

/-- The formats a lane major lists in FN[5:2] (R100, R101). -/
def laneFormats (maj : Nat) : List Nat :=
  match maj with
  | 0x00 | 0x01 | 0x02 | 0x03 => [0, 1, 2]
  | 0x04 | 0x05 => [0, 1, 2, 3, 4]
  | 0x06 | 0x07 | 0x1A | 0x1B => [0, 1, 2, 3, 4, 5]
  | 0x08 | 0x09 | 0x0A | 0x0B | 0x0C | 0x0D => [6, 7, 8, 9, 10, 11]
  | 0x10 => [1, 2, 3, 4, 5]
  | 0x11 => [7, 8, 9, 10, 11]
  | 0x12 => [12, 13]
  | 0x18 => [1, 2, 3, 4, 5, 7, 8, 9, 10, 11]
  | 0x19 => [1, 2, 3, 4, 5, 7, 8, 9, 10, 11, 12, 13]
  | 0x1C => [14]
  | 0x1D => [0, 1, 2, 3, 4, 5, 6, 7, 8, 9, 10, 11, 12, 13]
  | _ => []

/-- Lane majors 0x00-0x0D, 0x10-0x12 and 0x18-0x1D, whose FN is a format and a modifier. -/
def isLaneFmt (maj : Nat) : Bool := maj ≤ 0x0D || (0x10 ≤ maj && maj ≤ 0x12) || (0x18 ≤ maj && maj ≤ 0x1D)

/-- REASON 0x3 (log 20): an FN value or modifier that the tables of R100-R107 call reserved. -/
def fnReserved (maj : Nat) (w : Wide) : Bool :=
  let fn := w.fn.toNat
  match maj with
  | 0x04 | 0x05 | 0x0B | 0x0C | 0x10 | 0x19 | 0x1B | 0x1D => w.md ≠ 0
  | 0x06 => w.md = 3
  | 0x08 | 0x09 | 0x0A | 0x11 | 0x1C => w.md ≥ 2
  | 0x1E | 0x1F | 0x25 | 0x26 | 0x28 | 0x30 | 0x31 | 0x32 | 0x38 | 0x39 | 0x3A | 0x3B
  | 0x40 | 0x41 | 0x42 | 0x43 | 0x44 | 0x45
  | 0x48 | 0x49 | 0x4A | 0x4B | 0x4C | 0x4D | 0x4E | 0x4F
  | 0x82 | 0x83 | 0x84 | 0x85 | 0x86 => fn ≠ 0
  | 0x20 | 0x22 | 0x3C => fn > 3
  | 0x21 => fn > 2
  | 0x23 => fn > 6
  | 0x24 | 0x80 | 0x81 | 0x95 => fn > 1
  | 0x50 | 0x7A => fn > 5
  | 0x90 => fn % 16 = 0
  | 0x94 => fn % 16 > 8
  | _ => false

/-- REASON 0x4 beyond the operand kinds: a bit that the instruction's own table requires zero. -/
def fnNonzero (maj : Nat) (w : Wide) : Bool :=
  let fn := w.fn.toNat
  let imm := w.imm11
  (match maj with
  | 0x06 => w.md ≠ 2 ∧ w.s2 ≠ 0
  | 0x20 => if fn = 0 then imm ≠ 0 else w.s2 ≠ 0
  | 0x58 | 0x59 | 0x5A | 0x5B | 0x5D => fn ≠ 0
  | 0x5C | 0x61 | 0x6A | 0x6C => w.md ≠ 0
  | 0x5E | 0x60 | 0x62 | 0x63 | 0x64 | 0x65 | 0x66 | 0x67 | 0x6B | 0x70 | 0x71
  | 0x78 | 0x79 | 0x7B | 0x8B | 0x91
  | 0xA0 | 0xA1 | 0xA2 | 0xA4 | 0xA5 | 0xA6 | 0xA7 | 0xA8 | 0xA9 => fn ≠ 0
  | 0x6D => w.fmt ∉ [3, 4, 5] ∧ w.s3 ≠ 0
  | 0x6F => w.fmt ∉ [3, 4, 5] ∧ (imm.toNat / 16) ≠ 0
  | 0x7A => fn = 3 ∧ w.s3 ≠ 0
  | 0x88 | 0x89 => fn ≠ 0 ∨ w.h
  | 0x8A => fn ≠ 0 ∨ w.h ∨ w.lt ≠ 0
  | 0x90 => fn ≥ 16
  | 0x92 | 0x93 => fn ≥ 4
  | 0x94 => fn ≥ 32
  | 0xA3 => fn ≠ 0 ∨ w.h ∨ (imm.getLsbD 0 ∧ w.s1 ≠ 0) ∨ (imm.getLsbD 1 ∧ w.s2 ≠ 0)
  | _ => False)
  || (maj ∈ [0x58, 0x59, 0x5A, 0x5B, 0x5C, 0x5D, 0x78, 0x79, 0x7A] && imm.getLsbD 6 && imm.toNat % 64 ≠ 0)

/-- REASON 0x5: a reserved value in a field (R58, R106, R108, R252-R256, R280-R283, R291, R300, R330). -/
def fnValue (maj : Nat) (w : Wide) : Bool :=
  let imm := w.imm11.toNat
  let f := w.fmt
  (isLaneFmt maj && f ∉ laneFormats maj) ||
  match maj with
  | 0x00 | 0x01 | 0x02 | 0x03 => w.md = 3
  | 0x18 => w.md = 3 ∨ !narrows (imm / 2 % 16) f ∨ (imm / 2 % 16 = 6 ∧ w.md ≠ 0)
  | 0x19 => !widens f (imm / 2 % 16)
  | 0x1A => w.md = 3 ∨ imm / 2 % 16 < 6 ∨ imm / 2 % 16 > 11
  | 0x1C => imm % 8 = 0 ∨ (imm % 8 = 7 ∧ w.md = 1) ∨ (w.s1.toNat < 64 ∧ w.s1.toNat % 32 + imm % 8 > 31)
  | 0x5C => f ∉ [0, 1, 2, 6]
  | 0x61 => f ≠ 14
  | 0x68 =>
    match mmaPair f (imm % 16) with
    | none => true
    | some fl => (fl && w.md % 2 = 1) || (w.md ≥ 2 && f ≠ 14 && imm % 16 ≠ 14)
  | 0x69 => f ∉ [12, 13] ∨ w.d.toNat % 2 = 1
  | 0x6A => ¬((f ∈ [3, 4] ∧ imm % 16 ∈ [3, 4]) ∨ (f = 5 ∧ imm % 16 = 5))
  | 0x6C => f ∉ [0, 6]
  | 0x6D | 0x6E => w.md = 3 ∨ f ≥ 14 ∨ (f ∈ [12, 13] ∧ w.s1.toNat % 2 = 1)
  | 0x6F => w.md = 3 ∨ f > 11 ∨ imm % 16 > 11 ∨ decide (f < 6) ≠ decide (imm % 16 < 6)
  | 0x90 | 0x91 | 0x92 | 0x93 | 0x94 => imm % 16 > 10
  | 0x95 => imm % 16 > 10 ∨ (w.fn = 1 ∧ (w.d.toNat % 2 = 1 ∨ w.s2.toNat % 2 = 1 ∨ w.s3.toNat % 2 = 1 ∨
      w.s2.toNat ≥ 64 ∨ w.s3.toNat ≥ 64))
  | _ => False

/-- A source field breaks R85: unused and not zero, a number above 31, or a latch form with a bit of [5:2] set. -/
def srcNonzero (k : OpKindField) (s : BitVec 7) : Bool :=
  match k with
  | .unused => s ≠ 0
  | .num => s.toNat > 31
  | _ => s.getLsbD 6 && (s.toNat % 64) / 4 ≠ 0

/-- A field names an f register where only x registers and latches are allowed. -/
def srcValue (k : OpKindField) (s : BitVec 7) : Bool := k = .xreg && s.toNat < 64 && s.toNat ≥ 32

/-- The lowest REASON that a full-form word breaks within itself (R108, R109), the latch and chain rules that need the
rest of its chain apart. -/
def wideReason (maj : BitVec 8) (w : Wide) : Option Reason :=
  match major? maj with
  | none => some .reserved
  | some m =>
    let n := maj.toNat
    if fnReserved n w then some .reserved
    else if srcNonzero m.s1 w.s1 || srcNonzero m.s2 w.s2 || srcNonzero m.s3 w.s3
        || (w.imm11 &&& ~~~ m.imm) ≠ 0
        || (match m.d with
            | .unused => w.d ≠ 0 || w.w
            | .num => w.d.toNat > 31 || w.w
            | _ => false)
        || fnNonzero n w then some .nonzero
    else if srcValue m.s1 w.s1 || srcValue m.s2 w.s2 || srcValue m.s3 w.s3
        || (m.d = .xreg && w.d.toNat ≥ 32) || fnValue n w then some .value
    else if n = 0x1C && w.s1.getLsbD 6 then some .latch
    else if w.h && !chainMajor maj then some .chain
    else none

/-- The pair opcode of a code (R89); none for a reserved one. -/
def pairOp? (c : Nat) : Option PairOp :=
  match c with
  | 0x00 => some .nop2 | 0x01 => some .add2 | 0x02 => some .sub2 | 0x03 => some .and2 | 0x04 => some .or2
  | 0x05 => some .xor2 | 0x06 => some .sll2 | 0x07 => some .srl2 | 0x08 => some .sra2 | 0x09 => some .addi2
  | 0x0A => some .mv2 | 0x0B => some .li2 | 0x0C => some .min2 | 0x0D => some .max2
  | 0x20 => some .fadd2s | 0x21 => some .fsub2s | 0x22 => some .fmul2s | 0x23 => some .fmin2s | 0x24 => some .fmax2s
  | 0x28 => some .fadd2d | 0x29 => some .fmul2d
  | 0x30 => some .pfadd2b | 0x31 => some .pfmul2b | 0x32 => some .pfadd2h | 0x33 => some .pfmul2h
  | _ => none

/-- The code of a pair opcode (R89). -/
def pairCode : PairOp → BitVec 7
  | .nop2 => 0x00 | .add2 => 0x01 | .sub2 => 0x02 | .and2 => 0x03 | .or2 => 0x04
  | .xor2 => 0x05 | .sll2 => 0x06 | .srl2 => 0x07 | .sra2 => 0x08 | .addi2 => 0x09
  | .mv2 => 0x0A | .li2 => 0x0B | .min2 => 0x0C | .max2 => 0x0D
  | .fadd2s => 0x20 | .fsub2s => 0x21 | .fmul2s => 0x22 | .fmin2s => 0x23 | .fmax2s => 0x24
  | .fadd2d => 0x28 | .fmul2d => 0x29
  | .pfadd2b => 0x30 | .pfmul2b => 0x31 | .pfadd2h => 0x32 | .pfmul2h => 0x33

/-- Whether a pair opcode uses S, and whether it uses IMM9 (R89). -/
def pairUses : PairOp → Bool × Bool
  | .nop2 => (false, false)
  | .addi2 | .li2 => (false, true)
  | _ => (true, false)

/-- The file of a pair opcode's D and S is f (R87, R89). -/
def pairFloat (op : PairOp) : Bool := 0x20 ≤ (pairCode op).toNat

/-- REASON 0x4 of a slot (R87, R88): a field its opcode does not use, or the latch form's bits [4:2]. -/
def slotNonzero (p : PairSlot) : Bool :=
  let u := pairUses p.op
  (p.op = .nop2 && p.d ≠ 0) || (!u.1 && p.s ≠ 0) || (!u.2 && p.imm9 ≠ 0)
    || (u.1 && p.s.getLsbD 5 && (p.s.toNat % 32) / 4 ≠ 0)

/-- REASON 0x6 of a slot (R88): slot 0's D is even and slot 1's is odd; `nop2` is exempt. -/
def slotParity (p : PairSlot) (slot : Nat) : Bool := p.op ≠ .nop2 && p.d.toNat % 2 ≠ slot

/-- The lowest REASON that a pair word with known opcodes breaks within itself, and the slot that breaks it. -/
def pairReason (p0 p1 : PairSlot) : Option (Reason × Nat) :=
  if slotNonzero p0 then some (.nonzero, 0)
  else if slotNonzero p1 then some (.nonzero, 1)
  else if slotParity p0 0 then some (.parity, 0)
  else if slotParity p1 1 then some (.parity, 1)
  else none

/-- The instruction of a major (R100-R107). -/
def wideInstr? (maj : BitVec 8) (w : Wide) : Option Instr :=
  match maj.toNat with
  | 0x00 => some (.pfadd w) | 0x01 => some (.pfsub w) | 0x02 => some (.pfmul w) | 0x03 => some (.pffma w)
  | 0x04 => some (.pfmin w) | 0x05 => some (.pfmax w) | 0x06 => some (.pfsgn w) | 0x07 => some (.pfcmp w)
  | 0x08 => some (.padd w) | 0x09 => some (.psub w) | 0x0A => some (.pmul w) | 0x0B => some (.pmin w)
  | 0x0C => some (.pmax w) | 0x0D => some (.psh w)
  | 0x10 => some (.pdot w) | 0x11 => some (.pidot w) | 0x12 => some (.pcdot w)
  | 0x18 => some (.pcvtn w) | 0x19 => some (.pcvtw w) | 0x1A => some (.pcvti w) | 0x1B => some (.pscale w)
  | 0x1C => some (.pgrind w) | 0x1D => some (.psel w) | 0x1E => some (.ppack w) | 0x1F => some (.lfsrrd w)
  | 0x20 => some (.gshfl w) | 0x21 => some (.gqx w) | 0x22 => some (.gvote w) | 0x23 => some (.gred w)
  | 0x24 => some (.gscan w) | 0x25 => some (.gbcast w) | 0x26 => some (.gsync w) | 0x28 => some (.gmatch w)
  | 0x30 => some (.mig w) | 0x31 => some (.texit w) | 0x32 => some (.tspawn w)
  | 0x38 => some (.teamnew w) | 0x39 => some (.teamfree w) | 0x3A => some (.teamsave w) | 0x3B => some (.teamload w)
  | 0x3C => some (.teaminfo w)
  | 0x40 => some (.qpush w) | 0x41 => some (.qpop w) | 0x42 => some (.jinit w) | 0x43 => some (.tend w)
  | 0x44 => some (.qwait w) | 0x45 => some (.qbind w)
  | 0x48 => some (.syinit w) | 0x49 => some (.semadd w) | 0x4A => some (.semacq w) | 0x4B => some (.semtry w)
  | 0x4C => some (.barrive w) | 0x4D => some (.bwait w) | 0x4E => some (.bexpect w) | 0x4F => some (.barw w)
  | 0x50 => some (.drain w)
  | 0x58 => some (.cpt w) | 0x59 => some (.cpl w) | 0x5A => some (.cpg w) | 0x5B => some (.cps w)
  | 0x5C => some (.cpr w) | 0x5D => some (.cpim w) | 0x5E => some (.cpq w)
  | 0x60 => some (.tld w) | 0x61 => some (.tldbp w) | 0x62 => some (.tst w) | 0x63 => some (.tzero w)
  | 0x64 => some (.tmov w) | 0x65 => some (.ttr w) | 0x66 => some (.tres w) | 0x67 => some (.trel w)
  | 0x68 => some (.mma w) | 0x69 => some (.mmac w) | 0x6A => some (.mmabs w) | 0x6B => some (.acz w)
  | 0x6C => some (.acld w) | 0x6D => some (.tdr w) | 0x6E => some (.tdrm w) | 0x6F => some (.tdrt w)
  | 0x70 => some (.mwait w) | 0x71 => some (.tfill w)
  | 0x78 => some (.rcpy w) | 0x79 => some (.rfil w) | 0x7A => some (.rbop w) | 0x7B => some (.rq w)
  | 0x80 => some (.lst w) | 0x81 => some (.lamo w) | 0x82 => some (.lseq w) | 0x83 => some (.lwait w)
  | 0x84 => some (.ljoin w) | 0x85 => some (.lleave w) | 0x86 => some (.lfence w)
  | 0x88 => some (.cmsg w) | 0x89 => some (.cbind w) | 0x8A => some (.cdone w) | 0x8B => some (.cfwd w)
  | 0x90 => some (.fences w) | 0x91 => some (.fencesc w) | 0x92 => some (.ldacq w) | 0x93 => some (.strel w)
  | 0x94 => some (.amos w) | 0x95 => some (.casx w)
  | 0xA0 => some (.hret w) | 0xA1 => some (.htrap w) | 0xA2 => some (.mbpost w) | 0xA3 => some (.tlbip w)
  | 0xA4 => some (.treplay w) | 0xA5 => some (.tresume w) | 0xA6 => some (.engrst w) | 0xA7 => some (.tmark w)
  | 0xA8 => some (.cexp w) | 0xA9 => some (.tbrk w)
  | _ => none

/-- The major and the fields of a full-form wide word; none for any other instruction or step. -/
def wideOf? : Instr → Option (BitVec 8 × Wide)
  | .pfadd w => some (0x00, w) | .pfsub w => some (0x01, w) | .pfmul w => some (0x02, w) | .pffma w => some (0x03, w)
  | .pfmin w => some (0x04, w) | .pfmax w => some (0x05, w) | .pfsgn w => some (0x06, w) | .pfcmp w => some (0x07, w)
  | .padd w => some (0x08, w) | .psub w => some (0x09, w) | .pmul w => some (0x0A, w) | .pmin w => some (0x0B, w)
  | .pmax w => some (0x0C, w) | .psh w => some (0x0D, w)
  | .pdot w => some (0x10, w) | .pidot w => some (0x11, w) | .pcdot w => some (0x12, w)
  | .pcvtn w => some (0x18, w) | .pcvtw w => some (0x19, w) | .pcvti w => some (0x1A, w) | .pscale w => some (0x1B, w)
  | .pgrind w => some (0x1C, w) | .psel w => some (0x1D, w) | .ppack w => some (0x1E, w) | .lfsrrd w => some (0x1F, w)
  | .gshfl w => some (0x20, w) | .gqx w => some (0x21, w) | .gvote w => some (0x22, w) | .gred w => some (0x23, w)
  | .gscan w => some (0x24, w) | .gbcast w => some (0x25, w) | .gsync w => some (0x26, w) | .gmatch w => some (0x28, w)
  | .mig w => some (0x30, w) | .texit w => some (0x31, w) | .tspawn w => some (0x32, w)
  | .teamnew w => some (0x38, w) | .teamfree w => some (0x39, w) | .teamsave w => some (0x3A, w)
  | .teamload w => some (0x3B, w) | .teaminfo w => some (0x3C, w)
  | .qpush w => some (0x40, w) | .qpop w => some (0x41, w) | .jinit w => some (0x42, w) | .tend w => some (0x43, w)
  | .qwait w => some (0x44, w) | .qbind w => some (0x45, w)
  | .syinit w => some (0x48, w) | .semadd w => some (0x49, w) | .semacq w => some (0x4A, w) | .semtry w => some (0x4B, w)
  | .barrive w => some (0x4C, w) | .bwait w => some (0x4D, w) | .bexpect w => some (0x4E, w) | .barw w => some (0x4F, w)
  | .drain w => some (0x50, w)
  | .cpt w => some (0x58, w) | .cpl w => some (0x59, w) | .cpg w => some (0x5A, w) | .cps w => some (0x5B, w)
  | .cpr w => some (0x5C, w) | .cpim w => some (0x5D, w) | .cpq w => some (0x5E, w)
  | .tld w => some (0x60, w) | .tldbp w => some (0x61, w) | .tst w => some (0x62, w) | .tzero w => some (0x63, w)
  | .tmov w => some (0x64, w) | .ttr w => some (0x65, w) | .tres w => some (0x66, w) | .trel w => some (0x67, w)
  | .mma w => some (0x68, w) | .mmac w => some (0x69, w) | .mmabs w => some (0x6A, w) | .acz w => some (0x6B, w)
  | .acld w => some (0x6C, w) | .tdr w => some (0x6D, w) | .tdrm w => some (0x6E, w) | .tdrt w => some (0x6F, w)
  | .mwait w => some (0x70, w) | .tfill w => some (0x71, w)
  | .rcpy w => some (0x78, w) | .rfil w => some (0x79, w) | .rbop w => some (0x7A, w) | .rq w => some (0x7B, w)
  | .lst w => some (0x80, w) | .lamo w => some (0x81, w) | .lseq w => some (0x82, w) | .lwait w => some (0x83, w)
  | .ljoin w => some (0x84, w) | .lleave w => some (0x85, w) | .lfence w => some (0x86, w)
  | .cmsg w => some (0x88, w) | .cbind w => some (0x89, w) | .cdone w => some (0x8A, w) | .cfwd w => some (0x8B, w)
  | .fences w => some (0x90, w) | .fencesc w => some (0x91, w) | .ldacq w => some (0x92, w) | .strel w => some (0x93, w)
  | .amos w => some (0x94, w) | .casx w => some (0x95, w)
  | .hret w => some (0xA0, w) | .htrap w => some (0xA1, w) | .mbpost w => some (0xA2, w) | .tlbip w => some (0xA3, w)
  | .treplay w => some (0xA4, w) | .tresume w => some (0xA5, w) | .engrst w => some (0xA6, w) | .tmark w => some (0xA7, w)
  | .cexp w => some (0xA8, w) | .tbrk w => some (0xA9, w)
  | _ => none

/-- Collective instructions (R157): the gang majors, and the tile and matrix majors. -/
def collectiveMajor (maj : BitVec 8) : Bool :=
  (0x20 ≤ maj.toNat && maj.toNat ≤ 0x26) || maj.toNat = 0x28 || (0x60 ≤ maj.toNat && maj.toNat ≤ 0x71)

/-- The latch numbers that a full-form word reads (R94), by its operand kinds. -/
def wideLatchReads (m : Major) (w : Wide) : List Nat :=
  [(m.s1, w.s1), (m.s2, w.s2), (m.s3, w.s3)].filterMap fun (k, s) =>
    if (k = .reg || k = .xreg) && s.getLsbD 6 then some (s.toNat % 4) else none

/-- The latch number that a pair slot reads (R88). -/
def slotLatchReads (p : PairSlot) : List Nat :=
  if (pairUses p.op).1 && p.s.getLsbD 5 then [p.s.toNat % 4] else []

end Sys2Proof.Machine
end

