-- ==== Sys2Proof/Machine/State.lean ====
section
/-! DEFINITION. The state of one Aklon package, as plain data, and the state after package reset. -/

namespace Sys2Proof.Machine

/-- Thread states, in the order of their codes 0-7 (R120). -/
inductive TState | created | latency | migrating | ready | blocked | parked | halted | exited
  deriving DecidableEq, Repr, Inhabited

/-- Privilege modes of a latency core (R9). -/
inductive Mode | user | supervisor | machine
  deriving DecidableEq, Repr, Inhabited

/-- Team states, in the order of their codes 0-5 (R174); `held` is the scratch map's mark for a freed team whose
operations are outstanding (R188). -/
inductive TeamState | free | resident | saving | saved | loading | lost | held
  deriving DecidableEq, Repr, Inhabited

/-- A table of operations that may be full: an engine's passes, a core's copies, a row engine's operations, a die's laced operations,
or the events of a home slice (R266, R320, R377, R399, R426). -/
inductive Room | passes | copies | rows | laced | events (slice : Nat)
  deriving DecidableEq, Repr, Inhabited

/-- What a blocked thread or a stalled hart waits for (R120, R377, R401, R403). -/
inductive Wait
  | none
  /-- semacq, in the entry's waiter list (R228) -/
  | sem (entry amount : Nat)
  /-- bwait (kind 0) or barw (kind 1, its arrival made) at the instruction, or a re-injected wait (kind 2): leaves when
  PHASE differs from the token's (R229, R230, R232) -/
  | barrier (entry : Nat) (token : Word) (kind : Nat)
  /-- a converging wait at the chain's first word (R159) -/
  | converge (pc : Word)
  /-- qwait (R217): a queue, by its header's physical address -/
  | queue (pa : Nat)
  /-- an ecall's mailbox record position on a core (R148) -/
  | mailbox (core pos : Nat)
  /-- lwait (R403), under the eyelet's join numbered `join` -/
  | lace (eye stamp join : Nat)
  /-- lamo, until the own eyelet has applied laced operation `op` (R401); a stall and no blocked wait -/
  | lamo (eye op : Nat)
  /-- lfence, until the issuer's laced operations numbered below `upTo` are stamped (R404) -/
  | lfence (upTo : Nat)
  /-- drain by FN, with the operations waited for (R235) -/
  | drain (fn : Nat) (copies rows laced : List Nat)
  /-- mwait, until these passes are complete (R285) -/
  | passes (ids : List Nat)
  /-- tres of an accumulator that another gang holds (R277) -/
  | acc (n : Nat)
  /-- an issue that found its engine's table full: the instruction runs again when there is room
  (R266, R320, R377, R399, R426) -/
  | room (r : Room)
  /-- the stall of a gang at its drain until it completes (R294): the state stays SIMT-ready -/
  | drainStall (pass : Nat)
  /-- teamnew in the admission queue (R187) -/
  | admission
  /-- teamfree, until copies that touch the scratch have retired (R188) -/
  | freeing (team : Nat)
  /-- tend, whose continuation finds a full ring (R215): the join block, and whether the slot's thread is a task -/
  | pushRetry (join : Word)
  /-- a hart's row operation with NOSYNC = 1 (R378) -/
  | rowOp (id : Nat)
  /-- a hart until its tlbip is acknowledged (R365) -/
  | tlbip
  /-- a hart until its teamsave ends (R190) -/
  | teamsave (team : Nat)
  /-- a hart until its teamload ends (R200) -/
  | teamload (team : Nat)
  /-- a hart until its lleave ends (R407) -/
  | lleave (eye : Nat)
  /-- wfi on a hart -/
  | wfi
  deriving DecidableEq, Repr, Inhabited

/-- The kind of a memory operation of a thread (R434): what it does once it is sent. -/
inductive OpKind
  | load (size : Nat) (signed : Bool) (box : Bool)
  | store (size : Nat)
  | amo (op : AmoOp) (size : Nat)
  | lr (size : Nat)
  | sc (size : Nat)
  | cbo (which : Nat)                 -- 0 clean, 1 flush, 2 inval, 3 zero
  | ringWrite (rec : List Word)       -- the record write of a qpush (R209)
  | bwait (entry token : Nat)         -- the wait left of a barw (R232)
  | casx (size rd1 old new : Nat)     -- a compare and exchange: the second register of a pair, the value expected and the new one (R334, R486)
  | csr (n : Nat) (op : CsrOp) (ui : Bool) (src : Nat)  -- a CSR access; `src` is its rs1 field (R434)
  deriving DecidableEq, Repr, Inhabited

/-- An issued and unfinished operation, or a replay entry (R125, R192, R434). `rd` is 0-31 for x, 32-63 for f. -/
structure PendOp where
  pc    : Word
  bits  : Word
  op1   : Word
  op2   : Word
  kind  : OpKind
  rd    : Nat
  sent  : Bool
  value : Word
  own   : Bool := false   -- issued in the user handler, and withdrawn (R192, R438)
  grp   : Nat := 0        -- the issue group, numbered from 1 (R343, R458); 0 for an operation loaded from a frame
  deriving DecidableEq, Repr, Inhabited

/-- The trap state of a thread (R430, R111, R345, R396). -/
structure TrapState where
  hvec   : Word := 0
  hepc   : Word := 0
  hcause : Word := 0
  hdec0  : Word := 0
  hdec1  : Word := 0
  hdec2  : Word := 0
  hdec3  : Word := 0
  flt    : Bool := false
  redo   : Bool := false
  inh    : Bool := false
  hfva   : Word := 0
  hrace  : Word := 0
  hlace  : Word := 0
  deriving DecidableEq, Repr, Inhabited

/-- A word of a chain, as fetched: address, bits, length in bytes. -/
structure RawWord where
  addr : Word
  bits : Word
  len  : Nat
  deriving DecidableEq, Repr, Inhabited

/-- Latches and a chain position (R92, R124): `lv` has bit n set when l n was written by an earlier word of the
chain, `pos` counts the words completed, `live` says that the position is to be continued, `coll` that a word of the
chain is collective (R158), and `fp` the word whose cause 0x11 waits for the chain's last word (R173): bits, address; `fpDests` are the
register destinations of every such word of a helper (R154).
`words` are the words that were decoded with the chain's first and have not completed (R95); none where the next word is
to be fetched. -/
structure Chain where
  l0   : Word := 0
  l1   : Word := 0
  l2   : Word := 0
  l3   : Word := 0
  lv   : BitVec 4 := 0
  pos  : Nat := 0
  live : Bool := false
  coll : Bool := false
  fp   : Option (Word × Word) := none
  fpDests : List Nat := []
  words : List RawWord := []
  deriving DecidableEq, Repr, Inhabited

/-- One thread context: a SIMT slot, a latency hart's thread registers, or a cobbler core's invocation. -/
structure Thread where
  part     : Nat := 0
  satp     : Word := 0
  st       : TState := .created
  before   : TState := .created        -- the state held before a debug halt (R462)
  x        : SMap Word := []
  f        : SMap Word := []
  pc       : Word := 0
  fcsr     : Word := 0
  lfsr     : Word := 0
  qflags   : Word := 0
  tprio    : Word := 0
  trap     : TrapState := {}
  chain    : Chain := {}
  hchain   : Chain := {}               -- held for hret (R437); live = hstat.CHAIN
  tid      : Nat := 0
  team     : Nat := 0                  -- 0 = solo (R128)
  tidx     : Nat := 0
  gangw    : Nat := 0
  helper   : Bool := false
  stopped  : Bool := false             -- a helper that executed texit (R155)
  task     : Bool := false             -- a task thread (R211)
  autoRet  : Bool := false
  sigpend  : Bool := false
  cause    : Nat := 0                  -- CAUSE of the status word (R123)
  reth     : Word := 0
  lastPlace : Word := 0
  frame    : Nat := 0
  ops      : List PendOp := []         -- issued and unfinished, oldest first
  held     : List PendOp := []         -- the replay queue
  wait     : Wait := .none
  ww       : Wide := default           -- the word of the waiting instruction
  wus      : Nat := 0                  -- the watchdog's count in us (R234)
  age      : Nat := 0
  promoted : Bool := false
  park     : Nat := 0                  -- park count, PSEQ (R446)
  pend0E   : Option (Word × Word) := none   -- pending imprecise store fault: pc, va (R453)
  pend16   : Option Word := none            -- pending cobbler notice: message target (R425)
  holdTill : Option Nat := none            -- the cycle until which a causal experiment holds its issue (R474)
  pushHeld : List (Word × Nat) := []   -- a hart's held qpushes: pc, position (R209)
  away     : Bool := false             -- a hart whose thread has left it by mig or texit, until `tframe` names another (R135)
  deriving DecidableEq, Repr, Inhabited

/-- An interrupt file of a hart (R10, the Advanced Interrupt Architecture, log 12): `eidelivery`, `eithreshold`, and the pending and
enabled identities 1 to 2047 as bits. -/
structure IntFile where
  delivery  : Nat := 0
  threshold : Nat := 0
  eip       : Nat := 0
  eie       : Nat := 0
  deriving DecidableEq, Repr, Inhabited

/-- A latency hart beside its thread registers (R9, R31, R41, R127, R442, R443). -/
structure Hart where
  mfile    : IntFile := {}
  sfile    : IntFile := {}
  miselect : Word := 0
  siselect : Word := 0
  mvien    : Word := 0          -- virtual S-level interrupts: bits 1 (software) and 9 (external) (R10, log 12)
  mvip     : Word := 0
  svie     : Word := 0          -- their enables, where `mvien` separates them from `mie`
  shut     : Bool := false      -- takes no interrupt: a write of ctxfree waits on it (R43)
  running  : Bool := false
  mode     : Mode := .machine
  part     : Nat := 0
  mgr      : Bool := false
  tframe   : Word := 0
  rsvr     : Word := 0
  tsig     : Word := 0
  ctxfree  : Word := 0
  mstatus  : Word := 0
  medeleg  : Word := 0
  mideleg  : Word := 0
  mie      : Word := 0
  mip      : Word := 0
  mtvec    : Word := 0
  mcounteren : Word := 0
  mscratch : Word := 0
  mepc     : Word := 0
  mcause   : Word := 0
  mtval    : Word := 0
  menvcfg  : Word := 0          -- ADUE of a partition's hart is the partition's (R352)
  stvec    : Word := 0
  scounteren : Word := 0
  senvcfg  : Word := 0
  sscratch : Word := 0
  sepc     : Word := 0
  scause   : Word := 0
  stval    : Word := 0
  satp     : Word := 0
  minstret : Word := 0
  deriving DecidableEq, Repr, Inhabited

/-- A key slot of a partition (R28, R44). -/
structure KeySlot where
  loaded    : Bool := false
  key       : Nat := 0                     -- the 256-bit key
  asid      : Nat := 0
  count     : Nat := 0
  exhausted : Bool := false
  deriving DecidableEq, Repr, Inhabited

/-- A running causal experiment (R474). -/
structure Trial where
  recAt   : Nat
  lo      : Word
  hi      : Word
  asid    : Nat
  delay   : Nat
  endUs   : Nat
  cmask   : Nat
  start   : List Nat
  inrange : Nat
  held    : Nat
  deriving DecidableEq, Repr, Inhabited

/-- A queued teamnew (R187): the waiting thread and its 64-byte descriptor as doublewords. -/
structure AdmitReq where
  key  : Nat
  desc : List Word
  deriving DecidableEq, Repr, Inhabited

/-- A thread that has exited, as the fault record of a store that fails after its exit names it (R446). -/
structure Ended where
  tid  : Nat
  team : Nat
  asid : Nat
  park : Nat
  deriving DecidableEq, Repr, Inhabited

/-- A partition (R28, R32, R33, R37) with its partition-wide CSRs. -/
structure Partition where
  state   : Nat := 0
  done    : Bool := false
  dlate   : Bool := false
  lc0     : Nat := 0
  lc1     : Nat := 0
  cl      : Nat := 0
  bc      : Nat := 0
  io      : Nat := 0
  pinq    : Nat := 0
  l2q     : Nat := 0
  eye     : Nat := 0
  cs      : Nat := 0
  boot    : Word := 0
  resetUs : Nat := 0             -- when the reset in progress was accepted (R39)
  drained : Bool := false        -- its drain has ended
  retq    : Word := 0
  retmsi  : Word := 0
  mbox    : Word := 0
  wdog    : Word := 0x8000_0000_0001_86A0#64
  tsdl    : Word := 200
  fq      : Word := 0
  fqmsi   : Word := 0
  paten   : Bool := false
  patbase : Word := 0
  adue    : Bool := false
  dbgctl  : Word := 0
  dbgev   : Word := 0
  dbgcmd  : Nat := 0              -- the command that waits while BUSY (R461)
  trctl   : Word := 0
  trbase  : Word := 0
  tbrkcfg : Word := 0
  mkcnt   : SMap Word := []
  mkLast  : SMap (Nat × Nat × Word) := []   -- the last increment of a marker counter: cycle, issuer, value before (R456)
  mkWrite : SMap (Nat × Nat) := []          -- the last write of a marker counter: cycle, issuer (R456)
  bcport  : Word := 0
  ethrq   : Word := 0
  open_   : List Nat := []        -- ASIDs of open contexts (R42)
  keys    : SMap KeySlot := []
  serials : SMap Nat := []        -- creation serial of each ASID (R182)
  tids    : List Nat := []        -- tids given by hardware (R128)
  ended   : List Ended := []      -- threads that have exited, the last first (R446)
  admissions : List AdmitReq := []
  trial   : Option Trial := none
  retPend : List (Nat × Nat) := []     -- frames to post, with REASON (R138)
  ctxkey  : SMap Nat := []             -- KEYSLOT of each context (R41)
  fqPend  : List (List Word) := []     -- fault records to post (R448)
  late0E  : List (Nat × Word × Word) := []  -- late store faults of threads that are on no core: tid, pc, va (R453)
  rings   : List (Nat × Word × Word × List Word) := []  -- held ring writes (R209): tid, captured operands, record
  late16  : List (Nat × Word) := []         -- cobbler notices of threads that are on no core: tid, message target (R425)
  deriving DecidableEq, Repr, Inhabited

/-- A sync entry (R218). -/
structure SyncEntry where
  kind    : Nat := 0
  tb      : Bool := false
  scope   : Nat := 0
  ovf     : Bool := false
  nis     : Nat := 0
  nbk     : Nat := 0
  nfb     : Nat := 0
  phase   : Nat := 0
  expect  : Nat := 0
  arrived : Nat := 0
  value   : Nat := 0
  pend    : Int := 0
  waiters : List (Nat × Nat) := []      -- semaphore waiters, oldest first: tidx, amount (R228)
  deriving DecidableEq, Repr, Inhabited

/-- An accumulator's state (R265): 0 FREE, 1 HELD, 2 LOST. -/
structure AccInfo where
  st      : Nat := 0
  gang    : Nat := 0
  int     : Bool := false
  waiters : List Nat := []
  deriving DecidableEq, Repr, Inhabited

/-- A race tag of 16 bytes of scratch (R342). -/
structure RaceTag where
  par   : Bool := false
  st    : Nat := 0
  owner : Nat := 0
  deriving DecidableEq, Repr, Inhabited

/-- What the end of an asynchronous operation brings to its team (R195, R222): a credit of bytes to an entry, the row path
to count (1 in-subarray, 2 bank, 3 fallback; 0 none), and flags for the issuing member: FFLAGS, sticky bits from bit 5. -/
structure Landing where
  entry : Option Nat := none
  bytes : Nat := 0
  path  : Nat := 0
  tidx  : Nat := 0
  flags : Nat := 0
  deriving DecidableEq, Repr, Inhabited

/-- Where a team member is (R198). -/
inductive MWhere | absent0 | here | away | gone
  deriving DecidableEq, Repr, Inhabited

/-- A team index: not created, resident, away, or exited; a helper or real; its frame (R176, R198). -/
structure Member where
  loc    : MWhere := .absent0
  helper : Bool := false
  stopped : Bool := false
  frame  : Nat := 0
  deriving DecidableEq, Repr, Inhabited

/-- The descriptor's fields (R176). -/
structure Desc where
  limit    : Nat := 0
  gw       : Nat := 16
  cls      : Nat := 0
  hint     : Nat := 0
  hdie     : Nat := 0
  hcluster : Nat := 0
  strict   : Bool := false
  nowait   : Bool := false
  tiles    : Nat := 0
  syncs    : Nat := 0
  accs     : Nat := 0
  scrpg    : Nat := 0
  frames   : Nat := 0
  deriving DecidableEq, Repr, Inhabited

/-- A team, which is its scratch-map entry and its resources (R175, R182). -/
structure Team where
  part    : Nat
  asid    : Nat
  num     : Nat
  st      : TeamState := .free
  serial  : Nat := 0
  saves   : Nat := 0
  ops     : Nat := 0
  die     : Nat := 0
  core    : Nat := 0                       -- core within the die
  frame   : Nat := 0
  desc    : Desc := {}
  slots   : SMap Nat := []                 -- slot reserved for each index (default 0)
  count   : Nat := 0
  halt    : Bool := false
  members : SMap Member := []
  kept    : SMap Thread := []              -- what a save keeps of a member beside its frame: its wait, its park count
  phase   : Nat := 0
  arr     : SMap Bool := []                -- arrival bits (R220)
  syncs   : SMap SyncEntry := []
  scratch : SMap Byte := []
  tiles   : SMap Byte := []                -- key 8192 * tile + byte
  tlcfg   : SMap Word := []
  accInfo : SMap AccInfo := []
  accs    : SMap (BitVec 32) := []         -- key 16384 * acc + 128 * r + c
  seeds   : List Word := []
  tags    : SMap RaceTag := []             -- key offset / 16
  sweep   : Bool := false                  -- a race-tag sweep is running (R346)
  heldPhase : Option Nat := none           -- the barrier entry whose completion waits for the sweep
  copySeq : Nat := 0
  deadline : Nat := 0                      -- us at which the save deadline expires (R190)
  imageDone : Bool := false                -- the sync image is written (R195)
  late    : List Landing := []             -- what is held while loading (R195)
  touched : List Nat := []                 -- entries credited in the sync image, to be examined at the load (R222)
  exits   : List Nat := []                 -- indices that exited while the team was on no core (R226)
  asks    : List (Nat × List Word) := []   -- descriptors of members saved in a teamnew that waits, by index (R187, R200)
  off     : Nat := 0                       -- where its scratch lies in the core's SRAM (R182)
  stopping : Option Nat := none            -- a debug stop in progress, by its SRC (R462)
  deriving DecidableEq, Repr, Inhabited

/-- A range-lock entry (R311). -/
structure RangeLock where
  asid  : Nat
  part  : Nat
  write : Bool
  lo    : Nat
  hi    : Nat                              -- first address after the interval
  copy  : Nat                              -- the operation it belongs to
  own   : Bool                             -- issued on this core
  deriving DecidableEq, Repr, Inhabited

/-- A queue binding (R210). -/
structure QBinding where
  qva  : Word
  satp : Word
  tmax : Nat
  tfr  : Nat
  suspended : Bool
  part : Nat
  deriving DecidableEq, Repr, Inhabited

/-- An entry of the group former (R142, R143). -/
structure FormerEntry where
  held    : Option (Nat × Word) := none    -- the key that holds the entry: ASID and pc
  issued  : Bool := false                  -- a group has issued since the entry passed
  waiting : List ((Nat × Word) × Nat) := []  -- deferred keys, and the groups issued since each was deferred
  deriving DecidableEq, Repr, Inhabited

/-- A trace packet, as its four doublewords (R466), with its team. -/
structure Packet where
  dw : List Word
  deriving DecidableEq, Repr, Inhabited

/-- A packet of a trace stream (R466), with the key slot under which it leaves the chip; none in the clear (R44). -/
structure TracePacket where
  slot : Option Nat
  dws  : List Word
  deriving DecidableEq, Repr, Inhabited

/-- A SIMT core (R142-R145, R304, R311, R465-R468). -/
structure Core where
  former  : SMap FormerEntry := []
  greedy  : List Nat := []                 -- threads issued last, while greedy issue lasts
  chain   : List Nat := []                 -- threads of the chain being issued (R96)
  rlocks  : List RangeLock := []
  seq     : Nat := 0
  binding : Option QBinding := none
  nextDispatch : Nat := 0                  -- first cycle at which the core may dispatch again (R211)
  lastPc  : Word := 0
  lastAsid : Nat := 0
  lastTeam : Nat := 0
  lastPhase : Nat := 0
  buffer  : List TracePacket := []         -- packets on their way to memory (R468)
  unsealed : List TracePacket := []             -- packets of confidential contexts short of a block (R469)
  issues  : Bool := false                  -- has issued since package reset (R466)
  lastPkt : Nat := 0                       -- cycle of the stream's previous packet
  syncAt  : Nat := 0                       -- cycle of the last SYNC at a multiple of 4096 cycles (R467)
  drops   : Nat := 0                       -- packets dropped since the last LOSS
  dropAt  : Nat := 0
  dropTeam : Nat := 0
  dropMulti : Bool := false
  deriving DecidableEq, Repr, Inhabited

/-- A posted pass or drain (R266, R294): the instruction's word with what it captured at issue. -/
structure Pass where
  id     : Nat
  part   : Nat
  asid   : Nat
  team   : Nat
  serial : Nat
  saves  : Nat
  core   : Nat                             -- core within the die
  gang   : Nat
  maj    : Nat
  w      : Wide
  ca     : Word                            -- captured configurations: A, B, scale; a drain: tile, scale
  cb     : Word
  cs     : Word
  ctrl   : Word                            -- a drain's control word
  addr   : Word
  seed   : Word
  pages  : List (Nat × Nat × Word)         -- a drain's translated pages (R295): va page, pa page (2^48 + for scratch), PAT
  cls    : Nat
  posted : Nat
  promoted : Bool
  leader : Nat                             -- tidx of the gang's leader
  granted : Option Nat
  retries : Nat
  flags  : Nat                             -- NX UF OF DZ NV in bits 0-4, QSAT ISAT CSAT in bits 5-7
  deriving DecidableEq, Repr, Inhabited

/-- A matrix engine (R266, R451). -/
structure Engine where
  hung    : Bool := false
  queue   : List Pass := []                -- posted, not granted, in posting order
  running : List Pass := []                -- granted, not complete
  freeAt  : Nat := 0                       -- first cycle at which the next grant may happen
  deriving DecidableEq, Repr, Inhabited

/-- A copy operation that has not retired (R298). -/
structure Copy where
  id      : Nat
  part    : Nat
  satp    : Word
  solo    : Bool
  die     : Nat
  core    : Nat
  team    : Nat
  serial  : Nat
  saves   : Nat
  seq     : Nat
  maj     : Nat
  fn      : Nat
  dir     : Bool
  s1      : Word
  s2      : Word
  s3      : Word
  layout  : List Word
  entry   : Nat
  nosync  : Bool
  state   : Nat                            -- R298: 1 QUEUED, 2 ACTIVE, 3 STALLED
  done    : Nat                            -- elements or bytes performed
  nominal : Nat
  home    : Option Nat                     -- destination home, none when the classing failed (R503)
  touches : List Nat                       -- teams whose scratch it touches
  touchAll : Bool
  key     : Nat
  tid     : Nat
  tidx    : Nat
  flags   : Nat                            -- flags of elements performed: FFLAGS, sticky bits from bit 5
  index   : Option (Nat × Nat)             -- the row of the index read last, and the index (R309)
  orig    : SMap Byte                      -- what source bytes held before the operation wrote them (R314), by address
  copied  : SMap (List Nat) := []          -- where bytes of its source that it may write were copied to (R314), by address
  frame   : Nat := 0                       -- the issuer's frame
  deriving DecidableEq, Repr, Inhabited

/-- A row operation that has not retired (R387). Pages are physical addresses. -/
structure RowOp where
  id      : Nat
  part    : Nat
  asid    : Nat
  team    : Nat
  serial  : Nat
  saves   : Nat
  key     : Nat
  tid     : Nat
  pc      : Word
  maj     : Nat
  fn      : Nat
  va      : Word                           -- destination operand, first page
  dst     : List Nat
  homes   : List Nat                       -- HOME of each destination page
  srcA    : List Nat
  srcB    : List Nat
  pattern : Word
  entry   : Nat
  nosync  : Bool
  path    : Nat
  active  : Bool
  next    : Nat                            -- lines written
  deriving DecidableEq, Repr, Inhabited

/-- A frame on its way (R134): handle KIND 0 team or KIND 1 die, waiting to be loaded. -/
structure Transit where
  frame  : Nat
  part   : Nat
  satp   : Word
  kind   : Nat
  target : Nat                             -- team number, or die (4 = ANY)
  team   : Nat                             -- the thread's own team, 0 when it joins
  tidx   : Nat
  serial : Nat
  task   : Option Nat                      -- a task thread's held slot key
  signal : Bool
  tid    : Nat
  deriving DecidableEq, Repr, Inhabited

/-- A laced operation (R391, R400, R401): kind 0 store, 1 add, 2 swap. -/
structure LacedOp where
  id   : Nat
  lace : Nat
  key  : Nat
  tid  : Nat
  part : Nat
  asid : Nat
  team : Nat
  serial : Nat
  saves : Nat := 0
  kind : Nat
  off  : Nat
  data : List Byte
  eye  : Nat
  deriving DecidableEq, Repr, Inhabited

/-- A lace at its sequencing point (R390, R391). -/
structure Lace where
  open_   : Bool := false
  next    : Nat := 1
  plane   : Nat := 0                        -- the port that reaches a root switch's sequencing point (R484)
  history : List (Nat × LacedOp) := []      -- the last 4096, newest first
  deriving DecidableEq, Repr, Inhabited

/-- An eyelet (R392, R393): state 0 UNBOUND, 1 JOINING, 2 ACTIVE, 3 STALE, 4 LEAVING. -/
structure Eyelet where
  st      : Nat := 0
  lace    : Nat := 0
  part    : Nat := 0
  satp    : Word := 0
  win     : Word := 0
  wsize   : Nat := 0
  pages   : List Nat := []
  joins   : Nat := 0                        -- joins accepted so far
  applied : Nat := 0
  buf     : List (Nat × LacedOp) := []
  drop    : Option Nat := none              -- the highest stamp dropped (R395)
  gapUs   : Option Nat := none
  asked   : Nat := 0
  reason  : Nat := 0                       -- why it turned stale (R396)
  upTo    : Nat := 0                       -- last stamp before registration or deregistration
  cls     : Nat := 0
  port    : Nat := 0
  deriving DecidableEq, Repr, Inhabited

/-- A handler set's binding (R413). -/
structure CobBind where
  part   : Nat
  satp   : Word
  budget : Nat
  vabase : Nat
  pabase : Nat
  wsize  : Nat
  even   : Nat
  notify : Bool
  slen   : Nat
  soff   : Nat
  fq     : Nat
  fqsize : Nat
  image  : List Byte
  deriving DecidableEq, Repr, Inhabited

/-- A cobbler event (R416): code 0 miss, 1 fill, 2 eviction, 3 message. -/
structure CobEvent where
  set  : Nat
  code : Nat
  pa   : Nat
  a1   : Word
  a2   : Word
  a3   : Word
  a4   : Word
  part   : Nat := 0
  asid   : Nat := 0                        -- the team that sent a message, 0 = none, with its save tag (R182, R195)
  team   : Nat := 0
  serial : Nat := 0
  saves  : Nat := 0
  deriving DecidableEq, Repr, Inhabited

/-- A running invocation (R418, R420, R422): its held lines with the private values of their bytes. -/
structure Invocation where
  ev     : CobEvent
  cycles : Nat
  held   : List (Nat × SMap Byte)
  lines  : List Nat                        -- held line addresses, in the order of their first access
  fwd    : Bool
  entry  : Nat                             -- region offset the invocation began at
  deriving DecidableEq, Repr, Inhabited

/-- A home slice's cobbler core (R410, R412). -/
structure Slice where
  sets   : List (Nat × CobBind) := []
  next   : List (Nat × Option CobBind) := []     -- DRAINING slots, with what they become
  region : SMap Byte := []
  queue  : List CobEvent := []
  run    : Option Invocation := none
  deriving DecidableEq, Repr, Inhabited

/-- A translation-cache entry (R363). -/
structure TlbEntry where
  cache  : Nat
  part   : Nat
  asid   : Nat
  vpn    : Nat                             -- first virtual page number
  pages  : Nat                             -- pages of 4 KiB
  ppn    : Nat
  pte    : Word
  pat    : Word
  pteAt  : Nat                             -- where the leaf stands
  deriving DecidableEq, Repr, Inhabited

/-- A non-leaf PTE in the walk cache of a SIMT die (R363): the table that stands below `level` for the VAs with a prefix. -/
structure WalkPte where
  die    : Nat
  part   : Nat
  asid   : Nat
  level  : Nat                             -- levels that remain to be read
  prefix_ : Nat                            -- VA[56:12] above them
  table  : Nat                             -- physical page number of the next table
  deriving DecidableEq, Repr, Inhabited

/-- A miss of a SIMT thread's operation: waiting for a walker, being walked, or ended (R363). -/
structure Walk where
  key   : Nat
  part  : Nat
  satp  : Word
  va    : Word
  write : Bool
  phase : Nat                              -- 0 waiting, 1 walking, 2 ended
  deriving DecidableEq, Repr, Inhabited

/-- A tlbip in progress (R365): `waits` lists the agents (cache numbers) that have not acknowledged. -/
structure Shootdown where
  part  : Nat
  key   : Nat
  av    : Bool
  aa    : Bool
  va    : Word
  asid  : Nat
  waits : List Nat
  deriving DecidableEq, Repr, Inhabited

/-- A SIMT L1 copy of a line of a managed page, or of a page private to the core (R357, R358, log 10). -/
structure L1Line where
  core  : Nat
  line  : Nat
  data  : SMap Byte
  dirty : SMap Bool
  deriving DecidableEq, Repr, Inhabited

/-- A record of the partition manager's error log: kind 0 boundary (R30), 1 error (R454), 2 corrected (R388). -/
structure LogRec where
  kind : Nat
  part : Nat
  req  : Nat
  pa   : Nat
  tid  : Nat
  deriving DecidableEq, Repr, Inhabited

/-- A Welt module (R475-R480); `width` is the width last trained, `busy` the command in progress. -/
structure Welt where
  st    : Nat := 1
  width : Nat := 64
  busy  : Nat := 0
  err   : Bool := false
  half  : Bool := false
  rthr  : Nat := 0x100
  hi    : Bool := false
  rtot  : Nat := 0
  rwin  : Nat := 0
  rcur  : Nat := 0
  lerr  : Word := 0
  map   : Nat := 0x8080_8080
  replays : Nat := 0
  deriving DecidableEq, Repr, Inhabited

/-- A Bolcel port (R482). -/
structure BPort where
  st    : Nat := 0
  lanes : BitVec 4 := 0
  deriving DecidableEq, Repr, Inhabited

/-- A frame waiting in an Ethernet port's buffer (R489). -/
structure EthFrame where
  queue  : Nat
  tagged : Bool
  bytes  : List Byte
  deriving DecidableEq, Repr, Inhabited

/-- An Ethernet port (R488-R490): frames in its 1 MiB buffer, the receive queues that flow control holds back,
and the flow-control frames and data frames it has sent, oldest first. -/
structure EthPort where
  buffer : List EthFrame := []
  paused : List (Nat × Nat × Nat) := []    -- PCP (8 = PAUSE), queue, us of the last flow-control frame
  sent   : List (List Byte) := []
  fcSent : List (Nat × Nat) := []          -- PCP (8 = PAUSE), quanta
  deriving DecidableEq, Repr, Inhabited

/-- Fuses, clock plan and power (R492-R500). -/
structure Boot where
  powered : Bool := true
  lc      : Nat := 0
  floor   : Nat := 0
  failure : Nat := 0                       -- code of R494, 0 = none
  cband   : Nat := 0
  clash   : Bool := false
  reg     : Nat := 0
  lat     : Nat := 0
  simt    : Nat := 0
  hot     : List Nat := []                 -- throttled dies (R500)
  roots   : Nat := 0                       -- the PCIe links that are root ports: bit 0 link 0, bit 1 link 1 (R491)
  asked   : Bool := false                  -- a package reset asked of the management controller
  deriving DecidableEq, Repr, Inhabited

/-- What a write of the hardware does at its home: bytes, bits of a doubleword replaced and a number added, the credit of a sync entry in
a team's image (R222), or the record of an abort in a fault ring of 2^size records (R424). -/
inductive PostKind
  | bytes (bs : List Byte)
  | word (keep set add : Word)
  | credit (n path : Nat)
  | abort (size : Nat) (rec : List Word)
  deriving DecidableEq, Repr

/-- The bytes that a write of the hardware reads and writes. -/
def PostKind.size : PostKind → Nat
  | .bytes bs => bs.length
  | .word _ _ _ => 8
  | .credit _ _ => 16
  | .abort size _ => 0x40 + 32 * 2 ^ size

/-- A write of the hardware on its way from a die to its home, where it waits for a line or a route (R420, R481). -/
structure Posted where
  die  : Nat
  at_  : Nat
  what : PostKind
  deriving DecidableEq, Repr

/-- What is being issued: the threads of the group in ascending lane order, or the one hart or cobbler core;
the address, bits and length in bytes of the instruction. -/
structure Issue where
  keys : List Nat := []
  pc   : Word := 0
  bits : Word := 0
  len  : Nat := 4
  trapped : Bool := false                  -- a hart's instruction took an exception
  deriving DecidableEq, Repr, Inhabited

/-- One move of the package (log 1): a hart, a SIMT core or a cobbler core issues; an event row happens; time passes. -/
inductive Turn
  | hart (die core : Nat)
  | core (c : Nat)
  | cobbler (slice : Nat)
  | event (i : Instr)
  | time (cycles : Nat)
  deriving DecidableEq, Repr

/-- One Aklon package. -/
structure State where
  turns    : List Turn := []
  focus    : Nat := 0x10_0000              -- the key of the agent that issued last (log 1)
  cur      : Issue := {}
  cycle    : Nat := 0
  us       : Nat := 0
  freeIdx  : Nat := 0
  nextId   : Nat := 0                      -- numbers passes, copies, row and laced operations, and issue groups of memory operations
  mem      : List Host.Cell := []
  stale    : SMap (List Byte) := []        -- earlier values that a byte has had since its line was last written back (R359)
  posted   : List Posted := []             -- writes of the hardware on their way to their homes, oldest first
  resvs    : List (Nat × Nat × Nat) := []  -- LR reservations (R9, standard A): key, physical address, size
  poison   : List Nat := []                -- lines that hold an uncorrectable error (R454)
  pinned   : List Nat := []
  zeroTags : List Nat := []
  l1       : List L1Line := []
  rtbase   : Word := 0
  granules : SMap Word := []               -- map entries in force (R35, R38)
  partctl  : Word := 0                     -- PSEL and CERR
  parts    : SMap Partition := []
  harts    : SMap Hart := []
  threads  : List (Nat × Thread) := []     -- by key, strictly rising; an absent slot is empty
  held     : List (Nat × Nat × Nat) := []  -- slots that task threads keep while away (R212): partition, tid, slot key
  teams    : List Team := []
  cores    : SMap Core := []
  engines  : SMap Engine := []
  copies   : List Copy := []
  rowOps   : List RowOp := []
  transits : List Transit := []
  laces    : SMap Lace := []
  laced    : List LacedOp := []            -- sent and not stamped, oldest first
  eyelets  : SMap Eyelet := []
  slices   : SMap Slice := []
  tlb      : List TlbEntry := []           -- newest first
  walkCache : List WalkPte := []           -- newest first
  walks    : List Walk := []               -- misses and walks, oldest first
  shoots   : List Shootdown := []
  msis     : List (Nat × Nat) := []        -- messages written: interrupt file page, identity (R137)
  intPages : List Nat := []                -- the pages at which the harts' interrupt files stand (R10, log 12)
  mirqs    : Nat := 0                      -- machine-level interrupts raised on hart 0 of die 0 (R34)
  errLog   : List LogRec := []
  invals   : List Nat := []                -- lines whose invalidation the directory has acknowledged, the last first (R485)
  actCorr  : Nat := 0
  actSatn  : Nat := 0
  actThresh : Nat := 1024
  rowCnt   : SMap Nat := []                -- activation counters by row (R388)
  rowDue   : List Nat := []                -- rows whose neighbours are due for refresh
  weltsel  : Nat := 0
  welts    : SMap Welt := []
  windowUs : Nat := 0                      -- us at which the current retry window began (R479)
  ports    : SMap BPort := []
  eth      : SMap EthPort := []
  boot     : Boot := {}
  deriving DecidableEq, Repr

/-- Why the machine stops. -/
inductive Fault
  /-- Raised by step when the package has no power (R6, POWER_DOWN): only PACKAGE_RESET leaves it. Safe: the
  hardware does nothing either. -/
  | noPower
  /-- Raised by step when no turn is listed and the focus has nothing to issue (every core in reset, the hart waits,
  the core has no ready group): nothing in the package can move until the environment acts. Safe. -/
  | idle
  deriving DecidableEq, Repr

/-- Why an instruction has no meaning. -/
inductive Refusal
  /-- The instruction has no meaning yet. Raised by Dispatch only. Safe: no claim covers it. -/
  | notModelled (mnemonic : String)
  deriving DecidableEq, Repr

/-- The key of latency core `core` of latency die `die` in State.threads and State.harts. -/
def hartKey (die core : Nat) : Nat := 0x10_0000 + 64 * die + core

/-- The key of a SIMT slot: die, core within the die, lane, slot. -/
def slotKey (die core lane slot : Nat) : Nat := 65536 * die + 1024 * core + 16 * lane + slot

/-- The key of the cobbler core of slice `slice` (64 * die + slice within the die). -/
def cobKey (slice : Nat) : Nat := 0x20_0000 + slice

/-- The package right after package reset (R492 step 7): the first image runs in M mode on latency core 0 of
latency die 0, the manager hart, and every other core is in reset. The values the spec does not give are those of log 2. -/
def State.reset : State where
  granules := (List.range 44).map fun g => (g, 0x8000_0000_0010_0000#64)
  harts    := [(hartKey 0 0, { running := true, mode := .machine, mgr := true })]
  threads  := [(hartKey 0 0, { part := 8, st := .latency, lfsr := 0x9E37_79B9 })]

end Sys2Proof.Machine
end

