-- ==== Sys2Proof/Machine/Mem.lean ====
section
/-! DEFINITION. Sparse maps, bytes, bit fields, memory at the home, and the access to each piece of the state. -/

namespace Sys2Proof.Machine

/-! Sparse maps: keys strictly rising. -/

/-- The entry of a key. -/
def mget? : SMap α → Nat → Option α
  | [], _ => none
  | (k, v) :: m, x => if x = k then some v else mget? m x

/-- The value of a key; `d` where none is listed. -/
def mget (d : α) (m : SMap α) (x : Nat) : α := (mget? m x).getD d

/-- Lists a value under a key, in place of any other. -/
def mput : SMap α → Nat → α → SMap α
  | [], x, v => [(x, v)]
  | (k, w) :: m, x, v => if x < k then (x, v) :: (k, w) :: m else if x = k then (x, v) :: m else (k, w) :: mput m x v

/-- Removes a key. -/
def mdel : SMap α → Nat → SMap α
  | [], _ => []
  | (k, w) :: m, x => if x = k then mdel m x else (k, w) :: mdel m x

/-- Sets the value of a key in the canonical form: the default is not listed. -/
def mset [DecidableEq α] (d : α) (m : SMap α) (x : Nat) (v : α) : SMap α := if v = d then mdel m x else mput m x v

/-- The canonical form: keys strictly rising, no entry equal to the default. -/
def mwf [DecidableEq α] (d : α) : SMap α → Bool
  | [] => true
  | [(_, v)] => v ≠ d
  | (k, v) :: (k', v') :: m => v ≠ d && k < k' && mwf d ((k', v') :: m)

/-- Keys strictly rising, whatever the values. -/
def mkeys : SMap α → Bool
  | [] => true
  | [_] => true
  | (k, _) :: (k', v') :: m => k < k' && mkeys ((k', v') :: m)

/-! Bits and bytes. -/

/-- Bits [hi:lo] of a word, as a number. -/
def bits (v : Word) (hi lo : Nat) : Nat := v.toNat / 2 ^ lo % 2 ^ (hi + 1 - lo)

/-- Bit n of a word. -/
def bit (v : Word) (n : Nat) : Bool := v.getLsbD n

/-- A word with bits [hi:lo] replaced. -/
def setBits (v : Word) (hi lo : Nat) (x : Nat) : Word :=
  let m : Word := BitVec.ofNat 64 ((2 ^ (hi + 1 - lo) - 1) * 2 ^ lo)
  (v &&& ~~~ m) ||| (BitVec.ofNat 64 (x * 2 ^ lo) &&& m)

/-- A word with bit n replaced. -/
def setBit (v : Word) (n : Nat) (b : Bool) : Word := setBits v n n (if b then 1 else 0)

/-- The number of a truth value. -/
def b2n (b : Bool) : Nat := if b then 1 else 0

/-- n as a 64-bit word. -/
def w64 (n : Nat) : Word := BitVec.ofNat 64 n

/-- The n bytes of a value, least significant first (R12). -/
def toBytes : Nat → Nat → List Byte
  | 0, _ => []
  | n + 1, v => BitVec.ofNat 8 v :: toBytes n (v / 256)

/-- The value of bytes, least significant first (R12). -/
def ofBytes : List Byte → Nat
  | [] => 0
  | b :: bs => b.toNat + 256 * ofBytes bs

/-- The n addresses from a. -/
def span (a n : Nat) : List Nat := (List.range n).map (a + ·)

/-- A number in its place in an ascending list. -/
def insAsc (x : Nat) : List Nat → List Nat
  | [] => [x]
  | y :: l => if x ≤ y then x :: y :: l else y :: insAsc x l

/-- An ascending list of the same numbers. -/
def sortAsc : List Nat → List Nat
  | [] => []
  | x :: l => insAsc x (sortAsc l)

/-- A list without repeats, first places kept. -/
def uniq [DecidableEq α] : List α → List α
  | [] => []
  | x :: l => x :: (uniq l).filter (· ≠ x)

/-- The doublewords of bytes. -/
def dwords (bs : List Byte) : Nat → List Word
  | 0 => []
  | n + 1 => w64 (ofBytes (bs.take 8)) :: dwords (bs.drop 8) n

/-- Element i of a list of doublewords. -/
def dw (l : List Word) (i : Nat) : Word := l.getD i 0

/-- A status result St(c) (R186, R208, R444). -/
def stw (c : Nat) : Word := w64 (0x8000_0000_0000_0000 + c)

/-- A sign-extended number of n bits, as a word. -/
def sext (n : Nat) (v : Nat) : Word := (BitVec.ofNat n v).signExtend 64

/-! Memory at the home. -/

/-- The byte at a physical address. An unlisted address reads zero: every memory is set to zero before any core
leaves reset (R45). -/
def Memory.byte (m : List Host.Cell) (a : Nat) : Byte := mget 0 m a

/-- Writes one byte, in the canonical form. -/
def Memory.put (m : List Host.Cell) (a : Nat) (b : Byte) : List Host.Cell := mset 0 m a b

/-- The canonical form of memory. -/
def Memory.wf (m : List Host.Cell) : Bool := mwf 0 m

/-- The n bytes from an address. -/
def Memory.read (m : List Host.Cell) (a n : Nat) : List Byte := (span a n).map (Memory.byte m)

/-- Writes bytes from an address on. -/
def Memory.write (m : List Host.Cell) (a : Nat) : List Byte → List Host.Cell
  | [] => m
  | b :: bs => Memory.write (Memory.put m a b) (a + 1) bs

/-- The n bytes at a home, from a physical address. -/
def rdBytes (s : State) (a n : Nat) : List Byte := Memory.read s.mem a n

/-- An aligned doubleword at a home. -/
def rdWord (s : State) (a : Nat) : Word := w64 (ofBytes (rdBytes s a 8))

/-- n doublewords from an address. -/
def rdWords (s : State) (a n : Nat) : List Word := (List.range n).map fun i => rdWord s (a + 8 * i)

/-- Two ranges of addresses share one. -/
def overlaps (a n b m : Nat) : Bool := a < b + m && b < a + n

/-- The earlier values of bytes once other bytes are written over them (R359). -/
def staleAfter (m : List Host.Cell) (st : SMap (List Byte)) (a : Nat) : List Byte → SMap (List Byte)
  | [] => st
  | b :: bs =>
    let old := Memory.byte m a
    staleAfter m (if old = b then st else mput st a (old :: mget [] st a)) (a + 1) bs

/-- Bytes written at a home by the agent `key`: memory holds them, a zero line they touch is a line with data
(R361), and every other agent's LR reservation over one of them is lost. -/
def wrBytes (s : State) (key : Nat) (a : Nat) (bs : List Byte) : State :=
  { s with
    mem := Memory.write s.mem a bs
    stale := staleAfter s.mem s.stale a bs
    zeroTags := s.zeroTags.filter fun l => !overlaps a bs.length (64 * l) 64
    resvs := s.resvs.filter fun (k, b, n) => k = key || !overlaps a bs.length b n }

/-- The key of a writer that is no thread: hardware, an engine or a port. -/
def hwKey : Nat := 0x40_0000

/-- A doubleword written by hardware. -/
def wrWord (s : State) (a : Nat) (v : Word) : State := wrBytes s hwKey a (toBytes 8 v.toNat)

/-- Doublewords written by hardware from an address on. -/
def wrWords (s : State) (a : Nat) : List Word → State
  | [] => s
  | v :: vs => wrWords (wrWord s a v) (a + 8) vs

/-- A line has been written back: no earlier value of its bytes stands below the caches (R359). -/
def settleLine (s : State) (line : Nat) : State := { s with stale := s.stale.filter fun x => x.1 / 64 ≠ line }

/-- An uncorrectable error stands in one of the n bytes from an address (R454). -/
def poisoned (s : State) (a n : Nat) : Bool := s.poison.any fun l => overlaps a n (64 * l) 64

/-! The pieces of the state. -/

/-- The thread in a slot, on a hart or on a cobbler core; the record of no thread where none is. -/
def thr (s : State) (k : Nat) : Thread := (mget? s.threads k).getD {}

/-- The slot holds a thread. -/
def occupied (s : State) (k : Nat) : Bool := (mget? s.threads k).isSome

/-- Sets the thread of a key. -/
def setThr (s : State) (k : Nat) (t : Thread) : State := { s with threads := mput s.threads k t }

/-- Changes the thread of a key. -/
def modThr (s : State) (k : Nat) (f : Thread → Thread) : State := setThr s k (f (thr s k))

/-- Frees a slot. -/
def dropThr (s : State) (k : Nat) : State := { s with threads := mdel s.threads k }

/-- The hart of a key. -/
def hart (s : State) (k : Nat) : Hart := mget {} s.harts k

/-- Changes a hart. -/
def modHart (s : State) (k : Nat) (f : Hart → Hart) : State := { s with harts := mset {} s.harts k (f (hart s k)) }

/-- A partition. -/
def part (s : State) (p : Nat) : Partition := mget {} s.parts p

/-- Changes a partition. -/
def modPart (s : State) (p : Nat) (f : Partition → Partition) : State :=
  { s with parts := mset {} s.parts p (f (part s p)) }

/-- A SIMT core: 64 * die + core. -/
def core (s : State) (c : Nat) : Core := mget {} s.cores c

/-- Changes a SIMT core. -/
def modCore (s : State) (c : Nat) (f : Core → Core) : State := { s with cores := mset {} s.cores c (f (core s c)) }

/-- A matrix engine: 16 * die + cluster. -/
def engine (s : State) (e : Nat) : Engine := mget {} s.engines e

/-- Changes a matrix engine. -/
def modEngine (s : State) (e : Nat) (f : Engine → Engine) : State :=
  { s with engines := mset {} s.engines e (f (engine s e)) }

/-- A home slice's cobbler core. -/
def slice (s : State) (x : Nat) : Slice := mget {} s.slices x

/-- Changes a cobbler core. -/
def modSlice (s : State) (x : Nat) (f : Slice → Slice) : State :=
  { s with slices := mset {} s.slices x (f (slice s x)) }

/-- An eyelet. -/
def eyelet (s : State) (e : Nat) : Eyelet := mget {} s.eyelets e

/-- Changes an eyelet. -/
def modEyelet (s : State) (e : Nat) (f : Eyelet → Eyelet) : State :=
  { s with eyelets := mset {} s.eyelets e (f (eyelet s e)) }

/-- A lace at its sequencing point. -/
def lace (s : State) (l : Nat) : Lace := mget {} s.laces l

/-- Changes a lace. -/
def modLace (s : State) (l : Nat) (f : Lace → Lace) : State := { s with laces := mset {} s.laces l (f (lace s l)) }

/-- A Welt module. -/
def welt (s : State) (m : Nat) : Welt := mget {} s.welts m

/-- Changes a Welt module. -/
def modWelt (s : State) (m : Nat) (f : Welt → Welt) : State := { s with welts := mset {} s.welts m (f (welt s m)) }

/-- A Bolcel port. -/
def port (s : State) (p : Nat) : BPort := mget {} s.ports p

/-- Changes a Bolcel port. -/
def modPort (s : State) (p : Nat) (f : BPort → BPort) : State := { s with ports := mset {} s.ports p (f (port s p)) }

/-- An Ethernet port. -/
def ethPort (s : State) (p : Nat) : EthPort := mget {} s.eth p

/-- Changes an Ethernet port. -/
def modEth (s : State) (p : Nat) (f : EthPort → EthPort) : State := { s with eth := mset {} s.eth p (f (ethPort s p)) }

/-- The team of a number in a context of a partition. -/
def team? (s : State) (p asid num : Nat) : Option Team :=
  s.teams.find? fun t => t.part = p && t.asid = asid && t.num = num

/-- The team, or the record of no team. -/
def team (s : State) (p asid num : Nat) : Team := (team? s p asid num).getD { part := p, asid := asid, num := num }

/-- Changes a team. -/
def modTeam (s : State) (p asid num : Nat) (f : Team → Team) : State :=
  { s with teams := s.teams.map fun t => if t.part = p && t.asid = asid && t.num = num then f t else t }

/-! Keys and places. -/

/-- The key names a SIMT slot. -/
def isSimt (k : Nat) : Bool := k < 0x10_0000

/-- The key names a latency hart. -/
def isHart (k : Nat) : Bool := 0x10_0000 ≤ k && k < 0x20_0000

/-- The key names a cobbler core. -/
def isCob (k : Nat) : Bool := 0x20_0000 ≤ k && k < 0x40_0000

/-- The core type of a key (R9). -/
def coreType (k : Nat) : CoreType := if isSimt k then .simt else if isHart k then .latency else .cobbler

/-- The SIMT core of a slot: 64 * die + core. -/
def coreOf (k : Nat) : Nat := k / 1024

/-- The SIMT die of a slot. -/
def dieOf (k : Nat) : Nat := k / 65536

/-- The lane of a slot. -/
def laneOf (k : Nat) : Nat := k / 16 % 64

/-- The slot number within its lane. -/
def slotOf (k : Nat) : Nat := k % 16

/-! Dies and routes (R17, R18, R27, R475, R481). A die number is 0-3 for a SIMT die and 4, 5 for latency die 0, 1. -/

/-- The die of a key. -/
def agentDie (k : Nat) : Nat :=
  if isHart k then 4 + (k - 0x10_0000) / 64 else if isCob k then (k - 0x20_0000) / 64 else dieOf k

/-- The SIMT-SIMT boundary between two dies (R17, R475). -/
def boundary? (a b : Nat) : Option Nat :=
  match min a b, max a b with
  | 0, 1 => some 0 | 2, 3 => some 1 | 0, 2 => some 2 | 1, 3 => some 3 | _, _ => none

/-- The SIMT die by which a latency die reaches SIMT die d: the one it touches in d's row (R18). -/
def entryDie (l d : Nat) : Nat := d / 2 * 2 + (l - 4)

/-- The dies that traffic passes from a to b, both included (R18): east-west first and then north-south between SIMT dies; between
a latency die and a SIMT die through the one that the latency die touches in its row. Between the latency dies the spec gives no
route (log 37). -/
def route (a b : Nat) : List Nat :=
  if a = b then [a]
  else if a < 4 && b < 4 then (if a ^^^ b = 3 then [a, a ^^^ 1, b] else [a, b])
  else if a < 4 then (if entryDie b a = a then [a, b] else [a, entryDie b a, b])
  else if b < 4 then (if entryDie a b = b then [a, b] else [a, entryDie a b, b])
  else [a, b]

/-- The modules of a boundary (R475). -/
def boundaryModules (b : Nat) : List Nat := span (24 * b) 24

/-- The boundary has an active module (R477, R481). -/
def boundaryOpen (s : State) (b : Nat) : Bool := (boundaryModules b).any fun m => (welt s m).st = 1 || (welt s m).st = 2

/-- Every SIMT-SIMT boundary between successive dies of a list has an active module. -/
def pathOpen (s : State) : List Nat → Bool
  | a :: b :: l => (match boundary? a b with | some x => boundaryOpen s x | none => true) && pathOpen s (b :: l)
  | _ => true

/-- Traffic passes between two dies; where it does not, it waits (R481). -/
def routeOpen (s : State) (a b : Nat) : Bool := pathOpen s (route a b)

/-- The latency die that carries a Bolcel port, an Ethernet port, a PCIe link (R27). -/
def bolcelDie (p : Nat) : Nat := 4 + p / 18
@[inherit_doc bolcelDie] def ethDie (p : Nat) : Nat := 4 + p / 4
@[inherit_doc bolcelDie] def pcieDie (p : Nat) : Nat := 4 + p

/-- `place` of a key (R22). -/
def place (k : Nat) : Word :=
  if isHart k then
    let n := k - 0x10_0000
    w64 (2 ^ 63 + n / 64 * 2 ^ 20 + n % 64 * 2 ^ 14)
  else w64 (dieOf k * 2 ^ 20 + coreOf k % 64 * 2 ^ 14 + coreOf k % 64 / 4 * 2 ^ 10 + laneOf k * 16 + slotOf k)

/-- ASID of a `satp` value. -/
def asidOf (satp : Word) : Nat := bits satp 59 44

/-- The partition tag of a key's requests (R29): 8 for a manager hart. -/
def partOf (s : State) (k : Nat) : Nat := if isHart k && (hart s k).mgr then 8 else if isHart k then (hart s k).part else (thr s k).part

/-- The `satp` by which a key translates. -/
def satpOf (s : State) (k : Nat) : Word := if isHart k then (hart s k).satp else (thr s k).satp

/-- The context of a key. -/
def asidK (s : State) (k : Nat) : Nat := asidOf (satpOf s k)

/-- The team of a key's thread, when it is a member (R128). -/
def teamK? (s : State) (k : Nat) : Option Team :=
  if (thr s k).team = 0 then none else team? s (partOf s k) (asidK s k) (thr s k).team

/-- The partition owns the cluster of a SIMT core. -/
def ownsCore (s : State) (p c : Nat) : Bool := (part s p).cl.testBit (c / 64 * 16 + c % 64 / 4)

/-- The partition owns a cluster of a SIMT die. -/
def ownsDie (s : State) (p d : Nat) : Bool := (part s p).cl / 2 ^ (16 * d) % 65536 ≠ 0

/-- The SIMT cores of a partition, ascending. -/
def coresOf (s : State) (p : Nat) : List Nat := (List.range 256).filter (ownsCore s p)

/-- A free value of 64 bits (log 3), and the state with the counter advanced. -/
def freshWord (s : State) : Word × State := (Config.freeWord s.freeIdx, { s with freeIdx := s.freeIdx + 1 })

/-- A choice that the spec leaves to hardware among the candidates (log 3): the only one, or a free one. -/
def choose (s : State) (l : List Nat) : Option Nat × State :=
  match l with
  | [] => (none, s)
  | [x] => (some x, s)
  | x :: l => (some ((x :: l).getD (Config.freeNat s.freeIdx % (l.length + 1)) x), { s with freeIdx := s.freeIdx + 1 })

/-- An optional move of the hardware (log 3). -/
def freshBool (s : State) : Bool × State := (Config.freeBool s.freeIdx, { s with freeIdx := s.freeIdx + 1 })

/-- A free number (log 3). -/
def freshNat (s : State) : Nat × State := (Config.freeNat s.freeIdx, { s with freeIdx := s.freeIdx + 1 })

/-- The next number for a pass, copy, row operation or laced operation. -/
def newId (s : State) : Nat × State := (s.nextId, { s with nextId := s.nextId + 1 })

/-- An identity becomes pending in an interrupt file (R10). -/
def IntFile.post (f : IntFile) (id : Nat) : IntFile := { f with eip := f.eip ||| 2 ^ id }

/-- The identity that an interrupt file presents: the lowest pending and enabled one below its threshold (R10). -/
def IntFile.top (f : IntFile) : Option Nat :=
  if f.eip &&& f.eie = 0 then none
  else (List.range 2048).find? fun i => i ≠ 0 && (f.eip &&& f.eie).testBit i && (f.threshold = 0 || i < f.threshold)

/-- `mip` of a hart: what software set in it, with the external interrupts that its interrupt files deliver (R10). -/
def Hart.pending (h : Hart) : Word :=
  let on := fun (f : IntFile) => f.delivery = 1 && f.top.isSome
  setBit (setBit h.mip 9 ((bit h.mip 9 && !bit h.mvien 9) || on h.sfile)) 11 (bit h.mip 11 || on h.mfile)

/-- `mvip` as read (AIA, log 12): the bits that `mvien` separates, and aliases of `mip`'s written bits else. -/
def Hart.mvipRead (h : Hart) : Word := (h.mip &&& 0x222 &&& ~~~ h.mvien) ||| (h.mvip &&& h.mvien)

/-- The interrupts that are virtual in S mode (AIA, log 12): `mvien` gives them, and no delegation. -/
def Hart.virt (h : Hart) : Word := h.mvien &&& ~~~ h.mideleg

/-- `sip` as read (AIA, log 12). -/
def Hart.sipRead (h : Hart) : Word := (h.pending &&& h.mideleg) ||| (h.mvipRead &&& h.virt)

/-- `sie` as read (AIA, log 12). -/
def Hart.sieRead (h : Hart) : Word := (h.mie &&& h.mideleg) ||| (h.svie &&& h.virt)

/-- The interrupts pending and enabled, which end a `wfi` (standard). -/
def Hart.wanted (h : Hart) : Word := (h.pending &&& h.mie) ||| (h.sipRead &&& h.sieRead)

/-- A message-signalled interrupt with an identity written to an interrupt file; identity 0 writes none (R10, R137, R445). -/
def msi (s : State) (v : Word) : State :=
  if bits v 10 0 = 0 then s
  else
    let n := Config.intFile (bits v 63 12) % 144
    modHart { s with msis := s.msis ++ [(bits v 63 12, bits v 10 0)] } (hartKey (n / 72) (n / 2 % 36)) fun h =>
      if n % 2 = 0 then { h with mfile := h.mfile.post (bits v 10 0) } else { h with sfile := h.sfile.post (bits v 10 0) }

/-- A machine-level interrupt on latency core 0 of latency die 0 (R30, R34, R454, R479). -/
def mirq (s : State) : State :=
  modHart { s with mirqs := s.mirqs + 1 } (hartKey 0 0) fun h => { h with mfile := h.mfile.post (Config.deviceIrq % 2047 + 1) }

/-- A record of the partition manager's error log, with its machine-level interrupt (R30, R34, R454). -/
def errRecord (s : State) (r : LogRec) : State := mirq { s with errLog := s.errLog ++ [r] }

/-- The error record of an uncorrectable error that something other than an access in U mode consumed (R454), at a
physical address of a partition; one record of each. -/
def eccRecord (s : State) (p pa : Nat) : State :=
  let r : LogRec := { kind := 1, part := p, req := 0, pa := pa, tid := 0 }
  if s.errLog.contains r then s else errRecord s r

end Sys2Proof.Machine
end

