-- ==== Sys2Proof/Machine/Aes.lean ====
section
/-! DEFINITION. AES-256-GCM, by which the blocks of a confidential context's trace are sealed (R44, FIPS 197 and NIST SP 800-38D). -/

namespace Sys2Proof.Machine.Aes

/-- Multiplication by x in GF(2^8). -/
def twice (b : Byte) : Byte := (b <<< 1) ^^^ (if b.getLsbD 7 then 0x1B else 0)

/-- The product in GF(2^8). -/
def times (a b : Byte) : Byte :=
  ((List.range 8).foldl (fun (r, x) i => (if b.getLsbD i then r ^^^ x else r, twice x)) ((0 : Byte), a)).1

/-- The inverse in GF(2^8), zero for zero: the power 254. -/
def inverse (a : Byte) : Byte := ((List.range 7).foldl (fun (r, x) _ => (times r (times x x), times x x)) ((1 : Byte), a)).1

/-- The S-box. -/
def sub (a : Byte) : Byte :=
  let b := inverse a
  b ^^^ b.rotateLeft 1 ^^^ b.rotateLeft 2 ^^^ b.rotateLeft 3 ^^^ b.rotateLeft 4 ^^^ 0x63

/-- Bytes combined one by one. -/
def xor (a b : List Byte) : List Byte := List.zipWith (· ^^^ ·) a b

/-- A byte of a list. -/
def at_ (l : List Byte) (i : Nat) : Byte := l.getD i 0

/-- Word i of the key schedule from the words before it, newest first. -/
def nextWord (ws : List (List Byte)) (i : Nat) : List Byte :=
  let t := ws.headD []
  let t :=
    if i % 8 = 0 then xor ((t.drop 1 ++ t.take 1).map sub) [BitVec.ofNat 8 (2 ^ (i / 8 - 1)), 0, 0, 0]
    else if i % 8 = 4 then t.map sub else t
  xor (ws.getD 7 []) t

/-- The 15 round keys of a key of 32 bytes. -/
def roundKeys (key : List Byte) : List (List Byte) :=
  let first := ((List.range 8).map fun i => (key.drop (4 * i)).take 4).reverse
  let ws := ((span 8 52).foldl (fun ws i => nextWord ws i :: ws) first).reverse.flatten
  (List.range 15).map fun r => (ws.drop (16 * r)).take 16

/-- ShiftRows. -/
def shiftRows (b : List Byte) : List Byte := (List.range 16).map fun i => at_ b (4 * ((i / 4 + i % 4) % 4) + i % 4)

/-- MixColumns. -/
def mixColumns (b : List Byte) : List Byte :=
  (List.range 16).map fun i =>
    let c := fun r => at_ b (i / 4 * 4 + (i + r) % 4)
    times (c 0) 2 ^^^ times (c 1) 3 ^^^ c 2 ^^^ c 3

/-- The cipher on one block of 16 bytes. -/
def cipher (rks : List (List Byte)) (b : List Byte) : List Byte :=
  let rk := fun i => rks.getD i []
  let b := (span 1 13).foldl (fun b i => xor (mixColumns (shiftRows (b.map sub))) (rk i)) (xor b (rk 0))
  xor (shiftRows (b.map sub)) (rk 14)

/-- The n bytes of a number, most significant first. -/
def bigEndian (n v : Nat) : List Byte := (toBytes n v).reverse

/-- The product in GF(2^128), with the first bit the most significant one. -/
def times128 (x y : BitVec 128) : BitVec 128 :=
  ((List.range 128).foldl (fun (z, v) i =>
    (if x.getLsbD (127 - i) then z ^^^ v else z,
      (v >>> 1) ^^^ (if v.getLsbD 0 then BitVec.ofNat 128 (0xE1 * 2 ^ 120) else 0))) ((0 : BitVec 128), y)).1

/-- GHASH of blocks of 16 bytes under a hash key. -/
def ghash (h : BitVec 128) (bs : List (List Byte)) : BitVec 128 :=
  bs.foldl (fun y b => times128 (y ^^^ BitVec.ofNat 128 (ofBytes b.reverse)) h) 0

/-- The ciphertext of n blocks of plaintext under a nonce of 96 bits, and the tag, with no further data. -/
def gcm (key : Nat) (nonce n : Nat) (text : List Byte) : List Byte × List Byte :=
  let rks := roundKeys (bigEndian 32 key)
  let e := cipher rks
  let counter := fun i => e (bigEndian 12 nonce ++ bigEndian 4 i)
  let blocks := (List.range n).map fun i => xor ((text.drop (16 * i)).take 16) (counter (i + 2))
  let h := BitVec.ofNat 128 (ofBytes (e (List.replicate 16 0)).reverse)
  let y := ghash h (blocks ++ [bigEndian 8 0 ++ bigEndian 8 (128 * n)])
  (blocks.flatten, xor (counter 1) (bigEndian 16 y.toNat))

end Sys2Proof.Machine.Aes
end

