-- ==== Sys2Proof/WellFormed.lean ====
section
/-! DEFINITION. The instructions that the encodings allow: every term that Decode can answer satisfies `Instr.wf`, and
every term that satisfies it has a word. Event rows have no word and are well formed as they stand. -/

namespace Sys2Proof

open Machine

/-- A floating rounding field of the standard: 0-4 and 7; 5 and 6 are reserved. -/
def rmOk (rm : BitVec 3) : Bool := rm ≠ 5 && rm ≠ 6

/-- The rm field that an F or D operation without a rounding mode has in its encoding. -/
def fixedRm2 : FpOp2 → Option (BitVec 3)
  | .fsgnj => some 0 | .fsgnjn => some 1 | .fsgnjx => some 2 | .fmin => some 0 | .fmax => some 1
  | .feq => some 2 | .flt => some 1 | .fle => some 0
  | _ => none

/-- As fixedRm2, of the one-operand operations. -/
def fixedRm1 : FpOp1 → Option (BitVec 3)
  | .fclass => some 1 | .mvToInt => some 0 | .mvFromInt => some 0
  | _ => none

/-- The 12-bit immediate of a register-immediate operation is one its encoding admits. -/
def immOk (op : AluImmOp) (imm : BitVec 12) : Bool :=
  match op with
  | .addi | .slti | .sltiu | .xori | .ori | .andi | .addiw => true
  | .slli | .srli | .srai | .slliuw | .rori | .bclri | .bexti | .binvi | .bseti => imm.toNat < 64
  | .slliw | .srliw | .sraiw | .roriw => imm.toNat < 32
  | .clz | .ctz | .cpop | .clzw | .ctzw | .cpopw | .sextb | .sexth | .rev8 | .orcb => imm = 0

/-- The standard instructions that have an encoding of their own (R9). -/
def Std.wf : Std → Bool
  | .alui op _ _ imm => immOk op imm
  | .alu op _ _ rs2 => op ≠ .zexth || rs2 = 0
  | .fence fm pred succ rd rs1 => !(fm = 0 && pred = 1 && succ = 0 && rd = 0 && rs1 = 0)
  | .fp2 op _ rm _ _ _ => match fixedRm2 op with | some r => rm = r | none => rmOk rm
  | .fp3 _ _ rm _ _ _ _ => rmOk rm
  | .fp1 op _ rm _ _ => match fixedRm1 op with | some r => rm = r | none => rmOk rm
  | _ => true

/-- The instruction has an encoding that breaks no rule within its own word (R85, R87, R88, R100-R108). -/
def Instr.wf (i : Instr) : Bool :=
  match wideOf? i with
  | some (maj, w) => wideReason maj w = none
  | none =>
    match i with
    | .pairWord _ p0 p1 => pairReason p0 p1 = none
    | .standardInstruction s => s.wf
    | _ => true

end Sys2Proof
end

