-- ==== Sys2Proof/Decode.lean ====
section
/-! DEFINITION. Decoding of any bytes (R80, R83-R89, R9) and the encoder, written from the same tables. -/

namespace Sys2Proof

open Machine

/-- The length in bytes that the lowest bits decide (R80); none for the 48-bit and the 80-bit and longer lengths. -/
def lengthOf (v : Word) : Option Nat :=
  let n := v.toNat % 128
  if n % 4 ≠ 3 then some 2
  else if n % 32 ≠ 31 then some 4
  else if n = 0x3F then some 8
  else none

/-- LENC of `hdec1` (R111): the length code of the bits. -/
def lengthCode (v : Word) : Nat :=
  let n := v.toNat % 128
  if n % 4 ≠ 3 then 0 else if n % 32 ≠ 31 then 1 else if n = 0x3F then 3 else if n % 64 = 31 then 2 else 4

/-- A sign-extended field. -/
def sx (n : Nat) (v : BitVec n) : Word := v.signExtend 64

/-! The standard 32-bit encodings (R9): the RISC-V unprivileged and privileged specifications' formats. -/

/-- funct7, funct3 and opcode of the register-register operations. -/
def aluCode : AluOp → BitVec 7 × BitVec 3 × BitVec 7
  | .add => (0x00, 0, 0x33) | .sub => (0x20, 0, 0x33) | .sll => (0x00, 1, 0x33) | .slt => (0x00, 2, 0x33)
  | .sltu => (0x00, 3, 0x33) | .xor => (0x00, 4, 0x33) | .srl => (0x00, 5, 0x33) | .sra => (0x20, 5, 0x33)
  | .or => (0x00, 6, 0x33) | .and => (0x00, 7, 0x33)
  | .addw => (0x00, 0, 0x3B) | .subw => (0x20, 0, 0x3B) | .sllw => (0x00, 1, 0x3B) | .srlw => (0x00, 5, 0x3B)
  | .sraw => (0x20, 5, 0x3B)
  | .mul => (0x01, 0, 0x33) | .mulh => (0x01, 1, 0x33) | .mulhsu => (0x01, 2, 0x33) | .mulhu => (0x01, 3, 0x33)
  | .div => (0x01, 4, 0x33) | .divu => (0x01, 5, 0x33) | .rem => (0x01, 6, 0x33) | .remu => (0x01, 7, 0x33)
  | .mulw => (0x01, 0, 0x3B) | .divw => (0x01, 4, 0x3B) | .divuw => (0x01, 5, 0x3B) | .remw => (0x01, 6, 0x3B)
  | .remuw => (0x01, 7, 0x3B)
  | .sh1add => (0x10, 2, 0x33) | .sh2add => (0x10, 4, 0x33) | .sh3add => (0x10, 6, 0x33)
  | .adduw => (0x04, 0, 0x3B) | .sh1adduw => (0x10, 2, 0x3B) | .sh2adduw => (0x10, 4, 0x3B)
  | .sh3adduw => (0x10, 6, 0x3B)
  | .andn => (0x20, 7, 0x33) | .orn => (0x20, 6, 0x33) | .xnor => (0x20, 4, 0x33)
  | .min => (0x05, 4, 0x33) | .max => (0x05, 6, 0x33) | .minu => (0x05, 5, 0x33) | .maxu => (0x05, 7, 0x33)
  | .rol => (0x30, 1, 0x33) | .ror => (0x30, 5, 0x33) | .rolw => (0x30, 1, 0x3B) | .rorw => (0x30, 5, 0x3B)
  | .zexth => (0x04, 4, 0x3B)
  | .bclr => (0x24, 1, 0x33) | .bext => (0x24, 5, 0x33) | .binv => (0x34, 1, 0x33) | .bset => (0x14, 1, 0x33)

/-- Every register-register operation. -/
def aluOps : List AluOp :=
  [.add, .sub, .sll, .slt, .sltu, .xor, .srl, .sra, .or, .and, .addw, .subw, .sllw, .srlw, .sraw,
   .mul, .mulh, .mulhsu, .mulhu, .div, .divu, .rem, .remu, .mulw, .divw, .divuw, .remw, .remuw,
   .sh1add, .sh2add, .sh3add, .adduw, .sh1adduw, .sh2adduw, .sh3adduw] ++
  [.andn, .orn, .xnor, .min, .max, .minu, .maxu, .rol, .ror, .rolw, .rorw, .zexth, .bclr, .bext, .binv, .bset]

/-- The form of a register-immediate operation: a whole immediate, a shift of 6 bits under the upper six bits given,
a shift of 5 bits under the upper seven bits given, or one fixed immediate; then funct3 and opcode. -/
inductive ImmForm
  | whole (f3 : BitVec 3) (op : BitVec 7)
  | sh6 (hi : BitVec 6) (f3 : BitVec 3) (op : BitVec 7)
  | sh5 (hi : BitVec 7) (f3 : BitVec 3) (op : BitVec 7)
  | fixed (imm : BitVec 12) (f3 : BitVec 3) (op : BitVec 7)
  deriving DecidableEq, Repr

/-- The encoding of each register-immediate operation. -/
def immForm : AluImmOp → ImmForm
  | .addi => .whole 0 0x13 | .slti => .whole 2 0x13 | .sltiu => .whole 3 0x13 | .xori => .whole 4 0x13
  | .ori => .whole 6 0x13 | .andi => .whole 7 0x13 | .addiw => .whole 0 0x1B
  | .slli => .sh6 0x00 1 0x13 | .srli => .sh6 0x00 5 0x13 | .srai => .sh6 0x10 5 0x13 | .rori => .sh6 0x18 5 0x13
  | .bclri => .sh6 0x12 1 0x13 | .bexti => .sh6 0x12 5 0x13 | .binvi => .sh6 0x1A 1 0x13 | .bseti => .sh6 0x0A 1 0x13
  | .slliuw => .sh6 0x02 1 0x1B
  | .slliw => .sh5 0x00 1 0x1B | .srliw => .sh5 0x00 5 0x1B | .sraiw => .sh5 0x20 5 0x1B | .roriw => .sh5 0x30 5 0x1B
  | .clz => .fixed 0x600 1 0x13 | .ctz => .fixed 0x601 1 0x13 | .cpop => .fixed 0x602 1 0x13
  | .sextb => .fixed 0x604 1 0x13 | .sexth => .fixed 0x605 1 0x13
  | .clzw => .fixed 0x600 1 0x1B | .ctzw => .fixed 0x601 1 0x1B | .cpopw => .fixed 0x602 1 0x1B
  | .rev8 => .fixed 0x6B8 5 0x13 | .orcb => .fixed 0x287 5 0x13

/-- Every register-immediate operation. -/
def immOps : List AluImmOp :=
  [.addi, .slti, .sltiu, .xori, .ori, .andi, .addiw, .slli, .srli, .srai, .rori, .bclri, .bexti, .binvi, .bseti,
   .slliuw, .slliw, .srliw, .sraiw, .roriw, .clz, .ctz, .cpop, .sextb, .sexth, .clzw, .ctzw, .cpopw, .rev8, .orcb]

/-- The immediate field of a register-immediate operation, when funct3, opcode and field are of its form. -/
def immMatch (f : ImmForm) (field : BitVec 12) (f3 : BitVec 3) (op : BitVec 7) : Option (BitVec 12) :=
  match f with
  | .whole g o => if g = f3 ∧ o = op then some field else none
  | .sh6 hi g o => if g = f3 ∧ o = op ∧ field.extractLsb' 6 6 = hi then some ((field.extractLsb' 0 6).setWidth 12) else none
  | .sh5 hi g o => if g = f3 ∧ o = op ∧ field.extractLsb' 5 7 = hi then some ((field.extractLsb' 0 5).setWidth 12) else none
  | .fixed i g o => if g = f3 ∧ o = op ∧ field = i then some 0 else none

/-- The immediate field that a register-immediate operation's word carries. -/
def immField (f : ImmForm) (imm : BitVec 12) : BitVec 12 :=
  match f with
  | .whole _ _ => imm
  | .sh6 hi _ _ => hi ++ imm.extractLsb' 0 6
  | .sh5 hi _ _ => hi ++ imm.extractLsb' 0 5
  | .fixed i _ _ => i

/-- funct3 and opcode of a form. -/
def immCodes : ImmForm → BitVec 3 × BitVec 7
  | .whole g o => (g, o) | .sh6 _ g o => (g, o) | .sh5 _ g o => (g, o) | .fixed _ g o => (g, o)

/-- funct3 and opcode of the loads. -/
def loadCode : LoadOp → BitVec 3 × BitVec 7
  | .lb => (0, 0x03) | .lh => (1, 0x03) | .lw => (2, 0x03) | .ld => (3, 0x03) | .lbu => (4, 0x03) | .lhu => (5, 0x03)
  | .lwu => (6, 0x03) | .flw => (2, 0x07) | .fld => (3, 0x07)

/-- funct3 and opcode of the stores. -/
def storeCode : StoreOp → BitVec 3 × BitVec 7
  | .sb => (0, 0x23) | .sh => (1, 0x23) | .sw => (2, 0x23) | .sd => (3, 0x23) | .fsw => (2, 0x27) | .fsd => (3, 0x27)

/-- funct3 of the conditional branches (R467). -/
def branchCode : BranchOp → BitVec 3
  | .beq => 0 | .bne => 1 | .blt => 4 | .bge => 5 | .bltu => 6 | .bgeu => 7

/-- funct5 of the AMOs. -/
def amoCode : AmoOp → BitVec 5
  | .add => 0x00 | .swap => 0x01 | .xor => 0x04 | .or => 0x08 | .and => 0x0C
  | .min => 0x10 | .max => 0x14 | .minu => 0x18 | .maxu => 0x1C

/-- funct5 of the two-operand floating operations. -/
def fp2Code : FpOp2 → BitVec 5
  | .fadd => 0x00 | .fsub => 0x01 | .fmul => 0x02 | .fdiv => 0x03
  | .fsgnj => 0x04 | .fsgnjn => 0x04 | .fsgnjx => 0x04 | .fmin => 0x05 | .fmax => 0x05
  | .feq => 0x14 | .flt => 0x14 | .fle => 0x14

/-- The opcode of the fused operations. -/
def fp3Code : FpOp3 → BitVec 7
  | .fmadd => 0x43 | .fmsub => 0x47 | .fnmsub => 0x4B | .fnmadd => 0x4F

/-- funct5 and rs2 of the one-operand floating operations, for the s form (dbl = false) or the d form. -/
def fp1Code (op : FpOp1) (dbl : Bool) : BitVec 5 × BitVec 5 :=
  match op with
  | .fsqrt => (0x0B, 0)
  | .fclass => (0x1C, 0)
  | .cvtToInt l u => (0x18, (if l then 2 else 0) + (if u then 1 else 0))
  | .cvtFromInt l u => (0x1A, (if l then 2 else 0) + (if u then 1 else 0))
  | .cvtOther => (0x08, if dbl then 0 else 1)
  | .mvToInt => (0x1C, 0)
  | .mvFromInt => (0x1E, 0)

/-- Every load, store, branch, AMO and floating operation. -/
def loadOps : List LoadOp := [.lb, .lh, .lw, .ld, .lbu, .lhu, .lwu, .flw, .fld]
@[inherit_doc loadOps] def storeOps : List StoreOp := [.sb, .sh, .sw, .sd, .fsw, .fsd]
@[inherit_doc loadOps] def branchOps : List BranchOp := [.beq, .bne, .blt, .bge, .bltu, .bgeu]
@[inherit_doc loadOps] def amoOps : List AmoOp := [.add, .swap, .xor, .or, .and, .min, .max, .minu, .maxu]
@[inherit_doc loadOps] def fp2Ops : List FpOp2 :=
  [.fadd, .fsub, .fmul, .fdiv, .fsgnj, .fsgnjn, .fsgnjx, .fmin, .fmax, .feq, .flt, .fle]
@[inherit_doc loadOps] def fp3Ops : List FpOp3 := [.fmadd, .fmsub, .fnmsub, .fnmadd]
@[inherit_doc loadOps] def fp1Ops : List FpOp1 :=
  [.fsqrt, .fclass, .cvtToInt false false, .cvtToInt false true, .cvtToInt true false, .cvtToInt true true,
   .cvtFromInt false false, .cvtFromInt false true, .cvtFromInt true false, .cvtFromInt true true,
   .cvtOther, .mvToInt, .mvFromInt]

/-- The rm field of an operation is the one its encoding fixes, or a mode that is not reserved. -/
def rmMatch (fixed : Option (BitVec 3)) (rm : BitVec 3) : Bool :=
  match fixed with | some r => r = rm | none => rmOk rm

/-- The 32-bit word of a register form: funct7, rs2, rs1, funct3, rd, opcode. -/
def rWord (f7 : BitVec 7) (rs2 rs1 : BitVec 5) (f3 : BitVec 3) (rd : BitVec 5) (op : BitVec 7) : BitVec 32 :=
  f7 ++ rs2 ++ rs1 ++ f3 ++ rd ++ op

/-- The 32-bit word of an immediate form. -/
def iWord (imm : BitVec 12) (rs1 : BitVec 5) (f3 : BitVec 3) (rd : BitVec 5) (op : BitVec 7) : BitVec 32 :=
  imm ++ rs1 ++ f3 ++ rd ++ op

/-- The fmt field of a floating operation. -/
def fmtBit (dbl : Bool) : BitVec 2 := if dbl then 1 else 0

/-- The 32-bit word of a standard instruction. -/
def encodeStd : Std → BitVec 32
  | .lui rd imm => imm ++ rd ++ (0x37 : BitVec 7)
  | .auipc rd imm => imm ++ rd ++ (0x17 : BitVec 7)
  | .jal rd imm =>
    imm.extractLsb' 19 1 ++ imm.extractLsb' 0 10 ++ imm.extractLsb' 10 1 ++ imm.extractLsb' 11 8 ++ rd ++ (0x6F : BitVec 7)
  | .jalr rd rs1 imm => iWord imm rs1 0 rd 0x67
  | .load op rd rs1 imm => iWord imm rs1 (loadCode op).1 rd (loadCode op).2
  | .store op rs1 rs2 imm => rWord (imm.extractLsb' 5 7) rs2 rs1 (storeCode op).1 (imm.extractLsb' 0 5) (storeCode op).2
  | .alui op rd rs1 imm => iWord (immField (immForm op) imm) rs1 (immCodes (immForm op)).1 rd (immCodes (immForm op)).2
  | .alu op rd rs1 rs2 => rWord (aluCode op).1 rs2 rs1 (aluCode op).2.1 rd (aluCode op).2.2
  | .fence fm pred succ rd rs1 => iWord (fm ++ pred ++ succ) rs1 0 rd 0x0F
  | .fencei => iWord 0 0 1 0 0x0F
  | .csr op ui rd rs1 num =>
    iWord num rs1 ((if ui then 4 else 0) + (match op with | .rw => 1 | .rs => 2 | .rc => 3)) rd 0x73
  | .lr dbl aq rl rd rs1 =>
    rWord ((0x02 : BitVec 5) ++ BitVec.ofBool aq ++ BitVec.ofBool rl) 0 rs1 (if dbl then 3 else 2) rd 0x2F
  | .sc dbl aq rl rd rs1 rs2 =>
    rWord ((0x03 : BitVec 5) ++ BitVec.ofBool aq ++ BitVec.ofBool rl) rs2 rs1 (if dbl then 3 else 2) rd 0x2F
  | .amo op dbl aq rl rd rs1 rs2 =>
    rWord (amoCode op ++ BitVec.ofBool aq ++ BitVec.ofBool rl) rs2 rs1 (if dbl then 3 else 2) rd 0x2F
  | .fp2 op dbl rm rd rs1 rs2 => rWord (fp2Code op ++ fmtBit dbl) rs2 rs1 rm rd 0x53
  | .fp3 op dbl rm rd rs1 rs2 rs3 => rWord (rs3 ++ fmtBit dbl) rs2 rs1 rm rd (fp3Code op)
  | .fp1 op dbl rm rd rs1 => rWord ((fp1Code op dbl).1 ++ fmtBit dbl) (fp1Code op dbl).2 rs1 rm rd 0x53
  | .ebreak => 0x00100073
  | .mret => 0x30200073
  | .sret => 0x10200073
  | .wfi => 0x10500073
  | .sfencevma rs1 rs2 => rWord 0x09 rs2 rs1 0 0 0x73

/-- The instruction of a 32-bit standard encoding; none where the standard subsets of R9 have none. -/
def decode32 (w : BitVec 32) : Option Instr :=
  let op := w.extractLsb' 0 7
  let rd := w.extractLsb' 7 5
  let f3 := w.extractLsb' 12 3
  let rs1 := w.extractLsb' 15 5
  let rs2 := w.extractLsb' 20 5
  let f7 := w.extractLsb' 25 7
  let imm := w.extractLsb' 20 12
  let std := fun (s : Std) => some (Instr.standardInstruction s)
  match op.toNat with
  | 0x37 => std (.lui rd (w.extractLsb' 12 20))
  | 0x17 => std (.auipc rd (w.extractLsb' 12 20))
  | 0x6F => std (.jal rd (w.extractLsb' 31 1 ++ w.extractLsb' 12 8 ++ w.extractLsb' 20 1 ++ w.extractLsb' 21 10))
  | 0x67 => if f3 = 0 then std (.jalr rd rs1 imm) else none
  | 0x63 =>
    (branchOps.find? fun o => branchCode o = f3).map fun o =>
      .conditionalBranch o rs1 rs2 (w.extractLsb' 31 1 ++ w.extractLsb' 7 1 ++ w.extractLsb' 25 6 ++ w.extractLsb' 8 4)
  | 0x03 | 0x07 => (loadOps.find? fun o => loadCode o = (f3, op)).bind fun o => std (.load o rd rs1 imm)
  | 0x23 | 0x27 =>
    (storeOps.find? fun o => storeCode o = (f3, op)).bind fun o => std (.store o rs1 rs2 (f7 ++ rd))
  | 0x13 | 0x1B =>
    immOps.findSome? fun o => (immMatch (immForm o) imm f3 op).bind fun i => std (.alui o rd rs1 i)
  | 0x33 | 0x3B =>
    (aluOps.find? fun o => aluCode o = (f7, f3, op)).bind fun o =>
      if o = .zexth ∧ rs2 ≠ 0 then none else std (.alu o rd rs1 rs2)
  | 0x0F =>
    match f3.toNat with
    | 0 =>
      let fm := w.extractLsb' 28 4
      let pred := w.extractLsb' 24 4
      let succ := w.extractLsb' 20 4
      if fm = 0 ∧ pred = 1 ∧ succ = 0 ∧ rd = 0 ∧ rs1 = 0 then some .pause else std (.fence fm pred succ rd rs1)
    | 1 => std .fencei
    | 2 =>
      if rd ≠ 0 then none
      else match imm.toNat with
        | 0 => some (.cboInval rs1)
        | 1 => some (.cboClean rs1)
        | 2 => some (.cboFlush rs1)
        | 4 => some (.cboZero rs1)
        | _ => none
    | _ => none
  | 0x2F =>
    let aq := w.getLsbD 26
    let rl := w.getLsbD 25
    let f5 := w.extractLsb' 27 5
    if f3 ≠ 2 ∧ f3 ≠ 3 then none
    else
      let dbl := f3 = 3
      if f5 = 2 then (if rs2 = 0 then std (.lr dbl aq rl rd rs1) else none)
      else if f5 = 3 then std (.sc dbl aq rl rd rs1 rs2)
      else (amoOps.find? fun o => amoCode o = f5).bind fun o => std (.amo o dbl aq rl rd rs1 rs2)
  | 0x43 | 0x47 | 0x4B | 0x4F =>
    let fmt := w.extractLsb' 25 2
    if (fmt ≠ 0 ∧ fmt ≠ 1) ∨ !rmOk f3 then none
    else (fp3Ops.find? fun o => fp3Code o = op).bind fun o => std (.fp3 o (fmt = 1) f3 rd rs1 rs2 (w.extractLsb' 27 5))
  | 0x53 =>
    let fmt := w.extractLsb' 25 2
    let f5 := w.extractLsb' 27 5
    if fmt ≠ 0 ∧ fmt ≠ 1 then none
    else
      let dbl : Bool := fmt = 1
      match fp2Ops.find? fun o => fp2Code o = f5 && rmMatch (fixedRm2 o) f3 with
      | some o => std (.fp2 o dbl f3 rd rs1 rs2)
      | none =>
        (fp1Ops.find? fun o => fp1Code o dbl = (f5, rs2) && rmMatch (fixedRm1 o) f3).bind fun o =>
          std (.fp1 o dbl f3 rd rs1)
  | 0x73 =>
    match f3.toNat with
    | 0 =>
      if w = 0x00000073 then some .ecall
      else if w = 0x00100073 then std .ebreak
      else if w = 0x30200073 then std .mret
      else if w = 0x10200073 then std .sret
      else if w = 0x10500073 then std .wfi
      else if f7 = 0x09 ∧ rd = 0 then std (.sfencevma rs1 rs2)
      else none
    | 1 => std (.csr .rw false rd rs1 imm)
    | 2 => std (.csr .rs false rd rs1 imm)
    | 3 => std (.csr .rc false rd rs1 imm)
    | 5 => std (.csr .rw true rd rs1 imm)
    | 6 => std (.csr .rs true rd rs1 imm)
    | 7 => std (.csr .rc true rd rs1 imm)
    | _ => none
  | _ => none

/-! The compressed encodings (R80, R9): each stands for one 32-bit instruction. -/

/-- A register of the compressed three-bit fields: x8-x15 or f8-f15. -/
def creg (v : BitVec 3) : BitVec 5 := (1 : BitVec 2) ++ v

/-- The instruction of a 16-bit encoding; none where it is reserved. -/
def decode16 (w : BitVec 16) : Option Instr :=
  let f3 := w.extractLsb' 13 3
  let rdp := creg (w.extractLsb' 2 3)
  let rs1p := creg (w.extractLsb' 7 3)
  let rd := w.extractLsb' 7 5
  let rs2 := w.extractLsb' 2 5
  let bit := fun (k : Nat) => w.extractLsb' k 1
  let imm6 : BitVec 6 := bit 12 ++ w.extractLsb' 2 5
  let std := fun (s : Std) => some (Instr.standardInstruction s)
  let uimmD : BitVec 12 := (w.extractLsb' 5 2 ++ w.extractLsb' 10 3 ++ (0 : BitVec 3)).setWidth 12
  let uimmW : BitVec 12 := (bit 5 ++ w.extractLsb' 10 3 ++ bit 6 ++ (0 : BitVec 2)).setWidth 12
  match (w.extractLsb' 0 2).toNat, f3.toNat with
  | 0, 0 =>
    let imm : BitVec 10 := w.extractLsb' 7 4 ++ w.extractLsb' 11 2 ++ bit 5 ++ bit 6 ++ (0 : BitVec 2)
    if imm = 0 then none else std (.alui .addi rdp 2 (imm.setWidth 12))
  | 0, 1 => std (.load .fld rdp rs1p uimmD)
  | 0, 2 => std (.load .lw rdp rs1p uimmW)
  | 0, 3 => std (.load .ld rdp rs1p uimmD)
  | 0, 5 => std (.store .fsd rs1p rdp uimmD)
  | 0, 6 => std (.store .sw rs1p rdp uimmW)
  | 0, 7 => std (.store .sd rs1p rdp uimmD)
  | 1, 0 => std (.alui .addi rd rd (imm6.signExtend 12))
  | 1, 1 => if rd = 0 then none else std (.alui .addiw rd rd (imm6.signExtend 12))
  | 1, 2 => std (.alui .addi rd 0 (imm6.signExtend 12))
  | 1, 3 =>
    if imm6 = 0 then none
    else if rd = 2 then
      let imm : BitVec 10 := bit 12 ++ w.extractLsb' 3 2 ++ bit 5 ++ bit 2 ++ bit 6 ++ (0 : BitVec 4)
      std (.alui .addi 2 2 (imm.signExtend 12))
    else std (.lui rd (imm6.signExtend 20))
  | 1, 4 =>
    match (w.extractLsb' 10 2).toNat with
    | 0 => std (.alui .srli rs1p rs1p (imm6.setWidth 12))
    | 1 => std (.alui .srai rs1p rs1p (imm6.setWidth 12))
    | 2 => std (.alui .andi rs1p rs1p (imm6.signExtend 12))
    | _ =>
      match (bit 12 ++ w.extractLsb' 5 2 : BitVec 3).toNat with
      | 0 => std (.alu .sub rs1p rs1p rdp)
      | 1 => std (.alu .xor rs1p rs1p rdp)
      | 2 => std (.alu .or rs1p rs1p rdp)
      | 3 => std (.alu .and rs1p rs1p rdp)
      | 4 => std (.alu .subw rs1p rs1p rdp)
      | 5 => std (.alu .addw rs1p rs1p rdp)
      | _ => none
  | 1, 5 =>
    let off : BitVec 11 := bit 12 ++ bit 8 ++ w.extractLsb' 9 2 ++ bit 6 ++ bit 7 ++ bit 2 ++ bit 11 ++ w.extractLsb' 3 3
    std (.jal 0 (off.signExtend 20))
  | 1, 6 =>
    let off : BitVec 8 := bit 12 ++ w.extractLsb' 5 2 ++ bit 2 ++ w.extractLsb' 10 2 ++ w.extractLsb' 3 2
    some (.conditionalBranch .beq rs1p 0 (off.signExtend 12))
  | 1, 7 =>
    let off : BitVec 8 := bit 12 ++ w.extractLsb' 5 2 ++ bit 2 ++ w.extractLsb' 10 2 ++ w.extractLsb' 3 2
    some (.conditionalBranch .bne rs1p 0 (off.signExtend 12))
  | 2, 0 => std (.alui .slli rd rd (imm6.setWidth 12))
  | 2, 1 => std (.load .fld rd 2 ((w.extractLsb' 2 3 ++ bit 12 ++ w.extractLsb' 5 2 ++ (0 : BitVec 3)).setWidth 12))
  | 2, 2 =>
    if rd = 0 then none
    else std (.load .lw rd 2 ((w.extractLsb' 2 2 ++ bit 12 ++ w.extractLsb' 4 3 ++ (0 : BitVec 2)).setWidth 12))
  | 2, 3 =>
    if rd = 0 then none
    else std (.load .ld rd 2 ((w.extractLsb' 2 3 ++ bit 12 ++ w.extractLsb' 5 2 ++ (0 : BitVec 3)).setWidth 12))
  | 2, 4 =>
    if w.getLsbD 12 then
      if rs2 = 0 then (if rd = 0 then std .ebreak else std (.jalr 1 rd 0))
      else std (.alu .add rd rd rs2)
    else if rs2 = 0 then (if rd = 0 then none else std (.jalr 0 rd 0))
    else std (.alu .add rd 0 rs2)
  | 2, 5 => std (.store .fsd 2 rs2 ((w.extractLsb' 7 3 ++ w.extractLsb' 10 3 ++ (0 : BitVec 3)).setWidth 12))
  | 2, 6 => std (.store .sw 2 rs2 ((w.extractLsb' 7 2 ++ w.extractLsb' 9 4 ++ (0 : BitVec 2)).setWidth 12))
  | 2, 7 => std (.store .sd 2 rs2 ((w.extractLsb' 7 3 ++ w.extractLsb' 10 3 ++ (0 : BitVec 3)).setWidth 12))
  | _, _ => none

/-! The wide words (R83, R84, R87). -/

/-- The full-form fields of a wide word (R84). -/
def wideFields (v : Word) : Wide where
  imm11 := v.extractLsb' 53 11
  lt := v.extractLsb' 51 2
  fn := v.extractLsb' 45 6
  s3 := v.extractLsb' 38 7
  s2 := v.extractLsb' 31 7
  s1 := v.extractLsb' 24 7
  w := v.getLsbD 23
  d := v.extractLsb' 17 6
  h := v.getLsbD 8

/-- The full-form word of fields and a major (R84). -/
def wideWord (maj : BitVec 8) (w : Wide) : Word :=
  w.imm11 ++ w.lt ++ w.fn ++ w.s3 ++ w.s2 ++ w.s1 ++ BitVec.ofBool w.w ++ w.d ++ maj ++ BitVec.ofBool w.h ++
    (0x3F : BitVec 8)

/-- The fields of a pair slot (R87), when its opcode is not reserved. -/
def slotFields (v : BitVec 27) : Option PairSlot :=
  (pairOp? (v.extractLsb' 0 7).toNat).map fun op =>
    { imm9 := v.extractLsb' 18 9, s := v.extractLsb' 12 6, d := v.extractLsb' 7 5, op := op }

/-- The 27 bits of a pair slot (R87). -/
def slotBits (p : PairSlot) : BitVec 27 := p.imm9 ++ p.s ++ p.d ++ pairCode p.op

/-- The pair-form word (R87). -/
def pairBits (h : Bool) (p0 p1 : PairSlot) : Word :=
  (0 : BitVec 1) ++ slotBits p1 ++ slotBits p0 ++ BitVec.ofBool h ++ (0xBF : BitVec 8)

/-- A decoded wide word, or the lowest REASON it breaks within itself and the pair slot that breaks it. -/
def decodeWide (v : Word) : Except (Reason × Nat) Instr :=
  if v.getLsbD 7 then
    match slotFields (v.extractLsb' 9 27), slotFields (v.extractLsb' 36 27) with
    | none, _ => .error (.reserved, 0)
    | _, none => .error (.reserved, 1)
    | some p0, some p1 =>
      if v.getLsbD 63 then .error (.nonzero, 0)
      else match pairReason p0 p1 with
        | some r => .error r
        | none => .ok (.pairWord (v.getLsbD 8) p0 p1)
  else
    let maj := v.extractLsb' 9 8
    let w := wideFields v
    match wideReason maj w with
    | some r => .error (r, 0)
    | none =>
      match wideInstr? maj w with
      | some i => .ok i
      | none => .error (.reserved, 0)

/-- The instruction and the length in bytes of the bits at an address, little-endian from bit 0 (R80), or the lowest
REASON that the bits break within themselves. Bits above the instruction's length are not looked at. -/
def decode (v : Word) : Except (Reason × Nat) (Instr × Nat) :=
  match lengthOf v with
  | none => .error (.length, 0)
  | some 2 =>
    match decode16 (v.setWidth 16) with
    | some i => .ok (i, 2)
    | none => .error (.standard, 0)
  | some 4 =>
    match decode32 (v.setWidth 32) with
    | some i => .ok (i, 4)
    | none => .error (.standard, 0)
  | some _ =>
    match decodeWide v with
    | .ok i => .ok (i, 8)
    | .error r => .error r

/-- The bits and the length in bytes of an instruction; none for an event row, which has no encoding. -/
def encode (i : Instr) : Option (Word × Nat) :=
  match wideOf? i with
  | some (maj, w) => some (wideWord maj w, 8)
  | none =>
    match i with
    | .pairWord h p0 p1 => some (pairBits h p0 p1, 8)
    | .standardInstruction s => some ((encodeStd s).setWidth 64, 4)
    | .conditionalBranch o rs1 rs2 imm =>
      some ((rWord (imm.extractLsb' 11 1 ++ imm.extractLsb' 4 6) rs2 rs1 (branchCode o)
        (imm.extractLsb' 0 4 ++ imm.extractLsb' 10 1) 0x63).setWidth 64, 4)
    | .ecall => some (0x00000073, 4)
    | .pause => some (0x0100000F, 4)
    | .cboInval rs1 => some ((iWord 0 rs1 2 0 0x0F).setWidth 64, 4)
    | .cboClean rs1 => some ((iWord 1 rs1 2 0 0x0F).setWidth 64, 4)
    | .cboFlush rs1 => some ((iWord 2 rs1 2 0 0x0F).setWidth 64, 4)
    | .cboZero rs1 => some ((iWord 4 rs1 2 0 0x0F).setWidth 64, 4)
    | _ => none

/-- The instruction that the decoder reads from the bits of an opcode-table row, numbered as the table numbers them:
little-endian words, so bit 0 of `w` is bit 0 of the first. The bits above `nbits` are zero. -/
def decodeTableWord (nbits w : Nat) : Option Instr :=
  match decode (BitVec.ofNat 64 (w % 2 ^ nbits)) with
  | .ok (i, _) => some i
  | .error _ => none

/-- The standard subset of a core type has the instruction (R9, R82); the register number of a CSR instruction is
judged where it executes. -/
def subsetOk (c : CoreType) (i : Instr) : Bool :=
  match c with
  | .latency => true
  | .simt =>
    match i with
    | .standardInstruction s =>
      match s with
      | .fencei | .mret | .sret | .wfi | .sfencevma _ _ => false
      | _ => true
    | _ => true
  | .cobbler =>
    match i with
    | .cboClean _ | .cboFlush _ | .cboInval _ | .cboZero _ => false
    | .standardInstruction s =>
      match s with
      | .fencei | .mret | .sret | .wfi | .sfencevma _ _ | .csr _ _ _ _ _ | .lr _ _ _ _ _ | .sc _ _ _ _ _ _
      | .amo _ _ _ _ _ _ _ | .fp1 _ _ _ _ _ | .fp2 _ _ _ _ _ _ | .fp3 _ _ _ _ _ _ _ => false
      | .load op _ _ _ => op ≠ .flw && op ≠ .fld
      | .store op _ _ _ => op ≠ .fsw && op ≠ .fsd
      | .alu op _ _ _ =>
        op ∉ [.sh1add, .sh2add, .sh3add, .adduw, .sh1adduw, .sh2adduw, .sh3adduw, .bclr, .bext, .binv, .bset]
      | .alui op _ _ _ => op ∉ [.slliuw, .bclri, .bexti, .binvi, .bseti]
      | _ => true
    | _ => true

end Sys2Proof
end

