-- ==== Sys2Proof/Machine/Float.lean ====
section
/-! DEFINITION. Number formats, exact values, rounding, saturation, random bits and sums (R46-R79). -/

namespace Sys2Proof.Machine

/-- A floating format (R49): exponent and mantissa bits, bias, the largest finite pattern without its sign, and its
special values. -/
structure FFmt where
  eb   : Nat
  mb   : Nat
  bias : Int
  top  : Nat
  infs : Bool          -- has infinities, and NaNs at exponent all ones
  e4m3 : Bool          -- the one NaN 0x7F
  nan  : Nat           -- canonical NaN (R51)
  deriving DecidableEq, Repr

/-- f64, f32 and the formats of codes 0x1-0x5 (R46, R49, R51). -/
def f64F : FFmt := ⟨11, 52, 1023, 0x7FEF_FFFF_FFFF_FFFF, true, false, 0x7FF8_0000_0000_0000⟩
@[inherit_doc f64F] def f32F : FFmt := ⟨8, 23, 127, 0x7F7F_FFFF, true, false, 0x7FC0_0000⟩
@[inherit_doc f64F] def bf16F : FFmt := ⟨8, 7, 127, 0x7F7F, true, false, 0x7FC0⟩
@[inherit_doc f64F] def f16F : FFmt := ⟨5, 10, 15, 0x7BFF, true, false, 0x7E00⟩
@[inherit_doc f64F] def e4m3F : FFmt := ⟨4, 3, 7, 0x7E, false, true, 0x7F⟩
@[inherit_doc f64F] def e5m2F : FFmt := ⟨5, 2, 15, 0x7B, true, false, 0x7E⟩
@[inherit_doc f64F] def e2m1F : FFmt := ⟨2, 1, 1, 0x7, false, false, 0⟩

/-- The floating format of a code below 6 (R46). -/
def ffmt (code : Nat) : FFmt :=
  match code with | 0 => f32F | 1 => bf16F | 2 => f16F | 3 => e4m3F | 4 => e5m2F | _ => e2m1F

/-- Width of a format's element in bits (R46). -/
def fwidth (code : Nat) : Nat :=
  match code with
  | 0 => 32 | 1 => 16 | 2 => 16 | 3 => 8 | 4 => 8 | 5 => 4 | 6 => 32 | 7 => 8 | 8 => 8 | 9 => 4 | 10 => 4 | 11 => 2
  | 12 => 16 | _ => 8

/-- Elements in a 64-bit word (R46). -/
def fcount (code : Nat) : Nat := 64 / fwidth code

/-- Element i of a format in a word (R47). -/
def elt (v : Word) (code i : Nat) : Nat := v.toNat / 2 ^ (fwidth code * i) % 2 ^ fwidth code

/-- The word whose element i is the i-th of the list, each of `w` bits; the bits above are zero (R47). -/
def packW (w : Nat) : List Nat → Nat
  | [] => 0
  | x :: xs => x % 2 ^ w + 2 ^ w * packW w xs

/-- A floating value: a NaN, an infinity, or ± m × 2^e. -/
inductive FV
  | nan (signalling : Bool) (neg : Bool)
  | inf (neg : Bool)
  | fin (neg : Bool) (m : Nat) (e : Int)
  deriving DecidableEq, Repr

/-- The value of an encoding (R49, R51). -/
def fval (f : FFmt) (b : Nat) : FV :=
  let neg := b / 2 ^ (f.eb + f.mb) % 2 = 1
  let e := b / 2 ^ f.mb % 2 ^ f.eb
  let m := b % 2 ^ f.mb
  if f.infs && e = 2 ^ f.eb - 1 then
    (if m = 0 then .inf neg else .nan (m < 2 ^ (f.mb - 1)) neg)
  else if f.e4m3 && e = 15 && m = 7 then .nan false neg
  else if e = 0 then .fin neg m (1 - f.bias - f.mb)
  else .fin neg (2 ^ f.mb + m) (e - f.bias - f.mb)

/-- Rounding modes: those of R58 and the standard's others. -/
inductive RMode | rne | rtz | sr | rdn | rup | rmm
  deriving DecidableEq, Repr

/-- The rounding mode of a 2-bit field (R58). -/
def rmodeOf (n : Nat) : RMode := match n with | 0 => .rne | 1 => .rtz | _ => .sr

/-- The standard's rounding mode of frm (R59); none for a reserved one. -/
def rmodeStd (n : Nat) : Option RMode :=
  match n with | 0 => some .rne | 1 => some .rtz | 2 => some .rdn | 3 => some .rup | 4 => some .rmm | _ => none

/-- One more than the quotient or not, for m = q × 2^sh + rem (R58, R65). -/
def roundUp (mode : RMode) (neg : Bool) (rnd q rem sh : Nat) : Bool :=
  match mode with
  | .rtz => false
  | .rne => 2 * rem > 2 ^ sh || (2 * rem = 2 ^ sh && q % 2 = 1)
  | .rmm => 2 * rem ≥ 2 ^ sh
  | .rdn => neg && rem ≠ 0
  | .rup => !neg && rem ≠ 0
  | .sr => rem * 65536 / 2 ^ sh + rnd ≥ 65536

/-- m × 2^e as a multiple of 2^u, rounded; and whether it was exact. -/
def roundAt (mode : RMode) (neg : Bool) (rnd m : Nat) (e u : Int) : Nat × Bool :=
  if e ≥ u then (m * 2 ^ (e - u).toNat, true)
  else
    let sh := (u - e).toNat
    let q := m / 2 ^ sh
    let rem := m % 2 ^ sh
    (if roundUp mode neg rnd q rem sh then q + 1 else q, rem = 0)

/-- Flag bits of FFLAGS: NX, UF, OF, DZ, NV (R63). -/
def NX : Nat := 1
@[inherit_doc NX] def UF : Nat := 2
@[inherit_doc NX] def OF : Nat := 4
@[inherit_doc NX] def DZ : Nat := 8
@[inherit_doc NX] def NV : Nat := 16

/-- A rounded result: its bits, the flags it raises, and whether a conversion saturated. -/
structure FR where
  bits  : Nat
  flags : Nat := 0
  sat   : Bool := false
  deriving DecidableEq, Repr

/-- A pattern with a sign. -/
def signed (f : FFmt) (neg : Bool) (b : Nat) : Nat := b + (if neg then 2 ^ (f.eb + f.mb) else 0)

/-- The infinity of a format that has them. -/
def infBits (f : FFmt) : Nat := (2 ^ f.eb - 1) * 2 ^ f.mb

/-- The result of an overflow (R60). -/
def overflowed (f : FFmt) (mode : RMode) (sat : Bool) (neg : Bool) : FR :=
  if !f.infs && !f.e4m3 then ⟨signed f neg f.top, OF + NX, true⟩
  else if sat then ⟨signed f neg f.top, OF + NX, true⟩
  else
    let away := match mode with | .rne | .sr | .rmm => true | .rtz => false | .rdn => neg | .rup => !neg
    if !away then ⟨signed f neg f.top, OF + NX, false⟩
    else if f.e4m3 then ⟨signed f neg f.nan, OF + NX, false⟩
    else ⟨signed f neg (infBits f), OF + NX, false⟩

/-- A value rounded into a format (R50, R60, R61, R65): RoundTo. -/
def roundTo (f : FFmt) (mode : RMode) (sat : Bool) (rnd : Nat) : FV → FR
  | .nan sg _ =>
    if !f.infs && !f.e4m3 then ⟨0, NV, false⟩ else ⟨f.nan, if sg then NV else 0, false⟩
  | .inf neg =>
    if !f.infs && !f.e4m3 then ⟨signed f neg f.top, 0, true⟩
    else if sat then ⟨signed f neg f.top, 0, true⟩
    else if f.e4m3 then ⟨signed f neg f.nan, 0, false⟩
    else ⟨signed f neg (infBits f), 0, false⟩
  | .fin neg m e =>
    if m = 0 then ⟨signed f neg 0, 0, false⟩
    else
      let l : Int := Nat.log2 m + e
      let emin : Int := 1 - f.bias
      let u := max l emin - f.mb
      let (q, exact) := roundAt mode neg rnd m e u
      let b := (u + f.mb - emin).toNat * 2 ^ f.mb + q
      if b > f.top then overflowed f mode sat neg
      else
        let (q', _) := roundAt mode neg rnd m e (l - f.mb)
        let tiny := l < emin && !(l = emin - 1 && q' = 2 ^ (f.mb + 1))
        ⟨signed f neg b, (if exact then 0 else NX + (if tiny then UF else 0)), false⟩

/-- ± m × 2^e as an integer multiple of 2^u, for u ≤ e. -/
def scaled (neg : Bool) (m : Nat) (e u : Int) : Int :=
  let x : Int := ((m * 2 ^ (e - u).toNat : Nat) : Int)
  if neg then -x else x

/-- An exact value from an integer multiple of 2^u; a zero takes the sign given. -/
def ofScaled (x : Int) (u : Int) (zneg : Bool) : FV :=
  if x = 0 then .fin zneg 0 u else .fin (x < 0) x.natAbs u

/-- The sign of an exact zero sum of terms with signs a and b. -/
def zeroSign (mode : RMode) (a b : Bool) : Bool := if a = b then a else mode = .rdn

/-- Negation. -/
def fneg : FV → FV
  | .nan s n => .nan s !n
  | .inf n => .inf !n
  | .fin n m e => .fin (!n) m e

/-- A signalling NaN. -/
def isSig : FV → Bool | .nan s _ => s | _ => false

/-- A NaN. -/
def isNan : FV → Bool | .nan _ _ => true | _ => false

/-- NV when one of the values is a signalling NaN. -/
def sigFlag (l : List FV) : Nat := if l.any isSig then NV else 0

/-- The quiet NaN as a value. -/
def qnan : FV := .nan false false

/-- The exact sum, with the invalid flag (IEEE 754). -/
def fadd (mode : RMode) (a b : FV) : FV × Nat :=
  match a, b with
  | .nan s _, y => (qnan, if s || isSig y then NV else 0)
  | x, .nan s _ => (qnan, if s || isSig x then NV else 0)
  | .inf n, .inf n' => if n = n' then (.inf n, 0) else (qnan, NV)
  | .inf n, _ => (.inf n, 0)
  | _, .inf n => (.inf n, 0)
  | .fin n m e, .fin n' m' e' =>
    let u := min e e'
    let x := scaled n m e u + scaled n' m' e' u
    (ofScaled x u (zeroSign mode n n'), 0)

/-- The exact product, with the invalid flag. -/
def fmul (a b : FV) : FV × Nat :=
  match a, b with
  | .nan s _, y => (qnan, if s || isSig y then NV else 0)
  | x, .nan s _ => (qnan, if s || isSig x then NV else 0)
  | .inf n, .inf n' => (.inf (n != n'), 0)
  | .inf n, .fin n' m _ => if m = 0 then (qnan, NV) else (.inf (n != n'), 0)
  | .fin n m _, .inf n' => if m = 0 then (qnan, NV) else (.inf (n != n'), 0)
  | .fin n m e, .fin n' m' e' => (.fin (n != n') (m * m') (e + e'), 0)

/-- The exact a × b + c, with the invalid flag. -/
def ffma (mode : RMode) (a b c : FV) : FV × Nat :=
  let (p, f) := fmul a b
  if isNan p then (qnan, f ||| sigFlag [c])
  else
    let (r, g) := fadd mode p c
    (r, f ||| g)

/-- The quotient with 128 bits and a sticky bit below them, with the invalid and divide-by-zero flags. -/
def fdiv (a b : FV) : FV × Nat :=
  match a, b with
  | .nan s _, y => (qnan, if s || isSig y then NV else 0)
  | x, .nan s _ => (qnan, if s || isSig x then NV else 0)
  | .inf _, .inf _ => (qnan, NV)
  | .inf n, .fin n' _ _ => (.inf (n != n'), 0)
  | .fin n _ _, .inf n' => (.fin (n != n') 0 0, 0)
  | .fin n m e, .fin n' m' e' =>
    if m' = 0 then (if m = 0 then (qnan, NV) else (.inf (n != n'), DZ))
    else
      let q := m * 2 ^ 128 / m'
      let r := m * 2 ^ 128 % m'
      (.fin (n != n') (2 * q + (if r = 0 then 0 else 1)) (e - e' - 129), 0)

/-- The integer square root below 2^(k+1), bit by bit. -/
def isqrt (n : Nat) : Nat → Nat → Nat
  | 0, r => if (r + 1) * (r + 1) ≤ n then r + 1 else r
  | k + 1, r => isqrt n k (if (r + 2 ^ (k + 1)) * (r + 2 ^ (k + 1)) ≤ n then r + 2 ^ (k + 1) else r)

/-- The square root with a sticky bit, and the invalid flag. -/
def fsqrt (a : FV) : FV × Nat :=
  match a with
  | .nan s _ => (qnan, if s then NV else 0)
  | .inf false => (.inf false, 0)
  | .inf true => (qnan, NV)
  | .fin n m e =>
    if m = 0 then (.fin n 0 0, 0)
    else if n then (qnan, NV)
    else
      let par : Nat := if e % 2 = 0 then 0 else 1
      let x := m * 2 ^ (128 + par)
      let r := isqrt x 96 0
      (.fin false (2 * r + (if r * r = x then 0 else 1)) ((e - par) / 2 - 65), 0)

/-- Order of two values that are no NaN: a < b. Zeros of both signs are equal. -/
def fltv (a b : FV) : Bool :=
  match a, b with
  | .inf true, .inf true => false
  | .inf true, _ => true
  | .inf false, _ => false
  | _, .inf n => !n
  | .fin n m e, .fin n' m' e' => let u := min e e'; scaled n m e u < scaled n' m' e' u
  | _, _ => false

/-- Equality of two values that are no NaN. -/
def feqv (a b : FV) : Bool := !isNan a && !isNan b && !fltv a b && !fltv b a

/-- Sign of a value that is no NaN. -/
def fnegv : FV → Bool | .nan _ n => n | .inf n => n | .fin n _ _ => n

/-- The minimum or maximum of two encodings (R64): its bits and flags. -/
def fminmax (f : FFmt) (mx : Bool) (x y : Nat) : Nat × Nat :=
  let a := fval f x
  let b := fval f y
  let fl := sigFlag [a, b]
  if isNan a && isNan b then (f.nan, fl)
  else if isNan a then (y, fl)
  else if isNan b then (x, fl)
  else
    let lt := fltv a b || (feqv a b && fnegv a && !fnegv b)
    (if lt = mx then y else x, fl)

/-- A value rounded to an integer, and whether it was exact; none for a NaN or an infinity. -/
def roundInt (mode : RMode) (rnd : Nat) : FV → Option (Int × Bool)
  | .fin n m e =>
    let (q, ex) := roundAt mode n rnd m e 0
    some (if n then -(q : Int) else q, ex)
  | _ => none

/-- The range of an integer format (R53), by its code. -/
def irange (code : Nat) : Int × Int :=
  match code with
  | 6 => (-2147483648, 2147483647) | 7 => (-128, 127) | 8 => (0, 255) | 9 => (-8, 7) | 10 => (0, 15) | _ => (-2, 1)

/-- The value of an integer element (R53). -/
def ival (code b : Nat) : Int :=
  let (lo, hi) := irange code
  if lo < 0 && (b : Int) > hi then (b : Int) - 2 ^ fwidth code else b

/-- The low w bits of an integer. -/
def lowBits (w : Nat) (x : Int) : Nat := (x % 2 ^ w).toNat

/-- An integer reduced to an integer format (R62): bits, NV when out of range, and whether it was clamped. -/
def fitInt (code : Nat) (sat : Bool) (x : Int) : FR :=
  let (lo, hi) := irange code
  if lo ≤ x ∧ x ≤ hi then ⟨lowBits (fwidth code) x, 0, false⟩
  else if sat then ⟨lowBits (fwidth code) (if x < lo then lo else hi), NV, true⟩
  else ⟨lowBits (fwidth code) x, NV, false⟩

/-- A floating value converted to an integer format (R61, R62). -/
def toIntFmt (code : Nat) (mode : RMode) (sat : Bool) (rnd : Nat) (v : FV) : FR :=
  match v with
  | .nan _ _ => ⟨0, NV, false⟩
  | .inf n =>
    if sat then
      let (lo, hi) := irange code
      ⟨lowBits (fwidth code) (if n then lo else hi), NV, true⟩
    else ⟨0, NV, false⟩
  | v =>
    match roundInt mode rnd v with
    | some (x, ex) =>
      let r := fitInt code sat x
      if r.flags = 0 && !ex then { r with flags := NX } else r
    | none => ⟨0, NV, false⟩

/-- A sum fitted into i32 (R78): wrapped, or clamped with ISAT. -/
def fit32 (sat : Bool) (x : Int) : Nat × Bool :=
  let r := fitInt 6 sat x
  (r.bits, r.sat)

/-- Floor(Log2(|t|)) of the non-zero finite terms, the greatest. -/
def maxExp : List FV → Option Int
  | [] => none
  | .fin _ m e :: ts =>
    let l : Int := Nat.log2 m + e
    if m = 0 then maxExp ts else match maxExp ts with | some x => some (max l x) | none => some l
  | _ :: ts => maxExp ts

/-- A term truncated toward zero to a multiple of 2^u (R74). -/
def truncTerm (u : Int) : FV → Int
  | .fin n m e =>
    let x : Int := ((if e ≥ u then m * 2 ^ (e - u).toNat else m / 2 ^ (u - e).toNat : Nat) : Int)
    if n then -x else x
  | _ => 0

/-- EngineStep (R74, R76): the sum of exact terms in windows of W bits, rounded once to f32 with RNE. `f0` are the flags
raised by forming the terms. -/
def engineStep (terms : List FV) (w : Nat) (f0 : Nat) : FR :=
  let pos := terms.any fun t => t = .inf false
  let neg := terms.any fun t => t = .inf true
  if pos && neg then ⟨f32F.nan, f0 ||| NV, false⟩
  else if terms.any isNan then ⟨f32F.nan, f0, false⟩
  else
    if pos then ⟨infBits f32F, f0, false⟩
    else if neg then ⟨signed f32F true (infBits f32F), f0, false⟩
    else match maxExp terms with
    | none => ⟨signed f32F (terms ≠ [] && terms.all fnegv) 0, f0, false⟩
    | some e =>
      let u := e - w
      let x := (terms.map (truncTerm u)).sum
      if x = 0 then ⟨0, f0, false⟩
      else
        let r := roundTo f32F .rne false 0 (ofScaled x u false)
        { r with flags := r.flags ||| f0 }

/-- A product of a step (R76): NV only for an infinity times zero; a NaN operand raises nothing. -/
def stepProduct (a b : FV) : FV × Nat :=
  if isNan a || isNan b then (qnan, 0) else fmul a b

/-- The factor of a scale byte (R52). -/
def scaleByte (v : Nat) : FV := if v = 255 then qnan else .fin false 1 ((v : Int) - 127)

/-! Random bits (R66-R71). -/

/-- One step of the 32-bit Galois LFSR (R68). -/
def step32 (s : BitVec 32) : BitVec 32 := if s.getLsbD 0 then (s >>> 1) ^^^ 0x8020_0003#32 else s >>> 1

/-- One step of the 64-bit Galois LFSR (R71). -/
def step64 (s : Word) : Word := if s.getLsbD 0 then (s >>> 1) ^^^ 0xD800_0000_0000_0000#64 else s >>> 1

/-- f applied n times. -/
def times (f : α → α) : Nat → α → α
  | 0, x => x
  | n + 1, x => times f n (f x)

/-- One advance of the lane seed (R68). -/
def advance32 (v : Word) : Word := ((times step32 32 (v.setWidth 32)).setWidth 64)

/-- One advance of the gang seed (R71). -/
def advance64 (v : Word) : Word := times step64 64 v

/-- LaneRandom (R67). -/
def laneRandom (seed : Word) (i : Nat) : Nat :=
  let w := (seed.setWidth 32 : BitVec 32).rotateLeft (8 * (i % 4))
  let h := if i / 4 % 2 = 0 then w.toNat % 65536 else w.toNat / 65536
  h ^^^ (i / 8 * 0x3C5A % 65536)

/-- GangRandom (R70). -/
def gangRandom (seed : Word) (r c : Nat) : Nat :=
  let v := seed ^^^ w64 ((r * 128 + c + 1) * 0x9E37_79B9_7F4A_7C15)
  let v := v ^^^ (v >>> 30)
  let v := v * 0xBF58_476D_1CE4_E5B9#64
  let v := v ^^^ (v >>> 27)
  let v := v * 0x94D0_49BB_1331_11EB#64
  let v := v ^^^ (v >>> 31)
  v.toNat % 65536

/-- The lane seed of a new thread (R66). -/
def seedOf (tid : Nat) : Word :=
  let v := (0x9E37_79B9 ^^^ tid) % 2 ^ 32
  w64 (if v = 0 then 1 else v)

end Sys2Proof.Machine
end

