-- ==== Sys2Proof/Machine/Page.lean ====
section
/-! DEFINITION. The granule map, translation with its caches, page attributes, scratch names, race tags and L1 copies of
managed pages (R29, R30, R183, R312, R342-R367, R501). -/

namespace Sys2Proof.Machine

/-- The kinds of access that translation tells apart (R351, R367). -/
inductive Acc | fetch | load | store
  deriving DecidableEq, Repr

/-- The granule-map entry in force for a physical address (R347); zero where none is. -/
def granule (s : State) (pa : Nat) : Word := mget 0 s.granules (pa / 2 ^ 30)

/-- The range check of R30 and R34 for a tag: the granule is in force and is the partition's; a manager's request
passes for every granule in force. -/
def inRange (s : State) (p pa : Nat) : Bool :=
  let g := granule s pa
  bit g 63 && (p = 8 || (!bit g 20 && bits g 19 17 = p))

/-- The same, of n bytes that may cross a granule's end. -/
def inRanges (s : State) (p pa n : Nat) : Bool := n = 0 || (inRange s p pa && inRange s p (pa + n - 1))

/-- The package stack of a line in an HBM granule (R348, R369). -/
def stackOf (s : State) (pa : Nat) : Nat :=
  let g := granule s pa
  let v := w64 pa
  let die := bits g 8 7
  match bits g 12 11, bit g 15 with
  | 0, _ => 4 * die + bits g 10 9
  | 1, false => 4 * die + bits g 10 9 + (bits v 8 8 ^^^ bits v 16 16)
  | 1, true => 4 * die + bits g 10 9 + bits v 21 21
  | _, false => 4 * die + (bits v 9 8 ^^^ bits v 17 16)
  | _, true => 4 * die + bits v 22 21

/-- SliceInStack (R20). -/
def sliceInStack (pa : Nat) : Nat :=
  let v := w64 pa
  bits v 9 6 ^^^ bits v 13 10 ^^^ bits v 17 14 ^^^ bits v 21 18

/-- The granule is of the capacity tier (R347). -/
def capacityTier (s : State) (pa : Nat) : Bool := bit (granule s pa) 16

/-- The home of a line: the slice 64 * die + slice within the die of an HBM line (R19, R20); the home agent of latency die d, numbered
256 + d, for a line of the capacity tier (R348), which has no SIMT slice and no cobbler core. -/
def homeSlice (s : State) (pa : Nat) : Nat :=
  if capacityTier s pa then 256 + bits (granule s pa) 8 7
  else
    let st := stackOf s pa
    st / 4 * 64 + st % 4 * 16 + sliceInStack pa

/-- The die of a line's home. -/
def homeDie (s : State) (pa : Nat) : Nat :=
  if capacityTier s pa then 4 + bits (granule s pa) 8 7 else stackOf s pa / 4

/-- Where a line of an HBM granule lies in its stack (R348, R369): the package stack, the channel in the package numbering; on a
row-interleaved granule the pseudo-channel, the bank quad, the bank of the pseudo-channel and the row within its subarray too. -/
structure RowPlace where
  stack : Nat
  chan  : Nat
  pch   : Nat := 0
  quad  : Nat := 0
  bank  : Nat := 0
  row   : Nat := 0
  deriving DecidableEq, Repr

/-- The place of an address on a line-interleaved granule (R348). -/
def linePlace (s : State) (pa : Nat) : RowPlace :=
  let st := stackOf s pa
  { stack := st, chan := 32 * st + (bits (w64 pa) 14 10 ^^^ bits (w64 pa) 24 20) }

/-- The place of an address on a row-interleaved granule (R369). -/
def rowPlace (s : State) (pa : Nat) : RowPlace :=
  let v := w64 pa
  let st := stackOf s pa
  let (ch, pch, quad) := match bits (granule s pa) 12 11 with
    | 0 => (bits v 25 21, bits v 26 26, bits v 28 27)
    | 1 => (bits v 26 22, bits v 27 27, bits v 29 28)
    | _ => (bits v 27 23, bits v 28 28, bits v 30 30 * 2 + bits v 29 29)
  { stack := st, chan := 32 * st + ch, pch := pch, quad := quad, bank := 4 * quad + bits v 11 10, row := bits v 20 12 }

/-- Traffic passes between an agent and the home of an address (R481). -/
def homeOpen (s : State) (die pa : Nat) : Bool := routeOpen s die (homeDie s pa)

/-- A line is held at its home, for another agent than the cobbler core `k`: by a running invocation, or by a queued
fill or eviction event of the line (R420). -/
def lineHeld (s : State) (k pa n : Nat) : Bool :=
  s.slices.any fun (x, sl) =>
    cobKey x ≠ k && ((match sl.run with
      | some r => r.held.any fun (l, _) => overlaps pa n (64 * l) 64
      | none => false) ||
      sl.queue.any fun e => (e.code = 1 || e.code = 2) && overlaps pa n (e.pa / 64 * 64) 64)

/-- Whose accesses are translated, and how: the partition tag, `satp`, the mode's rights, the owner's place for private
pages and the translation cache used. -/
structure Ctx where
  part  : Nat
  satp  : Word
  user  : Bool
  sum   : Bool := false
  mxr   : Bool := false
  only57 : Bool := true
  side  : Nat := 2                -- 0 SIMT, 1 latency, 2 neither
  die   : Nat := 0
  core  : Nat := 0
  cache : Nat := 0
  adue  : Bool := false
  deriving DecidableEq, Repr

/-- The partition-wide values that govern a tag's translations; the manager's own under 8 (R352, R354). -/
def ctxOf (s : State) (k : Nat) (acc : Acc) : Ctx :=
  let p := partOf s k
  if isHart k then
    let h := hart s k
    let m : Mode := if acc ≠ .fetch && bit h.mstatus 17
      then (match bits h.mstatus 12 11 with | 0 => .user | 1 => .supervisor | _ => .machine) else h.mode
    { part := p, satp := if m = .machine then 0 else h.satp, user := m = .user, sum := bit h.mstatus 18, mxr := bit h.mstatus 19
      only57 := false, side := 1, die := (k - 0x10_0000) / 64, core := k % 64, cache := 0x1000 + (k - 0x10_0000)
      adue := if p = 8 then bit h.menvcfg 61 else (part s p).adue }
  else if isSimt k then
    { part := p, satp := (thr s k).satp, user := true, side := 0, die := dieOf k, core := coreOf k % 64, cache := coreOf k
      adue := (part s p).adue }
  else { part := p, satp := (thr s k).satp, user := true, cache := 0x2000 + (k - 0x20_0000), adue := (part s p).adue }

/-- A page fault's SIMT cause: 0x0A for a writing access, 0x09 otherwise (R367). -/
def pageCause (a : Acc) : Nat := if a = .store then 0x0A else 0x09

/-- The mode's page-table levels: Sv39, Sv48, Sv57; none for another mode. -/
def levels (mode : Nat) : Option Nat := match mode with | 8 => some 3 | 9 => some 4 | 10 => some 5 | _ => none

/-- The VA's upper bits are copies of its highest translated bit. -/
def canonical (va : Word) (lv : Nat) : Bool :=
  let n := 12 + 9 * lv
  let t := va.toNat / 2 ^ (n - 1)
  t = 0 || t = 2 ^ (65 - n) - 1

/-- A leaf of a walk: where the PTE stands, its value and its level. -/
structure Leaf where
  at_   : Nat
  pte   : Word
  level : Nat
  deriving DecidableEq, Repr

/-- The walk from a table (R349, R351, R367): the leaf, or the SIMT cause, beside it the address of an uncorrectable
error (R454). -/
def walkFrom (s : State) (c : Ctx) (paten : Bool) (va : Word) (acc : Acc) : Nat → Nat → Except (Nat × Option Nat) Leaf
  | 0, _ => .error (pageCause acc, none)
  | n + 1, table =>
    let a := table * 4096 + bits va (12 + 9 * n + 8) (12 + 9 * n) * 8
    if !inRange s c.part a then .error (0x0B, none)
    else if poisoned s a 8 then .error (0x0B, some a)
    else
      let pte := rdWord s a
      if !bit pte 0 || (bit pte 2 && !bit pte 1) || bits pte 62 61 ≠ 0 || (!paten && bits pte 60 54 ≠ 0) then
        .error (pageCause acc, none)
      else if bit pte 1 || bit pte 3 then
        if bit pte 63 && (n ≠ 0 || bits pte 13 10 ≠ 8) then .error (pageCause acc, none)
        else if bits pte 53 10 % 2 ^ (9 * n) ≠ 0 then .error (pageCause acc, none)
        else .ok ⟨a, pte, n⟩
      else if bit pte 63 || bits pte 60 54 ≠ 0 || bits pte 7 6 ≠ 0 || bit pte 4 then .error (pageCause acc, none)
      else walkFrom s c paten va acc n (bits pte 53 10)

/-- The rights of a leaf for an access (R349, R367). -/
def rights (c : Ctx) (acc : Acc) (pte : Word) : Bool :=
  let u := bit pte 4
  (if c.user then u else (!u || (c.sum && acc ≠ .fetch))) &&
  match acc with
  | .fetch => bit pte 3
  | .load => bit pte 1 || (c.mxr && bit pte 3)
  | .store => bit pte 2

/-- 4 KiB pages that a leaf maps (R350). -/
def leafPages (l : Leaf) : Nat := if bit l.pte 63 then 16 else 512 ^ l.level

/-- PPN of the first page that a leaf maps. -/
def leafPpn (l : Leaf) : Nat := if bit l.pte 63 then bits l.pte 53 10 / 16 * 16 else bits l.pte 53 10

/-- A PAT entry is valid for a partition (R355). -/
def patValid (s : State) (p : Nat) (v : Word) : Bool :=
  let home := bits v 3 2
  let cc := bits v 5 4
  bit v 0 && bits v 63 25 = 0 && bits v 15 9 = 0 && !bit v 1 && cc ≠ 3 &&
  !(home = 3 && (cc ≠ 0 || bit v 6 || bit v 8)) &&
  !(bit v 7 && home ≠ 3) && !(bit v 8 && cc ≠ 0) && !(cc ≠ 2 && bits v 24 16 ≠ 0) &&
  !(cc = 2 && !(if bit v 24
      then bits v 23 22 < 2 && (if bits v 23 22 = 0 then (part s p).lc0 else (part s p).lc1).testBit (bits v 21 16)
      else ownsCore s p (bits v 23 22 * 64 + bits v 21 16)))

/-- The attributes of a leaf (R354, R355): the PAT entry, or 1 (home cached, coherent, line interleave) when PATEN is 0. -/
def patOf (s : State) (p : Nat) (pte : Word) : Except (Nat × Option Nat) Word :=
  if !(part s p).paten then .ok 1
  else
    let a := bits (part s p).patbase 63 10 * 1024 + 8 * bits pte 60 54
    if !inRange s p a then .error (0x0B, none)
    else if poisoned s a 8 then .error (0x0B, some a)
    else if patValid s p (rdWord s a) then .ok (rdWord s a) else .error (0x0B, none)

/-- The page is private to another agent (R357). -/
def notOwner (c : Ctx) (pat : Word) : Bool :=
  bits pat 5 4 = 2 && !(c.side = bits pat 24 24 && c.die = bits pat 23 22 && c.core = bits pat 21 16)

/-- The checks of R355 and R357 at an access: the interleave of the granule, and the owner of a private page. -/
def patAccess (s : State) (c : Ctx) (pat : Word) (pa : Nat) : Bool :=
  (bits pat 3 2 = 3 || !inRange s c.part pa || bit pat 6 = bit (granule s pa) 15) && !notOwner c pat

/-- The die TLB behind a SIMT core's own (R363). -/
def dieCache (cache : Nat) : Option Nat := if cache < 256 then some (0x3000 + cache / 64) else none

/-- The entries that a translation cache has room for (R363). The latency cores' own design is not given and sets no limit. -/
def tlbRoom (cache : Nat) : Option Nat :=
  if cache < 0x1000 then some 128 else if cache < 0x2000 then none else if cache < 0x3000 then some 32 else some 16384

/-- The entry of one translation cache that an access hits (R363): its tag, ASID unless global, and page, when the
entry's PTE allows the access and needs no update of A or D. -/
def cacheHit (s : State) (cache : Nat) (c : Ctx) (va : Word) (acc : Acc) : Option TlbEntry :=
  s.tlb.find? fun e =>
    e.cache = cache && e.part = c.part && (e.asid = asidOf c.satp || bit e.pte 5) &&
    e.vpn ≤ bits va 56 12 && bits va 56 12 < e.vpn + e.pages &&
    rights c acc e.pte && bit e.pte 6 && (acc ≠ .store || bit e.pte 7)

/-- The entry that an access hits: the agent's own cache, then its die's. -/
def tlbHit (s : State) (c : Ctx) (va : Word) (acc : Acc) : Option TlbEntry :=
  match cacheHit s c.cache c va acc with
  | some e => some e
  | none => (dieCache c.cache).bind fun d => cacheHit s d c va acc

/-- Two entries of one cache are for the same page of the same context. -/
def samePage (a b : TlbEntry) : Bool := a.cache = b.cache && a.part = b.part && a.asid = b.asid && a.vpn = b.vpn

/-- A translation cache takes an entry: it replaces the one for the same page, and the oldest goes where there is no room. -/
def tlbPut (l : List TlbEntry) (e : TlbEntry) : List TlbEntry :=
  let l := e :: l.filter fun x => !samePage x e
  match tlbRoom e.cache with
  | none => l
  | some n =>
    match (l.filter fun x => x.cache = e.cache)[n]? with
    | some old => l.filter (· ≠ old)
    | none => l

/-- An entry enters the agent's own cache and its die's (R363). -/
def tlbFill (s : State) (e : TlbEntry) : State :=
  let l := tlbPut s.tlb e
  { s with tlb := match dieCache e.cache with | some d => tlbPut l { e with cache := d } | none => l }

/-- The place from which a walk of a SIMT die starts: below the deepest cached non-leaf PTE of the context and VA, else at the root
(R363): the levels that remain, and the table. -/
def walkStart (s : State) (c : Ctx) (va : Word) (lv root : Nat) : Nat × Nat :=
  match dieCache c.cache with
  | none => (lv, root)
  | some d =>
    match (List.range lv).find? fun n => n ≠ 0 && s.walkCache.any fun x =>
        x.die = d && x.part = c.part && x.asid = asidOf c.satp && x.level = n && x.prefix_ = bits va 56 12 / 2 ^ (9 * n) with
    | none => (lv, root)
    | some n =>
      match s.walkCache.find? fun x =>
          x.die = d && x.part = c.part && x.asid = asidOf c.satp && x.level = n && x.prefix_ = bits va 56 12 / 2 ^ (9 * n) with
      | some x => (n, x.table)
      | none => (lv, root)

/-- The non-leaf PTEs that a walk reads from a table on down to the leaf's level. -/
def walkPath (s : State) (va : Word) (leaf : Nat) : Nat → Nat → List (Nat × Nat)
  | 0, _ => []
  | n + 1, table =>
    if n ≤ leaf then []
    else
      let t := bits (rdWord s (table * 4096 + bits va (12 + 9 * n + 8) (12 + 9 * n) * 8)) 53 10
      (n, t) :: walkPath s va leaf n t

/-- The walk cache of a SIMT die takes the non-leaf PTEs of a walk; the oldest go where more than 512 stand (R363). -/
def walkFill (s : State) (c : Ctx) (va : Word) (path : List (Nat × Nat)) : State :=
  match dieCache c.cache with
  | none => s
  | some d =>
    path.foldl (fun s (n, t) =>
      let x : WalkPte := { die := d, part := c.part, asid := asidOf c.satp, level := n, prefix_ := bits va 56 12 / 2 ^ (9 * n), table := t }
      let l := x :: s.walkCache.filter fun y =>
        !(y.die = d && y.part = x.part && y.asid = x.asid && y.level = n && y.prefix_ = x.prefix_)
      { s with walkCache := match (l.filter fun y => y.die = d)[512]? with | some old => l.filter (· ≠ old) | none => l }) s

/-- The outcome of a translation: physical address and attributes, or the SIMT cause. -/
abbrev Xlat := Except Nat (Nat × Word)

/-- Translation of an address up to its page's attributes (R349-R367): what it gives before the checks of R355 and R357. -/
def translateRaw (s : State) (c : Ctx) (va : Word) (acc : Acc) : Xlat × State :=
  let mode := bits c.satp 63 60
  if mode = 0 && !c.only57 then
    (if va.toNat < 2 ^ 56 then .ok (va.toNat, 1) else .error 0x0B, s)
  else if c.only57 && mode ≠ 10 then (.error 0x0B, s)
  else match levels mode with
  | none => (.error 0x0B, s)
  | some lv =>
    if !canonical va lv then (.error (pageCause acc), s)
    else match tlbHit s c va acc with
    | some e =>
      let pa := (e.ppn + (bits va 56 12 - e.vpn)) * 4096 + bits va 11 0
      (.ok (pa, e.pat), if e.cache = c.cache then s else { s with tlb := tlbPut s.tlb { e with cache := c.cache } })
    | none =>
      let (n, table) := walkStart s c va lv (bits c.satp 43 0)
      match walkFrom s c (part s c.part).paten va acc n table with
      | .error (code, ecc) =>
        (.error code, match ecc with | some a => eccRecord s c.part a | none => s)
      | .ok l =>
        let s := walkFill s c va (walkPath s va l.level n table)
        if !rights c acc l.pte then (.error (pageCause acc), s)
        else
          let need := !bit l.pte 6 || (acc = .store && !bit l.pte 7)
          if need && !c.adue then (.error (pageCause acc), s)
          else
            let pte := if need then l.pte ||| (if acc = .store then 0xC0 else 0x40) else l.pte
            let s := if need then wrWord s l.at_ pte else s
            match patOf s c.part pte with
            | .error (e, ecc) => (.error e, match ecc with | some a => eccRecord s c.part a | none => s)
            | .ok pat =>
              let n := leafPages l
              let vpn := bits va 56 12 / n * n
              let pa := (leafPpn l + (bits va 56 12 - vpn)) * 4096 + bits va 11 0
              let e : TlbEntry :=
                { cache := c.cache, part := c.part, asid := asidOf c.satp, vpn := vpn, pages := n, ppn := leafPpn l
                  pte := pte, pat := pat, pteAt := l.at_ }
              (.ok (pa, pat), tlbFill s e)

/-- Translation of an address for an access (R349-R367). -/
def translate (s : State) (c : Ctx) (va : Word) (acc : Acc) : Xlat × State :=
  match translateRaw s c va acc with
  | (.error e, s) => (.error e, s)
  | (.ok (pa, pat), s) => (if patAccess s c pat pa then .ok (pa, pat) else .error 0x0B, s)

/-- The die of the walker that serves a translation cache (R363). -/
def walkDie (cache : Nat) : Nat :=
  if cache < 0x1000 then cache / 64
  else if cache < 0x2000 then 4 + (cache - 0x1000) / 64
  else if cache < 0x3000 then (cache - 0x2000) / 64 else cache - 0x3000

/-- The agent whose walks a translation cache makes: a cobbler core's own held lines do not stop its walks, and every other walker
waits as hardware does (R420). -/
def walkKey (cache : Nat) : Nat := if 0x2000 ≤ cache && cache < 0x3000 then cobKey (cache - 0x2000) else hwKey

/-- The physical addresses that a walk from a table reads, in order: PTEs, and the PAT entry of a leaf. -/
def walkReads (s : State) (p : Nat) (va : Word) : Nat → Nat → List Nat
  | 0, _ => []
  | n + 1, table =>
    let a := table * 4096 + bits va (12 + 9 * n + 8) (12 + 9 * n) * 8
    let pte := rdWord s a
    a :: (if !inRange s p a || poisoned s a 8 || !bit pte 0 then []
      else if bits pte 3 1 = 0 then walkReads s p va n (bits pte 53 10)
      else if (part s p).paten then [bits (part s p).patbase 63 10 * 1024 + 8 * bits pte 60 54] else [])

/-- The reads that a translation makes at homes: none where it needs no walk. -/
def xlatReads (s : State) (c : Ctx) (va : Word) (acc : Acc) : List Nat :=
  let mode := bits c.satp 63 60
  if c.only57 && mode ≠ 10 then []
  else match levels mode with
  | none => []
  | some lv =>
    if !canonical va lv || (tlbHit s c va acc).isSome then []
    else let (n, table) := walkStart s c va lv (bits c.satp 43 0); walkReads s c.part va n table

/-- A walk waits (R339, R420, R481): a line that it reads, and whose A and D bits it may write, is held at its home, or traffic between
the walker's die and that home waits. -/
def walkWaits (s : State) (c : Ctx) (va : Word) (acc : Acc) : Bool :=
  (xlatReads s c va acc).any fun a =>
    inRange s c.part a && (lineHeld s (walkKey c.cache) a 8 || !homeOpen s (walkDie c.cache) a)

/-- A miss of a SIMT die waits for a walker (R363): a walk of the same page is outstanding, or 64 are. -/
def walkerBusy (s : State) (c : Ctx) (va : Word) (acc : Acc) : Bool :=
  c.cache < 256 && bits c.satp 63 60 = 10 && canonical va 5 && (tlbHit s c va acc).isNone &&
  let busy := s.walks.filter fun x => x.phase = 1 && dieOf x.key = c.cache / 64
  (busy.length ≥ 64 || busy.any fun x => x.part = c.part && x.satp = c.satp && bits x.va 56 12 = bits va 56 12)

/-- A translation is not made yet: the access is held, and looks again (R363, R420, R481). -/
def xlatWaits (s : State) (c : Ctx) (va : Word) (acc : Acc) : Bool := walkWaits s c va acc || walkerBusy s c va acc

/-- The physical address that the home refuses in an access that ends with 0x0B (R30, R357, R367): a PTE or PAT entry outside the
partition, or a page that is private to another agent. -/
def refusedAt (s : State) (c : Ctx) (va : Word) (acc : Acc) : Option Nat :=
  match (translateRaw s c va acc).1 with
  | .ok (pa, pat) => if notOwner c pat then some pa else none
  | .error _ => (xlatReads s c va acc).find? fun a => !inRange s c.part a

/-! Where an access lands, and why it does not. -/

/-- Bytes of physical memory with their attributes, or of a team's scratch (R183). -/
inductive Loc
  | mem (pa : Nat) (pat : Word)
  | scr (asid num off : Nat) (rchk : Bool)
  deriving DecidableEq, Repr

/-- Why an access is not performed: a cause with the address; a race with `hrace`; or it is held for now (R183, R420). -/
inductive Flt
  | cause (code : Nat) (va : Word)
  | race (va hrace : Word)
  | hold
  deriving DecidableEq, Repr

/-- The range-lock violations of R312 for bytes of an ASID on a core. -/
def rangeLocked (s : State) (c asid va n : Nat) (acc : Acc) : Bool :=
  (core s c).rlocks.any fun e => e.asid = asid && (e.write || acc = .store) && va < e.hi && e.lo < va + n

/-- What the scratch map answers for a name (R183): none when the access is held, some true when it is performed,
some false for an access fault. -/
def scratchReach (s : State) (p asid pa n : Nat) : Option Bool :=
  if pa / 2 ^ 32 ≠ 0 then some false
  else match team? s p asid (pa / 2 ^ 20) with
  | none => some false
  | some t =>
    match t.st with
    | .resident => some (pa % 2 ^ 20 + n ≤ 4096 * t.desc.scrpg)
    | .loading | .saving => none
    | _ => some false

/-- One granule of a checked access (R343): the new tag, or the OTHER of a race. -/
def raceStep (par : Bool) (t : Nat) (wr : Bool) (g : RaceTag) : Except Nat RaceTag :=
  let st := if g.par = par then g.st else 0
  match st, wr with
  | 0, false => .ok ⟨par, 1, t⟩
  | 0, true => .ok ⟨par, 3, t⟩
  | 1, false => if g.owner = t then .ok ⟨par, 1, t⟩ else .ok ⟨par, 2, t⟩
  | 1, true => if g.owner = t then .ok ⟨par, 3, t⟩ else .error g.owner
  | 2, false => .ok ⟨par, 2, t⟩
  | 2, true => .error (if g.owner = t then 0x3FF else g.owner)
  | _, _ => if g.owner = t then .ok ⟨par, 3, t⟩ else .error g.owner

/-- The granules of a checked access in ascending order: every tag updated, or the lowest granule that races. -/
def raceAll (par : Bool) (t : Nat) (wr : Bool) : List Nat → SMap RaceTag → Except (Nat × Nat) (SMap RaceTag)
  | [], m => .ok m
  | g :: gs, m =>
    match raceStep par t wr (mget {} m g) with
    | .error o => .error (g, o)
    | .ok tag => raceAll par t wr gs (mset {} m g tag)

/-- The granules of n bytes at an offset. -/
def granulesOf (off n : Nat) : List Nat := (List.range ((off + n - 1) / 16 - off / 16 + 1)).map (off / 16 + ·)

/-! L1 copies of managed and private pages (R357, R358). -/

/-- The page is managed, or private to a SIMT core, and its lines may stand in a SIMT core's L1 apart from the home (R357, R358). -/
def managed (pat : Word) : Bool := (bits pat 5 4 = 1 || (bits pat 5 4 = 2 && !bit pat 24)) && bits pat 3 2 < 2

/-- The copy of a line in a core's L1. -/
def l1Copy? (s : State) (c line : Nat) : Option L1Line := s.l1.find? fun l => l.core = c && l.line = line

/-- Dirty bytes, and only those, replace the home's (R358). -/
def writeBackLine (s : State) (l : L1Line) : State :=
  l.dirty.foldl (fun s (o, d) => if d then wrBytes s hwKey (64 * l.line + o) [mget 0 l.data o] else s) s

/-- Drops a core's copy of a line. -/
def dropL1 (s : State) (c line : Nat) : State := { s with l1 := s.l1.filter fun l => !(l.core = c && l.line = line) }

/-- Writes back and drops a core's copy of a line. -/
def evictL1 (s : State) (c line : Nat) : State :=
  match l1Copy? s c line with
  | some l => dropL1 (writeBackLine s l) c line
  | none => s

/-- Copies of a line in the SIMT L1s may have been evicted at any moment (R358): for each a free bit decides. -/
def freeEvict (s : State) (line : Nat) : State :=
  (s.l1.filter (·.line = line)).foldl (fun s l =>
    let (ev, s) := freshBool s
    if ev then dropL1 (writeBackLine s l) l.core line else s) s

/-- Steps 2 to 5 of R501 for an access by the thread of a key to n bytes that lie in one page: where it lands, or why
it is not performed. `chk` says that the access is one that R344 checks for races. -/
def reach (s : State) (k : Nat) (va : Word) (n : Nat) (acc : Acc) (chk : Bool) : Except Flt Loc × State :=
  let c := ctxOf s k acc
  if xlatWaits s c va acc then (.error .hold, s)
  else match translate s c va acc with
  | (.error code, s) => (.error (.cause code va), s)
  | (.ok (pa, pat), s) =>
    if isSimt k && acc ≠ .fetch && rangeLocked s (coreOf k) (asidOf c.satp) va.toNat n acc then
      (.error (.cause 0x0C va), s)
    else if bits pat 3 2 = 3 then
      match scratchReach s c.part (asidOf c.satp) pa n with
      | none => (.error .hold, s)
      | some false => (.error (.cause 0x0B va), s)
      | some true =>
        let num := pa / 2 ^ 20
        let off := pa % 2 ^ 20
        let t := team s c.part (asidOf c.satp) num
        if !routeOpen s (agentDie k) t.die then (.error .hold, s)
        else if chk && bit pat 7 && (thr s k).team = num && !(thr s k).helper then
          match raceAll (t.phase % 2 = 1) (thr s k).tidx (acc = .store) (granulesOf off n) t.tags with
          | .error (g, o) =>
            let gva := (va - w64 off + w64 (16 * g)).toNat
            (.error (.race va (setBits (setBits (setBit 0 63 (acc = .store)) 62 10 (gva / 16 % 2 ^ 53)) 9 0 o)), s)
          | .ok tags =>
            (.ok (.scr (asidOf c.satp) num off true), modTeam s c.part (asidOf c.satp) num fun t => { t with tags := tags })
        else (.ok (.scr (asidOf c.satp) num off (bit pat 7)), s)
    else if !inRanges s c.part pa n then (.error (.cause 0x0B va), s)
    else if lineHeld s k pa n || !homeOpen s (agentDie k) pa then (.error .hold, s)
    else if poisoned s pa n then
      (.error (.cause 0x0B va),
        if isHart k && (hart s k).mode ≠ .user then eccRecord s c.part pa else s)
    else (.ok (.mem pa pat), freeEvict s (pa / 64))

/-! Using an L1. -/

/-- The team holds resources of a core: it is resident, saving or loading (R179). -/
def placed (t : Team) : Bool := t.st = .resident || t.st = .saving || t.st = .loading

/-- The core of a placed team: 64 * die + core. -/
def teamCore (t : Team) : Nat := 64 * t.die + t.core

/-- The lines that a SIMT core's L1 holds: its 1 MiB of SRAM less the scratch of the teams it holds (R25, R179). -/
def l1Lines (s : State) (c : Nat) : Nat :=
  (Config.Resource.coreSram.perUnit - ((s.teams.filter fun t => placed t && teamCore t = c).map fun t => 4096 * t.desc.scrpg).sum) / 64

/-- A core's L1 evicts lines, which the spec does not name, until the rest fit (R25, R179); at most `n`. -/
def trimL1 (s : State) (c : Nat) : Nat → State
  | 0 => s
  | n + 1 =>
    let mine := s.l1.filter (·.core = c)
    if mine.length ≤ l1Lines s c then s
    else match choose s (mine.map (·.line)) with
      | (some line, s) => trimL1 (evictL1 s c line) c n
      | (none, s) => s

/-- A core's L1 keeps no more lines than fit beside the scratch (R25, R179). -/
def fitL1 (s : State) (c : Nat) : State := trimL1 s c s.l1.length

/-- The line's copy in the core's L1, filled from the home when absent. -/
def fillL1 (s : State) (c line : Nat) : L1Line × State :=
  match l1Copy? s c line with
  | some l => (l, s)
  | none =>
    let bs := rdBytes s (64 * line) 64
    let l : L1Line := { core := c, line := line, data := (span 0 64).foldl (fun m i => mset 0 m i (bs.getD i 0)) [], dirty := [] }
    (l, { s with l1 := l :: s.l1 })

/-- Fewer than `n` of some lines of a slice share the set of a line (R356, R361). -/
def inSet (n : Nat) (here : List Nat) (line : Nat) : Bool :=
  here.length < n || (here.filter fun l => Config.l2Set l = Config.l2Set line).length < n

/-- The 64-byte lines are locked in their home slice on a slice-pinned page, within the pin quota and 12 ways of a set (R356). -/
def pin (s : State) (p : Nat) (pat : Word) (pa : Nat) : State :=
  let sl := homeSlice s pa
  if bits pat 3 2 = 1 && sl < 256 && !s.pinned.contains (pa / 64) then
    let here := s.pinned.filter fun l => homeSlice s (64 * l) = sl
    let own := here.filter fun l => bits (granule s (64 * l)) 19 17 = p
    if own.length < 64 * min (part s p).pinq (part s p).l2q && inSet 12 here (pa / 64) then
      { s with pinned := s.pinned ++ [pa / 64] }
    else s
  else s

/-- n bytes of scratch. -/
def scratchRead (t : Team) (off n : Nat) : List Byte := (span off n).map fun a => mget 0 t.scratch a

/-- Bytes written to scratch. -/
def scratchWrite (m : SMap Byte) (off : Nat) : List Byte → SMap Byte
  | [] => m
  | b :: bs => scratchWrite (mset 0 m off b) (off + 1) bs

/-- A number for the place of an access, for the reservations of LR (log 8): a physical address, or a scratch name
above every physical address. -/
def locKey (p : Nat) (l : Loc) : Nat :=
  match l with
  | .mem pa _ => pa
  | .scr asid num off _ => 2 ^ 60 + ((p * 65536 + asid) * 4096 + num) * 2 ^ 20 + off

/-- Bytes written to a team's scratch by the agent `key`; other agents' reservations over them are lost. -/
def scrWrite (s : State) (key : Nat) (l : Loc) (asid num off : Nat) (bs : List Byte) : State :=
  let a := locKey (partOf s key) l
  modTeam { s with resvs := s.resvs.filter fun (k, b, n) => k = key || !overlaps a bs.length b n }
    (partOf s key) asid num fun t => { t with scratch := scratchWrite t.scratch off bs }

/-- Reads n bytes, within one line, where an access landed. -/
def readLoc (s : State) (k : Nat) (l : Loc) (n : Nat) : List Byte × State :=
  match l with
  | .scr asid num off _ => (scratchRead (team s (partOf s k) asid num) off n, s)
  | .mem pa pat =>
    let s := pin s (partOf s k) pat pa
    if managed pat && isSimt k then
      let (c, s) := fillL1 s (coreOf k) (pa / 64)
      ((span (pa % 64) n).map fun o => mget 0 c.data o, fitL1 s (coreOf k))
    else (rdBytes s pa n, s)

/-- Before a write at the home of a domain-shared line, the directory is told to invalidate its copies in other packages, and
acknowledges (R485, log 36). -/
def invalidate (s : State) (pat : Word) (pa : Nat) : State := if bit pat 8 then { s with invals := pa / 64 :: s.invals } else s

/-- Writes bytes, within one line, where an access landed. -/
def writeLoc (s : State) (k : Nat) (l : Loc) (bs : List Byte) : State :=
  match l with
  | .scr asid num off r => scrWrite s k (.scr asid num off r) asid num off bs
  | .mem pa pat =>
    let s := pin s (partOf s k) pat pa
    if managed pat && isSimt k then
      let (c, s) := fillL1 s (coreOf k) (pa / 64)
      let put := fun (m : SMap Byte × SMap Bool) (i : Nat) =>
        (mset 0 m.1 (pa % 64 + i) (bs.getD i 0), mset false m.2 (pa % 64 + i) true)
      let (d, dd) := (List.range bs.length).foldl put (c.data, c.dirty)
      fitL1 { s with l1 := s.l1.map fun l => if l.core = c.core && l.line = c.line then { l with data := d, dirty := dd } else l } (coreOf k)
    else wrBytes (invalidate s pat pa) k pa bs

/-- Before an atomic access, a slice-pinned line is locked as it is filled (R356), and the core's copy of a managed line is written back
and dropped (R358). -/
def atomicReady (s : State) (k : Nat) (l : Loc) : State :=
  match l with
  | .mem pa pat =>
    let s := pin s (partOf s k) pat pa
    if managed pat && isSimt k then evictL1 s (coreOf k) (pa / 64) else s
  | .scr _ _ _ _ => s

/-- Reads at the home itself, for an atomic access. -/
def readHome (s : State) (k : Nat) (l : Loc) (n : Nat) : List Byte :=
  match l with
  | .scr asid num off _ => scratchRead (team s (partOf s k) asid num) off n
  | .mem pa _ => rdBytes s pa n

/-- Writes at the home itself, for an atomic access. -/
def writeHome (s : State) (k : Nat) (l : Loc) (bs : List Byte) : State :=
  match l with
  | .scr asid num off r => scrWrite s k (.scr asid num off r) asid num off bs
  | .mem pa pat => wrBytes (invalidate s pat pa) k pa bs

end Sys2Proof.Machine
end

