-- ==== Sys2Proof/Machine/Post.lean ====
section
/-! DEFINITION. Writes that hardware makes on its own account, of frames, images, records and counts, on their way to their homes:
each is performed when its lines are free and its route is open (R339, R420, R424, R429, R454, R481). -/

namespace Sys2Proof.Machine

/-- The two doublewords of an entry (R218). -/
def packEntry (e : SyncEntry) : List Word :=
  let pend := (e.pend % 2 ^ 36).toNat
  [w64 (e.kind * 2 ^ 62 + b2n e.tb * 2 ^ 61 + e.scope * 2 ^ 57 + b2n e.ovf * 2 ^ 56 + e.nis * 2 ^ 48 + e.nbk * 2 ^ 44 + e.nfb * 2 ^ 40 +
      e.phase * 2 ^ 20 + e.expect * 2 ^ 10 + e.arrived),
   if e.kind = 2 then w64 pend else w64 e.value]

/-- An entry read from its two doublewords. -/
def unpackEntry (d0 d1 : Word) : SyncEntry :=
  let kind := bits d0 63 62
  { kind := kind, tb := bit d0 61, scope := bits d0 60 57, ovf := bit d0 56
    nis := bits d0 51 48, nbk := bits d0 47 44, nfb := bits d0 43 40
    phase := bits d0 35 20, expect := bits d0 19 10, arrived := bits d0 9 0
    value := if kind = 2 then 0 else bits d1 47 0
    pend := if kind = 2 then (BitVec.ofNat 36 (bits d1 35 0)).toInt else 0 }

/-- Credit (R222), on the entry alone, with the path count of a row operation. -/
def creditEntry (e : SyncEntry) (n path : Nat) : SyncEntry :=
  let e := match e.kind, path with
    | 0, _ => e
    | _, 1 => { e with nis := min 15 (e.nis + 1) }
    | _, 2 => { e with nbk := min 15 (e.nbk + 1) }
    | _, 3 => { e with nfb := min 15 (e.nfb + 1) }
    | _, _ => e
  match e.kind with
  | 1 =>
    if e.value + n > 2 ^ 48 - 1 then { e with value := 2 ^ 48 - 1, ovf := true } else { e with value := e.value + n }
  | 2 =>
    let p := e.pend - n
    if p < -(2 ^ 35) then { e with pend := -(2 ^ 35), ovf := true } else { e with pend := p }
  | _ => e

/-! Writes on their way. -/

/-- No handler holds the n bytes at a physical address, traffic passes between a die and their home, and no earlier write of the hardware
to them is on its way (R420, R481). -/
def postClear (s : State) (die a n : Nat) : Bool :=
  n = 0 || (!lineHeld s hwKey a n && homeOpen s die a && homeOpen s die (a + n - 1) && !s.posted.any fun p => overlaps p.at_ p.what.size a n)

/-- Record `tail` of a fault ring of 2^size records (R424). -/
def ringSlot (s : State) (a size : Nat) : Nat := a + 0x40 + 32 * ((rdWord s (a + 8)).toNat % 2 ^ size)

/-- The fault ring's record of an abort (R424), and LOST when the ring is full. -/
def ringRecord (s : State) (a size : Nat) (rec : List Word) : State :=
  let tail := rdWord s (a + 8)
  if (tail - rdWord s a).toNat = 2 ^ size then wrWord s (a + 0x10) (rdWord s (a + 0x10) + 1)
  else wrWord (wrWords s (ringSlot s a size) rec) (a + 8) (tail + 1)

/-- A write on its way is performed at its home. -/
def performPost (s : State) (p : Posted) : State :=
  match p.what with
  | .bytes bs => wrBytes s hwKey p.at_ bs
  | .word keep set add => wrWord s p.at_ ((rdWord s p.at_ &&& keep ||| set) + add)
  | .credit n path => wrWords s p.at_ (packEntry (creditEntry (unpackEntry (rdWord s p.at_) (rdWord s (p.at_ + 8))) n path))
  | .abort size rec => ringRecord s p.at_ size rec

/-- An uncorrectable error stands in what a write of the hardware first reads on the OS's behalf (R454). -/
def postBad (s : State) (p : Posted) : Bool :=
  match p.what with
  | .bytes _ => false
  | .abort size _ => poisoned s p.at_ 64 || poisoned s (ringSlot s p.at_ size) 32
  | w => poisoned s p.at_ w.size

/-- A write on its way may be performed. -/
def postReady (s : State) (p : Posted) : Bool :=
  !postBad s p &&
  match p.what with
  | .abort size _ => postClear s p.die p.at_ 64 && postClear s p.die (ringSlot s p.at_ size) 32
  | w => postClear s p.die p.at_ w.size

/-- A write of the hardware: performed at once where nothing holds it, else on its way; with the error record where it needs bytes
with an uncorrectable error (R454), in the partition that the line's granule names. -/
def post (s : State) (die a : Nat) (what : PostKind) : State :=
  let p : Posted := { die := die, at_ := a, what := what }
  if postReady s p then performPost s p
  else
    let s := if postBad s p then eccRecord s (bits (granule s a) 19 17) a else s
    { s with posted := s.posted ++ [p] }

/-- Bytes written by hardware. -/
def postBytes (s : State) (die a : Nat) (bs : List Byte) : State := post s die a (.bytes bs)

/-- Doublewords written by hardware. -/
def postWords (s : State) (die a : Nat) (l : List Word) : State := postBytes s die a (l.flatMap fun v => toBytes 8 v.toNat)

/-- Bits of a doubleword replaced by hardware: `keep` stays, `set` comes. -/
def postBits (s : State) (die a : Nat) (keep set : Word) : State := post s die a (.word keep set 0)

/-- A number added to a doubleword by hardware. -/
def postAdd (s : State) (die a : Nat) (n : Word) : State := post s die a (.word 0xFFFF_FFFF_FFFF_FFFF 0 n)

/-- The writes on their way, oldest first: each lands where nothing holds it any more, the rest stay. -/
def landPosted (s : State) : State :=
  s.posted.foldl (fun s p => post s p.die p.at_ p.what) { s with posted := [] }

end Sys2Proof.Machine
end

