-- ==== Sys2Proof/Machine/Operands.lean ====
section
/-! DEFINITION. Registers, latches and operand fields (R16, R85, R86, R92, R122). -/

namespace Sys2Proof.Machine

/-- Register n of the D map: x0-x31 at 0-31, x0 reading zero; f0-f31 at 32-63 (R85). -/
def getReg (t : Thread) (n : Nat) : Word :=
  if n = 0 then 0 else if n < 32 then mget 0 t.x n else mget 0 t.f (n - 32)

/-- Writes a register of the D map; a write to x0 is discarded. -/
def setReg (t : Thread) (n : Nat) (v : Word) : Thread :=
  if n = 0 then t else if n < 32 then { t with x := mset 0 t.x n v } else { t with f := mset 0 t.f (n - 32) v }

/-- x register n. -/
def getX (t : Thread) (n : BitVec 5) : Word := getReg t n.toNat

/-- Writes x register n. -/
def setX (t : Thread) (n : BitVec 5) (v : Word) : Thread := setReg t n.toNat v

/-- f register n, its 64 raw bits. -/
def getF (t : Thread) (n : BitVec 5) : Word := getReg t (32 + n.toNat)

/-- Writes f register n. -/
def setF (t : Thread) (n : BitVec 5) (v : Word) : Thread := setReg t (32 + n.toNat) v

/-- Latch l n. -/
def getLatch (t : Thread) (n : Nat) : Word :=
  match n with | 0 => t.chain.l0 | 1 => t.chain.l1 | 2 => t.chain.l2 | _ => t.chain.l3

/-- A chain with latch l n written. -/
def putLatch (c : Chain) (n : Nat) (v : Word) : Chain :=
  match n with
  | 0 => { c with l0 := v, lv := c.lv ||| 1 }
  | 1 => { c with l1 := v, lv := c.lv ||| 2 }
  | 2 => { c with l2 := v, lv := c.lv ||| 4 }
  | _ => { c with l3 := v, lv := c.lv ||| 8 }

/-- The value of a full-form source field: a latch when bit 6 is set, else a register (R85). -/
def src (t : Thread) (f : BitVec 7) : Word :=
  if f.getLsbD 6 then getLatch t (f.toNat % 4) else getReg t (f.toNat % 64)

/-- The chain after one more word: its position grows while H is 1, and it ends at H = 0, when no latch counts as
written any more (R92, R94). The word leaves the decoded ones. -/
def chainNext (c : Chain) (h : Bool) : Chain :=
  if h then { c with pos := c.pos + 1, live := true, words := c.words.drop 1 }
  else { c with lv := 0, pos := 0, live := false, words := [] }

/-- A chain left at the place where it stands: its position is over, and its decoded words are gone. -/
def chainLeft (c : Chain) : Chain :=
  { c with lv := 0, pos := 0, live := false, coll := false, fp := none, fpDests := [], words := [] }

/-- The end of a full-form word with scalar result v: D takes it unless W is 1, the latch target takes it, the chain
moves on and the pc passes the word (R86, R92). -/
def endWord (w : Wide) (v : Word) (t : Thread) : Thread :=
  let t := if w.w then t else setReg t w.d.toNat v
  { t with chain := chainNext (putLatch t.chain w.lt.toNat v) w.h, pc := t.pc + 8 }

/-- A register pair of `casx.q`: the pair of x0 supplies zero in both halves (R334). -/
def pairVal (t : Thread) (f : BitVec 7) : Nat :=
  let n := f.toNat % 64
  if n = 0 then 0 else (getReg t n).toNat + 2 ^ 64 * (getReg t (n + 1)).toNat

/-- The end of a full-form word whose D is no register or which has no scalar result: zero to the latch target (R86). -/
def endWord0 (w : Wide) (t : Thread) : Thread :=
  { t with chain := chainNext (putLatch t.chain w.lt.toNat 0) w.h, pc := t.pc + 8 }

/-- The value of a pair slot's S: a latch or a register of the slot's file (R87). -/
def pairSrc (t : Thread) (p : PairSlot) : Word :=
  if p.s.getLsbD 5 then getLatch t (p.s.toNat % 4)
  else getReg t ((if pairFloat p.op then 32 else 0) + p.s.toNat % 32)

/-- The register number of a pair slot's D, in the D map. -/
def pairDest (p : PairSlot) : Nat := (if pairFloat p.op then 32 else 0) + p.d.toNat

/-- The register destinations of a full-form word, in the D map (R85, R113). -/
def wideDests (maj : BitVec 8) (w : Wide) : List Nat :=
  match major? maj with
  | some m =>
    if (m.d = .reg || m.d = .xreg) && !w.w then
      (if maj = 0x95 && w.fn = 1 then [w.d.toNat, w.d.toNat + 1] else [w.d.toNat])
    else []
  | none => []

/-- The register destinations of an instruction, in the D map (R113, R154). -/
def dests (i : Instr) : List Nat :=
  match wideOf? i with
  | some (maj, w) => wideDests maj w
  | none =>
    match i with
    | .pairWord _ p0 p1 => [p0, p1].filterMap fun p => if p.op = .nop2 then none else some (pairDest p)
    | .standardInstruction s =>
      match s with
      | .lui rd _ | .auipc rd _ | .jal rd _ | .jalr rd _ _ | .alui _ rd _ _ | .alu _ rd _ _
      | .csr _ _ rd _ _ | .lr _ _ _ rd _ | .sc _ _ _ rd _ _ | .amo _ _ _ _ rd _ _ => [rd.toNat]
      | .load op rd _ _ => [if op = .flw || op = .fld then 32 + rd.toNat else rd.toNat]
      | .fp2 op _ _ rd _ _ => [if op = .feq || op = .flt || op = .fle then rd.toNat else 32 + rd.toNat]
      | .fp3 _ _ _ rd _ _ _ => [32 + rd.toNat]
      | .fp1 op _ _ rd _ =>
        [match op with | .fclass | .cvtToInt _ _ | .mvToInt => rd.toNat | _ => 32 + rd.toNat]
      | _ => []
    | _ => []

/-- The registers, in the D map, that an instruction reads (R434): a full-form word's sources, a pair's, a standard
instruction's. -/
def sources (i : Instr) : List Nat :=
  let reg := fun (f : BitVec 7) => if f.getLsbD 6 then [] else [f.toNat]
  match wideOf? i with
  | some (maj, w) =>
    match major? maj with
    | some m =>
      let one := fun (k : OpKindField) (f : BitVec 7) => if k = .reg || k = .xreg then reg f else []
      let base := one m.s1 w.s1 ++ one m.s2 w.s2 ++ one m.s3 w.s3
      if maj = 0x1C then base ++ (span w.s1.toNat (w.imm11.toNat % 8 + 1))
      else if maj = 0x95 && w.fn = 1 then base ++ base.map (· + 1)
      else base
    | none => []
  | none =>
    match i with
    | .pairWord _ p0 p1 =>
      [p0, p1].flatMap fun p => pairDest p :: (if p.s.getLsbD 5 then [] else [(if pairFloat p.op then 32 else 0) + p.s.toNat])
    | .conditionalBranch _ a b _ => [a.toNat, b.toNat]
    | .cboClean a | .cboFlush a | .cboInval a | .cboZero a => [a.toNat]
    | .ecall => (List.range 8).map (10 + ·)
    | .standardInstruction s =>
      match s with
      | .jalr _ a _ | .load _ _ a _ | .alui _ _ a _ | .lr _ _ _ _ a => [a.toNat]
      | .csr _ ui _ a _ => if ui then [] else [a.toNat]
      | .store op a b _ => [a.toNat, if op = .fsw || op = .fsd then 32 + b.toNat else b.toNat]
      | .alu _ _ a b | .sc _ _ _ _ a b | .amo _ _ _ _ _ a b => [a.toNat, b.toNat]
      | .fp2 _ _ _ _ a b => [32 + a.toNat, 32 + b.toNat]
      | .fp3 _ _ _ _ a b c => [32 + a.toNat, 32 + b.toNat, 32 + c.toNat]
      | .fp1 op _ _ _ a => [match op with | .cvtFromInt _ _ | .mvFromInt => a.toNat | _ => 32 + a.toNat]
      | _ => []
    | _ => []

end Sys2Proof.Machine
end

