-- ==== Sys2Proof/Machine/Flags.lean ====
section
/-! DEFINITION. The numeric flags: `fcsr`.FFLAGS, the sticky bits and enables of `qflags` (R59, R63, R72, R73, R90). -/

namespace Sys2Proof.Machine

/-- The rounding mode of `fcsr`.FRM. -/
def frm (t : Thread) : Nat := bits t.fcsr 7 5

/-- FFLAGS. -/
def fflags (t : Thread) : Nat := bits t.fcsr 4 0

/-- Accumulates flags into FFLAGS. -/
def addFlags (t : Thread) (fl : Nat) : Thread := { t with fcsr := t.fcsr ||| w64 (fl % 32) }

/-- Sets sticky bits of `qflags`: bit 2 CSAT, bit 1 ISAT, bit 0 QSAT (R72). -/
def addSticky (t : Thread) (st : Nat) : Thread := { t with qflags := t.qflags ||| w64 (st % 8) }

/-- CSAT, ISAT and QSAT as sticky bits. -/
def CSAT : Nat := 4
@[inherit_doc CSAT] def ISAT : Nat := 2
@[inherit_doc CSAT] def QSAT : Nat := 1

/-- A raised flag has its FPEN bit set (R72, R73): the flags NX, UF, OF, DZ, NV stand in the order of FPEN. -/
def fpTraps (t : Thread) (fl : Nat) : Bool := bits t.qflags 12 8 &&& fl ≠ 0

/-- Unbox32 (R90). -/
def unbox32 (v : Word) : Nat := if v.toNat / 2 ^ 32 = 0xFFFF_FFFF then v.toNat % 2 ^ 32 else 0x7FC0_0000

/-- Box32 (R90). -/
def box32 (x : Nat) : Word := w64 (0xFFFF_FFFF * 2 ^ 32 + x % 2 ^ 32)

end Sys2Proof.Machine
end

