-- ==== Sys2Proof/Machine/Frame.lean ====
section
/-! DEFINITION. The thread frame (R122-R126, R129) and the memory operations that a thread holds (R125, R192, R435). -/

namespace Sys2Proof.Machine

/-- The code of a thread state (R120). -/
def TState.code : TState → Nat
  | .created => 0 | .latency => 1 | .migrating => 2 | .ready => 3 | .blocked => 4 | .parked => 5 | .halted => 6 | .exited => 7

/-- The thread state of a code (R120). -/
def tstateOf (n : Nat) : TState :=
  match n with
  | 0 => .created | 1 => .latency | 2 => .migrating | 3 => .ready | 4 => .blocked | 5 => .parked | 6 => .halted | _ => .exited

/-- `hstat` (R430). -/
def hstat (t : Thread) : Word :=
  w64 (t.held.length * 256 + b2n t.trap.flt * 8 + b2n t.trap.redo * 4 + b2n t.hchain.live * 2 + b2n t.trap.inh)

/-- The chain position a frame records (R124): the one held for `hret` in a handler, else the thread's own. -/
def frameChain (t : Thread) : Chain := if t.trap.inh && t.hchain.live then t.hchain else t.chain

/-- The chain word (R124): INCHAIN when words of the chain have completed and others remain. -/
def chainWord (c : Chain) : Word := if c.live && c.pos ≠ 0 then w64 (c.lv.toNat * 256 + 128 + c.pos % 8 * 16) else 0

/-- The status word (R123). -/
def statusWord (t : Thread) (st : TState) : Word :=
  let c := frameChain t
  w64 (t.held.length * 2 ^ 32 + b2n t.autoRet * 2 ^ 23 + b2n t.sigpend * 2 ^ 22 + b2n t.helper * 2 ^ 21 +
    b2n (t.team = 0) * 2 ^ 20 + b2n (c.live && c.pos ≠ 0) * 2 ^ 19 + t.cause % 256 * 256 + st.code)

/-- A replay entry's four doublewords (R125). -/
def entryWords (p : PendOp) : List Word := [p.pc ||| 1, p.bits, p.op1, p.op2]

/-- The 128 doublewords of a frame (R122-R126). `tprio` of a team member is its own stored class, which the CSR does not show while the
descriptor gives it (R144); the spec does not say which of the two the slot holds (log 36). -/
def frameWords (t : Thread) (st : TState) (satp place : Word) : List Word :=
  let c := frameChain t
  [statusWord t st, t.pc] ++ (List.range 31).map (fun i => getReg t (i + 1)) ++ (List.range 32).map (fun i => getReg t (32 + i)) ++
  [t.fcsr, t.lfsr, c.l0, c.l1, c.l2, c.l3, chainWord c] ++
  [t.trap.hvec, t.trap.hepc, t.trap.hcause, t.trap.hdec0, t.trap.hdec1, t.trap.hdec2, t.trap.hdec3, hstat t,
   t.qflags, t.tprio, w64 t.tid, w64 t.team, w64 t.tidx, w64 t.gangw, t.reth, satp, place, 0, 0, 0, 0, 0, 0, 0] ++
  (List.range 8).flatMap fun e => match t.held[e]? with | some p => entryWords p | none => [0, 0, 0, 0]

/-- Writes the frame of a thread in full (R129); LASTPLACE is its place. The thread's die writes it. -/
def writeFrame (s : State) (k : Nat) (t : Thread) (st : TState) : State :=
  let pl := place k
  postWords s (agentDie k) t.frame (frameWords { t with lastPlace := pl } st (satpOf s k) pl)

/-- The operation of `amos` (R106, R329). -/
def amosOp (n : Nat) : AmoOp :=
  match n with
  | 0 => .add | 1 => .and | 2 => .or | 3 => .xor | 4 => .min | 5 => .max | 6 => .minu | 7 => .maxu | _ => .swap

/-- The access of an `amos` (R333). -/
def amosKind (w : Wide) : OpKind := .amo (amosOp (w.fn.toNat % 16)) (if w.fn.getLsbD 4 then 8 else 4)

/-- The value of a `casx` operand: a register pair where FN is 1 (R334). -/
def casVal (t : Thread) (w : Wide) (f : BitVec 7) : Nat := if w.fn = 1 then pairVal t f else (src t f).toNat

/-- The access of a `casx` as its thread's registers stand (R334). -/
def casxKind (t : Thread) (w : Wide) : OpKind :=
  .casx (if w.fn = 1 then 16 else 8) (if w.fn = 1 && !w.w && w.d ≠ 0 then w.d.toNat + 1 else 0) (casVal t w w.s2) (casVal t w w.s3)

/-- The kind of operation that a captured instruction's bits stand for, and its destination (R125, R439). A `bwait`
is the wait left of a `barw`, with its token as the first operand (R232). A `qpush`'s record write cannot be made again
from the bits alone (R209). A `casx` finds what an entry has no room for in the thread's registers (log 36). -/
def captured (t : Thread) (v op1 : Word) : Option (OpKind × Nat) :=
  match decode v with
  | .ok (.standardInstruction (.load op rd _ _), _) =>
    match op with
    | .lb => some (.load 1 true false, rd.toNat) | .lh => some (.load 2 true false, rd.toNat)
    | .lw => some (.load 4 true false, rd.toNat) | .ld => some (.load 8 false false, rd.toNat)
    | .lbu => some (.load 1 false false, rd.toNat) | .lhu => some (.load 2 false false, rd.toNat)
    | .lwu => some (.load 4 false false, rd.toNat)
    | .flw => some (.load 4 false true, 32 + rd.toNat) | .fld => some (.load 8 false false, 32 + rd.toNat)
  | .ok (.standardInstruction (.store op _ _ _), _) =>
    match op with
    | .sb => some (.store 1, 0) | .sh => some (.store 2, 0) | .sw => some (.store 4, 0) | .sd => some (.store 8, 0)
    | .fsw => some (.store 4, 0) | .fsd => some (.store 8, 0)
  | .ok (.standardInstruction (.amo op d _ _ rd _ _), _) => some (.amo op (if d then 8 else 4), rd.toNat)
  | .ok (.standardInstruction (.lr d _ _ rd _), _) => some (.lr (if d then 8 else 4), rd.toNat)
  | .ok (.standardInstruction (.sc d _ _ rd _ _), _) => some (.sc (if d then 8 else 4), rd.toNat)
  | .ok (.cboClean _, _) => some (.cbo 0, 0)
  | .ok (.cboFlush _, _) => some (.cbo 1, 0)
  | .ok (.cboInval _, _) => some (.cbo 2, 0)
  | .ok (.cboZero _, _) => some (.cbo 3, 0)
  | .ok (.ldacq w, _) => some (.load (2 ^ (w.fn.toNat % 4)) true false, if w.w then 0 else w.d.toNat)
  | .ok (.amos w, _) => some (amosKind w, if w.w then 0 else w.d.toNat)
  | .ok (.casx w, _) => some (casxKind t w, if w.w then 0 else w.d.toNat)
  | .ok (.bwait w, _) => some (.bwait (w.imm11.toNat % 64) (op1.toNat % 65536), if w.w then 0 else w.d.toNat)
  | .ok (.qpush _, _) => some (.ringWrite [], 0)
  | .ok (.standardInstruction (.csr op ui rd rs1 n), _) => some (.csr n.toNat op ui rs1.toNat, rd.toNat)
  | _ => none

/-- A replay entry of a thread read from its four doublewords; none where VALID is 0 or the bits name no such operation. One that
was held before with the same four doublewords is the same operation. -/
def entryOf (t : Thread) (l : List Word) : Option PendOp :=
  if bit (dw l 0) 0 then
    match t.held.find? fun p => entryWords p = l.take 4 with
    | some p => some { p with sent := false }
    | none =>
      (captured t (dw l 1) (dw l 2)).map fun (kind, rd) =>
        { pc := setBit (dw l 0) 0 false, bits := dw l 1, op1 := dw l 2, op2 := dw l 3, kind := kind, rd := rd, sent := false, value := 0 }
  else none

/-- The entries from 0 up to the first with VALID = 0 (R449). -/
def entriesOf (t : Thread) (l : List Word) : List PendOp :=
  ((List.range 8).map fun e => entryOf t (l.drop (96 + 4 * e))).takeWhile Option.isSome |>.filterMap id

/-- The state that hardware takes back from a frame's doublewords (R122-R126, R430): registers, pc, `fcsr`, `lfsr`,
latches, chain word, the user CSRs and the replay queue. `hfva`, `hrace` and `hlace` read zero after a load. -/
def loadFrameWords (l : List Word) (t : Thread) : Thread :=
  let st := dw l 0
  let hs := dw l 79
  let cw := dw l 71
  let inh := bit hs 0
  let c : Chain :=
    if bit cw 7 then
      { l0 := dw l 67, l1 := dw l 68, l2 := dw l 69, l3 := dw l 70, lv := BitVec.ofNat 4 (bits cw 11 8), pos := bits cw 6 4, live := true }
    else { l0 := dw l 67, l1 := dw l 68, l2 := dw l 69, l3 := dw l 70 }
  let toH := inh && bit hs 1
  let t :=
    { t with
      x := (List.range 31).foldl (fun m i => mset 0 m (i + 1) (dw l (2 + i))) []
      f := (List.range 32).foldl (fun m i => mset 0 m i (dw l (33 + i))) []
      chain := c }
  { t with
    pc := setBit (dw l 1) 0 false
    fcsr := w64 (bits (dw l 65) 7 0)
    lfsr := w64 (bits (dw l 66) 31 0)
    qflags := dw l 80 &&& 0x1F17
    tprio := w64 (bits (dw l 81) 1 0)
    chain := if toH then {} else c
    hchain := if toH then c else {}
    trap := { hvec := setBit (dw l 72) 0 false, hepc := setBit (dw l 73) 0 false, hcause := w64 (bits (dw l 74) 7 0)
              hdec0 := dw l 75, hdec1 := w64 (bits (dw l 76) 14 0), hdec2 := dw l 77, hdec3 := dw l 78
              flt := bit hs 3, redo := bit hs 2, inh := inh }
    held := entriesOf t l
    ops := []
    autoRet := bit st 23
    sigpend := bit st 22
    reth := dw l 86 }

/-- The doublewords of the frame at an address. -/
def readFrame (s : State) (a : Nat) : List Word := rdWords s a 128

/-- What `treplay` and a debugger's reload take back from a thread's frame (R449, R463): the state of the thread, and not its
identity, status bits or RETH. -/
def takeBack (l : List Word) (t : Thread) : Thread :=
  { loadFrameWords l t with
    st := t.st, team := t.team, tidx := t.tidx, autoRet := t.autoRet, sigpend := t.sigpend, reth := t.reth }

/-- Writes an operation's result to its destination (R435): a load's value, an AMO's old value, an SC's outcome. -/
def writeResult (t : Thread) (p : PendOp) : Thread :=
  match p.kind with
  | .load _ _ _ | .amo _ _ | .lr _ | .sc _ | .casx _ _ _ _ | .bwait _ _ | .csr _ _ _ _ => setReg t p.rd p.value
  | _ => t

/-- The treatment of issued operations when a cause is taken or the thread stops (R192, R435, R438): what was sent finishes and
writes its result, the rest is captured in issue order. What was issued in the user handler is marked. -/
def capture (t : Thread) : Thread :=
  let t := (t.ops.filter (·.sent)).foldl writeResult t
  { t with held := t.held ++ (t.ops.filter (!·.sent)).map (fun p => { p with own := t.trap.inh }), ops := [] }

/-- The replay queue has room for what a stop would withdraw (R192): an operation of a handler that would be its ninth entry finishes
first (log 36). -/
def canCapture (t : Thread) : Bool := t.held.length + (t.ops.filter (!·.sent)).length ≤ 8

/-- A thread that goes on issues its held entries again in entry order (R200, R450); in its handler those that the handler issued,
while the others stay held for `hret` (R438). -/
def reissue (t : Thread) : Thread :=
  let go := fun (p : PendOp) => p.own || !t.trap.inh
  { t with ops := t.ops ++ (t.held.filter go).map (fun p => { p with own := false, sent := false }), held := t.held.filter (!go ·) }

end Sys2Proof.Machine
end

