-- ==== Sys2Proof/Machine/Ops.lean ====
section
/-! DEFINITION. Taking an exception and returning from one, on every core type; parking, postings, and leaving a slot
(R97, R121, R134-R138, R151, R154, R423-R425, R430-R440, R443, R446-R448). -/

namespace Sys2Proof.Machine

/-! Latency harts: the standard trap of the RISC-V privileged specification with the codes of R443 (log 12). -/

/-- The address a trap goes to: BASE, or BASE + 4 × cause for an interrupt in vectored mode. -/
def vectorPc (tvec : Word) (irq : Bool) (code : Nat) : Word :=
  let base := tvec &&& 0xFFFF_FFFF_FFFF_FFFC
  if irq && bits tvec 1 0 = 1 then base + w64 (4 * code) else base

/-- The code of a mode in MPP. -/
def Mode.code : Mode → Nat | .user => 0 | .supervisor => 1 | .machine => 3

/-- The mode of a code in MPP. -/
def modeOf (n : Nat) : Mode := match n with | 0 => .user | 1 => .supervisor | _ => .machine

/-- The value of a cause register. -/
def causeWord (irq : Bool) (code : Nat) : Word := w64 (b2n irq * 2 ^ 63 + code)

/-- A trap of a hart into S mode, or into M mode: exception or interrupt `code` with trap value `tval` and return address `epc`. The
chain in progress ends. -/
def hartTrapTo (s : State) (k : Nat) (toS irq : Bool) (code : Nat) (tval epc : Word) : State :=
  let h := { hart s k with shut := false }
  let st := h.mstatus
  let h' : Hart :=
    if toS then
      { h with
        scause := causeWord irq code, sepc := epc, stval := tval, mode := .supervisor
        mstatus := setBit (setBit (setBit st 8 (h.mode = .supervisor)) 5 (bit st 1)) 1 false }
    else
      { h with
        mcause := causeWord irq code, mepc := epc, mtval := tval, mode := .machine
        mstatus := setBit (setBit (setBits st 12 11 h.mode.code) 7 (bit st 3)) 3 false }
  let pc := vectorPc (if toS then h.stvec else h.mtvec) irq code
  let s := { s with cur := { s.cur with trapped := true } }
  modThr (modHart s k fun _ => h') k fun t => { t with pc := pc, chain := {}, wait := .none }

/-- A trap of a hart is taken in S mode when it arises in S or U mode and its delegation bit is 1, else in M mode (R443). -/
def hartTrap (s : State) (k : Nat) (irq : Bool) (code : Nat) (tval epc : Word) : State :=
  let h := hart s k
  hartTrapTo s k (h.mode ≠ .machine && bit (if irq then h.mideleg else h.medeleg) code) irq code tval epc

/-- MRET: the mode of MPP, MIE from MPIE, MPIE 1, MPP user, MPRV cleared below M mode, and the pc at `mepc`. -/
def doMret (s : State) (k : Nat) : State :=
  let h := hart s k
  let m := modeOf (bits h.mstatus 12 11)
  let st := setBits (setBit (setBit h.mstatus 3 (bit h.mstatus 7)) 7 true) 12 11 0
  let st := if m = .machine then st else setBit st 17 false
  modThr (modHart s k fun h => { h with mode := m, mstatus := st }) k fun t => { t with pc := h.mepc }

/-- SRET: the mode of SPP, SIE from SPIE, SPIE 1, SPP user, MPRV cleared, and the pc at `sepc`. -/
def doSret (s : State) (k : Nat) : State :=
  let h := hart s k
  let m : Mode := if bit h.mstatus 8 then .supervisor else .user
  let st := setBit (setBit (setBit (setBit h.mstatus 1 (bit h.mstatus 5)) 5 true) 8 false) 17 false
  modThr (modHart s k fun h => { h with mode := m, mstatus := st }) k fun t => { t with pc := h.sepc }

/-- The standard exception code of a cause on a latency hart (R98, R112, R367, R443); a race, for which R443 names no
code, is an access fault (log 13). -/
def hartCode (code : Nat) (a : Acc) : Nat :=
  match code, a with
  | 0x02, _ => 24
  | 0x08, .store => 6
  | 0x08, _ => 4
  | 0x09, .fetch => 12
  | 0x09, _ => 13
  | 0x0A, _ => 15
  | 0x0B, .fetch => 1
  | 0x0B, .load => 5
  | 0x0B, .store => 7
  | 0x0D, .load => 5
  | 0x0D, _ => 7
  | 0x12, _ => 3
  | 0x15, _ => 27
  | 0x16, _ => 28
  | 0x0E, _ => 29
  | _, _ => 2

/-! Postings. -/

/-- A frame joins the postings for the partition's return queue (R137, R138). -/
def postReturn (s : State) (p fr reason : Nat) : State :=
  modPart s p fun q => { q with retPend := q.retPend ++ [(fr, reason)] }

/-- A fault record joins the postings for the partition's fault queue (R446, R448). -/
def postFault (s : State) (p : Nat) (rec : List Word) : State :=
  modPart s p fun q => { q with fqPend := q.fqPend ++ [rec] }

/-- The eight doublewords of a fault record (R446). -/
def faultRecord (kind : Nat) (exited nested fwd flt : Bool) (cause team tid : Nat) (pc addr place detail : Word)
    (asid pseq : Nat) (insn : Word) : List Word :=
  [w64 (kind * 2 ^ 60 + b2n exited * 2 ^ 59 + b2n nested * 2 ^ 58 + b2n fwd * 2 ^ 57 + b2n flt * 2 ^ 56 +
      cause % 256 * 2 ^ 48 + team % 4096 * 2 ^ 32 + tid % 2 ^ 32),
   pc, addr, place, detail, w64 (asid * 2 ^ 32 + pseq % 2 ^ 32), insn, 1]

/-! Leaving a slot. -/

/-- Changes the member record of a team index (R198). -/
def modMember (s : State) (p asid num idx : Nat) (f : Member → Member) : State :=
  modTeam s p asid num fun t => { t with members := mset {} t.members idx (f (mget {} t.members idx)) }

/-- A late store fault of a thread that is on no core (R453). -/
def addLate0E (s : State) (p tid : Nat) (x : Word × Word) : State :=
  modPart s p fun q => { q with late0E := (q.late0E.filter fun y => y.1 ≠ tid) ++ [(tid, x)] }

/-- A cobbler notice of a thread that is on no core (R425). -/
def addLate16 (s : State) (p tid : Nat) (x : Word) : State :=
  modPart s p fun q => { q with late16 := (q.late16.filter fun y => y.1 ≠ tid) ++ [(tid, x)] }

/-- What is pending for a thread of partition p goes with it as it leaves its core (R432): it is taken after the next load. -/
def stowLate (s : State) (p : Nat) (t : Thread) : State :=
  let s := match t.pend0E with | some x => addLate0E s p t.tid x | none => s
  match t.pend16 with | some x => addLate16 s p t.tid x | none => s

/-- The thread of a key finds again what was pending for it. -/
def takeLate (s : State) (k : Nat) : State :=
  let p := partOf s k
  let tid := (thr s k).tid
  let e := ((part s p).late0E.find? fun x => x.1 = tid).map (·.2)
  let n := ((part s p).late16.find? fun x => x.1 = tid).map (·.2)
  if e = none && n = none then s
  else
    let s := modPart s p fun q => { q with late0E := q.late0E.filter fun x => x.1 ≠ tid, late16 := q.late16.filter fun x => x.1 ≠ tid }
    modThr s k fun t => { t with pend0E := e.or t.pend0E, pend16 := n.or t.pend16 }

/-- The thread of a slot leaves it: a task thread's slot stays held (R212), and a member counts as away (R156). -/
def leaveSlot (s : State) (k : Nat) : State :=
  let t := thr s k
  let s := stowLate s t.part t
  let s := if t.task then { s with held := s.held ++ [(t.part, t.tid, k)] } else s
  let s := if t.team = 0 then s else
    modMember s t.part (asidOf t.satp) t.team t.tidx fun m => { m with loc := .away, frame := t.frame }
  dropThr s k

/-- A thread's migration to the latency side by a signal or an unserved `ecall` (R148, R151): what it issued is captured,
the frame is written with RETH, and it joins the return queue's postings. -/
def migrateOut (s : State) (k : Nat) (reason : Nat) : State :=
  let t := capture (thr s k)
  let reth : Word := if t.team = 0 then w64 (2 ^ 62 + dieOf k) else w64 t.team
  let t := { t with
    st := .migrating, wait := .none, reth := reth, sigpend := t.sigpend && reason ≠ 1
    cause := if reason = 1 then 0x17 else 0x13 }
  let s := setThr s k t
  let s := writeFrame s k t .migrating
  postReturn (leaveSlot s k) t.part t.frame reason

/-! SIMT threads. -/

/-- What a cause carries (R431, R437, R446): the raising instruction's bits and address, the address of a memory cause,
whether replay entry 0 is the faulting operation, the detail of cause 0x01, and the values of `hrace` and `hlace`. -/
structure Trap where
  code  : Nat
  insn  : Word
  addr  : Word
  va    : Word := 0
  flt   : Bool := false
  priv  : Bool := false
  dec   : Option (Word × Word) := none      -- hdec1, hdec3
  hrace : Option Word := none
  hlace : Option Word := none
  fwd   : Bool := false
  kind  : Nat := 1                          -- KIND of the record when parked (R447)
  deriving DecidableEq, Repr

/-- Routing U (R431). -/
def routesUser (code : Nat) : Bool := code ∉ [0x02, 0x09, 0x0A, 0x0E, 0x13, 0x17]

/-- The CSRs that a cause writes wherever it is delivered (R111, R345, R396). -/
def trapDetail (tr : Trap) (t : Thread) : Thread :=
  let p := t.trap
  let p := match tr.dec with | some (d1, d3) => { p with hdec0 := tr.insn, hdec1 := d1, hdec2 := tr.addr, hdec3 := d3 } | none => p
  let p := match tr.hrace with | some v => { p with hrace := v } | none => p
  let p := match tr.hlace with | some v => { p with hlace := v } | none => p
  { t with trap := p }

/-- EnterHandler (R437). The resume point is the thread's pc. -/
def enterHandler (tr : Trap) (t : Thread) : Thread :=
  let t := capture (trapDetail tr t)
  let c := t.chain
  { t with
    trap := { t.trap with
      hcause := w64 tr.code, hepc := t.pc, hdec0 := tr.insn, hdec2 := tr.addr, hfva := tr.va
      flt := tr.flt, redo := false, inh := true }
    hchain := if c.live && c.pos ≠ 0 then { c with coll := false, fp := none, words := [] } else {}
    chain := chainLeft c
    cause := tr.code
    st := .ready
    wait := .none
    pc := t.trap.hvec }

/-- Park (R433): the frame is written with the cause, and a record of kind 1, or of kind 5 for an
imprecise store fault, is posted (R446, R453). -/
def parkThread (s : State) (k : Nat) (tr : Trap) : State :=
  let t := capture (trapDetail tr (thr s k))
  let nested := t.trap.inh
  let t := { t with
    st := .parked, wait := .none, cause := tr.code, park := t.park + 1, chain := { t.chain with coll := false, fp := none, words := [] }
    trap := { t.trap with flt := if nested then t.trap.flt else tr.flt, redo := if nested then t.trap.redo else false } }
  let s := setThr s k t
  let s := writeFrame s k t .parked
  postFault s t.part (faultRecord tr.kind false nested tr.fwd (if nested then false else tr.flt) tr.code t.team t.tid tr.addr tr.va
    (place k) (w64 t.frame) (asidOf t.satp) t.park tr.insn)

/-- Registers that receive zero. -/
def zeroRegs (ds : List Nat) (t : Thread) : Thread := ds.foldl (fun t d => setReg t d 0) t

/-- A helper takes no trap: its register destinations receive zero and it continues (R113, R154). -/
def skipHelper (ds : List Nat) (next : Word) (t : Thread) : Thread :=
  { zeroRegs ds t with pc := next, chain := chainLeft t.chain, wait := .none }

/-- Deliver (R433), for a thread on a SIMT core that is no helper: the user handler, or the OS. -/
def deliver (s : State) (k : Nat) (tr : Trap) : State :=
  let t := thr s k
  if routesUser tr.code && !tr.priv && t.trap.hvec ≠ 0 && !t.trap.inh then setThr s k { enterHandler tr t with age := s.cycle }
  else parkThread s k tr

/-! Operations of teams, and room. -/

/-- An asynchronous operation of a team has come to its end (R182, R188): a HELD entry goes with its last one. -/
def opEnded (s : State) (p asid num serial : Nat) : State :=
  let hit := fun (t : Team) => t.part = p && t.asid = asid && t.num = num && t.serial = serial
  let s := { s with teams := s.teams.map fun t => if hit t then { t with ops := t.ops - 1 } else t }
  { s with teams := s.teams.filter fun t => !(t.st = .held && t.ops = 0) }

/-- An asynchronous operation of a team begins. -/
def opBegan (s : State) (p asid num : Nat) : State := modTeam s p asid num fun t => { t with ops := t.ops + 1 }

/-- A SIMT core, 64 * die + core, has a free entry for passes (R266). -/
def passRoomAt (s : State) (c : Nat) : Bool := ((engine s (c / 4)).queue.filter fun p => p.core = c % 64).length < 16

/-- Row operations of an issuer's core or hart that have not retired (R377). -/
def rowsHeld (s : State) (k : Nat) : Nat :=
  (s.rowOps.filter fun r => if isSimt k then isSimt r.key && coreOf r.key = coreOf k else r.key = k).length

/-- Laced operations of a core or hart that are not yet stamped (R399). -/
def lacedHeld (s : State) (k : Nat) : Nat :=
  (s.laced.filter fun o => if isSimt k then isSimt o.key && coreOf o.key = coreOf k else o.key = k).length

/-- The table that an issuer's operation goes to has a free entry (R266, R320, R377, R399, R426). -/
def roomIn (s : State) (k : Nat) : Room → Bool
  | .passes => passRoomAt s (coreOf k)
  | .copies => (s.copies.filter fun x => 64 * x.die + x.core = coreOf k).length < 16
  | .rows => rowsHeld s k < if isSimt k then 16 else 4
  | .laced => lacedHeld s k < 32
  | .events x => (slice s x).queue.length < 64

/-- Every thread that waits for room, and finds it, runs its instruction again. -/
def wakeRoom (s : State) : State :=
  { s with threads := s.threads.map fun (k, t) =>
      match t.wait with
      | .room r => if t.st = .blocked && roomIn s k r then (k, { t with st := .ready, wait := .none, age := s.cycle }) else (k, t)
      | _ => (k, t) }

/-! Cobbler cores. -/

/-- The slot's binding, when it is bound. -/
def binding? (sl : Slice) (set : Nat) : Option CobBind := (sl.sets.find? fun x => x.1 = set).map (·.2)

/-- The slots' bindings with one replaced or removed. -/
def setBinding (l : List (Nat × CobBind)) (set : Nat) (b : Option CobBind) : List (Nat × CobBind) :=
  let l := l.filter fun x => x.1 ≠ set
  match b with | some b => l ++ [(set, b)] | none => l

/-- The bytes of a handler's region are set from an image, the rest to zero (R414). -/
def loadRegion (m : SMap Byte) (b : CobBind) (image : List Byte) : SMap Byte :=
  (List.range (b.slen * 1024)).foldl (fun m i => mset 0 m (b.soff * 1024 + i) (image.getD i 0)) m

/-- A slot takes a new binding, or none, with no invocation of it running: queued events of the slot are removed and the
region is zeroed or holds the new image (R412, R414). -/
def rebind (sl : Slice) (set : Nat) (b : Option CobBind) : Slice :=
  let region := match binding? sl set with | some old => loadRegion sl.region old [] | none => sl.region
  { sl with
    sets := setBinding sl.sets set b
    queue := sl.queue.filter fun e => e.set ≠ set
    region := match b with | some nb => loadRegion region nb nb.image | none => region
    next := sl.next.filter fun x => x.1 ≠ set }

/-- The eviction of a line from its slice (R416, R423): it is written back when dirty, and dropped. -/
def evictHome (s : State) (line : Nat) : State :=
  settleLine { s with zeroTags := s.zeroTags.filter (· ≠ line) } line

/-- The line of a physical address belongs to a binding's window. -/
def CobBind.covers (b : CobBind) (pa : Nat) : Bool := b.pabase ≤ pa && pa < b.pabase + 2 ^ b.wsize

/-- The bindings of a slice that raise an event of a code for a line: bound slots that enable it, no draining one. -/
def raising (sl : Slice) (code pa : Nat) : List (Nat × CobBind) :=
  sl.sets.filter fun (i, b) => b.even.testBit code && b.covers pa && !(sl.next.any fun y => y.1 = i)

/-- An event joins the queue, or is dropped, takes its default action, and is counted (R417, R423). -/
def raiseEvent (s : State) (x : Nat) (b : CobBind) (e : CobEvent) : State :=
  if (slice s x).queue.length ≥ 64 then
    let s := postAdd s (x / 64) (b.fq + 0x18) 1
    if e.code = 2 then evictHome s (e.pa / 64) else s
  else modSlice s x fun sl => { sl with queue := sl.queue ++ [e] }

/-- A miss, fill or eviction event of a line at its home slice (R416). -/
def lineEvent (s : State) (code pa : Nat) (a2 : Word) : State :=
  let x := homeSlice s pa
  let line := pa / 64 * 64
  (raising (slice s x) code line).foldl (fun s (i, b) =>
    raiseEvent s x b { set := i, code := code, pa := line, a1 := w64 (b.vabase + (line - b.pabase)), a2 := a2, a3 := 0, a4 := 0 }) s

/-- Replacement chooses a line as victim (R416, R423): the events of its slice, or, where none is enabled, its eviction. -/
def victim (s : State) (pa : Nat) (dirty : Bool) : State :=
  if raising (slice s (homeSlice s pa)) 2 (pa / 64 * 64) = [] then evictHome s (pa / 64) else lineEvent s 2 pa (w64 (b2n dirty))

/-- Events have come to their end: the line of an eviction is written back and dropped (R416, R423), a team's messages count no more
(R182), and there may be room in a queue (R426). -/
def eventsGone (s : State) (l : List CobEvent) : State :=
  wakeRoom (l.foldl (fun s e =>
    let s := if e.code = 2 then evictHome s (e.pa / 64) else s
    if e.team = 0 then s else opEnded s e.part e.asid e.team e.serial) s)

/-- The handler SRAM of a slice as lines of `poison`: above every line of memory (R423, R454). -/
def sramAt (x off : Nat) : Nat := 2 ^ 60 + 65536 * x + off

/-- A slot of a slice takes a new binding, or none (R412); its region is written anew, without error. -/
def rebindAt (s : State) (x set : Nat) (b : Option CobBind) : State :=
  let gone := (slice s x).queue.filter fun e => e.set = set
  let regions := (binding? (slice s x) set).toList ++ b.toList
  let s := { s with poison := s.poison.filter fun l => !(regions.any fun o => overlaps (64 * l) 64 (sramAt x (o.soff * 1024)) (o.slen * 1024)) }
  eventsGone (modSlice s x fun sl => rebind sl set b) gone

/-- The end of an invocation (R412, R418): the core is free, its registers are not kept, and a slot that was draining
takes what it becomes. -/
def endInvocation (s : State) (x : Nat) : State :=
  match (slice s x).run with
  | none => s
  | some r =>
    let s := eventsGone (dropThr (modSlice s x fun sl => { sl with run := none }) (cobKey x)) [r.ev]
    match (slice s x).next.find? fun y => y.1 = r.ev.set with
    | some (_, nb) => rebindAt s x r.ev.set nb
    | none => s

/-- The fault ring's record of an abort (R424), which the slice's die writes. -/
def cobRecord (s : State) (x : Nat) (b : CobBind) (r : Invocation) (reason : Nat) (pc : Word) : State :=
  let w0 := w64 (reason * 2 ^ 56 + r.ev.code * 2 ^ 50 + x / 64 * 2 ^ 48 + r.ev.set * 2 ^ 44 + x % 64 * 2 ^ 38 + min r.cycles 0xFFFF)
  let words := [w0, r.ev.a1, pc, w64 (r.ev.a4.toNat % 2 ^ 32 * 2 ^ 32 + 1)]
  post s (x / 64) b.fq (.abort b.fqsize words)

/-- The member of a team of a partition whose thread the team's image keeps, by tid. -/
def keptTeam (s : State) (p tid : Nat) : Option Team :=
  s.teams.find? fun m => m.part = p && m.kept.any fun (_, t) => t.tid = tid && !t.helper

/-- Changes the kept thread of a tid in a team's image. -/
def modKept (s : State) (m : Team) (tid : Nat) (f : Thread → Thread) : State :=
  modTeam s m.part m.asid m.num fun m => { m with kept := m.kept.map fun (i, t) => (i, if t.tid = tid && !t.helper then f t else t) }

/-- The thread of a tid that has exited in a partition. -/
def ended? (s : State) (p tid : Nat) : Option Ended := (part s p).ended.find? fun e => e.tid = tid

/-- Threads exit: a store of theirs may still fail (R446). -/
def noteEnded (s : State) (p : Nat) (ts : List Thread) : State :=
  modPart s p fun q => { q with ended := ts.map (fun t => { tid := t.tid, team := t.team, asid := asidOf t.satp, park := t.park }) ++ q.ended }

/-- The slot or hart on which the thread of a tid stands; no hart that it has left (R135). -/
def liveKey (s : State) (p tid : Nat) : Option Nat :=
  (s.threads.find? fun (k, t) => !isCob k && !t.away && partOf s k = p && t.tid = tid && !t.helper && t.st ≠ .exited).map (·.1)

/-- The issuer of a `cmsg` is told of its handler's abort (R425): cause 0x16 at its next boundary on a SIMT core, code 28
on a hart, or after its next load; an issuer that has exited receives nothing. -/
def notifyIssuer (s : State) (p tid : Nat) (target : Word) : State :=
  match liveKey s p tid with
  | some k => modThr s k fun t => { t with pend16 := some target }
  | none =>
    match keptTeam s p tid with
    | some m => modKept s m tid fun t => { t with pend16 := some target }
    | none => if (ended? s p tid).isSome then s else addLate16 s p tid target

/-- An invocation aborts (R423): uncommitted updates are discarded, held lines released, the record written, and the
event takes its default action. -/
def cobAbort (s : State) (x : Nat) (reason : Nat) : State :=
  let sl := slice s x
  match sl.run with
  | none => s
  | some r =>
    let s := match binding? sl r.ev.set with
      | some b =>
        let s := cobRecord s x b r reason (thr s (cobKey x)).pc
        if b.notify && r.ev.code = 3 then notifyIssuer s b.part (r.ev.a4.toNat % 2 ^ 32) r.ev.a1 else s
      | none => s
    endInvocation s x

/-- The abort reason of a cause (R423). -/
def cobReason (code : Nat) : Nat :=
  match code with | 0x08 => 5 | 0x09 => 3 | 0x0A => 3 | 0x0B => 3 | _ => 4

/-! One operation for every core type. -/

/-- A helper meets a cause at one word (R154): the word's register destinations receive zero. It continues after the
word; where the word has completed before the cause (0x10, 0x11), the helper has passed it and goes on with its chain, and the
destinations of every word of the chain whose 0x11 was held receive zero with it (R173). -/
def helperTrap (tr : Trap) (now : Nat) (t : Thread) : Thread :=
  let (ds, n) := match decode tr.insn with | .ok (i, n) => (dests i, n) | .error _ => ([], 8)
  if tr.code = 0x10 || tr.code = 0x11 then
    let t := zeroRegs (ds ++ t.chain.fpDests) t
    { t with chain := { t.chain with fpDests := [] } }
  else { skipHelper ds (tr.addr + w64 n) t with age := now }

/-- A cause is taken by the issuer of the instruction in progress: on a hart as an exception, with `hrace` and `hlace` (R345, R396), on a
cobbler core as an abort, by a helper as R154 gives, and by any other SIMT thread as R433 gives. The thread's pc is the resume point. -/
def raiseTrap (s : State) (k : Nat) (tr : Trap) (a : Acc) : State :=
  if isHart k then
    let tval := match tr.code with
      | 0x01 | 0x02 | 0x03 | 0x04 => tr.insn
      | 0x12 => tr.addr
      | 0x15 => tr.hlace.getD 0
      | _ => tr.va
    let s := modThr s k fun t =>
      { t with trap := { t.trap with hrace := tr.hrace.getD t.trap.hrace, hlace := tr.hlace.getD t.trap.hlace } }
    hartTrap s k false (hartCode tr.code a) tval (thr s k).pc
  else if isCob k then cobAbort s (k - 0x20_0000) (cobReason tr.code)
  else if (thr s k).helper then modThr s k (helperTrap tr s.cycle)
  else deliver s k tr

/-- A cause at the instruction in progress, with the address of a memory cause. -/
def raise (s : State) (k : Nat) (code : Nat) (va : Word) (a : Acc) : State :=
  raiseTrap s k { code := code, insn := s.cur.bits, addr := s.cur.pc, va := va } a

/-- `hdec1` and `hdec3` of an illegal encoding found in the instruction in progress, with a REASON (R111): the words of its chain decoded
with it and before it, its place among them, and the address after the last. -/
def decodeDetail (s : State) (k reason : Nat) : Word × Word :=
  let lenc := if s.cur.len = 2 then 0 else if s.cur.len = 4 then 1 else 3
  let c := (thr s k).chain
  let pos := if c.live then c.pos else 0
  (w64 (lenc * 4096 + (pos + max 1 c.words.length) * 128 + pos * 16 + reason),
    match c.words.getLast? with | some w => w.addr + w64 w.len | none => s.cur.pc + w64 s.cur.len)

/-- An illegal encoding found when the instruction in progress executes (R108, R111, R112), with its REASON. -/
def raiseIllegal (s : State) (k : Nat) (r : Reason) : State :=
  raiseTrap s k
    { code := 0x01, insn := s.cur.bits, addr := s.cur.pc, priv := r = .priv, dec := some (decodeDetail s k r.code) } .load

/-- An access that is not performed: its cause is taken; a held access leaves everything as it is, and the instruction
runs again. -/
def raiseFlt (s : State) (k : Nat) (f : Flt) (a : Acc) : State :=
  match f with
  | .cause code va => raise s k code va a
  | .race va v => raiseTrap s k { code := 0x0D, insn := s.cur.bits, addr := s.cur.pc, va := va, hrace := some v } a
  | .hold => s

/-- The exception of a privileged instruction's caller that may not run it, or of a mode violation on a hart. -/
def hartIllegal (s : State) (k : Nat) : State := hartTrap s k false 2 s.cur.bits (thr s k).pc

/-- `hret` (R439): the held entries from the first on are re-injected in program order before the instruction at
`hepc`, the latches and the chain position are restored, and `hstat` is cleared. -/
def hretThread (t : Thread) : Thread :=
  let es := if t.trap.flt && !t.trap.redo then t.held.drop 1 else t.held
  let c := t.hchain
  { t with
    ops := t.ops ++ es.map fun e => { e with sent := false }
    held := []
    chain := if c.live then c else chainLeft t.chain
    hchain := {}
    trap := { t.trap with flt := false, redo := false, inh := false }
    pc := t.trap.hepc }

/-- The pc of the thread of a key passes the instruction in progress. -/
def advance (s : State) (k : Nat) : State := modThr s k fun t => { t with pc := t.pc + w64 s.cur.len }

/-- A record of the OS that an instruction of a key reads at n physical bytes is not read yet (R420, R454, R481): the state in which the
instruction is held, with the error record where it meets an uncorrectable error. None where it may be read, or lies outside the
partition. -/
def recordHeld (s : State) (k a n : Nat) : Option State :=
  if !inRanges s (partOf s k) a n then none
  else if poisoned s a n then some (eccRecord s (partOf s k) a)
  else if !postClear s (agentDie k) a n then some s
  else none

/-- The same on a hart that takes no interrupt until its instruction ends (R415, R449). -/
def recordShut (s : State) (k a n : Nat) : Option State :=
  (recordHeld s k a n).map fun s => modHart s k fun h => { h with shut := true }

/-- A meaning applied to the threads of the issue group in ascending lane order (R142, R343). -/
def forKeys (s : State) (f : State → Nat → State) : State := s.cur.keys.foldl f s

end Sys2Proof.Machine
end

