-- ==== Sys2Proof/Machine/Trace.lean ====
section
/-! DEFINITION. The trace stream of a SIMT core: packets, the on-core buffer, segments and sealed blocks (R44, R465-R469). -/

namespace Sys2Proof.Machine

/-- The key slot that seals a context's trace, when it is confidential (R41, R42, R44): the one of KEYSLOT where it is bound to the
context; with KEYSLOT ≠ 0 naming another, the records are emitted in the clear; with KEYSLOT = 0, the one bound to the context. -/
def keySlotOf (s : State) (p asid : Nat) : Option (Nat × KeySlot) :=
  let n := mget 0 (part s p).ctxkey asid
  (part s p).keys.find? fun (i, k) => k.loaded && k.asid = asid && (n = 0 || i = n)

/-- The context is traced (R465, R469). -/
def traced (s : State) (p asid : Nat) : Bool :=
  let v := (part s p).trctl
  bit v 63 && (if bit v 60 then bits v 47 32 = asid else (keySlotOf s p asid).isNone)

/-- The partition that owns a SIMT core. -/
def coreOwner (s : State) (c : Nat) : Option Nat := (List.range 8).find? fun p => (part s p).state ≠ 0 && ownsCore s p c

/-- 2^SEG (R465). -/
def segSize (s : State) (p : Nat) : Nat := 2 ^ max 12 (min 24 (bits (part s p).trctl 4 0))

/-- The address of a core's segment (R465). -/
def segBase (s : State) (p c : Nat) : Nat := bits (part s p).trbase 63 12 * 4096 + segSize s p * c

/-- `lost` packets of a core's stream count in the segment's DROPPED (R465). The core's die writes its segment. -/
def countDropped (s : State) (p c lost : Nat) : State :=
  if inRanges s p (segBase s p c) (segSize s p) then postAdd s (c / 64) (segBase s p c + 0x10) (w64 lost) else s

/-- The offset at which the next packet is written, as R465 takes WPTR. -/
def nextSlot (s : State) (p c : Nat) : Nat :=
  let w := (rdWord s (segBase s p c)).toNat
  if w < 0x40 then 0x40 else (w + 31) / 32 * 32

/-- The place of n bytes in the segment (R465): whether the segment wraps first, and the offset; none where it stops, or where it is too
small for them. -/
def segPlace (s : State) (p c n : Nat) : Option (Bool × Nat) :=
  let w := nextSlot s p c
  if w + n ≤ segSize s p then some (false, w)
  else if bit (part s p).trctl 62 && 0x40 + n ≤ segSize s p then some (true, 0x40) else none

/-- Writes doublewords to the segment at the place of R465, and its header, of which the bytes after DROPPED are zero; or counts `lost`
packets in DROPPED. A segment outside the partition's ranges is not written (R30). -/
def writeSegment (s : State) (p c : Nat) (dws : List Word) (lost : Nat) : State :=
  let a := segBase s p c
  let n := 8 * dws.length
  if !inRanges s p a (segSize s p) then s
  else match segPlace s p c n with
  | none => countDropped s p c lost
  | some (wraps, w) =>
    let header := [w64 (w + n), rdWord s (a + 8) + w64 (b2n wraps), rdWord s (a + 0x10), 0, 0, 0, 0, 0]
    wrWords (wrWords s (a + w) dws) a header

/-- The core may write its segment now: the header's line and the place of the next `n` bytes are free, and their route is open (R420,
R481); the header, which the hardware reads, holds no uncorrectable error (R454). -/
def segClear (s : State) (p c n : Nat) : Bool :=
  let a := segBase s p c
  !inRanges s p a (segSize s p) ||
  (!poisoned s a 64 && postClear s (c / 64) a 64 && match segPlace s p c n with | some (_, w) => postClear s (c / 64) (a + w) n | none => true)

/-- The nonce of a sealed block (R44): {PART, KEYSLOT, COUNT} in 3, 4 and 89 bits. -/
def nonceOf (p slot count : Nat) : Nat := (p * 16 + slot) * 2 ^ 89 + count

/-- A sealed block (R44, R469): 4 KiB of records encrypted under the slot's key, the tag, and 16 zero bytes. -/
def sealedBlock (key p slot count : Nat) (records : List Word) : List Word :=
  let (text, tag) := Aes.gcm key (nonceOf p slot count) 256 (records.flatMap fun v => toBytes 8 v.toNat)
  dwords text 512 ++ dwords tag 2 ++ [0, 0]

/-- A packet on its way to memory (R44, R469): in the clear, or in a sealed block of 128 of its key slot. A slot that has used every COUNT
is exhausted and its records are discarded; one LOSS packet with TEAM, DIE and CORE zero and the number 128 stands for each
block of them (log 36). A sealed block that a full segment does not take uses up its COUNT all the same: it was sealed; R44 speaks of
each sealed block and not of one that is dropped (log 36). -/
def toMemory (s : State) (p c : Nat) (pkt : TracePacket) : State :=
  match pkt.slot with
  | none => writeSegment s p c pkt.dws 1
  | some slot =>
    let ks := mget {} (part s p).keys slot
    let (mine, rest) := ((core s c).unsealed ++ [pkt]).partition (·.slot = some slot)
    if mine.length < 128 then modCore s c fun x => { x with unsealed := x.unsealed ++ [pkt] }
    else
      let s := modCore s c fun x => { x with unsealed := rest }
      if ks.exhausted || 2 ^ 89 ≤ ks.count then
        let s := modPart s p fun q => { q with keys := mset {} q.keys slot { ks with exhausted := true } }
        writeSegment s p c [w64 (3 * 2 ^ 60), w64 s.cycle, 128, 0] 1
      else
        let s := modPart s p fun q => { q with keys := mset {} q.keys slot { ks with count := ks.count + 1 } }
        writeSegment s p c (sealedBlock ks.key p slot ks.count (mine.flatMap (·.dws))) 128

/-- Packets of the core's buffer reach memory, oldest first: at most n, while its segment is free. -/
def drainPackets (s : State) (p c : Nat) : Nat → State
  | 0 => s
  | n + 1 =>
    match (core s c).buffer with
    | [] => s
    | pkt :: rest =>
      if segClear s p c (if pkt.slot.isSome then 4128 else 32) then
        drainPackets (toMemory (modCore s c fun x => { x with buffer := rest }) p c pkt) p c n
      else if inRanges s p (segBase s p c) 64 && poisoned s (segBase s p c) 64 then eccRecord s p (segBase s p c)
      else s

/-- The core's buffered packets reach memory (R468), at a rate that the spec does not give: a free number of them, oldest first (log 3). -/
def drainTrace (s : State) (c : Nat) : State :=
  match coreOwner s c with
  | none => s
  | some p =>
    match (core s c).buffer with
    | [] => s
    | b => let (n, s) := freshNat s; drainPackets s p c (b.length - n % (b.length + 1))

/-- Doubleword 0 of a packet (R466). -/
def packet0 (ty dt team phase c sub : Nat) (multi : Bool) : Word :=
  w64 (ty * 2 ^ 60 + dt % 4096 * 2 ^ 48 + team % 4096 * 2 ^ 36 + phase % 65536 * 2 ^ 20 + c / 64 * 2 ^ 18 + c % 64 * 2 ^ 12 +
    sub * 256 + b2n multi)

/-- The key slot that seals the packets of a core's stream now: of the one context that is traced, when that is confidential (R44,
R469). -/
def sealOf (s : State) (c : Nat) : Option Nat :=
  (coreOwner s c).bind fun p =>
    let v := (part s p).trctl
    if bit v 60 then (keySlotOf s p (bits v 47 32)).map (·.1) else none

/-- A packet into the buffer, timed now. -/
def push (s : State) (c : Nat) (pkt : List Word) : State :=
  modCore s c fun x => { x with buffer := x.buffer ++ [{ slot := sealOf s c, dws := pkt }], lastPkt := s.cycle }

/-- A SYNC packet for this cycle (R466): it names the core's last issue, with the phase count of that team, or the one at the
issue when the team is gone. -/
def pushSync (s : State) (c : Nat) : State :=
  let x := core s c
  let ph := match (coreOwner s c).bind fun p => team? s p x.lastAsid x.lastTeam with
    | some t => t.phase
    | none => x.lastPhase
  push s c [packet0 2 0 x.lastTeam ph c 0 false, w64 s.cycle, x.lastPc, w64 x.lastAsid]

/-- The buffer has room for n packets of 32 bytes (R468). -/
def room (s : State) (c n : Nat) : Bool := (core s c).buffer.length + n ≤ 128

/-- A LOSS packet of this cycle for the packets dropped before (R468). -/
def writeLoss (s : State) (c : Nat) : State :=
  let x := core s c
  let s := push s c [packet0 3 (s.cycle - x.lastPkt) x.dropTeam 0 c 0 x.dropMulti, w64 x.dropAt, w64 x.drops, 0]
  modCore s c fun x => { x with drops := 0, dropMulti := false }

/-- The LOSS packet for packets dropped before, when there is room for it, and for the SYNC that precedes it where the interval exceeds
4095 cycles (R468). -/
def pushLoss (s : State) (c : Nat) : State :=
  let x := core s c
  let far := s.cycle - x.lastPkt > 4095
  if x.drops = 0 || !room s c (if far then 2 else 1) then s
  else writeLoss (if far then pushSync s c else s) c

/-- A dropped packet (R468). -/
def dropPacket (s : State) (c team : Nat) : State :=
  modCore s c fun x =>
    { x with
      drops := x.drops + 1
      dropAt := if x.drops = 0 then s.cycle else x.dropAt
      dropTeam := if x.drops = 0 then team else x.dropTeam
      dropMulti := x.dropMulti || (x.drops ≠ 0 && x.dropTeam ≠ team) }

/-- A SYNC packet of this cycle, emitted or dropped (R467, R468). It precedes every other packet of its cycle, a LOSS too: a SYNC with a LOSS
to follow needs room for both. -/
def emitSync (s : State) (p c : Nat) : State :=
  let lost := (core s c).drops ≠ 0
  if room s c (if lost then 2 else 1) then (if lost then writeLoss (pushSync s c) c else pushSync s c)
  else dropPacket (countDropped s p c 1) c (core s c).lastTeam

/-- The SYNC of a cycle whose count is a multiple of 4096, when it is due and not yet emitted (R467). -/
def dueSync (s : State) (p c : Nat) : State :=
  if bit (part s p).trctl 63 && s.cycle % 4096 = 0 && (core s c).syncAt ≠ s.cycle && (core s c).lastPkt ≠ s.cycle
  then emitSync (modCore s c fun x => { x with syncAt := s.cycle }) p c else s

/-- The SYNCs of a core at the multiples of 4096 among the next n cycles, the present one included, and not the last (R467). -/
def passSyncs (s : State) (c n : Nat) : State :=
  match coreOwner s c with
  | none => s
  | some p =>
    if !bit (part s p).trctl 63 then s
    else
      let now := s.cycle
      let first := (now + 4095) / 4096
      let last := (now + n + 4095) / 4096
      { (span first (last - first)).foldl (fun s m => dueSync { s with cycle := 4096 * m } p c) s with cycle := now }

/-- Emits a packet of a type with its doublewords 1 to 3 (R466-R468), after the SYNC of its cycle. A dropped packet also counts in the
segment's DROPPED. -/
def emit (s : State) (p c ty team phase sub : Nat) (d1 d2 d3 : Word) : State :=
  let s := pushLoss (dueSync s p c) c
  if room s c 1 && (core s c).drops = 0 then
    push s c [packet0 ty (s.cycle - (core s c).lastPkt) team phase c sub false, d1, d2, d3]
  else
    dropPacket (countDropped s p c 1) c team

/-- The barrier phase count of the team that TEAM names (R220, R466). -/
def phaseOf (s : State) (p asid num : Nat) : Nat := if num = 0 then 0 else (team s p asid num).phase

/-- A mask of lanes. -/
def laneMask (keys : List Nat) : Word := w64 (keys.foldl (fun m k => m ||| 2 ^ laneOf k) 0)

/-- BRANCH packets for a conditional branch of the group at `pc` (R467). -/
def emitBranch (s : State) (keys taken : List Nat) (pc : Word) : State :=
  match keys with
  | [] => s
  | k0 :: _ =>
    if !isSimt k0 then s
    else
      let p := partOf s k0
      let asid := asidK s k0
      if !traced s p asid then s
      else
        let teams := sortAsc (uniq (keys.map fun k => (thr s k).team))
        teams.foldl (fun s n =>
          let of := fun (l : List Nat) => laneMask (l.filter fun k => (thr s k).team = n)
          emit s p (coreOf k0) 1 n (phaseOf s p asid n) 0 pc (of keys) (of taken)) s

/-- A MARK packet of a thread (R471, R472). -/
def emitMark (s : State) (k sub : Nat) (pc v : Word) (id : Nat) : State :=
  let p := partOf s k
  let asid := asidK s k
  if isSimt k && bit (part s p).trctl 61 && traced s p asid then
    emit s p (coreOf k) 4 (thr s k).team (phaseOf s p asid (thr s k).team) sub pc v (w64 id)
  else s

end Sys2Proof.Machine
end

