-- ==== Sys2Proof/Machine/Issue.lean ====
section
/-! DEFINITION. Fetching and decoding a chain, what makes a thread ready, the group former, convergence, and what
surrounds an issue (R80-R83, R92-R96, R99, R108-R113, R142-R147, R156-R162, R434, R474). -/

namespace Sys2Proof.Machine

/-! Fetch and decode. -/

/-- Two bytes of the instruction stream. -/
def fetchHalf (s : State) (k : Nat) (pc : Word) : Except Flt Nat × State :=
  if isCob k then
    let sl := slice s (k - 0x20_0000)
    match sl.run.bind fun r => binding? sl r.ev.set with
    | none => (.error (.cause 0x0B pc), s)
    | some b =>
      if pc.toNat + 2 ≤ b.slen * 1024 then
        if poisoned s (sramAt (k - 0x20_0000) (b.soff * 1024 + pc.toNat)) 2 then (.error (.cause 0x0E pc), s)
        else (.ok (ofBytes ((span (b.soff * 1024 + pc.toNat) 2).map fun a => mget 0 sl.region a)), s)
      else (.error (.cause 0x0B pc), s)
  else
    match reach s k pc 2 .fetch false with
    | (.error f, s) => (.error f, s)
    | (.ok l, s) =>
      let (bs, s) := readLoc s k l 2
      (.ok (ofBytes bs), s)

/-- n halves of two bytes, little-endian. -/
def fetchHalves (s : State) (k : Nat) (pc : Word) : Nat → Except Flt Nat × State
  | 0 => (.ok 0, s)
  | n + 1 =>
    match fetchHalf s k pc with
    | (.error f, s) => (.error f, s)
    | (.ok h, s) =>
      match fetchHalves s k (pc + 2) n with
      | (.error f, s) => (.error f, s)
      | (.ok r, s) => (.ok (h + 65536 * r), s)

/-- The bytes that the bits of an instruction take, by its lowest bits (R80), and for the lengths that are illegal
encodings as the base specification numbers them. -/
def rawLength (v : Nat) : Nat :=
  match lengthCode (w64 v) with
  | 0 => 2 | 1 => 4 | 2 => 6 | 3 => 8 | _ => 10 + 2 * (v / 4096 % 8)

/-- One instruction's bits (the first 64 of a longer one) and length in bytes. -/
def fetchOne (s : State) (k : Nat) (pc : Word) : Except Flt (Word × Nat) × State :=
  match fetchHalf s k pc with
  | (.error f, s) => (.error f, s)
  | (.ok h, s) =>
    let n := rawLength h
    if n = 2 then (.ok (w64 h, 2), s)
    else
      match fetchHalves s k pc (min n 8 / 2) with
      | (.error f, s) => (.error f, s)
      | (.ok v, s) => (.ok (w64 v, n), s)

/-- How the gathering of a chain's words ended: at its last word, before a successor that is no wide word (R93), or at a
fetch that is not performed. -/
inductive ChainEnd | done | badSucc | flt (f : Flt)
  deriving DecidableEq, Repr

/-- The words from an address to the chain's end, at most `n` (R92, R95). A first instruction that is no wide word at
its place is gathered alone. R93 names only 16-bit and 32-bit successors of a word with H = 1; a successor of any other length, and
one out of place, counts with them (log 36). -/
def gather (s : State) (k : Nat) (pc : Word) (first : Bool) : Nat → (List RawWord × ChainEnd) × State
  | 0 => (([], .done), s)
  | n + 1 =>
    match fetchOne s k pc with
    | (.error f, s) => (([], .flt f), s)
    | (.ok (v, len), s) =>
      let wide := lengthOf v = some 8 && pc.toNat % 8 = 0
      if !wide && !first then (([], .badSucc), s)
      else if wide && bit v 8 && n ≠ 0 then
        let ((ws, e), s) := gather s k (pc + 8) false n
        ((⟨pc, v, len⟩ :: ws, e), s)
      else (([⟨pc, v, len⟩], .done), s)

/-- What decoding a chain finds (R95): the first word's instruction and whether the chain is collective or holds a strict
collective; an illegal encoding with its first offending word and lowest REASON (R109); or a wrong-side instruction. -/
inductive Judged
  | run (i : Instr) (coll strict : Bool)
  | bad (r : Reason) (slot word : Nat) (w : RawWord)
  | wrong (w : RawWord)
  deriving DecidableEq, Repr

/-- The context of a judgement: core type, whether privileged instructions are refused with REASON 0x9 (a SIMT thread,
U mode, or a manager hart: R99), the chain position and the latches written before. -/
structure JCtx where
  core : CoreType
  noPriv : Bool
  pos  : Nat
  lv   : BitVec 4
  deriving DecidableEq, Repr

/-- The runs-on attribute of an instruction (R98): standard instructions and pair words by their subsets. -/
def runsOn (i : Instr) : Option RunsOn := (wideOf? i).bind fun (maj, _) => (major? maj).map (·.run)

/-- The latches an instruction reads and whether it writes one, and which. -/
def latchUse (i : Instr) : List (Nat × Nat) × BitVec 4 :=
  match wideOf? i with
  | some (maj, w) =>
    match major? maj with
    | some m => ((wideLatchReads m w).map fun n => (n, 0), (1 : BitVec 4) <<< w.lt.toNat)
    | none => ([], 0)
  | none =>
    match i with
    | .pairWord _ p0 p1 => ((slotLatchReads p0).map (fun n => (n, 0)) ++ (slotLatchReads p1).map fun n => (n, 1), 0)
    | _ => ([], 0)

/-- The lowest REASON of one word in its context, with the pair slot that breaks the rule; `eighth` marks a word with
H = 1 at the chain's eighth place, or before a successor that is no wide word. -/
def wordReason (j : JCtx) (lv : BitVec 4) (hbad : Bool) (w : RawWord) : Option (Reason × Nat) :=
  if lengthOf w.bits = some 8 && w.addr.toNat % 8 ≠ 0 then some (.align, 0)
  else match decode w.bits with
  | .error (.chain, sl) =>
    match decode (setBit w.bits 8 false) with
    | .ok (i, _) => match (latchUse i).1.find? fun (n, _) => !lv.getLsbD n with | some (_, sl) => some (.latch, sl) | none => some (.chain, sl)
    | .error _ => some (.chain, sl)
  | .error e => some e
  | .ok (i, _) =>
    if !subsetOk j.core i then some (.standard, 0)
    else match (latchUse i).1.find? fun (n, _) => !lv.getLsbD n with
    | some (_, sl) => some (.latch, sl)
    | none => if hbad then some (.chain, 0) else if runsOn i = some .P && j.noPriv then some (.priv, 0) else none

/-- The instruction of a word is wrong-side on the core type (R98): a pair word runs on B. -/
def wrongSide (c : CoreType) (i : Instr) : Bool :=
  match runsOn i with
  | some r => !r.on c
  | none => match i with | .pairWord _ _ _ => c = .cobbler | _ => false

/-- The first illegal word, and, when there is none, the first wrong-side word (R95, R98, R109). -/
def judgeFrom (j : JCtx) (e : ChainEnd) : Nat → BitVec 4 → List RawWord → Option (Reason × Nat × Nat × RawWord)
  | _, _, [] => none
  | n, lv, w :: ws =>
    let h := lengthOf w.bits = some 8 && bit w.bits 8
    let hbad := h && (j.pos + n ≥ 7 || (ws = [] && e = .badSucc))
    match wordReason j lv hbad w with
    | some (r, sl) => some (r, sl, n, w)
    | none =>
      let lw := match decode w.bits with | .ok (i, _) => (latchUse i).2 | .error _ => 0
      judgeFrom j e (n + 1) (lv ||| lw) ws

/-- The instructions of well-formed words. -/
def instrsOf (ws : List RawWord) : List Instr :=
  ws.filterMap fun w => match decode w.bits with | .ok (i, _) => some i | .error _ => none

/-- The major of a wide instruction is collective (R157). -/
def isCollective (i : Instr) : Bool := match wideOf? i with | some (maj, _) => collectiveMajor maj | none => false

/-- The strict collectives, MAJ 0x66-0x70 (R157). -/
def isStrict (i : Instr) : Bool :=
  match wideOf? i with | some (maj, _) => 0x66 ≤ maj.toNat && maj.toNat ≤ 0x70 | none => false

/-- The judgement of a gathered chain. -/
def judge (j : JCtx) (ws : List RawWord) (e : ChainEnd) : Option Judged :=
  match judgeFrom j e 0 j.lv ws with
  | some (r, sl, n, w) => some (.bad r sl n w)
  | none =>
    match ws.find? fun w => match decode w.bits with | .ok (i, _) => wrongSide j.core i | .error _ => false with
    | some w => some (.wrong w)
    | none =>
      match instrsOf ws with
      | [] => none
      | i :: is => some (.run i ((i :: is).any isCollective) ((i :: is).any isStrict))

/-- The judgement context of a key. -/
def jctx (s : State) (k : Nat) : JCtx :=
  let t := thr s k
  { core := coreType k
    noPriv := isSimt k || (isHart k && ((hart s k).mode = .user || (hart s k).mgr))
    pos := t.chain.pos
    lv := t.chain.lv }

/-- The words that a key is to issue: those left of a chain decoded before (R95), or those gathered at its pc, as many as its
place in a chain leaves (R92), with how the gathering ended. -/
def wordsOf (t : Thread) (ws : List RawWord) (e : ChainEnd) : List RawWord × ChainEnd :=
  let n := 8 - min t.chain.pos 7
  match t.chain.words with
  | [] => if n ≤ ws.length then (ws.take n, .done) else (ws, e)
  | kept => (kept, .done)

/-- The words of the chain at a key's pc, and how the gathering ended. -/
def chainAt (s : State) (k : Nat) : (List RawWord × ChainEnd) × State :=
  let t := thr s k
  match t.chain.words with
  | [] => let ((ws, e), s) := gather s k t.pc true (8 - min t.chain.pos 7); (wordsOf t ws e, s)
  | kept => ((kept, .done), s)

/-- The instructions of the chain at a key's pc, as far as they are fetched and decode. -/
def nextInstrs (s : State) (k : Nat) : List Instr := instrsOf (chainAt s k).1.1

/-- The next instruction of a key is `mig`. -/
def nextIsMig (s : State) (k : Nat) : Bool :=
  match nextInstrs s k with | .mig _ :: _ => true | _ => false

/-! What makes a SIMT thread able to issue (R120, R192, R434, R438). -/

/-- The instruction issues an operation of R434 into the thread's list: a standard load, store, AMO, LR, SC or
cache-block operation. -/
def isMemOp (i : Instr) : Bool :=
  match i with
  | .cboClean _ | .cboFlush _ | .cboInval _ | .cboZero _ => true
  | .standardInstruction s =>
    match s with | .load _ _ _ _ | .store _ _ _ _ | .lr _ _ _ _ _ | .sc _ _ _ _ _ _ | .amo _ _ _ _ _ _ _ => true | _ => false
  | _ => false

/-- The instruction waits until every earlier operation of its thread has finished (R131, R139, R148). -/
def needsDone (i : Instr) : Bool := match i with | .mig _ | .texit _ | .tend _ | .ecall => true | _ => false

/-- The instruction waits until every earlier operation of its thread has been sent (log 9): wide words that access memory or
order accesses, and CSR accesses. -/
def needsSent (i : Instr) : Bool :=
  match wideOf? i with
  | some (maj, _) => 0x30 ≤ maj.toNat
  | none => match i with | .standardInstruction (.csr _ _ _ _ _) => true | _ => false

/-- The instruction counts among the eight that R192 allows: loads, stores, atomics and CSR accesses. -/
def isCounted (i : Instr) : Bool :=
  isMemOp i || match i with | .amos _ | .casx _ => true | .standardInstruction (.csr _ _ _ _ _) => true | _ => false

/-- The registers that an operation has still to write. -/
def PendOp.writes (p : PendOp) : List Nat := p.rd :: match p.kind with | .casx _ rd1 _ _ => [rd1] | _ => []

/-- The thread may issue an instruction now. -/
def operandsReady (t : Thread) (i : Instr) : Bool :=
  let pend := t.ops.flatMap PendOp.writes
  !((dests i ++ sources i).any fun r => r ≠ 0 && pend.contains r) &&
  !(isCounted i && t.ops.length ≥ 8) && !(t.trap.inh && t.ops ≠ []) && !(needsDone i && t.ops ≠ []) &&
  !(needsSent i && t.ops.any (!·.sent))

/-- The thread is inside the chain that its core issues (R96). -/
def inChain (s : State) (k : Nat) : Bool := (core s (coreOf k)).chain.contains k

/-- The thread is SIMT-ready and its next chain can issue: no signal waits for it at this boundary, unless it stands at a `mig`
(R151), and its team is neither being saved nor stopped there (R191, R462). Every word of a chain is ready before its first
word issues, so that the chain issues without a pause (log 9, R145). An instruction that cannot be fetched or decoded issues
to take its cause. -/
def canIssue (s : State) (k : Nat) : Bool :=
  let t := thr s k
  t.st = .ready && t.wait = .none && !(t.sigpend && !t.chain.live && slotOf k ≠ 15 && !nextIsMig s k) &&
  (t.chain.live || match teamK? s k with | some m => m.st = .resident && !m.halt | none => t.team = 0) &&
  (match t.holdTill with | some n => n ≤ s.cycle | none => true) &&
  (nextInstrs s k).all (operandsReady t)

/-- The keys of the threads on a SIMT core. -/
def onCore (s : State) (c : Nat) : List Nat := (s.threads.filter fun (k, _) => isSimt k && coreOf k = c).map (·.1)

/-! The group former (R142-R145). -/

/-- FormerIndex (R142). -/
def formerIndex (asid : Nat) (pc : Word) : Nat := bits pc 6 1 ^^^ bits pc 12 7 ^^^ bits pc 18 13 ^^^ asid % 64

/-- A thread's key in the former: its context and pc. -/
def formerKey (s : State) (k : Nat) : Nat × Word := (asidK s k, (thr s k).pc)

/-- The class of a thread (R144). -/
def classOf (s : State) (k : Nat) : Nat :=
  match teamK? s k with | some t => t.desc.cls | none => bits (thr s k).tprio 1 0

/-- The oldest of some deferred keys (R143): the one whose ready threads include the oldest, by R144's age; among equals the
one deferred first. -/
def oldestKey (age : Nat × Word → Nat) : List ((Nat × Word) × Nat) → Option (Nat × Word)
  | [] => none
  | x :: xs =>
    match oldestKey age xs with
    | some y => if age y < age x.1 then some y else some x.1
    | none => some x.1

/-- The former's entry after it has looked at the ready threads' keys of its index (R143): the holder keeps it while it
has a ready thread, until the entry has issued 8 groups since the earliest deferred thread was deferred, or a deferred thread is
promoted. It passes to the oldest deferred key, and what is left of the old one is deferred. -/
def formerEntry (e : FormerEntry) (keys promoted : List (Nat × Word)) (age : Nat × Word → Nat) : FormerEntry :=
  let held := e.held.filter fun h => keys.contains h
  let old := e.waiting.filter fun x => keys.contains x.1 && some x.1 ≠ held
  let fresh := (uniq keys).filter fun x => some x ≠ held && !old.any fun y => y.1 = x
  let waiting := old ++ fresh.map fun x => (x, 0)
  let passes := match held with
    | none => true
    | some _ => (e.issued && waiting.any fun x => 8 ≤ x.2) || waiting.any fun x => promoted.contains x.1
  match oldestKey age waiting with
  | none => { held := held, issued := e.issued && held.isSome, waiting := [] }
  | some x =>
    if passes then
      { held := some x, issued := false
        waiting := (waiting.filter fun y => y.1 ≠ x) ++ (held.map fun h => (h, 0)).toList }
    else { held := held, issued := e.issued, waiting := waiting }

/-- The former of a core, over its ready threads. -/
def formerUpdate (s : State) (c : Nat) (ready : List Nat) : State :=
  let idx := sortAsc (uniq ((ready.map fun k => formerIndex (formerKey s k).1 (formerKey s k).2) ++ (core s c).former.map (·.1)))
  idx.foldl (fun s i =>
    let here := ready.filter fun k => formerIndex (formerKey s k).1 (formerKey s k).2 = i
    let age := fun key => (here.filter fun k => formerKey s k = key).foldl (fun m k => min m (thr s k).age) (2 ^ 64)
    let e := formerEntry (mget {} (core s c).former i) (here.map (formerKey s))
      ((here.filter fun k => (thr s k).promoted).map (formerKey s)) age
    modCore s c fun x => { x with former := mset {} x.former i e }) s

/-- The oldest of some threads, ties to the lowest key. -/
def oldest (s : State) : List Nat → Option Nat
  | [] => none
  | k :: ks => match oldest s ks with | some k' => if (thr s k').age < (thr s k).age then some k' else some k | none => some k

/-- The threads that a former key selects (R142): in each lane its oldest ready thread, ascending lanes. -/
def groupOf (s : State) (ready : List Nat) (key : Nat × Word) : List Nat :=
  let ks := ready.filter fun k => formerKey s k = key
  (List.range 64).filterMap fun l => oldest s (ks.filter fun k => laneOf k = l)

/-- Threads of one core in ascending lane order (R458). -/
def byLane (ks : List Nat) : List Nat := (List.range 64).flatMap fun l => ks.filter fun k => laneOf k = l

/-- Age of a group: that of its oldest thread (R144). -/
def groupAge (s : State) (g : List Nat) : Nat := g.foldl (fun m k => min m (thr s k).age) (2 ^ 64)

/-- Class of a group: the highest among its threads (R144). -/
def groupClass (s : State) (g : List Nat) : Nat := g.foldl (fun m k => max m (classOf s k)) 0

/-- The oldest of some groups; among groups of one age, which the spec does not order, a free one (log 3). -/
def oldestGroup (s : State) (gs : List (List Nat)) : List Nat × State :=
  let m := gs.foldl (fun m g => min m (groupAge s g)) (2 ^ 64)
  let top := gs.filter fun g => groupAge s g = m
  match choose s (List.range top.length) with
  | (i, s) => (top.getD (i.getD 0) [], s)

/-- Greedy issue ends on a core when none of the threads issued last is ready (R145). -/
def endGreedy (s : State) (c : Nat) (ready : List Nat) : State :=
  let g := (core s c).greedy
  if g = [] || g.any ready.contains then s else modCore s c fun x => { x with greedy := [] }

/-- The group that a core issues (R145): inside a chain, the chain's threads; else a promoted thread's group, the greedy
entry's, or the oldest in the highest class. The greedy entry is the one that holds the lowest lane among the ready threads
issued last (R459, log 35). -/
def chooseGroup (s : State) (c : Nat) (ready : List Nat) : List Nat × State :=
  let s := endGreedy s c ready
  let x := core s c
  let chain := x.chain.filter ready.contains
  if chain ≠ [] then (chain, s)
  else
    let groups := (x.former.filterMap fun (_, e) => e.held).map (groupOf s ready) |>.filter (· ≠ [])
    let prom := groups.filter fun g => g.any fun k => (thr s k).promoted
    if prom ≠ [] then oldestGroup s prom
    else
      let held := x.former.filterMap fun (_, e) => e.held
      match (byLane x.greedy).find? fun k => ready.contains k && held.contains (formerKey s k) with
      | some k => (groupOf s ready (formerKey s k), s)
      | none =>
        let top := groups.foldl (fun m g => max m (groupClass s g)) 0
        oldestGroup s (groups.filter fun g => groupClass s g = top)

/-! Gangs and convergence (R156-R162). -/

/-- The key of a team index's slot (R21, R179). -/
def memberKey (t : Team) (idx : Nat) : Nat := slotKey t.die t.core (idx % 64) (mget 0 t.slots idx)

/-- The member record of an index. -/
def member (t : Team) (idx : Nat) : Member := mget {} t.members idx

/-- A position is held (R156): a real thread, even an exited one, or a helper exists at it. -/
def posHeld (t : Team) (idx : Nat) : Bool :=
  match (member t idx).loc with | .absent0 => false | .gone => !(member t idx).helper | _ => true

/-- A held position is live (R156). -/
def posLive (t : Team) (idx : Nat) : Bool :=
  match (member t idx).loc with | .here | .away => !(member t idx).stopped | _ => false

/-- A live position is contributing (R156): its thread is real. -/
def posContrib (t : Team) (idx : Nat) : Bool := posLive t idx && !(member t idx).helper

/-- The team indices of a gang (R156). -/
def gangIdx (t : Team) (g : Nat) : List Nat := span (g * t.desc.gw) t.desc.gw

/-- The gang index of a thread. -/
def gangNo (t : Thread) : Nat := t.tidx / max 1 t.gangw

/-- The gang is complete (R156). -/
def gangComplete (t : Team) (g : Nat) : Bool := (gangIdx t g).all (posHeld t)

/-- A position of the gang holds an exited real thread or a stopped helper (R161). -/
def gangEnded (t : Team) (g : Nat) : Bool :=
  (gangIdx t g).any fun i => ((member t i).loc = .gone && !(member t i).helper) || ((member t i).loc = .here && (member t i).stopped)

/-- The register destinations of a word's bits, also where the word breaks a rule (R113): the D of a full-form word and of each
pair slot whose opcode is known. Other bits that are no instruction name no destination (log 36). -/
def rawDests (v : Word) : List Nat :=
  match decode v with
  | .ok (i, _) => dests i
  | .error _ =>
    if lengthOf v ≠ some 8 then []
    else if bit v 7 then
      [slotFields (v.extractLsb' 9 27), slotFields (v.extractLsb' 36 27)].flatMap fun p =>
        match p with | some p => if p.op = .nop2 then [] else [pairDest p] | none => []
    else wideDests (v.extractLsb' 9 8) (wideFields v)

/-- The register destinations of a whole chain (R113). -/
def chainDests (ws : List RawWord) : List Nat := ws.flatMap fun w => rawDests w.bits

/-- The address that follows the last of a chain's words; the start's where none is. -/
def chainEnd (pc : Word) (ws : List RawWord) : Word := match ws.getLast? with | some w => w.addr + w64 w.len | none => pc

/-- A thread leaves its wait and is SIMT-ready at its pc, with age now (R144). -/
def wake (s : State) (k : Nat) : State :=
  modThr s k fun t =>
    if t.st = .halted then { t with before := .ready, wait := .none, wus := 0 }
    else { t with st := .ready, wait := .none, wus := 0, age := s.cycle }

/-- A thread starts to wait (R120). -/
def block (s : State) (k : Nat) (w : Wait) : State :=
  modThr s k fun t => { t with st := .blocked, wait := w, wus := 0 }

/-- A thread finds a table of operations full (R234, R266, R320): it waits at the instruction, which runs again when there
is room. The watchdog's count goes on over such attempts. -/
def blockRoom (r : Room) (s : State) (k : Nat) : State :=
  if isHart k then s else modThr s k fun t => { t with st := .blocked, wait := .room r }

/-- The live members of a gang that wait to converge, with where (R159). -/
def convWaiters (s : State) (t : Team) (g : Nat) : List (Nat × Word) :=
  (gangIdx t g).filterMap fun i =>
    if posLive t i && (member t i).loc = .here then
      match (thr s (memberKey t i)).wait with | .converge x => some (memberKey t i, x) | _ => none
    else none

/-- The gang's convergence state is evaluated (R159): when every live member waits at one place, all become ready. -/
def gangEval (s : State) (p asid num g : Nat) : State :=
  match team? s p asid num with
  | none => s
  | some t =>
    let live := (gangIdx t g).filter (posLive t)
    match convWaiters s t g with
    | [] => s
    | (k, x) :: ws =>
      if (ws.all fun (_, y) => y = x) && ws.length + 1 = live.length
          && ((k, x) :: ws).all fun (k, _) => (thr s k).st = .blocked
      then ((k, x) :: ws).foldl (fun s (k, _) => wake s k) s
      else s

/-- Cause 0x05 at the first word of a thread's chain (R160, R161). A thread that waited leaves its wait. A helper's chain gives
zero to its register destinations, and the helper continues after it. -/
def trapConverge (s : State) (k : Nat) : State :=
  let s := modThr s k fun t => { t with st := .ready, wait := .none, wus := 0 }
  let ws := (chainAt s k).1.1
  if (thr s k).helper then modThr s k fun t => { skipHelper (chainDests ws) (chainEnd t.pc ws) t with age := s.cycle }
  else
    let w := ws.headD ⟨(thr s k).pc, 0, 8⟩
    raiseTrap s k { code := 0x05, insn := w.bits, addr := w.addr } .load

/-- The live members of a gang. -/
def liveKeys (t : Team) (g : Nat) : List Nat := ((gangIdx t g).filter (posLive t)).map (memberKey t)

/-- The gang is whole among some threads that are ready at one pc (R158). -/
def gangWhole (t : Team) (g : Nat) (cand : List Nat) : Bool :=
  ((gangIdx t g).filter (posLive t)).all fun i => cand.contains (memberKey t i) && (member t i).loc = .here

/-- A gang that is not whole, or that a strict collective forbids (R158-R161): its members in the group trap or start a
converging wait. -/
def convergeGang (s : State) (x : Word) (bad : Bool) (p asid num g : Nat) (keys : List Nat) : State :=
  match team? s p asid num with
  | none => keys.foldl trapConverge s
  | some t =>
    if bad then keys.foldl trapConverge s
    else
      let waiting := convWaiters s t g
      if waiting.any fun (_, y) => y ≠ x then (waiting.map (·.1) ++ keys).foldl trapConverge s
      else gangEval (keys.foldl (fun s k => block s k (.converge x)) s) p asid num g

/-- A strict collective may not issue for the gang (R161). -/
def strictBad (t : Team) (g : Nat) : Bool := !gangComplete t g || gangEnded t g

/-- Whole gangs are added to a group, the oldest first, each when none of its lanes is taken (R158); at most `n` gangs. -/
def pickGangs (s : State) (out : List Nat) (gs : List (List Nat)) : Nat → List Nat × State
  | 0 => (out, s)
  | n + 1 =>
    match gs with
    | [] => (out, s)
    | _ =>
      let (g, s) := oldestGroup s gs
      let free := !g.any fun k => out.any fun j => laneOf j = laneOf k
      pickGangs s (if free then out ++ g else out) (gs.filter (· ≠ g)) n

/-- The threads that issue a collective chain at pc `x`: whole gangs of the threads `cand` that are ready there, oldest first,
lanes disjoint. Members in the group of other gangs trap or wait (R158-R161); a gang that has none in the group is left alone; a whole gang that finds a lane taken issues later.
They issue in ascending lane order (R458). -/
def convergeGroup (s : State) (x : Word) (strict : Bool) (group cand : List Nat) : List Nat × State :=
  let gangOf := fun (s : State) (k : Nat) => ((thr s k).team, gangNo (thr s k))
  let s := (group.filter fun k => (thr s k).team = 0).foldl trapConverge s
  let gangs := uniq (((cand ++ group).filter fun k => (thr s k).team ≠ 0).map (gangOf s))
  let k0 := group.headD 0
  let p := partOf s k0
  let asid := asidK s k0
  let whole := gangs.filter fun (num, g) =>
    match team? s p asid num with | some t => gangWhole t g cand && !(strict && strictBad t g) | none => false
  let s := (gangs.filter fun y => !whole.contains y && group.any fun k => (thr s k).team ≠ 0 && gangOf s k = y).foldl (fun s (num, g) =>
    let bad := strict && match team? s p asid num with | some t => strictBad t g | none => true
    convergeGang s x bad p asid num g (group.filter fun k => gangOf s k = (num, g))) s
  let sets := whole.map fun (num, g) => match team? s p asid num with | some t => liveKeys t g | none => []
  let (out, s) := pickGangs s [] sets sets.length
  (byLane out, s)

/-! What surrounds an issue. -/

/-- A helper meets a cause of decode or fetch (R113, R154): the chain's register destinations receive zero, and it continues at
an address. -/
def skipChain (s : State) (k : Nat) (ws : List RawWord) (next : Word) : State :=
  modThr s k fun t => { skipHelper (chainDests ws) next t with age := s.cycle }

/-- An illegal encoding or a wrong-side instruction of a chain is taken at its first word by a thread (R95, R108-R113):
`hdec` describes the offending word, counted from the chain's first, NEXT follows the last word decoded. `hdec0` to `hdec3` are loaded
for causes 0x03 and 0x04 too: R110 says so of every such encoding, R437 only of cause 0x01 (log 36). -/
def trapDecode (s : State) (ws : List RawWord) (bad : Judged) (k : Nat) : State :=
  let t := thr s k
  let next := chainEnd t.pc ws
  if isSimt k && t.helper then skipChain s k ws next
  else match bad with
  | .bad r sl n w =>
    let code := match r with | .latch => 3 | .chain => 4 | _ => 1
    let pos := if t.chain.live then t.chain.pos else 0
    raiseTrap s k
      { code := code, insn := w.bits, addr := w.addr, priv := r = .priv
        dec := some (w64 (lengthCode w.bits * 4096 + sl * 2048 + (ws.length + pos) * 128 + (n + pos) * 16 + r.code), next) } .fetch
  | .wrong w => raiseTrap s k { code := 0x02, insn := w.bits, addr := w.addr } .fetch
  | .run _ _ _ => s

/-- A fetch that is not performed is taken at the chain's first word (R95). A helper's chain is known as far as it was fetched, and
the length of what was not fetched is not known: it continues 8 bytes after the address that failed (log 36). -/
def trapFetch (s : State) (ws : List RawWord) (f : Flt) (k : Nat) : State :=
  let s := { s with cur := { s.cur with pc := (thr s k).pc, bits := 0, len := 8 } }
  match f, isCob k with
  | .hold, _ => s
  | .cause 0x0B _, true => cobAbort s (k - 0x20_0000) 2
  | .cause 0x0E _, true => cobAbort s (k - 0x20_0000) 8
  | f, _ =>
    if isSimt k && (thr s k).helper then skipChain s k ws (chainEnd (thr s k).pc ws + 8)
    else raiseFlt s k f .fetch

/-- What a group or a hart is about to do: run an instruction by these threads, or nothing more (causes were taken, or
threads wait). -/
inductive Ready
  | go (i : Instr)
  | over
  deriving DecidableEq, Repr

/-- What a key finds in the words gathered at its pc (R95, R108-R110, R431): a cause that it takes at the chain's first word, or
what it is to issue: the instruction of the next word, the words, and whether the chain is collective or holds a strict
collective. A wrong-side word precedes a fetch that is not performed on a SIMT core and follows it elsewhere (log 36). -/
inductive Finding
  | bad (j : Judged) (ws : List RawWord)
  | flt (f : Flt) (ws : List RawWord)
  | go (i : Instr) (w : RawWord) (ws : List RawWord) (coll strict : Bool)
  deriving DecidableEq, Repr

/-- The finding of a key with the words that it is to issue. -/
def findingOf (s : State) (k : Nat) (ws : List RawWord) (e : ChainEnd) : Finding :=
  match judge (jctx s k) ws e, e, ws with
  | some (.bad r sl n w), _, _ => .bad (.bad r sl n w) ws
  | some (.wrong w), .flt f, _ => if isSimt k then .bad (.wrong w) ws else .flt f ws
  | some (.wrong w), _, _ => .bad (.wrong w) ws
  | _, .flt f, _ => .flt f ws
  | some (.run i coll strict), _, w :: ws => .go i w ws (coll && isSimt k) strict
  | _, _, _ => .flt .hold ws

/-- The finding of a key in the words gathered for its group; the words of a chain that was decoded before are its own. -/
def finding (s : State) (k : Nat) (ws : List RawWord) (e : ChainEnd) : Finding :=
  findingOf s k (wordsOf (thr s k) ws e).1 (wordsOf (thr s k) ws e).2

/-- The cause that a key found is taken; with none, nothing happens. -/
def takeFinding (s : State) (k : Nat) : Finding → State
  | .bad j ws => trapDecode s ws j k
  | .flt f ws => trapFetch s ws f k
  | .go _ _ _ _ _ => s

/-- A key keeps the decoded words of a chain of more than one word (R95), and whether the chain is collective. -/
def keepChain (ws : List RawWord) (w : RawWord) (coll : Bool) (t : Thread) : Thread :=
  let c := t.chain
  { t with chain := { c with words := if ws = [] && !c.live then [] else w :: ws, coll := coll || (c.coll && c.words ≠ []) } }

/-- The words at the common pc of the keys: gathered once, for those whose chain was not decoded before. -/
def gatherFor (s : State) (keys : List Nat) : (List RawWord × ChainEnd) × State :=
  match keys.filter fun k => (thr s k).chain.words = [] with
  | [] => (([], .done), s)
  | k :: ks => gather s k (thr s k).pc true ((k :: ks).foldl (fun n k => max n (8 - min (thr s k).chain.pos 7)) 1)

/-- The threads of a SIMT core that are ready at one pc and find a collective chain there. -/
def readyThere (s : State) (k0 : Nat) (w : RawWord) (ws : List RawWord) (e : ChainEnd) : List Nat :=
  (onCore s (coreOf k0)).filter fun k =>
    canIssue s k && formerKey s k = formerKey s k0 &&
    match finding s k ws e with | .go _ w' _ coll _ => coll && w' = w | _ => false

/-- Fetches, decodes and judges the chain at the common pc of the keys, for each in its own place in a chain, and sets State.cur
for the threads that issue its next word. Causes found at decode are taken by each key that finds one (R95, R110). The first
word of a collective chain, and a word at which a thread resumes such a chain, converges (R158, R173). -/
def prepare (s : State) (keys : List Nat) : Ready × State :=
  let s := { s with cur := { keys := keys, pc := (thr s (keys.headD 0)).pc, bits := 0, len := 8 } }
  let ((ws, e), s) := gatherFor s keys
  let fs := keys.map fun k => (k, finding s k ws e)
  let s := fs.foldl (fun s (k, f) => takeFinding s k f) s
  match fs.findSome? fun (_, f) => match f with | .go i w rest coll strict => some (i, w, rest, coll, strict) | _ => none with
  | none => (.over, s)
  | some (i, w, rest, coll, strict) =>
    let ks := fs.filterMap fun (k, f) => if f = .go i w rest coll strict then some k else none
    let (ks, s) :=
      if coll && !ks.all (inChain s) then convergeGroup s w.addr strict ks (readyThere s (ks.headD 0) w ws e) else (ks, s)
    if ks = [] then (.over, s)
    else
      let s := ks.foldl (fun s k => modThr s k (keepChain rest w coll)) s
      (.go i, { s with cur := { keys := ks, pc := w.addr, bits := w.bits, len := w.len } })

/-- The causal experiment at a group of its context that is about to issue (R473, R474), until its DUR has passed: counted when its pc
lies inside the range, and otherwise held for DELAY cycles before it issues (false: not yet). In a chain only the first word is held. -/
def experiment (s : State) (c : Nat) (keys : List Nat) : Bool × State :=
  match coreOwner s c, keys with
  | some p, k :: _ =>
    match (part s p).trial with
    | some tr =>
      let pc := (thr s k).pc
      if tr.asid ≠ asidK s k || (thr s k).chain.live || tr.endUs ≤ s.us then (true, s)
      else if tr.lo ≤ pc && pc < tr.hi then
        (true, modPart s p fun q => { q with trial := some { tr with inrange := tr.inrange + 1 } })
      else if keys.all fun k => (thr s k).holdTill ≠ none then
        (true, keys.foldl (fun s k => modThr s k fun t => { t with holdTill := none }) s)
      else
        (false, keys.foldl (fun s k => modThr s k fun t =>
            { t with holdTill := some (s.cycle + tr.delay), chain := { t.chain with coll := false, words := [] } })
          (modPart s p fun q => { q with trial := some { tr with held := tr.held + 1 } }))
    | none => (true, s)
  | _, _ => (true, s)

/-- A cause 0x11 that a collective chain held is taken when its last word has issued, and where that word waited, when the wait
is over (R173). A helper's zeroes the destinations of the words that raised it then, at the chain's end, so that a later word of the chain
reads what they wrote: neither R154 nor R173 says when (log 36). -/
def afterWord (s : State) (k : Nat) : State :=
  let t := thr s k
  match t.chain.fp with
  | some (v, a) =>
    if t.chain.live || t.st ≠ .ready || t.wait ≠ .none then s
    else raiseTrap (modThr s k fun t => { t with chain := { t.chain with fp := none } }) k { code := 0x11, insn := v, addr := a } .load
  | none => s

/-- A thread's causes at its instruction boundary (R432, R453, R425): one that a collective chain held, then the asynchronous
ones in rank. A pending one is never dropped. The bits of a store that failed late are not kept: INSN is a free value (log 3).
An operation of a handler that cannot be captured finishes first (R192, R438). -/
def asyncTrap (s : State) (k : Nat) : Option State :=
  let t := thr s k
  if t.chain.live || (isSimt k && (t.st ≠ .ready || t.wait ≠ .none || !canCapture t)) then none
  else match t.chain.fp, t.pend0E, t.pend16 with
  | some _, _, _ => some (afterWord s k)
  | none, some (pc, va), _ =>
    let (v, s) := freshWord (modThr s k fun t => { t with pend0E := none })
    some (raiseTrap s k { code := 0x0E, insn := v, addr := pc, va := va, kind := 5 } .store)
  | none, none, some v =>
    let s := modThr s k fun t => { t with pend16 := none }
    some (raiseTrap s k { code := 0x16, insn := 0, addr := t.pc, va := if isHart k then v else 0 } .load)
  | none, none, none => none

/-- After a group's issue: its threads are those last issued, their age is now, promotion ends, and the core remembers the
chain in progress and what a SYNC packet tells (R144-R146, R466). The memory operations of the next group get another number (R343, R458). -/
def afterGroup (s : State) (c : Nat) (keys : List Nat) (i : Instr) (pc : Word) (asid tm : Nat) : State :=
  let s := keys.foldl afterWord s
  let s := keys.foldl (fun s k => if occupied s k then modThr s k fun t =>
    { t with age := if t.st = .ready then s.cycle else t.age, promoted := false
             wus := if t.st = .ready then 0 else t.wus
             chain := if t.chain.live then t.chain else { t.chain with coll := false, words := [] } } else s) s
  let s := if isMemOp i then { s with nextId := s.nextId + 1 } else s
  let p := (coreOwner s c).getD 0
  let ph := phaseOf s p asid tm
  let idx := formerIndex asid pc
  modCore s c fun x =>
    { x with
      greedy := if i = .pause then [] else keys
      chain := keys.filter fun k =>
        let t := thr s k
        t.chain.live && t.chain.words ≠ [] && t.st = .ready && t.wait = .none
      former := match mget? x.former idx with
        | some e => mset {} x.former idx { e with issued := true, waiting := e.waiting.map fun (y, n) => (y, n + 1) }
        | none => x.former
      lastPc := pc, lastAsid := asid, lastTeam := tm, lastPhase := ph, issues := true }

end Sys2Proof.Machine
end

