-- ==== Sys2Proof/Machine/Lane.lean ====
section
/-! DEFINITION. Pair words and lane arithmetic (R88-R91, R236-R259). -/

namespace Sys2Proof.Machine

/-- What a lane instruction gives one thread: the 64-bit D value, the flags and sticky bits it raises, and whether the
lane seed advances (R239, R240). -/
structure LaneRes where
  val    : Nat
  flags  : Nat := 0
  sticky : Nat := 0
  adv    : Bool := false
  deriving DecidableEq, Repr

/-- Cause 0x11 after a completed floating instruction that raised an enabled flag, on a SIMT thread (R73); inside a
collective chain it is held until the chain's last word has issued (R173). Of several words that raise it the last is the one that
`hdec0` and `hdec2` describe; the spec names none (log 36). -/
def fpCause (s : State) (k : Nat) (fl : Nat) : State :=
  let t := thr s k
  if isSimt k && fpTraps t fl then
    if t.chain.coll && t.chain.live then
      modThr s k fun t => { t with chain := { t.chain with
        fp := some (s.cur.bits, s.cur.pc), fpDests := if t.helper then t.chain.fpDests ++ rawDests s.cur.bits else [] } }
    else raise s k 0x11 0 .load
  else s

/-- The thread after a lane instruction: result, latch, flags, seed. -/
def laneThread (w : Wide) (r : LaneRes) (t : Thread) : Thread :=
  let t := endWord w (w64 r.val) (addSticky (addFlags t r.flags) r.sticky)
  if r.adv then { t with lfsr := advance32 t.lfsr } else t

/-- A lane instruction on every thread of the group (R236, R240). -/
def laneExec (w : Wide) (f : Thread → LaneRes) (s : State) : Host.Outcome State Fault Refusal :=
  .next (forKeys s fun s k =>
    let r := f (thr s k)
    fpCause (setThr s k (laneThread w r (thr s k))) k r.flags)

/-- The results of n elements packed at width wd, with all their flags. -/
def lanes (wd n : Nat) (g : Nat → FR) : LaneRes :=
  let rs := (List.range n).map g
  { val := packW wd (rs.map (·.bits)), flags := rs.foldl (fun x r => x ||| r.flags) 0
    sticky := if rs.any (·.sat) then CSAT else 0 }

/-- A result of arithmetic rounded into its format: SAT acts on finite values only (R242). -/
def roundArith (f : FFmt) (m : RMode) (sat : Bool) (rnd : Nat) (x : FV × Nat) : FR :=
  let r := match x.1 with | .fin _ _ _ => roundTo f m sat rnd x.1 | v => roundTo f m false rnd v
  { r with flags := r.flags ||| x.2 }

/-- The packed floating arithmetic of R242, with the operation on exact values of elements a, b, c. -/
def floatLanes (w : Wide) (op : FV → FV → FV → FV × Nat) (t : Thread) : LaneRes :=
  let fc := w.fmt
  let f := ffmt fc
  let m := rmodeOf w.md
  let e := fun (v : Word) (i : Nat) => fval f (elt v fc i)
  let r := lanes (fwidth fc) (fcount fc) fun i =>
    roundArith f m (w.imm11.getLsbD 0) (laneRandom t.lfsr i) (op (e (src t w.s1) i) (e (src t w.s2) i) (e (src t w.s3) i))
  { r with adv := m = .sr }

/-- The packed integer arithmetic of R246, on exact integers; ISAT when a saturating result is clamped. -/
def intLanes (w : Wide) (op : Int → Int → Int) (t : Thread) : LaneRes :=
  let fc := w.fmt
  let sat := w.md = 1
  let r := lanes (fwidth fc) (fcount fc) fun i =>
    fitInt fc sat (op (ival fc (elt (src t w.s1) fc i)) (ival fc (elt (src t w.s2) fc i)))
  { val := r.val, sticky := if r.sticky ≠ 0 then ISAT else 0 }

/-- Elements chosen or moved without flags. -/
def rawLanes (fc : Nat) (g : Nat → Nat) : LaneRes := { val := packW (fwidth fc) ((List.range (fcount fc)).map g) }

/-- `pfadd` (R242). -/
def execPfadd (w : Wide) (s : State) : Host.Outcome State Fault Refusal :=
  laneExec w (floatLanes w fun a b _ => fadd .rne a b) s

/-- `pfsub` (R242). -/
def execPfsub (w : Wide) (s : State) : Host.Outcome State Fault Refusal :=
  laneExec w (floatLanes w fun a b _ => fadd .rne a (fneg b)) s

/-- `pfmul` (R242). -/
def execPfmul (w : Wide) (s : State) : Host.Outcome State Fault Refusal :=
  laneExec w (floatLanes w fun a b _ => fmul a b) s

/-- `pffma` (R242): one rounding. -/
def execPffma (w : Wide) (s : State) : Host.Outcome State Fault Refusal :=
  laneExec w (floatLanes w fun a b c => ffma .rne a b c) s

/-- Minimum or maximum lanes (R64, R243). -/
def minmaxLanes (w : Wide) (mx : Bool) (t : Thread) : LaneRes :=
  lanes (fwidth w.fmt) (fcount w.fmt) fun i =>
    let r := fminmax (ffmt w.fmt) mx (elt (src t w.s1) w.fmt i) (elt (src t w.s2) w.fmt i)
    ⟨r.1, r.2, false⟩

/-- `pfmin` (R243). -/
def execPfmin (w : Wide) (s : State) : Host.Outcome State Fault Refusal := laneExec w (minmaxLanes w false) s

/-- `pfmax` (R243). -/
def execPfmax (w : Wide) (s : State) : Host.Outcome State Fault Refusal := laneExec w (minmaxLanes w true) s

/-- One element of `pfsgn` (R244). -/
def sgnElt (f : FFmt) (md a b : Nat) : Nat :=
  let h := 2 ^ (f.eb + f.mb)
  if isNan (fval f a) then f.nan
  else match md with
  | 0 => if a ≥ h then a - h else a + h
  | 1 => a % h
  | _ => a % h + b / h % 2 * h

/-- `pfsgn` on one thread (R244). -/
def sgnLane (w : Wide) (t : Thread) : LaneRes :=
  rawLanes w.fmt fun i => sgnElt (ffmt w.fmt) w.md (elt (src t w.s1) w.fmt i) (elt (src t w.s2) w.fmt i)

/-- `pfsgn` (R244). -/
def execPfsgn (w : Wide) (s : State) : Host.Outcome State Fault Refusal := laneExec w (sgnLane w) s

/-- One comparison of `pfcmp` (R245): whether it holds, and its flags. -/
def cmpElt (md : Nat) (a b : FV) : Bool × Nat :=
  let un := isNan a || isNan b
  match md with
  | 0 => (feqv a b, sigFlag [a, b])
  | 1 => (!un && fltv a b, if un then NV else 0)
  | 2 => (!un && !fltv b a, if un then NV else 0)
  | _ => (un, sigFlag [a, b])

/-- `pfcmp` on one thread (R245): all ones where the condition holds. -/
def cmpLane (w : Wide) (t : Thread) : LaneRes :=
  lanes (fwidth w.fmt) (fcount w.fmt) fun i =>
    let f := ffmt w.fmt
    let r := cmpElt w.md (fval f (elt (src t w.s1) w.fmt i)) (fval f (elt (src t w.s2) w.fmt i))
    ⟨if r.1 then 2 ^ fwidth w.fmt - 1 else 0, r.2, false⟩

/-- `pfcmp` (R245). -/
def execPfcmp (w : Wide) (s : State) : Host.Outcome State Fault Refusal := laneExec w (cmpLane w) s

/-- `padd` (R246). -/
def execPadd (w : Wide) (s : State) : Host.Outcome State Fault Refusal := laneExec w (intLanes w fun a b => a + b) s

/-- `psub` (R246). -/
def execPsub (w : Wide) (s : State) : Host.Outcome State Fault Refusal := laneExec w (intLanes w fun a b => a - b) s

/-- `pmul` (R246). -/
def execPmul (w : Wide) (s : State) : Host.Outcome State Fault Refusal := laneExec w (intLanes w fun a b => a * b) s

/-- Integer minimum or maximum of two elements (R247). -/
def iminmax (fc : Nat) (mx : Bool) (a b : Nat) : Nat := if decide (ival fc a < ival fc b) = mx then b else a

/-- `pmin` and `pmax` on one thread (R247). -/
def iminmaxLane (w : Wide) (mx : Bool) (t : Thread) : LaneRes :=
  rawLanes w.fmt fun i => iminmax w.fmt mx (elt (src t w.s1) w.fmt i) (elt (src t w.s2) w.fmt i)

/-- `pmin` (R247). -/
def execPmin (w : Wide) (s : State) : Host.Outcome State Fault Refusal := laneExec w (iminmaxLane w false) s

/-- `pmax` (R247). -/
def execPmax (w : Wide) (s : State) : Host.Outcome State Fault Refusal := laneExec w (iminmaxLane w true) s

/-- One shifted element of wd bits (R248). -/
def shElt (wd md v sh : Nat) : Nat :=
  let n := sh % wd
  match md with
  | 0 => v * 2 ^ n % 2 ^ wd
  | 1 => v / 2 ^ n
  | 2 => v / 2 ^ n + (if v / 2 ^ (wd - 1) = 1 then (2 ^ n - 1) * 2 ^ (wd - n) else 0)
  | _ => v * 2 ^ n % 2 ^ wd + v / 2 ^ (wd - n)

/-- `psh` on one thread (R248). -/
def shLane (w : Wide) (t : Thread) : LaneRes :=
  rawLanes w.fmt fun i => shElt (fwidth w.fmt) w.md (elt (src t w.s1) w.fmt i) (elt (src t w.s2) w.fmt i)

/-- `psh` (R248). -/
def execPsh (w : Wide) (s : State) : Host.Outcome State Fault Refusal := laneExec w (shLane w) s

/-- The exact sum of finite terms. -/
def exactSum (l : List FV) : FV := l.foldl (fun a b => (fadd .rne a b).1) (.fin true 0 0)

/-- `pdot` on one thread (R249). -/
def dotLane (w : Wide) (t : Thread) : LaneRes :=
  let fc := w.fmt
  let f := ffmt fc
  let a := (List.range (fcount fc)).map fun i => fval f (elt (src t w.s1) fc i)
  let b := (List.range (fcount fc)).map fun i => fval f (elt (src t w.s2) fc i)
  let c := fval f32F ((src t w.s3).toNat % 2 ^ 32)
  let ps := List.zipWith stepProduct a b
  let terms := ps.map (·.1) ++ [c]
  let nv := ps.foldl (fun x p => x ||| p.2) 0 ||| sigFlag (c :: a ++ b)
  let r := engineStep terms 40 nv
  let v := fval f32F r.bits
  let fl := r.flags &&& 0x1E
  let nx := if (terms.any fun x => match x with | .fin _ _ _ => false | _ => true) then 0
    else if feqv v (exactSum terms) then 0 else NX
  { val := (box32 r.bits).toNat, flags := fl ||| nx }

/-- `pdot` (R249). -/
def execPdot (w : Wide) (s : State) : Host.Outcome State Fault Refusal := laneExec w (dotLane w) s

/-- `pidot` on one thread (R250). -/
def idotLane (w : Wide) (t : Thread) : LaneRes :=
  let fc := w.fmt
  let ps := (List.range (fcount fc)).map fun i => ival fc (elt (src t w.s1) fc i) * ival fc (elt (src t w.s2) fc i)
  let r := fit32 (w.md = 1) (ival 6 ((src t w.s3).toNat % 2 ^ 32) + ps.sum)
  { val := (sext 32 r.1).toNat, sticky := if r.2 then ISAT else 0 }

/-- `pidot` (R250). -/
def execPidot (w : Wide) (s : State) : Host.Outcome State Fault Refusal := laneExec w (idotLane w) s

/-- Real and imaginary part of a complex element (R53): c8 is code 12, c4 code 13. -/
def cparts (fc b : Nat) : Int × Int :=
  if fc = 12 then (ival 7 (b % 256), ival 7 (b / 256 % 256)) else (ival 9 (b % 16), ival 9 (b / 16 % 16))

/-- The exact complex product, with b conjugated when asked (R53). -/
def cmul (conj : Bool) (a b : Int × Int) : Int × Int :=
  let bi := if conj then -b.2 else b.2
  (a.1 * b.1 - a.2 * bi, a.1 * bi + a.2 * b.1)

/-- `pcdot` on one thread (R251). -/
def cdotLane (w : Wide) (t : Thread) : LaneRes :=
  let fc := w.fmt
  let ps := (List.range (fcount fc)).map fun i =>
    cmul (w.md ≥ 2) (cparts fc (elt (src t w.s1) fc i)) (cparts fc (elt (src t w.s2) fc i))
  let re := fit32 (w.md % 2 = 1) (ival 6 ((src t w.s3).toNat % 2 ^ 32) + (ps.map (·.1)).sum)
  let im := fit32 (w.md % 2 = 1) (ival 6 ((src t w.s3).toNat / 2 ^ 32) + (ps.map (·.2)).sum)
  { val := re.1 + 2 ^ 32 * im.1, sticky := if re.2 || im.2 then ISAT else 0 }

/-- `pcdot` (R251). -/
def execPcdot (w : Wide) (s : State) : Host.Outcome State Fault Refusal := laneExec w (cdotLane w) s

/-- `pcvtn` on one thread (R252). -/
def cvtnLane (w : Wide) (t : Thread) : LaneRes :=
  let df := w.fmt
  let sf := w.imm11.toNat / 2 % 16
  let sat := w.imm11.getLsbD 0
  let m := rmodeOf w.md
  if sf = 6 then lanes (fwidth df) 2 fun i => fitInt df sat (ival 6 (elt (src t w.s1) 6 i))
  else
    { lanes (fwidth df) (fcount sf) (fun i =>
        roundTo (ffmt df) m sat (laneRandom t.lfsr i) (fval (ffmt sf) (elt (src t w.s1) sf i))) with adv := m = .sr }

/-- `pcvtn` (R252). -/
def execPcvtn (w : Wide) (s : State) : Host.Outcome State Fault Refusal := laneExec w (cvtnLane w) s

/-- `pcvtw` on one thread (R253). -/
def cvtwLane (w : Wide) (t : Thread) : LaneRes :=
  let sf := w.fmt
  let df := w.imm11.toNat / 2 % 16
  let cplx := sf ≥ 12 && df = 6
  let n := if cplx then 1 else fcount df
  let g := bits (src t w.s2) 5 0 % (fcount sf / n)
  let e := fun j => elt (src t w.s1) sf (g * n + j)
  if cplx then
    let c := cparts sf (e 0)
    { val := lowBits 32 c.1 + 2 ^ 32 * lowBits 32 c.2 }
  else if sf ≥ 12 then
    { val := packW 16 ((List.range n).map fun j => let c := cparts sf (e j); lowBits 8 c.1 + 256 * lowBits 8 c.2) }
  else if sf ≥ 6 then { val := packW (fwidth df) ((List.range n).map fun j => lowBits (fwidth df) (ival sf (e j))) }
  else lanes (fwidth df) n fun j => roundTo (ffmt df) .rne false 0 (fval (ffmt sf) (e j))

/-- `pcvtw` (R253). -/
def execPcvtw (w : Wide) (s : State) : Host.Outcome State Fault Refusal := laneExec w (cvtwLane w) s

/-- `pcvti` on one thread (R254). -/
def cvtiLane (w : Wide) (t : Thread) : LaneRes :=
  let ff := w.fmt
  let fi := w.imm11.toNat / 2 % 16
  let sat := w.imm11.getLsbD 0
  let toF := w.imm11.getLsbD 5
  let m := rmodeOf w.md
  let sf := if toF then fi else ff
  let n := 64 / max (fwidth ff) (fwidth fi)
  let g := bits (src t w.s2) 5 0 % (fcount sf / n)
  let e := fun j => elt (src t w.s1) sf (g * n + j)
  let r := if toF
    then lanes (fwidth ff) n fun j => roundTo (ffmt ff) m sat (laneRandom t.lfsr j) (ofScaled (ival fi (e j)) 0 false)
    else lanes (fwidth fi) n fun j => toIntFmt fi m sat (laneRandom t.lfsr j) (fval (ffmt ff) (e j))
  { r with adv := m = .sr }

/-- `pcvti` (R254). -/
def execPcvti (w : Wide) (s : State) : Host.Outcome State Fault Refusal := laneExec w (cvtiLane w) s

/-- `pscale` on one thread (R255). -/
def scaleLane (w : Wide) (t : Thread) : LaneRes :=
  let fc := w.fmt
  let k := max (-2048) (min 2047 (src t w.s2).toInt)
  lanes (fwidth fc) (fcount fc) fun i =>
    match fval (ffmt fc) (elt (src t w.s1) fc i) with
    | .fin n m e => roundTo (ffmt fc) .rne true 0 (.fin n m (e + k))
    | v => roundTo (ffmt fc) .rne false 0 v

/-- `pscale` (R255). -/
def execPscale (w : Wide) (s : State) : Host.Outcome State Fault Refusal := laneExec w (scaleLane w) s

/-- `pgrind` on one thread (R55, R56, R256). -/
def grindLane (w : Wide) (t : Thread) : LaneRes :=
  let k := w.imm11.toNat % 8 + 1
  let g := w.imm11.toNat / 8 % 8
  let plane := fun p => getReg t (w.s1.toNat % 64 + p)
  let val := fun j =>
    let u := (List.range k).foldl (fun x p => 2 * x + b2n (bit (plane p) (8 * g + j))) 0
    let q : Int := if u ≥ 2 ^ (k - 1) then (u : Int) - 2 ^ k else u
    lowBits 8 (if w.md % 2 = 1 then 2 * q + 1 else q)
  { val := packW 8 ((List.range 8).map val) }

/-- `pgrind` (R256). -/
def execPgrind (w : Wide) (s : State) : Host.Outcome State Fault Refusal := laneExec w (grindLane w) s

/-- `psel` on one thread (R257). -/
def selLane (w : Wide) (t : Thread) : LaneRes :=
  rawLanes w.fmt fun i =>
    if elt (src t w.s3) w.fmt i ≠ 0 then elt (src t w.s1) w.fmt i else elt (src t w.s2) w.fmt i

/-- `psel` (R257). -/
def execPsel (w : Wide) (s : State) : Host.Outcome State Fault Refusal := laneExec w (selLane w) s

/-- `ppack` on one thread (R258). -/
def packLane (w : Wide) (t : Thread) : LaneRes :=
  rawLanes 8 fun j =>
    let c := elt (src t w.s3) 8 j
    if c ≥ 128 then 0
    else if c % 16 < 8 then elt (src t w.s1) 8 (c % 16) else elt (src t w.s2) 8 (c % 16 - 8)

/-- `ppack` (R258). -/
def execPpack (w : Wide) (s : State) : Host.Outcome State Fault Refusal := laneExec w (packLane w) s

/-- `lfsrrd` on one thread (R259). -/
def seedLane (t : Thread) : LaneRes := { val := t.lfsr.toNat % 2 ^ 32, adv := true }

/-- `lfsrrd` (R259). -/
def execLfsrrd (w : Wide) (s : State) : Host.Outcome State Fault Refusal := laneExec w seedLane s

/-! Pair words. -/

/-- Packed pair arithmetic on four elements (R89, R90). -/
def pair4 (fc : Nat) (op : FV → FV → FV × Nat) (a b : Word) : Word × Nat :=
  let r := lanes 16 4 fun i => roundArith (ffmt fc) .rne false 0 (op (fval (ffmt fc) (elt a fc i)) (fval (ffmt fc) (elt b fc i)))
  (w64 r.val, r.flags)

/-- One f32 pair operation on boxed values (R90). -/
def pair32 (op : FV → FV → FV × Nat) (a b : Word) : Word × Nat :=
  let r := roundArith f32F .rne false 0 (op (fval f32F (unbox32 a)) (fval f32F (unbox32 b)))
  (box32 r.bits, r.flags)

/-- One f64 pair operation (R90). -/
def pair64 (op : FV → FV → FV × Nat) (a b : Word) : Word × Nat :=
  let r := roundArith f64F .rne false 0 (op (fval f64F a.toNat) (fval f64F b.toNat))
  (w64 r.bits, r.flags)

/-- The result and flags of a pair opcode on D, S and IMM9 (R89). -/
def pairOp (op : PairOp) (d v : Word) (imm : BitVec 9) : Word × Nat :=
  match op with
  | .nop2 => (d, 0)
  | .add2 => (d + v, 0)
  | .sub2 => (d - v, 0)
  | .and2 => (d &&& v, 0)
  | .or2 => (d ||| v, 0)
  | .xor2 => (d ^^^ v, 0)
  | .sll2 => (d <<< (v.toNat % 64), 0)
  | .srl2 => (d >>> (v.toNat % 64), 0)
  | .sra2 => (d.sshiftRight (v.toNat % 64), 0)
  | .addi2 => (d + imm.signExtend 64, 0)
  | .mv2 => (v, 0)
  | .li2 => (imm.signExtend 64, 0)
  | .min2 => (if d.slt v then d else v, 0)
  | .max2 => (if d.slt v then v else d, 0)
  | .fadd2s => pair32 (fadd .rne) d v
  | .fsub2s => pair32 (fun a b => fadd .rne a (fneg b)) d v
  | .fmul2s => pair32 fmul d v
  | .fmin2s => let r := fminmax f32F false (unbox32 d) (unbox32 v); (box32 r.1, r.2)
  | .fmax2s => let r := fminmax f32F true (unbox32 d) (unbox32 v); (box32 r.1, r.2)
  | .fadd2d => pair64 (fadd .rne) d v
  | .fmul2d => pair64 fmul d v
  | .pfadd2b => pair4 1 (fadd .rne) d v
  | .pfmul2b => pair4 1 fmul d v
  | .pfadd2h => pair4 2 (fadd .rne) d v
  | .pfmul2h => pair4 2 fmul d v

/-- The result and flags of a slot, from the thread as it was before either slot writes (R88). -/
def slotResult (t : Thread) (p : PairSlot) : Word × Nat := pairOp p.op (getReg t (pairDest p)) (pairSrc t p) p.imm9

/-- The thread after both slots have written (R88, R90): a pair writes no latch. -/
def pairThread (h : Bool) (p0 p1 : PairSlot) (t : Thread) : Thread :=
  let r0 := slotResult t p0
  let r1 := slotResult t p1
  let t' := if p0.op = .nop2 then t else setReg t (pairDest p0) r0.1
  let t' := if p1.op = .nop2 then t' else setReg t' (pairDest p1) r1.1
  let t' := addFlags t' (r0.2 ||| r1.2)
  { t' with chain := chainNext t'.chain h, pc := t'.pc + 8 }

/-- A pair word (R88, R91). -/
def execPairWord (h : Bool) (p0 p1 : PairSlot) (s : State) : Host.Outcome State Fault Refusal :=
  .next (forKeys s fun s k =>
    let t := thr s k
    fpCause (setThr s k (pairThread h p0 p1 t)) k ((slotResult t p0).2 ||| (slotResult t p1).2))

end Sys2Proof.Machine
end

