-- ==== Sys2Proof/Machine/Access.lean ====
section
/-! DEFINITION. Memory operations once an access is performed: standard loads, stores, atomics, reservations and
cache-block operations, and a handler's accesses on a cobbler core (R9, R154, R326, R358, R359, R361, R411,
R420-R423, R434, R435). -/

namespace Sys2Proof.Machine

/-- The kind of access by which an operation translates: an LR and the cache-block management operations as a load. -/
def opAcc : OpKind → Acc
  | .load _ _ _ | .lr _ => .load
  | .cbo w => if w = 3 then .store else .load
  | _ => .store

/-- The bytes an operation accesses. -/
def opSize : OpKind → Nat
  | .load n _ _ | .store n | .amo _ n | .lr n | .sc n | .casx n _ _ _ => n
  | .cbo _ => 64
  | .ringWrite rec => 8 * rec.length
  | .bwait _ _ | .csr _ _ _ _ => 0

/-- The operation is checked for races (R344): loads, stores and cache-block writes; no atomic access. -/
def opChecked : OpKind → Bool
  | .load _ _ _ | .store _ => true
  | .cbo w => w = 3
  | _ => false

/-- A loaded value, extended or boxed. -/
def extend (n : Nat) (sgn box : Bool) (bs : List Byte) : Word :=
  let v := ofBytes bs
  if box then box32 v else if sgn then sext (8 * n) v else w64 v

/-- The new value of an atomic of n bytes (R333, standard A). -/
def amoResult (op : AmoOp) (n : Nat) (old v : Nat) : Nat :=
  let a : Int := (sext (8 * n) old).toInt
  let b : Int := (sext (8 * n) v).toInt
  let v := v % 2 ^ (8 * n)
  match op with
  | .add => (old + v) % 2 ^ (8 * n)
  | .and => old &&& v
  | .or => old ||| v
  | .xor => old ^^^ v
  | .min => if b < a then v else old
  | .max => if a < b then v else old
  | .minu => min old v
  | .maxu => max old v
  | .swap => v

/-- Every copy of a line is written back (R359). -/
def cleanLine (s : State) (line : Nat) : State :=
  let s := (s.l1.filter (·.line = line)).foldl writeBackLine s
  settleLine { s with l1 := s.l1.map fun l => if l.line = line then { l with dirty := [] } else l } line

/-- Every copy of a line is dropped, a zero line's tag included, and a pinned line unlocked (R356, R359). -/
def dropLine (s : State) (line : Nat) : State :=
  { s with
    l1 := s.l1.filter (·.line ≠ line), pinned := s.pinned.filter (· ≠ line), zeroTags := s.zeroTags.filter (· ≠ line) }

/-- A line's dirty bytes are lost with its copies (R359): each byte that was written since its line was last written back has one of
the values that it had since then, for an eviction may have written one back before; which is free (log 3). On a never-cached
page no copy exists. -/
def loseLine (s : State) (key : Nat) (pat : Word) (line : Nat) : State :=
  if bits pat 3 2 = 2 then s
  else
    settleLine ((s.stale.filter fun x => x.1 / 64 = line).foldl (fun s (a, old) =>
      let (v, s) := choose s ((Memory.byte s.mem a :: old).map BitVec.toNat)
      wrBytes s key a [BitVec.ofNat 8 (v.getD 0)]) s) line

/-- A line becomes a zero line: its slice's set has room for 8 such tags, and where they are taken the oldest is evicted (R361, R416). -/
def tagZero (s : State) (line : Nat) : State :=
  let here := s.zeroTags.filter fun l => homeSlice s (64 * l) = homeSlice s (64 * line)
  if inSet 8 here line then { s with zeroTags := line :: s.zeroTags }
  else
    match (here.filter fun l => Config.l2Set l = Config.l2Set line).getLast? with
    | some old => let s := victim s (64 * old) true; { s with zeroTags := line :: s.zeroTags.filter (· ≠ old) }
    | none => s

/-- `cbo.zero` at a line (R359, R361): a zero line on a cached or pinned page, 64 zero bytes at the home otherwise. -/
def zeroLine (s : State) (k : Nat) (pat : Word) (line : Nat) : State :=
  let s := { s with l1 := s.l1.filter (·.line ≠ line) }
  let s := wrBytes s k (64 * line) (List.replicate 64 0)
  if bits pat 3 2 < 2 && homeSlice s (64 * line) < 256 then tagZero s line else s

/-- A cache-block operation where its line lies (R359): 0 clean, 1 flush, 2 inval, 3 zero. -/
def performCbo (s : State) (k w : Nat) (l : Loc) : State :=
  match l with
  | .mem pa pat =>
    match w with
    | 0 => cleanLine s (pa / 64)
    | 1 => dropLine (cleanLine s (pa / 64)) (pa / 64)
    | 2 => loseLine (dropLine s (pa / 64)) k pat (pa / 64)
    | _ => zeroLine (invalidate (pin s (partOf s k) pat pa) pat pa) k pat (pa / 64)
  | .scr asid num off r => if w = 3 then scrWrite s k (.scr asid num off r) asid num off (List.replicate 64 0) else s

/-- A reservation of a key on n bytes (log 8). -/
def reserved (s : State) (k : Nat) (l : Loc) (n : Nat) : Bool := s.resvs.contains (k, locKey (partOf s k) l, n)

/-- The reservation of a key is dropped. -/
def unreserve (s : State) (k : Nat) : State := { s with resvs := s.resvs.filter fun (k', _, _) => k' ≠ k }

/-- The hardware keeps the record of a ring write that is held (R209): a replay entry has room for two operands only (log 36). -/
def keepRing (s : State) (k : Nat) (va : Word) (rec : List Word) : State :=
  let tid := (thr s k).tid
  modPart s (partOf s k) fun q =>
    { q with rings := (q.rings.filter fun x => !(x.1 = tid && x.2.1 = va && x.2.2.1 = dw rec 3)) ++ [(tid, va, dw rec 3, rec)] }

/-- A ring write that was loaded from a frame has its record back. -/
def knowRing (rings : List (Nat × Word × Word × List Word)) (tid : Nat) (p : PendOp) : PendOp :=
  match p.kind with
  | .ringWrite [] =>
    match rings.find? fun x => x.1 = tid && x.2.1 = p.op1 && x.2.2.1 = p.op2 with
    | some (_, _, _, rec) => { p with kind := .ringWrite rec }
    | none => p
  | _ => p

/-- The same, of every operation of a thread as it is loaded. -/
def knowRings (s : State) (t : Thread) : Thread :=
  let r := (part s t.part).rings
  { t with ops := t.ops.map (knowRing r t.tid), held := t.held.map (knowRing r t.tid) }

/-- A store where it landed. One of 4 bytes to the page of an interrupt file is a message: its identity becomes pending, and no memory is
written; the register at 0 is little-endian and that at 4 big-endian (R10, log 12). -/
def storeAt (s : State) (k : Nat) (l : Loc) (n : Nat) (v : Word) : State :=
  match l with
  | .mem pa _ =>
    if n = 4 && pa % 4096 < 8 && s.intPages.contains (pa / 4096) then
      let id := if pa % 4096 = 0 then ofBytes (toBytes 4 v.toNat) else ofBytes (toBytes 4 v.toNat).reverse
      msi s (w64 (pa / 4096 * 4096 + if id < 2048 then id else 0))
    else writeLoc s k l (toBytes n v.toNat)
  | .scr _ _ _ _ => writeLoc s k l (toBytes n v.toNat)

/-- An operation performed where it landed: the value for its destination (R326, R358, R435). -/
def performAt (s : State) (k : Nat) (kind : OpKind) (op2 : Word) (l : Loc) : Word × State :=
  match kind with
  | .load n sgn box =>
    let (bs, s) := readLoc s k l n
    (extend n sgn box bs, s)
  | .store n => (0, storeAt s k l n op2)
  | .amo op n =>
    let s := atomicReady s k l
    let old := readHome s k l n
    (extend n true false old, writeHome s k l (toBytes n (amoResult op n (ofBytes old) op2.toNat)))
  | .lr n =>
    let s := atomicReady s k l
    (extend n true false (readHome s k l n), { unreserve s k with resvs := (unreserve s k).resvs ++ [(k, locKey (partOf s k) l, n)] })
  | .sc n =>
    let s := atomicReady s k l
    if reserved s k l n then (0, unreserve (writeHome s k l (toBytes n op2.toNat)) k)
    else (1, unreserve s k)
  | .casx n rd1 e v =>
    let s := atomicReady s k l
    let old := ofBytes (readHome s k l n)
    let s := if old = e then writeHome s k l (toBytes n v) else s
    (w64 old, if rd1 = 0 then s else modThr s k fun t => setReg t rd1 (w64 (old / 2 ^ 64)))
  | .cbo w => (0, performCbo s k w l)
  | .ringWrite rec =>
    let tid := (thr s k).tid
    let s := match l with | .mem pa _ => wrBytes s k pa (rec.flatMap fun v => toBytes 8 v.toNat) | .scr _ _ _ _ => s
    (0, modPart s (partOf s k) fun q => { q with rings := q.rings.filter fun x => !(x.1 = tid && x.2.2.2 = rec) })
  | .bwait _ _ | .csr _ _ _ _ => (0, s)

/-- The address an operation accesses: a cache-block operation's line. -/
def opAddr (kind : OpKind) (va : Word) : Word :=
  match kind with | .cbo _ => va &&& ~~~ 63#64 | _ => va

/-- An operation that may not be performed: a cache-block management operation's load fault counts as a store's. -/
def opFlt (kind : OpKind) (f : Flt) : Flt :=
  match kind, f with
  | .cbo _, .cause 0x09 va => .cause 0x0A va
  | _, f => f

/-- An access that only a coherent page outside scratch admits (R207, R209): a queue's header, ring and records, and a join
block. For a write the line's copies in other packages are invalidated first (R485). -/
def coherentReach (s : State) (k : Nat) (va : Word) (n : Nat) (acc : Acc) : Except Flt Loc × State :=
  match reach s k va n acc false with
  | (.ok (.mem pa pat), s) =>
    if bits pat 5 4 = 0 then (.ok (.mem pa pat), if acc = .store then invalidate (pin s (partOf s k) pat pa) pat pa else pin s (partOf s k) pat pa)
    else (.error (.cause 0x0B va), s)
  | (.ok (.scr _ _ _ _), s) => (.error (.cause 0x0B va), s)
  | (.error f, s) => (.error f, s)

/-- Where an operation of a thread lands (R209, R501). -/
def opReach (s : State) (k : Nat) (kind : OpKind) (va : Word) : Except Flt Loc × State :=
  match kind with
  | .ringWrite _ => coherentReach s k va (opSize kind) .store
  | kind => reach s k va (opSize kind) (opAcc kind) (opChecked kind)

/-- An operation at a virtual address, reached and performed at once (R501). -/
def performNow (s : State) (k : Nat) (kind : OpKind) (va op2 : Word) : Except Flt Word × State :=
  match reach s k (opAddr kind va) (opSize kind) (opAcc kind) (opChecked kind) with
  | (.error f, s) => (.error (opFlt kind f), s)
  | (.ok l, s) => let (v, s) := performAt s k kind op2 l; (.ok v, s)

/-- The kind of a load. -/
def loadKind (op : LoadOp) : OpKind :=
  match op with
  | .lb => .load 1 true false | .lh => .load 2 true false | .lw => .load 4 true false | .ld => .load 8 false false
  | .lbu => .load 1 false false | .lhu => .load 2 false false | .lwu => .load 4 false false
  | .flw => .load 4 false true | .fld => .load 8 false false

/-- Address of a base register and an offset. -/
def baseAddr (t : Thread) (rs1 : BitVec 5) (imm : BitVec 12) : Word := getX t rs1 + imm.signExtend 64

/-! A handler's accesses (R411, R420-R423). -/

/-- The running invocation and the binding of its slot. -/
def running? (s : State) (x : Nat) : Option (Invocation × CobBind) :=
  (slice s x).run.bind fun r => (binding? (slice s x) r.ev.set).map fun b => (r, b)

/-- Cycles added to the count of an invocation; at BUDGET it aborts with reason 1, and the instruction that was issuing
is the one reported (R422). -/
def cobCharge (s : State) (x n : Nat) : State :=
  match running? s x with
  | none => s
  | some (r, b) =>
    let budget := if b.budget = 0 then 512 else b.budget
    let c := min budget (r.cycles + n)
    let s := modSlice s x fun sl => { sl with run := some { r with cycles := c } }
    if r.cycles + n < budget then s
    else cobAbort (modThr s (cobKey x) fun t => { t with pc := s.cur.pc }) x 1

/-- The cycle of an instruction that retires in the cycle in which it issues (R422, `cdone`). -/
def cobTick (s : State) (x : Nat) : State :=
  modSlice s x fun sl => { sl with run := sl.run.map fun r => { r with cycles := r.cycles + 1 } }

/-- Cycles beyond the first of an instruction of a cobbler core; nothing on another core. -/
def extraCycles (s : State) (k n : Nat) : State := if isCob k && n ≠ 0 then cobCharge s (k - 0x20_0000) n else s

/-- A line of the own slice becomes held at its first access (R420): the invocation, and whether it is the first; none
for a ninth line. -/
def holdLine (r : Invocation) (line : Nat) : Option (Invocation × Bool) :=
  if r.lines.contains line then some (r, false)
  else if r.held.any fun (l, _) => l = line then some ({ r with lines := r.lines ++ [line] }, true)
  else if r.held.length ≥ 8 then none
  else some ({ r with held := r.held ++ [(line, [])], lines := r.lines ++ [line] }, true)

/-- A line that the invocation does not hold is held for a queued fill or eviction event of the slice (R420). -/
def queuedLine (sl : Slice) (r : Invocation) (line : Nat) : Bool :=
  !(r.held.any fun (l, _) => l = line) && sl.queue.any fun e => (e.code = 1 || e.code = 2) && e.pa / 64 = line

/-- A byte as the invocation sees it: its private value in a held line, else memory's (R420). -/
def cobByte (s : State) (r : Invocation) (pa : Nat) : Byte :=
  match r.held.find? fun (l, _) => l = pa / 64 with
  | some (_, m) => (mget? m (pa % 64)).getD (Memory.byte s.mem pa)
  | none => Memory.byte s.mem pa

/-- Private values written into a held line (R420). -/
def cobPut (r : Invocation) (pa : Nat) (bs : List Byte) : Invocation :=
  { r with held := r.held.map fun (l, m) =>
      if l = pa / 64 then (l, (List.range bs.length).foldl (fun m i => mput m (pa % 64 + i) (bs.getD i 0)) m) else (l, m) }

/-- The cycles of a first access to a line of the own slice, or of a load at another home, beyond the first (R422): 10 for the line that
a fill event has just installed; for another line also the wait for its fill, for copies to be recalled or for the remote home,
none of which the spec promises, as a free number. -/
def lineCycles (s : State) (r : Invocation) (pa : Nat) (own : Bool) : Nat × State :=
  if own && r.ev.code = 1 && r.ev.pa / 64 = pa / 64 then (10, s) else let (n, s) := freshNat s; (10 + n, s)

/-- The outcome of a handler's access: bytes with the cycles beyond the first, an abort by its reason, or a wait. -/
inductive CobRes
  | ok (bs : List Byte) (cyc : Nat)
  | abort (reason : Nat)
  | wait
  deriving DecidableEq, Repr

/-- A handler's load (`data` empty) or store of n bytes at an address (R411, R420-R423). -/
def cobAccess (s : State) (x : Nat) (va : Word) (n : Nat) (store : Bool) (data : List Byte) : CobRes × State :=
  match running? s x with
  | none => (.wait, s)
  | some (r, b) =>
    let a := va.toNat
    if a % n ≠ 0 then (.abort 5, s)
    else if a < 0x1_0000 then
      if a + n > b.slen * 1024 then (.abort 2, s)
      else
        let off := b.soff * 1024 + a
        if poisoned s (sramAt x off) n then (.abort 8, s)
        else if store then
          (.ok [] 0, modSlice s x fun sl =>
            { sl with region := (List.range n).foldl (fun m i => mset 0 m (off + i) (data.getD i 0)) sl.region })
        else (.ok ((span off n).map fun i => mget 0 (slice s x).region i) 0, s)
    else if a < b.vabase || a + n > b.vabase + 2 ^ b.wsize then (.abort 2, s)
    else
      let acc : Acc := if store then .store else .load
      if xlatWaits s (ctxOf s (cobKey x) acc) va acc then (.wait, s)
      else match translate s (ctxOf s (cobKey x) acc) va acc with
      | (.error code, s') =>
        (.abort 3, match (if code = 0x0B then refusedAt s (ctxOf s (cobKey x) acc) va acc else none) with
          | some pa => errRecord s' { kind := 0, part := b.part, req := 2, pa := pa, tid := 0 }
          | none => s')
      | (.ok (pa, pat), s) =>
        if bits pat 3 2 = 3 then (.abort 3, s)
        else if !inRange s b.part pa then (.abort 3, errRecord s { kind := 0, part := b.part, req := 2, pa := pa, tid := 0 })
        else if homeSlice s pa = x then
          if queuedLine (slice s x) r (pa / 64) then (.wait, s)
          else match holdLine r (pa / 64) with
          | none => (.abort 7, s)
          | some (r, first) =>
            if poisoned s pa n then (.abort 8, s)
            else
              let s := if first then freeEvict s (pa / 64) else s
              let bs := (span pa n).map (cobByte s r)
              let (c, s) := if first then lineCycles s r pa true else (1, s)
              let r := if store then cobPut r pa data else r
              (.ok bs c, modSlice (pin s b.part pat pa) x fun sl => { sl with run := some r })
        else if store then (.abort 6, s)
        else if lineHeld s (cobKey x) pa n || !homeOpen s (x / 64) pa then (.wait, s)
        else if poisoned s pa n then (.abort 8, s)
        else
          let (c, s) := lineCycles (freeEvict s (pa / 64)) r pa false
          (.ok (rdBytes s pa n) c, pin s b.part pat pa)

end Sys2Proof.Machine
end

