-- ==== Sys2Proof/Machine/SyncOps.lean ====
section
/-! DEFINITION. Sync entries: credits, waits, phases, wakes and abandoned waits (R195, R218-R223, R226, R228, R230-R232,
R235, R346). -/

namespace Sys2Proof.Machine

/-! Entries. -/

/-- An entry of a team. -/
def syncOf (t : Team) (n : Nat) : SyncEntry := mget {} t.syncs n

/-- Sets an entry of a team. -/
def setSync (s : State) (p asid num n : Nat) (e : SyncEntry) : State :=
  modTeam s p asid num fun t => { t with syncs := mset {} t.syncs n e }

/-! Waits. -/

/-- The waiting instruction of a thread completes with a scalar result, and the thread may go on. -/
def finishWait (s : State) (k : Nat) (v : Word) : State :=
  modThr s k fun t =>
    let inj := match t.wait with | .barrier _ _ 2 => true | _ => false
    let t' :=
      if inj then
        { (if t.ww.w then t else setReg t t.ww.d.toNat v) with
          ops := t.ops.filter fun p => match p.kind with | .bwait _ _ => false | _ => true }
      else endWord t.ww v t
    { t' with st := if t.st = .blocked then .ready else t.st, wait := .none, wus := 0, age := s.cycle }

/-- A thread waits in an instruction whose word is kept for its completion; a hart stalls. -/
def blockOn (s : State) (k : Nat) (w : Wide) (wt : Wait) : State :=
  modThr s k fun t => { t with st := if isSimt k then .blocked else t.st, wait := wt, ww := w, wus := 0 }

/-- The word of the `bwait` that stands for what is left of a `barw` (R232). -/
def bwaitBits (w : Wide) : Word := wideWord 0x4D { w with s1 := 0, h := false }

/-- The keys of a team's resident members, in ascending team index. -/
def residents (t : Team) : List Nat :=
  (t.members.filter fun (_, m) => m.loc = .here).map fun (i, _) => memberKey t i

/-- The indices of a team's live real threads (R156). -/
def liveReal (t : Team) : List Nat := (t.members.filter fun (i, _) => posContrib t i).map (·.1)

/-! Semaphores and phases. -/

/-- WakeSem (R228): the oldest waiters whose amounts fit are granted in turn. -/
def wakeSemGo (s : State) (p asid num n : Nat) : List (Nat × Nat) → State
  | [] => s
  | (i, amt) :: ws =>
    let t := team s p asid num
    let e := syncOf t n
    let k := memberKey t i
    if (thr s k).st = .blocked && amt ≤ e.value then
      let v := e.value - amt
      let s := setSync s p asid num n { e with value := v, waiters := ws }
      wakeSemGo (finishWait s k (w64 v)) p asid num n ws
    else s

/-- WakeSem of an entry. -/
def wakeSem (s : State) (p asid num n : Nat) : State := wakeSemGo s p asid num n (syncOf (team s p asid num) n).waiters

/-- A wait is abandoned (R151, R232): nothing it would have acquired is taken. What remains of a `barw` is held as a
replay entry, and a semaphore's next waiter is examined (R228). -/
def abandonWait (s : State) (k : Nat) : State :=
  let t := thr s k
  let p := partOf s k
  let asid := asidK s k
  let s := match t.wait with
    | .sem n _ =>
      modTeam s p asid t.team fun m =>
        { m with syncs := mset {} m.syncs n { syncOf m n with waiters := (syncOf m n).waiters.filter fun (i, _) => i ≠ t.tidx } }
    | .admission => modPart s p fun q => { q with admissions := q.admissions.filter fun r => r.key ≠ k }
    | _ => s
  let sem := match t.wait with | .sem n _ => some n | _ => none
  let s := modThr s k fun t =>
    let t : Thread := match t.wait with
      | .barrier n tok 1 =>
        { t with
          held := t.held ++ [{ pc := t.pc, bits := bwaitBits t.ww, op1 := tok, op2 := 0, kind := .bwait n (bits tok 15 0)
                               rd := if t.ww.w then 0 else t.ww.d.toNat, sent := false, value := 0 }]
          pc := t.pc + 8, chain := chainLeft t.chain }
      | _ => t
    { t with
      wait := .none, wus := 0, st := if t.st = .blocked then .ready else t.st, age := if t.st = .blocked then s.cycle else t.age
      holdTill := match t.wait with | .pushRetry _ => none | _ => t.holdTill }
  match sem with | some n => wakeSem s p asid t.team n | none => s

/-- Every arrival that an entry needs has been made (R226). -/
def phaseDone (t : Team) (e : SyncEntry) : Bool :=
  (e.expect ≠ 0 && e.arrived ≥ e.expect) || (e.expect = 0 && (liveReal t).all fun i => mget false t.arr i)

/-- Waiters of an entry whose phase has changed become ready (R226, R230). -/
def wakeBarrier (s : State) (p asid num n : Nat) : State :=
  let t := team s p asid num
  let ph := (syncOf t n).phase
  (residents t).foldl (fun s k =>
    match (thr s k).wait with
    | .barrier m x _ => if m = n && bits x 15 0 ≠ ph && (thr s k).st = .blocked then finishWait s k (w64 ph) else s
    | _ => s) s

/-- CompletePhase (R226), which starts a sweep of the race tags (R346). -/
def completePhase (s : State) (p asid num n : Nat) : State :=
  let s := modTeam s p asid num fun t =>
    let e := syncOf t n
    let t := { t with syncs := mset {} t.syncs n { e with phase := (e.phase + 1) % 65536, arrived := 0 } }
    if e.tb then { t with arr := [], phase := (t.phase + 1) % 2 ^ 64, heldPhase := none, sweep := t.tags ≠ [] } else t
  wakeBarrier s p asid num n

/-- CheckPhase (R226); a phase of the team barrier waits for the sweep of the race tags (R346). -/
def checkPhase (s : State) (p asid num n : Nat) : State :=
  let t := team s p asid num
  let e := syncOf t n
  if e.kind = 2 && phaseDone t e && e.pend = 0 then
    if e.tb && t.sweep then modTeam s p asid num fun t => { t with heldPhase := some n } else completePhase s p asid num n
  else s

/-- The team's barrier entry, if it has one (R220). -/
def teamBarrier (t : Team) : Option Nat := (t.syncs.find? fun (_, e) => e.tb).map (·.1)

/-- A live entry is credited, and what waits on it is examined (R222, R223). -/
def creditLive (s : State) (p asid num n bytes path : Nat) : State :=
  let s := setSync s p asid num n (creditEntry (syncOf (team s p asid num) n) bytes path)
  checkPhase (wakeSem s p asid num n) p asid num n

/-! Where credits and flags land (R195). -/

/-- Offset of a thread's frame in the team frame (R196). -/
def memberOff (i : Nat) : Nat := 0x3000 + 1024 * i

/-- Flags of an asynchronous operation (FFLAGS, sticky bits from bit 5) on a thread. -/
def giveFlagsTo (fl : Nat) (t : Thread) : Thread := addSticky (addFlags t (fl % 32)) (fl / 32)

/-- The same in a thread's frame. The operation's die writes them. -/
def flagsInFrame (s : State) (die fr fl : Nat) : State :=
  let all : Word := 0xFFFF_FFFF_FFFF_FFFF
  postBits (postBits s die (fr + 0x208) all (w64 (fl % 32))) die (fr + 0x280) all (w64 (fl / 32 % 8))

/-- A hart that runs a thread of a team index; none that it has left (R135). -/
def hartOfMember (s : State) (p asid num i : Nat) : Option Nat :=
  (s.threads.find? fun (k, t) => isHart k && !t.away && partOf s k = p && asidK s k = asid && t.team = num && t.tidx = i).map (·.1)

/-- A landing in a live team: a member on the latency side has its flags in the hart that runs it, else in its frame. -/
def landLive (s : State) (p asid num : Nat) (l : Landing) : State :=
  let s := match l.entry with | some n => creditLive s p asid num n l.bytes l.path | none => s
  let t := team s p asid num
  if l.flags = 0 then s
  else match (member t l.tidx).loc with
    | .here => modThr s (memberKey t l.tidx) (giveFlagsTo l.flags)
    | .away => match hartOfMember s p asid num l.tidx with
      | some k => modThr s k (giveFlagsTo l.flags)
      | none => flagsInFrame s t.die (member t l.tidx).frame l.flags
    | _ => s

/-- A landing in a team frame (R195, R222): only VALUE, PEND, OVF and the row counts change. Flags are discarded when the issuer has
exited (R306). -/
def landImage (s : State) (t : Team) (l : Landing) : State :=
  let s := match l.entry with
    | some n => post s t.die (t.frame + 0x400 + 16 * n) (.credit l.bytes l.path)
    | none => s
  if l.flags = 0 || (member t l.tidx).loc = .gone then s else flagsInFrame s t.die (t.frame + memberOff l.tidx) l.flags

/-- A landing in the image of a team, whose load examines the entry (R222). Flags also reach the state that the core keeps of the
member (R199). -/
def landSaved (s : State) (t : Team) (l : Landing) : State :=
  modTeam (landImage s t l) t.part t.asid t.num fun t =>
    { t with
      touched := match l.entry with | some n => uniq (n :: t.touched) | none => t.touched
      kept := if l.flags = 0 then t.kept else t.kept.map fun (i, th) => (i, if i = l.tidx then giveFlagsTo l.flags th else th) }

/-- A landing where R195 puts it: live, in the image, held while the team loads, or nowhere. -/
def land (s : State) (p asid num serial : Nat) (l : Landing) : State :=
  match team? s p asid num with
  | none => s
  | some t =>
    if t.serial ≠ serial then s
    else match t.st with
    | .resident => landLive s p asid num l
    | .saving => if t.imageDone then landSaved s t l else landLive s p asid num l
    | .saved => landSaved s t l
    | .loading => modTeam s p asid num fun t => { t with late := t.late ++ [l] }
    | _ => s

/-! Queue waits (R217). -/

/-- RES, HEAD. -/
def qRes (h : List Word) : Word := dw h 1
@[inherit_doc qRes] def qHead (h : List Word) : Word := dw h 2

/-- Records reserved and not popped. -/
def qCount (h : List Word) : Nat := (qRes h - qHead h).toNat

/-- The eight doublewords of a header at its home. -/
def headerAt (s : State) (pa : Nat) : List Word := rdWords s pa 8

/-- Waiters of a queue are examined again (R217): a thread whose queue is not EMPTY goes on with RES − HEAD. -/
def evalQueue (s : State) (pa : Nat) : State :=
  let n := qCount (headerAt s pa)
  if n = 0 then s
  else s.threads.foldl (fun s (k, t) => if t.wait = .queue pa && t.st = .blocked then finishWait s k (w64 n) else s) s

/-- Every wait at a queue is examined again. -/
def evalQueues (s : State) : State :=
  (uniq (s.threads.filterMap fun (_, t) => match t.wait with | .queue pa => some pa | _ => none)).foldl evalQueue s

/-! Drains (R235). -/

/-- Operations of a drain that are outstanding. -/
def drainOpen (s : State) (copies rows laced : List Nat) : Bool :=
  (s.copies.any fun c => copies.contains c.id) || (s.rowOps.any fun r => rows.contains r.id) || s.laced.any fun l => laced.contains l.id

/-- Every `drain` whose operations are done completes. -/
def evalDrains (s : State) : State :=
  s.threads.foldl (fun s' (k, t) =>
    match t.wait with
    | .drain _ cs rs ls =>
      if t.st = .blocked && !drainOpen s' cs rs ls then finishWait s' k (w64 (min 0xFFFF (cs.length + rs.length + ls.length))) else s'
    | _ => s') s

/-- Every `lfence` whose operations are stamped completes (R404). -/
def evalLfences (s : State) : State :=
  s.threads.foldl (fun s' (k, t) =>
    match t.wait with
    | .lfence n =>
      if (t.st = .blocked || isHart k) && !(s'.laced.any fun l => l.tid = t.tid && l.part = partOf s' k && l.id < n) then finishWait s' k 0 else s'
    | _ => s') s

/-! Lace waits (R395, R396, R401, R403). -/

/-- `hlace` for a handle and a REASON (R396). -/
def hlaceWord (h : Word) (reason : Nat) : Word := w64 (bits h 15 0 * 2 ^ 48 + bits h 27 16 * 2 ^ 36 + reason * 2 ^ 33)

/-- Reached(a, n) (R403). -/
def reached (a n : Nat) : Bool := (a + 2 ^ 48 - n) % 2 ^ 48 < 2 ^ 47

/-- A thread that waits in a lace instruction takes cause 0x15. -/
def laceWaitTrap (s : State) (k reason : Nat) : State :=
  let h := src (thr s k) (thr s k).ww.s1
  let w := (chainAt s k).1.1.headD ⟨(thr s k).pc, 0, 8⟩
  raiseTrap (abandonWait s k) k { code := 0x15, insn := w.bits, addr := w.addr, hlace := some (hlaceWord h reason) } .load

/-- The REASON with which a wait at an eyelet under its join numbered `j` ends (R395, R396, R407): it has left since, or it is STALE. -/
def eyeGone (y : Eyelet) (j : Nat) : Option Nat :=
  if y.st = 0 || y.joins ≠ j then some 2 else if y.st = 3 then some y.reason else none

/-- Every `lwait` and `lamo` is examined: its target is reached, or its eyelet is STALE or gone. A halted thread waits on. -/
def evalLaces (s : State) : State :=
  s.threads.foldl (fun s (k, t) =>
    match t.wait with
    | .lace e n j =>
      if isSimt k && t.st ≠ .blocked then s
      else match eyeGone (eyelet s e) j with
      | some r => laceWaitTrap s k r
      | none => if reached (eyelet s e).applied n then finishWait s k (w64 (eyelet s e).applied) else s
    | .lamo e _ => match eyeGone (eyelet s e) (eyelet s e).joins with | some r => laceWaitTrap s k r | none => s
    | _ => s) s

end Sys2Proof.Machine
end

