-- ==== Sys2Proof/Machine/Thread.lean ====
section
/-! DEFINITION. Threads: creation, migration, exit, loading, return postings, calls and signals, and their memory
operations once issued (R120-R155, R363, R434, R435, R438, R442, R501). -/

namespace Sys2Proof.Machine

/-! Slots, tids and helpers. -/

/-- L4 of a descriptor (R177). -/
def Desc.l4 (d : Desc) : Nat := (d.limit + 3) / 4 * 4

/-- Slots of a core that are reserved for team indices. -/
def reservedSlots (s : State) (c : Nat) : List Nat :=
  (s.teams.filter fun t => placed t && teamCore t = c).flatMap fun t => (List.range t.desc.l4).map (memberKey t)

/-- Idle user slots of a core, by ascending lane, then slot (R211). -/
def idleSlots (s : State) (c : Nat) : List Nat :=
  let res := reservedSlots s c
  ((List.range 64).flatMap fun l => (List.range 15).map fun i => 1024 * c + 16 * l + i).filter fun k =>
    !occupied s k && !res.contains k && !(s.held.any fun h => h.2.2 = k)

/-- A new tid for a thread that hardware creates (R128): bit 31 set, not 0xFFFF_FFFF, not given before; otherwise free. -/
def newTid (s : State) (p : Nat) : Nat × State :=
  let used := (part s p).tids
  let n := 2 ^ 31 - 1
  let c := Config.freeNat s.freeIdx
  let i := ((List.range (used.length + 1)).find? fun j => !used.contains (2 ^ 31 + (c + j) % n)).getD 0
  let tid := 2 ^ 31 + (c + i) % n
  (tid, modPart { s with freeIdx := s.freeIdx + 1 } p fun q => { q with tids := tid :: q.tids })

/-- The tid of every helper (R153). -/
def helperTid : Nat := 0xFFFF_FFFF

/-- The frame of a team index made by hardware (R176). -/
def indexFrame (t : Team) (i : Nat) : Nat := t.desc.frames + 1024 * i

/-- NewThread (R140, R153): a thread or a helper at an index of a resident team. -/
def newThread (s : State) (p asid num i : Nat) (start arg hvec satp : Word) (helper : Bool) : State :=
  let t := team s p asid num
  let (tid, s) := if helper then (helperTid, s) else newTid s p
  let th : Thread :=
    { part := p, satp := satp, st := if t.halt then .halted else .ready, before := .ready
      x := mset 0 (mset 0 [] 10 (w64 i)) 11 arg, pc := start, lfsr := seedOf tid, trap := { hvec := hvec }
      tid := tid, team := num, tidx := i, gangw := t.desc.gw, helper := helper, frame := indexFrame t i, age := s.cycle }
  modMember (setThr s (memberKey t i) th) p asid num i fun _ => { loc := .here, helper := helper, frame := indexFrame t i }

/-- Indices that need a helper (R153): from the thread count up to the next multiple of four, where none stands. -/
def helperIdx (t : Team) : List Nat :=
  (span t.count ((t.count + 3) / 4 * 4 - t.count)).filter fun i => (member t i).loc = .absent0

/-- Helpers after a spawn (R153). -/
def spawnHelpers (s : State) (p asid num : Nat) (start arg hvec satp : Word) : State :=
  (helperIdx (team s p asid num)).foldl (fun s i => newThread s p asid num i start arg hvec satp true) s

/-- Helpers after a join (R153): copies of the joiner. -/
def joinHelpers (s : State) (p asid num : Nat) (j : Thread) : State :=
  (helperIdx (team s p asid num)).foldl (fun s i =>
    let t := team s p asid num
    let th := { j with tidx := i, helper := true, tid := helperTid, frame := indexFrame t i, sigpend := false, pend0E := none, pend16 := none }
    modMember (setThr s (memberKey t i) th) p asid num i fun _ => { loc := .here, helper := true, frame := indexFrame t i }) s

/-- The helpers of a quad retire when its real members have all exited (R155). -/
def retireHelpers (s : State) (p asid num quad : Nat) : State :=
  let t := team s p asid num
  let ix := span (4 * quad) 4
  let real := ix.filter fun i => !(member t i).helper && (member t i).loc ≠ .absent0
  if real.all fun i => (member t i).loc = .gone then
    (ix.filter fun i => (member t i).helper).foldl (fun s i =>
      modMember (dropThr s (memberKey t i)) p asid num i fun _ => {}) s
  else s

/-- A team index has ceased to be live (R155, R162, R226): helpers may retire, the team barrier may complete, the gang may
converge. In a team that is not on its core this is examined when it is loaded. -/
def afterLeave (s : State) (p asid num i : Nat) : State :=
  let t := team s p asid num
  if t.st ≠ .resident && t.st ≠ .saving then s
  else
  let s := retireHelpers s p asid num (i / 4)
  let t := team s p asid num
  let s := match teamBarrier t with
    | some n => if (syncOf t n).expect = 0 then checkPhase s p asid num n else s
    | none => s
  gangEval s p asid num (i / max 1 t.desc.gw)

/-- The arrival bit of an index that exits is cleared where the team barrier needs every live thread (R226). -/
def forgetArrival (t : Team) (i : Nat) : Team :=
  match teamBarrier t with
  | some n => if (syncOf t n).expect = 0 then { t with arr := mset false t.arr i false } else t
  | none => t

/-- A real member exits (R139, R226). What its exit does to the team barrier of a team that is on no core is examined at the load. -/
def memberExit (s : State) (p asid num i : Nat) : State :=
  if num = 0 || (team? s p asid num).isNone then s
  else
    let s := modTeam s p asid num fun t =>
      let t := { t with members := mset {} t.members i { member t i with loc := .gone } }
      if t.st = .resident || t.st = .saving then forgetArrival t i else { t with exits := t.exits ++ [i] }
    afterLeave s p asid num i

/-! mig (R131-R136). -/

/-- KIND of a placement handle (R130). -/
def hKind (h : Word) : Nat := bits h 63 62

/-- A reserved bit of a handle is set, or its KIND is 3 (R130, R132). -/
def badHandle (h : Word) : Bool :=
  hKind h = 3 || bits h 61 32 ≠ 0 || (hKind h = 1 && bits h 31 3 ≠ 0) || (hKind h = 2 && bits h 31 0 ≠ 0)

/-- The thread of a key is a task thread: on a SIMT core by its record, on a hart by the slot held for it (R212). -/
def isTask (s : State) (k : Nat) : Bool :=
  if isHart k then s.held.any fun h => h.1 = partOf s k && h.2.1 = (thr s k).tid else (thr s k).task

/-- The thread is a resident supervisor (R442). -/
def isRsv (k : Nat) : Bool := isSimt k && slotOf k = 15

/-- AtPlace (R131). -/
def atPlace (k : Nat) (t : Thread) (h : Word) : Bool :=
  match hKind h with
  | 0 => isSimt k && t.team ≠ 0 && t.team = bits h 31 0
  | 1 => isSimt k && t.team = 0 && (bit h 2 || bits h 1 0 = dieOf k)
  | _ => isHart k

/-- HandleCheck (R132, R212). A resident supervisor's move is refused with status 4 (log 21). -/
def handleCheck (s : State) (k : Nat) (h : Word) : Nat :=
  let t := thr s k
  let p := partOf s k
  let num := bits h 31 0
  let other := match hKind h with
    | 0 => (t.team ≠ 0 && t.team ≠ num) || isTask s k
    | 1 => t.team ≠ 0 || (isTask s k && isSimt k && !(bit h 2 || bits h 1 0 = dieOf k))
    | _ => false
  if badHandle h then 5
  else if other || (isRsv k && !atPlace k t h) then 4
  else match hKind h with
  | 0 =>
    match team? s p (asidK s k) num with
    | none => 2
    | some m =>
      if num = 0 || m.st ≠ .resident then 2
      else if t.team ≠ num && m.count ≥ m.desc.limit then 1
      else 0
  | 1 => if !bit h 2 && !ownsDie s p (bits h 1 0) then 3 else 0
  | _ => 0

/-- A helper that stands at an index where a real thread is created is discarded (R155). -/
def dropHelper (s : State) (t : Team) (i : Nat) : State :=
  if (member t i).helper then modMember (dropThr s (memberKey t i)) t.part t.asid t.num i fun _ => {} else s

/-- Deliver (R134) of a frame written in partition p: it travels to a team or a die, or joins the return queue's postings. A thread that
joins takes the next index. -/
def deliverFrame (s : State) (p : Nat) (t : Thread) (fr : Nat) (satp : Word) (task : Option Nat) (h : Word) : State :=
  let asid := asidOf satp
  let base : Transit :=
    { frame := fr, part := p, satp := satp, kind := hKind h, target := 0, team := t.team, tidx := t.tidx, serial := 0
      task := task, signal := t.sigpend, tid := t.tid }
  match hKind h with
  | 0 =>
    let num := bits h 31 0
    let m := team s p asid num
    if t.team = num then { s with transits := s.transits ++ [{ base with target := num, serial := m.serial }] }
    else
      let s := dropHelper s m m.count
      let s := modTeam s p asid num fun m =>
        { m with count := m.count + 1, members := mset {} m.members m.count { loc := .away, helper := false, frame := fr } }
      { s with transits := s.transits ++ [{ base with target := num, team := 0, tidx := m.count, serial := m.serial }] }
  | 1 => { s with transits := s.transits ++ [{ base with target := if bit h 2 then 4 else bits h 1 0, serial := (team s p asid t.team).serial }] }
  | _ => postReturn s p fr 0

/-- The status word of a frame that a hart writes keeps AUTO_RETURN, SIGPEND and CAUSE as the frame in memory has them; the spec does
not say what CAUSE it holds (log 36). -/
def hartFrameThread (s : State) (k : Nat) : Thread :=
  let h := hart s k
  let fr := h.tframe.toNat
  let st := rdWord s fr
  { thr s k with frame := fr, autoRet := bit st 23, sigpend := bit st 22, held := [], reth := 0, cause := bits st 15 8 }

/-- `mig` on one thread (R131-R136). Its frame has RQN = 0 (R125): what a handler holds for `hret` stays behind and is gone. The address
of the fault at a frame that lies outside the ranges R136 does not name: 0 in `hfva` on a SIMT thread, the frame's physical address in
the trap value of a hart (log 36). -/
def migOne (w : Wide) (s : State) (k : Nat) : State :=
  let t := thr s k
  let h := src t w.s1
  let st := handleCheck s k h
  if st ≠ 0 then setThr s k (endWord w (w64 st) t)
  else if t.helper || atPlace k t h then setThr s k (endWord w 0 t)
  else if isHart k then
    let t0 := hartFrameThread s k
    if !inRanges s (partOf s k) t0.frame 1024 then hartTrap s k false 7 (w64 t0.frame) t.pc
    else match recordHeld s k t0.frame 8 with
    | some s => s
    | none =>
      let t1 := endWord w 0 t0
      let s := stowLate (writeFrame s k { t1 with st := .migrating } .migrating) (partOf s k) t
      let task := (s.held.find? fun x => x.1 = partOf s k && x.2.1 = t.tid).map (·.2.2)
      let s := deliverFrame s (partOf s k) t1 t0.frame (satpOf s k) task h
      let s := modThr s k fun t => { endWord w 0 t with pc := t.pc, pend0E := none, pend16 := none, away := true }
      hartTrap s k false 25 (w64 t0.frame) t.pc
  else if !inRanges s t.part t.frame 1024 then raise s k 0x0B 0 .store
  else
    let t1 := { endWord w 0 t with st := .migrating, reth := 0, held := [] }
    let s := writeFrame (setThr s k t1) k t1 .migrating
    let s := leaveSlot s k
    deliverFrame s t.part t1 t.frame t.satp (if t.task then some k else none) h

/-- `mig` (R131). A helper of the group whose index a join has taken (R155) executes none. -/
def execMig (w : Wide) (s : State) : Host.Outcome State Fault Refusal :=
  .next (forKeys s fun s k => if occupied s k then migOne w s k else s)

/-! texit (R139, R155). -/

/-- A helper stops (R155). -/
def stopHelper (s : State) (k : Nat) : State :=
  let t := thr s k
  let s := setThr s k { t with st := .exited, stopped := true, wait := .none }
  let s := modMember s t.part (asidOf t.satp) t.team t.tidx fun m => { m with stopped := true }
  afterLeave s t.part (asidOf t.satp) t.team t.tidx

/-- EndThread (R139, R215): the end of a thread on a SIMT core with an exit value. -/
def endThread (s : State) (k : Nat) (v : Word) : State :=
  let t := thr s k
  let p := t.part
  let asid := asidOf t.satp
  let s := { s with resvs := s.resvs.filter fun r => r.1 ≠ k }
  let s := if t.helper then s else noteEnded s p [t]
  if t.helper then stopHelper s k
  else if t.task then dropThr s k
  else
    let t1 := { setX t 10 v with st := .exited, wait := .none, held := [] }
    let s := writeFrame (setThr s k t1) k t1 .exited
    memberExit (postReturn (dropThr s k) p t.frame 3) p asid t.team t.tidx

/-- The exit of a thread on a hart (R135, R139). -/
def exitOnHart (s : State) (k : Nat) (v : Word) : State :=
  let t0 := hartFrameThread s k
  if !inRanges s (partOf s k) t0.frame 1024 then hartTrap s k false 7 (w64 t0.frame) (thr s k).pc
  else match recordHeld s k t0.frame 8 with
  | some s => s
  | none =>
    let s := writeFrame s k { setX t0 10 v with st := .exited } .exited
    let s := { s with held := s.held.filter fun h => !(h.1 = partOf s k && h.2.1 = t0.tid) }
    let s := noteEnded s (partOf s k) [{ t0 with satp := satpOf s k }]
    let s := memberExit s (partOf s k) (asidK s k) t0.team t0.tidx
    hartTrap (modThr s k fun t => { t with away := true }) k false 26 (w64 t0.frame) (thr s k).pc

/-- `texit` (R139). A helper of the group that has retired with the quad's last real member (R155) executes none. -/
def execTexit (w : Wide) (s : State) : Host.Outcome State Fault Refusal :=
  .next (forKeys s fun s k =>
    let v := src (thr s k) w.s1
    if isHart k then exitOnHart s k v else if occupied s k then endThread s k v else s)

/-! tspawn (R140, R141, R153). -/

/-- `tspawn` on one thread (R140). -/
def spawnOne (w : Wide) (s : State) (k : Nat) : State :=
  let t := thr s k
  let p := t.part
  let asid := asidOf t.satp
  match teamK? s k with
  | none => raise s k 0x05 0 .load
  | some m =>
    let start := src t w.s1
    let n := (src t w.s2).toNat
    let arg := src t w.s3
    if t.helper then setThr s k (endWord w (w64 m.count) t)
    else if bit start 0 then setThr s k (endWord w (stw 2) t)
    else if n > m.desc.limit - m.count then setThr s k (endWord w (stw 1) t)
    else
      let s := (span m.count n).foldl (fun s i =>
        newThread (dropHelper s (team s p asid m.num) i) p asid m.num i start arg t.trap.hvec t.satp false) s
      let s := modTeam s p asid m.num fun m => { m with count := m.count + n }
      let s := if n = 0 then s else spawnHelpers s p asid m.num start arg t.trap.hvec t.satp
      modThr s k (endWord w (w64 m.count))

/-- `tspawn` (R140): requests of one group in ascending lane order. A helper of the group whose index a request gave to a real thread
is retired (R155) and executes no request. -/
def execTspawn (w : Wide) (s : State) : Host.Outcome State Fault Refusal :=
  .next (forKeys s fun s' k => if (thr s k).helper && !(thr s' k).helper then s' else spawnOne w s' k)

/-! Loading a frame (R134). -/

/-- A thread as it arrives from its frame at a destination (R122-R126, R134). Where software has written the frame in flight R129 leaves
each line open, and what memory holds is loaded (log 36). -/
def arrival (s : State) (x : Transit) : Thread :=
  let l := readFrame s x.frame
  let t := loadFrameWords l
    { part := x.part, satp := dw l 87, tid := (dw l 82).toNat % 2 ^ 32, frame := x.frame, age := s.cycle, st := .ready, before := .ready
      task := x.task.isSome }
  let t := knowRings s { t with sigpend := t.sigpend || x.signal }
  reissue t

/-- The frame of a thread whose team is gone (R134): it joins the return queue's postings with REASON 4. -/
def refuseArrival (s : State) (x : Transit) : State :=
  let a := x.frame
  let d := homeDie s a
  let s := postBits s d a 0xFFFF_FFFF_FFEF_FFF0 0x10_0001
  postReturn (postWords s d (a + 0x298) [0, 0, 0, 0]) x.part a 4

/-- The transit at an index is over. -/
def dropTransit (s : State) (n : Nat) : State := { s with transits := s.transits.eraseIdx n }

/-- A frame loads into its team's reserved slot, or waits, or is refused (R134). -/
def loadMember (s : State) (n : Nat) (x : Transit) (k : Nat) : State :=
  let asid := asidOf x.satp
  match team? s x.part asid x.target with
  | none => refuseArrival (dropTransit s n) x
  | some m =>
    if m.serial ≠ x.serial || m.st = .held || m.st = .lost || m.st = .free then refuseArrival (dropTransit s n) x
    else if m.st ≠ .resident || memberKey m x.tidx ≠ k then s
    else
      let s := dropHelper (dropTransit s n) m x.tidx
      let t := arrival s x
      let t := { t with team := x.target, tidx := x.tidx, gangw := m.desc.gw, st := if m.halt then .halted else .ready }
      let s := modMember (takeLate (setThr s k t) k) x.part asid x.target x.tidx fun _ => { loc := .here, helper := false, frame := x.frame }
      if x.team = 0 then joinHelpers s x.part asid x.target t else s

/-- The lowest SIMT die of a partition that has an idle user slot (R134). -/
def anyDie (s : State) (p : Nat) : Option Nat :=
  ((coresOf s p).find? fun c => idleSlots s c ≠ []).map (· / 64)

/-- FRAME_LOAD (R134): the frame in transit at `idx` loads at the place named, when that is where it may load, and when its lines are free,
its own write among them, and their route is open (R420, R481). -/
def execFrameLoad (idx die cr lane slot : Nat) (s : State) : Host.Outcome State Fault Refusal :=
  let k := slotKey die cr lane slot
  .next (match s.transits[idx]? with
  | none => s
  | some x =>
    if poisoned s x.frame 1024 then eccRecord s x.part x.frame
    else if !postClear s die x.frame 1024 then s
    else if x.kind = 0 then loadMember s idx x k
    else
      let c := 64 * die + cr
      let ok : Bool := match x.task with
        | some k' => k = k'
        | none =>
          ownsCore s x.part c && decide (cr < 64) && (idleSlots s c).contains k &&
          (if x.target = 4 then anyDie s x.part = some die else decide (die = x.target))
      if ok then
        let s := dropTransit s idx
        let s := { s with held := s.held.filter fun h => h.2.2 ≠ k }
        takeLate (setThr s k (arrival s x)) k
      else s)

/-! The return queue (R137, R138). -/

/-- The size field of a ring, clamped (R137, R445). -/
def ringSize (v : Word) (hi : Nat) : Nat := 2 ^ max 4 (min hi (bits v 4 0))

/-- The hardware that posts records of a partition may write n bytes: no handler holds their line and no write to them is on its way (R420).
It stands at their home: the spec names no die from which it posts (log 37). -/
def ringClear (s : State) (a n : Nat) : Bool := postClear s (homeDie s a) a n

/-- RETURN_QUEUE_POST (R138): the oldest posting, when its frame is written and the ring has room. -/
def execReturnQueuePost (p : Nat) (s : State) : Host.Outcome State Fault Refusal :=
  .next (match (part s p).retPend with
  | [] => s
  | (fr, reason) :: rest =>
    let q := (part s p).retq
    let base := bits q 63 12 * 4096
    let n := ringSize q 20
    let tail := rdWord s (base + 8)
    if !inRanges s p base (0x40 + 8 * n) || !ringClear s base 64 then s
    else if poisoned s base 64 then eccRecord s p base
    else if (tail - rdWord s base).toNat ≥ n || !ringClear s (base + 0x40 + 8 * (tail.toNat % n)) 8 || !ringClear s fr 1024 then s
    else
      let s := modPart s p fun x => { x with retPend := rest }
      let s := if reason = 3 then s else wrWord s fr (setBits (rdWord s fr) 3 0 1)
      let s := wrWord s (base + 0x40 + 8 * (tail.toNat % n)) (w64 (fr / 16 * 16 + reason))
      msi (wrWord s (base + 8) (tail + 1)) (part s p).retmsi)

/-! Promotion, pause, calls and signals. -/

/-- THREAD_PROMOTION (R145): after 4096 cycles ready without issuing. -/
def execThreadPromotion (k : Nat) (s : State) : Host.Outcome State Fault Refusal :=
  .next (if isSimt k && (thr s k).st = .ready && (thr s k).wait = .none && (thr s k).age + 4096 ≤ s.cycle then
    modThr s k fun t => { t with promoted := true } else s)

/-- `pause` (R146); the former's part stands in the issue. -/
def execPause (s : State) : Host.Outcome State Fault Refusal := .next (forKeys s advance)

/-- The mailbox page of a SIMT core (R149). -/
def mailbox (s : State) (p c : Nat) : Nat := bits (part s p).mbox 63 12 * 4096 + 4096 * c

/-- A fast call's record position, when the call may be posted (R148, R149). -/
def mailRoom (s : State) (k : Nat) : Option Nat :=
  let t := thr s k
  let a := mailbox s t.part (coreOf k)
  let n := (getX t 17).toNat
  let tail := (rdWord s (a + 0x48)).toNat
  if n < 512 && inRanges s t.part a 4096 && bit (rdWord s (a + n / 64 * 8)) (n % 64)
      && (tail + 2 ^ 64 - (rdWord s (a + 0x40)).toNat) % 2 ^ 64 < 31 then some tail else none

/-- An uncorrectable error stands in the mailbox page that an `ecall` or `mbpost` needs (R454). -/
def mailBad (s : State) (p c : Nat) : Bool := inRanges s p (mailbox s p c) 4096 && poisoned s (mailbox s p c) 4096

/-- The mailbox page that an `ecall` or `mbpost` of a core's thread needs is held, or its route is closed (R420, R481). -/
def mailHeld (s : State) (k : Nat) : Bool :=
  let a := mailbox s (thr s k).part (coreOf k)
  inRanges s (thr s k).part a 4096 && !postClear s (dieOf k) a 4096

/-- `ecall` on a SIMT thread (R148): a mailbox record, or migration. It is held at an uncorrectable error (R454) and while the page is
(R420). A resident supervisor, which leaves its slot only by
`texit` (R442), is parked in place of a migration (log 21). -/
def ecallSimt (s : State) (k : Nat) : State :=
  let t := thr s k
  if t.helper then modThr s k fun t => { setX t 10 0 with pc := t.pc + w64 s.cur.len }
  else if (getX t 17).toNat < 512 && mailBad s t.part (coreOf k) then eccRecord s t.part (mailbox s t.part (coreOf k))
  else if (getX t 17).toNat < 512 && mailHeld s k then s
  else match mailRoom s k with
  | some n =>
    let a := mailbox s t.part (coreOf k)
    let r := a + 0x80 + 128 * (n % 31)
    let s := wrWords s r ([w64 t.tid, t.pc] ++ (List.range 8).map fun i => getReg t (10 + i))
    let s := wrWord s (a + 0x48) (w64 (n + 1))
    block (modThr s k fun t => { t with cause := 0x13 }) k (.mailbox (coreOf k) n)
  | none =>
    if isRsv k then parkThread s k { code := 0x13, insn := s.cur.bits, addr := s.cur.pc }
    else migrateOut s k 2

/-- `ecall` (R9, R148, R423). -/
def execEcall (s : State) : Host.Outcome State Fault Refusal :=
  .next (forKeys s fun s k =>
    if isHart k then hartTrap s k false (8 + (hart s k).mode.code) 0 (thr s k).pc
    else if isCob k then cobAbort s (k - 0x20_0000) 4
    else ecallSimt s k)

/-- SIGNAL_MIGRATION (R151): at an instruction boundary outside any chain. At a `mig` the `mig` executes instead, a cause of higher rank is
taken first (R432), and an operation of a handler that cannot be captured finishes first (R192, R438). -/
def execSignalMigration (k : Nat) (s : State) : Host.Outcome State Fault Refusal :=
  let t := thr s k
  .next (if isSimt k && occupied s k && t.st = .ready && t.wait = .none && t.sigpend && !t.chain.live && !isRsv k && !nextIsMig s k
      && t.chain.fp = none && t.pend0E = none && t.pend16 = none && canCapture t then migrateOut s k 1 else s)

/-- A tframe write on a hart (R127): the identity fields of the frame that it names; `hrace` and `hlace` read zero (R345, R396). What was pending for the thread that leaves
stays with it, and what waits for the new one becomes pending (R425, R453). -/
def tframeLoad (s : State) (k : Nat) (v : Word) : State :=
  let fr := bits v 63 10 * 1024
  if !inRanges s (partOf s k) fr 1024 then hartTrap s k false 5 (w64 fr) (thr s k).pc
  else
    let s := modHart s k fun h => { h with tframe := w64 fr }
    let s := stowLate s (partOf s k) (thr s k)
    let s := modThr s k fun t =>
      { t with
        pend0E := none, pend16 := none, away := false, pushHeld := []
        tid := (rdWord s (fr + 0x290)).toNat % 2 ^ 32, team := (rdWord s (fr + 0x298)).toNat % 2 ^ 32
        tidx := (rdWord s (fr + 0x2A0)).toNat % 1024, gangw := (rdWord s (fr + 0x2A8)).toNat % 128
        trap := { t.trap with hrace := 0, hlace := 0 } }
    takeLate s k

/-- A signal that a hart sends sets SIGPEND in the frame at an address. -/
def signalFrame (s : State) (k a : Nat) : State := postBits s (agentDie k) a 0xFFFF_FFFF_FFFF_FFFF 0x40_0000

/-- The member of a team away in an image, by tid (R151): the team and the index. -/
def savedMember (s : State) (p tid : Nat) : Option (Team × Nat) :=
  s.teams.findSome? fun t =>
    if t.part = p && (t.st = .saved || t.st = .loading || (t.st = .saving && t.imageDone)) then
      (t.kept.find? fun (_, th) => th.tid = tid && !th.helper).map fun (i, _) => (t, i)
    else none

/-- A signal finds a thread blocked (R151): its wait is abandoned and it migrates with the pc of the waiting instruction. A cause that
is pending for it, of higher rank, is taken first, and the signal waits at the next boundary (R432). -/
def signalBlocked (s : State) (k : Nat) : State :=
  let s := modThr (abandonWait s k) k fun t => { t with sigpend := true }
  let t := thr s k
  match t.chain.fp with
  | some (v, a) => raiseTrap (modThr s k fun t => { t with chain := { t.chain with fp := none } }) k { code := 0x11, insn := v, addr := a } .load
  | none => if t.pend0E = none && t.pend16 = none && canCapture t then migrateOut s k 1 else s

/-- A signal that the hart of a key sends to a thread of a partition by tid (R151); none where ABSENT is to be set. -/
def signalThread (s : State) (h p tid : Nat) : Option State :=
  match s.threads.find? fun (k, t) => isSimt k && t.part = p && t.tid = tid && !t.helper && t.st ≠ .exited with
  | some (k, t) =>
    some (if t.st = .blocked && !isRsv k then signalBlocked s k else modThr s k fun t => { t with sigpend := true })
  | none =>
    match s.transits.findIdx? fun x => x.part = p && x.tid = tid with
    | some i =>
      some (match s.transits[i]? with
        | some x => signalFrame { s with transits := s.transits.set i { x with signal := true } } h x.frame
        | none => s)
    | none =>
      match (part s p).retPend.find? fun (fr, r) => r ≠ 3 && (rdWord s (fr + 0x290)).toNat % 2 ^ 32 = tid with
      | some (fr, _) => some (signalFrame s h fr)
      | none =>
        match savedMember s p tid with
        | some (t, i) => some (signalFrame s h (t.frame + memberOff i))
        | none => none

/-- A write of `tsig` on a hart (R150, R151). -/
def tsigStore (s : State) (k : Nat) (v : Word) : State :=
  let tid := bits v 31 0
  let old := bit (hart s k).tsig 63 && !bit v 63
  match signalThread s k (partOf s k) tid with
  | some s => modHart s k fun h => { h with tsig := setBit (w64 tid) 63 old }
  | none => modHart s k fun h => { h with tsig := setBit (w64 tid) 63 true }

/-- A write of `rsvr` on a hart (R442). -/
def rsvrStore (s : State) (k : Nat) (v : Word) : State :=
  let p := partOf s k
  let fr := bits v 63 10 * 1024
  let old := bit (hart s k).rsvr 0 && !bit v 0
  let refuse := modHart s k fun h => { h with rsvr := setBit (w64 fr) 0 true }
  if !inRanges s p fr 1024 then refuse
  else
    let l := readFrame s fr
    let pl := dw l 88
    let c := bits pl 21 20 * 64 + bits pl 19 14
    let key := slotKey (bits pl 21 20) (bits pl 19 14) (bits pl 9 4) 15
    if bits (dw l 0) 3 0 ≠ 1 || !bit (dw l 0) 20 || bit pl 63 || !ownsCore s p c || occupied s key then refuse
    else
      let t := arrival s { frame := fr, part := p, satp := dw l 87, kind := 1, target := 0, team := 0, tidx := 0, serial := 0
                           task := none, signal := false, tid := (dw l 82).toNat % 2 ^ 32 }
      modHart (takeLate (setThr s key t) key) k fun h => { h with rsvr := setBit (w64 fr) 0 old }

/-! Memory operations of a SIMT thread (R363, R434, R435, R438, R501). -/

/-- The operation's translation needs a walk: no cache entry serves it and no walk made for it has ended. -/
def needsWalk (s : State) (k : Nat) (va : Word) (acc : Acc) : Bool :=
  let c := ctxOf s k acc
  bits c.satp 63 60 = 10 && canonical va 5 && (tlbHit s c va acc).isNone &&
  !(s.walks.any fun x => x.key = k && x.phase = 2 && bits x.va 56 12 = bits va 56 12 && x.write = (acc = .store))

/-- A miss waits for a walker (R363). -/
def addWalk (s : State) (k : Nat) (va : Word) (acc : Acc) : State :=
  if s.walks.any fun x => x.key = k && x.phase ≠ 2 && bits x.va 56 12 = bits va 56 12 && x.write = (acc = .store) then s
  else { s with walks := s.walks ++ [{ key := k, part := partOf s k, satp := satpOf s k, va := va, write := acc = .store, phase := 0 }] }

/-- The thread's ended walks are used up. -/
def useWalks (s : State) (k : Nat) : State := { s with walks := s.walks.filter fun x => !(x.key = k && x.phase = 2) }

/-- The first operation of a thread that has not been sent, with its index. -/
def firstUnsent (t : Thread) : Option (Nat × PendOp) :=
  (t.ops.findIdx? fun p => !p.sent).bind fun i => t.ops[i]?.map fun p => (i, p)

/-- A thread that could not issue and now can is ready at its pc from now on (R144). -/
def readied (s s' : State) (k : Nat) : State :=
  if isSimt k && !canIssue s k && canIssue s' k then modThr s' k fun t => { t with age := s'.cycle } else s'

/-- A cause found when an operation is sent (R435, R438). A helper's operation ends with a zero result (R154). -/
def sendTrap (s : State) (k i : Nat) (p : PendOp) (tr : Trap) : State :=
  let t := thr s k
  if t.helper then readied s (modThr s k fun t => { writeResult t { p with value := 0 } with ops := t.ops.eraseIdx i }) k
  else if t.trap.inh then
    raiseTrap (modThr s k fun t => { t with ops := t.ops.eraseIdx i, pc := p.pc }) k { tr with flt := false } (opAcc p.kind)
  else raiseTrap (if t.st = .blocked then abandonWait s k else s) k tr (opAcc p.kind)

/-- An access that fails when it is sent (R435); one that is held leaves everything as it is. -/
def sendFault (s : State) (k i : Nat) (p : PendOp) (f : Flt) : State :=
  match f with
  | .cause code va => sendTrap s k i p { code := code, insn := p.bits, addr := p.pc, va := va, flt := true }
  | .race va v => sendTrap s k i p { code := 0x0D, insn := p.bits, addr := p.pc, va := va, flt := true, hrace := some v }
  | .hold => s

/-- What is left of a `barw` runs on (R232): it ends where the phase has changed or the entry no longer suits it (R225), else the thread waits. -/
def sendWait (s : State) (k i : Nat) (p : PendOp) (n tok : Nat) : State :=
  let t := thr s k
  let w : Wide := match decode p.bits with | .ok (.bwait w, _) => w | _ => default
  let done := match teamK? s k with
    | some m =>
      let e := syncOf m n
      if m.desc.syncs ≤ n then some (stw 2)
      else if e.kind ≠ 2 then some (stw 3)
      else if bits p.op1 62 16 ≠ 0 then some (stw 4)
      else if e.phase = tok then none else some (w64 e.phase)
    | none => some (stw 2)
  match done with
  | some v => readied s (modThr s k fun t => { writeResult t { p with value := v } with ops := t.ops.eraseIdx i }) k
  | none => if t.st = .ready && t.wait = .none then blockOn s k w (.barrier n p.op1 2) else s

/-- A thread of the core in a lower lane has issued the same AMO in the same group on the same address, and its operation has
not been performed (R458). -/
def amoWaits (s : State) (k : Nat) (p : PendOp) : Bool :=
  p.grp ≠ 0 && (match p.kind with | .amo _ _ => true | _ => false) && (onCore s (coreOf k)).any fun j =>
    laneOf j < laneOf k && (thr s j).ops.any fun q => !q.sent && q.grp = p.grp && q.op1 = p.op1

/-- A checked access of a member follows those of the lower lanes of its issue group (R343). -/
def raceWaits (s : State) (k : Nat) (p : PendOp) : Bool :=
  let t := thr s k
  p.grp ≠ 0 && opChecked p.kind && t.team ≠ 0 &&
  (match (translate s (ctxOf s k (opAcc p.kind)) (opAddr p.kind p.op1) (opAcc p.kind)).1 with
    | .ok (pa, pat) => bits pat 3 2 = 3 && bit pat 7 && pa / 2 ^ 20 = t.team
    | .error _ => false) &&
  (onCore s (coreOf k)).any fun j => laneOf j < laneOf k && (thr s j).ops.any fun q => !q.sent && q.grp = p.grp

/-- OPERATION_FINISH (R434): a sent operation finishes and writes its result. -/
def execOperationFinish (k i : Nat) (s : State) : Host.Outcome State Fault Refusal :=
  .next (match (thr s k).ops[i]? with
  | some p => if p.sent then readied s (modThr s k fun t => { writeResult t p with ops := t.ops.eraseIdx i }) k else s
  | none => s)

/-! Debug stops (R462, R464). -/

/-- The thread stands where a stop may find it (R191, R297, R408): outside any chain, or where it waits, is parked or was halted; not
stalled at a drain or an `lamo`, and with room for what is withdrawn (R192). -/
def atBoundary (t : Thread) : Bool :=
  (!t.chain.live || t.st = .blocked || t.st = .parked || t.st = .halted) && canCapture t && match t.wait with | .drainStall _ | .lamo _ _ => false | _ => true

/-- A thread halts (R462), what it issued captured (R192): its frame is written with STATE 6, and the state it held stays in the core. -/
def haltThread (s : State) (k : Nat) : State :=
  let t := capture (thr s k)
  writeFrame (setThr s k { t with before := t.st, st := .halted }) k { t with st := .halted } .halted

/-- The end of a stop (R462, R464): BUSY clears for a command, and `dbgev` is written with its interrupt. -/
def stopDone (s : State) (p asid num src : Nat) : State :=
  let q := part s p
  let ev := w64 (2 ^ 63 + src * 2 ^ 62 + asid * 2 ^ 32 + num * 256 + bits q.dbgev 7 0)
  let s := modPart s p fun q => { q with dbgev := ev, dbgctl := if src = 0 then setBit q.dbgctl 63 false else q.dbgctl }
  msi s (setBits q.retmsi 10 0 (bits q.dbgev 7 0))

/-- A team's stop goes on: members at a boundary halt, and the stop ends when all are halted (R462). -/
def settleStop (s : State) (m : Team) : State :=
  match m.stopping with
  | none => s
  | some src =>
    let run := fun (s : State) => (residents m).filter fun k => (thr s k).st ≠ .halted && (thr s k).st ≠ .exited
    let s := ((run s).filter fun k => atBoundary (thr s k)).foldl haltThread s
    if run s = [] then stopDone (modTeam s m.part m.asid m.num fun t => { t with stopping := none }) m.part m.asid m.num src else s

/-- Every stop in progress goes on, also while its team is being saved (R461). -/
def settleStops (s : State) : State := (s.teams.filter fun t => t.stopping ≠ none && (t.st = .resident || t.st = .saving)).foldl settleStop s

end Sys2Proof.Machine
end

