-- ==== Sys2Proof/Machine/Tile.lean ====
section
/-! DEFINITION. Tiles, accumulators and the matrix engine (R260-R285, R452). -/

namespace Sys2Proof.Machine

/-! Bulk accesses of a core on behalf of a thread (R272, R274, R501). -/

/-- n bytes from an address, cut at the lines of 64 bytes. -/
def lineCuts (va : Word) (n : Nat) : List (Word × Nat) :=
  let a := va.toNat
  if n = 0 then [] else (List.range ((a % 64 + n + 63) / 64)).map fun i =>
    let lo := max a (64 * (a / 64 + i))
    (va + w64 (lo - a), min (a + n) (64 * (a / 64 + i + 1)) - lo)

/-- One cut: where it lands, or the fault with its rank among those of R272; an access fault found beyond the core ranks
after a range lock (R501). A translation that is not made yet comes before all. -/
def reachCut (s : State) (k : Nat) (va : Word) (n : Nat) (acc : Acc) (chk : Bool) : Except (Nat × Flt) Loc × State :=
  match reach s k va n acc chk with
  | (.ok l, s) => (.ok l, s)
  | (.error f, s') =>
    let rank := match (translate s (ctxOf s k acc) va acc).1 with
      | .error code => if code = 0x0B then 1 else 0
      | .ok _ => match f with | .cause 0x0C _ => 2 | .cause _ _ => 3 | .race _ _ => 4 | .hold => 5
    (.error (if xlatWaits s (ctxOf s k acc) va acc then 0 else rank, f), s')

/-- Address of a fault. -/
def Flt.va : Flt → Nat | .cause _ va => va.toNat | .race va _ => va.toNat | .hold => 0

/-- The fault that is reported of two: the lower rank, then the lower address. -/
def worse (a b : Option (Nat × Flt)) : Option (Nat × Flt) :=
  match a, b with
  | none, b => b
  | a, none => a
  | some (r, f), some (q, g) => if q < r || (q = r && g.va < f.va) then some (q, g) else some (r, f)

/-- Every cut reached; or the fault that is reported of all. -/
def reachCuts (s : State) (k : Nat) (acc : Acc) (chk : Bool) (l : List (Word × Nat)) : Except (Nat × Flt) (List (Loc × Nat)) × State :=
  let (ls, bad, s) := l.foldl (fun (ls, bad, s) (va, n) =>
    match reachCut s k va n acc chk with
    | (.ok x, s) => ((x, n) :: ls, bad, s)
    | (.error e, s) => (ls, worse bad (some e), s)) (([], none, s) : List (Loc × Nat) × Option (Nat × Flt) × State)
  (match bad with | some e => .error e | none => .ok ls.reverse, s)

/-- Every byte of a bulk access reached at issue; race tags change only when no byte faults or races. -/
def reachAll (s : State) (k : Nat) (acc : Acc) (l : List (Word × Nat)) : Except Flt (List (Loc × Nat)) × State :=
  match reachCuts s k acc false l with
  | (.error (_, f), s) => (.error f, s)
  | (.ok _, s) =>
    match reachCuts s k acc true l with
    | (.error (_, f), _) => (.error f, s)
    | (.ok ls, s) => (.ok ls, s)

/-- Bytes split into rows of the lengths given. -/
def splitRows : List Nat → List Byte → List (List Byte)
  | [], _ => []
  | n :: ns, bs => bs.take n :: splitRows ns (bs.drop n)

/-- The bytes of rows of memory. -/
def readRows (s : State) (k : Nat) (rows : List (Word × Nat)) : Except Flt (List (List Byte)) × State :=
  match reachAll s k .load (rows.flatMap fun (a, n) => lineCuts a n) with
  | (.error f, s) => (.error f, s)
  | (.ok ls, s) =>
    let (bs, s) := ls.foldl (fun (bs, s) (l, n) => let (b, s) := readLoc s k l n; (bs ++ b, s)) (([], s) : List Byte × State)
    (.ok (splitRows (rows.map (·.2)) bs), s)

/-- Bytes written where cuts landed, in order. -/
def writeCuts (s : State) (k : Nat) : List (Loc × Nat) → List Byte → State
  | [], _ => s
  | (l, n) :: ls, bs => writeCuts (writeLoc s k l (bs.take n)) k ls (bs.drop n)

/-- Rows written to memory, a later row over an earlier one. -/
def writeRows (s : State) (k : Nat) (rows : List (Word × List Byte)) : Except Flt Unit × State :=
  match reachAll s k .store (rows.flatMap fun (a, bs) => lineCuts a bs.length) with
  | (.error f, s) => (.error f, s)
  | (.ok ls, s) => (.ok (), writeCuts s k ls (rows.flatMap (·.2)))

/-! Configurations and contents (R260-R262). -/

/-- A tile configuration (R261). -/
structure Cfg where
  fmt   : Nat
  rows  : Nat
  cols  : Nat
  grind : Nat
  deriving DecidableEq, Repr

/-- The fields of a `tlcfg` value. -/
def cfgOf (v : Word) : Cfg := ⟨bits v 3 0, bits v 11 4, bits v 20 12, bits v 23 21⟩

/-- RowBytes (R262). -/
def Cfg.rowBytes (c : Cfg) : Nat := if c.fmt = 14 then c.cols / 64 * 8 * (c.grind + 1) else c.cols * fwidth c.fmt / 8

/-- The configuration is invalid (R57, R262). -/
def Cfg.bad (c : Cfg) : Bool :=
  c.rows = 0 || c.rows > 128 || c.fmt = 15 || c.cols = 0 || c.cols * fwidth c.fmt % 8 ≠ 0 ||
  (c.fmt = 14 && (c.cols % 64 ≠ 0 || c.grind = 0)) || (c.fmt ≠ 14 && c.grind ≠ 0) ||
  c.rowBytes > 64 || c.rows * c.rowBytes > 8192

/-- The configuration of a team's tile. -/
def tlcfg (t : Team) (n : Nat) : Cfg := cfgOf (mget 0 t.tlcfg n)

/-- A tile number that the team does not own, or a configuration that is invalid. -/
def badTile (t : Team) (n : Nat) : Bool := n ≥ t.desc.tiles || (tlcfg t n).bad

/-- Bytes of a row of a tile. -/
def tileRow (t : Team) (n r len : Nat) : List Byte := (span (8192 * n + 64 * r) len).map fun a => mget 0 t.tiles a

/-- A row of a tile as a number, element 0 lowest. -/
def tileRowNat (t : Team) (n r : Nat) : Nat := ofBytes (tileRow t n r 64)

/-- Bytes put at a place of a tile. -/
def putTile (m : SMap Byte) (a : Nat) : List Byte → SMap Byte
  | [] => m
  | b :: bs => putTile (mset 0 m a b) (a + 1) bs

/-- The tile with only these rows; the bytes outside them are zero. -/
def setTile (t : Team) (n : Nat) (rows : List (List Byte)) : Team :=
  { t with tiles := (rows.zipIdx).foldl (fun m (row, r) => putTile m (8192 * n + 64 * r) row) (t.tiles.filter fun x => x.1 / 8192 ≠ n) }

/-- Element k of a row of the width given. -/
def rowElt (row wd k : Nat) : Nat := row / 2 ^ (wd * k) % 2 ^ wd

/-- q of a bp element (R55) in a compacted row of a grind, as R260 lays it out; with centring 2q + 1 (R56). -/
def bpElt (row grind k : Nat) (ctr : Bool) : Int :=
  let u := (List.range grind).foldl (fun x p => 2 * x + row / 2 ^ (64 * grind * (k / 64) + 64 * p + k % 64) % 2) 0
  let q : Int := if u ≥ 2 ^ (grind - 1) then (u : Int) - 2 ^ grind else u
  if ctr then 2 * q + 1 else q

/-- The value of an element of an integer or bp tile row (R281). -/
def intElt (c : Cfg) (ctr : Bool) (row k : Nat) : Int :=
  if c.fmt = 14 then bpElt row (c.grind + 1) k ctr else ival c.fmt (rowElt row (fwidth c.fmt) k)

/-! Passes, claims and accumulators (R263-R269). -/

/-- The engine of a team: 16 * die + cluster. -/
def engineOf (t : Team) : Nat := 16 * t.die + t.core / 4

/-- A pass or drain belongs to a team. -/
def ofTeam (t : Team) (p : Pass) : Bool := p.part = t.part && p.asid = t.asid && p.team = t.num && p.serial = t.serial

/-- A drain, not a pass. -/
def isDrain (p : Pass) : Bool := 0x6D ≤ p.maj

/-- Passes and drains of an engine that are not complete. -/
def engineWork (e : Engine) : List Pass := e.running ++ e.queue

/-- The team's passes and drains that are not complete. -/
def teamPasses (s : State) (t : Team) : List Pass := (engineWork (engine s (engineOf t))).filter (ofTeam t)

/-- Passes and drains leave an engine without completing; each is no longer outstanding (R182). -/
def dropWork (s : State) (e : Nat) (p : Pass → Bool) : State :=
  let gone := (engineWork (engine s e)).filter p
  let s := modEngine s e fun x => { x with queue := x.queue.filter fun y => !p y, running := x.running.filter fun y => !p y }
  gone.foldl (fun s y => opEnded s y.part y.asid y.team y.serial) s

/-- The passes and drains of a team leave its engine (R194, R265). -/
def dropPasses (s : State) (t : Team) : State := dropWork s (engineOf t) (ofTeam t)

/-- The format is block-scaled (R289). -/
def blockFmt (f : Nat) : Bool := f = 3 || f = 4 || f = 5

/-- The tiles that a pass reads, or a drain writes (R263). -/
def passTiles (p : Pass) : List Nat :=
  match p.maj with
  | 0x68 | 0x69 => [p.w.s1.toNat, p.w.s2.toNat]
  | 0x6A => [p.w.s1.toNat, p.w.s2.toNat, p.w.s3.toNat]
  | 0x6D => p.w.d.toNat :: (if blockFmt p.w.fmt then [p.w.s3.toNat] else [])
  | 0x6F => p.w.d.toNat :: (if blockFmt p.w.fmt then [p.w.imm11.toNat / 16 % 32] else [])
  | _ => []

/-- The accumulators that a pass updates or a drain reads. -/
def passAccs (p : Pass) : List Nat :=
  match p.maj with
  | 0x68 | 0x6A => [p.w.d.toNat]
  | 0x69 => [p.w.d.toNat, p.w.d.toNat + 1]
  | _ => if p.w.fmt = 12 || p.w.fmt = 13 then [p.w.s1.toNat, p.w.s1.toNat + 1] else [p.w.s1.toNat]

/-- A pass's claims end eight cycles after its grant (R268); a drain's at its completion. -/
def claims (s : State) (p : Pass) : Bool :=
  isDrain p || (match p.granted with | some g => s.cycle < g + 8 | none => true)

/-- A tile is claimed by a drain (`dr`), or by any pass or drain (R263). -/
def claimed (s : State) (t : Team) (n : Nat) (dr : Bool) : Bool :=
  (teamPasses s t).any fun p => (isDrain p || !dr) && claims s p && (passTiles p).contains n

/-- Passes on an accumulator are pending. -/
def accPending (s : State) (t : Team) (n : Nat) : Bool := (teamPasses s t).any fun p => (passAccs p).contains n

/-- An accumulator of a team. -/
def accOf (t : Team) (n : Nat) : AccInfo := mget {} t.accInfo n

/-- An accumulator with all its elements zero. -/
def zeroAcc (t : Team) (n : Nat) : Team := { t with accs := t.accs.filter fun x => x.1 / 16384 ≠ n }

/-- An accumulator held by a gang, typed and zero. -/
def holdAcc (t : Team) (n g : Nat) (int : Bool) (ws : List Nat) : Team :=
  { zeroAcc t n with accInfo := mset {} t.accInfo n { st := 1, gang := g, int := int, waiters := ws } }

/-- The bits of an accumulator element (R264). -/
def accElt (t : Team) (n r c : Nat) : Nat := (mget 0 t.accs (16384 * n + 128 * r + c)).toNat

/-- The LOST accumulators that a gang holds (R265). -/
def lostAccs (t : Team) (g : Nat) : List Nat := (List.range t.desc.accs).filter fun n => (accOf t n).st = 2 && (accOf t n).gang = g

/-- What the accumulator checks of R272 find for a gang, in that rule's order: the type of a HELD accumulator (when a type is asked),
the holder, an accumulator of the gang that is LOST. The type compared is that of a HELD
accumulator: whether a LOST one still has a type R265 does not say (log 36). -/
def accCheck (t : Team) (g : Nat) (int : Option Bool) (ns : List Nat) : Option Nat :=
  if ns.any fun n => n < t.desc.accs && (accOf t n).st = 1 && (match int with | some b => (accOf t n).int ≠ b | none => false) then some 0x06
  else if ns.any fun n => n ≥ t.desc.accs || (accOf t n).st = 0 || (accOf t n).gang ≠ g then some 0x07
  else if lostAccs t g ≠ [] then some 0x0F
  else none

/-! Gangs at a tile instruction (R269-R272). -/

/-- What a tile instruction does for a gang: `posted` leaves its members stalled, SIMT-ready, at a drain (R294). -/
inductive TRes
  | done
  | stall
  | flt (f : Flt)
  | room
  | wait (w : Wait)
  | posted (n : Nat)
  deriving DecidableEq, Repr

/-- A cause with no address. -/
def tcause (code : Nat) : TRes := .flt (.cause code 0)

/-- The issuing gangs, in ascending team and gang index (R269). -/
def gangKeys (s : State) : List (List Nat) :=
  let id := fun k => 4096 * (thr s k).team + gangNo (thr s k)
  (sortAsc (uniq (s.cur.keys.map id))).map fun n => s.cur.keys.filter fun k => id k = n

/-- The leader of a gang's members (R271): the contributing one with the lowest gang position. -/
def leaderOf (s : State) : List Nat → Option Nat
  | [] => none
  | k :: ks =>
    match leaderOf s ks with
    | some j => if (thr s k).helper || (thr s j).tidx < (thr s k).tidx then some j else some k
    | none => if (thr s k).helper then none else some k

/-- The end of a waiting word whose D is no register (R86). -/
def finishWait0 (s : State) (k : Nat) : State :=
  modThr s k fun t => { endWord0 t.ww t with st := if t.st = .blocked then .ready else t.st, wait := .none, wus := 0, age := s.cycle }

/-- A cause of a gang at a tile instruction, for one member (R272): a helper stays at the word in a converging wait, its destinations
unchanged (R173). -/
def tileFlt (s : State) (k : Nat) (e : Flt) : State :=
  if (thr s k).helper then block s k (.converge (thr s k).pc) else raiseFlt s k e .load

/-- A tile instruction on one gang, `f` being its checks and its effect. -/
def tileGang (w : Wide) (f : Team → Nat → Nat → State → TRes × State) (s : State) (ks : List Nat) : State :=
  match leaderOf s ks with
  | none => ks.foldl (fun s k => modThr s k (endWord0 w)) s
  | some l =>
    match teamK? s l with
    | none => s
    | some t =>
      match f t (gangNo (thr s l)) l s with
      | (.done, s) => ks.foldl (fun s k => modThr s k (endWord0 w)) s
      | (.stall, _) => s
      | (.flt .hold, _) => s
      | (.flt e, s) => ks.foldl (fun s k => tileFlt s k e) s
      | (.room, _) => ks.foldl (blockRoom .passes) s
      | (.wait wt, s) => ks.foldl (fun s k => blockOn s k w wt) s
      | (.posted n, s) => ks.foldl (fun s k => modThr s k fun t => { t with wait := .drainStall n, ww := w }) s

/-- A tile instruction (R269, R271). -/
def tileWord (w : Wide) (f : Team → Nat → Nat → State → TRes × State) (s : State) : Host.Outcome State Fault Refusal :=
  .next ((gangKeys s).foldl (tileGang w f) s)

/-- Changes the team of a thread. -/
def modTeamOf (s : State) (t : Team) (f : Team → Team) : State := modTeam s t.part t.asid t.num f

/-! Moving tiles (R273-R276). -/

/-- Row addresses of a strided access. -/
def rowAddrs (a st : Word) (n : Nat) : List Word := (List.range n).map fun r => a + w64 r * st

/-- `tld` or `tldbp` for a gang (R273). -/
def loadTile (w : Wide) (bp : Bool) (t : Team) (_ l : Nat) (s : State) : TRes × State :=
  let n := w.d.toNat
  let c := tlcfg t n
  let a := src (thr s l) w.s1
  let st := src (thr s l) w.s2
  let al := if bp then 64 else 8
  if badTile t n || (bp && c.fmt ≠ 14) then (tcause 0x06, s)
  else if a.toNat % al ≠ 0 || st.toNat % al ≠ 0 then (.flt (.cause 0x08 a), s)
  else if claimed s t n false then (.stall, s)
  else
    let k := c.grind + 1
    let rows := if bp
      then (rowAddrs a st c.rows).flatMap fun x => (List.range (c.cols / 64)).map fun b => (x + w64 (64 * b), 8 * k)
      else (rowAddrs a st c.rows).map fun x => (x, c.rowBytes)
    match readRows s l rows with
    | (.error f, s) => (.flt f, s)
    | (.ok bs, s) => (.done, modTeamOf s t fun t => setTile t n (splitRows (List.replicate c.rows c.rowBytes) bs.flatten))

/-- `tld` (R273). -/
def execTld (w : Wide) (s : State) : Host.Outcome State Fault Refusal := tileWord w (loadTile w false) s

/-- `tldbp` (R273). -/
def execTldbp (w : Wide) (s : State) : Host.Outcome State Fault Refusal := tileWord w (loadTile w true) s

/-- `tst` for a gang (R273). -/
def storeTile (w : Wide) (t : Team) (_ l : Nat) (s : State) : TRes × State :=
  let n := w.d.toNat
  let c := tlcfg t n
  let a := src (thr s l) w.s1
  let st := src (thr s l) w.s2
  if badTile t n then (tcause 0x06, s)
  else if a.toNat % 8 ≠ 0 || st.toNat % 8 ≠ 0 then (.flt (.cause 0x08 a), s)
  else if claimed s t n true then (.stall, s)
  else match writeRows s l ((rowAddrs a st c.rows).zipIdx.map fun (x, r) => (x, tileRow t n r c.rowBytes)) with
  | (.error f, s) => (.flt f, s)
  | (.ok _, s) => (.done, s)

/-- `tst` (R273). -/
def execTst (w : Wide) (s : State) : Host.Outcome State Fault Refusal := tileWord w (storeTile w) s

/-- `tzero` (R275). -/
def execTzero (w : Wide) (s : State) : Host.Outcome State Fault Refusal :=
  tileWord w (fun t _ _ s =>
    let n := w.d.toNat
    if n ≥ t.desc.tiles then (tcause 0x06, s)
    else if claimed s t n false then (.stall, s)
    else (.done, modTeamOf s t fun t => setTile t n [])) s

/-- `tfill` (R275). -/
def execTfill (w : Wide) (s : State) : Host.Outcome State Fault Refusal :=
  tileWord w (fun t _ l s =>
    let n := w.d.toNat
    let c := tlcfg t n
    let v := toBytes 8 (src (thr s l) w.s1).toNat
    if badTile t n then (tcause 0x06, s)
    else if claimed s t n false then (.stall, s)
    else (.done, modTeamOf s t fun t => setTile t n (List.replicate c.rows ((List.range c.rowBytes).map fun j => v.getD (j % 8) 0)))) s

/-- `tmov` (R275). -/
def execTmov (w : Wide) (s : State) : Host.Outcome State Fault Refusal :=
  tileWord w (fun t _ _ s =>
    let d := w.d.toNat
    let n := w.s1.toNat
    if d ≥ t.desc.tiles || n ≥ t.desc.tiles then (tcause 0x06, s)
    else if claimed s t d false || claimed s t n true then (.stall, s)
    else (.done, modTeamOf s t fun t => setTile t d ((List.range 128).map fun r => tileRow t n r 64))) s

/-- The transposed rows of a tile (R276). -/
def transposed (t : Team) (n : Nat) (cs cd : Cfg) : List (List Byte) :=
  let b := fwidth cs.fmt / 8
  (List.range cd.rows).map fun i => (List.range cd.cols).flatMap fun j => (tileRow t n j 64).drop (b * i) |>.take b

/-- `ttr` (R276). -/
def execTtr (w : Wide) (s : State) : Host.Outcome State Fault Refusal :=
  tileWord w (fun t _ _ s =>
    let d := w.d.toNat
    let n := w.s1.toNat
    let cs := tlcfg t n
    let cd := tlcfg t d
    if badTile t d || badTile t n || cd.fmt ≠ cs.fmt || cs.fmt = 14 || fwidth cs.fmt < 8 || cd.rows ≠ cs.cols || cd.cols ≠ cs.rows then
      (tcause 0x06, s)
    else if claimed s t d false || claimed s t n true then (.stall, s)
    else (.done, modTeamOf s t fun t => setTile t d (transposed t n cs cd))) s

/-! Accumulators (R265, R277-R279). -/

/-- The live members of a gang that wait as `p` says, and whether all of its live members do. -/
def gangWaiting (s : State) (t : Team) (g : Nat) (p : Wait → Bool) : List Nat × Bool :=
  let live := (gangIdx t g).filter (posLive t)
  let ks := (live.filter fun i => (member t i).loc = .here && p (thr s (memberKey t i)).wait).map (memberKey t)
  (ks, ks.length = live.length)

/-- A free accumulator passes to the gangs that wait for it, in the order of their `tres` (R277): to the first that still
waits whole; a gang that lost a member runs its `tres` again. -/
def serveAccGo (s : State) (t : Team) (n : Nat) : List Nat → State
  | [] => s
  | g :: gs =>
    match gangWaiting s t g (fun w => w = .acc n) with
    | ([], _) => serveAccGo s t n gs
    | (k :: ks, true) =>
      let l := (leaderOf s (k :: ks)).getD k
      let int := bit (src (thr s l) (thr s l).ww.s1) 0
      (k :: ks).foldl finishWait0 (modTeamOf s t fun t => holdAcc t n g int gs)
    | (k :: ks, false) => serveAccGo ((k :: ks).foldl wake s) t n gs

/-- An accumulator becomes FREE, all its elements zero, and is passed on (R265, R277, R278). -/
def freeAcc (s : State) (t : Team) (n : Nat) : State :=
  let ws := (accOf t n).waiters
  let s := modTeamOf s t fun t => { zeroAcc t n with accInfo := mdel t.accInfo n }
  serveAccGo s (team s t.part t.asid t.num) n ws

/-- Cause 0x0F: the gang's LOST accumulators become FREE (R265). -/
def lostCause (s : State) (t : Team) (g : Nat) : TRes × State :=
  (tcause 0x0F, (lostAccs t g).foldl (fun s n => freeAcc s (team s t.part t.asid t.num) n) s)

/-- A cause of the accumulator checks. -/
def accFail (s : State) (t : Team) (g : Nat) (code : Nat) : TRes × State :=
  if code = 0x0F then lostCause s t g else (tcause code, s)

/-- `tres` (R277). -/
def execTres (w : Wide) (s : State) : Host.Outcome State Fault Refusal :=
  tileWord w (fun t g l s =>
    let n := w.d.toNat
    let a := accOf t n
    let int := bit (src (thr s l) w.s1) 0
    if n ≥ t.desc.accs then (tcause 0x07, s)
    else if lostAccs t g ≠ [] then lostCause s t g
    else if a.st = 0 then (.done, modTeamOf s t fun t => holdAcc t n g int [])
    else if a.gang ≠ g then
      (.wait (.acc n), modTeamOf s t fun t =>
        { t with accInfo := mset {} t.accInfo n { a with waiters := a.waiters.filter (· ≠ g) ++ [g] } })
    else if accPending s t n then (.stall, s)
    else (.done, modTeamOf s t fun t => holdAcc t n g int a.waiters)) s

/-- `trel` (R278). -/
def execTrel (w : Wide) (s : State) : Host.Outcome State Fault Refusal :=
  tileWord w (fun t g _ s =>
    let n := w.d.toNat
    match accCheck t g none [n] with
    | some c => accFail s t g c
    | none => if accPending s t n then (.stall, s) else (.done, freeAcc s t n)) s

/-- `acz` (R279). -/
def execAcz (w : Wide) (s : State) : Host.Outcome State Fault Refusal :=
  tileWord w (fun t g _ s =>
    let n := w.d.toNat
    match accCheck t g none [n] with
    | some c => accFail s t g c
    | none => if accPending s t n then (.stall, s) else (.done, modTeamOf s t fun t => zeroAcc t n)) s

/-- An accumulator loaded from its rows of 512 bytes. -/
def loadAcc (t : Team) (n : Nat) (rows : List (List Byte)) : Team :=
  let t := zeroAcc t n
  { t with
    accs := (rows.zipIdx).foldl (fun m (row, r) =>
      (List.range 128).foldl (fun m c =>
        mset 0 m (16384 * n + 128 * r + c) (BitVec.ofNat 32 (ofBytes ((row.drop (4 * c)).take 4)))) m) t.accs }

/-- `acld` (R279). -/
def execAcld (w : Wide) (s : State) : Host.Outcome State Fault Refusal :=
  tileWord w (fun t g l s =>
    let n := w.d.toNat
    let a := src (thr s l) w.s1
    let st := src (thr s l) w.s2
    match accCheck t g (some (w.fmt = 6)) [n] with
    | some c => accFail s t g c
    | none =>
      if a.toNat % 64 ≠ 0 || st.toNat % 64 ≠ 0 then (.flt (.cause 0x08 a), s)
      else if accPending s t n then (.stall, s)
      else match readRows s l ((rowAddrs a st 128).map fun x => (x, 512)) with
      | (.error f, s) => (.flt f, s)
      | (.ok rows, s) => (.done, modTeamOf s t fun t => loadAcc t n rows)) s

/-! Matrix instructions (R266, R280-R284). -/

/-- Products per step (R75), by a tile's configuration. -/
def stepWidth (c : Cfg) : Nat :=
  match c.fmt with
  | 1 | 2 => 4
  | 3 | 4 | 7 | 8 => 8
  | 5 | 9 | 10 => 16
  | 11 => 32
  | 12 => 2
  | 13 => 4
  | _ => if c.grind + 1 ≤ 2 then 32 else if c.grind + 1 ≤ 4 then 16 else 8

/-- The shape, format and K conditions of a matrix instruction (R281-R283). -/
def mmaShapeBad (maj : Nat) (w : Wide) (t : Team) (ca cb : Cfg) : Bool :=
  let k := ca.cols
  let sw := stepWidth ca
  let fb := if maj = 0x69 then w.fmt else w.imm11.toNat % 16
  ca.fmt ≠ w.fmt || cb.fmt ≠ fb || cb.cols ≠ k ||
  (if maj = 0x6A then
    let cs := tlcfg t w.s3.toNat
    k % 32 ≠ 0 || k > 8 * sw || cs.fmt ≠ 8 || cs.rows < max ca.rows cb.rows || cs.cols ≠ k / 16
  else if ca.fmt = 14 || cb.fmt = 14 then sw ≠ stepWidth cb || k % 64 ≠ 0 || k > 8 * sw
  else k % sw ≠ 0 || k > 8 * sw)

/-- A core's pass queue has a free entry (R266): a posted pass holds one until its grant. When an entry frees R266 does not say (log 36). -/
def passRoom (s : State) (t : Team) : Bool := passRoomAt s (teamCore t)

/-- A pass or drain as it is posted. -/
def newPass (s : State) (t : Team) (g l maj : Nat) (w : Wide) : Pass :=
  { id := s.nextId, part := t.part, asid := t.asid, team := t.num, serial := t.serial, saves := t.saves, core := t.core, gang := g
    maj := maj, w := w, ca := 0, cb := 0, cs := 0, ctrl := 0, addr := 0, seed := 0, pages := [], cls := t.desc.cls
    posted := s.cycle, promoted := false, leader := (thr s l).tidx, granted := none, retries := 0, flags := 0 }

/-- A pass joins its engine's queue, outstanding from now on (R182). -/
def postPass (s : State) (t : Team) (p : Pass) : State :=
  opBegan (modEngine { s with nextId := s.nextId + 1 } (engineOf t) fun e => { e with queue := e.queue ++ [p] }) t.part t.asid t.num

/-- A matrix instruction for a gang: its checks, and one pass posted (R281). -/
def postMma (maj : Nat) (w : Wide) (t : Team) (g l : Nat) (s : State) : TRes × State :=
  let a := w.s1.toNat
  let b := w.s2.toNat
  let cs := w.s3.toNat
  let ns := if maj = 0x69 then [w.d.toNat, w.d.toNat + 1] else [w.d.toNat]
  if badTile t a || badTile t b || (maj = 0x6A && badTile t cs) || mmaShapeBad maj w t (tlcfg t a) (tlcfg t b) then (tcause 0x06, s)
  else match accCheck t g (some (6 ≤ w.fmt)) ns with
  | some c => accFail s t g c
  | none =>
    if claimed s t a true || claimed s t b true || (maj = 0x6A && claimed s t cs true) then (.stall, s)
    else if !passRoom s t then (.room, s)
    else
      (.done, postPass s t { newPass s t g l maj w with ca := mget 0 t.tlcfg a, cb := mget 0 t.tlcfg b, cs := if maj = 0x6A then mget 0 t.tlcfg cs else 0 })

/-- `mma` (R281). -/
def execMma (w : Wide) (s : State) : Host.Outcome State Fault Refusal := tileWord w (postMma 0x68 w) s

/-- `mmac` (R282). -/
def execMmac (w : Wide) (s : State) : Host.Outcome State Fault Refusal := tileWord w (postMma 0x69 w) s

/-- `mmabs` (R283). -/
def execMmabs (w : Wide) (s : State) : Host.Outcome State Fault Refusal := tileWord w (postMma 0x6A w) s

/-- One floating cell of a pass (R281, R283): steps in ascending K from the element's bits, with the flags raised. -/
def floatCell (sw n : Nat) (prod : Nat → FV × Nat) (c0 : Nat) : Nat × Nat :=
  (List.range n).foldl (fun (c, fl) i =>
    let ps := (span (sw * i) sw).map prod
    let r := engineStep (ps.map (·.1) ++ [fval f32F c]) 48 (ps.foldl (fun x p => x ||| p.2) 0)
    (r.bits, fl ||| (r.flags &&& (NV ||| OF)))) (c0, 0)

/-- One integer cell of a pass (R78, R281): the element, and whether a step clamped. -/
def intCell (sw n : Nat) (sat : Bool) (prod : Nat → Int) (c0 : Nat) : Nat × Bool :=
  (List.range n).foldl (fun (c, b) i =>
    let r := fit32 sat (ival 6 c + ((span (sw * i) sw).map prod).sum)
    (r.1, b || r.2)) (c0, false)

/-- The cells of a window updated, with the flags of all. -/
def updateCells (t : Team) (n M N : Nat) (cell : Nat → Nat → Nat → Nat × Nat) : Team × Nat :=
  (List.range M).foldl (fun (t, fl) i =>
    (List.range N).foldl (fun (t, fl) j =>
      let (v, f) := cell i j (accElt t n i j)
      ({ t with accs := mset 0 t.accs (16384 * n + 128 * i + j) (BitVec.ofNat 32 v) }, fl ||| f)) (t, fl)) (t, 0)

/-- The effect of a pass on its team's accumulators, and its flags: FFLAGS in bits 0-4, sticky bits from bit 5 (R281-R284). -/
def runPass (t : Team) (p : Pass) : Team × Nat :=
  let ca := cfgOf p.ca
  let cb := cfgOf p.cb
  let w := p.w
  let sw := if p.maj = 0x6A then (if ca.fmt = 5 then 16 else 8) else stepWidth ca
  let n := ca.cols / sw
  let ra := (List.range ca.rows).map (tileRowNat t w.s1.toNat)
  let rb := (List.range cb.rows).map (tileRowNat t w.s2.toNat)
  let d := w.d.toNat
  let clamp := fun (x : Nat × Bool) => (x.1, if x.2 then 32 * ISAT else 0)
  if p.maj = 0x69 then
    let prod := fun i j k => cmul (w.md ≥ 2) (cparts ca.fmt (rowElt (ra.getD i 0) (fwidth ca.fmt) k)) (cparts cb.fmt (rowElt (rb.getD j 0) (fwidth cb.fmt) k))
    let (t, f) := updateCells t d ca.rows cb.rows fun i j c => clamp (intCell sw n (w.md % 2 = 1) (fun k => (prod i j k).1) c)
    let (t, g) := updateCells t (d + 1) ca.rows cb.rows fun i j c => clamp (intCell sw n (w.md % 2 = 1) (fun k => (prod i j k).2) c)
    (t, f ||| g)
  else if ca.fmt < 6 then
    let va := fun i k => fval (ffmt ca.fmt) (rowElt (ra.getD i 0) (fwidth ca.fmt) k)
    let vb := fun j k => fval (ffmt cb.fmt) (rowElt (rb.getD j 0) (fwidth cb.fmt) k)
    let sc := fun r b => scaleByte (rowElt (tileRowNat t w.s3.toNat r) 8 b)
    let kb := ca.cols / 32
    let prod := fun i j k =>
      let x := stepProduct (va i k) (vb j k)
      if p.maj = 0x6A then ((stepProduct (stepProduct x.1 (sc i (k / 32))).1 (sc j (kb + k / 32))).1, x.2) else x
    updateCells t d ca.rows cb.rows fun i j c => floatCell sw n (prod i j) c
  else
    let ctr := p.maj = 0x68 && w.md ≥ 2
    updateCells t d ca.rows cb.rows fun i j c =>
      clamp (intCell sw n (w.md % 2 = 1) (fun k => intElt ca ctr (ra.getD i 0) k * intElt cb ctr (rb.getD j 0) k) c)

/-! Waiting for the engine (R285). -/

/-- `mwait` (R285). -/
def execMwait (w : Wide) (s : State) : Host.Outcome State Fault Refusal :=
  .next ((gangKeys s).foldl (fun s ks =>
    match ks with
    | [] => s
    | k :: _ =>
      match teamK? s k with
      | none => s
      | some t =>
        let g := gangNo (thr s k)
        if lostAccs t g ≠ [] then ks.foldl (fun s k => tileFlt s k (.cause 0x0F 0)) (lostCause s t g).2
        else match ((teamPasses s t).filter fun p => !isDrain p && p.gang = g).map (·.id) with
        | [] => ks.foldl (fun s k => modThr s k (endWord w 0)) s
        | ids => ks.foldl (fun s k => blockOn s k w (.passes ids)) s) s)

/-- Members of `mwait` whose passes are complete run it again, and pass (R285). -/
def evalPasses (s : State) : State :=
  let out := (s.engines.flatMap fun (_, e) => engineWork e).map (·.id)
  s.threads.foldl (fun s (k, t) =>
    match t.wait with
    | .passes ids => if t.st = .blocked && !(ids.any fun i => out.contains i) then wake s k else s
    | _ => s) s

/-- The thread waits on the engine (R452): in `tres`, in `mwait`, or at a matrix instruction or drain whose queue is full. -/
def onEngine (s : State) (e k : Nat) : Bool :=
  let t := thr s k
  (match teamK? s k with | some m => placed m && engineOf m = e | none => false) &&
  match t.wait with
  | .acc _ | .passes _ | .drainStall _ | .room .passes => true
  | _ => false

/-- Cause 0x0F at the instruction that a member of a gang waits at (R297, R452); a helper stays at the word (R173), and a halted member
takes no cause (R455). Whether this frees the gang's LOST accumulators, as the cause at an issue does, R265 does not say; they stay LOST
(log 36). -/
def engineLost (s : State) (k : Nat) : State :=
  if (thr s k).st = .halted then s else
  let w := (chainAt s k).1.1.headD ⟨(thr s k).pc, 0, 8⟩
  let s := modThr s k fun t => { t with wait := .none, wus := 0, st := if t.st = .blocked then .ready else t.st }
  if (thr s k).helper then block s k (.converge (thr s k).pc)
  else raiseTrap s k { code := 0x0F, insn := w.bits, addr := w.addr } .load

end Sys2Proof.Machine
end

