-- ==== Sys2Proof/Machine/Engine.lean ====
section
/-! DEFINITION. Drains, and the matrix engine's own steps: grants, promotion, completion and hang (R267, R268, R284,
R286-R297, R451). -/

namespace Sys2Proof.Machine

/-! Quantising (R287-R289, R293). -/

/-- The drain control word (R286). -/
structure Ctrl where
  stride : Word
  soff   : Nat
  scale  : Nat
  ncols  : Nat
  nrows  : Nat
  col0   : Nat
  row0   : Nat
  deriving DecidableEq, Repr

/-- Its fields; `stride` is in bytes. -/
def ctrlOf (v : Word) : Ctrl :=
  ⟨sext 20 (bits v 63 44) * 8, bits v 43 38, bits v 37 30, bits v 29 22, bits v 21 14, bits v 13 7, bits v 6 0⟩

/-- Quantise (R288): the result, and whether a finite value was clamped. -/
def quantise (x : FV) (v F : Nat) (m : RMode) (rnd : Nat) : FR × Bool :=
  match x with
  | .fin n a e =>
    let y : FV := .fin n a (e + 127 - v)
    let r := if F < 6 then roundTo (ffmt F) m true rnd y else toIntFmt F m true rnd y
    (r, r.sat)
  | y => (if F < 6 then roundTo (ffmt F) m true rnd y else toIntFmt F m true rnd y, false)

/-- What a drain draws from: the team's accumulators, the accumulator's number, format, rounding mode and gang seed. -/
structure Draw where
  tm   : Team
  acc  : Nat
  fmt  : Nat
  m    : RMode
  seed : Word

/-- The random number of an accumulator element (R70); a zero gang seed draws zero (R71). -/
def Draw.rnd (d : Draw) (r c : Nat) : Nat := if d.seed = 0 then 0 else gangRandom d.seed r c

/-- One output element from accumulator position (r, c) at scale byte v (R288). -/
def Draw.elt (d : Draw) (v r c : Nat) : FR × Bool :=
  let int := fun n => ofScaled (ival 6 (accElt d.tm n r c)) 0 false
  if d.fmt < 6 then quantise (fval f32F (accElt d.tm d.acc r c)) v d.fmt d.m (d.rnd r c)
  else if d.fmt = 12 || d.fmt = 13 then
    let f := if d.fmt = 12 then 7 else 9
    let (re, a) := quantise (int d.acc) v f d.m (d.rnd r c)
    let (im, b) := quantise (int (d.acc + 1)) v f d.m (d.rnd (r + 128) c)
    (⟨re.bits + 2 ^ fwidth f * im.bits, re.flags ||| im.flags, re.sat || im.sat⟩, a || b)
  else quantise (int d.acc) v d.fmt d.m (d.rnd r c)

/-- Elements of a row or a block with what they bring: bits, scale bytes, flags (sticky bits from bit 5), retries. -/
structure Quant where
  elts   : List Nat := []
  scales : List Nat := []
  flags  : Nat := 0
  retry  : Nat := 0
  deriving DecidableEq, Repr

/-- Flags of one result. -/
def resFlags (r : FR) : Nat := r.flags ||| (if r.sat then 32 * CSAT else 0)

/-- The attempts of a block from scale byte v on (R289). -/
def attempts (g : Nat → Nat → FR × Bool) (b : Nat) : Nat → Nat → List (FR × Bool) × Nat
  | 0, v => ((span (32 * b) 32).map (g v), v)
  | n + 1, v =>
    let o := (span (32 * b) 32).map (g v)
    if (o.any (·.2)) && v ≠ 0xFE then attempts g b n (v + 1) else (o, v)

/-- QuantBlock (R289). -/
def quantBlock (g : Nat → Nat → FR × Bool) (v0 b : Nat) : Quant :=
  let (o, v) := attempts g b 3 v0
  { elts := o.map (·.1.bits), scales := [v], retry := v - v0
    flags := o.foldl (fun x r => x ||| resFlags r.1) (if o.any (·.2) then 32 * QSAT else 0) }

/-- Quantised parts in sequence. -/
def Quant.append (a b : Quant) : Quant := ⟨a.elts ++ b.elts, a.scales ++ b.scales, a.flags ||| b.flags, max a.retry b.retry⟩

/-- One output row of n elements (R293). -/
def quantRow (F v0 n : Nat) (g : Nat → Nat → FR × Bool) : Quant :=
  if blockFmt F then (List.range (n / 32)).foldl (fun q b => q.append (quantBlock g v0 b)) {}
  else
    let o := (List.range n).map (g v0)
    { elts := o.map (·.1.bits), flags := o.foldl (fun x r => x ||| resFlags r.1) 0 }

/-- Emit (R293): the rows of an output. -/
def emitRows (d : Draw) (v0 nr nc : Nat) (pos : Nat → Nat → Nat × Nat) : List Quant :=
  (List.range nr).map fun i => quantRow d.fmt v0 nc fun v j => d.elt v (pos i j).1 (pos i j).2

/-- The bytes of a row of n elements of a format. -/
def rowBytes (F n : Nat) (q : Quant) : List Byte := toBytes (n * fwidth F / 8) (packW (fwidth F) q.elts)

/-! The two outputs of a drain. -/

/-- The format of a drain's memory output: that of a `tdrm`, or TF of a `tdrt`. -/
def memFmt (maj : Nat) (w : Wide) : Nat := if maj = 0x6E then w.fmt else w.imm11.toNat % 16

/-- The window's rows and columns (R286). -/
def window (maj : Nat) (c : Ctrl) (cd : Cfg) : Nat × Nat := if maj = 0x6E then (c.nrows, c.ncols) else (cd.rows, cd.cols)

/-- Rows and row length of the memory output. -/
def memShape (maj : Nat) (c : Ctrl) (cd : Cfg) : Nat × Nat :=
  let (nr, nc) := window maj c cd
  if maj = 0x6E then (nr, nc) else (nc, nr)

/-- The tile output (R293). -/
def tileOut (t : Team) (p : Pass) : List Quant :=
  let c := ctrlOf p.ctrl
  let (nr, nc) := window p.maj c (cfgOf p.ca)
  emitRows ⟨t, p.w.s1.toNat, p.w.fmt, rmodeOf p.w.md, p.seed⟩ c.scale nr nc fun i j => (c.row0 + i, c.col0 + j)

/-- The memory output (R293). -/
def memOut (t : Team) (p : Pass) : List Quant :=
  let c := ctrlOf p.ctrl
  let (nr, nc) := memShape p.maj c (cfgOf p.ca)
  emitRows ⟨t, p.w.s1.toNat, memFmt p.maj p.w, rmodeOf p.w.md, p.seed⟩ c.scale nr nc fun i j =>
    if p.maj = 0x6E then (c.row0 + i, c.col0 + j) else (c.row0 + j, c.col0 + i)

/-- The outputs of a drain: tile rows and memory rows. -/
def drainOut (t : Team) (p : Pass) : List Quant × List Quant :=
  (if p.maj = 0x6E then [] else tileOut t p, if p.maj = 0x6D then [] else memOut t p)

/-- The retry count and the flags of a drain. -/
def drainSum (o : List Quant × List Quant) : Nat × Nat :=
  (o.1 ++ o.2).foldl (fun (q, f) x => (max q x.retry, f ||| x.flags)) (0, 0)

/-- The places in memory that a drain writes, in order (R293): rows, then the scale area. -/
def drainSpots (maj : Nat) (w : Wide) (c : Ctrl) (cd : Cfg) (a : Word) : List (Word × Nat) :=
  if maj = 0x6D then []
  else
    let F := memFmt maj w
    let (nr, nc) := memShape maj c cd
    ((List.range nr).map fun i => (a + w64 i * c.stride, nc * fwidth F / 8)) ++
    if blockFmt F then (List.range nr).map fun i => (a + w64 nr * c.stride + w64 (8 * i), nc / 32) else []

/-- The bytes for those places. -/
def drainBytes (p : Pass) (o : List Quant) : List Byte :=
  let F := memFmt p.maj p.w
  let (_, nc) := memShape p.maj (ctrlOf p.ctrl) (cfgOf p.ca)
  o.flatMap (rowBytes F nc) ++ if blockFmt F then o.flatMap fun q => q.scales.map (BitVec.ofNat 8) else []

/-! Issue (R287, R290-R292). -/

/-- The scale tile of a drain's tile output. -/
def scaleTile (maj : Nat) (w : Wide) : Nat := if maj = 0x6D then w.s3.toNat else w.imm11.toNat / 16 % 32

/-- The control word breaks R286 or the window R292. -/
def ctrlBad (maj : Nat) (w : Wide) (c : Ctrl) (cd : Cfg) : Bool :=
  let (nr, nc) := window maj c cd
  let tile := maj ≠ 0x6E
  c.scale = 255 || (maj = 0x6D && c.stride ≠ 0) ||
  (tile && (c.ncols ≠ 0 || c.nrows ≠ 0)) || (!tile && (nr = 0 || nr > 128 || nc = 0 || nc > 128)) ||
  ((!tile || !blockFmt w.fmt) && c.soff ≠ 0) || c.row0 + nr > 128 || c.col0 + nc > 128

/-- The other conditions of cause 0x06 (R292). -/
def drainBad (maj : Nat) (w : Wide) (t : Team) (c : Ctrl) (cd : Cfg) : Bool :=
  let (nr, nc) := window maj c cd
  let tile := maj ≠ 0x6E
  let mem := maj ≠ 0x6D
  let (_, mc) := memShape maj c cd
  let F := memFmt maj w
  let st := scaleTile maj w
  (tile && (badTile t w.d.toNat || cd.fmt ≠ w.fmt)) || ctrlBad maj w c cd ||
  (tile && blockFmt w.fmt && (nc % 32 ≠ 0 || badTile t st || (tlcfg t st).fmt ≠ 8 || (tlcfg t st).rows < nr ||
      (tlcfg t st).cols < c.soff + nc / 32 || st = w.d.toNat)) ||
  (mem && (mc * fwidth F % 64 ≠ 0 || (blockFmt F && mc % 32 ≠ 0)))

/-- The page and PAT of a cut, as a pass keeps them. -/
def pageOf (va : Word) (l : Loc) : Nat × Nat × Word :=
  match l with
  | .mem pa pat => (va.toNat / 4096, pa / 4096, pat)
  | .scr _ num off r => (va.toNat / 4096, 2 ^ 48 + num * 256 + off / 4096, if r then 0x80 else 0)

/-- Where a byte of a kept page lies. -/
def locOf (p : Pass) (va : Word) : Option Loc :=
  (p.pages.find? fun x => x.1 = va.toNat / 4096).map fun (_, n, pat) =>
    if n < 2 ^ 48 then .mem (n * 4096 + va.toNat % 4096) pat
    else .scr p.asid ((n - 2 ^ 48) / 256) ((n - 2 ^ 48) % 256 * 4096 + va.toNat % 4096) (bit pat 7)

/-- A drain for a gang: its checks, its translations, and its entry in the queue (R292, R294). -/
def postDrain (maj : Nat) (w : Wide) (t : Team) (g l : Nat) (s : State) : TRes × State :=
  let v := src (thr s l) w.s2
  let c := ctrlOf v
  let d := w.d.toNat
  let cd := tlcfg t d
  let a := src (thr s l) w.s3
  let ns := if w.fmt = 12 || w.fmt = 13 then [w.s1.toNat, w.s1.toNat + 1] else [w.s1.toNat]
  let tiles := if maj = 0x6E then [] else d :: (if blockFmt w.fmt then [scaleTile maj w] else [])
  if drainBad maj w t c cd then (tcause 0x06, s)
  else match accCheck t g (some (6 ≤ w.fmt)) ns with
  | some e => accFail s t g e
  | none =>
    if maj ≠ 0x6D && a.toNat % 8 ≠ 0 then (.flt (.cause 0x08 a), s)
    else if tiles.any fun n => claimed s t n false then (.stall, s)
    else if !passRoom s t then (.room, s)
    else
      let cuts := (drainSpots maj w c cd a).flatMap fun (x, n) => lineCuts x n
      match reachAll s l .store cuts with
      | (.error f, s) => (.flt f, s)
      | (.ok ls, s) =>
        let seed := t.seeds.getD g 0
        let p : Pass := { newPass s t g l maj w with
          ca := if maj = 0x6E then 0 else mget 0 t.tlcfg d
          cs := if maj = 0x6E || !blockFmt w.fmt then 0 else mget 0 t.tlcfg (scaleTile maj w)
          ctrl := v, addr := a, seed := seed, pages := uniq ((cuts.zip ls).map fun (x, y) => pageOf x.1 y.1) }
        let s := modTeamOf s t fun t => { t with seeds := t.seeds.set g (advance64 seed) }
        (.posted p.id, postPass s t p)

/-- `tdr` (R290). -/
def execTdr (w : Wide) (s : State) : Host.Outcome State Fault Refusal := tileWord w (postDrain 0x6D w) s

/-- `tdrm` (R290). -/
def execTdrm (w : Wide) (s : State) : Host.Outcome State Fault Refusal := tileWord w (postDrain 0x6E w) s

/-- `tdrt` (R290). -/
def execTdrt (w : Wide) (s : State) : Host.Outcome State Fault Refusal := tileWord w (postDrain 0x6F w) s

/-! The engine's steps (R267, R268, R294, R451). -/

/-- The team of a pass. -/
def passTeam (s : State) (p : Pass) : Team := team s p.part p.asid p.team

/-- Passes that may be granted now: posted before this cycle, and first in the queue among those of their accumulators. -/
def grantable (s : State) : List Pass → List Pass
  | [] => []
  | p :: ps =>
    let later := (grantable s ps).filter fun q =>
      !(q.part = p.part && q.asid = p.asid && q.team = p.team && q.serial = p.serial && (passAccs q).any fun n => (passAccs p).contains n)
    if p.posted < s.cycle then p :: later else later

/-- The pass that the arbiter takes (R267); one that has waited 4096 cycles is promoted. -/
def arbiter (s : State) (e : Engine) : Option Pass :=
  let c := grantable s e.queue
  match c.find? fun p => (passTeam s p).st = .saving with
  | some p => some p
  | none =>
    match c.find? fun p => p.promoted || p.posted + 4096 ≤ s.cycle with
    | some p => some p
    | none => c.find? fun p => p.cls = c.foldl (fun m q => max m q.cls) 0

/-- PASS_GRANT (R267, R268): the arbiter grants a pass, which runs its steps, or a drain, which begins to read. -/
def execPassGrant (e : Nat) (s : State) : Host.Outcome State Fault Refusal :=
  let x := engine s e
  .next (if x.hung || s.cycle < x.freeAt then s
  else match arbiter s x with
  | none => s
  | some p =>
    let t := passTeam s p
    if isDrain p then
      let q := (drainSum (drainOut t p)).1
      wakeRoom (modEngine s e fun x =>
        { x with queue := x.queue.filter (·.id ≠ p.id), running := x.running ++ [{ p with granted := some s.cycle, retries := q }]
                 freeAt := s.cycle + 8 + q })
    else
      let (t', fl) := runPass t p
      let s := modTeamOf s t fun _ => t'
      wakeRoom (modEngine s e fun x =>
        { x with queue := x.queue.filter (·.id ≠ p.id), running := x.running ++ [{ p with granted := some s.cycle, flags := fl }]
                 freeAt := s.cycle + 8 }))

/-- PASS_PROMOTION (R267). -/
def execPassPromotion (e i : Nat) (s : State) : Host.Outcome State Fault Refusal :=
  .next (match (engine s e).queue[i]? with
  | some p =>
    if p.posted + 4096 ≤ s.cycle then modEngine s e fun x => { x with queue := x.queue.set i { p with promoted := true } } else s
  | none => s)

/-- Flags of a pass or drain, FFLAGS and sticky bits, reach its leader where R195 puts them (R284, R296). -/
def giveFlags (s : State) (p : Pass) (fl : Nat) : State :=
  land s p.part p.asid p.team p.serial { tidx := p.leader, flags := fl }

/-- PASS_COMPLETE (R268, R284, R285): twenty cycles after its grant. -/
def execPassComplete (e : Nat) (s : State) : Host.Outcome State Fault Refusal :=
  let x := engine s e
  .next (match (if x.hung then none else x.running.find? fun p => !isDrain p && p.granted.any fun g => g + 20 ≤ s.cycle) with
  | none => s
  | some p =>
    let s := modEngine s e fun x => { x with running := x.running.filter (·.id ≠ p.id) }
    evalPasses (opEnded (giveFlags s p p.flags) p.part p.asid p.team p.serial))

/-- The tile writes of a drain (R260, R293, R294). -/
def drainTiles (t : Team) (p : Pass) (o : List Quant) : Team :=
  if p.maj = 0x6E then t
  else
    let cd := cfgOf p.ca
    let t := setTile t p.w.d.toNat (o.map (rowBytes p.w.fmt cd.cols))
    if blockFmt p.w.fmt then
      let n := scaleTile p.maj p.w
      let cs := cfgOf p.cs
      let soff := (ctrlOf p.ctrl).soff
      setTile t n ((List.range cs.rows).map fun i =>
        let row := tileRow t n i cs.rowBytes
        match o[i]? with
        | some q => (q.scales.zipIdx).foldl (fun r (v, b) => r.set (soff + b) (BitVec.ofNat 8 v)) row
        | none => row)
    else t

/-- The memory writes of a drain, to the bytes found at issue (R295). -/
def drainMem (s : State) (k : Nat) (p : Pass) (o : List Quant) : State :=
  let cuts := (drainSpots p.maj p.w (ctrlOf p.ctrl) (cfgOf p.ca) p.addr).flatMap fun (x, n) => lineCuts x n
  writeCuts s k (cuts.filterMap fun (x, n) => (locOf p x).map fun l => (l, n)) (drainBytes p o)

/-- The memory writes of a drain wait: a line of theirs is held at its home (R420), or no route leads there (R481). -/
def drainHeld (s : State) (k : Nat) (p : Pass) : Bool :=
  (drainSpots p.maj p.w (ctrlOf p.ctrl) (cfgOf p.ca) p.addr).any fun (x, n) => (lineCuts x n).any fun (x, n) =>
    match locOf p x with
    | some (.mem pa _) => lineHeld s hwKey pa n || !homeOpen s (agentDie k) pa
    | _ => false

/-- The causes of a drain's flags on its leader, after the word (R73, R296, R432): 0x11 ranks above 0x10. -/
def drainCause (s : State) (k : Nat) (fl : Nat) (newQ : Bool) (insn pc : Word) : State :=
  let t := thr s k
  if fpTraps t (fl % 32) then raiseTrap s k { code := 0x11, insn := insn, addr := pc } .load
  else if newQ && bit t.qflags 4 then raiseTrap s k { code := 0x10, insn := insn, addr := pc } .load
  else s

/-- DRAIN_COMPLETE (R294-R296). -/
def execDrainComplete (e : Nat) (s : State) : Host.Outcome State Fault Refusal :=
  let x := engine s e
  .next (match (if x.hung then none else x.running.find? fun p => isDrain p && p.granted.any fun g => g + 20 + p.retries ≤ s.cycle) with
  | none => s
  | some p =>
    if drainHeld s (memberKey (passTeam s p) p.leader) p then s
    else
    let s := modEngine s e fun x => { x with running := x.running.filter (·.id ≠ p.id) }
    let t := passTeam s p
    let o := drainOut t p
    let fl := (drainSum o).2
    let lk := memberKey t p.leader
    let s := modTeamOf s t fun t => drainTiles t p o.1
    let s := drainMem s lk p o.2
    let newQ := fl / 32 % 2 = 1 && !bit (thr s lk).qflags 0
    let ks := ((gangIdx t p.gang).map (memberKey t)).filter fun k => (thr s k).wait = .drainStall p.id
    let insn := wideWord (BitVec.ofNat 8 p.maj) p.w
    let pc := (thr s lk).pc
    let s := opEnded (giveFlags s p fl) p.part p.asid p.team p.serial
    let s := ks.foldl finishWait0 s
    let s := ks.foldl afterWord s
    settleStops (if (thr s lk).st = .ready && (thr s lk).pc = pc + 8 then drainCause s lk fl newQ insn pc else s))

/-- ENGINE_HANG (R451): 65 536 cycles after a grant. -/
def execEngineHang (e : Nat) (s : State) : Host.Outcome State Fault Refusal :=
  let x := engine s e
  .next (if x.hung || !(x.running.any fun p => p.granted.any fun g => g + 65536 ≤ s.cycle) then s
  else
    let s := modEngine s e fun x => { x with hung := true }
    match coreOwner s (e / 16 * 64 + e % 16 * 4) with
    | some p => postFault s p (faultRecord 6 false false false false 0 0 0 0 0 0 (w64 e) 0 0 0)
    | none => s)

/-! Engine reset (R297, R452). -/

/-- Bytes that each hold their old or their drained value, freely (R297, log 3). -/
def mixBytes (n : Nat) (old new : List Byte) : List Byte :=
  (List.range old.length).map fun i => if Config.freeBool (n + i) then new.getD i 0 else old.getD i 0

/-- A tile whose bytes each hold their old or their drained value. -/
def mixTile (n : Nat) (t t' : Team) (x : Nat) : Team :=
  setTile t x ((List.range 128).map fun r => mixBytes (n + 64 * r) (tileRow t x r 64) (tileRow t' x r 64))

/-- A drain that is granted ends unfinished (R297); where its writes wait (R420, R481), memory holds its old values. -/
def breakDrain (s : State) (p : Pass) : State :=
  let t := passTeam s p
  let o := drainOut t p
  let t' := drainTiles t p o.1
  let tl := if p.maj = 0x6E then [] else passTiles p
  let s := modTeamOf s t fun t => (tl.zipIdx).foldl (fun t x => mixTile (s.freeIdx + 8192 * x.2) t t' x.1) t
  let s := { s with freeIdx := s.freeIdx + 16384 }
  let k := memberKey t p.leader
  let cuts := (drainSpots p.maj p.w (ctrlOf p.ctrl) (cfgOf p.ca) p.addr).flatMap fun (x, n) => lineCuts x n
  let ls := cuts.filterMap fun (x, n) => (locOf p x).map fun l => (l, n)
  let (old, s) := ls.foldl (fun (bs, s) (l, n) => let (b, s) := readLoc s k l n; (bs ++ b, s)) (([], s) : List Byte × State)
  let s := if drainHeld s k p then s else writeCuts s k ls (mixBytes s.freeIdx old (drainBytes p o.2))
  { s with freeIdx := s.freeIdx + old.length }

/-- The reset of an engine (R452): the number of accumulators moved to LOST. A team that is loading has none there yet. -/
def resetEngine (s : State) (e : Nat) : Nat × State :=
  let lost := fun (t : Team) => (t.accInfo.filter fun (_, a) => a.st = 1).length
  let on := fun (t : Team) => placed t && t.st ≠ .loading && engineOf t = e
  let n := (s.teams.filter on |>.map lost).sum
  let s := ((engine s e).running.filter isDrain).foldl breakDrain s
  let waiting := (s.threads.map (·.1)).filter fun k => isSimt k && onEngine s e k
  let s := { s with
    teams := s.teams.map fun t =>
      if on t then
        { t with
          accs := t.accs.filter fun x => (accOf t (x.1 / 16384)).st ≠ 1
          accInfo := t.accInfo.map fun (i, a) => (i, if a.st = 1 then { a with st := 2, waiters := [] } else a) }
      else t }
  let s := dropWork s e fun _ => true
  let s := modEngine s e fun x => { x with hung := false, freeAt := s.cycle }
  (n, evalPasses (waiting.foldl engineLost s))

end Sys2Proof.Machine
end

