-- ==== Sys2Proof/Machine/Copy.lean ====
section
/-! DEFINITION. The copy engine (R298-R320, R503). -/

namespace Sys2Proof.Machine

/-! The layout record (R307, R310). -/

/-- A layout record. -/
structure Lay where
  base  : Word
  kind  : Nat
  es    : Nat                 -- E, in bytes
  rank  : Nat
  fill  : Nat
  dims  : List Nat            -- KIND 0: DIM0-DIM3; KIND 1: C, W, H, N
  box   : List Nat
  st    : List Word           -- strides of dimensions 0-3
  conv  : Word
  deriving DecidableEq, Repr

/-- The fields of a record. -/
def layOf (l : List Word) : Lay :=
  let d1 := dw l 1
  let kind := bits d1 63 60
  let es := 2 ^ bits d1 59 58
  { base := dw l 0, kind := kind, es := es, rank := bits d1 57 56 + 1, fill := bits d1 31 0
    dims := if kind = 0 then [bits (dw l 2) 31 0, bits (dw l 2) 63 32, bits (dw l 3) 31 0, bits (dw l 3) 63 32]
      else [bits (dw l 2) 15 0, bits (dw l 2) 31 16, bits (dw l 2) 47 32, bits (dw l 2) 63 48]
    box := [bits (dw l 4) 15 0, bits (dw l 4) 31 16, bits (dw l 4) 47 32, bits (dw l 4) 63 48]
    st := [w64 es, dw l 5, dw l 6, dw l 7], conv := dw l 3 }

/-- Dimension d of a list of four. -/
def at4 (l : List Nat) (d : Nat) : Nat := l.getD d 0

/-- The nominal size of a record (R307). -/
def Lay.nominal (l : Lay) : Nat := l.es * (at4 l.box 0 * at4 l.box 1 * at4 l.box 2 * at4 l.box 3)

/-- The record is invalid for a copy instruction: status 5 (R307, R310). -/
def layBad (maj : Nat) (ws : List Word) : Bool :=
  let l := layOf ws
  bits (dw ws 1) 55 32 ≠ 0 || l.kind > 1 || decide (l.kind = 1) ≠ decide (maj = 0x5D) ||
  ((maj = 0x5A || maj = 0x5B) && l.rank ≠ 2) || l.box.any (· = 0) || l.nominal > 2 ^ 32 - 1 ||
  (if l.kind = 0 then (List.range 4).any fun d => if d < l.rank then at4 l.dims d = 0 else at4 l.box d ≠ 1
   else
    bits (dw ws 1) 57 56 ≠ 0 || l.dims.any (· = 0) || at4 l.box 2 ≠ 1 || at4 l.box 3 ≠ 1 ||
    bits l.conv 63 52 = 0 || bits l.conv 51 40 = 0 || bits l.conv 39 36 = 0 || bits l.conv 35 32 = 0 ||
    bits l.conv 31 28 = 0 || bits l.conv 27 24 = 0 || bits l.conv 7 0 ≠ 0)

/-- Signed coordinate d of a `cpt` (R308). -/
def coord (v : Word) (d : Nat) : Int := (BitVec.ofNat 16 (bits v (16 * d + 15) (16 * d))).toInt

/-- An operand lies outside its range: status 4 (R306, R308, R310). -/
def rangeBad (maj : Nat) (l : Lay) (es : Nat) (a b c : Word) : Bool :=
  match maj with
  | 0x59 => c.toNat = 0 || c.toNat > 2 ^ 32 - 1
  | 0x5C =>
    c.toNat = 0 || c.toNat % es ≠ 0 || c.toNat > 2 ^ 32 - 1 || overlaps a.toNat c.toNat b.toNat c.toNat
  | 0x58 => (List.range 4).any fun d => d ≥ l.rank && coord b d ≠ 0
  | 0x5D => bits b 63 60 ≠ 0 || bits b 39 28 ≥ bits l.conv 51 40 || bits b 27 16 ≥ bits l.conv 63 52
  | _ => false

/-- Strides that an instruction uses. -/
def usedStrides (maj : Nat) (l : Lay) : List Word :=
  match maj with
  | 0x58 => (l.st.take l.rank).drop 1
  | 0x5D => l.st.drop 1
  | _ => (l.st.take 2).drop 1

/-- An address, stride or index list is not aligned as the instruction requires: cause 0x08 (R306-R309), with the address. -/
def alignBad (maj : Nat) (l : Lay) (es : Nat) (a b c : Word) : Option Word :=
  match maj with
  | 0x59 => none
  | 0x5C => if a.toNat % es ≠ 0 then some a else if b.toNat % es ≠ 0 then some b else none
  | _ =>
    if l.base.toNat % l.es ≠ 0 || (usedStrides maj l).any fun x => x.toNat % l.es ≠ 0 then some l.base
    else if maj = 0x58 && c.toNat % l.es ≠ 0 then some c
    else if (maj = 0x5A || maj = 0x5B) && b.toNat % 4 ≠ 0 then some b
    else none

/-! What an operation moves. -/

/-- One element's move: from an address, or the fill element, to an address. -/
structure Move where
  org : Option Word
  dst : Word
  deriving DecidableEq, Repr

/-- Element size of an operation's moves, in bytes: single bytes for `cpl`. -/
def copyEs (maj fn : Nat) (layout : List Word) : Nat :=
  match maj with
  | 0x59 => 1
  | 0x5C => fwidth (fn / 4) / 8
  | _ => (layOf layout).es

/-- The moves of an operation. -/
def Copy.total (c : Copy) : Nat := c.nominal / copyEs c.maj c.fn c.layout

/-- The row of move i of a `cpg` or `cps`. -/
def Copy.row (c : Copy) (i : Nat) : Nat := i / max 1 (at4 (layOf c.layout).box 0)

/-- BASE + strides × coordinates. -/
def tensorAddr (l : Lay) (ix : List Int) : Word :=
  (l.st.zip ix).foldl (fun a (st, i) => a + st * BitVec.ofInt 64 i) l.base

/-- Box position of move i. -/
def boxPos (l : Lay) (i : Nat) : List Nat :=
  [i % at4 l.box 0, i / at4 l.box 0 % at4 l.box 1, i / (at4 l.box 0 * at4 l.box 1) % at4 l.box 2,
   i / (at4 l.box 0 * at4 l.box 1 * at4 l.box 2)]

/-- Move i of a `cpt` (R308); none where nothing is written. -/
def tensorMove (c : Copy) (l : Lay) (i : Nat) : Option Move :=
  let ix := (boxPos l i).zipIdx.map fun (b, d) => coord c.s2 d + b
  let t := tensorAddr l ix
  let o := c.s3 + w64 (l.es * i)
  let inside := (List.range l.rank).all fun d => 0 ≤ ix.getD d 0 && ix.getD d 0 < at4 l.dims d
  if c.dir then (if inside then some ⟨some o, t⟩ else none)
  else some ⟨if inside then some t else none, o⟩

/-- Move i of a `cpim` (R310). -/
def convMove (c : Copy) (l : Lay) (i : Nat) : Move :=
  let f := fun hi lo => bits l.conv hi lo
  let g := fun hi lo => bits c.s2 hi lo
  let ow := f 63 52
  let oh := f 51 40
  let r := i / at4 l.box 0
  let j := i % at4 l.box 0
  let q := (g 51 40 * oh + g 39 28) * ow + g 27 16 + r
  let n := q / (oh * ow)
  let ih : Int := (q / ow % oh * f 39 36 + g 59 56 * f 31 28 : Nat) - (f 23 16 : Nat)
  let iw : Int := (q % ow * f 35 32 + g 55 52 * f 27 24 : Nat) - (f 15 8 : Nat)
  let ch := g 15 0 + j
  let inside := 0 ≤ ih && ih < at4 l.dims 2 && 0 ≤ iw && iw < at4 l.dims 1 && n < at4 l.dims 3 && ch < at4 l.dims 0
  ⟨if inside then some (tensorAddr l [ch, iw, ih, n]) else none, c.s3 + w64 (l.es * i)⟩

/-- Move i of an operation; `x` is the row's index for a `cpg` or `cps` (R306-R310). A `cpl` whose destination overlaps its
source from above runs downward. -/
def Copy.move (c : Copy) (i x : Nat) : Option Move :=
  let l := layOf c.layout
  match c.maj with
  | 0x59 =>
    let down := c.s2.toNat < c.s1.toNat && c.s1.toNat < c.s2.toNat + c.nominal
    let o := w64 (if down then c.nominal - 1 - i else i)
    some ⟨some (c.s2 + o), c.s1 + o⟩
  | 0x5C => let o := w64 (copyEs c.maj c.fn c.layout * i); some ⟨some (c.s2 + o), c.s1 + o⟩
  | 0x58 => tensorMove c l i
  | 0x5D => some (convMove c l i)
  | _ =>
    let e := i % at4 l.box 0
    let t := tensorAddr l [(e : Int), (x : Int)]
    let o := c.s3 + w64 (l.es * i)
    let inside := x < at4 l.dims 1 && e < at4 l.dims 0
    if c.maj = 0x5A then some ⟨if inside then some t else none, o⟩
    else if inside then some ⟨some o, t⟩ else none

/-! Intervals (R311). -/

/-- Every sum of terms, each a stride times an index from its lowest to its highest. -/
def boxOffsets : List (Word × Nat × Nat) → List Int
  | [] => [0]
  | (st, lo, hi) :: ts => (span lo (hi + 1 - lo)).flatMap fun (i : Nat) => (boxOffsets ts).map fun x => st.toInt * i + x

/-- The smallest interval of addresses that holds elements at a base plus the terms of a strided box. Addresses are taken modulo 2^64:
where the box reaches past an end of the address space, its lowest and highest element are found among all. -/
def boxSpan (base : Word) (es : Nat) (terms : List (Word × Nat × Nat)) : Nat × Nat :=
  let ext := terms.map fun (st, lo, hi) => (min (st.toInt * lo) (st.toInt * hi), max (st.toInt * lo) (st.toInt * hi))
  let lo := (base.toNat : Int) + (ext.map (·.1)).sum
  let hi := (base.toNat : Int) + (ext.map (·.2)).sum
  let wrap := fun (x : Int) => (BitVec.ofInt 64 x).toNat
  if lo / (2 ^ 64 : Int) = hi / (2 ^ 64 : Int) then (wrap lo, wrap hi + es)
  else
    let all := (boxOffsets terms).map fun x => wrap (base.toNat + x)
    (all.foldl min (2 ^ 64), all.foldl max 0 + es)

/-- The smallest interval that holds n consecutive bytes: the whole address space where they pass its end. -/
def lineSpan (a : Word) (n : Nat) : Nat × Nat := if a.toNat + n ≤ 2 ^ 64 then (a.toNat, a.toNat + n) else (0, 2 ^ 64)

/-- The in-range part of a `cpt`'s box, when there is one. -/
def tensorSpan (c : Copy) (l : Lay) : Option (Nat × Nat) :=
  let terms := (List.range l.rank).map fun d =>
    (l.st.getD d 0, max 0 (coord c.s2 d), min (at4 l.dims d : Int) (coord c.s2 d + at4 l.box d) - 1)
  if terms.any fun (_, lo, hi) => hi < lo then none
  else some (boxSpan l.base l.es (terms.map fun (st, lo, hi) => (st, lo.toNat, hi.toNat)))

/-- The READ and the WRITE interval of an operation, each when it has one (R311). -/
def Copy.spans (c : Copy) : Option (Nat × Nat) × Option (Nat × Nat) :=
  let l := layOf c.layout
  let at_ := fun (a : Word) => some (lineSpan a c.nominal)
  let table := some (boxSpan l.base l.es [(w64 l.es, 0, min (at4 l.box 0) (at4 l.dims 0) - 1), (l.st.getD 1 0, 0, at4 l.dims 1 - 1)])
  match c.maj with
  | 0x59 | 0x5C => (at_ c.s2, at_ c.s1)
  | 0x58 => if c.dir then (at_ c.s3, tensorSpan c l) else (tensorSpan c l, at_ c.s3)
  | 0x5D => (some (boxSpan l.base l.es (l.st.zip (l.dims.map fun n => (0, n - 1)))), at_ c.s3)
  | 0x5A => (table, at_ c.s3)
  | _ => (at_ c.s3, table)

/-- The range-lock entries of an operation. -/
def Copy.locks (c : Copy) (own : Bool) : List RangeLock :=
  let mk := fun (w : Bool) (i : Option (Nat × Nat)) =>
    match i with
    | some (lo, hi) => [({ asid := asidOf c.satp, part := c.part, write := w, lo := lo, hi := hi, copy := c.id, own := own } : RangeLock)]
    | none => []
  mk false c.spans.1 ++ mk true c.spans.2

/-- Two operations conflict (R313). -/
def copiesConflict (a b : Copy) : Bool :=
  a.part = b.part && asidOf a.satp = asidOf b.satp &&
  (a.locks true).any fun x => (b.locks true).any fun y => (x.write || y.write) && x.lo < y.hi && y.lo < x.hi

/-! Accesses of an engine (R315, R316, R503). -/

/-- Whose accesses an engine makes. -/
def copyCtx (s : State) (c : Copy) : Ctx :=
  { part := c.part, satp := c.satp, user := true, side := 0, die := c.die, core := c.core, cache := 64 * c.die + c.core
    adue := (part s c.part).adue }

/-- Why an operation goes no further: a translation fault, an access fault, or a wait. -/
inductive CFlt
  | xlat (code : Nat) (va : Word) (write : Bool)
  | fault (va : Word) (write : Bool)
  | hold
  deriving DecidableEq, Repr

/-- An engine's access to scratch (R183, R503): some true when it is performed, none when it is held. -/
def copyScratch (s : State) (c : Copy) (pa n : Nat) : Option Bool :=
  if pa / 2 ^ 32 ≠ 0 then some false
  else match team? s c.part (asidOf c.satp) (pa / 2 ^ 20) with
  | none => some false
  | some t =>
    let fits := pa % 2 ^ 20 + n ≤ 4096 * t.desc.scrpg
    match t.st with
    | .resident => some fits
    | .loading => none
    | .saving => some (fits && (c.touchAll || c.touches.contains t.num))
    | _ => some false

/-- Where bytes of a line land for an engine. A request outside the partition, a PTE or PAT read among them, or to a page private to another
agent, leaves a boundary record (R30, R357, R367). A `cpr` reads what it adds to (R306, R316). -/
def copyReach (s : State) (c : Copy) (va : Word) (n : Nat) (wr : Bool) : Except CFlt Loc × State :=
  let acc : Acc := if wr then .store else .load
  if xlatWaits s (copyCtx s c) va acc then (.error .hold, s)
  else match translate s (copyCtx s c) va acc with
  | (.error code, s') =>
    if code = 0x0B then
      (.error (.fault va wr), match refusedAt s (copyCtx s c) va acc with
        | some pa => errRecord s' { kind := 0, part := c.part, req := 1, pa := pa, tid := c.tid }
        | none => s')
    else (.error (.xlat code va wr), s')
  | (.ok (pa, pat), s) =>
    if bits pat 3 2 = 3 then
      (match copyScratch s c pa n with
        | none => .error .hold
        | some false => .error (.fault va wr)
        | some true =>
          if routeOpen s c.die (team s c.part (asidOf c.satp) (pa / 2 ^ 20)).die
          then .ok (.scr (asidOf c.satp) (pa / 2 ^ 20) (pa % 2 ^ 20) (bit pat 7)) else .error .hold, s)
    else if !inRanges s c.part pa n then
      (.error (.fault va wr), errRecord s { kind := 0, part := c.part, req := 1, pa := pa, tid := c.tid })
    else if lineHeld s hwKey pa n || !homeOpen s c.die pa then (.error .hold, s)
    else if (!wr || c.maj = 0x5C) && poisoned s pa n then (.error (.fault va wr), s)
    else (.ok (.mem pa pat), freeEvict s (pa / 64))

/-- Bytes read where they landed, coherent with the core's SRAM and L1 (R337). -/
def copyGet (s : State) (c : Copy) (l : Loc) (n : Nat) : List Byte × State :=
  match l with
  | .scr asid num off _ => (scratchRead (team s c.part asid num) off n, s)
  | .mem pa pat =>
    let s := pin s c.part pat pa
    if managed pat then
      let (x, s) := fillL1 s (64 * c.die + c.core) (pa / 64)
      ((span (pa % 64) n).map fun o => mget 0 x.data o, fitL1 s (64 * c.die + c.core))
    else (rdBytes s pa n, s)

/-- Bytes written where they landed. -/
def copyPut (s : State) (c : Copy) (l : Loc) (bs : List Byte) : State :=
  match l with
  | .scr asid num off r =>
    let a := locKey c.part (.scr asid num off r)
    modTeam { s with resvs := s.resvs.filter fun (_, b, n) => !overlaps a bs.length b n } c.part asid num fun t =>
      { t with scratch := scratchWrite t.scratch off bs }
  | .mem pa pat =>
    let s := pin s c.part pat pa
    if managed pat then
      let (x, s) := fillL1 s (64 * c.die + c.core) (pa / 64)
      let put := fun (m : SMap Byte × SMap Bool) (i : Nat) => (mset 0 m.1 (pa % 64 + i) (bs.getD i 0), mset false m.2 (pa % 64 + i) true)
      let (d, dd) := (List.range bs.length).foldl put (x.data, x.dirty)
      fitL1 { s with l1 := s.l1.map fun l => if l.core = x.core && l.line = x.line then { l with data := d, dirty := dd } else l }
        (64 * c.die + c.core)
    else wrBytes (invalidate s pat pa) hwKey pa bs

/-- An element update of a `cpr` acts at the home of its line (R306): the core's own copy is written back and dropped first. -/
def copyAtHome (s : State) (c : Copy) (l : Loc) : Loc × State :=
  match l with
  | .mem pa pat =>
    if c.maj = 0x5C && managed pat then (.mem pa (setBits pat 5 4 0), evictL1 s (64 * c.die + c.core) (pa / 64)) else (l, s)
  | .scr _ _ _ _ => (l, s)

/-- Every cut of n bytes from an address, reached in ascending order. -/
def copyReaches (s : State) (c : Copy) (wr : Bool) : List (Word × Nat) → Except CFlt (List (Loc × Nat)) × State
  | [] => (.ok [], s)
  | (va, n) :: l =>
    match copyReach s c va n wr with
    | (.error e, s) => (.error e, s)
    | (.ok x, s) =>
      match copyReaches s c wr l with
      | (.error e, s) => (.error e, s)
      | (.ok xs, s) => (.ok ((x, n) :: xs), s)

/-- n bytes as the engine reads them. -/
def copyRead (s : State) (c : Copy) (va : Word) (n : Nat) : Except CFlt (List Byte) × State :=
  match copyReaches s c false (lineCuts va n) with
  | (.error e, s) => (.error e, s)
  | (.ok ls, s) =>
    let (bs, s) := ls.foldl (fun (bs, s) (l, n) => let (b, s) := copyGet s c l n; (bs ++ b, s)) (([], s) : List Byte × State)
    (.ok bs, s)

/-- A source byte that the operation itself has written: its original contents or the written value, freely (R314). -/
def copyOrig (c : Copy) (va : Word) (bs : List Byte) (s : State) : List Byte × State :=
  (List.range bs.length).foldl (fun (out, s) i =>
    match mget? c.orig (va.toNat + i) with
    | some b =>
      let (f, s) := freshBool s
      (out ++ [if f then b else bs.getD i 0], s)
    | none => (out ++ [bs.getD i 0], s)) ([], s)

/-- The sum of a `cpr` element: its bytes and flags (R306). -/
def reduceElt (fn : Nat) (d v : List Byte) : List Byte × Nat :=
  let f := fn / 4
  if f = 6 then (toBytes 4 (fitInt 6 false (ival 6 (ofBytes d) + ival 6 (ofBytes v))).bits, 0)
  else
    let (x, fl) := fadd .rne (fval (ffmt f) (ofBytes d)) (fval (ffmt f) (ofBytes v))
    let r := roundTo (ffmt f) .rne false 0 x
    (toBytes (fwidth f / 8) r.bits, fl ||| r.flags)

/-- A byte that the operation has written was a source byte copied before: each byte that it was copied to holds the original or the
written value, freely (R314), and so on from there. -/
def recopy (c : Copy) (s : State) : Nat → Nat → Byte → State
  | 0, _, _ => s
  | n + 1, a, b =>
    (mget [] c.copied a).foldl (fun s d =>
      let (f, s) := freshBool s
      if f then
        match copyReach s c (w64 d) 1 true with
        | (.ok l, s) => recopy c (copyPut s c l [b]) n d b
        | (.error _, s) => s
      else s) s

/-- A move has replaced n bytes: what they held before is a copy of no source byte any more (R314). -/
def forgetCopied (c : Copy) (dst : Word) (n : Nat) : Copy :=
  { c with copied := c.copied.map fun (a, l) => (a, l.filter fun d => d < dst.toNat || dst.toNat + n ≤ d) }

/-- The operation's source bytes that its writes may meet, each with where a move has copied it (R314). -/
def noteCopied (c : Copy) (org : Option Word) (dst : Word) (n : Nat) : Copy :=
  match org, c.spans.2 with
  | some a, some (lo, hi) =>
    if c.maj = 0x59 || c.maj = 0x5C then c
    else { c with copied := (List.range n).foldl (fun m i =>
        let x := a.toNat + i
        if lo ≤ x && x < hi then mset [] m x (mget [] m x ++ [dst.toNat + i]) else m) c.copied }
  | _, _ => c

/-- Bytes written by a move; source bytes of the operation that they overwrite are kept, and where those were copied before, the choice
of R314 is made. -/
def copyWrite (s : State) (c : Copy) (va : Word) (bs : List Byte) : Except CFlt Copy × State :=
  match copyReaches s c true (lineCuts va bs.length) with
  | (.error e, s) => (.error e, s)
  | (.ok ls, s) =>
    let (ls, s) := ls.foldl (fun (ls, s) (l, n) => let (l, s) := copyAtHome s c l; (ls ++ [(l, n)], s)) (([], s) : List (Loc × Nat) × State)
    let (old, s) := ls.foldl (fun (bs, s) (l, n) => let (b, s) := copyGet s c l n; (bs ++ b, s)) (([], s) : List Byte × State)
    let src := if c.maj = 0x59 || c.maj = 0x5C then none else c.spans.1
    let orig := match src with
      | some (lo, hi) => (List.range bs.length).foldl (fun m i =>
          let a := va.toNat + i
          if lo ≤ a && a < hi && (mget? m a).isNone then mput m a (old.getD i 0) else m) c.orig
      | none => c.orig
    let (bs, fl) := if c.maj = 0x5C then reduceElt c.fn old bs else (bs, 0)
    let (s, _) := ls.foldl (fun (s, bs) (l, n) => (copyPut s c l (bs.take n), bs.drop n)) (s, bs)
    let s := if c.copied = [] then s
      else (List.range bs.length).foldl (fun s i => recopy c s c.copied.length (va.toNat + i) (bs.getD i 0)) s
    (.ok { c with orig := orig, flags := c.flags ||| fl, done := c.done + 1 }, s)

/-- The index of a move's row, read once for each row (R309). -/
def copyIndex (s : State) (c : Copy) : Except CFlt Copy × State :=
  if c.maj ≠ 0x5A && c.maj ≠ 0x5B then (.ok c, s)
  else
    let j := c.row c.done
    match c.index with
    | some (r, _) => if r = j then (.ok c, s) else
      match copyRead s c (c.s2 + w64 (4 * j)) 4 with
      | (.error e, s) => (.error e, s)
      | (.ok bs, s) => (.ok { c with index := some (j, ofBytes bs) }, s)
    | none =>
      match copyRead s c (c.s2 + w64 (4 * j)) 4 with
      | (.error e, s) => (.error e, s)
      | (.ok bs, s) => (.ok { c with index := some (j, ofBytes bs) }, s)

/-- The next move of an operation, its row's index read. -/
def copyMove (s : State) (c : Copy) : Except CFlt Copy × State :=
  let es := copyEs c.maj c.fn c.layout
  match c.move c.done ((c.index.map (·.2)).getD 0) with
  | none => (.ok { c with done := c.done + 1 }, s)
  | some m =>
    match m.org with
    | none =>
      match copyWrite s c m.dst (toBytes es (layOf c.layout).fill) with
      | (.error e, s) => (.error e, s)
      | (.ok c, s) => (.ok (forgetCopied c m.dst es), s)
    | some a =>
      match copyRead s c a es with
      | (.error e, s) => (.error e, s)
      | (.ok bs, s) =>
        let (bs, s) := copyOrig c a bs s
        match copyWrite s c m.dst bs with
        | (.error e, s) => (.error e, s)
        | (.ok c, s) => (.ok (noteCopied (forgetCopied c m.dst es) (some a) m.dst es), s)

/-- The next move of an operation: what stops it, and the operation, which keeps the index that it has read (R309). -/
def copyStep (s : State) (c : Copy) : (Copy × Option CFlt) × State :=
  match copyIndex s c with
  | (.error e, s) => ((c, some e), s)
  | (.ok c, s) =>
    match copyMove s c with
    | (.error e, s) => ((c, some e), s)
    | (.ok c, s) => ((c, none), s)

/-- At most n moves: the operation, and what stopped it when something did. -/
def copyRun (s : State) (c : Copy) : Nat → (Copy × Option CFlt) × State
  | 0 => ((c, none), s)
  | n + 1 =>
    if c.done ≥ c.total then ((c, none), s)
    else match copyStep s c with
    | ((c, some e), s) => ((c, some e), s)
    | ((c, none), s) => copyRun s c n

/-! Issue (R302-R304, R320). -/

/-- Destination home and scratch touched, by the classing translations (R503). -/
def classCopy (s : State) (c : Copy) : Copy :=
  let x := copyCtx s c
  let cls := fun (i : Option (Nat × Nat)) (acc : Acc) => (i.map fun (lo, _) => (translate s x (w64 lo) acc).1 : Option Xlat)
  let rd := cls c.spans.1 .load
  let wr := cls c.spans.2 .store
  let failed := fun (r : Option Xlat) => match r with | some (.error _) => true | _ => false
  let scr := fun (r : Option Xlat) => match r with
    | some (.ok (pa, pat)) => if bits pat 3 2 = 3 && pa / 2 ^ 32 = 0 then [pa / 2 ^ 20] else []
    | _ => []
  { c with
    home := match wr with | some (.ok (_, pat)) => some (bits pat 3 2) | _ => none
    touches := scr rd ++ scr wr, touchAll := failed rd || failed wr }

/-- A classing translation is not made yet. -/
def classWaits (s : State) (c : Copy) : Bool :=
  let x := copyCtx s c
  (match c.spans.1 with | some (lo, _) => xlatWaits s x (w64 lo) .load | none => false) ||
  (match c.spans.2 with | some (lo, _) => xlatWaits s x (w64 lo) .store | none => false)

/-- The ticket of an operation (R304). -/
def Copy.ticket (c : Copy) : Word :=
  if c.solo then w64 (2 ^ 62 + c.die * 2 ^ 54 + c.core * 2 ^ 48 + c.seq) else w64 (c.team * 2 ^ 32 + c.seq)

/-- What an issue answers: the value for rd, a cause, or a full engine. -/
inductive CIss
  | val (v : Word)
  | flt (f : Flt)
  | full
  deriving DecidableEq, Repr

/-- The layout record as one ordinary load of the issuer (R303). -/
def layoutLoad (s : State) (k maj : Nat) (a : Word) : Except Flt (List Word) × State :=
  if maj = 0x59 || maj = 0x5C then (.ok [], s)
  else if a.toNat % 64 ≠ 0 then (.error (.cause 0x08 a), s)
  else match reach s k a 64 .load true with
  | (.error f, s) => (.error f, s)
  | (.ok l, s) => let (bs, s) := readLoc s k l 64; (.ok (dwords bs 8), s)

/-- The operation that a copy word of a thread asks for, its layout record loaded (R299, R303, R304). -/
def newCopy (s : State) (k maj : Nat) (w : Wide) (ws : List Word) : Copy :=
  let t := thr s k
  let tm := teamK? s k
  let c := src t w.s3
  { id := s.nextId, part := t.part, satp := t.satp, solo := tm.isNone, die := coreOf k / 64, core := coreOf k % 64
    team := t.team, serial := (tm.map (·.serial)).getD 0, saves := (tm.map (·.saves)).getD 0
    seq := (match tm with | some m => m.copySeq | none => (core s (coreOf k)).seq), maj := maj
    fn := w.fn.toNat, dir := w.imm11.getLsbD 8, s1 := src t w.s1, s2 := src t w.s2, s3 := c, layout := ws
    entry := w.imm11.toNat % 64, nosync := w.imm11.getLsbD 6
    state := 1, done := 0, nominal := if ws = [] then c.toNat else (layOf ws).nominal
    home := none, touches := [], touchAll := false, key := k, tid := t.tid, tidx := t.tidx, flags := 0, index := none, orig := []
    frame := t.frame }

/-- One operation's issue by its leader (R303, R304). -/
def copyIssue (maj : Nat) (w : Wide) (s : State) (k : Nat) : CIss × State :=
  let t := thr s k
  let a := src t w.s1
  let b := src t w.s2
  let c := src t w.s3
  let ent := w.imm11.toNat % 64
  let nosync := w.imm11.getLsbD 6
  let cr := coreOf k
  match layoutLoad s k maj a with
  | (.error f, s) => (.flt f, s)
  | (.ok ws, s) =>
    let l := layOf ws
    let es := copyEs maj w.fn.toNat ws
    let tm := teamK? s k
    if ws ≠ [] && layBad maj ws then (.val (stw 5), s)
    else if !nosync && (match tm with | some m => ent ≥ m.desc.syncs | none => true) then (.val (stw 2), s)
    else if !nosync && (match tm with | some m => (syncOf m ent).kind = 0 | none => true) then (.val (stw 3), s)
    else if rangeBad maj l es a b c then (.val (stw 4), s)
    else match alignBad maj l es a b c with
    | some v => (.flt (.cause 0x08 v), s)
    | none =>
      if !roomIn s k .copies then (.full, s)
      else
        let x := newCopy s k maj w ws
        if classWaits s x then (.flt .hold, s)
        else
          let x := classCopy s x
          let next := (x.seq + 1) % 2 ^ 32
          let s := match tm with
            | some m => modTeam s m.part m.asid m.num fun m => { m with copySeq := next, ops := m.ops + 1 }
            | none => modCore s cr fun y => { y with seq := next }
          let s := modCore s cr fun y => { y with rlocks := y.rlocks ++ x.locks true }
          (.val x.ticket, { s with copies := s.copies ++ [x], nextId := s.nextId + 1 })

/-- The issuers of a copy word (R302): with ONE, the gangs of the group with their leaders; else each thread. -/
def copyUnits (s : State) (one : Bool) : List (List Nat × Option Nat) :=
  let ks := s.cur.keys
  if one then
    let id := fun k => if (thr s k).team = 0 then (0, k) else ((thr s k).team, gangNo (thr s k))
    (uniq (ks.map id)).map fun x =>
      let g := ks.filter fun k => id k = x
      (g, leaderOf s g)
  else ks.map fun k => ([k], if (thr s k).helper then none else some k)

/-- A copy word (R300-R305). With ONE, every thread of the gang receives the leader's ticket, its helpers too: R302 gives it to every
thread, R154 and R303 give a helper zero (log 36). -/
def copyWord (maj : Nat) (w : Wide) (s : State) : Host.Outcome State Fault Refusal :=
  .next ((copyUnits s (w.imm11.getLsbD 7)).foldl (fun s (g, l) =>
    match l with
    | none => g.foldl (fun s k => modThr s k (endWord w 0)) s
    | some l =>
      match copyIssue maj w s l with
      | (.val v, s) => g.foldl (fun s k => modThr s k (endWord w v)) s
      | (.flt .hold, _) => s
      | (.flt f, s) => g.foldl (fun s k => raiseFlt s k f .load) s
      | (.full, s) => g.foldl (blockRoom .copies) s) s)

/-- `cpl` (R306). -/
def execCpl (w : Wide) (s : State) : Host.Outcome State Fault Refusal := copyWord 0x59 w s

/-- `cpr` (R306). -/
def execCpr (w : Wide) (s : State) : Host.Outcome State Fault Refusal := copyWord 0x5C w s

/-- `cpt` (R308). -/
def execCpt (w : Wide) (s : State) : Host.Outcome State Fault Refusal := copyWord 0x58 w s

/-- `cpg` (R309). -/
def execCpg (w : Wide) (s : State) : Host.Outcome State Fault Refusal := copyWord 0x5A w s

/-- `cps` (R309). -/
def execCps (w : Wide) (s : State) : Host.Outcome State Fault Refusal := copyWord 0x5B w s

/-- `cpim` (R310). -/
def execCpim (w : Wide) (s : State) : Host.Outcome State Fault Refusal := copyWord 0x5D w s

/-! cpq (R319). -/

/-- The operation of a ticket: a team's in the context, a solo thread's in the partition (R304, R319). -/
def copyOfTicket (s : State) (p asid : Nat) (v : Word) : Option Copy :=
  s.copies.find? fun c => c.part = p && (c.solo || asidOf c.satp = asid) && c.ticket = v

/-- A ticket that `cpq` refuses with status 4 (R319). -/
def badTicket (s : State) (p asid : Nat) (v : Word) : Bool :=
  let solo := bit v 62
  let cr := bits v 55 54 * 64 + bits v 53 48
  let next := if solo then some (core s cr).seq else (team? s p asid (bits v 43 32)).map (·.copySeq)
  bit v 63 || bits v 61 56 ≠ 0 || bits v 47 44 ≠ 0 ||
  (if solo then bits v 43 32 ≠ 0 || !ownsCore s p cr else bits v 55 48 ≠ 0 || bits v 43 32 = 0) ||
  match next with
  | none => true
  | some n => (bits v 31 0 + 2 ^ 32 - n) % 2 ^ 32 < 2 ^ 31

/-- `cpq` (R319). -/
def execCpq (w : Wide) (s : State) : Host.Outcome State Fault Refusal :=
  .next (forKeys s fun s k =>
    let t := thr s k
    let v := src t w.s1
    modThr s k (endWord w (
      if t.helper then 0
      else if badTicket s t.part (asidOf t.satp) v then stw 4
      else match copyOfTicket s t.part (asidOf t.satp) v with
      | some c => w64 ((c.nominal - c.done * copyEs c.maj c.fn c.layout) * 16 + c.state)
      | none => 0)))

/-! The engine's steps (R299, R313-R318). -/

/-- Sets an operation. -/
def setCopy (s : State) (c : Copy) : State := { s with copies := s.copies.map fun x => if x.id = c.id then c else x }

/-- COPY_START (R299): a QUEUED operation with no earlier conflicting one becomes ACTIVE; an ACTIVE one moves up to 64
bytes more (log 22). -/
def execCopyStart (i : Nat) (s : State) : Host.Outcome State Fault Refusal :=
  .next (match s.copies[i]? with
  | none => s
  | some c =>
    if c.state = 1 then
      if (s.copies.take i).any fun x => x.die = c.die && x.core = c.core && copiesConflict x c then s
      else setCopy s { c with state := 2 }
    else if c.state = 2 then
      let ((c, _), s) := copyRun s c (max 1 (64 / copyEs c.maj c.fn c.layout))
      setCopy s c
    else s)

/-- The teamfree of a team completes when no copy touches its scratch any more (R188): its waiters run it again. -/
def evalFreeing (s : State) : State :=
  { s with threads := s.threads.map fun (k, t) =>
      match t.wait with
      | .freeing n =>
        if (s.copies.any fun c => c.part = partOf s k && asidOf c.satp = asidK s k && (c.touchAll || c.touches.contains n)) then (k, t)
        else (k, { t with wait := .none, wus := 0, st := if t.st = .blocked then .ready else t.st, age := s.cycle })
      | _ => (k, t) }

/-- An operation retires (R299): it leaves its engine, its range locks are released, and who waits for that is woken. -/
def retireCopy (s : State) (c : Copy) : State :=
  let s := { s with
    copies := s.copies.filter fun x => x.id ≠ c.id
    cores := s.cores.map fun (i, x) => (i, { x with rlocks := x.rlocks.filter fun e => e.copy ≠ c.id }) }
  let s := if c.solo then s else opEnded s c.part (asidOf c.satp) c.team c.serial
  evalDrains (evalFreeing (wakeRoom s))

/-- Flags of a solo thread's operation (R306): on the thread where it runs, else in its frame; discarded after its exit. -/
def soloFlags (s : State) (die p tid frame fl : Nat) : State :=
  if fl = 0 || (ended? s p tid).isSome then s
  else match s.threads.find? fun (k, t) => partOf s k = p && t.tid = tid && !t.helper && t.st ≠ .exited && !isCob k with
  | some (k, _) => modThr s k (giveFlagsTo fl)
  | none => flagsInFrame s die frame fl

/-- COPY_DONE (R317): the last write, the credit, the release of the locks and retirement are one action. -/
def execCopyDone (i : Nat) (s : State) : Host.Outcome State Fault Refusal :=
  .next (match s.copies[i]? with
  | none => s
  | some c =>
    if c.state ≠ 2 then s
    else match copyRun s c (c.total - c.done) with
    | ((c, none), s) =>
      let s := if c.solo then soloFlags s c.die c.part c.tid c.frame c.flags
        else land s c.part (asidOf c.satp) c.team c.serial
          { entry := if c.nosync then none else some c.entry, bytes := c.nominal, tidx := c.tidx, flags := c.flags }
      retireCopy s c
    | _ => s)

/-- The fault record of an operation (R315, R316, R447): kind 2. -/
def copyRecord (s : State) (c : Copy) (code : Nat) (va : Word) (wr faulted : Bool) : State :=
  postFault s c.part (faultRecord 2 (ended? s c.part c.tid).isSome false false false code c.team c.tid 0 va 0 c.ticket
    (asidOf c.satp) 0 (w64 (b2n faulted * 256 + b2n wr)))

/-- COPY_TRANSLATION_FAULT (R315): the operation moves up to the faulting byte and stalls, with a record. -/
def execCopyTranslationFault (i : Nat) (s : State) : Host.Outcome State Fault Refusal :=
  .next (match s.copies[i]? with
  | none => s
  | some c =>
    if c.state ≠ 2 then s
    else match copyRun s c (c.total - c.done) with
    | ((c, some (.xlat code va wr)), s) => copyRecord (setCopy s { c with state := 3 }) { c with state := 3 } code va wr false
    | _ => s)

/-- COPY_FAULTED (R316): the operation moves up to the faulting byte and ends without a credit, with a record. -/
def execCopyFaulted (i : Nat) (s : State) : Host.Outcome State Fault Refusal :=
  .next (match s.copies[i]? with
  | none => s
  | some c =>
    if c.state ≠ 2 then s
    else match copyRun s c (c.total - c.done) with
    | ((c, some (.fault va wr)), s) => copyRecord (retireCopy s c) c 0x0B va wr true
    | _ => s)

/-- The operations that `p` names are DISCARDED (R299, R318). -/
def discardCopies (s : State) (p : Copy → Bool) : State := (s.copies.filter p).foldl retireCopy s

/-- An operation ends as its team is lost or freed (R298, R299, R318). What is in flight still writes memory (R194): an ACTIVE operation
makes a free number of further moves, none in the lost team's scratch, and is then DISCARDED (log 36). -/
def loseCopy (s : State) (c : Copy) : State :=
  if c.state = 2 then
    let (n, s) := freshNat s
    retireCopy (copyRun s c n).2 c
  else retireCopy s c

/-- Every outstanding operation of a team that is forcibly reset or freed ends (R299, R318). -/
def loseCopies (s : State) (t : Team) : State :=
  (s.copies.filter fun c => !c.solo && c.part = t.part && asidOf c.satp = t.asid && c.team = t.num && c.serial = t.serial).foldl loseCopy s

end Sys2Proof.Machine
end

