-- ==== Sys2Proof/Machine/Team.lean ====
section
/-! DEFINITION. Teams: descriptors, placement, admission, freeing, saving, loading and information (R174-R201), and the
debug commands on a team (R461-R463). -/

namespace Sys2Proof.Machine

/-! Descriptors (R176, R177). -/

/-- The fields of a descriptor's doublewords. -/
def descOf (l : List Word) : Desc :=
  let d := dw l 0
  { limit := bits d 9 0, gw := 16 * 2 ^ bits d 11 10, cls := bits d 13 12, hint := bits d 15 14, hdie := bits d 17 16
    hcluster := bits d 21 18, strict := bit d 22, nowait := bit d 23, tiles := bits d 39 32, syncs := bits d 46 40
    accs := bits d 52 47, scrpg := bits (dw l 1) 7 0, frames := bits (dw l 2) 63 10 * 1024 }

/-- A descriptor is invalid (R177). -/
def descBad (s : State) (p : Nat) (l : List Word) : Bool :=
  let d := descOf l
  bits (dw l 0) 63 53 ≠ 0 || bits (dw l 0) 31 24 ≠ 0 || bits (dw l 1) 63 8 ≠ 0 || bits (dw l 2) 9 0 ≠ 0 ||
  (l.drop 3).any (· ≠ 0) || d.limit = 0 || d.limit > 960 || d.gw = 128 || d.hint = 3 || d.tiles > 32 || d.syncs > 64 ||
  d.accs > 32 || d.scrpg > 192 || !inRanges s p d.frames (1024 * d.l4)

/-! Placement (R179, R180). -/

/-- Slots of a lane of a core that neither hold a thread nor are reserved or held. -/
def laneFree (idle : List Nat) (l : Nat) : List Nat := idle.filter fun k => laneOf k = l

/-- Copies of a team that were issued on another core than c. -/
def foreignCopies (s : State) (t : Team) (c : Nat) : List Copy :=
  s.copies.filter fun x => !x.solo && x.part = t.part && asidOf x.satp = t.asid && x.team = t.num && x.serial = t.serial && 64 * x.die + x.core ≠ c

/-- The core fits a descriptor (R179), for a team whose copies elsewhere number `away`. -/
def fits (s : State) (d : Desc) (away : Nat) (c : Nat) : Bool :=
  let on := s.teams.filter fun t => placed t && teamCore t = c
  let cl := s.teams.filter fun t => placed t && teamCore t / 4 = c / 4
  let idle := idleSlots s c
  (List.range 64).all (fun l => ((List.range d.l4).filter fun i => i % 64 = l).length ≤ (laneFree idle l).length) &&
  on.length < 16 && (on.map (·.desc.scrpg)).sum + d.scrpg ≤ 192 &&
  (on.map (·.desc.tiles)).sum + d.tiles ≤ 32 && (on.map (·.desc.syncs)).sum + d.syncs ≤ 64 &&
  (cl.map (·.desc.accs)).sum + d.accs ≤ 32 &&
  ((core s c).rlocks.filter fun e => !e.own).length + 2 * away ≤ 32

/-- The core with the most free user slots, ties to the lowest (R180). -/
def mostFree (s : State) : List Nat → Option Nat
  | [] => none
  | c :: cs =>
    match mostFree s cs with
    | none => some c
    | some b => if (idleSlots s b).length > (idleSlots s c).length then some b else some c

/-- The core of a hint's candidate set that a team is placed on, with the fall-back of HSTRICT (R180). -/
def hintPlace (s : State) (p : Nat) (d : Desc) (away : Nat → Nat) : Option Nat :=
  let all := coresOf s p
  let set := match d.hint with
    | 1 => all.filter fun c => c / 64 = d.hdie
    | 2 => all.filter fun c => c / 4 = 16 * d.hdie + d.hcluster
    | _ => all
  let ok := fun (l : List Nat) => mostFree s (l.filter fun c => fits s d (away c) c)
  match ok set with
  | some c => some c
  | none => if d.strict && d.hint ≠ 0 then none else ok all

/-- A strict hint that names what the partition does not own (R180). -/
def hintBad (s : State) (p : Nat) (d : Desc) : Bool :=
  d.strict && match d.hint with
  | 1 => !ownsDie s p d.hdie
  | 2 => !ownsCore s p (64 * d.hdie + 4 * d.hcluster)
  | _ => false

/-- Reserved slots for every index below L4: in lane i mod 64, a free user slot that hardware chooses (R21, log 3). -/
def reserveSlots (s : State) (c : Nat) (d : Desc) : SMap Nat × State :=
  let (m, _, s) := (List.range d.l4).foldl (fun (m, idle, s) i =>
    let (k, s) := choose s (laneFree idle (i % 64))
    match k with
    | some k => (mset 0 m i (slotOf k), idle.filter (· ≠ k), s)
    | none => (m, idle, s)) (([], idleSlots s c, s) : SMap Nat × List Nat × State)
  (m, s)

/-- The lowest team number that is free in a context (R182). -/
def freeNumber (s : State) (p asid : Nat) : Option Nat :=
  (span 1 4095).find? fun n => (team? s p asid n).isNone

/-- No team number or no entry of the scratch map is left (R182). -/
def noNumber (s : State) (p asid : Nat) : Bool :=
  (s.teams.filter fun t => t.part = p).length ≥ 1024 || (freeNumber s p asid).isNone

/-- A new team on a core (R181, R182), whose L1 gives way to its scratch (R25, R179). Where in the core's SRAM its scratch lies the spec does not say: a free value (log 36). -/
def admitTeam (s : State) (p asid num c : Nat) (d : Desc) : State :=
  let (slots, s) := reserveSlots s c d
  let serial := mget 0 (part s p).serials asid
  let s := modPart s p fun q => { q with serials := mset 0 q.serials asid ((serial + 1) % 2 ^ 32) }
  let (off, s) := freshNat s
  let t : Team :=
    { off := off, part := p, asid := asid, num := num, st := .resident, serial := serial, die := c / 64, core := c % 64, desc := d, slots := slots
      seeds := (List.range 60).map fun g => 0x9E37_79B9_7F4A_7C15#64 ^^^ w64 g }
  fitL1 { s with teams := s.teams ++ [t] } c

/-- A failed `teamnew` writes this with its status (R186). -/
def newFail (c : Nat) : Word := w64 (0xC000_0000_0000_0000 + c)

/-! teamnew and the admission queue (R187). -/

/-- The descriptor as an ordinary load of the issuer. -/
def descLoad (s : State) (k : Nat) (a : Word) : Except Flt (List Word) × State :=
  if a.toNat % 64 ≠ 0 then (.error (.cause 0x08 a), s)
  else match reach s k a 64 .load true with
  | (.error f, s) => (.error f, s)
  | (.ok l, s) => let (bs, s) := readLoc s k l 64; (.ok (dwords bs 8), s)

/-- The value that a request answers now, or none while it waits. A request that finds no number or map entry free is answered 9 before it
is placed: R182 and R187 do not order that against the placement (log 36). -/
def tryAdmit (s : State) (p asid : Nat) (l : List Word) (first : Bool) : Option Word × State :=
  let d := descOf l
  if descBad s p l then (some (newFail 3), s)
  else if hintBad s p d then (some (newFail 4), s)
  else if noNumber s p asid then (some (newFail 9), s)
  else match (if first then hintPlace s p d (fun _ => 0) else none), freeNumber s p asid with
  | some c, some n => (some (w64 n), admitTeam s p asid n c d)
  | _, _ => if d.nowait then (some (newFail 1), s) else (none, s)

/-- `teamnew` on one thread or hart (R187). -/
def teamnewOne (w : Wide) (s : State) (k : Nat) : State :=
  let t := thr s k
  if t.helper then setThr s k (endWord w 0 t)
  else match descLoad s k (src t w.s1) with
  | (.error f, s) => raiseFlt s k f .load
  | (.ok l, s) =>
    let p := partOf s k
    match tryAdmit s p (asidK s k) l ((part s p).admissions = []) with
    | (some v, s) => modThr s k (endWord w v)
    | (none, s) => blockOn (modPart s p fun q => { q with admissions := q.admissions ++ [{ key := k, desc := l }] }) k w .admission

/-- `teamnew` (R187). -/
def execTeamnew (w : Wide) (s : State) : Host.Outcome State Fault Refusal := .next (forKeys s (teamnewOne w))

/-- ADMISSION (R187): the oldest request of a partition's queue, when a core fits it. -/
def execAdmission (p : Nat) (s : State) : Host.Outcome State Fault Refusal :=
  .next (match (part s p).admissions with
  | [] => s
  | r :: rs =>
    if (thr s r.key).st = .halted then s
    else match tryAdmit s p (asidK s r.key) r.desc true with
    | (some v, s) => finishWait (modPart s p fun q => { q with admissions := rs }) r.key v
    | (none, s) => s)

/-! Debug commands (R461-R463). -/

/-- What waits in a team is examined again (R159, R188, R195, R200, R463). -/
def reevaluate (s : State) (p asid num : Nat) : State :=
  let t := team s p asid num
  let s := (List.range (t.desc.l4 / 4)).foldl (fun s q => retireHelpers s p asid num q) s
  let s := (t.syncs.map (·.1)).foldl (fun s n => wakeBarrier (wakeSem s p asid num n) p asid num n) s
  let s := (List.range ((t.desc.limit + t.desc.gw - 1) / max 1 t.desc.gw)).foldl (fun s g => gangEval s p asid num g) s
  let s := (t.accInfo.filter fun (_, a) => a.st = 0 && a.waiters ≠ []).foldl (fun s (n, a) => serveAccGo s (team s p asid num) n a.waiters) s
  evalQueues (evalLaces (evalLfences (evalDrains (evalFreeing (evalPasses (wakeRoom s))))))

/-- A thread in the state that it held before a stop (R200, R463): one whose wait has ended meanwhile is ready, and what was withdrawn is
issued again. -/
def goOn (t : Thread) (before : TState) (now : Nat) : Thread :=
  let st := if before = .blocked && t.wait = .none then .ready else before
  let t := { t with st := st, age := now }
  if st = .ready || st = .blocked then reissue t else t

/-- A halted thread returns to the state it held (R463). -/
def unhalt (t : Thread) (now : Nat) : Thread := goOn t t.before now

/-- The state that a debugger's reload takes back from a halted thread's frame (R463). -/
def reloadThread (s : State) (k : Nat) : State :=
  modThr s k fun t => takeBack (readFrame s t.frame) t

/-- A resume of a resident team (R463), after a reload when asked. -/
def resumeTeam (s : State) (t : Team) (reload : Bool) : State :=
  let ks := (residents t).filter fun k => (thr s k).st = .halted
  let s := modTeam s t.part t.asid t.num fun m => { m with halt := false, stopping := none }
  let s := if reload then ks.foldl reloadThread s else s
  let s := ks.foldl (fun s k => modThr s k fun t => unhalt t s.cycle) s
  reevaluate s t.part t.asid t.num

/-- A command refused: ERR (R461). -/
def dbgRefuse (s : State) (p : Nat) : State :=
  modPart s p fun q => { q with dbgctl := setBit (setBit q.dbgctl 63 false) 62 true, dbgcmd := 0 }

/-- A debug command acts on the team that `dbgctl` names, or waits while the team is saving or loading (R461). -/
def dbgAct (s : State) (p cmd : Nat) : State :=
  let v := (part s p).dbgctl
  let asid := bits v 47 32
  let num := bits v 19 8
  let idle := fun (s : State) => modPart s p fun q => { q with dbgctl := setBit q.dbgctl 63 false, dbgcmd := 0 }
  let busy := fun (s : State) => modPart s p fun q => { q with dbgctl := setBit q.dbgctl 63 true, dbgcmd := 0 }
  match team? s p asid num with
  | none => dbgRefuse s p
  | some t =>
    match t.st with
    | .saving | .loading =>
      if cmd ≠ 1 && !t.halt then dbgRefuse s p
      else modPart s p fun q => { q with dbgctl := setBit q.dbgctl 63 true, dbgcmd := cmd }
    | .resident =>
      if cmd = 1 then
        settleStops (modTeam (busy s) p asid num fun t => { t with halt := true, stopping := some 0 })
      else if !t.halt then dbgRefuse s p
      else idle (resumeTeam s t (cmd = 3))
    | .saved =>
      let flag := fun (s : State) (b : Bool) =>
        postBits (modTeam s p asid num fun t => { t with halt := b }) t.die t.frame (~~~ (1#64 <<< 61)) (w64 (b2n b * 2 ^ 61))
      if cmd = 1 then stopDone (flag (busy s) true) p asid num 0
      else if !t.halt then dbgRefuse s p
      else idle (flag s false)
    | _ => dbgRefuse s p

/-- A command that waited acts when the save or load of its team has ended (R461). -/
def dbgResume (s : State) (p asid num : Nat) : State :=
  let v := (part s p).dbgctl
  if bit v 63 && (part s p).dbgcmd ≠ 0 && bits v 47 32 = asid && bits v 19 8 = num then dbgAct s p (part s p).dbgcmd else s

/-! teamfree (R188). -/

/-- A handle that no team instruction takes (R186). -/
def handleBad (h : Word) : Bool := hKind h ≠ 0 || bits h 61 32 ≠ 0

/-- The team that a handle names in a context. -/
def handleTeam (s : State) (p asid : Nat) (h : Word) : Option Team :=
  match (if bits h 31 0 = 0 then none else team? s p asid (bits h 31 0)) with
  | some t => if t.st = .held then none else some t
  | none => none

/-- The threads of a team on its core, helpers included, leave their slots, and a `teamnew` that one waits in leaves the admission
queue (R187). -/
def dropMembers (s : State) (t : Team) : State :=
  if placed t then
    let ks := residents t
    modPart (ks.foldl dropThr s) t.part fun q => { q with admissions := q.admissions.filter fun r => !ks.contains r.key }
  else s

/-- The team's resources are discarded, with its passes; its entry stays HELD while operations of it are outstanding (R182, R188,
R265). A debug command on the team is refused (R461), and what waited for room may find it. -/
def releaseTeam (s : State) (t : Team) : State :=
  let s := if t.stopping = some 0 then dbgRefuse s t.part else s
  let s := loseCopies (dropPasses (dropMembers s t) t) t
  let t := team s t.part t.asid t.num
  let s := { s with teams := if t.ops = 0 then s.teams.filter fun x => !(x.part = t.part && x.asid = t.asid && x.num = t.num)
      else s.teams.map fun x => if x.part = t.part && x.asid = t.asid && x.num = t.num
        then { part := t.part, asid := t.asid, num := t.num, st := .held, serial := t.serial, ops := t.ops, saves := t.saves } else x }
  wakeRoom (if (part s t.part).dbgcmd ≠ 0 then dbgResume s t.part t.asid t.num else s)

/-- `teamfree` on one thread or hart (R188). -/
def teamfreeOne (w : Wide) (s : State) (k : Nat) : State :=
  let t := thr s k
  let h := src t w.s1
  let p := partOf s k
  let done := fun (s : State) (c : Nat) => modThr s k (endWord w (w64 c))
  if t.helper then setThr s k (endWord w 0 t)
  else if handleBad h then done s 5
  else match handleTeam s p (asidK s k) h with
  | none => done s 2
  | some m =>
    match m.st with
    | .resident =>
      if liveReal m ≠ [] then done s 6
      else if s.copies.any fun c => c.part = p && asidOf c.satp = m.asid && (c.touchAll || c.touches.contains m.num) then
        blockOn s k w (.freeing m.num)
      else done (releaseTeam s m) 0
    | .saved | .lost => done (releaseTeam s m) 0
    | _ => done s 6

/-- `teamfree` (R188). -/
def execTeamfree (w : Wide) (s : State) : Host.Outcome State Fault Refusal := .next (forKeys s (teamfreeOne w))

/-! teaminfo (R189). -/

/-- `teaminfo.status` of a team. -/
def teamStatus (t : Team) : Word :=
  let code := match t.st with | .free => 0 | .resident => 1 | .saving => 2 | .saved => 3 | .loading => 4 | .lost => 5 | .held => 0
  w64 (t.serial * 2 ^ 32 + t.desc.cls * 2 ^ 30 + (if t.desc.gw = 64 then 2 else t.desc.gw / 32) * 2 ^ 28 + t.desc.limit * 2 ^ 18 +
    t.count * 256 + b2n t.halt * 16 + code)

/-- `teaminfo.place` of a team. -/
def teamPlace (t : Team) : Word :=
  if t.st = .resident then w64 (t.die * 2 ^ 20 + t.core * 2 ^ 14 + t.core / 4 * 2 ^ 10) else 0xFFFF_FFFF_FFFF_FFFF#64

/-- `teaminfo` (R189). -/
def execTeaminfo (w : Wide) (s : State) : Host.Outcome State Fault Refusal :=
  .next (forKeys s fun s k =>
    let t := thr s k
    let h := src t w.s1
    modThr s k (endWord w (
      if t.helper then 0
      else if handleBad h then newFail 5
      else match handleTeam s (partOf s k) (asidK s k) h with
      | none => newFail 2
      | some m =>
        match w.fn.toNat with
        | 0 => teamStatus m
        | 1 => teamPlace m
        | 2 => w64 (liveReal m).length
        | _ => w64 m.phase)))

/-! Saving (R190-R199). -/

/-- Bytes of a team frame (R196). -/
def frameSize (d : Desc) : Nat := 0x3000 + 1024 * d.l4 + 8192 * d.tiles + 65536 * d.accs + 4096 * d.scrpg

/-- SaveCheck (R190), its statuses in the order of R186's table. -/
def saveCheck (s : State) (p asid : Nat) (h f : Word) : Nat :=
  match handleTeam s p asid h with
  | none => 2
  | some m =>
    if handleBad h then 5
    else if m.st ≠ .resident then 6
    else if f.toNat % 4096 ≠ 0 || !inRanges s p f.toNat (frameSize m.desc) then 8
    else 0

/-- `teamsave` (R190): the team is saving, and the hart waits for the image. -/
def execTeamsave (w : Wide) (s : State) : Host.Outcome State Fault Refusal :=
  .next (forKeys s fun s k =>
    let t := thr s k
    let p := partOf s k
    let f := src t w.s2
    let st := saveCheck s p (asidK s k) (src t w.s1) f
    if st ≠ 0 then setThr s k (endWord w (w64 st) t)
    else
      let num := bits (src t w.s1) 31 0
      let s := modTeam s p (asidK s k) num fun m =>
        { m with st := .saving, saves := (m.saves + 1) % 65536, frame := f.toNat, imageDone := false
                 deadline := s.us + max 10 (bits (part s p).tsdl 15 0) }
      blockOn s k w (.teamsave num))

/-- The member table's WHERE (R198). -/
def whereCode (m : Member) : Nat :=
  match m.loc with
  | .absent0 => 0
  | .here => if m.stopped then 4 else 1
  | .away => 2
  | .gone => 3

/-- The doublewords of the header (R197). -/
def teamHeader (t : Team) : List Word :=
  [w64 (2 ^ 63 + b2n t.halt * 2 ^ 61 + t.num), w64 (t.serial * 65536 + t.saves), w64 (t.part * 65536 + t.asid), w64 t.count,
   w64 t.phase, w64 (frameSize t.desc), teamPlace { t with st := .resident }, 0]

/-- The descriptor's doublewords (R176). -/
def descWords (d : Desc) : List Word :=
  [w64 (d.accs * 2 ^ 47 + d.syncs * 2 ^ 40 + d.tiles * 2 ^ 32 + b2n d.nowait * 2 ^ 23 + b2n d.strict * 2 ^ 22 + d.hcluster * 2 ^ 18 +
      d.hdie * 2 ^ 16 + d.hint * 2 ^ 14 + d.cls * 2 ^ 12 + (if d.gw = 64 then 2 else d.gw / 32) * 2 ^ 10 + d.limit),
   w64 d.scrpg, w64 d.frames, 0, 0, 0, 0, 0]

/-- The accumulator map's byte (R196, R265). -/
def accByte (a : AccInfo) : Byte :=
  match a.st with
  | 0 => 0
  | 1 => BitVec.ofNat 8 (b2n a.int * 128 + a.gang + 1)
  | _ => BitVec.ofNat 8 (b2n a.int * 128 + 65 + a.gang)

/-- The image of a team as places and bytes, the member frames apart (R196-R198). -/
def imageParts (t : Team) : List (Nat × List Byte) :=
  let ws := fun (l : List Word) => l.flatMap fun v => toBytes 8 v.toNat
  let o1 := 0x3000 + 1024 * t.desc.l4
  let o2 := o1 + 8192 * t.desc.tiles
  let o3 := o2 + 65536 * t.desc.accs
  [(0x40, ws (descWords t.desc)),
   (0x80, ws ((List.range 32).map fun n => mget 0 t.tlcfg n)),
   (0x180, ws ((List.range 60).map fun g => t.seeds.getD g 0)),
   (0x360, (List.range 32).map fun n => accByte (accOf t n)),
   (0x380, List.replicate 128 0),
   (0x400, ws ((List.range 64).flatMap fun n => packEntry (syncOf t n))),
   (0x800, (List.range 128).map fun b => BitVec.ofNat 8 ((List.range 8).foldl (fun x i => x + b2n (mget false t.arr (8 * b + i)) * 2 ^ i) 0)),
   (0x880, List.replicate 1920 0),
   (0x1000, ws ((List.range 960).map fun i => let m := member t i; if m.loc = .absent0 then 0 else w64 (m.frame / 1024 * 1024 + whereCode m))),
   (0x2E00, List.replicate 512 0),
   (o1, (List.range (8192 * t.desc.tiles)).map fun a => mget 0 t.tiles a),
   (o2, (List.range (16384 * t.desc.accs)).flatMap fun a => toBytes 4 (mget 0 t.accs a).toNat),
   (o3, (List.range (4096 * t.desc.scrpg)).map fun a => mget 0 t.scratch a)]

/-- The image is written (R196): the parts, each resident member's frame with its state, and last the header. -/
def writeImage (s : State) (t : Team) (kept : SMap Thread) : State :=
  let f := t.frame
  let s := (imageParts t).foldl (fun s (o, bs) => wrBytes s hwKey (f + o) bs) s
  let s := kept.foldl (fun s (i, th) =>
    wrWords s (f + memberOff i) (frameWords { th with lastPlace := place (memberKey t i) } th.st th.satp (place (memberKey t i)))) s
  wrWords s f (teamHeader t)

/-- Every member on the core stands at a boundary, no copy touches the scratch, and no pass is outstanding (R190-R192). -/
def saveReady (s : State) (t : Team) : Bool :=
  (residents t).all (fun k => atBoundary (thr s k)) && teamPasses s t = [] &&
  !(s.copies.any fun c => c.part = t.part && asidOf c.satp = t.asid && (c.touchAll || c.touches.contains t.num))

/-- The hart that waits for a team's save or load. -/
def waitingHart (s : State) (p asid : Nat) (w : Wait) : Option Nat :=
  (s.threads.find? fun (k, t) => isHart k && partOf s k = p && asidK s k = asid && t.wait = w).map (·.1)

/-- A command's end for the hart that waits (R190, R200). -/
def endHart (s : State) (p asid : Nat) (w : Wait) (v : Nat) : State :=
  match waitingHart s p asid w with
  | some k => finishWait s k (w64 v)
  | none => s

/-- TEAMSAVE_IMAGE_WRITTEN (R190, R196): before the deadline the image is written, when nothing holds its lines, the resources
return, and the team is saved. A stop in progress has ended with it: every member stands at a boundary (R462). A
`teamnew` that a member waits in leaves the admission queue until the load (log 36). -/
def execTeamsaveImageWritten (p asid num : Nat) (s : State) : Host.Outcome State Fault Refusal :=
  .next (match team? s p asid num with
  | none => s
  | some t =>
    if t.st ≠ .saving || s.us ≥ t.deadline || !saveReady s t || !postClear s t.die t.frame (frameSize t.desc) then s
    else
      let s := settleStop s t
      let t := team s p asid num
      let kept := (t.members.filter fun (_, m) => m.loc = .here).map fun (i, _) => (i, capture (thr s (memberKey t i)))
      let s := writeImage s t kept
      let asks := (part s p).admissions.filterMap fun r =>
        if (residents t).contains r.key then some ((thr s r.key).tidx, r.desc) else none
      let s := dropMembers s t
      let s := modTeam s p asid num fun t =>
        { t with
          st := .saved, kept := kept, imageDone := true, slots := [], scratch := [], tiles := [], accs := [], tags := [], sweep := false
          stopping := none, heldPhase := none, asks := asks, touched := t.heldPhase.toList, exits := [] }
      let c := teamCore t
      let mine := (foreignCopies s t c).map (·.id)
      let s := modCore s c fun x => { x with rlocks := x.rlocks.filter fun e => e.own || !mine.contains e.copy }
      dbgResume (wakeRoom (endHart s p asid (.teamsave num) 0)) p asid num)

/-- SAVE_DEADLINE (R194): the team is forcibly reset, and a stop in progress is refused (R461). -/
def execSaveDeadline (p asid num : Nat) (s : State) : Host.Outcome State Fault Refusal :=
  .next (match team? s p asid num with
  | none => s
  | some t =>
    if t.st ≠ .saving || s.us < t.deadline then s
    else
      let s := { s with resvs := s.resvs.filter fun r => !(residents t).contains r.1 }
      let s := noteEnded s p (((residents t).map (thr s)).filter fun x => !x.helper)
      let s := dropPasses (dropMembers s t) t
      let s := postWords s t.die t.frame [w64 (2 ^ 62 + b2n t.halt * 2 ^ 61 + num)]
      let s := if t.stopping = some 0 then dbgRefuse s p else s
      let s := modTeam s p asid num fun t =>
        { t with
          st := .lost, members := t.members.map fun (i, m) => (i, if m.loc = .here then { m with loc := .gone } else m), slots := []
          scratch := [], tiles := [], tlcfg := [], accs := [], accInfo := [], syncs := [], arr := [], tags := [], kept := [], sweep := false
          heldPhase := none, stopping := none }
      let s := loseCopies s t
      let s := postFault s p (faultRecord 4 false false false false 0 num 0 0 0 0 (w64 t.frame) asid 0 0)
      dbgResume (wakeRoom (endHart s p asid (.teamsave num) 7)) p asid num)

/-! Loading (R200, R201). -/

/-- The candidate set of a `teamload`'s placement handle (R200), and whether it falls back. -/
def loadPlace (s : State) (p : Nat) (t : Team) (h : Word) : Option Nat :=
  let away := fun c => (foreignCopies s t c).length
  let ok := fun (l : List Nat) => mostFree s (l.filter fun c => fits s t.desc (away c) c)
  if h = 0 then hintPlace s p t.desc away
  else if bit h 2 then ok (coresOf s p)
  else ok ((coresOf s p).filter fun c => c / 64 = bits h 1 0)

/-- The status of a `teamload`, and the team it loads with its core (R200). -/
def loadCheck (s : State) (p asid : Nat) (f h : Word) : Except Nat (Team × Nat) :=
  let a := f.toNat
  let d0 := rdWord s a
  let d1 := rdWord s (a + 8)
  let d2 := rdWord s (a + 16)
  if a % 4096 ≠ 0 || !inRanges s p a 64 || !bit d0 63 || bits d2 18 16 ≠ p || bits d2 15 0 ≠ asid then .error 8
  else match team? s p asid (bits d0 11 0) with
  | none => .error 2
  | some t =>
    if t.st ≠ .saved || t.serial ≠ bits d1 47 16 then .error 2
    else if t.frame ≠ a then .error 8
    else if h ≠ 0 && (hKind h ≠ 1 || badHandle h) then .error 5
    else if h ≠ 0 && !bit h 2 && !ownsDie s p (bits h 1 0) then .error 4
    else match loadPlace s p t h with
    | some c => .ok (t, c)
    | none => .error 1

/-- `teamload` (R200): the resources are reserved, the L1 giving way to the scratch (R179), and the hart waits while the image is
restored. -/
def execTeamload (w : Wide) (s : State) : Host.Outcome State Fault Refusal :=
  .next (forKeys s fun s k =>
    let t := thr s k
    let p := partOf s k
    let f := (src t w.s1).toNat
    match (if f % 4096 = 0 then recordHeld s k f 64 else none) with
    | some s => s
    | none =>
    match loadCheck s p (asidK s k) (src t w.s1) (src t w.s2) with
    | .error c => setThr s k (endWord w (w64 c) t)
    | .ok (m, c) =>
      let (slots, s) := reserveSlots s c m.desc
      let s := modTeam s m.part m.asid m.num fun m => { m with st := .loading, die := c / 64, core := c % 64, slots := slots, late := [] }
      let locks := (foreignCopies s m c).flatMap (Copy.locks · false)
      blockOn (fitL1 (modCore s c fun x => { x with rlocks := x.rlocks ++ locks }) c) k w (.teamload m.num))

/-- An accumulator's state from the map's byte (R196, R265). -/
def accOfByte (b : Nat) (ws : List Nat) : AccInfo :=
  let n := b % 128
  if n = 0 then { waiters := ws }
  else if n ≤ 64 then { st := 1, gang := n - 1, int := b ≥ 128, waiters := ws }
  else { st := 2, gang := n - 65, int := b ≥ 128, waiters := ws }

/-- The waiters of a semaphore after a load, in ascending team index (R228). -/
def semWaiters (t : Team) (n : Nat) : List (Nat × Nat) :=
  t.kept.filterMap fun (i, th) => match th.wait with | .sem e a => if e = n then some (i, a) else none | _ => none

/-- The indices that exited while the team was away are no longer arrived (R226). -/
def forgetExits (t : Team) : Team := { t.exits.foldl forgetArrival t with exits := [] }

/-- The team's own state restored from its image. Of a line that software should not have written (R199), the header and the member
table load as they were saved, the rest as memory holds it (log 36). -/
def restoreTeam (s : State) (t : Team) : Team :=
  let f := t.frame
  let d := t.desc
  let o1 := 0x3000 + 1024 * d.l4
  let o2 := o1 + 8192 * d.tiles
  let o3 := o2 + 65536 * d.accs
  let fill := fun (a n : Nat) => (rdBytes s (f + a) n).zipIdx.foldl (fun m (b, i) => mset 0 m i b) ([] : SMap Byte)
  let arr := rdBytes s (f + 0x800) 128
  { t with
    st := .resident
    tlcfg := (List.range 32).foldl (fun m n => mset 0 m n (rdWord s (f + 0x80 + 8 * n))) []
    seeds := (List.range 60).map fun g => rdWord s (f + 0x180 + 8 * g)
    accInfo := (List.range 32).foldl (fun m n =>
      mset {} m n (accOfByte (ofBytes (rdBytes s (f + 0x360 + n) 1)) (accOf t n).waiters)) []
    syncs := (List.range d.syncs).foldl (fun m n =>
      mset {} m n { unpackEntry (rdWord s (f + 0x400 + 16 * n)) (rdWord s (f + 0x408 + 16 * n)) with waiters := semWaiters t n }) []
    arr := (List.range 1024).foldl (fun m i => mset false m i ((arr.getD (i / 8) 0).getLsbD (i % 8))) []
    tiles := fill o1 (8192 * d.tiles)
    accs := (List.range (16384 * d.accs)).foldl (fun m i => mset 0 m i (BitVec.ofNat 32 (ofBytes (rdBytes s (f + o2 + 4 * i) 4)))) []
    scratch := fill o3 (4096 * d.scrpg) }

/-- A member's thread restored from its frame in the image (R200): halted while the team's HALT is set, and otherwise in the state
it held before a stop. The frame's line of identity words, from 0x280, loads as it was saved, with what landed there since (R195,
R199, log 36). A wait's watchdog count starts again (R234). -/
def restoreMember (s : State) (t : Team) (i : Nat) (th : Thread) : Thread :=
  let l := readFrame s (t.frame + memberOff i)
  let st0 := if th.stopped then .exited else tstateOf (bits (dw l 0) 3 0)
  let before := if st0 = .halted then th.before else st0
  let th' := { knowRings s (loadFrameWords l th) with before := before, wus := 0, qflags := th.qflags, tprio := th.tprio, reth := th.reth }
  if t.halt && st0 ≠ .exited then { th' with st := .halted, age := s.cycle } else goOn th' before s.cycle

/-- TEAMLOAD_COMPLETE (R195, R200, R201): when nothing holds its lines the image is restored and the team is resident; an uncorrectable error in the frame
leaves the team lost (R175, R454). -/
def execTeamloadComplete (p asid num : Nat) (s : State) : Host.Outcome State Fault Refusal :=
  .next (match team? s p asid num with
  | none => s
  | some t =>
    if t.st ≠ .loading || !postClear s t.die t.frame (frameSize t.desc) then s
    else if poisoned s t.frame (frameSize t.desc) then
      let s := eccRecord s p t.frame
      let s := modTeam s p asid num fun t =>
        { t with st := .lost, members := t.members.map fun (i, m) => (i, if m.loc = .here then { m with loc := .gone } else m)
                 slots := [], kept := [], late := [], syncs := [], accInfo := [], tlcfg := [], arr := [], asks := [], exits := [], touched := [] }
      dbgResume (wakeRoom (endHart s p asid (.teamload num) 7)) p asid num
    else
      let due := t.touched ++ if t.exits = [] then [] else (teamBarrier (restoreTeam s t)).toList
      let (off, s) := freshNat s
      let s := modTeam s p asid num fun _ =>
        { forgetExits (restoreTeam s t) with late := [], kept := [], imageDone := false, touched := [], asks := [], off := off }
      let s := t.kept.foldl (fun s (i, th) => setThr s (memberKey t i) (restoreMember s t i th)) s
      let s := modPart s p fun q => { q with admissions := q.admissions ++ t.asks.map fun (i, d) => { key := memberKey t i, desc := d } }
      let s := wrWord s t.frame (setBit (rdWord s t.frame) 63 false)
      let s := due.foldl (fun s n => checkPhase s p asid num n) s
      let s := t.late.foldl (fun s l => landLive s p asid num l) s
      let s := reevaluate s p asid num
      dbgResume (settleStops (wakeRoom (endHart s p asid (.teamload num) 0))) p asid num)

end Sys2Proof.Machine
end

