-- ==== Sys2Proof/Machine/Queue.lean ====
section
/-! DEFINITION. Continuation queues and tasks (R202-R217, R502). -/

namespace Sys2Proof.Machine

/-! Headers, rings and records (R202-R204). -/

/-- The virtual address of record position n. -/
def ringAddr (h : List Word) (n : Word) : Word :=
  w64 (bits (dw h 0) 63 12 * 4096 + 32 * (n.toNat % 2 ^ bits (dw h 0) 4 0))

/-- The header is invalid: status 2. -/
def headerBad (h : List Word) : Bool :=
  let n := bits (dw h 0) 4 0
  n < 4 || n > 20 || bits (dw h 0) 11 5 ≠ 0 || (h.drop 4).any (· ≠ 0)

/-- A record is invalid (R203). -/
def recordBad (r : List Word) : Bool := bit (dw r 0) 0 || bits (dw r 3) 7 6 ≠ 0 || bits (dw r 3) 3 1 ≠ 0

/-- The doubleword at 0x18 of a published record (R208): SEQ from the position, FULL = 1. -/
def publishWord (pos d : Word) : Word := w64 (bits pos 31 0 * 2 ^ 32 + bits d 31 4 * 16 + 1)

/-- A record as `WriteRecord` stores it at a position. -/
def published (pos : Word) (r : List Word) : List Word := [dw r 0, dw r 1, dw r 2, publishWord pos (dw r 3)]

/-- n more records do not fit (R208): RES − HEAD is the integer, negative where HEAD was stored past RES (R14, R205). -/
def ringFull (h : List Word) (n : Nat) : Bool :=
  decide ((2 ^ bits (dw h 0) 4 0 : Int) < ((qRes h).toNat : Int) - (qHead h).toNat + n)

/-- HEAD < RES: the queue is PENDING or READY (R204). -/
def qAhead (h : List Word) : Bool := (qHead h).toNat < (qRes h).toNat

/-- A reservation of n positions (R205, R208): the first position, or REFUSED counts. -/
def reserve (s : State) (k pa n : Nat) : Option Word × State :=
  let h := headerAt s pa
  if ringFull h n then (none, wrBytes s k (pa + 0x18) (toBytes 8 (dw h 3 + w64 n).toNat))
  else (some (qRes h), evalQueue (wrBytes s k (pa + 8) (toBytes 8 (qRes h + w64 n).toNat)) pa)

/-- A pop of the record at HEAD (R205): FULL = 0 there, and HEAD grows. -/
def popAt (s : State) (k pa rpa : Nat) (r : List Word) : State :=
  let h := headerAt s pa
  let s := wrBytes s k (rpa + 0x18) (toBytes 8 (setBit (dw r 3) 0 false).toNat)
  evalQueue (wrBytes s k (pa + 0x10) (toBytes 8 (qHead h + 1).toNat)) pa

/-- An operand of n bytes: aligned, translated, on a coherent page outside scratch (R207). -/
def qOperand (s : State) (k : Nat) (va : Word) (n al : Nat) (acc : Acc) : Except Flt Nat × State :=
  if va.toNat % al ≠ 0 then (.error (.cause 0x08 va), s)
  else match coherentReach s k va n acc with
  | (.ok (.mem pa _), s) => (.ok pa, s)
  | (.ok _, s) => (.error (.cause 0x0B va), s)
  | (.error f, s) => (.error f, s)

/-- The rank of what stops an access among the causes of one check (R431, R432); one that is only held comes last. -/
def fltRank : Flt → Nat
  | .cause 0x08 _ => 8
  | .cause 0x09 _ | .cause 0x0A _ => 9
  | .cause 0x0B _ => 10
  | .cause _ _ => 11
  | .race _ _ => 12
  | .hold => 13

/-- What stops a queue instruction of two operands, the first of which failed (R207, R432): the cause of higher rank, the first one's
where the ranks are equal (log 19). -/
def qWorse (f : Flt) (acc : Acc) (second : Except Flt Nat × State) (acc2 : Acc) : (Flt × Acc) × State :=
  match second with
  | (.error g, s) => (if fltRank g < fltRank f then (g, acc2) else (f, acc), s)
  | (.ok _, s) => ((f, acc), s)

/-! qpush (R208, R209). -/

/-- A lane that goes on to the reservation. -/
structure PushLane where
  key : Nat
  qva : Word
  pa  : Nat
  body : List Word
  deriving DecidableEq, Repr

/-- What the checks of a lane answer. -/
inductive PushRes
  | go (l : PushLane)
  | done (v : Word)
  | flt (f : Flt) (acc : Acc)
  deriving DecidableEq, Repr

/-- The checks of one lane and its record. -/
def pushCheck (w : Wide) (s : State) (k : Nat) : PushRes × State :=
  let t := thr s k
  let q := src t w.s1
  let a := src t w.s2
  if t.helper then (.done 0, s)
  else match qOperand s k q 64 64 .store with
  | (.error f, s) => let ((g, acc), s) := qWorse f .store (qOperand s k a 32 32 .load) .load; (.flt g acc, s)
  | (.ok pa, s) =>
    match qOperand s k a 32 32 .load with
    | (.error f, s) => (.flt f .load, s)
    | (.ok ra, s) =>
      let r := rdWords s ra 4
      if headerBad (headerAt s pa) then (.done (stw 2), s)
      else if recordBad r then (.done (stw 3), s)
      else (.go ⟨k, q, pa, r⟩, s)

/-- The record write that a lane of a SIMT core holds (R209). -/
def ringOp (s : State) (va : Word) (r : List Word) : PendOp :=
  { pc := s.cur.pc, bits := s.cur.bits, op1 := va, op2 := dw r 3, kind := .ringWrite r, rd := 0, sent := false, value := 0 }

/-- `WriteRecord` of one lane at its position, with rd (R208). A write that is not performed is held on a SIMT thread after its
position is kept, and on a hart the position is held for the next execution (R209). Two points that R209 leaves open (log 36): inside
the user handler the `qpush` is passed as outside it, and its write joins the entries held for `hret`; and a ring page that the write
finds outside coherent memory holds the write too, with cause 0x0B. -/
def pushWrite (w : Wide) (s : State) (l : PushLane) (pos : Word) : State :=
  let va := ringAddr (headerAt s l.pa) pos
  let out := published pos l.body
  let (r, s) := coherentReach s l.key va 32 .store
  match r, isHart l.key with
  | .ok x, _ => modThr (writeLoc s l.key x (out.flatMap fun v => toBytes 8 v.toNat)) l.key (endWord w pos)
  | .error f, true =>
    raiseFlt (modThr s l.key fun t => { t with pushHeld := (t.pc, pos.toNat) :: t.pushHeld.filter (·.1 ≠ t.pc) }) l.key f .store
  | .error f, false =>
    let s := keepRing (modThr s l.key fun t => { endWord w pos t with ops := t.ops ++ [ringOp s va out] }) l.key va out
    match f with
    | .cause code va => raiseTrap s l.key { code := code, insn := s.cur.bits, addr := s.cur.pc, va := va, flt := true } .store
    | _ => s

/-- The lanes of one queue (R208). A hart that holds a position from a `qpush` at the same pc uses it (R209). -/
def pushQueue (w : Wide) (s : State) (ls : List PushLane) : State :=
  match ls with
  | [] => s
  | l :: _ =>
    match (if isHart l.key then (thr s l.key).pushHeld.find? fun x => x.1 = (thr s l.key).pc else none) with
    | some (pc, pos) => pushWrite w (modThr s l.key fun t => { t with pushHeld := t.pushHeld.filter (·.1 ≠ pc) }) l (w64 pos)
    | none => pushNew
where
  /-- A new reservation. -/
  pushNew : State :=
    match ls with
    | [] => s
    | l :: _ =>
      match reserve s l.key l.pa ls.length with
      | (none, s) => ls.foldl (fun s l => modThr s l.key (endWord w (stw 1))) s
      | (some r, s) => ls.zipIdx.foldl (fun s (l, j) => pushWrite w s l (r + w64 j)) s

/-- `qpush` (R208). A lane whose access is held leaves the group and issues again. -/
def execQpush (w : Wide) (s : State) : Host.Outcome State Fault Refusal :=
  let (ls, s) := s.cur.keys.foldl (fun (ls, s) k =>
    match pushCheck w s k with
    | (.go l, s) => (ls ++ [l], s)
    | (.done v, s) => (ls, modThr s k (endWord w v))
    | (.flt f acc, s) => (ls, raiseFlt s k f acc)) (([], s) : List PushLane × State)
  .next ((uniq (ls.map (·.qva))).foldl (fun s q => pushQueue w s (ls.filter fun l => l.qva = q)) s)

/-! qpop and qwait (R216, R217). -/

/-- The record at HEAD: where it stands and what it holds, when the queue is READY (R204). -/
def readyRecord (s : State) (k pa : Nat) : Except Flt (Option (Nat × List Word)) × State :=
  let h := headerAt s pa
  if !qAhead h then (.ok none, s)
  else match qOperand s k (ringAddr h (qHead h)) 32 32 .load with
  | (.error f, s) => (.error f, s)
  | (.ok rpa, s) =>
    let r := rdWords s rpa 4
    if bit (dw r 3) 0 then
      match qOperand s k (ringAddr h (qHead h)) 32 32 .store with
      | (.error f, s) => (.error f, s)
      | (.ok _, s) => (.ok (some (rpa, r)), s)
    else (.ok none, s)

/-- `qpop` on one thread (R216). -/
def qpopOne (w : Wide) (s : State) (k : Nat) : State :=
  let t := thr s k
  let d := src t w.s2
  if t.helper then setThr s k (endWord w 0 t)
  else match qOperand s k (src t w.s1) 64 64 .store with
  | (.error f, s) => let ((g, acc), s) := qWorse f .store (qOperand s k d 32 32 .store) .store; raiseFlt s k g acc
  | (.ok pa, s) =>
    match qOperand s k d 32 32 .store with
    | (.error f, s) => raiseFlt s k f .store
    | (.ok da, s) =>
      if headerBad (headerAt s pa) then modThr s k (endWord w (stw 2))
      else match readyRecord s k pa with
      | (.error f, s) => raiseFlt s k f .load
      | (.ok none, s) => modThr s k (endWord w (stw 1))
      | (.ok (some (rpa, r)), s) =>
        let pos := qHead (headerAt s pa)
        let s := popAt s k pa rpa r
        let out := [dw r 0, dw r 1, dw r 2, setBit (dw r 3) 0 false]
        modThr (wrBytes s k da (out.flatMap fun v => toBytes 8 v.toNat)) k (endWord w pos)

/-- `qpop` (R216). -/
def execQpop (w : Wide) (s : State) : Host.Outcome State Fault Refusal := .next (forKeys s (qpopOne w))

/-- `qwait` on one thread (R217). -/
def qwaitOne (w : Wide) (s : State) (k : Nat) : State :=
  let t := thr s k
  if t.helper then setThr s k (endWord w 0 t)
  else match qOperand s k (src t w.s1) 64 64 .load with
  | (.error f, s) => raiseFlt s k f .load
  | (.ok pa, s) =>
    let h := headerAt s pa
    if headerBad h then modThr s k (endWord w (stw 2))
    else if qCount h ≠ 0 then modThr s k (endWord w (w64 (qCount h)))
    else blockOn s k w (.queue pa)

/-- `qwait` (R217). -/
def execQwait (w : Wide) (s : State) : Host.Outcome State Fault Refusal := .next (forKeys s (qwaitOne w))

/-! qbind and dispatch (R210, R211, R502). -/

/-- The status of a `qbind` of a record (R210). An unbind ignores TFR; the zero bits [9:0] beside it count as reserved bits in an unbind
too, which R210 does not say (log 36). -/
def bindCheck (s : State) (p : Nat) (a : Word) : Nat :=
  let l := rdWords s a.toNat 8
  let qva := dw l 0
  let d := bits (dw l 2) 11 10
  let tmax := bits (dw l 2) 9 0
  let cores := (List.range 64).filter fun c => bit (dw l 3) c
  if a.toNat % 64 ≠ 0 || !inRanges s p a.toNat 64 then 8
  else if bits (dw l 2) 63 12 ≠ 0 || bits (dw l 4) 9 0 ≠ 0 || (l.drop 5).any (· ≠ 0) || (qva ≠ 0 && (tmax = 0 || tmax > 960)) then 3
  else if !ownsDie s p d || cores.any fun c => !ownsCore s p (64 * d + c) then 4
  else if qva ≠ 0 && !inRanges s p (bits (dw l 4) 63 10 * 1024) (1024 * 960 * 64) then 8
  else 0

/-- `qbind` on one hart (R210), once its record may be read (R454). -/
def qbindOne (w : Wide) (s : State) (k : Nat) : State :=
  let t := thr s k
  let p := partOf s k
  let a := src t w.s1
  match (if a.toNat % 64 = 0 then recordHeld s k a.toNat 64 else none) with
  | some s => s
  | none =>
  let st := bindCheck s p a
  let l := rdWords s a.toNat 8
  let d := bits (dw l 2) 11 10
  let b : Option QBinding := if dw l 0 = 0 then none else
    some { qva := dw l 0, satp := dw l 1, tmax := bits (dw l 2) 9 0, tfr := bits (dw l 4) 63 10 * 1024, suspended := false, part := p }
  let s := if st ≠ 0 then s else
    ((List.range 64).filter fun c => bit (dw l 3) c).foldl (fun s c => modCore s (64 * d + c) fun x => { x with binding := b }) s
  modThr s k (endWord w (if st = 0 then 0 else stw st))

/-- `qbind` (R210). -/
def execQbind (w : Wide) (s : State) : Host.Outcome State Fault Refusal := .next (forKeys s (qbindOne w))

/-- Whose accesses a dispatching core makes (R502). -/
def dispatchCtx (s : State) (c : Nat) (b : QBinding) : Ctx :=
  { part := b.part, satp := b.satp, user := true, side := 0, die := c / 64, core := c % 64, cache := c, adue := (part s b.part).adue }

/-- An address of a queue, in a context, as R502 and R215 examine it: its physical address, or why not. An address outside the
partition's ranges, and a line with an uncorrectable error, which neither rule lists, count with a page that is not coherent: 0x0B
(log 36). -/
def qPlace (s : State) (x : Ctx) (va : Word) (n : Nat) (acc : Acc) : Except Flt Nat × State :=
  if xlatWaits s x va acc then (.error .hold, s)
  else match translate s x va acc with
  | (.error code, s) => (.error (.cause code va), s)
  | (.ok (pa, pat), s) =>
    if bits pat 3 2 = 3 || bits pat 5 4 ≠ 0 || !inRanges s x.part pa n || poisoned s pa n then (.error (.cause 0x0B va), s)
    else if lineHeld s hwKey pa n || !homeOpen s (if x.side = 1 then 4 + x.die else x.die) pa then (.error .hold, s)
    else (.ok pa, pin s x.part pat pa)

/-- What a core finds in its queue (R502): nothing to do now, a record to pop, or a finding that suspends the binding. -/
inductive Found
  | nothing
  | record (pa rpa : Nat) (r : List Word)
  | stop (cause : Nat) (addr : Word)
  deriving DecidableEq, Repr

/-- A failed access as a finding. -/
def foundFlt : Flt → Found
  | .cause code va => .stop code va
  | _ => .nothing

/-- The examination of a queue before a pop (R502). -/
def examine (s : State) (x : Ctx) (q : Word) : Found × State :=
  if q.toNat % 64 ≠ 0 then (.stop 0x08 q, s)
  else match qPlace s x q 64 .load with
  | (.error f, s) => (foundFlt f, s)
  | (.ok pa, s) =>
    let h := headerAt s pa
    if headerBad h then (.stop 0 0, s)
    else match qPlace s x q 64 .store with
    | (.error f, s) => (foundFlt f, s)
    | (.ok _, s) =>
      if !qAhead h then (.nothing, s)
      else match qPlace s x (ringAddr h (qHead h)) 32 .load with
      | (.error f, s) => (foundFlt f, s)
      | (.ok rpa, s) =>
        let r := rdWords s rpa 4
        if !bit (dw r 3) 0 then (.nothing, s)
        else if recordBad r then (.stop 0 0, s)
        else match qPlace s x (ringAddr h (qHead h)) 32 .store with
        | (.error f, s) => (foundFlt f, s)
        | (.ok _, s) => (.record pa rpa r, s)

/-- A task thread of a record in a slot (R211). -/
def taskThread (s : State) (k tid : Nat) (b : QBinding) (r : List Word) : Thread :=
  let x := mset 0 (mset 0 (mset 0 [] 10 (dw r 1)) 11 (dw r 2)) 12 (dw r 3)
  { part := b.part, satp := b.satp, st := .ready, before := .ready, x := x, pc := dw r 0, lfsr := seedOf tid
    tprio := w64 (bits (dw r 3) 5 4), tid := tid, task := true, age := s.cycle
    frame := b.tfr + 1024 * (960 * (coreOf k % 64) + 15 * laneOf k + slotOf k) }

/-- Task threads that own a slot of a core: those on it and those away (R212). -/
def tasksOf (s : State) (c : Nat) : Nat :=
  ((onCore s c).filter fun k => (thr s k).task).length + (s.held.filter fun h => coreOf h.2.2 = c).length

/-- DISPATCH (R211, R502). -/
def execDispatch (c : Nat) (s : State) : Host.Outcome State Fault Refusal :=
  .next (match (core s c).binding with
  | none => s
  | some b =>
    match idleSlots s c with
    | [] => s
    | k :: _ =>
      if b.suspended || s.cycle < (core s c).nextDispatch || tasksOf s c ≥ b.tmax then s
      else match examine s (dispatchCtx s c b) b.qva with
      | (.nothing, s) => s
      | (.stop cause addr, s) =>
        let s := modCore s c fun x => { x with binding := some { b with suspended := true } }
        postFault s b.part (faultRecord 7 false false false false cause 0 0 0 addr
          (w64 (c / 64 * 2 ^ 20 + c % 64 * 2 ^ 14 + c % 64 / 4 * 2 ^ 10)) b.qva (asidOf b.satp) 0 0)
      | (.record pa rpa r, s) =>
        let s := popAt s hwKey pa rpa r
        let (tid, s) := newTid s b.part
        let s := modCore s c fun x => { x with nextDispatch := s.cycle + 8 }
        setThr s k (taskThread s k tid b r))

/-! jinit and tend (R213-R215). -/

/-- `jinit` on one thread or hart (R214). -/
def jinitOne (w : Wide) (s : State) (k : Nat) : State :=
  let t := thr s k
  let n := src t w.s2
  let q := src t w.s3
  if t.helper then setThr s k (endWord w 0 t)
  else match qOperand s k (src t w.s1) 64 64 .store with
  | (.error f, s) => raiseFlt s k f .store
  | (.ok pa, s) =>
    if n = 0 || bit n 63 then modThr s k (endWord w (stw 3))
    else
      let s := wrBytes s k pa (toBytes 8 n.toNat ++ toBytes 8 q.toNat)
      modThr (wrBytes s k (pa + 0x30) (toBytes 8 0)) k (endWord w 0)

/-- `jinit` (R214). -/
def execJinit (w : Wide) (s : State) : Host.Outcome State Fault Refusal := .next (forKeys s (jinitOne w))

/-- Every page of a ring, as R215 translates it. -/
def ringPages (s : State) (x : Ctx) : List Word → Option Flt × State
  | [] => (none, s)
  | va :: l =>
    match qPlace s x va 32 .store with
    | (.error f, s) => (some f, s)
    | (.ok _, s) => ringPages s x l

/-- The pages of the ring of a header. -/
def ringBases (h : List Word) : List Word :=
  (List.range ((32 * 2 ^ bits (dw h 0) 4 0 + 4095) / 4096)).map fun i => w64 ((bits (dw h 0) 63 12 + i) * 4096)

/-- PushOne (R215) of a join block's record at `j`: true when it is over (pushed or dropped), false when it is to be tried
again: the ring is full, or a line is held at its home (R205). QVA and the record are read again at each attempt; R215 does not say
whether they are taken at the decrement (log 36). -/
def pushOne (s : State) (k j : Nat) : Bool × State :=
  let x := ctxOf s k .store
  let q := rdWord s (j + 8)
  let r := rdWords s (j + 0x10) 4
  let drop := fun (s : State) => (true, wrBytes s k (j + 0x30) (toBytes 8 2))
  let fail := fun (f : Flt) (s : State) => match f with | .hold => (false, s) | _ => drop s
  if lineHeld s k j 64 || !homeOpen s (agentDie k) j then (false, s)
  else if q.toNat % 64 ≠ 0 || recordBad r then drop s
  else match qPlace s x q 64 .store with
  | (.error f, s) => fail f s
  | (.ok pa, s) =>
    let h := headerAt s pa
    if headerBad h then drop s
    else match ringPages s x (ringBases h) with
    | (some f, s) => fail f s
    | (none, s) =>
      match qPlace s x (ringAddr h (qRes h)) 32 .store with
      | (.error f, s) => fail f s
      | (.ok rpa, s) =>
        match reserve s k pa 1 with
        | (none, s) => (false, s)
        | (some pos, s) => (true, wrBytes s k rpa ((published pos r).flatMap fun v => toBytes 8 v.toNat))

/-- EndThread of a `tend` (R215). A task thread on a hart leaves its frame as it is. -/
def tendEnd (s : State) (k : Nat) : State :=
  if isHart k then
    if isTask s k then
      let t := thr s k
      let s := { s with held := s.held.filter fun h => !(h.1 = partOf s k && h.2.1 = t.tid) }
      let s := noteEnded s (partOf s k) [{ t with satp := satpOf s k }]
      hartTrap s k false 26 (hart s k).tframe (thr s k).pc
    else exitOnHart s k 0
  else endThread s k 0

/-- The push of a `tend` and its end; a full ring is tried again after 64 cycles (R215). -/
def tendPush (s : State) (k j : Nat) : State :=
  match pushOne s k j with
  | (true, s) => tendEnd (modThr s k fun t => { t with wait := .none, holdTill := none }) k
  | (false, s) =>
    modThr s k fun t => { t with st := if isSimt k then .blocked else t.st, wait := .pushRetry (w64 j), holdTill := some (s.cycle + 64) }

/-- The decrement of a join block at its home (R215): whether COUNT came to 0. -/
def joinCount (s : State) (k pa : Nat) : Bool × State :=
  let n := rdWord s pa
  if n = 0 then (false, wrBytes s k (pa + 0x30) (toBytes 8 1))
  else (n = 1, wrBytes s k pa (toBytes 8 (n - 1).toNat))

/-- `tend` on one thread or hart (R215). -/
def tendOne (w : Wide) (s : State) (k : Nat) : State :=
  let t := thr s k
  let j := src t w.s1
  if t.helper then stopHelper s k
  else if j = 0 then tendEnd s k
  else match qOperand s k j 64 64 .store with
  | (.error f, s) => raiseFlt s k f .store
  | (.ok pa, s) =>
    match joinCount s k pa with
    | (true, s) => tendPush (modThr s k fun t => { t with wus := 0 }) k pa
    | (false, s) => tendEnd s k

/-- `tend` (R215). A helper of the group that has retired with the quad's last real member (R155) executes none. -/
def execTend (w : Wide) (s : State) : Host.Outcome State Fault Refusal :=
  .next (forKeys s fun s k => if occupied s k || isHart k then tendOne w s k else s)

/-- JOIN_PUSH_RETRY (R215). -/
def execJoinPushRetry (k : Nat) (s : State) : Host.Outcome State Fault Refusal :=
  let t := thr s k
  .next (match t.wait with
  | .pushRetry j =>
    if t.st = .halted || (match t.holdTill with | some n => s.cycle < n | none => false) then s else tendPush s k j.toNat
  | _ => s)

end Sys2Proof.Machine
end

