-- ==== Sys2Proof/Machine/Sync.lean ====
section
/-! DEFINITION. The sync instructions, `drain` and the hang watchdog (R218-R235). -/

namespace Sys2Proof.Machine

/-- The entry number of a sync word. -/
def entryNo (w : Wide) : Nat := w.imm11.toNat % 64

/-- A sync instruction of one thread on an entry of its team: a helper's does nothing (R154), and an entry that the team
does not have gives status 2 (R225). -/
def onEntry (w : Wide) (s : State) (k : Nat) (f : Team → SyncEntry → State) : State :=
  let t := thr s k
  if t.helper then setThr s k (endWord w 0 t)
  else match teamK? s k with
  | none => setThr s k (endWord w (stw 2) t)
  | some m => if entryNo w ≥ m.desc.syncs then setThr s k (endWord w (stw 2) t) else f m (syncOf m (entryNo w))

/-- A result for one thread. -/
def result (s : State) (k : Nat) (w : Wide) (v : Word) : State := modThr s k (endWord w v)

/-- An entry set, and what waits on it examined. -/
def setEntry (s : State) (m : Team) (n : Nat) (e : SyncEntry) : State :=
  checkPhase (wakeSem (setSync s m.part m.asid m.num n e) m.part m.asid m.num n) m.part m.asid m.num n

/-- The configuration of a `syinit` is invalid for an initial value (R226). -/
def configBad (m : Team) (n : Nat) (c v : Word) : Bool :=
  let kind := bits c 13 12
  let tb := bit c 11
  let expect := bits c 9 0
  bits c 63 20 ≠ 0 || bits c 15 14 ≠ 0 || bit c 10 || kind = 3 || bits c 19 16 > 10 || (tb && kind ≠ 2) ||
  (if kind = 2 then (if tb then expect > 960 else expect = 0) else expect ≠ 0) ||
  (tb && m.syncs.any fun (i, e) => i ≠ n && e.tb) ||
  (match kind with
    | 1 => decide (v.toNat ≥ 2 ^ 48)
    | 2 => decide (v.toInt < -(2 ^ 35)) || decide (v.toInt ≥ 2 ^ 35)
    | _ => v ≠ 0)

/-- A thread waits on an entry (R225). -/
def entryWaited (s : State) (m : Team) (n : Nat) : Bool :=
  (syncOf m n).waiters ≠ [] ||
  (residents m).any fun k => match (thr s k).wait with | .barrier x _ _ => x = n | _ => false

/-- The entry that a valid `syinit` writes. -/
def initEntry (m : Team) (c v : Word) : SyncEntry :=
  let kind := bits c 13 12
  { kind := kind, tb := bit c 11, scope := bits c 19 16, expect := bits c 9 0
    phase := if bit c 11 then m.phase % 65536 else 0
    value := if kind = 1 then v.toNat else 0, pend := if kind = 2 then v.toInt else 0 }

/-- `syinit` on one thread (R226). -/
def syinitOne (w : Wide) (s : State) (k : Nat) : State :=
  onEntry w s k fun m _ =>
    let t := thr s k
    let n := entryNo w
    let c := src t w.s1
    let v := src t w.s2
    if configBad m n c v then result s k w (stw 5)
    else if entryWaited s m n then result s k w (stw 6)
    else
      let s := result s k w 0
      let s := if bit c 11 then modTeam s m.part m.asid m.num fun m => { m with arr := [] } else s
      setEntry s m n (initEntry m c v)

/-- `syinit` (R226). -/
def execSyinit (w : Wide) (s : State) : Host.Outcome State Fault Refusal := .next (forKeys s (syinitOne w))

/-- Where an entry stands in a team's image, when its credits land there (R195). -/
def imageEntry (m : Team) (n : Nat) : Option Nat :=
  if m.st = .saved || m.st = .loading || (m.st = .saving && m.imageDone) then some (m.frame + 0x400 + 16 * n) else none

/-- KIND of an entry where its credits land (R195, R227). -/
def kindOfEntry (s : State) (m : Team) (n : Nat) : Nat :=
  match imageEntry m n with
  | some a => bits (rdWord s a) 63 62
  | none => (syncOf m n).kind

/-- The status of a `semadd` before its entry is read, and the team that it credits (R227). -/
def semaddTeam (s : State) (k : Nat) (r n : Word) : Except Nat Team :=
  let num := if bits r 43 32 = 0 then (thr s k).team else bits r 43 32
  if bits r 63 44 ≠ 0 || bits r 31 6 ≠ 0 || n.toNat ≥ 2 ^ 48 then .error 4
  else if num = 0 then .error 2
  else match team? s (partOf s k) (asidK s k) num with
  | none => .error 2
  | some m =>
    if m.st = .free || m.st = .lost || m.st = .held || m.desc.syncs ≤ bits r 5 0 then .error 2 else .ok m

/-- The status of a `semadd`, and the team that it credits (R227). -/
def semaddCheck (s : State) (k : Nat) (r n : Word) : Except Nat Team :=
  match semaddTeam s k r n with
  | .error c => .error c
  | .ok m => if kindOfEntry s m (bits r 5 0) = 0 then .error 3 else .ok m

/-- The line of a saved team's image that a `semadd` reads is not free, or holds an error (R420, R454): the `semadd` is held. -/
def semaddHeld (s : State) (k : Nat) (r n : Word) : Option State :=
  match semaddTeam s k r n with
  | .error _ => none
  | .ok m => (imageEntry m (bits r 5 0)).bind fun a => recordHeld s k a 16

/-- `semadd` on one thread, hart or cobbler core (R227). -/
def semaddOne (w : Wide) (s : State) (k : Nat) : State :=
  let t := thr s k
  let r := src t w.s1
  let n := src t w.s2
  if t.helper then setThr s k (endWord w 0 t)
  else match semaddHeld s k r n with
  | some s => s
  | none =>
  match semaddCheck s k r n with
  | .error c => result s k w (stw c)
  | .ok m => land (result s k w 0) m.part m.asid m.num m.serial { entry := some (bits r 5 0), bytes := n.toNat }

/-- `semadd` (R227). -/
def execSemadd (w : Wide) (s : State) : Host.Outcome State Fault Refusal := .next (forKeys s (semaddOne w))

/-- `semacq` on one thread (R228). -/
def semacqOne (w : Wide) (s : State) (k : Nat) : State :=
  onEntry w s k fun m e =>
    let t := thr s k
    let n := entryNo w
    let a := src t w.s1
    if e.kind ≠ 1 then result s k w (stw 3)
    else if a.toNat ≥ 2 ^ 48 then result s k w (stw 4)
    else
      let s := blockOn s k w (.sem n a.toNat)
      let s := setSync s m.part m.asid m.num n { e with waiters := e.waiters ++ [(t.tidx, a.toNat)] }
      wakeSem s m.part m.asid m.num n

/-- `semacq` (R228). -/
def execSemacq (w : Wide) (s : State) : Host.Outcome State Fault Refusal := .next (forKeys s (semacqOne w))

/-- `semtry` on one thread (R228). -/
def semtryOne (w : Wide) (s : State) (k : Nat) : State :=
  onEntry w s k fun m e =>
    let a := (src (thr s k) w.s1).toNat
    if e.kind ≠ 1 then result s k w (stw 3)
    else if a ≥ 2 ^ 48 then result s k w (stw 4)
    else if a = 0 then result s k w (w64 e.value)
    else if e.waiters = [] && e.value ≥ a then
      result (setSync s m.part m.asid m.num (entryNo w) { e with value := e.value - a }) k w (w64 (e.value - a))
    else result s k w (stw 1)

/-- `semtry` (R228). -/
def execSemtry (w : Wide) (s : State) : Host.Outcome State Fault Refusal := .next (forKeys s (semtryOne w))

/-- BArrive (R230) on a barrier entry: the token. What the arrival makes due is examined by the caller. -/
def arrive (s : State) (m : Team) (n idx : Nat) (e : SyncEntry) : Word × State :=
  if e.tb && mget false m.arr idx then (setBit (w64 e.phase) 63 true, s)
  else
    let e' := if e.expect ≠ 0 && e.arrived ≥ e.expect then { e with ovf := true } else { e with arrived := e.arrived + 1 }
    (w64 e.phase, modTeam s m.part m.asid m.num fun m =>
      { m with syncs := mset {} m.syncs n e', arr := if e.tb then mset false m.arr idx true else m.arr })

/-- `barrive` on one thread (R230). -/
def barriveOne (w : Wide) (s : State) (k : Nat) : State :=
  onEntry w s k fun m e =>
    if e.kind ≠ 2 then result s k w (stw 3)
    else
      let (v, s) := arrive s m (entryNo w) (thr s k).tidx e
      checkPhase (result s k w v) m.part m.asid m.num (entryNo w)

/-- `barrive` (R230). -/
def execBarrive (w : Wide) (s : State) : Host.Outcome State Fault Refusal := .next (forKeys s (barriveOne w))

/-- BWait (R230) on a barrier entry with a token: it ends at once, or the thread waits. -/
def waitPhase (s : State) (k : Nat) (w : Wide) (m : Team) (tok : Word) (kind : Nat) : State :=
  let e := syncOf (team s m.part m.asid m.num) (entryNo w)
  if e.phase ≠ bits tok 15 0 then result s k w (w64 e.phase) else blockOn s k w (.barrier (entryNo w) tok kind)

/-- `bwait` on one thread (R230). -/
def bwaitOne (w : Wide) (s : State) (k : Nat) : State :=
  onEntry w s k fun m e =>
    let tok := src (thr s k) w.s1
    if e.kind ≠ 2 then result s k w (stw 3)
    else if bits tok 62 16 ≠ 0 then result s k w (stw 4)
    else waitPhase s k w m tok 0

/-- `bwait` (R230). -/
def execBwait (w : Wide) (s : State) : Host.Outcome State Fault Refusal := .next (forKeys s (bwaitOne w))

/-- `bexpect` on one thread (R230). -/
def bexpectOne (w : Wide) (s : State) (k : Nat) : State :=
  onEntry w s k fun m e =>
    let n := (src (thr s k) w.s1).toNat
    if e.kind ≠ 2 then result s k w (stw 3)
    else if n ≥ 2 ^ 35 then result s k w (stw 4)
    else
      let e' := if e.pend + n > 2 ^ 35 - 1 then { e with pend := 2 ^ 35 - 1, ovf := true } else { e with pend := e.pend + n }
      setEntry (result s k w 0) m (entryNo w) e'

/-- `bexpect` (R230). -/
def execBexpect (w : Wide) (s : State) : Host.Outcome State Fault Refusal := .next (forKeys s (bexpectOne w))

/-- `barw` on one thread (R230, R232): the arrival, then the wait. -/
def barwOne (w : Wide) (s : State) (k : Nat) : State :=
  onEntry w s k fun m e =>
    if e.kind ≠ 2 then result s k w (stw 3)
    else
      let (v, s) := arrive s m (entryNo w) (thr s k).tidx e
      waitPhase (checkPhase s m.part m.asid m.num (entryNo w)) k w m v 1

/-- `barw` (R230). -/
def execBarw (w : Wide) (s : State) : Host.Outcome State Fault Refusal := .next (forKeys s (barwOne w))

/-! drain (R235). -/

/-- A copy is among those of FN (R235, R503); one of which a side could not be classed is in FN 0, 1 and 2. -/
def copyFn (fn : Nat) (c : Copy) : Bool :=
  match fn with
  | 0 => c.home = some 3 || c.touchAll
  | 1 => c.home = some 1 || c.touchAll
  | 2 => c.home = some 0 || c.home = some 2 || c.touchAll
  | 5 => true
  | _ => false

/-- The operations that a `drain` of a thread waits for: copies, row operations, laced operations. -/
def drainSet (s : State) (k fn : Nat) : List Nat × List Nat × List Nat :=
  let t := thr s k
  let asid := asidOf t.satp
  let ser := ((teamK? s k).map (·.serial)).getD 0
  let cs := s.copies.filter fun c =>
    copyFn fn c && 64 * c.die + c.core = coreOf k && c.part = t.part && asidOf c.satp = asid &&
    (if t.team = 0 then c.solo && c.tid = t.tid else !c.solo && c.team = t.team && c.serial = ser)
  let rs := s.rowOps.filter fun r =>
    (fn = 3 || fn = 5) && isSimt r.key && coreOf r.key = coreOf k && r.part = t.part && r.asid = asid &&
    (if t.team = 0 then r.team = 0 && r.tid = t.tid else r.team = t.team && r.serial = ser)
  let ls := s.laced.filter fun l =>
    (fn = 4 || fn = 5) && isSimt l.key && coreOf l.key = coreOf k && l.part = t.part && l.asid = asid &&
    (if t.team = 0 then l.team = 0 && l.tid = t.tid else l.team = t.team)
  (cs.map (·.id), rs.map (·.id), ls.map (·.id))

/-- `drain` on one thread (R235). -/
def drainOne (w : Wide) (s : State) (k : Nat) : State :=
  if (thr s k).helper then result s k w 0
  else match drainSet s k w.fn.toNat with
  | ([], [], []) => result s k w 0
  | (cs, rs, ls) => blockOn s k w (.drain w.fn.toNat cs rs ls)

/-- `drain` (R235). -/
def execDrain (w : Wide) (s : State) : Host.Outcome State Fault Refusal := .next (forKeys s (drainOne w))

/-! The hang watchdog (R233, R234). -/

/-- The watchdog of a thread counts (R234): it is blocked, and no team of its context is halted by debug. An `lfence` raises no
cause (R404). -/
def watched (s : State) (t : Thread) : Bool :=
  t.st = .blocked && (match t.wait with | .lfence _ => false | _ => true) &&
  !(s.teams.any fun m => m.part = t.part && m.asid = asidOf t.satp && m.halt)

/-- The instruction that a thread waits in: a wait re-injected after a `barw` has that `barw`'s address. -/
def waitingWord (s : State) (k : Nat) : RawWord :=
  let t := thr s k
  let op := t.ops.find? fun p => match p.kind with | .bwait _ _ => true | _ => false
  match t.wait, op with
  | .barrier _ _ 2, some p => ⟨p.pc, p.bits, 8⟩
  | _, _ => (chainAt s k).1.1.headD ⟨t.pc, 0, 8⟩

/-- WATCHDOG_EXPIRY (R232, R234): the thread leaves its wait and takes cause 0x14. A helper that waits to converge goes on after its
chain, whose register destinations receive zero (R154). -/
def execWatchdogExpiry (k : Nat) (s : State) : Host.Outcome State Fault Refusal :=
  let t := thr s k
  .next (if isSimt k && watched s t && bit (part s t.part).wdog 63 && t.wus ≥ max 1 (bits (part s t.part).wdog 31 0) then
    let w := waitingWord s k
    let ws := (chainAt s k).1.1
    if t.helper then skipChain (abandonWait s k) k ws (chainEnd t.pc ws)
    else raiseTrap (abandonWait s k) k { code := 0x14, insn := w.bits, addr := w.addr } .load
  else s)

end Sys2Proof.Machine
end

