-- ==== Sys2Proof/Machine/Order.lean ====
section
/-! DEFINITION. The ordering instructions and single-copy atomics, the sweep of race tags, and the translation caches (R328-R335,
R346, R363-R366). In one sequential order of accesses an ordering instruction has no effect of its own (log 4). -/

namespace Sys2Proof.Machine

/-- `fences` (R331). -/
def execFences (w : Wide) (s : State) : Host.Outcome State Fault Refusal := .next (forKeys s fun s k => modThr s k (endWord0 w))

/-- `fencesc` (R331). -/
def execFencesc (w : Wide) (s : State) : Host.Outcome State Fault Refusal := .next (forKeys s fun s k => modThr s k (endWord0 w))

/-- A single access of n bytes by an ordering instruction (R335): aligned, reached, and performed. -/
def orderAccess (s : State) (k : Nat) (kind : OpKind) (va op2 : Word) : Except Flt Word × State :=
  if va.toNat % opSize kind ≠ 0 then (.error (.cause 0x08 va), s)
  else match reach s k va (opSize kind) (opAcc kind) false with
  | (.error f, s) => (.error f, s)
  | (.ok l, s) => let (v, s) := performAt s k kind op2 l; (.ok v, s)

/-- `ldacq` (R332). -/
def execLdacq (w : Wide) (s : State) : Host.Outcome State Fault Refusal :=
  .next (forKeys s fun s k =>
    match orderAccess s k (.load (2 ^ (w.fn.toNat % 4)) true false) (src (thr s k) w.s1) 0 with
    | (.error f, s) => raiseFlt s k f .load
    | (.ok v, s) => modThr s k (endWord w v))

/-- `strel` (R332). -/
def execStrel (w : Wide) (s : State) : Host.Outcome State Fault Refusal :=
  .next (forKeys s fun s k =>
    let t := thr s k
    if t.helper then setThr s k (endWord0 w t)
    else match orderAccess s k (.store (2 ^ (w.fn.toNat % 4))) (src t w.s1) (src t w.s2) with
    | (.error f, s) => raiseFlt s k f .store
    | (.ok _, s) => modThr s k (endWord0 w))

/-- `amos` (R333). -/
def execAmos (w : Wide) (s : State) : Host.Outcome State Fault Refusal :=
  .next (forKeys s fun s k =>
    let t := thr s k
    if t.helper then setThr s k (endWord w 0 t)
    else match orderAccess s k (amosKind w) (src t w.s1) (src t w.s2) with
    | (.error f, s) => raiseFlt s k f .store
    | (.ok v, s) => modThr s k (endWord w v))

/-- The two writes of `casx.q` (R334): neither with D = x0 or W = 1. -/
def endPair (w : Wide) (lo hi : Word) (t : Thread) : Thread :=
  let t := endWord w lo t
  if w.w || w.d = 0 then t else setReg t (w.d.toNat + 1) hi

/-- `casx` on one thread or hart (R334). -/
def casxOne (w : Wide) (s : State) (k : Nat) : State :=
  let t := thr s k
  let q := w.fn = 1
  let n := if q then 16 else 8
  let va := src t w.s1
  let e := casVal t w w.s2
  let v := casVal t w w.s3
  let fin := fun (old : Nat) (t : Thread) => if q then endPair w (w64 old) (w64 (old / 2 ^ 64)) t else endWord w (w64 old) t
  if t.helper then setThr s k (fin 0 t)
  else if va.toNat % n ≠ 0 then raise s k 0x08 va .store
  else match reach s k va n .store false with
  | (.error f, s) => raiseFlt s k f .store
  | (.ok l, s) =>
    let s := atomicReady s k l
    let old := ofBytes (readHome s k l n)
    let s := if old = e then writeHome s k l (toBytes n v) else s
    modThr s k (fin old)

/-- `casx` (R334). -/
def execCasx (w : Wide) (s : State) : Host.Outcome State Fault Refusal := .next (forKeys s (casxOne w))

/-- RACE_SWEEP_END (R346): the tags of another parity read untouched, and a phase completion that was held takes place. -/
def execRaceSweepEnd (p asid num : Nat) (s : State) : Host.Outcome State Fault Refusal :=
  .next (match team? s p asid num with
  | none => s
  | some t =>
    if !t.sweep then s
    else
      let s := modTeam s p asid num fun t => { t with sweep := false, heldPhase := none, tags := t.tags.filter fun (_, g) => g.par = decide (t.phase % 2 = 1) }
      match t.heldPhase with | some n => checkPhase s p asid num n | none => s)

/-! Translation caches (R363-R366). -/

/-- The agents that acknowledge a `tlbip` of a partition, by their caches (R365): its SIMT cores and their dies with the walk caches, its
latency cores, and the cobbler cores that hold an entry of it or where it has a handler set. -/
def shootAgents (s : State) (p : Nat) : List Nat :=
  coresOf s p ++ (uniq ((coresOf s p).map (· / 64))).map (0x3000 + ·) ++
  ((List.range 64).filter fun n => (part s p).lc0.testBit n).map (0x1000 + ·) ++
  ((List.range 64).filter fun n => (part s p).lc1.testBit n).map (0x1000 + 64 + ·) ++
  (s.slices.filter fun (x, sl) => (sl.sets.any fun (_, b) => b.part = p) || s.tlb.any fun e => e.cache = 0x2000 + x && e.part = p).map
    fun (x, _) => 0x2000 + x

/-- `tlbip` (R365): the hart waits for every acknowledgement. -/
def execTlbip (w : Wide) (s : State) : Host.Outcome State Fault Refusal :=
  .next (forKeys s fun s k =>
    let t := thr s k
    let av := w.imm11.getLsbD 0
    let aa := w.imm11.getLsbD 1
    let a := src t w.s2
    if !aa && bits a 63 16 ≠ 0 then setThr s k (endWord w (stw 4) t)
    else
      let x : Shootdown :=
        { part := partOf s k, key := k, av := av, aa := aa, va := src t w.s1, asid := bits a 15 0, waits := shootAgents s (partOf s k) }
      if x.waits = [] then setThr s k (endWord w 0 t)
      else blockOn { s with shoots := s.shoots ++ [x] } k w .tlbip)

/-- A page of 4 KiB pages from `vpn` on is covered by a `tlbip`'s address. -/
def shootVa (x : Shootdown) (vpn n : Nat) : Bool := x.av || (vpn ≤ bits x.va 56 12 && bits x.va 56 12 < vpn + n)

/-- The entry of a translation cache matches (R365). -/
def shootEntry (x : Shootdown) (e : TlbEntry) : Bool :=
  e.part = x.part && shootVa x e.vpn e.pages && (x.aa || (e.asid = x.asid && !bit e.pte 5))

/-- What an agent has translated before in a matching context is performed (R366): drains to memory, row operations and laced
operations, as the SIMT core or latency core issued them; the push of a `tend` that is tried again; a handler's accesses to lines
that its invocation still holds. A core acknowledges after its die, from which it may fill an entry again. -/
def shootReady (s : State) (x : Shootdown) (a : Nat) : Bool :=
  let mine := fun (asid : Nat) => x.aa || asid = x.asid
  let by_ := fun (k : Nat) => if isSimt k then coreOf k = a else isHart k && 0x1000 + (k - 0x10_0000) = a
  !(s.engines.any fun (_, e) => (e.queue ++ e.running).any fun q =>
      q.part = x.part && mine q.asid && a < 256 && q.core = a % 64 && (passTeam s q).die = a / 64 && q.pages ≠ []) &&
  !(a < 256 && x.waits.contains (0x3000 + a / 64)) &&
  !(s.threads.any fun (k, t) => by_ k && partOf s k = x.part && mine (asidK s k) && match t.wait with | .pushRetry _ => true | _ => false) &&
  !(0x2000 ≤ a && a < 0x3000 && match (slice s (a - 0x2000)).run with
    | some r => r.held ≠ [] && match binding? (slice s (a - 0x2000)) r.ev.set with
      | some b => b.part = x.part && mine (asidOf b.satp)
      | none => false
    | none => false) &&
  !(s.rowOps.any fun r => r.part = x.part && mine r.asid && by_ r.key) &&
  !(s.laced.any fun l => l.part = x.part && mine l.asid && by_ l.key)

/-- Walks of an agent that could install a matching entry end with their results discarded, and their misses are walked
again (R366). -/
def rewalk (x : Shootdown) (a : Nat) (y : Walk) : Walk :=
  if y.part = x.part && coreOf y.key = a && shootVa x (bits y.va 56 12) 1 && (x.aa || asidOf y.satp = x.asid) then { y with phase := 0 } else y

/-- A `qwait` of an agent in a matching context runs again and translates its queue afresh (R366). -/
def rewait (s : State) (x : Shootdown) (a : Nat) : State :=
  { s with threads := s.threads.map fun (k, t) =>
      let by_ := if isSimt k then coreOf k = a else isHart k && 0x1000 + (k - 0x10_0000) = a
      if by_ && partOf s k = x.part && (x.aa || asidK s k = x.asid) then
        match t.wait with
        | .queue _ => (k, { t with wait := .none, st := if t.st = .blocked then .ready else t.st, age := s.cycle })
        | _ => (k, t)
      else (k, t) }

/-- TLBIP_ACK (R366): an agent acknowledges the oldest `tlbip` of a partition that waits for it; the last acknowledgement
ends the instruction. -/
def execTlbipAck (p a : Nat) (s : State) : Host.Outcome State Fault Refusal :=
  .next (match s.shoots.find? fun x => x.part = p && x.waits.contains a with
  | none => s
  | some x =>
    if !shootReady s x a then s
    else
      let s := { s with
        tlb := s.tlb.filter fun e => !(e.cache = a && shootEntry x e)
        walkCache := s.walkCache.filter fun e => !(0x3000 + e.die = a && e.part = x.part && (x.aa || e.asid = x.asid))
        walks := s.walks.map (rewalk x a) }
      let s := rewait s x a
      let x' := { x with waits := x.waits.filter (· ≠ a) }
      if x'.waits = [] then finishWait { s with shoots := s.shoots.filter fun y => y.key ≠ x.key } x.key 0
      else { s with shoots := s.shoots.map fun y => if y.key = x.key then x' else y })

/-- Two misses are served by one walk of their die (R363). -/
def sameWalk (x y : Walk) : Bool :=
  dieOf x.key = dieOf y.key && x.part = y.part && x.satp = y.satp && bits x.va 56 12 = bits y.va 56 12

/-- PAGE_WALK (R363): the oldest miss of a die that no outstanding walk serves gets a walker, when fewer than 64 walks are
outstanding. -/
def execPageWalk (d : Nat) (s : State) : Host.Outcome State Fault Refusal :=
  let on := s.walks.filter fun x => dieOf x.key = d
  let busy := on.filter (·.phase = 1)
  .next (if busy.length ≥ 64 then s
  else match s.walks.findIdx? fun x => dieOf x.key = d && x.phase = 0 && !(busy.any (sameWalk x)) with
  | none => s
  | some i => { s with walks := s.walks.modify i fun x => { x with phase := 1 } })

/-- WALK_COMPLETE (R352, R363): the walk updates A and D and installs its translation, or faults, for every miss it serves, once its
reads and writes pass to their homes (R420, R481). -/
def execWalkComplete (d i : Nat) (s : State) : Host.Outcome State Fault Refusal :=
  .next (match s.walks[i]? with
  | none => s
  | some x =>
    let acc := fun (y : Walk) => if y.write then Acc.store else .load
    let mine := s.walks.filter (sameWalk x)
    if dieOf x.key ≠ d || x.phase ≠ 1 || mine.any fun y => walkWaits s (ctxOf s y.key (acc y)) y.va (acc y) then s
    else
      let s := mine.foldl (fun s y => (translate s (ctxOf s y.key (acc y)) y.va (acc y)).2) s
      { s with walks := s.walks.map fun y => if sameWalk x y then { y with phase := 2 } else y })

end Sys2Proof.Machine
end

