-- ==== Sys2Proof/Machine/Row.lean ====
section
/-! DEFINITION. Row operations, `rq` and the activation counters (R369-R389). -/

namespace Sys2Proof.Machine

/-! Places (R369-R371). -/

/-- Subarray-mates (R370). -/
def subarrayMates (a b : Nat) : Bool := a / 2 ^ 21 = b / 2 ^ 21

/-- Two pages lie in one bank quad of one pseudo-channel (R369). -/
def sameQuad (a b : RowPlace) : Bool := a.stack = b.stack && a.chan = b.chan && a.pch = b.pch && a.quad = b.quad

/-- Bank-mates, or subarray-mates (R370). -/
def bankMates (s : State) (a b : Nat) : Bool := subarrayMates a b || sameQuad (rowPlace s a) (rowPlace s b)

/-- A page may be an operand (R371). -/
def rowPage (s : State) (pa : Nat) (pat : Word) : Bool := bits pat 3 2 ≠ 3 && bit pat 6 && !bit pat 8 && bit (granule s pa) 15

/-- The home refuses a page of an operand (R30). -/
def rowShut (s : State) (k pa : Nat) (pat : Word) : Bool := bits pat 3 2 ≠ 3 && !inRanges s (partOf s k) pa 4096

/-! Operands (R374, R375). -/

/-- How a row operation's addresses are translated: only under Sv57 (R349). -/
def rowCtx (s : State) (k : Nat) (acc : Acc) : Ctx := { ctxOf s k acc with only57 := true }

/-- Pages of an operand, translated in ascending order (R376): physical addresses with attributes, or the first fault. -/
def rowPages (s : State) (k : Nat) (acc : Acc) : List Word → Except Flt (List (Nat × Word)) × State
  | [] => (.ok [], s)
  | va :: l =>
    if xlatWaits s (rowCtx s k acc) va acc then (.error .hold, s)
    else match translate s (rowCtx s k acc) va acc with
    | (.error code, s) => (.error (.cause code va), s)
    | (.ok x, s) =>
      match rowPages s k acc l with
      | (.error f, s) => (.error f, s)
      | (.ok ps, s) => (.ok (x :: ps), s)

/-- The pages of an operand from an address. -/
def pageVas (va : Word) (n : Nat) : List Word := (List.range n).map fun i => va + w64 (4096 * i)

/-- Operands that an instruction reads: A, then B (R379). -/
def rowSources (maj fn : Nat) (a b : Word) : List Word :=
  if maj = 0x79 then [] else if maj = 0x78 || fn = 3 then [a] else [a, b]

/-- All source operands, translated in order. -/
def rowSrcPages (s : State) (k n : Nat) : List Word → Except Flt (List (List (Nat × Word))) × State
  | [] => (.ok [], s)
  | va :: l =>
    match rowPages s k .load (pageVas va n) with
    | (.error f, s) => (.error f, s)
    | (.ok ps, s) =>
      match rowSrcPages s k n l with
      | (.error f, s) => (.error f, s)
      | (.ok pss, s) => (.ok (ps :: pss), s)

/-- Status 4 (R376): a destination page twice, or as a source page of another index. -/
def rowClash (dst : List Nat) (srcs : List (List Nat)) : Bool :=
  (uniq dst).length ≠ dst.length ||
  srcs.any fun l => l.zipIdx.any fun (p, j) => dst.zipIdx.any fun (d, i) => d = p && i ≠ j

/-- The path code (R380). -/
def rowPath (s : State) (dst : List Nat) (srcs : List (List Nat)) : Nat :=
  let pairs := srcs.flatMap fun l => dst.zip l
  if pairs.all fun (d, p) => subarrayMates d p then 0 else if pairs.all fun (d, p) => bankMates s d p then 1 else 2

/-- The first operand page that meets a range lock of the core (R376). -/
def rowLocked (s : State) (k n : Nat) (d : Word) (srcs : List Word) : Option (Word × Acc) :=
  let hit := fun (acc : Acc) (va : Word) => isSimt k && rangeLocked s (coreOf k) (asidK s k) va.toNat 4096 acc
  match (pageVas d n).find? (hit .store) with
  | some va => some (va, .store)
  | none => ((srcs.flatMap fun a => pageVas a n).find? (hit .load)).map fun va => (va, .load)

/-- The first operand page that its home refuses, which follows the range locks (R30, R501). -/
def rowRefused (s : State) (k n : Nat) (d : Word) (srcs : List Word) (dp : List (Nat × Word)) (sp : List (List (Nat × Word))) :
    Option (Word × Acc) :=
  let bad := fun (x : Word × Nat × Word) => rowShut s k x.2.1 x.2.2
  match ((pageVas d n).zip dp).find? bad with
  | some x => some (x.1, .store)
  | none => (((srcs.map (pageVas · n)).zip sp).flatMap fun (vs, ps) => vs.zip ps).find? bad |>.map fun x => (x.1, .load)

/-! Issue (R376-R378). -/

/-- The entry's status (R376): 2 or 3; 0 when it suits. -/
def rowEntry (s : State) (k ent : Nat) : Nat :=
  match teamK? s k with
  | none => 2
  | some m =>
    if m.st = .free || m.st = .lost || m.st = .held || ent ≥ m.desc.syncs then 2
    else if kindOfEntry s m ent = 0 then 3 else 0

/-- What the checks of R376 answer: a value for rd, a cause, no operation free, or the operation. -/
inductive RowIss
  | val (v : Word)
  | flt (f : Flt) (acc : Acc)
  | full
  | op (r : RowOp)
  deriving DecidableEq, Repr

/-- The checks of a row instruction in order (R376). -/
def rowIssue (maj : Nat) (w : Wide) (s : State) (k : Nat) : RowIss × State :=
  let t := thr s k
  let fn := w.fn.toNat
  let ent := w.imm11.toNat % 64
  let nosync := w.imm11.getLsbD 6
  let r1 := src t w.s1
  let st := if nosync then 0 else rowEntry s k ent
  let n := bits r1 8 0 + 1
  let d := w64 (bits r1 63 12 * 4096)
  let srcs := rowSources maj fn (src t w.s2) (src t w.s3)
  if st ≠ 0 then (.val (stw st), s)
  else if bits r1 11 9 ≠ 0 then (.flt (.cause 0x08 r1) .store, s)
  else match srcs.find? fun a => bits a 11 0 ≠ 0 with
  | some a => (.flt (.cause 0x08 a) .load, s)
  | none =>
    match rowPages s k .store (pageVas d n) with
    | (.error f, s) => (.flt f .store, s)
    | (.ok dp, s) =>
      match rowSrcPages s k n srcs with
      | (.error f, s) => (.flt f .load, s)
      | (.ok sp, s) =>
        let dst := dp.map (·.1)
        let sps := sp.map fun l => l.map (·.1)
        if (dp :: sp).any fun l => l.any fun (pa, pat) => !rowPage s pa pat && !rowShut s k pa pat then (.val (stw 5), s)
        else if rowClash dst sps then (.val (stw 4), s)
        else match rowLocked s k n d srcs with
        | some (va, acc) => (.flt (.cause 0x0C va) acc, s)
        | none => match rowRefused s k n d srcs dp sp with
        | some (va, acc) => (.flt (.cause 0x0B va) acc, s)
        | none =>
          if !roomIn s k .rows then (.full, s)
          else
            let tm := teamK? s k
            (.op { id := s.nextId, part := partOf s k, asid := asidK s k, team := t.team, serial := (tm.map (·.serial)).getD 0
                   saves := (tm.map (·.saves)).getD 0, key := k, tid := t.tid, pc := s.cur.pc, maj := maj, fn := fn, va := d, dst := dst
                   homes := dp.map fun (_, pat) => bits pat 3 2, srcA := sps.getD 0 [], srcB := sps.getD 1 []
                   pattern := src t w.s2, entry := ent, nosync := nosync, path := rowPath s dst sps, active := false, next := 0 }, s)

/-- A row instruction on one thread or hart (R376-R378). -/
def rowOne (maj : Nat) (w : Wide) (s : State) (k : Nat) : State :=
  if (thr s k).helper then modThr s k (endWord w 0)
  else match rowIssue maj w s k with
  | (.val v, s) => modThr s k (endWord w v)
  | (.flt f acc, s) => raiseFlt s k f acc
  | (.full, s) => blockRoom .rows s k
  | (.op r, s) =>
    let s := { s with rowOps := s.rowOps ++ [r], nextId := s.nextId + 1 }
    let s := opBegan s r.part r.asid r.team
    if isHart k && r.nosync then blockOn s k w (.rowOp r.id) else modThr s k (endWord w (w64 r.path))

/-- `rcpy` (R375). -/
def execRcpy (w : Wide) (s : State) : Host.Outcome State Fault Refusal := .next (forKeys s (rowOne 0x78 w))

/-- `rfil` (R375). -/
def execRfil (w : Wide) (s : State) : Host.Outcome State Fault Refusal := .next (forKeys s (rowOne 0x79 w))

/-- `rbop` (R375). -/
def execRbop (w : Wide) (s : State) : Host.Outcome State Fault Refusal := .next (forKeys s (rowOne 0x7A w))

/-! rq (R382). -/

/-- A page that `rq` looks at: translated as a load, a page fault apart; none where it does not meet R371. -/
def rqLook (s : State) (k : Nat) (va : Word) : Except Flt (Option Nat) × State :=
  if xlatWaits s (rowCtx s k .load) va .load then (.error .hold, s)
  else match translate s (rowCtx s k .load) va .load with
  | (.error 0x0B, s) => (.ok none, s)
  | (.error code, s) => (.error (.cause code va), s)
  | (.ok (pa, pat), s) => (.ok (if rowPage s pa pat && inRange s (partOf s k) pa then some pa else none), s)

/-- The value of `rq` for a page and a path. -/
def rqWord (s : State) (path pa : Nat) : Word :=
  let p := rowPlace s pa
  w64 (path * 2 ^ 62 + pa / 4096 % 2 ^ 44 * 4096 + p.stack % 16 * 256 + p.chan % 32 * 8 + p.pch * 4 + p.quad)

/-- The value of `rq` for what it finds of its two pages (R382); a page alone is looked at with itself. -/
def rqValue (s : State) (a b : Option Nat) : Word :=
  match a, b with
  | none, _ => 0xC000_0000_0000_0000#64
  | some pa, none => rqWord s 2 pa
  | some pa, some pb => rqWord s (if subarrayMates pa pb then 0 else if bankMates s pa pb then 1 else 2) pa

/-- `rq` on one thread or hart (R382). -/
def rqOne (w : Wide) (s : State) (k : Nat) : State :=
  let t := thr s k
  let b := src t w.s2
  if t.helper then setThr s k (endWord w 0 t)
  else match rqLook s k (src t w.s1) with
  | (.error f, s) => raiseFlt s k f .load
  | (.ok a, s) =>
    match (if b = 0 then (.ok a, s) else rqLook s k b : Except Flt (Option Nat) × State) with
    | (.error f, s) => raiseFlt s k f .load
    | (.ok b, s) => modThr s k (endWord w (rqValue s a b))

/-- `rq` (R382). -/
def execRq (w : Wide) (s : State) : Host.Outcome State Fault Refusal := .next (forKeys s (rqOne w))

/-! The steps of an operation (R375, R383-R387). -/

/-- Lines of an operation. -/
def RowOp.lines (r : RowOp) : Nat := 64 * r.dst.length

/-- The physical address of line n of an operand's pages. -/
def lineOf (ps : List Nat) (n : Nat) : Nat := ps.getD (n / 64) 0 + 64 * (n % 64)

/-- The destination is read too. -/
def RowOp.readsDst (r : RowOp) : Bool := r.maj = 0x7A && r.fn = 4

/-- Addresses that line n reads. -/
def RowOp.reads (r : RowOp) (n : Nat) : List Nat :=
  ([r.srcA, r.srcB].filter (· ≠ [])).map (lineOf · n) ++ (if r.readsDst then [lineOf r.dst n] else [])

/-- The 64 bytes that line n becomes (R375). -/
def RowOp.value (r : RowOp) (s : State) (n : Nat) : List Byte :=
  let a := rdBytes s (lineOf r.srcA n) 64
  let b := rdBytes s (lineOf r.srcB n) 64
  let o := rdBytes s (lineOf r.dst n) 64
  let two := fun (f : Byte → Byte → Byte) => (a.zip b).map fun (x, y) => f x y
  match r.maj, r.fn with
  | 0x78, _ => a
  | 0x79, _ => (List.replicate 8 (toBytes 8 r.pattern.toNat)).flatten
  | _, 0 => two (· &&& ·)
  | _, 1 => two (· ||| ·)
  | _, 2 => two (· ^^^ ·)
  | _, 3 => a.map (~~~ ·)
  | _, 4 => ((a.zip b).zip o).map fun ((x, y), z) => (x &&& y) ||| (x &&& z) ||| (y &&& z)
  | _, _ => two fun x y => x &&& ~~~ y

/-- Line n is written whole (R338, R383): dirty copies of its sources are written to the home first, and no copy of the destination
stays but the SIMT L1 copies of managed and private pages (R384), of which some may have been evicted before (R358). After a fill of zeros a line of a cached page is a zero line where a
zero tag of its set is free. -/
def rowLine (s : State) (r : RowOp) (n : Nat) : State :=
  let a := lineOf r.dst n
  let s := (a :: r.reads n).foldl (fun s x => freeEvict s (x / 64)) s
  let v := r.value s n
  let s := settleLine (wrBytes ((r.reads n).foldl (fun s x => settleLine s (x / 64)) s) hwKey a v) (a / 64)
  let here := s.zeroTags.filter fun l => homeSlice s (64 * l) = homeSlice s a
  if r.maj = 0x79 && r.pattern = 0 && r.homes.getD (n / 64) 0 = 0 && homeSlice s a < 256 && inSet 8 here (a / 64) then
    { s with zeroTags := a / 64 :: s.zeroTags }
  else s

/-- Two operations of one issuer conflict (R386). The issuer is its thread; where no thread is named, the hart. -/
def rowsConflict (a b : RowOp) : Bool :=
  let all := fun (r : RowOp) => r.dst ++ r.srcA ++ r.srcB
  a.part = b.part && a.tid = b.tid && (a.tid ≠ 0 || a.key = b.key) && (a.dst.any (fun p => (all b).contains p) || b.dst.any fun p => (all a).contains p)

/-- Sets an operation. -/
def setRow (s : State) (r : RowOp) : State := { s with rowOps := s.rowOps.map fun x => if x.id = r.id then r else x }

/-- A line that a home holds for a cobbler handler makes the operation wait (R385), and so does a closed route (R481). -/
def rowHeld (s : State) (r : RowOp) (n : Nat) : Bool :=
  (lineOf r.dst n :: r.reads n).any fun a => lineHeld s hwKey a 64 || !homeOpen s (agentDie r.key) a

/-- A source of line n has an uncorrectable error. -/
def rowPoison (s : State) (r : RowOp) (n : Nat) : Bool := (r.reads n).any fun a => poisoned s a 64

/-- Lines not written yet. -/
def RowOp.rest (r : RowOp) : List Nat := span r.next (r.lines - r.next)

/-- ROW_OP_START (R386, R387): a QUEUED operation with no earlier conflicting one becomes ACTIVE; an ACTIVE one writes its
next line (log 22). -/
def execRowOpStart (i : Nat) (s : State) : Host.Outcome State Fault Refusal :=
  .next (match s.rowOps[i]? with
  | none => s
  | some r =>
    if !r.active then if (s.rowOps.take i).any fun x => rowsConflict x r then s else setRow s { r with active := true }
    else if r.next + 1 ≥ r.lines || rowHeld s r r.next || rowPoison s r r.next then s
    else setRow (rowLine s r r.next) { r with next := r.next + 1 })

/-- An operation leaves its issuer (R377, R378): who waits for that goes on. -/
def retireRow (s : State) (r : RowOp) : State :=
  let s := { s with rowOps := s.rowOps.filter fun x => x.id ≠ r.id }
  let s := if r.team = 0 then s else opEnded s r.part r.asid r.team r.serial
  let s := if (thr s r.key).wait = .rowOp r.id then finishWait s r.key (w64 r.path) else s
  evalDrains (wakeRoom s)

/-- ROW_OP_DONE (R375, R380, R387): the last line, the credit with its path count and retirement are one action. -/
def execRowOpDone (i : Nat) (s : State) : Host.Outcome State Fault Refusal :=
  .next (match s.rowOps[i]? with
  | none => s
  | some r =>
    if !r.active || r.rest.any fun n => rowHeld s r n || rowPoison s r n then s
    else
      let s := r.rest.foldl (fun s n => rowLine s r n) s
      let s := if r.nosync then s
        else land s r.part r.asid r.team r.serial { entry := some r.entry, bytes := 4096 * r.dst.length, path := r.path + 1 }
      retireRow s r)

/-- ROW_OP_FAULTED (R387): an uncorrectable error in a source of page `page` ends the operation. Earlier pages are written, each
line of that page holds its old or its new value, and a record of kind 3, whose CAUSE the spec does not state, is posted. -/
def execRowOpFaulted (i page : Nat) (s : State) : Host.Outcome State Fault Refusal :=
  .next (match s.rowOps[i]? with
  | none => s
  | some r =>
    let before := r.rest.filter fun n => n / 64 < page
    let here := r.rest.filter fun n => n / 64 = page
    if !r.active || page ≥ r.dst.length || (before.any fun n => rowHeld s r n || rowPoison s r n) || here.any (rowHeld s r)
        || !(here.any (rowPoison s r)) then s
    else
      let s := before.foldl (fun s n => rowLine s r n) s
      let s := here.foldl (fun s n => let (b, s) := freshBool s; if b then rowLine s r n else s) s
      let (v, s) := freshWord s
      let s := postFault s r.part (faultRecord 3 (ended? s r.part r.tid).isSome false false false (bits v 7 0) r.team r.tid r.pc
        (r.va + w64 (4096 * page)) 0 0 r.asid 0 0)
      retireRow s r)

/-! Activation counters (R388, R389). -/

/-- The place of a row of the activation counters (R369, R388): the row of the frame of 1 KiB whose physical address on a row-interleaved
granule is 1024 times the row's number. A spare row, which no address names, has a number from 2^46 on (log 36). -/
def rowOfFrame (s : State) (row : Nat) : RowPlace := rowPlace s (1024 * row)

/-- ROW_PRECHARGE (R388) of a row, numbered as `rowOfFrame` says. A refresh changes no data. -/
def execRowPrecharge (row : Nat) (corrupt : Bool) (s : State) : Host.Outcome State Fault Refusal :=
  let c := mget 0 s.rowCnt row
  let put := fun (s : State) (v : Nat) => { s with rowCnt := mset 0 s.rowCnt row v }
  .next (if corrupt then
    errRecord (put { s with actCorr := min 0xFFFF (s.actCorr + 1) } 0)
      { kind := 2, part := 8, req := 0, pa := if row < 2 ^ 46 then 1024 * row else 0, tid := 0 }
  else if c + 1 ≥ 4095 then put { s with actSatn := min 0xFFFF (s.actSatn + 1) } 0
  else if c + 1 ≥ max 256 s.actThresh then put { s with rowDue := uniq (s.rowDue ++ [row]) } 0
  else put s (c + 1))

/-- DEFERRED_MITIGATION (R388): the rows near a row past THRESH are refreshed. -/
def execDeferredMitigation (row : Nat) (s : State) : Host.Outcome State Fault Refusal :=
  .next { s with rowDue := s.rowDue.filter (· ≠ row) }

end Sys2Proof.Machine
end

