-- ==== Sys2Proof/Machine/Lace.lean ====
section
/-! DEFINITION. Laces and eyelets (R390-R408). -/

namespace Sys2Proof.Machine

/-- REACH of a lace identity (R390). -/
def laceReach (l : Nat) : Nat := l / 2 ^ 14 % 4

/-- The stamp after another, modulo 2^48. -/
def nextStamp (n : Nat) : Nat := (n + 1) % 2 ^ 48

/-- The stamp before another. -/
def prevStamp (n : Nat) : Nat := (n + 2 ^ 48 - 1) % 2 ^ 48

/-! The eyelet (R392-R395). -/

/-- The eyelet becomes UNBOUND (R393): its waiters take cause 0x15 with REASON 2, a hart in `lleave` goes on with the final
APPLIED, and a package-local lace closes with its last eyelet. -/
def unbind (s : State) (e : Nat) : State :=
  let y := eyelet s e
  let s := s.threads.foldl (fun s (k, t) => if t.wait = .lleave e then finishWait s k (w64 y.applied) else s) s
  let s := evalLaces (modEyelet s e fun y => { joins := y.joins })
  if laceReach y.lace = 0 && !(s.eyelets.any fun (_, x) => x.st ≠ 0 && x.lace = y.lace) then modLace s y.lace fun _ => {} else s

/-- The eyelet turns STALE (R395), or, when it was leaving, UNBOUND (R393). -/
def turnStale (s : State) (e reason : Nat) : State :=
  if (eyelet s e).st = 4 then unbind s e
  else evalLaces (modEyelet s e fun y => { y with st := 3, reason := reason, buf := [], drop := none, gapUs := none, asked := 0 })

/-- The physical address of a window offset; none past the eyelet's own window. -/
def windowPa (y : Eyelet) (off : Nat) : Option Nat := y.pages[off / 4096]?.map (· + off % 4096)

/-- The bytes that an operation leaves in place of the old ones (R400, R401). -/
def lacedBytes (op : LacedOp) (old : List Byte) : List Byte :=
  match op.kind with
  | 1 => toBytes 8 (ofBytes old + ofBytes op.data)
  | _ => op.data

/-- APPLIED advances past the stamp NEXT (R394), and what waits for it is examined. -/
def advanceEye (s : State) (e : Nat) : State :=
  let a := nextStamp (eyelet s e).applied
  evalLaces (modEyelet s e fun y => { y with applied := a, st := if y.st = 1 && reached a y.upTo then 2 else y.st })

/-- The die from which an eyelet writes: the latency die of its port (R27, log 37). -/
def eyeDie (y : Eyelet) : Nat := bolcelDie y.port

/-- The eyelet applies the operation with stamp NEXT (R394, R400, R401); none while the line is held at its home or its route is closed
(R420, R481), or it has an uncorrectable error. The issuer of an `lamo` on this eyelet receives the old value. An operation past the eyelet's own window, which
another member's larger window allows, writes nothing (log 36). -/
def applyLaced (s : State) (e : Nat) (op : LacedOp) : Option State :=
  match windowPa (eyelet s e) op.off with
  | none => some (advanceEye s e)
  | some pa =>
    let n := op.data.length
    if !postClear s (eyeDie (eyelet s e)) pa n || poisoned s pa n then none
    else
      let old := rdBytes s pa n
      let s := wrBytes s hwKey pa (lacedBytes op old)
      let s := if op.eye = e && (thr s op.key).wait = .lamo e op.id then finishWait s op.key (w64 (ofBytes old)) else s
      some (advanceEye s e)

/-- What the reorder buffer holds for NEXT is applied, and so on (R394). -/
def applyBuffer (s : State) (e : Nat) : Nat → State
  | 0 => s
  | n + 1 =>
    let y := eyelet s e
    match y.buf.find? fun (st, _) => st = nextStamp y.applied with
    | none => s
    | some (st, op) =>
      match applyLaced s e op with
      | none => s
      | some s => applyBuffer (modEyelet s e fun y => { y with buf := y.buf.filter fun (x, _) => x ≠ st }) e n

/-- The gap's timer after an arrival (R395): it starts when a gap begins and restarts when NEXT advances. No gap exists while NEXT has
arrived and waits for its line. -/
def gapAfter (now before : Nat) (y : Eyelet) : Eyelet :=
  let drop := match y.drop with | some d => if reached y.applied d then none else some d | none => none
  let gap := (y.buf ≠ [] || drop.isSome) && !y.buf.any fun (st, _) => st = nextStamp y.applied
  { y with
    drop := drop
    gapUs := if !gap then none else if y.applied ≠ before || y.gapUs.isNone then some now else y.gapUs
    asked := if gap && y.applied = before then y.asked else 0 }

/-- A leaving eyelet that has applied its last operation is UNBOUND (R393). -/
def settleLeaving (s : State) (e : Nat) : State :=
  let y := eyelet s e
  if y.st = 4 && reached y.applied y.upTo then unbind s e else s

/-- What an eyelet holds is applied as far as it can be (R394), with what follows for its gap and its leaving. -/
def pumpEye (s : State) (e : Nat) : State :=
  let y := eyelet s e
  settleLeaving (modEyelet (applyBuffer s e 64) e (gapAfter s.us y.applied)) e

/-- Eyelets whose NEXT waited for its line apply it. -/
def pumpEyes (s : State) : State :=
  ((s.eyelets.filter fun (_, y) => y.buf.any fun (st, _) => st = nextStamp y.applied).map (·.1)).foldl pumpEye s

/-- EYELET_RECEIVE (R394): a stamped operation of the lace arrives. It is held in the reorder buffer, from which NEXT is applied at once
unless its line waits. -/
def execEyeletReceive (e n : Nat) (s : State) : Host.Outcome State Fault Refusal :=
  let y := eyelet s e
  .next (match (lace s y.lace).history.find? fun (st, _) => st = n with
  | none => s
  | some (_, op) =>
    if y.st = 0 || y.st = 3 || (y.st = 4 && !reached y.upTo n) then s
    else
      let d := (n + 2 ^ 48 - nextStamp y.applied) % 2 ^ 48
      pumpEye (
        if d < 64 then modEyelet s e fun y => { y with buf := if y.buf.any fun (st, _) => st = n then y.buf else y.buf ++ [(n, op)] }
        else if d < 2 ^ 47 then
          modEyelet s e fun y => { y with drop := match y.drop with | some x => some (if reached x n then x else n) | none => some n }
        else s) e)

/-- RESEND_REQUEST (R395): at 2 µs of a gap and every 4 µs after. What is resent stands in the history. -/
def execResendRequest (e : Nat) (s : State) : Host.Outcome State Fault Refusal :=
  let y := eyelet s e
  .next (match y.gapUs with
  | some g => if s.us ≥ g + 2 + 4 * y.asked then modEyelet s e fun y => { y with asked := y.asked + 1 } else s
  | none => s)

/-- EYELET_STALE (R395): a gap of 20 µs. -/
def execEyeletStale (e : Nat) (s : State) : Host.Outcome State Fault Refusal :=
  .next (match (eyelet s e).gapUs with | some g => if s.us ≥ g + 20 then turnStale s e 0 else s | none => s)

/-- WINDOW_ERROR (R395): an uncorrectable error in a window line. -/
def execWindowError (e : Nat) (s : State) : Host.Outcome State Fault Refusal :=
  let y := eyelet s e
  .next (if (y.st = 1 || y.st = 2 || y.st = 4) && y.pages.any fun a => poisoned s a 4096 then turnStale s e 1 else s)

/-- The operation with stamp NEXT, where the eyelet holds it or the lace still keeps it (R391, R394). -/
def nextOp (s : State) (y : Eyelet) : Option LacedOp :=
  ((y.buf ++ (lace s y.lace).history).find? fun (st, _) => st = nextStamp y.applied).map (·.2)

/-- An eyelet applies operations in stamp order up to a stamp, until NEXT is missing or cannot be applied (R394); at most n. -/
def applyUpTo (s : State) (e upTo : Nat) : Nat → State
  | 0 => s
  | n + 1 =>
    if reached (eyelet s e).applied upTo then s
    else match (nextOp s (eyelet s e)).bind (applyLaced s e) with
    | none => s
    | some s => applyUpTo s e upTo n

/-- An eyelet applies every operation already stamped and becomes UNBOUND; what follows one that is gone from the history, or that meets
an error, is not applied (R390, R395). -/
def flushEye (s : State) (e : Nat) : State :=
  let y := eyelet s e
  if y.st = 0 then s
  else unbind (if y.st = 3 then s else applyUpTo s e (prevStamp (lace s y.lace).next) 4160) e

/-- SWITCH_LACE_CLOSE (R390): switch management closes a pod or domain lace, when no line of a window is held. -/
def execSwitchLaceClose (l : Nat) (s : State) : Host.Outcome State Fault Refusal :=
  let es := (s.eyelets.filter fun (_, y) => y.st ≠ 0 && y.lace = l).map (·.1)
  .next (if laceReach l = 0 || laceReach l = 3 || !(lace s l).open_ || es.any fun e => (eyelet s e).pages.any fun a => lineHeld s hwKey a 4096
    then s
    else modLace (es.foldl flushEye s) l fun _ => {})

/-! The sequencing point (R391). -/

/-- Two laced operations have one issuer: its thread, wherever it stands, and where no thread is named the hart. -/
def sameSender (a b : LacedOp) : Bool := a.part = b.part && a.tid = b.tid && (a.tid ≠ 0 || a.key = b.key)

/-- The laced operations of a lace that may be stamped next: the first of each thread. -/
def stampable (s : State) (l : Nat) : List LacedOp :=
  let mine := s.laced.filter fun o => o.lace = l
  mine.filter fun o => mine.find? (sameSender o) = some o

/-- The next stamp of a lace goes to an operation, which joins the history (R391). -/
def stampOp (s : State) (o : LacedOp) : State :=
  modLace s o.lace fun x => { x with next := nextStamp x.next, history := (x.next, o) :: x.history.take 4095 }

/-- A laced operation of a member on another package (R390, R391): a store, an add or a swap within one line, otherwise free (log 36). -/
def foreignOp (s : State) (l : Nat) : LacedOp × State :=
  let (a, s) := freshNat s
  let (b, s) := freshNat s
  let n := if b % 3 = 0 then 1 + b / 3 % (8 - a % 8) else 1
  let (ds, s) := (List.range n).foldl (fun (ds, s) _ => let (v, s) := freshWord s; (ds ++ toBytes 8 v.toNat, s)) (([], s) : List Byte × State)
  ({ id := s.nextId, lace := l, key := hwKey, tid := 0, part := 8, asid := 0, team := 0, serial := 0, kind := b % 3
     off := 8 * (a % 2 ^ 18), data := ds, eye := 4096 }, { s with nextId := s.nextId + 1 })

/-- What this package knows of a pod or domain lace that it does not hold to be open (R390, R484): whether switch management has opened
it since, and then its plane, its next stamp and its history, are free (log 36). -/
def switchLace (s : State) (l : Nat) : State :=
  if (lace s l).open_ || laceReach l = 0 || laceReach l = 3 then s
  else
    let (o, s) := freshBool s
    if !o then s
    else
      let (d, s) := freshNat s
      let (n, s) := freshNat s
      let (m, s) := freshNat s
      let s := modLace s l fun _ => { open_ := true, plane := d % 36, next := n % 2 ^ 48, history := [] }
      (List.range (m % 4097)).foldl (fun s _ => let (op, s) := foreignOp s l; stampOp s op) s

/-- LACE_STAMP (R391): an operation takes the lace's next stamp: one of this package, or at a root switch one of another, freely. One
that arrives at a closed lace is discarded. -/
def execLaceStamp (l : Nat) (s : State) : Host.Outcome State Fault Refusal :=
  let (far, s) := if laceReach l ≠ 0 && (lace s l).open_ then freshBool s else (false, s)
  let (i, s) := if far then (none, s) else choose s ((stampable s l).map (·.id))
  .next (match i.bind fun i => s.laced.find? fun o => o.id = i with
  | none => if far then let (op, s) := foreignOp s l; stampOp s op else s
  | some o =>
    let s := { s with laced := s.laced.filter fun x => x.id ≠ o.id }
    let s := if (lace s l).open_ then stampOp s o else s
    let s := if o.team = 0 then s else opEnded s o.part o.asid o.team o.serial
    evalLfences (evalDrains (wakeRoom s)))

/-! The instructions (R398-R404). -/

/-- The handle's eyelet number, lace and length. -/
def hEye (h : Word) : Nat := bits h 27 16
@[inherit_doc hEye] def hLace (h : Word) : Nat := bits h 15 0
@[inherit_doc hEye] def hLen (h : Word) : Nat := 8 * (bits h 34 32 + 1)

/-- The handle is invalid for the issuer (R399). -/
def handleWrong (s : State) (k : Nat) (h : Word) (lst : Bool) : Bool :=
  let y := eyelet s (hEye h)
  bits h 63 35 ≠ 0 || bits h 31 28 ≠ 0 || (!lst && bits h 34 32 ≠ 0) || y.st = 0 || y.lace ≠ hLace h || y.part ≠ partOf s k ||
  asidOf y.satp ≠ asidK s k

/-- The lace cause at the instruction in progress (R396). -/
def raiseLace (s : State) (k : Nat) (h : Word) (reason : Nat) : State :=
  raiseTrap s k { code := 0x15, insn := s.cur.bits, addr := s.cur.pc, hlace := some (hlaceWord h reason) } .load

/-- The REASON of the checks on handle, offset and eyelet state (R399); none when they pass. -/
def laceCheck (s : State) (k : Nat) (h off : Word) (len : Nat) (lst : Bool) : Option Nat :=
  let y := eyelet s (hEye h)
  if handleWrong s k h lst then some 3
  else if off.toNat % 8 ≠ 0 || off.toNat + len > 2 ^ y.wsize || off.toNat % 64 + len > 64 then some 4
  else if y.st = 3 then some y.reason
  else none

/-- Send (R400): the operation is on its way to its sequencing point. -/
def sendLaced (s : State) (k : Nat) (h : Word) (kind : Nat) (off : Nat) (data : List Byte) : Nat × State :=
  let t := thr s k
  let o : LacedOp :=
    { id := s.nextId, lace := hLace h, key := k, tid := t.tid, part := partOf s k, asid := asidK s k, team := t.team
      serial := ((teamK? s k).map (·.serial)).getD 0, saves := ((teamK? s k).map (·.saves)).getD 0, kind := kind, off := off, data := data, eye := hEye h }
  (o.id, opBegan { s with laced := s.laced ++ [o], nextId := s.nextId + 1 } o.part o.asid o.team)

/-- The data read of an `lst`: one load of the issuer that consults no race tag (R399). -/
def lstRead (s : State) (k : Nat) (a : Word) (n : Nat) : Except Flt (List Byte) × State :=
  match reachCuts s k .load false (lineCuts a n) with
  | (.error (_, f), s) => (.error f, s)
  | (.ok ls, s) =>
    let (bs, s) := ls.foldl (fun (bs, s) (l, n) => let (b, s) := readLoc s k l n; (bs ++ b, s)) (([], s) : List Byte × State)
    (.ok bs, s)

/-- `lst` on one thread or hart (R399, R400). -/
def lstOne (w : Wide) (s : State) (k : Nat) : State :=
  let t := thr s k
  let h := src t w.s1
  let off := src t w.s2
  let a := src t w.s3
  if t.helper then setThr s k (endWord w 0 t)
  else match laceCheck s k h off (hLen h) true with
  | some r => raiseLace s k h r
  | none =>
    if a.toNat % 8 ≠ 0 then raise s k 0x08 a .load
    else match lstRead s k a (hLen h) with
    | (.error f, s) => raiseFlt s k f .load
    | (.ok bs, s) =>
      if !roomIn s k .laced then blockRoom .laced s k
      else modThr (sendLaced s k h 0 off.toNat bs).2 k (endWord w 0)

/-- `lst` (R400). -/
def execLst (w : Wide) (s : State) : Host.Outcome State Fault Refusal := .next (forKeys s (lstOne w))

/-- `lamo` on one thread or hart (R399, R401): the issuer stalls. -/
def lamoOne (w : Wide) (s : State) (k : Nat) : State :=
  let t := thr s k
  let h := src t w.s1
  let off := src t w.s2
  if t.helper then setThr s k (endWord w 0 t)
  else match laceCheck s k h off 8 false with
  | some r => raiseLace s k h r
  | none =>
    if !roomIn s k .laced then blockRoom .laced s k
    else
      let (id, s) := sendLaced s k h (w.fn.toNat + 1) off.toNat (toBytes 8 (src t w.s3).toNat)
      modThr s k fun t => { t with wait := .lamo (hEye h) id, ww := w }

/-- `lamo` (R401). -/
def execLamo (w : Wide) (s : State) : Host.Outcome State Fault Refusal := .next (forKeys s (lamoOne w))

/-- `lseq` (R402). -/
def execLseq (w : Wide) (s : State) : Host.Outcome State Fault Refusal :=
  .next (forKeys s fun s k =>
    let t := thr s k
    let h := src t w.s1
    let y := eyelet s (hEye h)
    if t.helper then setThr s k (endWord w 0 t)
    else if handleWrong s k h false then raiseLace s k h 3
    else setThr s k (endWord w (w64 (y.st * 2 ^ 56 + y.buf.length * 2 ^ 49 + y.applied)) t))

/-- `lwait` on one thread or hart (R399, R403). -/
def lwaitOne (w : Wide) (s : State) (k : Nat) : State :=
  let t := thr s k
  let h := src t w.s1
  let n := src t w.s2
  let y := eyelet s (hEye h)
  if t.helper then setThr s k (endWord w 0 t)
  else if handleWrong s k h false then raiseLace s k h 3
  else if bits n 63 48 ≠ 0 then raiseLace s k h 4
  else if y.st = 3 then raiseLace s k h y.reason
  else if reached y.applied n.toNat then setThr s k (endWord w (w64 y.applied) t)
  else blockOn s k w (.lace (hEye h) n.toNat y.joins)

/-- `lwait` (R403). -/
def execLwait (w : Wide) (s : State) : Host.Outcome State Fault Refusal := .next (forKeys s (lwaitOne w))

/-- `lfence` (R404). -/
def execLfence (w : Wide) (s : State) : Host.Outcome State Fault Refusal :=
  .next (forKeys s fun s k =>
    let t := thr s k
    if t.helper || !(s.laced.any fun l => l.tid = t.tid && l.part = partOf s k) then setThr s k (endWord0 w t)
    else blockOn s k w (.lfence s.nextId))

/-! ljoin and lleave (R405-R407). -/

/-- A window page is usable (R392): translated for a load and a store in U mode, coherent, at a home other than scratch, not
domain-shared. -/
def windowPage (s : State) (x : Ctx) (va : Word) : Option Nat × State :=
  match translate s x va .load with
  | (.error _, s) => (none, s)
  | (.ok _, s) =>
    match translate s x va .store with
    | (.error _, s) => (none, s)
    | (.ok (pa, pat), s) =>
      (if bits pat 5 4 = 0 && bits pat 3 2 ≠ 3 && !bit pat 8 && inRanges s x.part pa 4096 then some pa else none, s)

/-- Every page of a window. -/
def windowPages (s : State) (x : Ctx) : List Word → Option (List Nat) × State
  | [] => (some [], s)
  | va :: l =>
    match windowPage s x va with
    | (none, s) => (none, s)
    | (some pa, s) =>
      match windowPages s x l with
      | (none, s) => (none, s)
      | (some ps, s) => (some (pa :: ps), s)

/-- Status 2 of a join record (R406). -/
def joinBad (l : List Word) : Bool :=
  let d0 := dw l 0
  let ws := bits (dw l 2) 4 0
  let reach := bits d0 15 14
  bits d0 62 42 ≠ 0 || bits d0 39 38 ≠ 0 || bits d0 31 28 ≠ 0 || bits (dw l 2) 11 5 ≠ 0 || bits (dw l 3) 63 48 ≠ 0 ||
  (l.drop 4).any (· ≠ 0) || reach = 3 || ws < 12 || ws > 21 || bits (dw l 2) 63 12 * 4096 % 2 ^ ws ≠ 0 ||
  (bit d0 63 && reach ≠ 0) || (reach = 0 && bits d0 37 32 ≠ 0)

/-- `ljoin` on one hart (R405, R406), held until its record may be read and its window translated (R363, R454). -/
def ljoinOne (w : Wide) (s : State) (k : Nat) : State :=
  let t := thr s k
  let p := partOf s k
  let a := (src t w.s1).toNat
  match (if a % 64 = 0 then recordHeld s k a 64 else none) with
  | some s => s
  | none =>
  let l := rdWords s a 8
  let d0 := dw l 0
  let e := bits d0 27 16
  let id := bits d0 15 0
  let y := eyelet s e
  let prt := bits d0 37 32
  let nx := bits (dw l 3) 47 0
  let fail := fun (s : State) (c : Nat) => modThr s k (endWord w (stw c))
  if a % 64 ≠ 0 || !inRanges s p a 64 then fail s 8
  else if joinBad l then fail s 2
  else if !(part s p).eye.testBit (e / 64) || !(y.st = 0 || (y.st = 3 && y.lace = id)) then fail s 1
  else
    let s := switchLace s id
    let lc := lace s id
    if laceReach id ≠ 0 && (!(part s p).bc.testBit prt || (lc.open_ && prt ≠ lc.plane)) then fail s 6
    else
    let x : Ctx := { part := p, satp := dw l 1, user := true, cache := 0x1000 + (k - 0x10_0000), adue := (part s p).adue }
    let ws := bits (dw l 2) 4 0
    let win := w64 (bits (dw l 2) 63 12 * 4096)
    let vas := (List.range (2 ^ (ws - 12))).map fun i => win + w64 (4096 * i)
    if vas.any fun va => xlatWaits s x va .load || xlatWaits s x va .store then s
    else match windowPages s x vas with
    | (none, _) => fail s 5
    | (some ps, s') =>
      if !lc.open_ && !(bit d0 63 && laceReach id = 0) then fail s 3
      else if nx ≠ 0 && (lc.next + 2 ^ 48 - nx) % 2 ^ 48 > 4096 then fail s 4
      else
        let s := s'
        let start := if nx = 0 then lc.next else nx
        let s := modLace s id fun x => { x with open_ := true }
        let s := modEyelet s e fun y =>
          { joins := y.joins + 1, st := if start = lc.next then 2 else 1, lace := id, part := p, satp := dw l 1, win := win, wsize := ws, pages := ps
            applied := prevStamp start, upTo := prevStamp lc.next, cls := bits d0 41 40, port := prt }
        modThr (evalLaces s) k (endWord w (w64 start))

/-- `ljoin` (R406). -/
def execLjoin (w : Wide) (s : State) : Host.Outcome State Fault Refusal := .next (forKeys s (ljoinOne w))

/-- `lleave` on one hart (R407). -/
def lleaveOne (w : Wide) (s : State) (k : Nat) : State :=
  let t := thr s k
  let h := src t w.s1
  let e := hEye h
  let y := eyelet s e
  if bits h 63 28 ≠ 0 || y.st = 0 || y.lace ≠ hLace h || y.part ≠ partOf s k then setThr s k (endWord w (stw 1) t)
  else
    let s := blockOn s k w (.lleave e)
    if y.st = 3 then unbind s e
    else settleLeaving (modEyelet s e fun y => if y.st = 4 then y else { y with st := 4, upTo := prevStamp (lace s y.lace).next }) e

/-- `lleave` (R407). -/
def execLleave (w : Wide) (s : State) : Host.Outcome State Fault Refusal := .next (forKeys s (lleaveOne w))

end Sys2Proof.Machine
end

