-- ==== Sys2Proof/Machine/Cobbler.lean ====
section
/-! DEFINITION. Cobbler cores: handler sets, events, invocations and their instructions (R410-R429). -/

namespace Sys2Proof.Machine

/-! cbind (R412-R415). -/

/-- The binding that a record asks for. -/
def cobRecordOf (s : State) (p : Nat) (l : List Word) : CobBind :=
  let d6 := dw l 6
  { part := p, satp := dw l 2, budget := bits (dw l 1) 47 32, vabase := bits (dw l 3) 63 12 * 4096, pabase := bits (dw l 4) 63 12 * 4096
    wsize := bits (dw l 3) 5 0, even := bits d6 31 28, notify := bit d6 27, slen := bits d6 12 6, soff := bits d6 5 0
    fq := bits (dw l 7) 63 12 * 4096, fqsize := bits (dw l 7) 4 0
    image := rdBytes s (bits (dw l 0) 63 6 * 64) (bits (dw l 1) 15 0) }

/-- Status 2 of a record (R415). -/
def cobBad (l : List Word) (b : CobBind) : Bool :=
  bits (dw l 0) 5 0 ≠ 0 || bits (dw l 1) 63 48 ≠ 0 || bits (dw l 1) 31 16 ≠ 0 || bits (dw l 3) 11 6 ≠ 0 || bits (dw l 4) 11 0 ≠ 0 ||
  bits (dw l 6) 63 38 ≠ 0 || bits (dw l 6) 25 13 ≠ 0 || bits (dw l 7) 11 5 ≠ 0 || b.wsize < 21 || b.wsize > 40 ||
  b.vabase = 0 || b.vabase % 2 ^ b.wsize ≠ 0 || b.pabase % 2 ^ b.wsize ≠ 0 || bits b.satp 63 60 ≠ 10 ||
  b.fqsize < 4 || b.fqsize > 16 || b.slen = 0 || b.soff + b.slen > 64

/-- The entry offset of an event (R414). -/
def CobBind.entry (b : CobBind) (code : Nat) : Nat := ofBytes ((b.image.drop (8 * code)).take 8)

/-- Status 3 of a record (R415). -/
def imageBad (b : CobBind) : Bool :=
  let n := b.image.length
  n = 0 || n % 64 ≠ 0 || n > b.slen * 1024 ||
  (List.range 4).any fun c => b.even.testBit c && (b.entry c = 0 || b.entry c % 2 ≠ 0 || b.entry c ≥ n)

/-- Every page of a window stands where the pairing says (R415): status 5 otherwise. -/
def pairedPages (x : Ctx) (b : CobBind) : List Nat → State → Bool × State
  | [], s => (true, s)
  | i :: l, s =>
    match translate s x (w64 (b.vabase + 4096 * i)) .load with
    | (.error _, s) => (false, s)
    | (.ok (pa, pat), s) =>
      if pa = b.pabase + 4096 * i && bits pat 3 2 < 2 && bits pat 5 4 = 0 && !bit pat 8 && inRanges s x.part pa 4096 then pairedPages x b l s
      else (false, s)

/-- Slices that a record selects: 64 * die + slice. -/
def cobSlices (l : List Word) : List Nat :=
  ((List.range 64).filter fun n => bit (dw l 5) n).map (64 * bits (dw l 6) 37 36 + ·)

/-- The region overlaps that of another bound slot of a slice (R415). -/
def regionClash (s : State) (set x : Nat) (b : CobBind) : Bool :=
  (slice s x).sets.any fun (i, o) => i ≠ set && o.soff < b.soff + b.slen && b.soff < o.soff + o.slen

/-- A slot takes a binding or leaves it: at once, or when its running invocation ends (R412). -/
def rebindSlot (s : State) (x set : Nat) (b : Option CobBind) : State :=
  let drain := fun (sl : Slice) => { sl with next := sl.next.filter (fun y => y.1 ≠ set) ++ [(set, b)] }
  match (slice s x).run with
  | some r => if r.ev.set = set then modSlice s x drain else rebindAt s x set b
  | none => rebindAt s x set b

/-- `cbind` of a record: the status, 0 when it acts, and the state (R415); a failure changes nothing. -/
def cbindRecord (s : State) (k : Nat) (a : Nat) : Nat × State :=
  let p := partOf s k
  let l := rdWords s a 8
  let b := cobRecordOf s p l
  let unb := bit (dw l 6) 26
  let set := bits (dw l 6) 35 32
  let xs := cobSlices l
  let install := fun (s : State) (v : Option CobBind) => xs.foldl (fun s x => rebindSlot s x set v) s
  if a % 64 ≠ 0 || !inRanges s p a 64 then (8, s)
  else if !unb && (!inRanges s p (bits (dw l 0) 63 6 * 64) (bits (dw l 1) 15 0) || !inRanges s p b.fq (0x40 + 32 * 2 ^ b.fqsize)) then (8, s)
  else if !unb && cobBad l b then (2, s)
  else if xs = [] || !(part s p).cs.testBit (16 * bits (dw l 6) 37 36 + set) then (1, s)
  else if unb then (0, install s none)
  else if xs.any fun x => match binding? (slice s x) set with | some o => o.satp ≠ b.satp | none => false then (1, s)
  else if imageBad b then (3, s)
  else
    let x : Ctx := { part := p, satp := b.satp, user := true, cache := 0x1000 + (k - 0x10_0000), adue := (part s p).adue }
    let (ok, s') := pairedPages x b (List.range (2 ^ (b.wsize - 12))) s
    if !ok then (5, s)
    else if xs.any fun x => regionClash s set x b then (6, s)
    else (0, install s' (some b))

/-- `cbind` of the record at an aligned place waits (R363, R420, R454, R481): for the record, for the image, or for the walks of its
window's pages. The hart takes no interrupt meanwhile. -/
def cbindHeld (s : State) (k : Nat) (a : Nat) : Option State :=
  let p := partOf s k
  let l := rdWords s a 8
  let b := cobRecordOf s p l
  let x : Ctx := { part := p, satp := b.satp, user := true, cache := 0x1000 + (k - 0x10_0000), adue := (part s p).adue }
  match recordShut s k a 64 with
  | some s => some s
  | none =>
    if bit (dw l 6) 26 || !inRanges s p a 64 then none
    else match recordShut s k (bits (dw l 0) 63 6 * 64) (bits (dw l 1) 15 0) with
    | some s => some s
    | none =>
      if !cobBad l b && (List.range (2 ^ (b.wsize - 12))).any fun i => xlatWaits s x (w64 (b.vabase + 4096 * i)) .load
      then some (modHart s k fun h => { h with shut := true })
      else none

/-- `cbind` (R415). -/
def execCbind (w : Wide) (s : State) : Host.Outcome State Fault Refusal :=
  .next (forKeys s fun s k =>
    let a := (src (thr s k) w.s1).toNat
    match (if a % 64 = 0 then cbindHeld s k a else none) with
    | some s => s
    | none =>
      let (c, s) := cbindRecord s k a
      modThr (modHart s k fun h => { h with shut := false }) k (endWord w (if c = 0 then 0 else stw c)))

/-! Events (R416-R418). -/

/-- A line may be absent at its home slice: it is not locked there, has no zero tag, and is not held (R356, R361, R416). Every line that
the running invocation has accessed is held, so no miss or fill event is the work of an access of its own. -/
def mayBeAbsent (s : State) (pa : Nat) : Bool :=
  !lineHeld s hwKey (pa / 64 * 64) 64 && !s.pinned.contains (pa / 64) && !s.zeroTags.contains (pa / 64)

/-- MISS_EVENT (R416): a request of some agent misses at the home (log 36). -/
def execMissEvent (pa : Nat) (s : State) : Host.Outcome State Fault Refusal := .next (if mayBeAbsent s pa then lineEvent s 0 pa 0 else s)

/-- FILL_EVENT (R416): a line that was absent is installed. -/
def execFillEvent (pa : Nat) (s : State) : Host.Outcome State Fault Refusal := .next (if mayBeAbsent s pa then lineEvent s 1 pa 0 else s)

/-- EVICTION_EVENT (R416): a line that is neither held nor locked is the victim; a zero line loses its tag with it (R361). -/
def execEvictionEvent (pa : Nat) (dirty : Bool) (s : State) : Host.Outcome State Fault Refusal :=
  .next (if lineHeld s hwKey (pa / 64 * 64) 64 || s.pinned.contains (pa / 64) then s else victim s pa dirty)

/-- The registers of an invocation at its entry (R419). -/
def handlerThread (b : CobBind) (e : CobEvent) : Thread :=
  let put := fun (m : SMap Word) (p : Nat × Word) => mset 0 m p.1 p.2
  { part := b.part, satp := b.satp, st := .ready, pc := w64 (b.entry e.code)
    x := [(2, w64 (b.slen * 1024)), (10, w64 e.code), (11, e.a1), (12, e.a2), (13, e.a3), (14, e.a4)].foldl put [] }

/-- INVOCATION_START (R418-R420): the oldest queued event runs on the free core. -/
def execInvocationStart (x : Nat) (s : State) : Host.Outcome State Fault Refusal :=
  let sl := slice s x
  .next (match sl.run, sl.queue with
  | none, e :: rest =>
    match binding? sl e.set with
    | none => eventsGone (modSlice s x fun sl => { sl with queue := rest }) [e]
    | some b =>
      let r : Invocation :=
        { ev := e, cycles := 0, held := if e.code = 1 || e.code = 2 then [(e.pa / 64, [])] else [], lines := [], fwd := false
          entry := b.entry e.code }
      wakeRoom (setThr (modSlice s x fun sl => { sl with queue := rest, run := some r }) (cobKey x) (handlerThread b e))
  | _, _ => s)

/-- The instruction at a cobbler core's pc is a load that waits at a remote home (R421, R422). -/
def mayWait (s : State) (k : Nat) : Bool :=
  match nextInstrs s k with
  | .standardInstruction (.load op _ rs1 imm) :: _ =>
    (cobAccess s (k - 0x20_0000) (baseAddr (thr s k) rs1 imm) (opSize (loadKind op)) false []).1 = .wait
  | _ => false

/-- BUDGET_ABORT (R422): the count of the running invocation reaches BUDGET, while a load of its waits, or has reached it. -/
def execBudgetAbort (x : Nat) (s : State) : Host.Outcome State Fault Refusal :=
  .next (match running? s x with
  | none => s
  | some (r, b) =>
    let budget := if b.budget = 0 then 512 else b.budget
    if r.cycles ≥ budget || mayWait s (cobKey x) then
      cobAbort (modSlice s x fun sl => { sl with run := some { r with cycles := budget } }) x 1
    else s)

/-! The instructions (R426-R428). -/

/-- The event of a message, with the save tag of its issuer's team (R182, R195, R419). -/
def messageEvent (s : State) (k : Nat) (w : Wide) (pa set : Nat) : CobEvent :=
  let t := thr s k
  let e : CobEvent :=
    { set := set, code := 3, pa := pa, a1 := src t w.s1, a2 := src t w.s2, a3 := src t w.s3, a4 := w64 t.tid, part := partOf s k
      asid := asidK s k }
  match teamK? s k with
  | some m => { e with team := m.num, serial := m.serial, saves := m.saves }
  | none => e

/-- `cmsg` on one thread or hart (R426). -/
def cmsgOne (w : Wide) (s : State) (k : Nat) : State :=
  let t := thr s k
  let a := src t w.s1
  if t.helper then setThr s k (endWord w 0 t)
  else if a.toNat % 8 ≠ 0 then raise s k 0x08 a .load
  else if xlatWaits s (ctxOf s k .load) a .load then s
  else match translate s (ctxOf s k .load) a .load with
  | (.error code, s) => raise s k code a .load
  | (.ok (pa, pat), s) =>
    if bits pat 3 2 ≠ 3 && !inRanges s (partOf s k) pa 8 then raise s k 0x0B a .load
    else
      let x := homeSlice s pa
      let set := w.imm11.toNat % 16
      if bits pat 3 2 ≠ 3 && !homeOpen s (agentDie k) pa then s
      else match (if bits pat 3 2 = 3 then [] else raising (slice s x) 3 pa).find? fun (i, b) =>
          i = set && b.satp = satpOf s k && b.part = partOf s k with
      | none => modThr s k (endWord w (stw 2))
      | some _ =>
        if !roomIn s k (.events x) then blockRoom (.events x) s k
        else
          let e := messageEvent s k w pa set
          opBegan (modThr (modSlice s x fun sl => { sl with queue := sl.queue ++ [e] }) k (endWord w 0)) e.part e.asid e.team

/-- `cmsg` (R426). -/
def execCmsg (w : Wide) (s : State) : Host.Outcome State Fault Refusal := .next (forKeys s (cmsgOne w))

/-- The updates of every held line are committed together, and the lines released (R420). -/
def commit (s : State) (x : Nat) : State :=
  match (slice s x).run with
  | none => s
  | some r =>
    let s := r.held.foldl (fun s (line, m) => m.foldl (fun s (o, b) => wrBytes s (cobKey x) (64 * line + o) [b]) s) s
    modSlice s x fun sl => { sl with run := some { r with held := [], lines := [] } }

/-- `cdone` on a cobbler core (R427). What its prefetch allocates raises events of its own (R416). -/
def cdoneOne (w : Wide) (s : State) (k : Nat) : State :=
  let x := k - 0x20_0000
  let a := (src (thr s k) w.s1).toNat
  match running? s x with
  | none => s
  | some (_, b) =>
    if a ≠ 0 && !(b.vabase ≤ a && a < b.vabase + 2 ^ b.wsize) then cobAbort s x 2
    else endInvocation (commit s x) x

/-- `cdone` (R427). -/
def execCdone (w : Wide) (s : State) : Host.Outcome State Fault Refusal := .next (forKeys s (cdoneOne w))

/-- `cfwd` on a cobbler core (R428). -/
def cfwdOne (w : Wide) (s : State) (k : Nat) : State :=
  let x := k - 0x20_0000
  let s := match (slice s x).run with
    | some r =>
      if r.ev.code = 1 && !r.fwd then
        modSlice (commit s x) x fun sl => { sl with run := sl.run.map fun r => { r with fwd := true } }
      else s
    | none => s
  modThr s k (endWord0 w)

/-- `cfwd` (R428). -/
def execCfwd (w : Wide) (s : State) : Host.Outcome State Fault Refusal := .next (forKeys s (cfwdOne w))

end Sys2Proof.Machine
end

