-- ==== Sys2Proof/Machine/Trap.lean ====
section
/-! DEFINITION. Returning from a handler, forwarding a trap, completing a mailbox call, answering a fault record, engine reset,
and the postings of the fault queue (R439-R454). -/

namespace Sys2Proof.Machine

/-! hret and htrap. -/

/-- `hret` (R439, R441). -/
def execHret (w : Wide) (s : State) : Host.Outcome State Fault Refusal :=
  .next (forKeys s fun s k => modThr s k fun t => if t.trap.inh then hretThread (endWord0 w t) else endWord0 w t)

/-- The thread as it stood at handler entry (R440), but for its registers. -/
def atEntry (t : Thread) : Thread :=
  { t with
    pc := t.trap.hepc
    chain := if t.hchain.live then t.hchain else chainLeft t.chain
    hchain := {}
    trap := { t.trap with inh := false, redo := false } }

/-- The operand of `htrap` names no cause that it raises (R440). -/
def htrapBad (v : Word) : Bool := bits v 63 8 ≠ 0 || v = 0 || v = 0x13 || 0x17 ≤ v.toNat

/-- `htrap` on one thread (R440). For cause 0x01 no rule was broken: REASON is a free one of the codes that R433 lets a handler receive,
0x0 to 0x8 (log 3). -/
def htrapOne (w : Wide) (s : State) (k : Nat) : State :=
  let t := thr s k
  let v := src t w.s1
  if t.helper then setThr s k (endWord0 w t)
  else if htrapBad v then raiseIllegal s k .value
  else if t.trap.inh then
    parkThread (setThr s k (atEntry (endWord0 w t))) k
      { code := v.toNat, insn := t.trap.hdec0, addr := t.trap.hdec2, va := t.trap.hfva, flt := t.trap.flt, fwd := true }
  else
    let d := decodeDetail s k (Config.freeNat s.freeIdx % 9)
    let s := if v = 1 then { s with freeIdx := s.freeIdx + 1 } else s
    deliver (setThr s k (endWord0 w t)) k
      { code := v.toNat, insn := s.cur.bits, addr := s.cur.pc, dec := if v = 1 then some d else none }

/-- `htrap` (R440). -/
def execHtrap (w : Wide) (s : State) : Host.Outcome State Fault Refusal := .next (forKeys s (htrapOne w))

/-! mbpost (R444). -/

/-- The thread that waits for a mailbox record of a core, wherever its team is resident. -/
def mailWaiter (s : State) (p c n tid : Nat) : Option Nat :=
  (s.threads.find? fun (k, t) =>
    isSimt k && t.part = p && t.tid = tid && t.st = .blocked && t.wait = .mailbox c n).map (·.1)

/-- The status of an `mbpost` and the state that it leaves (R444). -/
def mailPost (s : State) (k : Nat) (n : Word) : Nat × State :=
  let p := (thr s k).part
  let a := mailbox s p (coreOf k)
  let head := rdWord s (a + 0x40)
  let tail := rdWord s (a + 0x48)
  let r := a + 0x80 + 128 * (n.toNat % 31)
  if slotOf k ≠ 15 then (1, s)
  else if !inRanges s p a 4096 || !(head.toNat ≤ n.toNat && n.toNat < tail.toNat) then (4, s)
  else match mailWaiter s p (coreOf k) n.toNat ((rdWord s r).toNat % 2 ^ 32) with
  | none => (6, s)
  | some x =>
    let pc := rdWord s (r + 8)
    if rdWord s (r + 0x50) = 0 then
      (0, modThr s x fun t =>
        { setReg (setReg t 10 (rdWord s (r + 0x58))) 11 (rdWord s (r + 0x60)) with
          pc := pc + 4, st := .ready, wait := .none, wus := 0, age := s.cycle })
    else (0, migrateOut (modThr s x fun t => { t with pc := pc }) x 2)

/-- `mbpost` (R444). It is held at an uncorrectable error in the mailbox, and while the page is not free (R420, R454, R481). -/
def execMbpost (w : Wide) (s : State) : Host.Outcome State Fault Refusal :=
  .next (forKeys s fun s k =>
    match (if slotOf k = 15 then recordHeld s k (mailbox s (thr s k).part (coreOf k)) 4096 else none) with
    | some s => s
    | none =>
      let (c, s) := mailPost s k (src (thr s k) w.s1)
      modThr s k (endWord w (if c = 0 then 0 else stw c)))

/-! Answering a fault record (R449, R450). -/

/-- The subject of a record in the state that the record names: a parked thread in a slot, one in a team image, or a stalled
copy. -/
inductive Subject
  | here (k : Nat)
  | image
  | copy (c : Copy)
  deriving DecidableEq, Repr

/-- The thread with a tid and a park count that is parked. -/
def parkedThread (s : State) (p tid pseq : Nat) : Option Subject :=
  let hit := fun (t : Thread) => !t.helper && t.tid = tid && t.st = .parked && t.park % 2 ^ 32 = pseq
  match s.threads.find? fun (k, t) => isSimt k && t.part = p && hit t with
  | some (k, _) => some (.here k)
  | none => if s.teams.any fun m => m.part = p && m.kept.any fun (_, t) => hit t then some .image else none

/-- The subject of a record's doublewords. -/
def subjectOf (s : State) (p : Nat) (r : List Word) : Option Subject :=
  match bits (dw r 0) 63 60 with
  | 1 | 5 => parkedThread s p (bits (dw r 0) 31 0) (bits (dw r 5) 31 0)
  | 2 => (s.copies.find? fun c =>
      c.part = p && c.state = 3 && c.ticket = dw r 4 && asidOf c.satp = bits (dw r 5) 47 32 && c.tid = bits (dw r 0) 31 0).map .copy
  | _ => none

/-- The team of a subject is saving, saved, loading or lost (status 3). -/
def subjectAway (s : State) (p : Nat) (x : Subject) : Bool :=
  let away := fun (m : Option Team) => match m with | some t => t.st ≠ .resident | none => false
  match x with
  | .here k => (thr s k).team ≠ 0 && away (teamK? s k)
  | .image => true
  | .copy c => !c.solo && away (team? s p (asidOf c.satp) c.team)

/-- The checks that `treplay` and `tresume` share (R449): a status, or the record and its subject. -/
def recordCheck (s : State) (p : Nat) (a : Word) : Except Nat (List Word × Subject) :=
  if a.toNat % 64 ≠ 0 || !inRanges s p a.toNat 64 then .error 8
  else
    let r := rdWords s a.toNat 8
    if !bit (dw r 7) 0 then .error 2
    else match subjectOf s p r with
    | none => .error 6
    | some x => if subjectAway s p x then .error 3 else .ok (r, x)

/-- The status of a `treplay`, and the state it leaves (R449). -/
def replayRecord (s : State) (p : Nat) (a : Word) : Nat × State :=
  match recordCheck s p a with
  | .error c => (c, s)
  | .ok (_, .here k) => (0, modThr s k fun t => takeBack (readFrame s t.frame) t)
  | .ok (_, _) => (4, s)

/-- The physical address of the parked thread's frame that a record names, when `treplay` would read it. -/
def replayFrame? (s : State) (p : Nat) (a : Word) : Option Nat :=
  match recordCheck s p a with | .ok (_, .here k) => some (thr s k).frame | _ => none

/-- An instruction that answers a fault record ends with a status; the hart takes interrupts again (R449). -/
def answerEnd (w : Wide) (k : Nat) (r : Nat × State) : State :=
  modThr (modHart r.2 k fun h => { h with shut := false }) k (endWord w (if r.1 = 0 then 0 else stw r.1))

/-- The record that an instruction on a hart names is not read yet (R420, R454, R481); one at a misaligned place is not read. -/
def answerHeld (s : State) (k : Nat) (a : Word) : Option State := if a.toNat % 64 = 0 then recordShut s k a.toNat 64 else none

/-- `treplay` (R449). The hart takes no interrupt while the record or the frame is not read (R454). -/
def execTreplay (w : Wide) (s : State) : Host.Outcome State Fault Refusal :=
  .next (forKeys s fun s k =>
    let p := partOf s k
    let a := src (thr s k) w.s1
    match answerHeld s k a with
    | some s => s
    | none =>
      match (replayFrame? s p a).bind fun f => recordShut s k f 1024 with
      | some s => s
      | none => answerEnd w k (replayRecord s p a))

/-- A parked thread goes on (R450): outside a handler every entry is re-injected, inside one those that the handler did not issue stay
held; with `drop`, entry 0 is dropped first. -/
def resumeThread (now : Nat) (drop : Bool) (t : Thread) : Thread :=
  let t := reissue { t with st := .ready, wait := .none, wus := 0, age := now, held := if drop then t.held.drop 1 else t.held }
  let inh := t.trap.inh
  { t with trap := { t.trap with flt := inh && t.trap.flt && !drop, redo := inh && t.trap.redo } }

/-- The statuses of `tresume` beyond those it shares (R449): 4 and 5. -/
def actionCheck (s : State) (r : List Word) (x : Subject) (act : Word) : Nat :=
  match x with
  | .copy _ => if 2 ≤ act.toNat then 4 else 0
  | .here k =>
    let t := thr s k
    if 2 < act.toNat || (act = 1 && !bit (dw r 0) 56) then 4
    else if act = 2 && (t.trap.hvec = 0 || t.trap.inh) then 5
    else 0
  | .image => 3

/-- The trap that a record stands for (R446, R450). -/
def trapOf (r : List Word) : Trap :=
  { code := bits (dw r 0) 55 48, insn := dw r 6, addr := dw r 1, va := dw r 2, flt := bit (dw r 0) 56 }

/-- What `tresume` does to its subject (R450). -/
def actOn (s : State) (r : List Word) (x : Subject) (act : Word) : State :=
  match x with
  | .copy c => if act = 0 then setCopy s { c with state := 2 } else retireCopy s c
  | .here k =>
    modThr s k fun t =>
      if act = 2 then { enterHandler (trapOf r) t with age := s.cycle } else resumeThread s.cycle (act = 1) t
  | .image => s

/-- The status of a `tresume`, and the state it leaves (R449, R450): VALID is cleared, and the action is taken. -/
def resumeRecord (s : State) (p : Nat) (a act : Word) : Nat × State :=
  match recordCheck s p a with
  | .error c => (c, s)
  | .ok (r, x) =>
    match actionCheck s r x act with
    | 0 => (0, actOn (wrWord s (a.toNat + 0x38) (setBit (dw r 7) 0 false)) r x act)
    | c => (c, s)

/-- `tresume` (R449, R450). The hart takes no interrupt while the record is not read (R454). -/
def execTresume (w : Wide) (s : State) : Host.Outcome State Fault Refusal :=
  .next (forKeys s fun s k =>
    let t := thr s k
    let a := src t w.s1
    match answerHeld s k a with
    | some s => s
    | none => answerEnd w k (resumeRecord s (partOf s k) a (src t w.s2)))

/-- `engrst` (R452). -/
def execEngrst (w : Wide) (s : State) : Host.Outcome State Fault Refusal :=
  .next (forKeys s fun s k =>
    let v := src (thr s k) w.s1
    if bits v 63 6 ≠ 0 then modThr s k (endWord w (stw 4))
    else if !ownsCore s (partOf s k) (bits v 5 4 * 64 + bits v 3 0 * 4) then modThr s k (endWord w (stw 1))
    else let (n, s) := resetEngine s (bits v 5 0); modThr s k (endWord w (w64 n)))

/-! The fault queue (R445, R448). -/

/-- The frame that a record names has been written (R433, R447). -/
def frameWritten (s : State) (r : List Word) : Bool :=
  let kind := bits (dw r 0) 63 60
  !((kind = 1 || (kind = 5 && dw r 4 ≠ 0)) && s.posted.any fun p => overlaps p.at_ p.what.size (dw r 4).toNat 1024)

/-- FAULT_RECORD_POST (R448): the oldest record that waits, when its frame is written and the ring has room. The ring's home writes it,
when no handler holds its lines (R420). -/
def execFaultRecordPost (p : Nat) (s : State) : Host.Outcome State Fault Refusal :=
  .next (match (part s p).fqPend with
  | [] => s
  | r :: rest =>
    let base := bits (part s p).fq 63 12 * 4096
    let n := ringSize (part s p).fq 16
    let tail := rdWord s (base + 8)
    if !inRanges s p base (0x40 + 64 * n) || !ringClear s base 64 || !frameWritten s r then s
    else if poisoned s base 64 then eccRecord s p base
    else if (tail - rdWord s base).toNat ≥ n || !ringClear s (base + 0x40 + 64 * (tail.toNat % n)) 64 then s
    else
      let s := modPart s p fun q => { q with fqPend := rest }
      let s := wrWords s (base + 0x40 + 64 * (tail.toNat % n)) r
      msi (wrWord s (base + 8) (tail + 1)) (part s p).fqmsi)

/-! Errors found late (R453, R454). -/

/-- A store of a thread of a partition that had finished fails at its destination (R453). In the record of an exited thread PLACE and
INSN are not kept, and are free (log 3). -/
def storeFault (s : State) (p tid : Nat) (pc va : Word) : State :=
  match liveKey s p tid with
  | some k => modThr s k fun t => { t with pend0E := some (pc, va) }
  | none =>
    match keptTeam s p tid with
    | some m => modKept s m tid fun t => { t with pend0E := some (pc, va) }
    | none =>
      match ended? s p tid with
      | some e =>
        let (b, s) := freshWord s
        let (c, s) := freshWord s
        postFault s p (faultRecord 5 true false false false 0x0E e.team tid pc va b 0 e.asid e.park c)
      | none => addLate0E s p tid (pc, va)

/-- IMPRECISE_STORE_FAULT (R453). -/
def execImpreciseStoreFault (p tid pc va : Nat) (s : State) : Host.Outcome State Fault Refusal :=
  .next (storeFault s p tid (w64 pc) (w64 va))

/-- UNCORRECTABLE_ERROR (R454): the line of a physical address, or of handler SRAM by `sramAt`, holds data that no consumer takes; a
pinned line is unlocked (R356). Each consumer's rule says what follows when it meets the line. -/
def execUncorrectableError (pa : Nat) (s : State) : Host.Outcome State Fault Refusal :=
  let l := pa / 64
  .next { s with poison := if s.poison.contains l then s.poison else s.poison ++ [l], pinned := s.pinned.filter (· ≠ l) }

end Sys2Proof.Machine
end

