-- ==== Sys2Proof/Machine/Debug.lean ====
section
/-! DEFINITION. Debug commands, marks, breaks, causal experiments and the trace's own packets (R460-R474). -/

namespace Sys2Proof.Machine

/-- The hart of a key runs in S or M mode: it may write a supervisor CSR. -/
def supHart (s : State) (k : Nat) : Bool := isHart k && (hart s k).running && (hart s k).mode ≠ .user

/-- The hart of a key runs in M mode: it may write a machine CSR. -/
def machHart (s : State) (k : Nat) : Bool := isHart k && (hart s k).running && (hart s k).mode = .machine

/-- The hart of a key is a manager hart in M mode (R32, R35). -/
def mgrHart (s : State) (k : Nat) : Bool := machHart s k && (hart s k).mgr

/-! dbgctl (R461-R463). -/

/-- A write of `dbgctl` for a partition (R461). -/
def dbgctlStore (s : State) (p : Nat) (v : Word) : State :=
  let q := part s p
  if bit q.dbgctl 63 then s
  else
    let err := bit q.dbgctl 62 && !bit v 62
    let s := modPart s p fun q => { q with dbgctl := setBit (v &&& 0x0000_FFFF_000F_FF00#64) 62 err }
    match bits v 2 0 with
    | 0 => s
    | 1 => dbgAct s p 1
    | 2 => dbgAct s p 2
    | 3 => dbgAct s p 3
    | _ => dbgRefuse s p

/-- DBGCTL_STOP (R462): the write with CMD = 1. -/
def execDbgctlStop (k : Nat) (v : Word) (s : State) : Host.Outcome State Fault Refusal :=
  .next (if supHart s k && bits v 2 0 = 1 then dbgctlStore s (partOf s k) v else s)

/-- DBGCTL_RESUME (R463): the write with CMD = 2. -/
def execDbgctlResume (k : Nat) (v : Word) (s : State) : Host.Outcome State Fault Refusal :=
  .next (if supHart s k && bits v 2 0 = 2 then dbgctlStore s (partOf s k) v else s)

/-- DBGCTL_RELOAD (R463): the write with CMD = 3. -/
def execDbgctlReload (k : Nat) (v : Word) (s : State) : Host.Outcome State Fault Refusal :=
  .next (if supHart s k && bits v 2 0 = 3 then dbgctlStore s (partOf s k) v else s)

/-! Marks and breaks (R470-R472). -/

/-- A mark counter after an amount is added (R470, R471). -/
def countMark (c v : Word) : Word :=
  let n := bits c 39 0 + bits v 39 0
  setBits (if 2 ^ 40 ≤ n then setBit c 46 true else c) 39 0 (n % 2 ^ 40)

/-- Another issuer has written a counter at this count of cycles, and a free bit says that the write falls in the cycle of an increment by
a thread, which is then lost (R456, log 3). -/
def markLost (s : State) (k n : Nat) : Bool × State :=
  match mget? (part s (partOf s k)).mkWrite n with
  | some (c, j) => if c = s.cycle && j ≠ k then freshBool s else (false, s)
  | none => (false, s)

/-- TMark (R471) of a thread with its counter and amount. -/
def markCounter (s : State) (k n : Nat) (v : Word) : State :=
  let p := partOf s k
  let c := mget 0 (part s p).mkcnt n
  if bit c 47 && bits c 63 48 = asidK s k then
    let (lost, s) := markLost s k n
    if lost then s
    else modPart s p fun q => { q with mkcnt := mset 0 q.mkcnt n (countMark c v), mkLast := mput q.mkLast n (s.cycle, k, c) }
  else s

/-- A mark counter after a write (R470): OVF is cleared by a 1. -/
def mkcntWrite (old v : Word) : Word := setBit (v &&& 0xFFFF_80FF_FFFF_FFFF) 46 (bit old 46 && !bit v 46)

/-- A write of a mark counter by a hart (R470). An increment by another issuer at this count of cycles is lost, with its overflow, when a
free bit says that the two fall in one cycle (R456, log 3). -/
def mkcntStore (s : State) (k n : Nat) (v : Word) : State :=
  let p := partOf s k
  let cur := mget 0 (part s p).mkcnt n
  let (old, s) := match mget? (part s p).mkLast n with
    | some (c, j, before) => if c = s.cycle && j ≠ k then let (b, s) := freshBool s; (if b then before else cur, s) else (cur, s)
    | none => (cur, s)
  modPart s p fun q => { q with mkcnt := mset 0 q.mkcnt n (mkcntWrite old v), mkWrite := mput q.mkWrite n (s.cycle, k) }

/-- `tmark` (R471). -/
def execTmark (w : Wide) (s : State) : Host.Outcome State Fault Refusal :=
  .next (forKeys s fun s k =>
    let t := thr s k
    let v := src t w.s1
    let n := w.imm11.toNat % 16
    if t.helper then setThr s k (endWord0 w t)
    else modThr (emitMark (markCounter s k n v) k 0 s.cur.pc v n) k (endWord0 w))

/-- `tbrk` on one thread or hart (R472). -/
def tbrkOne (w : Wide) (s : State) (k : Nat) : State :=
  let t := thr s k
  let v := src t w.s1
  let id := w.imm11.toNat % 16
  let act := bits (part s (partOf s k)).tbrkcfg (2 * id + 1) (2 * id)
  if t.helper || act = 0 then setThr s k (endWord0 w t)
  else
    let s := emitMark s k 1 s.cur.pc v id
    if act = 3 then modThr s k (endWord0 w)
    else if isHart k then hartTrap s k false 3 v t.pc
    else match (if act = 2 then teamK? s k else none) with
    | some m =>
      modTeam (modThr s k (endWord0 w)) m.part m.asid m.num fun m =>
        { m with halt := true, stopping := match m.stopping with | some x => some x | none => some 1 }
    | none => raise s k 0x12 0 .load

/-- `tbrk` (R472). -/
def execTbrk (w : Wide) (s : State) : Host.Outcome State Fault Refusal := .next (forKeys s (tbrkOne w))

/-! Causal experiments (R473, R474). -/

/-- COUNT of the sixteen mark counters. -/
def markCounts (q : Partition) : List Nat := (List.range 16).map fun n => bits (mget 0 q.mkcnt n) 39 0

/-- The end of a running trial (R474): INRANGE, HELD and DELTA are written, then DONE, and threads that it held go on. -/
def endTrial (s : State) (p : Nat) (tr : Trial) (aborted : Bool) : State :=
  let now := markCounts (part s p)
  let delta := (List.range 16).map fun n =>
    if tr.cmask.testBit n then w64 ((now.getD n 0 + 2 ^ 40 - tr.start.getD n 0) % 2 ^ 40) else 0
  let s := wrWords s (tr.recAt + 0x28) [w64 tr.inrange, w64 tr.held]
  let s := wrWords s (tr.recAt + 0x40) delta
  let s := wrWord s (tr.recAt + 0x20) (w64 (2 ^ 63 + b2n aborted * 2 ^ 62))
  let s := modPart s p fun q => { q with trial := none }
  { s with threads := s.threads.map fun (k, t) =>
      (k, if isSimt k && t.part = p && asidOf t.satp = tr.asid && !(match t.wait with | .pushRetry _ => true | _ => false)
        then { t with holdTill := none } else t) }

/-- The record of a running trial can be written at its home (R420, R481). -/
def trialClear (s : State) (tr : Trial) : Bool := ringClear s tr.recAt 192

/-- A zero field of an experiment record is non-zero, or a field breaks its bounds (R474): status 2. -/
def trialBad (l : List Word) : Bool :=
  bits (dw l 2) 63 48 ≠ 0 || bits (dw l 3) 63 16 ≠ 0 || bits (dw l 4) 61 0 ≠ 0 || dw l 7 ≠ 0 ||
  (dw l 1).toNat ≤ (dw l 0).toNat || bits (dw l 2) 31 16 = 0 || bits (dw l 2) 15 0 = 0

/-- The trial that a record asks for. -/
def trialOf (s : State) (p : Nat) (a : Nat) (l : List Word) : Trial :=
  { recAt := a, lo := dw l 0, hi := dw l 1, asid := bits (dw l 2) 47 32, delay := bits (dw l 2) 31 16
    endUs := s.us + bits (dw l 2) 15 0, cmask := bits (dw l 3) 15 0, start := markCounts (part s p), inrange := 0, held := 0 }

/-- The status of a `cexp` and the state it leaves (R474). -/
def experimentAt (s : State) (p : Nat) (a : Word) : Nat × State :=
  let l := rdWords s a.toNat 24
  match (part s p).trial with
  | some tr =>
    if a = 0 then (0, endTrial s p tr true)
    else if a.toNat % 64 ≠ 0 || !inRanges s p a.toNat 192 then (8, s)
    else if trialBad l then (2, s)
    else (6, s)
  | none =>
    if a = 0 then (6, s)
    else if a.toNat % 64 ≠ 0 || !inRanges s p a.toNat 192 then (8, s)
    else if trialBad l then (2, s)
    else (0, modPart s p fun q => { q with trial := some (trialOf s p a.toNat l) })

/-- `cexp` waits (R420, R454, R481): for the record that it reads, or for that of the trial that it ends. -/
def cexpHeld (s : State) (k : Nat) (a : Word) : Option State :=
  if a = 0 then match (part s (partOf s k)).trial with
    | some tr => if trialClear s tr then none else some s
    | none => none
  else if a.toNat % 64 = 0 then recordHeld s k a.toNat 192 else none

/-- `cexp` (R474). -/
def execCexp (w : Wide) (s : State) : Host.Outcome State Fault Refusal :=
  .next (forKeys s fun s k =>
    let p := partOf s k
    let a := src (thr s k) w.s1
    match cexpHeld s k a with
    | some s => s
    | none => let (c, s) := experimentAt s p a; modThr s k (endWord w (if c = 0 then 0 else stw c)))

/-- TRIAL_END (R474): after DUR µs, when the record can be written. -/
def execTrialEnd (p : Nat) (s : State) : Host.Outcome State Fault Refusal :=
  .next (match (part s p).trial with
  | some tr => if tr.endUs ≤ s.us && trialClear s tr then endTrial s p tr false else s
  | none => s)

/-! The trace's own packets (R467, R468). -/

/-- A write of `trctl` (R465, R467): when EN becomes 1, every core of the partition emits a SYNC. -/
def trctlStore (s : State) (p : Nat) (v : Word) : State :=
  let was := bit (part s p).trctl 63
  let s := modPart s p fun q => { q with trctl := v &&& 0xF000_FFFF_0000_001F#64 }
  if !was && bit v 63 then (coresOf s p).foldl (fun s c => emitSync s p c) s else s

/-- TRACE_SYNC (R467): at a cycle whose count is a multiple of 4096, before any other packet of the cycle. The packet of the
cycle in which EN becomes 1 is part of that write. -/
def execTraceSync (c : Nat) (s : State) : Host.Outcome State Fault Refusal :=
  .next (match coreOwner s c with
  | some p => dueSync s p c
  | none => s)

/-- LOSS_PACKET (R468): the buffer has room after drops. -/
def execLossPacket (c : Nat) (s : State) : Host.Outcome State Fault Refusal := .next (pushLoss s c)

end Sys2Proof.Machine
end

