-- ==== Sys2Proof/Machine/Partition.lean ====
section
/-! DEFINITION. Partitions and contexts: the resource table, `partctl`, the reset of a partition, `rtbase`, `ctxfree`, `satp`, key
slots, requests at a home, and the CSR commands of threads (R28-R45, R127, R150, R347, R442). -/

namespace Sys2Proof.Machine

/-! The resource table (R35-R38, R347). -/

/-- The base of the resource table. -/
def tableBase (s : State) : Nat := bits s.rtbase 63 16 * 65536

/-- A granule-map entry has a reserved bit set or breaks a rule of R347. An entry of the capacity tier with DIE 2 or 3, of which there is no
latency die, counts as breaking it, and one with a non-zero SSET or STK does not; R347 says neither (log 36). -/
def granuleBad (e : Word) : Bool :=
  bits e 62 21 ≠ 0 || bits e 14 13 ≠ 0 || bits e 6 0 ≠ 0 || (bit e 20 && bits e 19 17 ≠ 0) ||
  (if bit e 16 then bit e 15 || 2 ≤ bits e 8 7
   else bits e 12 11 = 3 || (bits e 12 11 = 1 && bit e 9) || (bits e 12 11 = 2 && bits e 10 9 ≠ 0))

/-- The granule map of a table: entries with their granules. -/
def mapEntries (s : State) (base : Nat) : List (Nat × Word) := (List.range 4096).map fun g => (g, rdWord s (base + 0x2000 + 8 * g))

/-- The resources that a partition section names (R37), in a partition that is CONFIGURED. -/
def sectionOf (q : Partition) (l : List Word) : Partition :=
  { state := 1, done := q.done, dlate := q.dlate, lc0 := (dw l 0).toNat, lc1 := (dw l 1).toNat, cl := (dw l 2).toNat, bc := (dw l 3).toNat
    io := (dw l 4).toNat, pinq := bits (dw l 5) 25 16, l2q := bits (dw l 5) 9 0, eye := (dw l 6).toNat, cs := (dw l 7).toNat
    boot := dw l 8 }

/-- A reserved bit of a section is non-zero (R37, R38). -/
def sectionBad (l : List Word) : Bool :=
  bits (dw l 0) 63 36 ≠ 0 || bits (dw l 1) 63 36 ≠ 0 || bits (dw l 3) 63 36 ≠ 0 || bits (dw l 4) 63 24 ≠ 0 ||
  bits (dw l 5) 63 26 ≠ 0 || bits (dw l 5) 15 10 ≠ 0 || bits (dw l 8) 1 0 ≠ 0 || (l.drop 9).any (· ≠ 0)

/-- The latency cores of a partition, as keys, lowest first (R37). -/
def hartsOf (q : Partition) : List Nat :=
  ((List.range 36).filter q.lc0.testBit).map (hartKey 0) ++ ((List.range 36).filter q.lc1.testBit).map (hartKey 1)

/-- Two partitions name a core, cluster, port, function, eyelet range or set slot in common (R38). -/
def shares (a b : Partition) : Bool :=
  a.lc0 &&& b.lc0 ≠ 0 || a.lc1 &&& b.lc1 ≠ 0 || a.cl &&& b.cl ≠ 0 || a.bc &&& b.bc ≠ 0 || a.io &&& b.io ≠ 0 ||
  a.eye &&& b.eye ≠ 0 || a.cs &&& b.cs ≠ 0

/-- The checks of a configure command (R38). That a table names no more granules of a stack or of the capacity tier than the package has is
not among them: every granule that it names is memory (log 36). -/
def configureBad (s : State) (p : Nat) (l : List Word) (es : List (Nat × Word)) : Bool :=
  let q := sectionOf (part s p) l
  let others := (s.parts.filter fun (i, x) => i ≠ p && x.state ≠ 0).map (·.2)
  sectionBad l || es.any (fun (_, e) => granuleBad e) || (q.lc0 = 0 && q.lc1 = 0) || (hartsOf q).any (fun k => (hart s k).mgr) ||
  others.any (shares q) || q.l2q < q.pinq || 512 < (others.map (·.l2q)).sum + q.l2q ||
  !(es.any fun (g, _) => g = q.boot.toNat / 2 ^ 30)

/-- A configure command (R38): none where it is refused. A granule that is already in force for another stays with it. -/
def configure (s : State) (p : Nat) : Option State :=
  let base := tableBase s
  let l := rdWords s (base + 0x1000 + 256 * p) 32
  let es := (mapEntries s base).filter fun (_, e) => bit e 63 && !bit e 20 && bits e 19 17 = p
  if configureBad s p l es then none
  else
    let q := sectionOf (part s p) l
    let s := modPart s p fun _ => q
    let s := (hartsOf q).foldl (fun s k => modHart s k fun _ => { part := p }) s
    some { s with granules := es.foldl (fun m (g, e) => if (mget? m g).isSome then m else mset 0 m g e) s.granules }

/-! partctl (R32, R33, R39). -/

/-- A start command: the partition's first hart leaves reset in M mode at BOOT (R33, R37). -/
def startPart (s : State) (p : Nat) : State :=
  let q := part s p
  let s := modPart s p fun q => { q with state := 2 }
  match hartsOf q with
  | [] => s
  | k :: _ => setThr (modHart s k fun _ => { running := true, mode := .machine, part := p }) k { part := p, st := .latency, pc := q.boot, lfsr := seedOf 0 }

/-- What a partition keeps through its reset: its resources, its state and what `partctl` reports. -/
def Partition.bare (q : Partition) : Partition :=
  { state := q.state, done := q.done, dlate := q.dlate, lc0 := q.lc0, lc1 := q.lc1, cl := q.cl, bc := q.bc, io := q.io, pinq := q.pinq
    l2q := q.l2q, eye := q.eye, cs := q.cs, boot := q.boot, resetUs := q.resetUs, drained := q.drained }

/-- The key of a hart of a partition. -/
def partHart (s : State) (p k : Nat) : Bool := isHart k && !(hart s k).mgr && (hart s k).part = p

/-- The agent of a key belongs to a partition: a thread, a hart, or a cobbler core that runs a handler of its. -/
def partKey (s : State) (p : Nat) (k : Nat) (t : Thread) : Bool := if isHart k then partHart s p k else t.part = p

/-- A partition's handler sets leave a slice: bindings, queued events and a running invocation (R39, R412). -/
def dropSets (s : State) (p x : Nat) : State :=
  let sl := slice s x
  let mine := (sl.sets.filter fun (_, b) => b.part = p).map (·.1)
  let s := match sl.run with
    | some r => if mine.contains r.ev.set then dropThr (modSlice s x fun sl => { sl with run := none }) (cobKey x) else s
    | none => s
  mine.foldl (fun s set => rebindAt s x set none) s

/-- What a core keeps for its trace stream through a reset of its partition (R466). -/
def Core.bare (x : Core) : Core :=
  { lastPc := x.lastPc, lastAsid := x.lastAsid, lastTeam := x.lastTeam, lastPhase := x.lastPhase, issues := x.issues }

/-- Stop (R39): every core, engine and handler set of a partition stops where it stands, its saves are abandoned, and what its
agents held is given up, its row operations too (R387); requests on their way to a sequencing point remain. Its eyelets leave
their laces (R40). -/
def stopPart (s : State) (p : Nat) : State :=
  let mine := s.cores.filter fun (c, _) => ownsCore s p c
  let s := { s with
    resvs := s.resvs.filter fun r => !partKey s p r.1 (thr s r.1)
    threads := s.threads.filter fun (k, t) => !partKey s p k t
    harts := s.harts.map fun (e : Nat × Hart) => (e.1, if partHart s p e.1 then { part := p } else e.2)
    held := s.held.filter fun h => h.1 ≠ p
    teams := s.teams.filter fun t => t.part ≠ p
    copies := s.copies.filter fun c => c.part ≠ p
    transits := s.transits.filter fun x => x.part ≠ p
    walks := s.walks.filter fun x => x.part ≠ p
    rowOps := s.rowOps.filter fun x => x.part ≠ p
    shoots := s.shoots.filter fun x => x.part ≠ p
    engines := s.engines.filter fun (e, _) => !ownsCore s p (e / 16 * 64 + e % 16 * 4)
    eth := s.eth.map fun (e : Nat × EthPort) => (e.1, if (part s p).io.testBit e.1 then { e.2 with buffer := [], paused := [] } else e.2)
    cores := s.cores.map fun (e : Nat × Core) => (e.1, if mine.any fun m => m.1 = e.1 then e.2.bare else e.2) }
  let s := (s.slices.map (·.1)).foldl (fun s x => dropSets s p x) s
  let s := (s.eyelets.filter fun (e : Nat × Eyelet) => e.2.part = p && e.2.st ≠ 0).foldl (fun s (e : Nat × Eyelet) => unbind s e.1) s
  { s with harts := s.harts.filter fun (e : Nat × Hart) => e.2 ≠ {} }

/-- A reset command (R32, R39). `ethrq` stands until the partition is WIPED, for the frames that are dropped and counted (R40). -/
def resetPart (s : State) (p : Nat) : State :=
  let s := modPart s p fun q =>
    { q.bare with state := 3, done := false, dlate := false, resetUs := s.us, drained := false, ethrq := q.ethrq }
  stopPart s p

/-- A release command (R33, R38): the resources return to the pool. -/
def releasePart (s : State) (p : Nat) : State :=
  let s := (hartsOf (part s p)).foldl (fun s k => modHart s k fun _ => {}) s
  let s := modPart s p fun q => { done := q.done, dlate := q.dlate }
  { s with granules := s.granules.filter fun (_, e) => bit e 20 || bits e 19 17 ≠ p }

/-- A command of `partctl` on a partition, none where it is refused (R32, R33). -/
def partCommand (s : State) (p cmd : Nat) : Option State :=
  match cmd, (part s p).state with
  | 1, 1 => some (startPart s p)
  | 1, 4 => some (startPart s p)
  | 2, 2 => some (resetPart s p)
  | 3, 4 => some (releasePart s p)
  | 4, 0 => configure s p
  | _, _ => none

/-- A read of tables that a hart's CSR write makes does not take place yet (R420, R454, R481): the state in which the write is held, with
the error record at `pa` where a line of them has an uncorrectable error. -/
def tableHeld (s : State) (k pa : Nat) (spans : List (Nat × Nat)) : Option State :=
  if spans.any fun (a, n) => poisoned s a n then some (eccRecord s 8 pa)
  else if spans.any fun (a, n) => !postClear s (agentDie k) a n then some s
  else none

/-- A configure command reads the partition's section and the granule map (R38). -/
def configureHeld (s : State) (k : Nat) (v : Word) : Option State :=
  let base := tableBase s
  if bits v 6 4 = 4 && (part s (bits v 2 0)).state = 0 then
    tableHeld s k base [(base + 0x1000 + 256 * bits v 2 0, 256), (base + 0x2000, 0x8000)]
  else none

/-- A write of `partctl` by a manager hart (R32): PSEL, the W1C bits of PSEL's partition, and the command. -/
def partctlStore (s : State) (v : Word) : State :=
  let p := bits v 2 0
  let s := { s with partctl := setBit (setBits s.partctl 2 0 p) 17 (bit s.partctl 17 && !bit v 17) }
  let s := if bit v 16 || bit v 11
    then modPart s p fun q => { q with dlate := q.dlate && !bit v 16, done := q.done && !bit v 11 } else s
  match bits v 6 4 with
  | 0 => s
  | cmd => (partCommand s p cmd).getD { s with partctl := setBit s.partctl 17 true }

/-- A write of `partctl` with a given CMD, where it is accepted; it is held while its table cannot be read. -/
def partctlRow (cmd k : Nat) (v : Word) (s : State) : State :=
  if !mgrHart s k || bits v 6 4 ≠ cmd then s else (configureHeld s k v).getD (partctlStore s v)

/-- PARTCTL_CONFIGURE (R38). -/
def execPartctlConfigure (k : Nat) (v : Word) (s : State) : Host.Outcome State Fault Refusal := .next (partctlRow 4 k v s)

/-- PARTCTL_START (R33). -/
def execPartctlStart (k : Nat) (v : Word) (s : State) : Host.Outcome State Fault Refusal := .next (partctlRow 1 k v s)

/-- PARTCTL_RESET (R39). -/
def execPartctlReset (k : Nat) (v : Word) (s : State) : Host.Outcome State Fault Refusal := .next (partctlRow 2 k v s)

/-- PARTCTL_RELEASE (R33). -/
def execPartctlRelease (k : Nat) (v : Word) (s : State) : Host.Outcome State Fault Refusal := .next (partctlRow 3 k v s)

/-- The address lies in a range of a partition, whoever asks. -/
def ownedBy (s : State) (p pa : Nat) : Bool := let g := granule s pa; bit g 63 && !bit g 20 && bits g 19 17 = p

/-- A request that carries a partition's tag is in flight (R39): a laced operation, or a write of the hardware to its memory. -/
def inFlight (s : State) (p : Nat) : Bool := (s.laced.any fun l => l.part = p) || s.posted.any fun x => ownedBy s p x.at_

/-- Scrub (R39): what is left of the partition in caches, translation caches and key slots, and what hardware still had to write to its
memory; `bare` has no key slot. -/
def scrub (s : State) (p : Nat) : State :=
  let s := modPart s p fun q => { q.bare with drained := true, ethrq := q.ethrq }
  { s with
    tlb := s.tlb.filter fun e => e.part ≠ p
    walkCache := s.walkCache.filter fun e => e.part ≠ p
    posted := s.posted.filter fun x => !ownedBy s p x.at_
    l1 := s.l1.filter fun l => !ownedBy s p (64 * l.line)
    zeroTags := s.zeroTags.filter fun l => !ownedBy s p (64 * l)
    pinned := s.pinned.filter fun l => !ownedBy s p (64 * l) }

/-- RESET_DRAIN_END (R39): no request of the partition remains, and the scrub runs. -/
def execResetDrainEnd (p : Nat) (s : State) : Host.Outcome State Fault Refusal :=
  .next (if (part s p).state = 3 && !(part s p).drained && !inFlight s p then scrub s p else s)

/-- DRAIN_DEADLINE (R39): 1 ms after the command the requests that remain are discarded, DLATE is set, and the scrub runs. -/
def execDrainDeadline (p : Nat) (s : State) : Host.Outcome State Fault Refusal :=
  .next (if (part s p).state = 3 && !(part s p).drained && inFlight s p && decide ((part s p).resetUs + 1000 ≤ s.us) then
    let s := { s with laced := s.laced.filter fun l => l.part ≠ p }
    scrub (modPart s p fun q => { q with dlate := true }) p
  else s)

/-- WIPE_COMPLETE (R39): every range of the partition reads zero, without error, and nothing of it stands below the caches or in the
buffers of its ports; DONE is set and the partition is WIPED. -/
def execWipeComplete (p : Nat) (s : State) : Host.Outcome State Fault Refusal :=
  .next (if (part s p).state = 3 && (part s p).drained then
    let s := { s with
      mem := s.mem.filter fun c => !ownedBy s p c.1
      stale := s.stale.filter fun x => !ownedBy s p x.1
      posted := s.posted.filter fun x => !ownedBy s p x.at_
      eth := s.eth.map fun (e : Nat × EthPort) => (e.1, if (part s p).io.testBit e.1 then { e.2 with buffer := [], paused := [] } else e.2)
      poison := s.poison.filter fun l => !ownedBy s p (64 * l) }
    modPart s p fun q => { q with state := 4, done := true, ethrq := 0 }
  else s)

/-! rtbase (R35, R36). -/

/-- The checks of a write of `rtbase` on the table that it names. -/
def tableBad (s : State) (base : Nat) : Bool :=
  let h := rdWords s base 8
  !bit (dw h 0) 0 || bits (dw h 0) 63 36 ≠ 0 || bits (dw h 1) 63 36 ≠ 0 || (h.drop 2).any (· ≠ 0) ||
  (mapEntries s base).any fun (_, e) => bit e 20 && granuleBad e

/-- A write of `rtbase` by a manager hart (R35). -/
def rtbaseStore (s : State) (v : Word) : State :=
  let base := bits v 63 16 * 65536
  let cerr := { s with partctl := setBit s.partctl 17 true }
  if s.parts.any fun (_, q) => q.state ≠ 0 then cerr
  else if tableBad s base then cerr
  else
    let s := [0, 1].foldl (fun s d => (List.range 36).foldl (fun s c =>
      modHart s (hartKey d c) fun h => { h with mgr := bit (rdWord s (base + 8 * d)) c }) s) s
    { s with rtbase := w64 base, granules := (mapEntries s base).foldl (fun m (g, e) => if bit e 20 && bit e 63 then mset 0 m g e else m) [] }

/-- A write of `rtbase` that is not refused at once reads the table's header and its granule map (R35). -/
def rtbaseHeld (s : State) (k : Nat) (v : Word) : Option State :=
  let base := bits v 63 16 * 65536
  if s.parts.any fun (_, q) => q.state ≠ 0 then none else tableHeld s k base [(base, 64), (base + 0x2000, 0x8000)]

/-- RTBASE_WRITE (R35). -/
def execRtbaseWrite (k : Nat) (v : Word) (s : State) : Host.Outcome State Fault Refusal :=
  .next (if !mgrHart s k then s else (rtbaseHeld s k v).getD (rtbaseStore s v))

/-! Contexts (R41-R44). -/

/-- A write of `satp` (R42, R349): an unsupported MODE leaves it as it is, and a new ASID opens a context of the partition. -/
def satpStore (s : State) (k : Nat) (v : Word) : State :=
  if bits v 63 60 = 0 || (levels (bits v 63 60)).isSome then
    let s := modHart s k fun h => { h with satp := v }
    if (hart s k).mgr || (part s (partOf s k)).open_.contains (asidOf v) then s
    else modPart s (partOf s k) fun q => { q with open_ := q.open_ ++ [asidOf v] }
  else s

/-- A supervisor that traps its accesses to `satp` (standard TVM). -/
def trapsVm (s : State) (k : Nat) : Bool := (hart s k).mode = .supervisor && bit (hart s k).mstatus 20

/-- CONTEXT_OPEN (R42): the write with an ASID that names no open context. -/
def execContextOpen (k : Nat) (v : Word) (s : State) : Host.Outcome State Fault Refusal :=
  .next (if supHart s k && !trapsVm s k && !(part s (partOf s k)).open_.contains (asidOf v) then satpStore s k v else s)

/-- A thread of the context is in a state from 2 to 6 on a SIMT core or on its way to or from one, or a team of it is saving or
loading (R43). A frame in flight to a team does not stand in the way: it is refused when it arrives (R134, log 36). -/
def contextBusy (s : State) (p asid : Nat) : Bool :=
  (s.threads.any fun (k, t) => isSimt k && t.part = p && asidOf t.satp = asid && t.st ≠ .exited && t.st ≠ .created) ||
  (s.transits.any fun x => x.part = p && asidOf x.satp = asid && x.kind ≠ 0) ||
  ((part s p).retPend.any fun (f, r) => r ≠ 3 && asidOf (rdWord s (f + 0x2B8)) = asid) ||
  s.teams.any fun t => t.part = p && t.asid = asid && (t.st = .saving || t.st = .loading)

/-- A copy still touches the scratch of a resident team of the context (R43, R188). -/
def contextCopies (s : State) (p asid : Nat) : Bool :=
  s.copies.any fun c => c.part = p && asidOf c.satp = asid &&
    s.teams.any fun t => t.part = p && t.asid = asid && t.st = .resident && (c.touchAll || c.touches.contains t.num)

/-- The steps that free a context (R43). -/
def freeContext (s : State) (p asid : Nat) : State :=
  let s := (s.teams.filter fun t => t.part = p && t.asid = asid && t.st ≠ .held).foldl releaseTeam s
  let s := { s with
    threads := s.threads.map fun (e : Nat × Thread) => (e.1,
      if isHart e.1 && partHart s p e.1 && asidOf (satpOf s e.1) = asid then { e.2 with team := 0, tidx := 0, gangw := 0 } else e.2)
    cores := s.cores.map fun (e : Nat × Core) => (e.1,
      if ownsCore s p e.1 && e.2.binding.any (fun (b : QBinding) => asidOf b.satp = asid) then { e.2 with binding := none } else e.2) }
  let s := (s.eyelets.filter fun (e : Nat × Eyelet) => e.2.part = p && e.2.st ≠ 0 && asidOf e.2.satp = asid).foldl
    (fun s (e : Nat × Eyelet) => flushEye s e.1) s
  let s := s.slices.foldl (fun s (e : Nat × Slice) =>
    (e.2.sets.filter fun (b : Nat × CobBind) => b.2.part = p && asidOf b.2.satp = asid).foldl
      (fun s (b : Nat × CobBind) => rebindSlot s e.1 b.1 none) s) s
  let gone := ((part s p).keys.filter fun (_, x) => x.asid = asid).map (·.1)
  let sealed := fun (l : List TracePacket) => l.filter fun x => !(gone.any fun n => x.slot = some n)
  let s := { s with cores := s.cores.map fun (e : Nat × Core) => (e.1,
    if ownsCore s p e.1 then { e.2 with buffer := sealed e.2.buffer, unsealed := sealed e.2.unsealed } else e.2) }
  let s := modPart s p fun q =>
    { q with
      keys := q.keys.filter fun (_, x) => x.asid ≠ asid, open_ := q.open_.filter (· ≠ asid), ctxkey := mset 0 q.ctxkey asid 0 }
  let all : Shootdown := { part := p, key := 0, av := true, aa := false, va := 0, asid := asid, waits := [] }
  { s with
    tlb := s.tlb.filter fun e => !shootEntry all e
    walkCache := s.walkCache.filter fun e => !(e.part = p && e.asid = asid) }

/-- A write of `ctxfree` on a hart (R43). It is held while copies touch the scratch of a team that it frees. -/
def ctxfreeStore (s : State) (k : Nat) (v : Word) : State :=
  let p := partOf s k
  let asid := bits v 15 0
  let old := bit (hart s k).ctxfree 63 && !bit v 63
  if !(part s p).open_.contains asid || contextBusy s p asid then modHart s k fun h => { h with ctxfree := setBit h.ctxfree 63 true }
  else modHart (freeContext s p asid) k fun h => { h with ctxfree := setBit (w64 asid) 63 old }

/-- The context that a write of `ctxfree` names is held for its copies. -/
def ctxfreeHeld (s : State) (k : Nat) (v : Word) : Bool :=
  let p := partOf s k
  (part s p).open_.contains (bits v 15 0) && !contextBusy s p (bits v 15 0) && contextCopies s p (bits v 15 0)

/-- A write of `ctxfree` on a hart, which takes no interrupt while it is held (R43): whether it is done, and the state. -/
def ctxfreeRun (s : State) (k : Nat) (v : Word) : Bool × State :=
  if ctxfreeHeld s k v then (false, modHart s k fun h => { h with shut := true })
  else (true, modHart (ctxfreeStore s k v) k fun h => { h with shut := false })

/-- CTXFREE_WRITE (R43). -/
def execCtxfreeWrite (k : Nat) (v : Word) (s : State) : Host.Outcome State Fault Refusal :=
  .next (if supHart s k then (ctxfreeRun s k v).2 else s)

/-- TENANT_KEY_LOAD (R42, R44, R495): the partition manager loads a key bound to an open context into an empty slot, in
the life-cycle state field. -/
def execTenantKeyLoad (p slot : Nat) (x : TenantKey) (s : State) : Host.Outcome State Fault Refusal :=
  let q := part s p
  let asid := x.asid
  .next (if s.boot.lc = 2 && p < 8 && q.state ≠ 0 && slot < 16 && q.open_.contains asid && (mget? q.keys slot).isNone
      && !(q.keys.any fun (_, x) => x.asid = asid) then
    modPart s p fun q => { q with keys := mput q.keys slot { loaded := true, key := x.key % 2 ^ 256, asid := asid } }
  else s)

/-! Requests at a home (R29, R30). -/

/-- The requester kinds of a boundary record. -/
def requesterCode : Requester → Nat
  | .thread => 0 | .copyEngine => 1 | .cobbler => 2 | .pcie => 3 | .ethernet => 4 | .eyelet => 5

/-- A request outside the ranges of its tag (R30): memory is unchanged; a thread takes the access fault, and for a requester that
cannot, a boundary record is written. -/
def blocked (s : State) (r : HomeReq) : State :=
  match r.kind with
  | .thread =>
    if occupied s r.key then
      let w := (chainAt s r.key).1.1.headD ⟨(thr s r.key).pc, 0, 8⟩
      raiseTrap s r.key { code := 0x0B, insn := w.bits, addr := w.addr, va := w64 r.va } (if r.write then .store else .load)
    else s
  | .eyelet => s
  | k => errRecord s { kind := 0, part := r.tag, req := requesterCode k, pa := r.pa, tid := r.tid }

/-- A request at its home: served, blocked, or held while the line is. Before it is served, a core may write back a managed copy of
the line (R358, log 10). -/
def atHome (s : State) (r : HomeReq) : State :=
  let n := if r.write then r.data.length else r.len
  if !inRanges s r.tag r.pa n then blocked s r
  else if lineHeld s r.key r.pa n then s
  else
    let s := freeEvict s (r.pa / 64)
    if r.write then wrBytes s r.key r.pa r.data else s

/-- HOME_REQUEST (R30). -/
def execHomeRequest (r : HomeReq) (s : State) : Host.Outcome State Fault Refusal := .next (atHome s r)

/-! Commands of a thread's CSRs on a hart. -/

/-- The frame that a write of `tframe` or `rsvr` names is not read yet (R127, R442, R454). -/
def frameHeld (s : State) (k : Nat) (v : Word) : Option State := recordHeld s k (bits v 63 10 * 1024) 1024

/-- TFRAME_WRITE (R127). -/
def execTframeWrite (k : Nat) (v : Word) (s : State) : Host.Outcome State Fault Refusal :=
  .next (if supHart s k then (frameHeld s k v).getD (tframeLoad s k v) else s)

/-- TSIG_WRITE (R150, R151). -/
def execTsigWrite (k : Nat) (v : Word) (s : State) : Host.Outcome State Fault Refusal :=
  .next (if supHart s k then tsigStore s k v else s)

/-- RSVR_WRITE (R442). -/
def execRsvrWrite (k : Nat) (v : Word) (s : State) : Host.Outcome State Fault Refusal :=
  .next (if supHart s k then (frameHeld s k v).getD (rsvrStore s k v) else s)

end Sys2Proof.Machine
end

