-- ==== Sys2Proof/Machine/Link.lean ====
section
/-! DEFINITION. The links: Welt modules, Bolcel ports and requests through them, Ethernet ports, and PCIe (R475-R491). -/

namespace Sys2Proof.Machine

/-! Welt (R475-R481). -/

/-- The module that `weltsel` names (R478). -/
def weltNo (s : State) : Nat := min 95 s.weltsel

/-- The lanes that a spare map's used spares replace (R479). -/
def spareLanes (m : Nat) : List Nat :=
  ((List.range 4).filter fun i => !m.testBit (8 * i + 7)).map fun i => m / 2 ^ (8 * i) % 64

/-- Two used spares name one lane (R480). -/
def sparesClash (m : Nat) : Bool := (uniq (spareLanes m)).length ≠ (spareLanes m).length

/-- BUSY of a module: a command is in progress. A pause that hardware began is none (R477). -/
def Welt.isBusy (x : Welt) : Bool := x.busy ≠ 0 && x.busy ≠ 8

/-- A module has the state in which a command is accepted (R477, R480), and what it becomes; none where it is refused. -/
def weltCommand (x : Welt) (cmd : Nat) : Option Welt :=
  match cmd with
  | 1 => if x.st = 1 || x.st = 2 then some { x with busy := 1 } else none
  | 2 => if x.st = 3 then some { x with st := if x.width = 32 then 2 else 1 } else none
  | 5 => if x.st = 1 || x.st = 2 || x.st = 3 then some { x with st := 0, busy := 0, replays := 0 } else none
  | 3 => if (x.st = 0 || x.st = 3) && !sparesClash x.map then some { x with st := 4, busy := 3 } else none
  | 4 => if (x.st = 0 || x.st = 3) && !sparesClash x.map then some { x with st := 4, busy := 4 } else none
  | _ => none

/-- A write of `weltctl` (R478, R480). -/
def weltctlStore (s : State) (v : Word) : State :=
  if (welt s (weltNo s)).isBusy then s
  else modWelt s (weltNo s) fun x =>
    let x := { x with err := x.err && !bit v 62, hi := x.hi && !bit v 31, half := bit v 49, rthr := bits v 47 32 }
    match bits v 2 0 with
    | 0 => x
    | cmd => (weltCommand x cmd).getD { x with err := true }

/-- A write of `weltctl` with a given CMD, where it is accepted. -/
def weltRow (cmd k : Nat) (v : Word) (s : State) : State := if mgrHart s k && bits v 2 0 = cmd then weltctlStore s v else s

/-- WELTCTL_PAUSE (R477). -/
def execWeltctlPause (k : Nat) (v : Word) (s : State) : Host.Outcome State Fault Refusal := .next (weltRow 1 k v s)

/-- WELTCTL_RESUME (R477). -/
def execWeltctlResume (k : Nat) (v : Word) (s : State) : Host.Outcome State Fault Refusal := .next (weltRow 2 k v s)

/-- WELTCTL_RETRAIN_X64 (R480). -/
def execWeltctlRetrainX64 (k : Nat) (v : Word) (s : State) : Host.Outcome State Fault Refusal := .next (weltRow 3 k v s)

/-- WELTCTL_RETRAIN_X32 (R480). -/
def execWeltctlRetrainX32 (k : Nat) (v : Word) (s : State) : Host.Outcome State Fault Refusal := .next (weltRow 4 k v s)

/-- WELTCTL_DOWN (R477). -/
def execWeltctlDown (k : Nat) (v : Word) (s : State) : Host.Outcome State Fault Refusal := .next (weltRow 5 k v s)

/-- A write of `weltmap` (R479, R480): only in PAUSED or DOWN. -/
def weltmapStore (s : State) (v : Word) : State :=
  modWelt s (weltNo s) fun x => if x.st = 0 || x.st = 3 then { x with map := bits (v &&& 0xBFBF_BFBF) 31 0 } else { x with err := true }

/-- WELTMAP_WRITE (R480). -/
def execWeltmapWrite (k : Nat) (v : Word) (s : State) : Host.Outcome State Fault Refusal :=
  .next (if mgrHart s k then weltmapStore s v else s)

/-- TRAINING_COMPLETE (R477, R480). -/
def execTrainingComplete (m : Nat) (ok : Bool) (s : State) : Host.Outcome State Fault Refusal :=
  .next (if (welt s m).st ≠ 4 then s
  else modWelt s m fun x =>
    if ok then { x with st := 3, width := if x.busy = 4 then 32 else 64, busy := 0 } else { x with st := 0, err := true, busy := 0 })

/-- PAUSE_COMPLETE (R477): the retry buffer is empty. -/
def execPauseComplete (m : Nat) (s : State) : Host.Outcome State Fault Refusal :=
  let x := welt s m
  .next (if (x.busy = 1 || x.busy = 8) && (x.st = 1 || x.st = 2) then modWelt s m fun x => { x with st := 3, busy := 0, replays := 0 } else s)

/-- FLIT_CRC_ERROR (R476, R479): one retry; `again` says that the flit is the one replayed last. Sixteen successive replays
of one flit begin a pause. -/
def execFlitCrcError (m lane : Nat) (again : Bool) (s : State) : Host.Outcome State Fault Refusal :=
  .next (if 96 ≤ m || !((welt s m).st = 1 || (welt s m).st = 2) then s
  else modWelt s m fun x =>
    let n := if again then x.replays + 1 else 1
    { x with
      rtot := (x.rtot + 1) % 2 ^ 32, rcur := min 0xFFFF (x.rcur + 1), lerr := if lane < 64 then setBit x.lerr lane true else x.lerr
      replays := n, busy := if 16 ≤ n && x.busy = 0 then 8 else x.busy })

/-- The end of a module's retry window (R479), and the interrupt when HI goes to 1. -/
def windowEnd (s : State) (m : Nat) : State :=
  let x := welt s m
  let hi := x.rthr ≤ x.rcur
  let s := modWelt s m fun x => { x with rwin := x.rcur, rcur := 0, hi := x.hi || hi }
  if hi && !x.hi then mirq s else s

/-- RETRY_WINDOW_END (R479): at the end of each window of 1 ms. -/
def execRetryWindowEnd (s : State) : Host.Outcome State Fault Refusal :=
  .next (if s.windowUs + 1000 ≤ s.us then (List.range 96).foldl windowEnd { s with windowUs := s.us / 1000 * 1000 } else s)

/-! Bolcel (R482-R486). -/

/-- A write of `bcport` for a partition (R482). -/
def bcportStore (s : State) (p : Nat) (v : Word) : State :=
  let n := bits v 5 0
  let cmd := bits v 7 6
  let own := n < 36 && (part s p).bc.testBit n
  let err := (bit (part s p).bcport 8 && !bit v 8) || !own || cmd = 3
  let s := modPart s p fun q => { q with bcport := setBit (w64 n) 8 err }
  match own, cmd with
  | true, 1 => modPort s n fun _ => { st := 1, lanes := 0 }
  | true, 2 => modPort s n fun _ => { st := 0, lanes := 0 }
  | _, _ => s

/-- BCPORT_RETRAIN (R482). -/
def execBcportRetrain (k : Nat) (v : Word) (s : State) : Host.Outcome State Fault Refusal :=
  .next (if supHart s k && bits v 7 6 = 1 then bcportStore s (partOf s k) v else s)

/-- BCPORT_DOWN (R482). -/
def execBcportDown (k : Nat) (v : Word) (s : State) : Host.Outcome State Fault Refusal :=
  .next (if supHart s k && bits v 7 6 = 2 then bcportStore s (partOf s k) v else s)

/-- The state of a reachable port by its lanes (R482). -/
def portState (lanes : BitVec 4) : Nat := if lanes = 0 then 0 else if lanes = 0xF#4 then 2 else 3

/-- BOLCEL_TRAINING_COMPLETE (R482). -/
def execBolcelTrainingComplete (n : Nat) (lanes : BitVec 4) (s : State) : Host.Outcome State Fault Refusal :=
  .next (if (port s n).st = 1 then modPort s n fun _ => { st := portState lanes, lanes := lanes } else s)

/-- BOLCEL_PORT_REPORT (R482): a trained port is unreachable, or reachable with the lanes that it has. -/
def execBolcelPortReport (n : Nat) (reachable : Bool) (lanes : BitVec 4) (s : State) : Host.Outcome State Fault Refusal :=
  .next (if 2 ≤ (port s n).st then
    modPort s n fun x =>
      let l := x.lanes &&& lanes
      { st := if reachable || l = 0 then portState l else 4, lanes := l }
  else s)

/-- A port carries traffic (R482). -/
def portUp (s : State) (n : Nat) : Bool := (port s n).st = 2 || (port s n).st = 3

/-- BOLCEL_REQUEST (R27, R40, R485): a request from another package that a port brings in is served at the home, whose copies elsewhere a
write first invalidates, or answered partition-unavailable while the line's partition is RESETTING; an address that no granule in force
names is refused. It waits while its route from the port's die is closed or its line is held (R420, R481). -/
def execBolcelRequest (q : PortReq) (s : State) : Host.Outcome State Fault Refusal :=
  let n := q.port
  let r := q.req
  let g := granule s r.pa
  let len := if r.write then r.data.length else r.len
  .next (if !portUp s n || !bit g 63 || bit g 20 || (part s (bits g 19 17)).state = 3 || !inRanges s (bits g 19 17) r.pa len then s
  else if !postClear s (bolcelDie n) r.pa len then s
  else
    let s := freeEvict s (r.pa / 64)
    if r.write then wrBytes (invalidate s (w64 256) r.pa) hwKey r.pa r.data else s)

/-- The address and second operand of the access that an instruction makes as a load or atomically (R486). -/
def accessOf (t : Thread) (i : Instr) : Option (Word × Word) :=
  match i with
  | .standardInstruction (.load _ _ a imm) => some (baseAddr t a imm, 0)
  | .standardInstruction (.lr _ _ _ _ a) => some (getX t a.toNat, 0)
  | .standardInstruction (.sc _ _ _ _ a b) | .standardInstruction (.amo _ _ _ _ _ a b) => some (getX t a.toNat, getX t b.toNat)
  | .ldacq w => some (src t w.s1, 0)
  | .amos w | .casx w => some (src t w.s1, src t w.s2)
  | _ => none

/-- A word of a SIMT thread whose access failed at another package has issued: it is the thread's last operation. What its latch target
receives no rule says: a free value (log 36). -/
def issueFailed (w : Wide) (p : PendOp) (s : State) (k : Nat) : State :=
  let (n, s) := freshNat s
  modThr s k fun t => { t with ops := t.ops ++ [p], chain := chainNext (putLatch t.chain w.lt.toNat (w64 n)) w.h, pc := t.pc + 8 }

/-- The instruction that a key issues next makes its access at another package, and it fails there (R486): on a hart, and in a handler
(R438), the access fault is precise; a word of a SIMT thread becomes entry 0. -/
def failNext (s : State) (k : Nat) (va : Word) : State :=
  if !(if isHart k then (hart s k).running && (thr s k).wait = .none else isSimt k && occupied s k && canIssue s k) then s
  else match prepare s [k] with
  | (.over, _) => s
  | (.go i, s') =>
    let t := thr s' k
    match accessOf t i, captured t s'.cur.bits 0, wideOf? i with
    | some (a, b), some (kind, rd), wide =>
      if a ≠ va || t.helper then s
      else if isHart k || t.trap.inh then raise s' k 0x0B va (opAcc kind)
      else match wide with
      | some (_, w) =>
        let p : PendOp := { pc := s'.cur.pc, bits := s'.cur.bits, op1 := a, op2 := b, kind := kind, rd := rd, sent := false, value := 0 }
        sendFault (issueFailed w p s' k) k t.ops.length p (.cause 0x0B va)
      | none => s
    | _, _, _ => s

/-- A load or an atomic access of a thread or hart fails at another package (R486): an operation that left the core, or leaves it now, is
entry 0, with FLT = 1. -/
def failLoad (s : State) (k : Nat) (va : Word) : State :=
  let ops := (thr s k).ops
  let first := (firstUnsent (thr s k)).map (·.1)
  let hit := fun (i : Nat) => match ops[i]? with
    | some p => opAddr p.kind p.op1 = va && (match p.kind with
      | .load _ _ _ => p.sent || first = some i
      | .amo _ _ | .lr _ | .sc _ | .casx _ _ _ _ => first = some i
      | _ => false)
    | none => false
  match (if isSimt k && occupied s k then (List.range ops.length).find? hit else none) with
  | none => failNext s k va
  | some i =>
    let s := modThr (useWalks s k) k fun t => { t with ops := t.ops.modify i fun p => { p with sent := false } }
    match (thr s k).ops[i]? with
    | some p => sendFault s k i p (.cause 0x0B va)
    | none => s

/-- What a failing completion does to its request (R486). -/
def failRequest (s : State) (r : RemoteReq) : State :=
  match r with
  | .threadLoad k va => failLoad s k (w64 va)
  | .threadStore p tid pc va => storeFault s p tid (w64 pc) (w64 va)
  | .copy p ticket va wr =>
    match s.copies.find? fun c => c.part = p && c.ticket = ticket && c.state = 2 with
    | some c => copyRecord (retireCopy s c) c 0x0B va wr true
    | none => s
  | .laced _ _ => s
  | .prefetch => s

/-- FAILING_COMPLETION (R40, R486): partition-unavailable, or unreachable because a port is DOWN or ISOLATED. A laced operation leaves a
gap (R395); a prefetch is dropped. -/
def execFailingCompletion (r : Completion) (s : State) : Host.Outcome State Fault Refusal :=
  .next (if r.port.all fun n => (port s n).st = 0 || (port s n).st = 4 then failRequest s r.req else s)

/-- BOLCEL_TIMEOUT (R486): no answer within 2 ms. -/
def execBolcelTimeout (r : RemoteReq) (us : Nat) (s : State) : Host.Outcome State Fault Refusal :=
  .next (if 2000 ≤ us then failRequest s r else s)

/-- DIRECTORY_SNOOP (R485): a snoop writes the line's copies back; an invalidation drops them, with the reservations on it. -/
def execDirectorySnoop (pa : Nat) (inval : Bool) (s : State) : Host.Outcome State Fault Refusal :=
  .next (
    let l := pa / 64
    let s := cleanLine s l
    if inval then { s with l1 := s.l1.filter (·.line ≠ l), resvs := s.resvs.filter fun (_, b, n) => !overlaps (64 * l) 64 b n } else s)

/-! Ethernet (R487-R490). -/

/-- The partition that owns an Ethernet port. -/
def ethOwner (s : State) (n : Nat) : Option Nat :=
  if n < 8 then (List.range 8).find? fun p => (part s p).state ≠ 0 && (part s p).io.testBit n else none

/-- The address of a queue's record (R487). -/
def ethRec (s : State) (p n q : Nat) : Nat := bits (part s p).ethrq 63 16 * 65536 + 8192 * n + 64 * q

/-- A queue record is well formed and enabled (R487). -/
def ethOn (l : List Word) : Bool :=
  bit (dw l 2) 63 && bits (dw l 0) 11 5 = 0 && 4 ≤ bits (dw l 0) 4 0 && bits (dw l 0) 4 0 ≤ 16 && bits (dw l 1) 47 44 = 0 &&
  bits (dw l 1) 31 6 = 0 && bits (dw l 2) 59 0 = 0 && dw l 6 = 0 && dw l 7 = 0

/-- A queue has a slot for hardware: DONE < POSTED (R488). -/
def ethSlot (l : List Word) : Bool := (dw l 4).toNat < (dw l 3).toNat

/-- The address of the slot that a queue completes next (R487). -/
def slotAddr (l : List Word) : Nat := bits (dw l 0) 63 12 * 4096 + 16 * ((dw l 4).toNat % 2 ^ bits (dw l 0) 4 0)

/-- A frame of a port is dropped and counted (R488). -/
def ethDrop (s : State) (n qa : Nat) : State := postAdd s (ethDie n) (qa + 0x28) 1

/-- A credit to a queue's sync reference (R222, R487). -/
def ethCredit (s : State) (p : Nat) (v : Word) (n : Nat) : State :=
  match team? s p (bits v 63 48) (bits v 43 32) with
  | some t =>
    if v = 0 || t.desc.syncs ≤ bits v 5 0 then s else land s p t.asid t.num t.serial { entry := some (bits v 5 0), bytes := n }
  | none => s

/-- A slot is completed: its second doubleword, DONE, and the credit (R488, R490). -/
def ethDone (s : State) (p qa : Nat) (l : List Word) (valid : Bool) (n : Nat) : State :=
  let s := wrWord s (slotAddr l + 8) (w64 (b2n valid * 2 ^ 63 + n))
  let s := wrWord s (qa + 0x20) (dw l 4 + 1)
  if valid then ethCredit s p (dw l 1) n else s

/-- A boundary record of an Ethernet queue (R30). -/
def ethBlocked (s : State) (p pa : Nat) : State := errRecord s { kind := 0, part := p, req := 4, pa := pa, tid := 0 }

/-- A frame is delivered into a queue's next slot, or dropped (R488). -/
def ethDeliver (s : State) (n p qa : Nat) (bs : List Byte) : State :=
  let l := rdWords s qa 8
  let a := slotAddr l
  if !inRanges s p a 16 then ethDrop (ethBlocked s p a) n qa
  else
    let buf := (rdWord s a).toNat
    let len := bits (rdWord s (a + 8)) 13 0
    if len < bs.length then ethDrop s n qa
    else if !inRanges s p buf bs.length then ethDrop (ethBlocked s p buf) n qa
    else ethDone (wrBytes s hwKey buf bs) p qa l true bs.length

/-- The PCP of flow control for a frame: 8 stands for PAUSE (R489). -/
def fcCode (f : EthFrame) : Nat := if f.tagged then f.queue / 8 else 8

/-- Hardware of a port reaches n bytes at an address: no line of them is held, and the route to their home is open (R27, R420, R481). -/
def ethOpen (s : State) (port pa n : Nat) : Bool := !lineHeld s hwKey pa n && homeOpen s (ethDie port) pa && homeOpen s (ethDie port) (pa + n - 1)

/-- A frame joins the port's 1 MiB buffer, or is dropped and counted where it finds that full (R489). -/
def ethHold (s : State) (n qa : Nat) (f : EthFrame) : State :=
  if ((ethPort s n).buffer.map (·.bytes.length)).sum + f.bytes.length ≤ 2 ^ 20 then modEth s n fun x => { x with buffer := x.buffer ++ [f] }
  else ethDrop s n qa

/-- A frame for a full queue (R489): dropped, or held in the port's buffer with flow control. -/
def ethFull (s : State) (n qa : Nat) (f : EthFrame) (l : List Word) : State :=
  if bit (dw l 2) 62 then ethDrop s n qa
  else
    let x := ethPort s n
    let known := x.paused.any fun y => y.1 = fcCode f && y.2.1 = f.queue
    let x := if known then x else
      { x with paused := x.paused ++ [(fcCode f, f.queue, s.us)], fcSent := x.fcSent ++ [(fcCode f, 0xFFFF)] }
    ethHold (modEth s n fun _ => x) n qa f

/-- A frame for a queue with a slot (R420, R454, R481, R488): it is delivered, or waits in the port's buffer behind an earlier one of its
queue and for the lines that its delivery reads and writes. -/
def ethSlotted (s : State) (n p qa : Nat) (f : EthFrame) : State :=
  let a := slotAddr (rdWords s qa 8)
  if ((ethPort s n).buffer.any fun g => g.queue = f.queue) || !ethOpen s n a 16 || !ethOpen s n (rdWord s a).toNat f.bytes.length then
    ethHold s n qa f
  else if inRanges s p a 16 && poisoned s a 16 then ethHold (eccRecord s p a) n qa f
  else ethDeliver s n p qa f.bytes

/-- A frame at its receive queue (R40, R488, R489). It waits in the port's buffer while the queue's record cannot be read. -/
def ethTake (s : State) (n : Nat) (f : EthFrame) : State :=
  match ethOwner s n with
  | none => s
  | some p =>
    let qa := ethRec s p n f.queue
    if !inRanges s p qa 64 then ethBlocked s p qa
    else if (part s p).state = 3 then ethDrop s n qa
    else if poisoned s qa 64 then ethHold (eccRecord s p qa) n qa f
    else if !ethOpen s n qa 64 then ethHold s n qa f
    else
      let l := rdWords s qa 8
      if !ethOn l then ethDrop s n qa
      else if ethSlot l then ethSlotted s n p qa f
      else ethFull s n qa f l

/-- The queue of a port has a slot again. -/
def ethFree (s : State) (n q : Nat) : Bool :=
  match ethOwner s n with
  | some p =>
    let qa := ethRec s p n q
    let l := rdWords s qa 8
    inRanges s p qa 64 && ethOpen s n qa 64 && !poisoned s qa 64 && (!ethOn l || ethSlot l)
  | none => true

/-- A port whose full queues have slots again sends quanta 0 for them; it takes the frames that wait in its buffer, in order, but for
those of a queue that is still full (R489). -/
def serveEth (s : State) (n : Nat) : State :=
  let x := ethPort s n
  let go := x.paused.filter fun y => ethFree s n y.2.1
  let mine := fun (f : EthFrame) => !(x.paused.any fun y => y.2.1 = f.queue && !go.contains y)
  if go = [] && !(x.buffer.any mine) then s
  else
    let s := modEth s n fun x =>
      { x with
        paused := x.paused.filter fun y => !go.contains y
        fcSent := x.fcSent ++ go.map fun y => (y.1, 0)
        buffer := x.buffer.filter fun f => !mine f }
    (x.buffer.filter mine).foldl (fun s f => ethTake s n f) s

/-- FRAME_RECEIVE (R488, R489): frames that wait for the queue go first. -/
def execFrameReceive (n : Nat) (tagged : Bool) (pcp udp : Nat) (bytes : List Byte) (s : State) : Host.Outcome State Fault Refusal :=
  .next (if 9216 < bytes.length then s
  else ethTake (serveEth s n) n { queue := 8 * (if tagged then pcp % 8 else 0) + udp % 8, tagged := tagged, bytes := bytes })

/-- PFC_REPEAT (R489): 2 µs after the last flow-control frame of a queue that is still full. -/
def execPfcRepeat (n q : Nat) (s : State) : Host.Outcome State Fault Refusal :=
  let s := serveEth s n
  let due := (ethPort s n).paused.filter fun y => y.2.1 = q && y.2.2 + 2 ≤ s.us
  .next (modEth s n fun x =>
    { x with
      paused := x.paused.map fun y => if due.contains y then (y.1, y.2.1, s.us) else y
      fcSent := x.fcSent ++ due.map fun y => (y.1, 0xFFFF) })

/-- TRANSMIT_FRAME (R490): the frame of a transmit queue's next slot. -/
def execTransmitFrame (n q : Nat) (s : State) : Host.Outcome State Fault Refusal :=
  .next (match ethOwner s n with
  | none => s
  | some p =>
    let qa := ethRec s p n q
    let l := rdWords s qa 8
    if q < 64 || 128 ≤ q || (part s p).state = 3 || !inRanges s p qa 64 then s
    else if poisoned s qa 64 then eccRecord s p qa
    else if !ethOpen s n qa 64 then s
    else if !ethOn l || !ethSlot l then s
    else
      let a := slotAddr l
      let buf := (rdWord s a).toNat
      let len := bits (rdWord s (a + 8)) 13 0
      if !inRanges s p a 16 then ethBlocked s p a
      else if poisoned s a 16 then eccRecord s p a
      else if !ethOpen s n a 16 || !ethOpen s n buf len then s
      else if len < 60 || 9216 < len then ethDone s p qa l false len
      else if !inRanges s p buf len then ethDone (ethBlocked s p buf) p qa l false len
      else if poisoned s buf len then eccRecord s p buf
      else ethDone (modEth s n fun x => { x with sent := x.sent ++ [rdBytes s buf len] }) p qa l true len)

/-! PCIe (R491). -/

/-- PCIE_DMA (R30, R491): a request of a function on the ranges of the partition that owns it; it waits while its route is closed
(R27, R481). What a request meets while the partition is RESETTING the spec does not say: it is dropped without a record (log 36). -/
def execPcieDma (link func : Nat) (write : Bool) (pa : Nat) (data : List Byte) (s : State) : Host.Outcome State Fault Refusal :=
  .next (if 2 ≤ link || 8 ≤ func then s
  else match (List.range 8).find? fun p => (part s p).state ≠ 0 && (part s p).io.testBit (8 + 8 * link + func) with
  | none => s
  | some p =>
    if (part s p).state = 3 || !homeOpen s (pcieDie link) pa then s
    else atHome s { tag := p, kind := .pcie, tid := 0, key := hwKey, write := write, pa := pa, va := 0, data := data, len := data.length })

end Sys2Proof.Machine
end

