-- ==== Sys2Proof/Machine/Boot.lean ====
section
/-! DEFINITION. Package reset, clock plans, images and life-cycle states, heat and power, and the interrupts of harts (R6, R10,
R45, R492-R500). -/

namespace Sys2Proof.Machine

/-! Clock plans (R496-R498). -/

/-- A valid band whose fields keep their bounds (R496): LO, HI and HMAX; none where it is ignored. -/
def bandOf (b : Band) : Option (Nat × Nat × Nat) :=
  let h := bits b.dw0 35 32
  if bit b.dw0 63 && bits b.dw0 62 36 = 0 && h ≠ 0 && bits b.dw1 63 32 = 0 && bits b.dw0 31 0 ≤ bits b.dw1 31 0
  then some (bits b.dw0 31 0, bits b.dw1 31 0, h) else none

/-- A clock in kHz clashes with a band (R496), over the first `n` harmonics of it at most. -/
def clashes (f n : Nat) (b : Band) : Bool :=
  match bandOf b with
  | some (lo, hi, h) => (List.range (min n h)).any fun i => lo ≤ (i + 1) * f && (i + 1) * f ≤ hi
  | none => false

/-- The first candidate free of clashes, or index 0 with a clash (R497). -/
def pickClock (bands : List Band) (cands : List Nat) : Nat × Bool :=
  match cands.findIdx? fun f => !(bands.any (clashes f 15)) with
  | some i => (i, false)
  | none => (0, true)

/-- The candidates of each domain, in kHz (R497). -/
def simtClocks : List Nat := [1_200_000, 1_176_000, 1_152_000]

/-- Latency cores. -/
def latClocks : List Nat := [3_800_000, 3_750_000, 3_700_000, 3_650_000, 3_600_000, 3_550_000, 3_500_000]

/-- Voltage regulators. -/
def regClocks : List Nat := [16_000, 18_000, 20_000, 22_000]

/-- The fixed clocks, checked at their fundamental. -/
def fixedClocks : List Nat := [6_000_000, 32_000_000, 53_125_000, 56_000_000]

/-- The clock plan of the first sixteen bands (R492, R497, R498). -/
def clockPlan (bands : List Band) (b : Boot) : Boot :=
  let bands := bands.take 16
  let (i, ci) := pickClock bands simtClocks
  let (l, cl) := pickClock bands latClocks
  let (r, cr) := pickClock bands regClocks
  let taken := [simtClocks.getD i 0, latClocks.getD l 0, regClocks.getD r 0]
  let hit := fun (x : Band) => (taken.any fun f => clashes f 15 x) || fixedClocks.any fun f => clashes f 1 x
  { b with
    simt := i, lat := l, reg := r, clash := ci || cl || cr || bands.any fun x => fixedClocks.any fun f => clashes f 1 x
    cband := bands.zipIdx.foldl (fun m (x, n) => m + b2n (hit x) * 2 ^ n) 0 }

/-! Tokens and images (R493-R495). -/

/-- A transition that a token may name (R495). -/
def mayMove (src dst : Nat) : Bool := (src, dst) ∈ [(0, 1), (0, 3), (1, 2), (1, 3), (2, 3)]

/-- The life-cycle state after a token; none where the token ends the reset with failure 4 (R495). -/
def afterToken (lc : Nat) (t : Option BootToken) : Option Nat :=
  match t with
  | none => some lc
  | some t => if t.rsaOk && t.slhOk && t.bound && t.src = lc && mayMove t.src t.dst then some t.dst else none

/-- The doublewords of an image's header (R493). -/
def imageHeader (i : BootImage) : List Word := dwords (i.bytes.take 64) 8

/-- The failure code of an image in a life-cycle state over a floor; 0 where it is accepted (R493, R494). -/
def imageFailure (lc floor : Nat) (i : BootImage) : Nat :=
  if !(i.rsaOk && i.slhOk) then 1
  else if (dw (imageHeader i) 1).toNat < floor then 2
  else if !bit (dw (imageHeader i) 2) lc then 3
  else 0

/-- The package with every core in reset and every memory zero (R45, R492), on its fuses and clock plan. -/
def blank (s : State) (b : Boot) : State :=
  { State.reset with turns := s.turns, freeIdx := s.freeIdx, harts := [], threads := [], boot := b }

/-- The boot ROM places n bytes in granule 0 (R35): at the address that the event names when they lie in it there, else at its start. -/
def inGranule0 (a n : Nat) : Nat := if a + n ≤ 2 ^ 30 then a else 0

/-- PACKAGE_RESET (R492-R497): what the spec fixes of the reset sequence. The image begins at the entry the event names,
with a0 at the copy of the boot block. -/
def execPackageReset (b : BootBlock) (s : State) : Host.Outcome State Fault Refusal :=
  let fuses : Boot := clockPlan b.bands { lc := s.boot.lc, floor := s.boot.floor }
  .next (match afterToken s.boot.lc b.token with
  | none => blank s { fuses with failure := 4 }
  | some lc =>
    let fuses := { fuses with lc := lc }
    match imageFailure lc fuses.floor b.image with
    | 0 =>
      let floor := if bit (dw (imageHeader b.image) 2) 4 then max fuses.floor (dw (imageHeader b.image) 1).toNat else fuses.floor
      let copyAt := inGranule0 b.copyAt b.bytes.length
      let m := Memory.write (Memory.write [] (inGranule0 b.image.at_ b.image.bytes.length) b.image.bytes) copyAt b.bytes
      let k := hartKey 0 0
      { blank s { fuses with floor := floor, roots := b.image.roots % 4 } with
        intPages := b.image.intPages
        mem := m
        focus := k
        harts := State.reset.harts
        threads := [(k, setReg { part := 8, st := .latency, pc := w64 b.entry, lfsr := seedOf 0 } 10 (w64 copyAt))] }
    | c => blank s { fuses with failure := c })

/-- THERMAL_THROTTLE (R500): idle cycles change no state but THR. -/
def execThermalThrottle (d : Nat) (s : State) : Host.Outcome State Fault Refusal :=
  .next { s with boot := { s.boot with hot := if s.boot.hot.contains d then s.boot.hot else s.boot.hot ++ [d] } }

/-- THERMAL_THROTTLE_END (R500). -/
def execThermalThrottleEnd (d : Nat) (s : State) : Host.Outcome State Fault Refusal :=
  .next { s with boot := { s.boot with hot := s.boot.hot.filter (· ≠ d) } }

/-- THERMAL_RESET_REQUEST (R500): the management controller is asked for a package reset. -/
def execThermalResetRequest (_ : Nat) (s : State) : Host.Outcome State Fault Refusal :=
  .next { s with boot := { s.boot with asked := true } }

/-- POWER_DOWN (R6): every piece of device state but the fuses is lost. -/
def execPowerDown (s : State) : Host.Outcome State Fault Refusal :=
  .next (blank s { powered := false, lc := s.boot.lc, floor := s.boot.floor })

/-! Interrupts of a hart (R10, log 12). -/

/-- An interrupt of a hart that is enabled is taken in its mode (standard): one for S mode in U mode or in S mode with SIE = 1; one
for M mode below M mode or with MIE = 1. -/
def irqOpen (h : Hart) (c : Nat) : Bool :=
  bit h.mie c &&
  (if bit h.mideleg c then (match h.mode with | .user => true | .supervisor => bit h.mstatus 1 | .machine => false)
   else h.mode ≠ .machine || bit h.mstatus 3)

/-- A wait that a hart does not leave for an interrupt: the hart takes none until its instruction ends (R190, R200, R365, R377,
R401, R407). -/
def irqShut (w : Wait) : Bool :=
  match w with | .teamsave _ | .teamload _ | .tlbip | .rowOp _ | .lleave _ | .lamo _ _ => true | _ => false

/-- A hart takes an interrupt at its boundary (R10), in S mode or M mode: a stalled instruction is abandoned and runs again, but for
`wfi`, which ends. -/
def takeIrq (s : State) (k : Nat) (toS : Bool) (c : Nat) : State :=
  let w := (thr s k).wait
  let s := match w with
    | .none => s
    | .wfi => modThr s k fun t => { t with wait := .none, pc := t.pc + 4 }
    | _ => abandonWait s k
  hartTrapTo s k toS true c 0 (thr s k).pc

/-- The interrupt that a hart's pending and enabled bits call for, with S mode where it goes there (standard and AIA: those for M mode
before those for S mode, virtual ones among these; external, software, timer). -/
def pendingIrq (h : Hart) : Option (Bool × Nat) :=
  let openM := h.mode ≠ .machine || bit h.mstatus 3
  let openS := h.mode = .user || (h.mode = .supervisor && bit h.mstatus 1)
  match [11, 3, 7, 9, 1, 5].find? fun c => bit (h.pending &&& h.mie &&& ~~~ h.mideleg) c && openM with
  | some c => some (false, c)
  | none => ([9, 1, 5].find? fun c => bit (h.sipRead &&& h.sieRead) c && openS).map fun c => (true, c)

/-- The interrupt that a hart takes at its boundary for a pending bit, outside chains and waits that allow none; the state after it. An
enabled one ends a `wfi` even where it is not taken (standard). -/
def hartIrq (s : State) (k : Nat) : Option State :=
  if !(hart s k).running || irqShut (thr s k).wait || (thr s k).chain.live || (hart s k).shut then none
  else match pendingIrq (hart s k) with
  | some (toS, c) => some (takeIrq s k toS c)
  | none =>
    if (thr s k).wait = .wfi && (hart s k).wanted ≠ 0 then some (modThr s k fun t => { t with wait := .none, pc := t.pc + 4 }) else none

/-- HART_INTERRUPT (R10): an interrupt that has been delivered to the hart is taken where it is enabled; one that is enabled in
`mie` alone ends a `wfi`. -/
def execHartInterrupt (k c : Nat) (s : State) : Host.Outcome State Fault Refusal :=
  .next (if !(isHart k && (hart s k).running && c < 64) || irqShut (thr s k).wait || (thr s k).chain.live ||
      (hart s k).shut then s
  else if irqOpen (hart s k) c then takeIrq s k (bit (hart s k).mideleg c) c
  else if (thr s k).wait = .wfi && bit (hart s k).mie c then modThr s k fun t => { t with wait := .none, pc := t.pc + 4 }
  else s)

end Sys2Proof.Machine
end

