-- ==== Sys2Proof/Machine/Csr.lean ====
section
/-! DEFINITION. Control and status registers: what a read gives, what a write does, and who may make it (R9, R13, R82, R434, and the
rule of each register; the layout of the standard ones is that of log 12). -/

namespace Sys2Proof.Machine

/-! User CSRs. -/

/-- The gang seed of a thread's gang (R69); none for a thread that is in no gang. -/
def gangSeed? (s : State) (k : Nat) : Option Word := (teamK? s k).map fun m => m.seeds.getD (gangNo (thr s k)) 0

/-- A write of the gang seed (R69), in the team's image too once that is written and until it is loaded (R196, R200, log 36); a helper's
is ignored (R154). -/
def putGangSeed (s : State) (k : Nat) (v : Word) : State :=
  match teamK? s k with
  | some m =>
    if (thr s k).helper then s
    else
      let s := modTeam s m.part m.asid m.num fun m => { m with seeds := m.seeds.set (gangNo (thr s k)) v }
      if m.st = .saved || m.st = .loading || (m.st = .saving && m.imageDone) then
        postWords s (agentDie k) (m.frame + 0x180 + 8 * gangNo (thr s k)) [v]
      else s
  | none => s

/-- `tlcfg` of a tile as the thread of a key reads it (R261, R457): zero past TILES, outside a team and on a latency core. -/
def tlcfgRead (s : State) (k n : Nat) : Word :=
  match teamK? s k with
  | some m => if isHart k || m.desc.tiles ≤ n then 0 else mget 0 m.tlcfg n
  | none => 0

/-- A write of `tlcfg` (R261); one past TILES, outside a team, on a latency core or by a helper (R457) is ignored. -/
def putTlcfg (s : State) (k n : Nat) (v : Word) : State :=
  match teamK? s k with
  | some m =>
    if isHart k || m.desc.tiles ≤ n || (thr s k).helper then s
    else modTeam s m.part m.asid m.num fun m => { m with tlcfg := mset 0 m.tlcfg n (w64 (bits v 23 0)) }
  | none => s

/-- The user CSRs that SIMT threads and latency harts share (R22, R66-R72, R111, R128, R144, R221, R261, R345, R396,
R430, standard F);
none for another number. -/
def userCsr (s : State) (k n : Nat) : Option Word :=
  let t := thr s k
  match n with
  | 0x001 => some (w64 (bits t.fcsr 4 0))
  | 0x002 => some (w64 (bits t.fcsr 7 5))
  | 0x003 => some (w64 (bits t.fcsr 7 0))
  | 0x820 => some t.lfsr
  | 0x821 => some ((gangSeed? s k).getD 0)
  | 0x822 => some t.trap.hvec
  | 0x823 => some t.trap.hepc
  | 0x824 => some t.trap.hcause
  | 0x825 => some t.trap.hdec0
  | 0x826 => some t.trap.hdec1
  | 0x827 => some t.trap.hdec2
  | 0x828 => some t.trap.hdec3
  | 0x829 => some (hstat t)
  | 0x82A => some t.qflags
  | 0x82B => some (w64 (match teamK? s k with | some m => m.desc.cls | none => bits t.tprio 1 0))
  | 0x82C => some t.trap.hrace
  | 0x82D => some t.trap.hlace
  | 0x82E => some t.trap.hfva
  | 0xCC0 => some (w64 t.tid)
  | 0xCC1 => some (w64 t.team)
  | 0xCC2 => some (w64 t.tidx)
  | 0xCC3 => some (w64 t.gangw)
  | 0xCC4 => some (place k)
  | 0xCC5 => some (w64 (b2n t.helper))
  | 0xCC6 => some (w64 (match teamK? s k with | some m => m.phase | none => 0))
  | n => if 0x800 ≤ n && n < 0x820 then some (tlcfgRead s k (n - 0x800)) else none

/-- A value of `qflags` after a write: the enables, and sticky bits that a 1 clears (R72). -/
def qflagsWrite (old v : Word) : Word := (v &&& 0x1F10) ||| (old &&& 7 &&& ~~~ v)

/-- A write of a user CSR's fields in the thread (R13). -/
def userPut (t : Thread) (n : Nat) (v : Word) : Thread :=
  match n with
  | 0x001 => { t with fcsr := w64 (bits t.fcsr 7 5 * 32 + bits v 4 0) }
  | 0x002 => { t with fcsr := w64 (bits v 2 0 * 32 + bits t.fcsr 4 0) }
  | 0x003 => { t with fcsr := w64 (bits v 7 0) }
  | 0x820 => { t with lfsr := w64 (bits v 31 0) }
  | 0x822 => { t with trap := { t.trap with hvec := setBit v 0 false } }
  | 0x823 => { t with trap := { t.trap with hepc := setBit v 0 false } }
  | 0x824 => { t with trap := { t.trap with hcause := w64 (bits v 7 0) } }
  | 0x825 => { t with trap := { t.trap with hdec0 := v } }
  | 0x826 => { t with trap := { t.trap with hdec1 := w64 (bits v 14 0) } }
  | 0x827 => { t with trap := { t.trap with hdec2 := v } }
  | 0x828 => { t with trap := { t.trap with hdec3 := v } }
  | 0x829 => { t with trap := { t.trap with redo := bit v 2 } }
  | 0x82A => { t with qflags := qflagsWrite t.qflags v }
  | 0x82B => if t.team = 0 then { t with tprio := w64 (bits v 1 0) } else t
  | 0x82C => { t with trap := { t.trap with hrace := v } }
  | 0x82D => { t with trap := { t.trap with hlace := setBits v 32 0 0 } }
  | 0x82E => { t with trap := { t.trap with hfva := v } }
  | _ => t

/-- A user CSR, all of whose fields are read-only (R13, R22, R128, R221). -/
def userReadOnly (n : Nat) : Bool := 0xCC0 ≤ n && n ≤ 0xCC6

/-- A write of a user CSR by the thread of a key. -/
def putUser (s : State) (k n : Nat) (v : Word) : State :=
  if n = 0x821 then putGangSeed s k v
  else if 0x800 ≤ n && n < 0x820 then putTlcfg s k (n - 0x800) v
  else modThr s k fun t => userPut t n v

/-! Supervisor CSRs of the spec; those of a partition are held once for it (R137). -/

/-- `bcport` as read (R482): STATE and LANES of an owned port. -/
def bcportRead (s : State) (p : Nat) : Word :=
  let v := (part s p).bcport
  let n := bits v 5 0
  if n < 36 && (part s p).bc.testBit n then v ||| w64 ((port s n).st * 2 ^ 61 + (port s n).lanes.toNat * 2 ^ 48) else v

/-- `ctxid` as read (R41). -/
def ctxidRead (s : State) (k : Nat) : Word :=
  let slot := mget 0 (part s (partOf s k)).ctxkey (asidK s k)
  let conf := match mget? (part s (partOf s k)).keys slot with | some x => x.loaded && x.asid = asidK s k | none => false
  w64 (b2n conf * 2 ^ 31 + slot * 65536 + asidK s k)

/-- The spec's supervisor CSRs as read on a hart (R41, R43, R127, R137, R149, R150, R193, R233, R354, R442, R445, R461-R472, R482,
R487). -/
def supCsr (s : State) (k n : Nat) : Option Word :=
  let h := hart s k
  let q := part s (partOf s k)
  match n with
  | 0x5C0 => some h.tframe
  | 0x5C1 => some (ctxidRead s k)
  | 0x5C2 => some q.patbase
  | 0x5C3 => some q.mbox
  | 0x5C4 => some q.fq
  | 0x5C5 => some q.wdog
  | 0x5C6 => some q.retq
  | 0x5C7 => some q.retmsi
  | 0x5C8 => some h.tsig
  | 0x5C9 => some q.tsdl
  | 0x5CA => some q.fqmsi
  | 0x5CB => some h.rsvr
  | 0x5CC => some q.dbgctl
  | 0x5CD => some q.trctl
  | 0x5CE => some q.trbase
  | 0x5CF => some q.tbrkcfg
  | 0x5E1 => some q.dbgev
  | 0x5E2 => some (bcportRead s (partOf s k))
  | 0x5E3 => some q.ethrq
  | 0x5E4 => some h.ctxfree
  | n => if 0x5D0 ≤ n && n ≤ 0x5DF then some (mget 0 q.mkcnt (n - 0x5D0)) else none

/-- How a CSR write ends: done, refused as an illegal instruction, or with the instruction not complete: a trap was taken, or the
hart is held at it. -/
inductive CsrRes
  | done (s : State)
  | illegal
  | over (s : State)

/-- A write whose trap, if it takes one, ends the instruction. -/
def orTrap (s : State) : CsrRes := if s.cur.trapped then .over s else .done s

/-- A write of one of the spec's supervisor CSRs on a hart. -/
def putSup (s : State) (k n : Nat) (v : Word) : CsrRes :=
  let p := partOf s k
  let q := fun (f : Partition → Partition) => CsrRes.done (modPart s p f)
  match n with
  | 0x5C0 => (match frameHeld s k v with
    | some s => .over s
    | none => orTrap (tframeLoad { s with cur := { s.cur with trapped := false } } k v))
  | 0x5C1 => q fun q => { q with ctxkey := mset 0 q.ctxkey (asidK s k) (bits v 19 16) }
  | 0x5C2 => q fun q => { q with patbase := setBits v 9 0 0 }
  | 0x5C3 => q fun q => { q with mbox := setBits v 11 0 0 }
  | 0x5C4 => q fun q => { q with fq := setBits v 11 5 0 }
  | 0x5C5 => q fun q => { q with wdog := v &&& 0x8000_0000_FFFF_FFFF }
  | 0x5C6 => q fun q => { q with retq := setBits v 11 5 0 }
  | 0x5C7 => q fun q => { q with retmsi := setBit v 11 false }
  | 0x5C8 => .done (tsigStore s k v)
  | 0x5C9 => q fun q => { q with tsdl := w64 (bits v 15 0) }
  | 0x5CA => q fun q => { q with fqmsi := setBit v 11 false }
  | 0x5CB => (match frameHeld s k v with | some s => .over s | none => .done (rsvrStore s k v))
  | 0x5CC => .done (dbgctlStore s p v)
  | 0x5CD => .done (trctlStore s p v)
  | 0x5CE => q fun q => { q with trbase := setBits v 11 0 0 }
  | 0x5CF => q fun q => { q with tbrkcfg := w64 (bits v 31 0) }
  | 0x5E1 => q fun q => { q with dbgev := setBits (setBit q.dbgev 63 (bit q.dbgev 63 && !bit v 63)) 7 0 (bits v 7 0) }
  | 0x5E2 => .done (bcportStore s p v)
  | 0x5E3 => q fun q => { q with ethrq := setBits v 15 0 0 }
  | 0x5E4 => (match ctxfreeRun s k v with | (true, s) => .done s | (false, s) => .over s)
  | n => .done (mkcntStore s k (n - 0x5D0) v)

/-! Machine CSRs of the spec. -/

/-- `partctl` as read (R32). -/
def partctlRead (s : State) : Word :=
  let q := part s (bits s.partctl 2 0)
  s.partctl ||| w64 (b2n q.dlate * 2 ^ 16 + b2n q.done * 2 ^ 11 + q.state * 256)

/-- `weltctl` as read (R478). -/
def weltctlRead (x : Welt) : Word :=
  w64 (b2n x.isBusy * 2 ^ 63 + b2n x.err * 2 ^ 62 + x.st * 2 ^ 53 + b2n x.half * 2 ^ 49 + x.rthr * 2 ^ 32 + b2n x.hi * 2 ^ 31)

/-- `clkst` (R498). -/
def clkst (b : Boot) : Word :=
  w64 (b.cband * 2 ^ 48 + b2n b.clash * 2 ^ 47 + b2n (b.hot ≠ []) * 2 ^ 46 + b.reg * 64 + b.lat * 8 + b.simt)

/-- The spec's machine CSRs as read on a hart (R31, R32, R35, R354, R389, R478, R479, R498). -/
def machCsr (s : State) (k n : Nat) : Option Word :=
  let h := hart s k
  let x := welt s (weltNo s)
  match n with
  | 0x7C0 => some (w64 (if h.mgr then 8 else h.part))
  | 0x7C1 => some (w64 (b2n (part s (partOf s k)).paten))
  | 0x7C2 => some (partctlRead s)
  | 0x7C3 => some (w64 (s.actCorr * 2 ^ 32 + s.actSatn * 65536 + s.actThresh))
  | 0x7C4 => some (w64 s.weltsel)
  | 0x7C5 => some (weltctlRead x)
  | 0x7C6 => some (w64 (x.rtot * 2 ^ 32 + x.rwin * 65536 + x.rcur))
  | 0x7C7 => some (w64 x.map)
  | 0x7C8 => some x.lerr
  | 0x7CA => some (clkst s.boot)
  | 0x7CB => some s.rtbase
  | _ => none

/-- A write that only a hart of the partition manager makes (R32, R35, R389, R478). -/
def byManager (s : State) (k : Nat) (r : CsrRes) : CsrRes := if (hart s k).mgr then r else .illegal

/-- A write of one of the spec's machine CSRs in machine mode. Writes of `partctl` and `rtbase` are held while their table cannot be
read (R454). -/
def putMach (s : State) (k n : Nat) (v : Word) : CsrRes :=
  match n with
  | 0x7C1 => .done (modPart s (partOf s k) fun q => { q with paten := bit v 0 })
  | 0x7C2 => byManager s k
    (match configureHeld s k v with | some s => .over s | none => .done (partctlStore s v))
  | 0x7C3 => byManager s k (.done { s with actThresh := bits v 11 0 })
  | 0x7C4 => byManager s k (.done { s with weltsel := bits v 6 0 })
  | 0x7C5 => byManager s k (.done (weltctlStore s v))
  | 0x7C7 => byManager s k (.done (weltmapStore s v))
  | 0x7C8 => byManager s k (.done (modWelt s (weltNo s) fun x => { x with lerr := x.lerr &&& ~~~ v }))
  | 0x7CB => byManager s k
    (match rtbaseHeld s k v with | some s => .over s | none => .done (rtbaseStore s v))
  | _ => .illegal

/-! Standard CSRs of harts (R9, R352, R443, log 12). -/

/-- `mstatus` as read: UXL and SXL are 2, and SD tells FS = 3. -/
def mstatusRead (v : Word) : Word := v ||| w64 (b2n (bits v 14 13 = 3) * 2 ^ 63 + 10 * 2 ^ 32)

/-- The fields of `mstatus` that can be written. -/
def mstatusMask : Word := 0x7E79AA

/-- The fields of `mstatus` that `sstatus` shows and writes. -/
def sstatusMask : Word := 0xC6122

/-- A value of `mstatus` after a write; MPP keeps its mode for the reserved code 2. -/
def mstatusWrite (old v : Word) : Word :=
  let m := v &&& mstatusMask
  if bits v 12 11 = 2 then setBits m 12 11 (bits old 12 11) else m

/-- A word with the fields of a mask taken from a value. -/
def merge (old v mask : Word) : Word := (old &&& ~~~ mask) ||| (v &&& mask)

/-- The environment fields of `menvcfg` and `senvcfg` beside ADUE; CBIE keeps its value for the reserved code 2. -/
def envWrite (old v : Word) : Word :=
  let m := v &&& 0xF1
  if bits v 5 4 = 2 then setBits m 5 4 (bits old 5 4) else m

/-- ADUE as the hart reads it: its partition's, or a manager hart's own (R352). -/
def adueOf (s : State) (k : Nat) : Bool := if (hart s k).mgr then bit (hart s k).menvcfg 61 else (part s (partOf s k)).adue

/-- What an interrupt file's top register reads (AIA, log 12): the identity, which is its priority too. -/
def topWord (f : IntFile) : Word := match f.top with | some i => w64 (i * 65536 + i) | none => 0

/-- The interrupt that `mtopi` or `stopi` names among those pending and enabled (AIA, log 12): its priority reads 1. -/
def topIrq (w : Word) : Word := match [11, 3, 7, 9, 1, 5].find? (bit w ·) with | some c => w64 (c * 65536 + 1) | none => 0

/-- The register of an interrupt file that a select value names (AIA, log 12): `eidelivery`, `eithreshold`, and the pairs of 32 bits of
`eip` and `eie` at even numbers; the major priorities read zero. -/
def IntFile.reg (f : IntFile) (sel : Word) : Option Word :=
  let n := sel.toNat
  if 0x30 ≤ n && n < 0x40 && n % 2 = 0 then some 0
  else if n = 0x70 then some (w64 f.delivery)
  else if n = 0x72 then some (w64 f.threshold)
  else if 0x80 ≤ n && n < 0xC0 && n % 2 = 0 then some (w64 (f.eip / 2 ^ (32 * (n - 0x80))))
  else if 0xC0 ≤ n && n < 0x100 && n % 2 = 0 then some (w64 (f.eie / 2 ^ (32 * (n - 0xC0))))
  else none

/-- 64 bits of a bit array, written at a bit number; bit 0 of the array stays 0. -/
def putBits (a at_ : Nat) (v : Word) : Nat :=
  let m := a - (a / 2 ^ at_ % 2 ^ 64) * 2 ^ at_ + v.toNat * 2 ^ at_
  m - m % 2

/-- A write of that register. -/
def IntFile.put (f : IntFile) (sel v : Word) : IntFile :=
  let n := sel.toNat
  if n = 0x70 then { f with delivery := bits v 0 0 }
  else if n = 0x72 then { f with threshold := bits v 10 0 }
  else if 0x80 ≤ n && n < 0xC0 then { f with eip := putBits f.eip (32 * (n - 0x80)) v }
  else if 0xC0 ≤ n && n < 0x100 then { f with eie := putBits f.eie (32 * (n - 0xC0)) v }
  else f

/-- A write of a top register claims the identity that it reads (AIA, log 12). -/
def IntFile.claim (f : IntFile) : IntFile := match f.top with | some i => { f with eip := f.eip ^^^ 2 ^ i } | none => f

/-- The identity registers, the counters that read zero, and the rest of the standard's machine CSRs, and its supervisor CSRs. -/
def stdCsr (s : State) (k n : Nat) : Option Word :=
  let h := hart s k
  match n with
  | 0x100 => some (mstatusRead h.mstatus &&& (sstatusMask ||| 0x8000_0003_0000_0000))
  | 0x104 => some h.sieRead
  | 0x105 => some h.stvec
  | 0x106 => some h.scounteren
  | 0x10A => some h.senvcfg
  | 0x140 => some h.sscratch
  | 0x141 => some h.sepc
  | 0x142 => some h.scause
  | 0x143 => some h.stval
  | 0x144 => some h.sipRead
  | 0x150 => some h.siselect
  | 0x151 => h.sfile.reg h.siselect
  | 0x15C => some (topWord h.sfile)
  | 0x180 => some h.satp
  | 0x300 => some (mstatusRead h.mstatus)
  | 0x302 => some h.medeleg
  | 0x303 => some h.mideleg
  | 0x304 => some h.mie
  | 0x305 => some h.mtvec
  | 0x306 => some h.mcounteren
  | 0x308 => some h.mvien
  | 0x309 => some h.mvipRead
  | 0x30A => some (setBit h.menvcfg 61 (adueOf s k))
  | 0x320 => some 0
  | 0x340 => some h.mscratch
  | 0x341 => some h.mepc
  | 0x342 => some h.mcause
  | 0x343 => some h.mtval
  | 0x344 => some h.pending
  | 0x350 => some h.miselect
  | 0x351 => h.mfile.reg h.miselect
  | 0x35C => some (topWord h.mfile)
  | 0xDB0 => some (topIrq (h.sipRead &&& h.sieRead))
  | 0xFB0 => some (topIrq (h.pending &&& h.mie &&& ~~~ h.mideleg))
  | 0xB00 => some (Config.freeWord s.freeIdx)
  | 0xB02 => some h.minstret
  | n =>
    if n = 0x301 || (0xF11 ≤ n && n ≤ 0xF15) then some (Config.idCsr (4096 * k + n))
    else if (0x323 ≤ n && n ≤ 0x33F) || (0xB03 ≤ n && n ≤ 0xB1F) then some 0
    else none

/-- The number is that of `mcycle`: each read is a free value (log 12). -/
def isMcycle (n : Nat) : Bool := n = 0xB00

/-- A write of a standard CSR on a hart. -/
def putStd (s : State) (k n : Nat) (v : Word) : CsrRes :=
  let h := fun (f : Hart → Hart) => CsrRes.done (modHart s k f)
  match n with
  | 0x100 => h fun h => { h with mstatus := merge h.mstatus v sstatusMask }
  | 0x104 => h fun h => { h with mie := merge h.mie v h.mideleg, svie := merge h.svie v h.virt }
  | 0x105 => h fun h => { h with stvec := setBit v 1 false }
  | 0x106 => h fun h => { h with scounteren := w64 (bits v 31 0) }
  | 0x10A => h fun h => { h with senvcfg := envWrite h.senvcfg v }
  | 0x140 => h fun h => { h with sscratch := v }
  | 0x141 => h fun h => { h with sepc := setBit v 0 false }
  | 0x142 => h fun h => { h with scause := v }
  | 0x143 => h fun h => { h with stval := v }
  | 0x144 => h fun h => { h with mip := merge h.mip v (h.mideleg &&& 2), mvip := merge h.mvip v (h.virt &&& 2) }
  | 0x150 => h fun h => { h with siselect := w64 (bits v 7 0) }
  | 0x151 => h fun h => { h with sfile := h.sfile.put h.siselect v }
  | 0x15C => h fun h => { h with sfile := h.sfile.claim }
  | 0x350 => h fun h => { h with miselect := w64 (bits v 7 0) }
  | 0x351 => h fun h => { h with mfile := h.mfile.put h.miselect v }
  | 0x35C => h fun h => { h with mfile := h.mfile.claim }
  | 0x180 => .done (satpStore s k v)
  | 0x300 => h fun h => { h with mstatus := mstatusWrite h.mstatus v }
  | 0x302 => h fun h => { h with medeleg := v &&& 0x3F00_B3FF }
  | 0x303 => h fun h => { h with mideleg := v &&& 0x222 }
  | 0x304 => h fun h => { h with mie := v &&& 0xAAA }
  | 0x305 => h fun h => { h with mtvec := setBit v 1 false }
  | 0x306 => h fun h => { h with mcounteren := w64 (bits v 31 0) }
  | 0x308 => h fun h => { h with mvien := v &&& 0x202 }
  | 0x309 => h fun h => { h with mip := merge h.mip v (0x222 &&& ~~~ h.mvien), mvip := merge h.mvip v h.mvien }
  | 0x30A =>
    if (hart s k).mgr then h fun h => { h with menvcfg := setBit (envWrite h.menvcfg v) 61 (bit v 61) }
    else .done (modPart (modHart s k fun h => { h with menvcfg := envWrite h.menvcfg v }) (partOf s k) fun q => { q with adue := bit v 61 })
  | 0x340 => h fun h => { h with mscratch := v }
  | 0x341 => h fun h => { h with mepc := setBit v 0 false }
  | 0x342 => h fun h => { h with mcause := v }
  | 0x343 => h fun h => { h with mtval := v }
  | 0x344 => h fun h => { h with mip := merge h.mip v (if bit h.mvien 9 then 0x22 else 0x222) }
  | 0xB02 => h fun h => { h with minstret := v }
  | _ => .done s

/-! Access. -/

/-- A CSR as the agent of a key reads it; none where the number names none for it (R82, log 12). -/
def csrRead (s : State) (k n : Nat) : Option Word :=
  match userCsr s k n with
  | some v => some v
  | none =>
    if isHart k then
      match supCsr s k n, machCsr s k n with
      | some v, _ => some v
      | _, some v => some v
      | _, _ => stdCsr s k n
    else none

/-- The lowest mode that may reach a CSR number (standard: bits 9 and 8). -/
def csrMode (n : Nat) : Nat := n / 256 % 4

/-- Registers of the supervisor's interrupt file that `mvien` takes from S mode (AIA, log 12). -/
def fileShut (h : Hart) (n : Nat) : Bool := h.mode = .supervisor && bit h.mvien 9 && (n = 0x15C || (n = 0x151 && 0x70 ≤ h.siselect.toNat))

/-- The access is refused for its mode or state: a supervisor's `satp` under TVM or of its interrupt file, and the floating CSRs with
FS = 0. -/
def csrShut (s : State) (k n : Nat) : Bool :=
  isHart k && ((hart s k).mode.code < csrMode n || (n = 0x180 && trapsVm s k) || fileShut (hart s k) n || (1 ≤ n && n ≤ 3 && bits (hart s k).mstatus 14 13 = 0))

/-- FS becomes 3 on a hart (standard). -/
def dirtyFs (s : State) (k : Nat) : State :=
  if isHart k then modHart s k fun h => { h with mstatus := setBits h.mstatus 14 13 3 } else s

/-- A write of a CSR that may be reached. -/
def csrWrite (s : State) (k n : Nat) (v : Word) : CsrRes :=
  if userReadOnly n then .illegal
  else if (userCsr s k n).isSome then .done (putUser (if n ≤ 3 then dirtyFs s k else s) k n v)
  else if (supCsr s k n).isSome then putSup s k n v
  else if (machCsr s k n).isSome then putMach s k n v
  else if 0xC00 ≤ n then .illegal
  else putStd s k n v

/-- The exception of a CSR access that is refused: an illegal encoding with REASON 0x2 on a SIMT thread (R13), the standard
illegal-instruction exception on a hart. -/
def csrIllegal (s : State) (k : Nat) : State := if isHart k then hartIllegal s k else raiseIllegal s k .standard

/-- The value that a CSR instruction writes; none where it performs no write (R13). -/
def csrValue (op : CsrOp) (rs1 : BitVec 5) (old src : Word) : Option Word :=
  match op with
  | .rw => some src
  | .rs => if rs1 = 0 then none else some (old ||| src)
  | .rc => if rs1 = 0 then none else some (old &&& ~~~ src)

/-- The end of a CSR instruction: the old value to rd, and the pc past it. -/
def csrEnd (s : State) (k : Nat) (rd : BitVec 5) (old : Word) : State :=
  modThr s k fun t => { setX t rd old with pc := t.pc + w64 s.cur.len }

/-- A CSR instruction of one thread or hart. `s0` is the state before the group's first write: members of one group read old
values (R69). -/
def csrOne (s0 : State) (op : CsrOp) (ui : Bool) (rd rs1 : BitVec 5) (n : Nat) (s : State) (k : Nat) : State :=
  match csrRead s0 k n with
  | none => csrIllegal s k
  | some old =>
    if csrShut s k n then csrIllegal s k
    else
      let s := if isMcycle n then { s with freeIdx := s.freeIdx + 1 } else s
      match csrValue op rs1 old (if ui then w64 rs1.toNat else getX (thr s k) rs1) with
      | none => csrEnd s k rd old
      | some v =>
        match csrWrite s k n v with
        | .illegal => csrIllegal s k
        | .over s => s
        | .done s => csrEnd s k rd old

/-- A CSR access that was captured is sent (R434, R435, R439): it reads and writes then, or is refused as an illegal encoding. -/
def sendCsr (s : State) (k i : Nat) (p : PendOp) (n : Nat) (op : CsrOp) (ui : Bool) (rs1 : Nat) : State :=
  let bad := sendTrap s k i p
    { code := 0x01, insn := p.bits, addr := p.pc, flt := true, dec := some (w64 (4096 + 128 + Reason.standard.code), p.pc + 4) }
  let ok := fun (s' : State) (old : Word) => readied s (modThr s' k fun t => { t with ops := t.ops.set i { p with sent := true, value := old } }) k
  match csrRead s k n with
  | none => bad
  | some old =>
    match csrValue op (BitVec.ofNat 5 rs1) old (if ui then w64 rs1 else p.op1) with
    | none => ok s old
    | some v => match csrWrite s k n v with | .illegal => bad | .over s => s | .done s => ok s old

/-- OPERATION_SENT (R434, R458, R501): the oldest operation not yet sent leaves the core, outside the chain that the core issues
(R436). An AMO of a group on one address follows those of the lower lanes. -/
def execOperationSent (k : Nat) (s : State) : Host.Outcome State Fault Refusal :=
  let s0 := s
  let t := thr s k
  .next (if !isSimt k || !occupied s k || (t.chain.live && inChain s k) || (t.st ≠ .ready && t.st ≠ .blocked) then s
  else match firstUnsent t with
  | none => s
  | some (i, p) =>
    match p.kind with
    | .bwait n tok => sendWait s k i p n tok
    | .csr n op ui rs1 => sendCsr s k i p n op ui rs1
    | kind =>
      let va := opAddr kind p.op1
      if amoWaits s k p then s
      else if needsWalk s k va (opAcc kind) then addWalk s k va (opAcc kind)
      else if raceWaits s k p then s
      else match opReach s k kind va with
      | (.error f, s) => sendFault (useWalks s k) k i p (opFlt kind f)
      | (.ok l, s) =>
        let (v, s) := performAt (useWalks s k) k kind p.op2 l
        readied s0 (modThr s k fun t => { t with ops := t.ops.set i { p with sent := true, value := v } }) k)

/-- REGISTER_WRITE (R13): a hart that may write the register writes it; a write that would be refused changes nothing. -/
def execRegisterWrite (k n : Nat) (v : Word) (s : State) : Host.Outcome State Fault Refusal :=
  .next (if !isHart k || !(hart s k).running || (csrRead s k n).isNone || csrShut s k n then s
  else match csrWrite s k n v with
  | .illegal => s
  | .over s => s
  | .done s => s)

end Sys2Proof.Machine
end

