-- ==== Sys2Proof/Machine/Gang.lean ====
section
/-! DEFINITION. The gang instructions (R163-R173). -/

namespace Sys2Proof.Machine

/-- An issuing gang, as its members find it before any of them writes (R164). -/
structure Gang where
  st : State
  tm : Team
  g  : Nat

/-- The gang of a thread. -/
def gangOf (s : State) (k : Nat) : Gang :=
  ⟨s, (teamK? s k).getD { part := partOf s k, asid := asidK s k, num := (thr s k).team }, gangNo (thr s k)⟩

/-- The width of a gang. -/
def Gang.width (g : Gang) : Nat := g.tm.desc.gw

/-- The team index of a position. -/
def Gang.idx (g : Gang) (p : Nat) : Nat := g.g * g.tm.desc.gw + p

/-- Live(p) (R164). -/
def Gang.live (g : Gang) (p : Nat) : Bool := posLive g.tm (g.idx p)

/-- Contrib(p) (R164). -/
def Gang.contrib (g : Gang) (p : Nat) : Bool := posContrib g.tm (g.idx p)

/-- The thread at a position. -/
def Gang.thread (g : Gang) (p : Nat) : Thread := thr g.st (memberKey g.tm (g.idx p))

/-- Val(p, s) (R164). -/
def Gang.val (g : Gang) (p : Nat) (f : BitVec 7) : Word := src (g.thread p) f

/-- Pick(p, q) of the operand f (R164): the own value where q is not live or lies beyond the gang. -/
def Gang.pick (g : Gang) (f : BitVec 7) (p q : Nat) : Word :=
  if q < g.width && g.live q then g.val q f else g.val p f

/-- The contributing positions in ascending order. -/
def Gang.contribs (g : Gang) : List Nat := (List.range g.width).filter g.contrib

/-- The position of a thread in its gang. -/
def gangPos (t : Thread) : Nat := t.tidx % max 1 t.gangw

/-- A gang instruction (R164): every issuing member writes its result, from what all members held before. -/
def gangExec (w : Wide) (f : Gang → Nat → Word) (s : State) : Host.Outcome State Fault Refusal :=
  .next (forKeys s fun s' k => modThr s' k (endWord w (f (gangOf s k) (gangPos (thr s k)))))

/-- The position that `gshfl` reads (R165); none before position 0. -/
def shflSource (w : Wide) (own : Word) (p : Nat) : Option Nat :=
  let d := w.imm11.toNat % 64
  match w.fn.toNat with
  | 0 => some own.toNat
  | 1 => if d ≤ p then some (p - d) else none
  | 2 => some (p + d)
  | _ => some (p ^^^ d)

/-- `gshfl` (R165). -/
def execGshfl (w : Wide) (s : State) : Host.Outcome State Fault Refusal :=
  gangExec w (fun g p => match shflSource w (g.val p w.s2) p with | some q => g.pick w.s1 p q | none => g.val p w.s1) s

/-- `gqx` (R166). -/
def execGqx (w : Wide) (s : State) : Host.Outcome State Fault Refusal :=
  gangExec w (fun g p => g.pick w.s1 p (p ^^^ (w.fn.toNat + 1))) s

/-- A mask of positions. -/
def posMask (l : List Nat) : Word := w64 (l.foldl (fun m p => m ||| 2 ^ p) 0)

/-- The value of `gvote` (R167). -/
def voteVal (w : Wide) (g : Gang) : Word :=
  let on := g.contribs.filter fun q => g.val q w.s1 ≠ 0
  match w.fn.toNat with
  | 0 => if on ≠ [] then 1 else 0
  | 1 => if on = g.contribs then 1 else 0
  | 2 => posMask on
  | _ => if (uniq (g.contribs.map fun q => g.val q w.s1)).length ≤ 1 then 1 else 0

/-- `gvote` (R167). -/
def execGvote (w : Wide) (s : State) : Host.Outcome State Fault Refusal := gangExec w (fun g _ => voteVal w g) s

/-- One level of the sum tree of `gred.fadd.s` (R168). -/
def treeLevel : List (Nat × Nat) → List (Nat × Nat)
  | (a, fa) :: (b, fb) :: l =>
    let r := roundArith f32F .rne false 0 (fadd .rne (fval f32F a) (fval f32F b))
    (r.bits, fa ||| fb ||| r.flags) :: treeLevel l
  | l => l

/-- The f32 sum of n values in tree order with its flags (R168), by levels. -/
def treeSum (l : List (Nat × Nat)) : Nat → Nat × Nat
  | 0 => l.headD (0x8000_0000, 0)
  | n + 1 => treeSum (treeLevel l) n

/-- `gred.fadd.s` over a gang: the boxed result and its flags (R168). -/
def redFadd (w : Wide) (g : Gang) : Word × Nat :=
  let l := (List.range g.width).map fun q => (if g.contrib q then unbox32 (g.val q w.s1) else 0x8000_0000, 0)
  let r := treeSum l (Nat.log2 g.width)
  (box32 r.1, r.2)

/-- The integer reductions of `gred` (R168). -/
def redInt (w : Wide) (g : Gang) : Word :=
  let l := g.contribs.map fun q => g.val q w.s1
  match w.fn.toNat with
  | 0 => l.foldl (· + ·) 0
  | 1 => l.foldl (fun a b => if b.slt a then b else a) 0x7FFF_FFFF_FFFF_FFFF
  | 2 => l.foldl (fun a b => if a.slt b then b else a) 0x8000_0000_0000_0000
  | 3 => l.foldl (· &&& ·) (BitVec.allOnes 64)
  | 4 => l.foldl (· ||| ·) 0
  | _ => l.foldl (· ^^^ ·) 0

/-- `gred` (R168, R173). -/
def execGred (w : Wide) (s : State) : Host.Outcome State Fault Refusal :=
  if w.fn = 6 then
    .next (forKeys s fun s' k =>
      let r := redFadd w (gangOf s k)
      fpCause (modThr s' k fun t => endWord w r.1 (addFlags t r.2)) k r.2)
  else gangExec w (fun g _ => redInt w g) s

/-- `gscan` (R169). -/
def execGscan (w : Wide) (s : State) : Host.Outcome State Fault Refusal :=
  gangExec w (fun g p =>
    ((g.contribs.filter fun q => q < p || (w.fn = 0 && q = p)).map fun q => g.val q w.s1).foldl (· + ·) 0) s

/-- `gbcast` (R170). -/
def execGbcast (w : Wide) (s : State) : Host.Outcome State Fault Refusal :=
  gangExec w (fun g p => g.pick w.s1 p (w.imm11.toNat % 64)) s

/-- `gsync` (R171). -/
def execGsync (w : Wide) (s : State) : Host.Outcome State Fault Refusal :=
  .next (forKeys s fun s k => modThr s k (endWord0 w))

/-- `gmatch` (R172). -/
def execGmatch (w : Wide) (s : State) : Host.Outcome State Fault Refusal :=
  gangExec w (fun g p => posMask (g.contribs.filter fun q => g.val q w.s1 = g.val p w.s1)) s

end Sys2Proof.Machine
end

