-- ==== Sys2Proof/Machine/Alu.lean ====
section
/-! DEFINITION. Integer arithmetic of RV64IM, Zba, Zbb and Zbs (R9), and the standard floating instructions of F and D
(R9, R59, R63, R73, R90). -/

namespace Sys2Proof.Machine

/-- The low 32 bits, sign-extended. -/
def sext32 (v : Word) : Word := (v.setWidth 32).signExtend 64

/-- Signed division, rounded toward zero; division by zero gives all ones, and the overflow gives the dividend. -/
def divS (n : Nat) (a b : BitVec n) : BitVec n := if b = 0 then BitVec.allOnes n else a.sdiv b

/-- Unsigned division; division by zero gives all ones. -/
def divU (n : Nat) (a b : BitVec n) : BitVec n := if b = 0 then BitVec.allOnes n else a / b

/-- Signed remainder; by zero it is the dividend. -/
def remS (n : Nat) (a b : BitVec n) : BitVec n := if b = 0 then a else a.srem b

/-- Unsigned remainder; by zero it is the dividend. -/
def remU (n : Nat) (a b : BitVec n) : BitVec n := if b = 0 then a else a % b

/-- The high 64 bits of a product. -/
def mulHigh (a b : Int) : Word := BitVec.ofInt 64 (a * b / 2 ^ 64)

/-- Rotation left. -/
def rol (n : Nat) (a : BitVec n) (k : Nat) : BitVec n := (a <<< (k % n)) ||| (a >>> ((n - k % n) % n))

/-- Bytes of a word, in reverse order. -/
def rev8 (v : Word) : Word := w64 (ofBytes ((toBytes 8 v.toNat).reverse))

/-- Each non-zero byte of a word becomes all ones. -/
def orcb (v : Word) : Word := w64 (ofBytes ((toBytes 8 v.toNat).map fun b => if b = 0 then 0 else 0xFF))

/-- Zero bits above the highest one of the low n bits. -/
def clzN (n : Nat) (v : Nat) : Nat := if v % 2 ^ n = 0 then n else n - 1 - Nat.log2 (v % 2 ^ n)

/-- Zero bits below the lowest one of the low n bits. -/
def ctzN (n : Nat) (v : Word) : Nat := ((List.range n).find? fun i => v.getLsbD i).getD n

/-- Ones among the low n bits. -/
def cpopN (n : Nat) (v : Word) : Nat := ((List.range n).filter fun i => v.getLsbD i).length

/-- Register-register operations (R9). -/
def aluOp (op : AluOp) (a b : Word) : Word :=
  let a32 := a.setWidth 32
  let b32 := b.setWidth 32
  let sh := b.toNat % 64
  let sh32 := b.toNat % 32
  let bit1 : Word := 1#64 <<< sh
  match op with
  | .add => a + b
  | .sub => a - b
  | .sll => a <<< sh
  | .slt => if a.slt b then 1 else 0
  | .sltu => if a.ult b then 1 else 0
  | .xor => a ^^^ b
  | .srl => a >>> sh
  | .sra => a.sshiftRight sh
  | .or => a ||| b
  | .and => a &&& b
  | .addw => sext32 (a + b)
  | .subw => sext32 (a - b)
  | .sllw => (a32 <<< sh32).signExtend 64
  | .srlw => (a32 >>> sh32).signExtend 64
  | .sraw => (a32.sshiftRight sh32).signExtend 64
  | .mul => a * b
  | .mulh => mulHigh a.toInt b.toInt
  | .mulhsu => mulHigh a.toInt b.toNat
  | .mulhu => mulHigh a.toNat b.toNat
  | .div => divS 64 a b
  | .divu => divU 64 a b
  | .rem => remS 64 a b
  | .remu => remU 64 a b
  | .mulw => sext32 (a * b)
  | .divw => (divS 32 a32 b32).signExtend 64
  | .divuw => (divU 32 a32 b32).signExtend 64
  | .remw => (remS 32 a32 b32).signExtend 64
  | .remuw => (remU 32 a32 b32).signExtend 64
  | .sh1add => b + (a <<< 1)
  | .sh2add => b + (a <<< 2)
  | .sh3add => b + (a <<< 3)
  | .adduw => b + a32.setWidth 64
  | .sh1adduw => b + (a32.setWidth 64 <<< 1)
  | .sh2adduw => b + (a32.setWidth 64 <<< 2)
  | .sh3adduw => b + (a32.setWidth 64 <<< 3)
  | .andn => a &&& ~~~ b
  | .orn => a ||| ~~~ b
  | .xnor => ~~~ (a ^^^ b)
  | .min => if a.slt b then a else b
  | .max => if a.slt b then b else a
  | .minu => if a.ult b then a else b
  | .maxu => if a.ult b then b else a
  | .rol => rol 64 a sh
  | .ror => rol 64 a (64 - sh)
  | .rolw => (rol 32 a32 sh32).signExtend 64
  | .rorw => (rol 32 a32 (32 - sh32)).signExtend 64
  | .zexth => w64 (a.toNat % 65536)
  | .bclr => a &&& ~~~ bit1
  | .bext => if a.getLsbD sh then 1 else 0
  | .binv => a ^^^ bit1
  | .bset => a ||| bit1

/-- Register-immediate and one-register operations (R9). -/
def aluImmOp (op : AluImmOp) (a : Word) (imm : BitVec 12) : Word :=
  let i : Word := imm.signExtend 64
  let sh := imm.toNat % 64
  let sh32 := imm.toNat % 32
  let a32 := a.setWidth 32
  let bit1 : Word := 1#64 <<< sh
  match op with
  | .addi => a + i
  | .slti => if a.slt i then 1 else 0
  | .sltiu => if a.ult i then 1 else 0
  | .xori => a ^^^ i
  | .ori => a ||| i
  | .andi => a &&& i
  | .slli => a <<< sh
  | .srli => a >>> sh
  | .srai => a.sshiftRight sh
  | .addiw => sext32 (a + i)
  | .slliw => (a32 <<< sh32).signExtend 64
  | .srliw => (a32 >>> sh32).signExtend 64
  | .sraiw => (a32.sshiftRight sh32).signExtend 64
  | .slliuw => a32.setWidth 64 <<< sh
  | .rori => rol 64 a (64 - sh)
  | .roriw => (rol 32 a32 (32 - sh32)).signExtend 64
  | .bclri => a &&& ~~~ bit1
  | .bexti => if a.getLsbD sh then 1 else 0
  | .binvi => a ^^^ bit1
  | .bseti => a ||| bit1
  | .clz => w64 (clzN 64 a.toNat)
  | .ctz => w64 (ctzN 64 a)
  | .cpop => w64 (cpopN 64 a)
  | .clzw => w64 (clzN 32 a.toNat)
  | .ctzw => w64 (ctzN 32 a)
  | .cpopw => w64 (cpopN 32 a)
  | .sextb => sext 8 a.toNat
  | .sexth => sext 16 a.toNat
  | .rev8 => rev8 a
  | .orcb => orcb a

/-- Cycles beyond the first of an arithmetic instruction on a cobbler core (R422). -/
def aluCycles (op : AluOp) : Nat :=
  match op with
  | .mul | .mulh | .mulhsu | .mulhu | .mulw => 2
  | .div | .divu | .rem | .remu | .divw | .divuw | .remw | .remuw => 20
  | _ => 0

/-- The condition of a conditional branch. -/
def branchTaken (op : BranchOp) (a b : Word) : Bool :=
  match op with
  | .beq => a = b | .bne => a ≠ b | .blt => a.slt b | .bge => !a.slt b | .bltu => a.ult b | .bgeu => !a.ult b

/-! Standard floating instructions. -/

/-- The format of a standard floating instruction. -/
def stdFmt (dbl : Bool) : FFmt := if dbl then f64F else f32F

/-- The encoding that an f register holds in the format: an f32 not boxed is the canonical NaN. -/
def stdIn (dbl : Bool) (v : Word) : Nat := if dbl then v.toNat else unbox32 v

/-- An encoding as an f register holds it. -/
def stdOut (dbl : Bool) (b : Nat) : Word := if dbl then w64 b else box32 b

/-- The rounding mode in force: the instruction's, or `fcsr`.FRM for 7; none for a reserved one. -/
def stdRm (t : Thread) (rm : BitVec 3) : Option RMode := if rm = 7 then rmodeStd (frm t) else rmodeStd rm.toNat

/-- A floating result rounded, with the flags of the exact operation. -/
def stdRound (dbl : Bool) (m : RMode) (r : FV × Nat) : Word × Nat :=
  let q := roundTo (stdFmt dbl) m false 0 r.1
  (stdOut dbl q.bits, q.flags ||| r.2)

/-- The class of an encoding (fclass). -/
def fclass (f : FFmt) (b : Nat) : Nat :=
  let sub := b / 2 ^ f.mb % 2 ^ f.eb = 0
  match fval f b with
  | .nan sg _ => if sg then 8 else 9
  | .inf n => if n then 0 else 7
  | .fin n m _ =>
    if m = 0 then (if n then 3 else 4) else if sub then (if n then 2 else 5) else if n then 1 else 6

/-- Conversion to an integer of 32 or 64 bits: out-of-range values and NaNs give the nearest end of the range with NV;
a 32-bit result is sign-extended. -/
def fcvtInt (len8 uns : Bool) (m : RMode) (v : FV) : Word × Nat :=
  let w := if len8 then 64 else 32
  let lo : Int := if uns then 0 else -(2 ^ (w - 1))
  let hi : Int := if uns then 2 ^ w - 1 else 2 ^ (w - 1) - 1
  let out := fun (x : Int) => sext w (lowBits w x)
  match v with
  | .nan _ _ => (out hi, NV)
  | .inf n => (out (if n then lo else hi), NV)
  | v =>
    match roundInt m 0 v with
    | none => (out hi, NV)
    | some (x, ex) => if x < lo then (out lo, NV) else if hi < x then (out hi, NV) else (out x, if ex then 0 else NX)

/-- The result and flags of a two-operand instruction; the comparisons' results are integers. -/
def stdFp2 (op : FpOp2) (dbl : Bool) (m : RMode) (x y : Word) : Word × Nat :=
  let f := stdFmt dbl
  let a := stdIn dbl x
  let b := stdIn dbl y
  let h := 2 ^ (f.eb + f.mb)
  let va := fval f a
  let vb := fval f b
  let un := isNan va || isNan vb
  match op with
  | .fadd => stdRound dbl m (fadd m va vb)
  | .fsub => stdRound dbl m (fadd m va (fneg vb))
  | .fmul => stdRound dbl m (fmul va vb)
  | .fdiv => stdRound dbl m (fdiv va vb)
  | .fsgnj => (stdOut dbl (a % h + b / h % 2 * h), 0)
  | .fsgnjn => (stdOut dbl (a % h + (1 - b / h % 2) * h), 0)
  | .fsgnjx => (stdOut dbl (a % h + (a / h + b / h) % 2 * h), 0)
  | .fmin => let r := fminmax f false a b; (stdOut dbl r.1, r.2)
  | .fmax => let r := fminmax f true a b; (stdOut dbl r.1, r.2)
  | .feq => (w64 (b2n (feqv va vb)), sigFlag [va, vb])
  | .flt => (w64 (b2n (!un && fltv va vb)), if un then NV else 0)
  | .fle => (w64 (b2n (!un && !fltv vb va)), if un then NV else 0)

/-- The result and flags of a fused instruction. -/
def stdFp3 (op : FpOp3) (dbl : Bool) (m : RMode) (x y z : Word) : Word × Nat :=
  let v := fun w => fval (stdFmt dbl) (stdIn dbl w)
  match op with
  | .fmadd => stdRound dbl m (ffma m (v x) (v y) (v z))
  | .fmsub => stdRound dbl m (ffma m (v x) (v y) (fneg (v z)))
  | .fnmsub => stdRound dbl m (ffma m (fneg (v x)) (v y) (v z))
  | .fnmadd => stdRound dbl m (ffma m (fneg (v x)) (v y) (fneg (v z)))

/-- The result and flags of a one-operand instruction. -/
def stdFp1 (op : FpOp1) (dbl : Bool) (m : RMode) (x : Word) : Word × Nat :=
  let f := stdFmt dbl
  let v := fval f (stdIn dbl x)
  match op with
  | .fsqrt => stdRound dbl m (fsqrt v)
  | .fclass => (w64 (2 ^ fclass f (stdIn dbl x)), 0)
  | .cvtToInt l u => fcvtInt l u m v
  | .cvtFromInt l u =>
    let n : Int := match l, u with
      | true, true => x.toNat | true, false => x.toInt
      | false, true => (x.setWidth 32).toNat | false, false => (x.setWidth 32).toInt
    stdRound dbl m (ofScaled n 0 false, 0)
  | .cvtOther => stdRound dbl m (fval (stdFmt (!dbl)) (stdIn (!dbl) x), 0)
  | .mvToInt => (if dbl then x else sext 32 x.toNat, 0)
  | .mvFromInt => (if dbl then x else box32 x.toNat, 0)

/-- The operand of a one-operand instruction is an x register. -/
def fp1FromX (op : FpOp1) : Bool := match op with | .cvtFromInt _ _ | .mvFromInt => true | _ => false

/-- The destination of a one-operand instruction is an x register. -/
def fp1ToX (op : FpOp1) : Bool := match op with | .fclass | .cvtToInt _ _ | .mvToInt => true | _ => false

/-- The destination of a two-operand instruction is an x register. -/
def fp2ToX (op : FpOp2) : Bool := match op with | .feq | .flt | .fle => true | _ => false

end Sys2Proof.Machine
end

