-- ==== Sys2Proof/Machine/Standard.lean ====
section
/-! DEFINITION. The standard RISC-V instructions on each core type (R9, R82, R146, R154, R358, R359, R411, R422, R434, R467), with the
privileged ones of latency harts (log 12). -/

namespace Sys2Proof.Machine

/-- Standard instructions end here: rd takes the value, and the pc passes the instruction. -/
def endStd (rd : Nat) (v : Word) (len : Nat) (t : Thread) : Thread :=
  let t := setReg t rd v
  { t with pc := t.pc + w64 len }

/-- The pc of the thread of a key goes to a target; a taken branch or jump costs a cobbler core a cycle (R422). -/
def jumpTo (s : State) (k : Nat) (pc : Word) : State := extraCycles (modThr s k fun t => { t with pc := pc }) k 1

/-! Memory operations. -/

/-- A standard memory operation: kind, address, second operand, destination in the D map. -/
structure MemOp where
  kind : OpKind
  va   : Word
  op2  : Word
  rd   : Nat
  deriving DecidableEq, Repr

/-- The operation is misaligned (R434, R501 step 1); a cache-block operation never is. -/
def misaligned (m : MemOp) : Bool := match m.kind with | .cbo _ => false | _ => m.va.toNat % opSize m.kind ≠ 0

/-- What an operation leaves for a helper (R154): no memory change; none for a load, which is performed. -/
def helperValue (m : MemOp) : Option Word :=
  match m.kind with
  | .load _ _ _ | .lr _ => none
  | .sc _ => some 1
  | _ => some 0

/-- An operation joins the operations that a SIMT thread has issued (R434). The operations of one issue group share a number
(R343, R458). -/
def issueOp (s : State) (k : Nat) (m : MemOp) : State :=
  modThr s k fun t =>
    { t with
      ops := t.ops ++ [{ pc := s.cur.pc, bits := s.cur.bits, op1 := m.va, op2 := m.op2, kind := m.kind, rd := m.rd, sent := false, value := 0,
                         grp := s.nextId + 1 }]
      pc := t.pc + w64 s.cur.len }

/-- The operation on a SIMT thread. -/
def memSimt (s : State) (k : Nat) (m : MemOp) : State :=
  if misaligned m then raise s k 0x08 m.va (opAcc m.kind)
  else if (thr s k).helper then
    match helperValue m with
    | some v => modThr s k (endStd m.rd v s.cur.len)
    | none => issueOp s k m
  else issueOp s k m

/-- The operation on a hart, where it is precise. -/
def memHart (s : State) (k : Nat) (m : MemOp) : State :=
  if misaligned m then raise s k 0x08 m.va (opAcc m.kind)
  else match performNow s k m.kind m.va m.op2 with
  | (.error f, s) => raiseFlt s k f (match m.kind with | .cbo _ => .store | kind => opAcc kind)
  | (.ok v, s) => modThr (if 32 ≤ m.rd then dirtyFs s k else s) k (endStd m.rd v s.cur.len)

/-- A handler's load or store (R411, R420-R423). -/
def memCob (s : State) (k : Nat) (m : MemOp) : State :=
  let x := k - 0x20_0000
  let n := opSize m.kind
  match m.kind with
  | .load _ sgn _ =>
    match cobAccess s x m.va n false [] with
    | (.ok bs cyc, s) => extraCycles (modThr s k (endStd m.rd (extend n sgn false bs) s.cur.len)) k cyc
    | (.abort r, s) => cobAbort s x r
    | (.wait, s) => s
  | _ =>
    match cobAccess s x m.va n true (toBytes n m.op2.toNat) with
    | (.ok _ cyc, s) => extraCycles (modThr s k (endStd 0 0 s.cur.len)) k cyc
    | (.abort r, s) => cobAbort s x r
    | (.wait, s) => s

/-- A memory operation on the core type of its issuer. -/
def memOp (s : State) (k : Nat) (m : MemOp) : State :=
  if isHart k then memHart s k m else if isCob k then memCob s k m else memSimt s k m

/-- A load writes an f register. -/
def loadFloat (op : LoadOp) : Bool := match op with | .flw | .fld => true | _ => false

/-- Bytes of a store. -/
def storeBytes (op : StoreOp) : Nat := match op with | .sb => 1 | .sh => 2 | .sw | .fsw => 4 | .sd | .fsd => 8

/-- A store reads an f register. -/
def storeFloat (op : StoreOp) : Bool := match op with | .fsw | .fsd => true | _ => false

/-- Width of an atomic. -/
def atomBytes (dbl : Bool) : Nat := if dbl then 8 else 4

/-! Floating state of a hart (log 12). -/

/-- The floating unit is off on a hart: FS = 0. -/
def fpOff (s : State) (k : Nat) : Bool := isHart k && bits (hart s k).mstatus 14 13 = 0

/-- The exception of a standard instruction that its core or mode refuses. -/
def stdIllegal (s : State) (k : Nat) : State := if isHart k then hartIllegal s k else raiseIllegal s k .standard

/-- A floating result and its flags; cause 0x11 follows the completed instruction (R73). -/
def fpEnd (s : State) (k : Nat) (rd : Nat) (r : Word × Nat) : State :=
  fpCause (modThr (dirtyFs s k) k fun t => endStd rd r.1 s.cur.len (addFlags t r.2)) k r.2

/-- A floating instruction with its rounding mode, which a reserved one makes illegal. -/
def fpRun (s : State) (k : Nat) (rm : Option RMode) (rd : Nat) (f : RMode → Word × Nat) : State :=
  if fpOff s k then stdIllegal s k
  else match rm with
  | none => stdIllegal s k
  | some m => fpEnd s k rd (f m)

/-- A two-operand instruction uses a rounding mode. -/
def fp2Rounds (op : FpOp2) : Bool := match op with | .fadd | .fsub | .fmul | .fdiv => true | _ => false

/-- A one-operand instruction uses a rounding mode. -/
def fp1Rounds (op : FpOp1) : Bool := match op with | .fclass | .mvToInt | .mvFromInt => false | _ => true

/-! Privileged instructions of harts (log 12). -/

/-- `wfi`: refused in U mode, or in S mode with TW = 1; it ends at once when an interrupt that `mie` enables is pending. -/
def doWfi (s : State) (k : Nat) : State :=
  let h := hart s k
  if h.mode = .user || (h.mode = .supervisor && bit h.mstatus 21) then hartIllegal s k
  else if h.wanted ≠ 0 then advance s k
  else modThr s k fun t => { t with wait := .wfi }

/-- `mret` is M mode's. -/
def runMret (s : State) (k : Nat) : State := if (hart s k).mode = .machine then doMret s k else hartIllegal s k

/-- `sret` is M mode's, and S mode's unless TSR = 1. -/
def runSret (s : State) (k : Nat) : State :=
  let h := hart s k
  if h.mode = .user || (h.mode = .supervisor && bit h.mstatus 22) then hartIllegal s k else doSret s k

/-- A translation-cache entry that `sfence.vma` names: by address, by ASID (global ones apart), or all. -/
def sfenceHits (k : Nat) (va asid : Option Word) (e : TlbEntry) : Bool :=
  e.cache = 0x1000 + (k - 0x10_0000) &&
  (match va with | some v => e.vpn ≤ bits v 56 12 && bits v 56 12 < e.vpn + e.pages | none => true) &&
  (match asid with | some a => e.asid = bits a 15 0 && !bit e.pte 5 | none => true)

/-- `sfence.vma`: the hart drops the entries that it names. -/
def runSfence (s : State) (k : Nat) (rs1 rs2 : BitVec 5) : State :=
  let h := hart s k
  let t := thr s k
  if h.mode = .user || trapsVm s k then hartIllegal s k
  else
    let va := if rs1 = 0 then none else some (getX t rs1)
    let asid := if rs2 = 0 then none else some (getX t rs2)
    advance { s with tlb := s.tlb.filter fun e => !sfenceHits k va asid e } k

/-! The instructions. -/

/-- A standard instruction of one thread, hart or handler; `s0` is the state before the group's first. -/
def stdOne (s0 : State) (i : Std) (s : State) (k : Nat) : State :=
  let t := thr s k
  let n := s.cur.len
  match i with
  | .lui rd imm => modThr s k (endStd rd.toNat (sext 32 (imm.toNat * 4096)) n)
  | .auipc rd imm => modThr s k (endStd rd.toNat (t.pc + sext 32 (imm.toNat * 4096)) n)
  | .jal rd imm => jumpTo (modThr s k fun t => setX t rd (t.pc + w64 n)) k (t.pc + sext 21 (imm.toNat * 2))
  | .jalr rd rs1 imm => jumpTo (modThr s k fun t => setX t rd (t.pc + w64 n)) k (setBit (baseAddr t rs1 imm) 0 false)
  | .load op rd rs1 imm =>
    if loadFloat op && fpOff s k then stdIllegal s k
    else memOp s k
      { kind := loadKind op, va := baseAddr t rs1 imm, op2 := 0, rd := (if loadFloat op then 32 else 0) + rd.toNat }
  | .store op rs1 rs2 imm =>
    if storeFloat op && fpOff s k then stdIllegal s k
    else memOp s k
      { kind := .store (storeBytes op), va := baseAddr t rs1 imm, op2 := if storeFloat op then getF t rs2 else getX t rs2, rd := 0 }
  | .alui op rd rs1 imm => modThr s k (endStd rd.toNat (aluImmOp op (getX t rs1) imm) n)
  | .alu op rd rs1 rs2 => extraCycles (modThr s k (endStd rd.toNat (aluOp op (getX t rs1) (getX t rs2)) n)) k (aluCycles op)
  | .fence _ _ _ _ _ => advance s k
  | .fencei => advance s k
  | .csr op ui rd rs1 num => csrOne s0 op ui rd rs1 num.toNat s k
  | .lr d _ _ rd rs1 => memOp s k { kind := .lr (atomBytes d), va := getX t rs1, op2 := 0, rd := rd.toNat }
  | .sc d _ _ rd rs1 rs2 => memOp s k { kind := .sc (atomBytes d), va := getX t rs1, op2 := getX t rs2, rd := rd.toNat }
  | .amo op d _ _ rd rs1 rs2 => memOp s k { kind := .amo op (atomBytes d), va := getX t rs1, op2 := getX t rs2, rd := rd.toNat }
  | .fp2 op d rm rd rs1 rs2 =>
    fpRun s k (if fp2Rounds op then stdRm t rm else some .rne) ((if fp2ToX op then 0 else 32) + rd.toNat)
      fun m => stdFp2 op d m (getF t rs1) (getF t rs2)
  | .fp3 op d rm rd rs1 rs2 rs3 =>
    fpRun s k (stdRm t rm) (32 + rd.toNat) fun m => stdFp3 op d m (getF t rs1) (getF t rs2) (getF t rs3)
  | .fp1 op d rm rd rs1 =>
    fpRun s k (if fp1Rounds op then stdRm t rm else some .rne) ((if fp1ToX op then 0 else 32) + rd.toNat)
      fun m => stdFp1 op d m (if fp1FromX op then getX t rs1 else getF t rs1)
  | .ebreak => raise s k 0x12 0 .load
  | .mret => runMret s k
  | .sret => runSret s k
  | .wfi => doWfi s k
  | .sfencevma rs1 rs2 => runSfence s k rs1 rs2

/-- A standard instruction (R9). -/
def execStandardInstruction (i : Std) (s : State) : Host.Outcome State Fault Refusal := .next (forKeys s (stdOne s i))

/-- A conditional branch of one thread. -/
def branchOne (op : BranchOp) (rs1 rs2 : BitVec 5) (imm : BitVec 12) (s : State) (k : Nat) : State :=
  let t := thr s k
  if branchTaken op (getX t rs1) (getX t rs2) then jumpTo s k (t.pc + sext 13 (imm.toNat * 2)) else advance s k

/-- A conditional branch (R9), with the packets of a traced context (R467). -/
def execConditionalBranch (op : BranchOp) (rs1 rs2 : BitVec 5) (imm : BitVec 12) (s : State) : Host.Outcome State Fault Refusal :=
  let taken := s.cur.keys.filter fun k => branchTaken op (getX (thr s k) rs1) (getX (thr s k) rs2)
  .next (forKeys (emitBranch s s.cur.keys taken s.cur.pc) (branchOne op rs1 rs2 imm))

/-! Cache-block operations (R359, standard Zicbom and Zicboz). -/

/-- The environment fields that govern a hart's cache-block operation in its mode: `menvcfg`'s below M mode, and `senvcfg`'s in U
mode. -/
def envOf (h : Hart) : List Word :=
  match h.mode with | .machine => [] | .supervisor => [h.menvcfg] | .user => [h.menvcfg, h.senvcfg]

/-- A cache-block operation is refused in the hart's mode. -/
def cboShut (h : Hart) (w : Nat) : Bool :=
  (envOf h).any fun e => match w with | 2 => bits e 5 4 = 0 | 3 => !bit e 7 | _ => !bit e 6

/-- What `cbo.inval` does in the hart's mode: CBIE = 1 makes it a flush. -/
def cboKind (h : Hart) (w : Nat) : Nat := if w = 2 && (envOf h).any (fun e => bits e 5 4 = 1) then 1 else w

/-- A cache-block operation of one thread or hart. -/
def cboOne (w : Nat) (rs1 : BitVec 5) (s : State) (k : Nat) : State :=
  let va := getX (thr s k) rs1
  if isHart k then
    if cboShut (hart s k) w then hartIllegal s k
    else memHart s k { kind := .cbo (cboKind (hart s k) w), va := va, op2 := 0, rd := 0 }
  else memSimt s k { kind := .cbo w, va := va, op2 := 0, rd := 0 }

/-- `cbo.clean` (R359). -/
def execCboClean (rs1 : BitVec 5) (s : State) : Host.Outcome State Fault Refusal := .next (forKeys s (cboOne 0 rs1))

/-- `cbo.flush` (R359). -/
def execCboFlush (rs1 : BitVec 5) (s : State) : Host.Outcome State Fault Refusal := .next (forKeys s (cboOne 1 rs1))

/-- `cbo.inval` (R359). -/
def execCboInval (rs1 : BitVec 5) (s : State) : Host.Outcome State Fault Refusal := .next (forKeys s (cboOne 2 rs1))

/-- `cbo.zero` (R359, R361). -/
def execCboZero (rs1 : BitVec 5) (s : State) : Host.Outcome State Fault Refusal := .next (forKeys s (cboOne 3 rs1))

end Sys2Proof.Machine
end

