-- ==== Sys2Proof/Machine/Dispatch.lean ====
section
/-! DEFINITION. One arm per constructor of Instr: a direct call of its meaning. -/

namespace Sys2Proof.Machine

def exec (i : Instr) (s : State) : Host.Outcome State Fault Refusal :=
  match i with
  | .partctlConfigure key v => Sys2Proof.Machine.execPartctlConfigure key v s
  | .partctlStart key v => Sys2Proof.Machine.execPartctlStart key v s
  | .partctlReset key v => Sys2Proof.Machine.execPartctlReset key v s
  | .partctlRelease key v => Sys2Proof.Machine.execPartctlRelease key v s
  | .resetDrainEnd part => Sys2Proof.Machine.execResetDrainEnd part s
  | .drainDeadline part => Sys2Proof.Machine.execDrainDeadline part s
  | .wipeComplete part => Sys2Proof.Machine.execWipeComplete part s
  | .rtbaseWrite key v => Sys2Proof.Machine.execRtbaseWrite key v s
  | .ctxfreeWrite key v => Sys2Proof.Machine.execCtxfreeWrite key v s
  | .contextOpen key v => Sys2Proof.Machine.execContextOpen key v s
  | .homeRequest r => Sys2Proof.Machine.execHomeRequest r s
  | .tframeWrite key v => Sys2Proof.Machine.execTframeWrite key v s
  | .tsigWrite key v => Sys2Proof.Machine.execTsigWrite key v s
  | .signalMigration key => Sys2Proof.Machine.execSignalMigration key s
  | .rsvrWrite key v => Sys2Proof.Machine.execRsvrWrite key v s
  | .dbgctlStop key v => Sys2Proof.Machine.execDbgctlStop key v s
  | .dbgctlResume key v => Sys2Proof.Machine.execDbgctlResume key v s
  | .dbgctlReload key v => Sys2Proof.Machine.execDbgctlReload key v s
  | .weltctlPause key v => Sys2Proof.Machine.execWeltctlPause key v s
  | .weltctlResume key v => Sys2Proof.Machine.execWeltctlResume key v s
  | .weltctlRetrainX64 key v => Sys2Proof.Machine.execWeltctlRetrainX64 key v s
  | .weltctlRetrainX32 key v => Sys2Proof.Machine.execWeltctlRetrainX32 key v s
  | .weltctlDown key v => Sys2Proof.Machine.execWeltctlDown key v s
  | .weltmapWrite key v => Sys2Proof.Machine.execWeltmapWrite key v s
  | .trainingComplete module ok => Sys2Proof.Machine.execTrainingComplete module ok s
  | .pauseComplete module => Sys2Proof.Machine.execPauseComplete module s
  | .flitCrcError module lane again => Sys2Proof.Machine.execFlitCrcError module lane again s
  | .retryWindowEnd => Sys2Proof.Machine.execRetryWindowEnd s
  | .bcportRetrain key v => Sys2Proof.Machine.execBcportRetrain key v s
  | .bcportDown key v => Sys2Proof.Machine.execBcportDown key v s
  | .bolcelRequest r => Sys2Proof.Machine.execBolcelRequest r s
  | .failingCompletion r => Sys2Proof.Machine.execFailingCompletion r s
  | .bolcelTimeout r waitedUs => Sys2Proof.Machine.execBolcelTimeout r waitedUs s
  | .directorySnoop pa inval => Sys2Proof.Machine.execDirectorySnoop pa inval s
  | .frameReceive port tagged pcp udp bytes => Sys2Proof.Machine.execFrameReceive port tagged pcp udp bytes s
  | .pfcRepeat port queue => Sys2Proof.Machine.execPfcRepeat port queue s
  | .transmitFrame port queue => Sys2Proof.Machine.execTransmitFrame port queue s
  | .pcieDma link func write pa data => Sys2Proof.Machine.execPcieDma link func write pa data s
  | .packageReset b => Sys2Proof.Machine.execPackageReset b s
  | .thermalThrottle die => Sys2Proof.Machine.execThermalThrottle die s
  | .thermalResetRequest die => Sys2Proof.Machine.execThermalResetRequest die s
  | .registerWrite key csr v => Sys2Proof.Machine.execRegisterWrite key csr v s
  | .pairWord h slot0 slot1 => Sys2Proof.Machine.execPairWord h slot0 slot1 s
  | .pfadd w => Sys2Proof.Machine.execPfadd w s
  | .pfsub w => Sys2Proof.Machine.execPfsub w s
  | .pfmul w => Sys2Proof.Machine.execPfmul w s
  | .pffma w => Sys2Proof.Machine.execPffma w s
  | .pfmin w => Sys2Proof.Machine.execPfmin w s
  | .pfmax w => Sys2Proof.Machine.execPfmax w s
  | .pfsgn w => Sys2Proof.Machine.execPfsgn w s
  | .pfcmp w => Sys2Proof.Machine.execPfcmp w s
  | .padd w => Sys2Proof.Machine.execPadd w s
  | .psub w => Sys2Proof.Machine.execPsub w s
  | .pmul w => Sys2Proof.Machine.execPmul w s
  | .pmin w => Sys2Proof.Machine.execPmin w s
  | .pmax w => Sys2Proof.Machine.execPmax w s
  | .psh w => Sys2Proof.Machine.execPsh w s
  | .pdot w => Sys2Proof.Machine.execPdot w s
  | .pidot w => Sys2Proof.Machine.execPidot w s
  | .pcdot w => Sys2Proof.Machine.execPcdot w s
  | .pcvtn w => Sys2Proof.Machine.execPcvtn w s
  | .pcvtw w => Sys2Proof.Machine.execPcvtw w s
  | .pcvti w => Sys2Proof.Machine.execPcvti w s
  | .pscale w => Sys2Proof.Machine.execPscale w s
  | .pgrind w => Sys2Proof.Machine.execPgrind w s
  | .psel w => Sys2Proof.Machine.execPsel w s
  | .ppack w => Sys2Proof.Machine.execPpack w s
  | .lfsrrd w => Sys2Proof.Machine.execLfsrrd w s
  | .gshfl w => Sys2Proof.Machine.execGshfl w s
  | .gqx w => Sys2Proof.Machine.execGqx w s
  | .gvote w => Sys2Proof.Machine.execGvote w s
  | .gred w => Sys2Proof.Machine.execGred w s
  | .gscan w => Sys2Proof.Machine.execGscan w s
  | .gbcast w => Sys2Proof.Machine.execGbcast w s
  | .gsync w => Sys2Proof.Machine.execGsync w s
  | .gmatch w => Sys2Proof.Machine.execGmatch w s
  | .mig w => Sys2Proof.Machine.execMig w s
  | .texit w => Sys2Proof.Machine.execTexit w s
  | .tspawn w => Sys2Proof.Machine.execTspawn w s
  | .frameLoad idx die core lane slot => Sys2Proof.Machine.execFrameLoad idx die core lane slot s
  | .returnQueuePost part => Sys2Proof.Machine.execReturnQueuePost part s
  | .threadPromotion key => Sys2Proof.Machine.execThreadPromotion key s
  | .pause => Sys2Proof.Machine.execPause s
  | .ecall => Sys2Proof.Machine.execEcall s
  | .conditionalBranch op rs1 rs2 imm => Sys2Proof.Machine.execConditionalBranch op rs1 rs2 imm s
  | .operationSent key => Sys2Proof.Machine.execOperationSent key s
  | .operationFinish key idx => Sys2Proof.Machine.execOperationFinish key idx s
  | .cboClean rs1 => Sys2Proof.Machine.execCboClean rs1 s
  | .cboFlush rs1 => Sys2Proof.Machine.execCboFlush rs1 s
  | .cboInval rs1 => Sys2Proof.Machine.execCboInval rs1 s
  | .cboZero rs1 => Sys2Proof.Machine.execCboZero rs1 s
  | .teamnew w => Sys2Proof.Machine.execTeamnew w s
  | .admission part => Sys2Proof.Machine.execAdmission part s
  | .teamfree w => Sys2Proof.Machine.execTeamfree w s
  | .teamsave w => Sys2Proof.Machine.execTeamsave w s
  | .teamsaveImageWritten part asid team => Sys2Proof.Machine.execTeamsaveImageWritten part asid team s
  | .saveDeadline part asid team => Sys2Proof.Machine.execSaveDeadline part asid team s
  | .teamload w => Sys2Proof.Machine.execTeamload w s
  | .teaminfo w => Sys2Proof.Machine.execTeaminfo w s
  | .qpush w => Sys2Proof.Machine.execQpush w s
  | .qpop w => Sys2Proof.Machine.execQpop w s
  | .jinit w => Sys2Proof.Machine.execJinit w s
  | .tend w => Sys2Proof.Machine.execTend w s
  | .joinPushRetry key => Sys2Proof.Machine.execJoinPushRetry key s
  | .qwait w => Sys2Proof.Machine.execQwait w s
  | .qbind w => Sys2Proof.Machine.execQbind w s
  | .dispatch core => Sys2Proof.Machine.execDispatch core s
  | .syinit w => Sys2Proof.Machine.execSyinit w s
  | .semadd w => Sys2Proof.Machine.execSemadd w s
  | .semacq w => Sys2Proof.Machine.execSemacq w s
  | .semtry w => Sys2Proof.Machine.execSemtry w s
  | .barrive w => Sys2Proof.Machine.execBarrive w s
  | .bwait w => Sys2Proof.Machine.execBwait w s
  | .bexpect w => Sys2Proof.Machine.execBexpect w s
  | .barw w => Sys2Proof.Machine.execBarw w s
  | .drain w => Sys2Proof.Machine.execDrain w s
  | .watchdogExpiry key => Sys2Proof.Machine.execWatchdogExpiry key s
  | .tld w => Sys2Proof.Machine.execTld w s
  | .tldbp w => Sys2Proof.Machine.execTldbp w s
  | .tst w => Sys2Proof.Machine.execTst w s
  | .tzero w => Sys2Proof.Machine.execTzero w s
  | .tmov w => Sys2Proof.Machine.execTmov w s
  | .ttr w => Sys2Proof.Machine.execTtr w s
  | .tfill w => Sys2Proof.Machine.execTfill w s
  | .tres w => Sys2Proof.Machine.execTres w s
  | .trel w => Sys2Proof.Machine.execTrel w s
  | .acz w => Sys2Proof.Machine.execAcz w s
  | .acld w => Sys2Proof.Machine.execAcld w s
  | .mma w => Sys2Proof.Machine.execMma w s
  | .mmac w => Sys2Proof.Machine.execMmac w s
  | .mmabs w => Sys2Proof.Machine.execMmabs w s
  | .mwait w => Sys2Proof.Machine.execMwait w s
  | .passGrant engine => Sys2Proof.Machine.execPassGrant engine s
  | .passPromotion engine idx => Sys2Proof.Machine.execPassPromotion engine idx s
  | .passComplete engine => Sys2Proof.Machine.execPassComplete engine s
  | .engineHang engine => Sys2Proof.Machine.execEngineHang engine s
  | .tdr w => Sys2Proof.Machine.execTdr w s
  | .tdrm w => Sys2Proof.Machine.execTdrm w s
  | .tdrt w => Sys2Proof.Machine.execTdrt w s
  | .drainComplete engine => Sys2Proof.Machine.execDrainComplete engine s
  | .cpl w => Sys2Proof.Machine.execCpl w s
  | .cpr w => Sys2Proof.Machine.execCpr w s
  | .cpt w => Sys2Proof.Machine.execCpt w s
  | .cpg w => Sys2Proof.Machine.execCpg w s
  | .cps w => Sys2Proof.Machine.execCps w s
  | .cpim w => Sys2Proof.Machine.execCpim w s
  | .cpq w => Sys2Proof.Machine.execCpq w s
  | .copyStart idx => Sys2Proof.Machine.execCopyStart idx s
  | .copyTranslationFault idx => Sys2Proof.Machine.execCopyTranslationFault idx s
  | .copyFaulted idx => Sys2Proof.Machine.execCopyFaulted idx s
  | .copyDone idx => Sys2Proof.Machine.execCopyDone idx s
  | .fences w => Sys2Proof.Machine.execFences w s
  | .fencesc w => Sys2Proof.Machine.execFencesc w s
  | .ldacq w => Sys2Proof.Machine.execLdacq w s
  | .strel w => Sys2Proof.Machine.execStrel w s
  | .amos w => Sys2Proof.Machine.execAmos w s
  | .casx w => Sys2Proof.Machine.execCasx w s
  | .raceSweepEnd part asid team => Sys2Proof.Machine.execRaceSweepEnd part asid team s
  | .tlbip w => Sys2Proof.Machine.execTlbip w s
  | .tlbipAck part agent => Sys2Proof.Machine.execTlbipAck part agent s
  | .pageWalk die => Sys2Proof.Machine.execPageWalk die s
  | .walkComplete die idx => Sys2Proof.Machine.execWalkComplete die idx s
  | .rcpy w => Sys2Proof.Machine.execRcpy w s
  | .rfil w => Sys2Proof.Machine.execRfil w s
  | .rbop w => Sys2Proof.Machine.execRbop w s
  | .rq w => Sys2Proof.Machine.execRq w s
  | .rowOpStart idx => Sys2Proof.Machine.execRowOpStart idx s
  | .rowOpDone idx => Sys2Proof.Machine.execRowOpDone idx s
  | .rowOpFaulted idx page => Sys2Proof.Machine.execRowOpFaulted idx page s
  | .rowPrecharge row corrupt => Sys2Proof.Machine.execRowPrecharge row corrupt s
  | .deferredMitigation row => Sys2Proof.Machine.execDeferredMitigation row s
  | .lst w => Sys2Proof.Machine.execLst w s
  | .lamo w => Sys2Proof.Machine.execLamo w s
  | .lseq w => Sys2Proof.Machine.execLseq w s
  | .lwait w => Sys2Proof.Machine.execLwait w s
  | .ljoin w => Sys2Proof.Machine.execLjoin w s
  | .lleave w => Sys2Proof.Machine.execLleave w s
  | .lfence w => Sys2Proof.Machine.execLfence w s
  | .laceStamp lace => Sys2Proof.Machine.execLaceStamp lace s
  | .eyeletReceive eye stamp => Sys2Proof.Machine.execEyeletReceive eye stamp s
  | .resendRequest eye => Sys2Proof.Machine.execResendRequest eye s
  | .eyeletStale eye => Sys2Proof.Machine.execEyeletStale eye s
  | .windowError eye => Sys2Proof.Machine.execWindowError eye s
  | .cmsg w => Sys2Proof.Machine.execCmsg w s
  | .cbind w => Sys2Proof.Machine.execCbind w s
  | .cdone w => Sys2Proof.Machine.execCdone w s
  | .cfwd w => Sys2Proof.Machine.execCfwd w s
  | .missEvent pa => Sys2Proof.Machine.execMissEvent pa s
  | .fillEvent pa => Sys2Proof.Machine.execFillEvent pa s
  | .evictionEvent pa dirty => Sys2Proof.Machine.execEvictionEvent pa dirty s
  | .invocationStart slice => Sys2Proof.Machine.execInvocationStart slice s
  | .budgetAbort slice => Sys2Proof.Machine.execBudgetAbort slice s
  | .hret w => Sys2Proof.Machine.execHret w s
  | .htrap w => Sys2Proof.Machine.execHtrap w s
  | .mbpost w => Sys2Proof.Machine.execMbpost w s
  | .treplay w => Sys2Proof.Machine.execTreplay w s
  | .tresume w => Sys2Proof.Machine.execTresume w s
  | .engrst w => Sys2Proof.Machine.execEngrst w s
  | .faultRecordPost part => Sys2Proof.Machine.execFaultRecordPost part s
  | .impreciseStoreFault part tid pc va => Sys2Proof.Machine.execImpreciseStoreFault part tid pc va s
  | .uncorrectableError pa => Sys2Proof.Machine.execUncorrectableError pa s
  | .tmark w => Sys2Proof.Machine.execTmark w s
  | .tbrk w => Sys2Proof.Machine.execTbrk w s
  | .cexp w => Sys2Proof.Machine.execCexp w s
  | .trialEnd part => Sys2Proof.Machine.execTrialEnd part s
  | .traceSync core => Sys2Proof.Machine.execTraceSync core s
  | .lossPacket core => Sys2Proof.Machine.execLossPacket core s
  | .standardInstruction x => Sys2Proof.Machine.execStandardInstruction x s
  | .teamloadComplete part asid team => Sys2Proof.Machine.execTeamloadComplete part asid team s
  | .switchLaceClose lace => Sys2Proof.Machine.execSwitchLaceClose lace s
  | .bolcelTrainingComplete port lanes => Sys2Proof.Machine.execBolcelTrainingComplete port lanes s
  | .bolcelPortReport port reachable lanes => Sys2Proof.Machine.execBolcelPortReport port reachable lanes s
  | .thermalThrottleEnd die => Sys2Proof.Machine.execThermalThrottleEnd die s
  | .powerDown => Sys2Proof.Machine.execPowerDown s
  | .tenantKeyLoad part slot k => Sys2Proof.Machine.execTenantKeyLoad part slot k s
  | .hartInterrupt key cause => Sys2Proof.Machine.execHartInterrupt key cause s

end Sys2Proof.Machine
end

