-- ==== Sys2Proof/Machine/Time.lean ====
section
/-! DEFINITION. The passing of time: cycles, microseconds, watchdog counts, trace buffers and Ethernet buffers (R15, R234, R468,
R489), and what an issue adds around the instruction (R422, log 12). -/

namespace Sys2Proof.Machine

/-- The cycles of a microsecond (R15, R497, R499): 1200, 1176 or 1152 by the clock plan's candidate for the SIMT arithmetic. -/
def usCycles (s : State) : Nat := 1200 - 24 * s.boot.simt

/-- n cycles pass: SYNC packets fall due, trace buffers drain, writes of the hardware land where nothing holds them any more, and stops go
on. -/
def passTime (s : State) (n : Nat) : State :=
  let dus := (s.cycle + n) / usCycles s - s.cycle / usCycles s
  let s := (s.cores.map (·.1)).foldl
    (fun s c => endGreedy (drainTrace (passSyncs s c n) c) c ((core s c).greedy.filter (canIssue s))) s
  let s := settleStops (pumpEyes (landPosted s))
  let s := (s.eth.map (·.1)).foldl serveEth s
  { s with
    cycle := s.cycle + n
    us := s.us + dus
    threads := s.threads.map fun (k, t) => (k, if watched s t then { t with wus := t.wus + dus } else t) }

/-- The instruction writes `minstret`: the value written takes the place of its own count (standard). -/
def setsInstret (i : Instr) : Bool :=
  match i with
  | .standardInstruction (.csr op _ _ rs1 n) => n = 0xB02 && (op = .rw || rs1 ≠ 0)
  | _ => false

/-- A hart's instruction counts in `minstret` when it took no exception. -/
def retire (s : State) (k : Nat) (i : Instr) : State :=
  if s.cur.trapped || setsInstret i then s else modHart s k fun h => { h with minstret := h.minstret + 1 }

/-- The cycle that an instruction of a cobbler core costs as it issues (R422); `cdone` retires in its own, which does not end the
invocation. False where the count reaches BUDGET. -/
def payCycle (s : State) (x : Nat) (i : Instr) : Bool × State :=
  match i with
  | .cdone _ => (true, cobTick s x)
  | _ => let s := cobCharge s x 1; ((slice s x).run.isSome, s)

/-- The one row that acts without power (R492). -/
def isPackageReset : Instr → Bool
  | .packageReset _ => true
  | _ => false

end Sys2Proof.Machine
end

