-- ==== Sys2Proof/Machine/Step.lean ====
section
/-! DEFINITION. One step of the package: the next turn, or, with none listed, the focus issues (log 1). -/

namespace Sys2Proof.Machine

/-- What follows a next state. -/
def andThen (o : Host.Outcome State Fault Refusal) (f : State → State) : Host.Outcome State Fault Refusal :=
  match o with
  | .next s => .next (f s)
  | .fault r => .fault r
  | .refused r => .refused r

/-- A latency hart issues: it counts its instruction when no exception was taken. None where it has nothing to issue. -/
def stepHart (s : State) (k : Nat) : Option (Host.Outcome State Fault Refusal) :=
  match hartIrq s k with
  | some s => some (.next s)
  | none =>
    if !(hart s k).running || (thr s k).wait ≠ .none then none
    else match (if (hart s k).shut then none else asyncTrap s k) with
    | some s => some (.next s)
    | none =>
      match prepare s [k] with
      | (.over, s) => some (.next s)
      | (.go i, s) => some (andThen (exec i s) fun t => retire t k i)

/-- A cobbler core issues (R410, R418). -/
def stepCobbler (s : State) (x : Nat) : Option (Host.Outcome State Fault Refusal) :=
  if (slice s x).run = none then none
  else match prepare s [cobKey x] with
  | (.over, s) => some (.next s)
  | (.go i, s) =>
    match payCycle s x i with
    | (true, s) => some (exec i s)
    | (false, s) => some (.next s)

/-- A SIMT core issues the group that R145 chooses. -/
def stepCore (s : State) (c : Nat) : Option (Host.Outcome State Fault Refusal) :=
  match (onCore s c).findSome? (asyncTrap s) with
  | some s => some (.next s)
  | none =>
    match (onCore s c).filter (canIssue s) with
    | [] => if (core s c).greedy = [] then none else some (.next (endGreedy s c []))
    | k :: ks =>
      let s := formerUpdate s c (k :: ks)
      let (g, s) := chooseGroup s c (k :: ks)
      match prepare s g with
      | (.over, s) => some (.next s)
      | (.go i, s) =>
        match experiment s c s.cur.keys with
        | (false, s) => some (.next s)
        | (true, s) =>
          let k0 := s.cur.keys.headD 0
          some (andThen (exec i s) fun t => settleStops (afterGroup t c s.cur.keys i s.cur.pc (asidK s k0) (thr s k0).team))

/-- One step (log 1). -/
def step (s : State) : Host.Outcome State Fault Refusal :=
  match s.turns with
  | [] =>
    if !s.boot.powered then .fault .noPower
    else
      let o := if isHart s.focus then stepHart s s.focus else if isSimt s.focus then stepCore s (coreOf s.focus)
        else stepCobbler s (s.focus - 0x20_0000)
      o.getD (.fault .idle)
  | t :: ts =>
    let s := { s with turns := ts }
    match t with
    | .event i => if s.boot.powered || isPackageReset i then exec i s else .fault .noPower
    | .time n => .next (passTime s n)
    | .hart d c =>
      if !s.boot.powered then .fault .noPower
      else let s := { s with focus := hartKey d c }; (stepHart s (hartKey d c)).getD (.next s)
    | .core c =>
      if !s.boot.powered then .fault .noPower
      else let s := { s with focus := 1024 * c }; (stepCore s c).getD (.next s)
    | .cobbler x =>
      if !s.boot.powered then .fault .noPower
      else let s := { s with focus := cobKey x }; (stepCobbler s x).getD (.next s)

/-- s with an instruction of an opcode-table row at the place where its focus fetches: the eight bytes at the physical
address of the focus's pc hold the bits, and no turn comes before it. -/
def State.withFetchWord (s : State) (nbits w : Nat) : State :=
  let pc := (thr s s.focus).pc
  let pa := match (translate s (ctxOf s s.focus .fetch) pc .fetch).1 with | .ok (pa, _) => pa | .error _ => pc.toNat
  { s with turns := [], mem := Memory.write s.mem pa (toBytes 8 (w % 2 ^ nbits)) }

end Sys2Proof.Machine
end

