-- ==== Sys2Proof/Safety.lean ====
section
/-! DEFINITION. What claims about the machine are stated in: the canonical form of the state, what a next state leaves as it was,
and the ends of words. -/

namespace Sys2Proof

open Machine

/-- Memory is in canonical form, and the threads are listed by rising keys. -/
def Canonical (s : State) : Prop := Memory.wf s.mem = true ∧ mkeys s.threads = true

/-- Every byte of memory reads as before. -/
def KeepsMemory (s t : State) : Prop := ∀ a, Memory.byte t.mem a = Memory.byte s.mem a

/-- Nothing of the package but the threads of these keys differs. -/
def OnlyThreads (ks : List Nat) (s t : State) : Prop :=
  t = { s with threads := t.threads } ∧ ∀ j, j ∉ ks → mget? t.threads j = mget? s.threads j

/-- Every register of the D map (x0-x31, f0-f31) but those listed is unchanged. -/
def KeepsRegs (ds : List Nat) (a b : Thread) : Prop := ∀ n, n ∉ ds → getReg b n = getReg a n

/-- The register that a full-form word writes: D, unless W is 1 (R85, R86). -/
def destOf (w : Wide) : List Nat := if w.w then [] else [w.d.toNat]

/-- What a full-form word writes at its end (R86, R92): the scalar result to D, unless W is 1 or D is x0, and to the latch target;
every other register and latch is unchanged, the chain goes on where H is 1, and the pc passes the word. -/
def EndsWith (w : Wide) (v : Word) (a b : Thread) : Prop :=
  (w.w = false → w.d ≠ 0 → getReg b w.d.toNat = v) ∧ KeepsRegs (destOf w) a b ∧
  getLatch b w.lt.toNat = v ∧ (∀ n < 4, n ≠ w.lt.toNat → getLatch b n = getLatch a n) ∧
  b.chain.live = w.h ∧ b.pc = a.pc + 8

/-- What a word without a scalar result writes (R86): zero to the latch target. -/
def EndsZero (w : Wide) (a b : Thread) : Prop :=
  KeepsRegs [] a b ∧ getLatch b w.lt.toNat = 0 ∧ (∀ n < 4, n ≠ w.lt.toNat → getLatch b n = getLatch a n) ∧
  b.chain.live = w.h ∧ b.pc = a.pc + 8

/-- Beside registers, latches, chain and pc, everything of a thread is unchanged: its flags, trap CSRs, state, place and waits. -/
def KeepsRest (a b : Thread) : Prop := b = { a with x := b.x, f := b.f, pc := b.pc, chain := b.chain }

/-- The end of a standard instruction of `len` bytes that writes register `rd` of the D map (x0 discards the write): every other
register, and everything of the thread but the registers and the pc, is unchanged. -/
def EndsStd (rd : Nat) (v : Word) (len : Nat) (a b : Thread) : Prop :=
  (rd ≠ 0 → getReg b rd = v) ∧ KeepsRegs [rd] a b ∧ b.pc = a.pc + w64 len ∧ b = { a with x := b.x, f := b.f, pc := b.pc }

/-- Nothing of the package but what the thread and the hart of this key hold differs. -/
def OnlyHart (k : Nat) (s t : State) : Prop :=
  t = { s with threads := t.threads, harts := t.harts, cur := t.cur } ∧ (∀ j, j ≠ k → mget? t.threads j = mget? s.threads j) ∧
    ∀ j, j ≠ k → hart t j = hart s j

/-- A hart has taken exception `code` in M mode: the mode, MPP and MPIE tell what was before, MIE is 0, and the registers of the
thread are as they were. -/
def TrapsToM (k code : Nat) (tval epc : Word) (s t : State) : Prop :=
  OnlyHart k s t ∧ (hart t k).mode = .machine ∧ (hart t k).mcause = w64 code ∧ (hart t k).mepc = epc ∧ (hart t k).mtval = tval ∧
  bits (hart t k).mstatus 12 11 = (hart s k).mode.code ∧ bit (hart t k).mstatus 7 = bit (hart s k).mstatus 3 ∧
  bit (hart t k).mstatus 3 = false ∧ (thr t k).pc = (hart s k).mtvec &&& 0xFFFF_FFFF_FFFF_FFFC ∧ KeepsRegs [] (thr s k) (thr t k)

/-- A hart has taken exception `code` in S mode. -/
def TrapsToS (k code : Nat) (tval epc : Word) (s t : State) : Prop :=
  OnlyHart k s t ∧ (hart t k).mode = .supervisor ∧ (hart t k).scause = w64 code ∧ (hart t k).sepc = epc ∧ (hart t k).stval = tval ∧
  bit (hart t k).mstatus 8 = decide ((hart s k).mode = .supervisor) ∧ bit (hart t k).mstatus 5 = bit (hart s k).mstatus 1 ∧
  bit (hart t k).mstatus 1 = false ∧ (thr t k).pc = (hart s k).stvec &&& 0xFFFF_FFFF_FFFF_FFFC ∧ KeepsRegs [] (thr s k) (thr t k)

/-- A hart takes exception `code` in S mode where it arises below M mode and is delegated, else in M mode (R443). -/
def TakesException (k code : Nat) (tval epc : Word) (s t : State) : Prop :=
  ((hart s k).mode ≠ .machine → bit (hart s k).medeleg code = true → TrapsToS k code tval epc s t) ∧
  (((hart s k).mode = .machine ∨ bit (hart s k).medeleg code = false) → TrapsToM k code tval epc s t)

/-- As KeepsRest, but for the flags and sticky bits that are raised and the seed. -/
def RaisesOnly (flags sticky : Nat) (seed : Word) (a b : Thread) : Prop :=
  b = { a with x := b.x, f := b.f, pc := b.pc, chain := b.chain
               fcsr := a.fcsr ||| w64 (flags % 32), qflags := a.qflags ||| w64 (sticky % 8), lfsr := seed }

/-- The state in which the words of a chain are fetched for a group of keys. -/
def fetchAt (s : State) (keys : List Nat) : State :=
  { s with cur := { keys := keys, pc := (thr s (keys.headD 0)).pc, bits := 0, len := 8 } }

/-- The state as prepare hands it to an instruction: the keys that issue keep the rest of their chain as decoded (R95), and the
instruction's address, bits and length are set. -/
def issueAt (s : State) (keys : List Nat) (w : RawWord) (rest : List RawWord) (coll : Bool) : State :=
  { keys.foldl (fun s k => modThr s k (keepChain rest w coll)) s with cur := { keys := keys, pc := w.addr, bits := w.bits, len := w.len } }

/-- Each of the keys that issue together finds the same chain, legal where the thread stands: its next word is `w`, which decodes to
`i`, `rest` follows it, `coll` says whether a collective instruction is among them, and fetching it leaves `s1`. -/
def Fetches (s : State) (keys : List Nat) (w : RawWord) (i : Instr) (rest : List RawWord) (coll : Bool) (s1 : State) : Prop :=
  ∃ ws e strict, gatherFor (fetchAt s keys) keys = ((ws, e), s1) ∧
    (∀ k ∈ keys, finding s1 k ws e = .go i w rest coll strict) ∧ decode w.bits = .ok (i, w.len)

/-- One gang of team `m` issues: its keys, and its leader (R271). -/
def GangIssues (s : State) (ks : List Nat) (l : Nat) (m : Team) : Prop :=
  gangKeys s = [ks] ∧ ks.Nodup ∧ leaderOf s ks = some l ∧ teamK? s l = some m

/-- Every member of an issuing gang passes the word, and no other thread differs. -/
def GangEnds (w : Wide) (ks : List Nat) (s t : State) : Prop :=
  (∀ k ∈ ks, EndsZero w (thr s k) (thr t k)) ∧ ∀ j, j ∉ ks → mget? t.threads j = mget? s.threads j

/-- No thread waits in a lace instruction on an eyelet that is UNBOUND or STALE or has left its lace since: such a wait ends with cause
0x15 at once (R396). -/
def LaceWaitsStand (s : State) : Prop :=
  ∀ x ∈ s.threads, ∀ e n, (∀ j, x.2.wait = .lace e n j → (eyelet s e).st ≠ 0 ∧ (eyelet s e).st ≠ 3 ∧ (eyelet s e).joins = j) ∧
    (x.2.wait = .lamo e n → (eyelet s e).st ≠ 0 ∧ (eyelet s e).st ≠ 3)

/-- The operands of a row instruction of one thread or hart, where the checks of R376 let it start: the state after the translations, the
destination pages and the source pages. -/
def rowOperands (s : State) (k : Nat) (w : Wide) (maj : Nat) : Option (State × List Nat × List (List Nat)) :=
  let t := thr s k
  let d := src t w.s1
  let n := bits d 8 0 + 1
  let va := w64 (bits d 63 12 * 4096)
  let srcs := rowSources maj w.fn.toNat (src t w.s2) (src t w.s3)
  if (!w.imm11.getLsbD 6 && rowEntry s k (w.imm11.toNat % 64) ≠ 0) || bits d 11 9 ≠ 0 || srcs.any (fun a => bits a 11 0 ≠ 0) then none
  else match rowPages s k .store (pageVas va n) with
  | (.error _, _) => none
  | (.ok dp, s) =>
    match rowSrcPages s k n srcs with
    | (.error _, _) => none
    | (.ok sp, s) =>
      let dst := dp.map (·.1)
      let sps := sp.map fun l => l.map (·.1)
      if (dp :: sp).all (fun l => l.all fun x => rowPage s x.1 x.2) && !rowClash dst sps && rowLocked s k n va srcs = none
          && rowRefused s k n va srcs dp sp = none && rowsHeld s k < (if isSimt k then 16 else 4)
      then some (s, dst, sps) else none

/-- The pages that `rq` finds at its two addresses, where neither raises a page fault (R382): the state after the translations, and each
page that may be an operand. With S2 = 0 the second is the first. -/
def rqOperands (s : State) (k : Nat) (w : Wide) : Option (State × Option Nat × Option Nat) :=
  let t := thr s k
  match rqLook s k (src t w.s1) with
  | (.error _, _) => none
  | (.ok a, s) =>
    if src t w.s2 = 0 then some (s, a, a)
    else match rqLook s k (src t w.s2) with
    | (.error _, _) => none
    | (.ok b, s) => some (s, a, b)

/-- The element that a copy operation moves next (R306, R308-R310), where `x` is the index that names its row: the address that it comes
from, none where it is the record's fill value, and the address that it goes to. -/
def MovesElement (c : Copy) (x : Nat) (org : Option Word) (dst : Word) : Prop :=
  let l := layOf c.layout
  let es := copyEs c.maj c.fn c.layout
  let n := c.done
  let box := at4 l.box
  let b0 := n % box 0
  let b1 := n / box 0 % box 1
  let b2 := n / (box 0 * box 1) % box 2
  let b3 := n / (box 0 * box 1 * box 2)
  let tensor := fun (i0 i1 i2 i3 : Int) => l.base + w64 l.es * BitVec.ofInt 64 i0 + dw c.layout 5 * BitVec.ofInt 64 i1 +
    dw c.layout 6 * BitVec.ofInt 64 i2 + dw c.layout 7 * BitVec.ofInt 64 i3
  let ix : List Int := [coord c.s2 0 + b0, coord c.s2 1 + b1, coord c.s2 2 + b2, coord c.s2 3 + b3]
  let within : Prop := ∀ d < l.rank, 0 ≤ ix.getD d 0 ∧ ix.getD d 0 < at4 l.dims d
  let elem := tensor (ix.getD 0 0) (ix.getD 1 0) (ix.getD 2 0) (ix.getD 3 0)
  let o := c.s3 + w64 (l.es * n)
  let row := tensor b0 x 0 0
  let inRow : Prop := x < at4 l.dims 1 ∧ b0 < at4 l.dims 0
  let f := bits l.conv
  let g := bits c.s2
  let q := (g 51 40 * f 51 40 + g 39 28) * f 63 52 + g 27 16 + n / box 0
  let img := q / (f 51 40 * f 63 52)
  let ih : Int := ((q / f 63 52 % f 51 40 * f 39 36 + g 59 56 * f 31 28 : Nat) : Int) - f 23 16
  let iw : Int := ((q % f 63 52 * f 35 32 + g 55 52 * f 27 24 : Nat) : Int) - f 15 8
  let ch := g 15 0 + b0
  let inImage : Prop := 0 ≤ ih ∧ ih < at4 l.dims 2 ∧ 0 ≤ iw ∧ iw < at4 l.dims 1 ∧ img < at4 l.dims 3 ∧ ch < at4 l.dims 0
  (c.maj = 0x5C ∧ org = some (c.s2 + w64 (es * n)) ∧ dst = c.s1 + w64 (es * n)) ∨
  (c.maj = 0x58 ∧ c.dir = false ∧ dst = o ∧ (within → org = some elem) ∧ (¬ within → org = none)) ∨
  (c.maj = 0x58 ∧ c.dir = true ∧ within ∧ org = some o ∧ dst = elem) ∨
  (c.maj = 0x5A ∧ c.index = some (n / box 0, x) ∧ 0 < box 0 ∧ dst = o ∧ (inRow → org = some row) ∧ (¬ inRow → org = none)) ∨
  (c.maj = 0x5B ∧ c.index = some (n / box 0, x) ∧ 0 < box 0 ∧ inRow ∧ org = some o ∧ dst = row) ∨
  (c.maj = 0x5D ∧ dst = o ∧ (inImage → org = some (tensor ch iw ih img)) ∧ (¬ inImage → org = none))

/-- The bytes of that element: those at its source, which lands in memory, or those of the fill value (R307). -/
def ReadsSource (s : State) (c : Copy) (org : Option Word) (bs : List Byte) (s1 : State) : Prop :=
  let es := copyEs c.maj c.fn c.layout
  match org with
  | none => s1 = s ∧ bs = toBytes es (layOf c.layout).fill
  | some a => a.toNat % es = 0 ∧ ∃ p q, copyReach s c a es false = (.ok (.mem p q), s1) ∧ managed q = false ∧ bs = rdBytes s1 p es

/-- No access of a list of cuts lands on a managed page, whose lines an L1 may hold. -/
def Unmanaged (ls : List (Loc × Nat)) : Prop := ∀ x ∈ ls, ∀ pa pat, x.1 = .mem pa pat → managed pat = false

/-- The number that a finite value is. -/
def ratOf : FV → Option ℚ
  | .fin n m e => some ((if n then -1 else 1) * m * (2 : ℚ) ^ e)
  | _ => none

/-- The lane instructions, and what each computes for one thread (R242-R259): the value, the flags, the sticky bits, and whether
the seed advances. -/
def laneInstr? : Instr → Option (Wide × (Thread → LaneRes))
  | .pfadd w => some (w, floatLanes w fun a b _ => fadd .rne a b)
  | .pfsub w => some (w, floatLanes w fun a b _ => fadd .rne a (fneg b))
  | .pfmul w => some (w, floatLanes w fun a b _ => fmul a b)
  | .pffma w => some (w, floatLanes w fun a b c => ffma .rne a b c)
  | .pfmin w => some (w, minmaxLanes w false)
  | .pfmax w => some (w, minmaxLanes w true)
  | .pfsgn w => some (w, sgnLane w)
  | .pfcmp w => some (w, cmpLane w)
  | .padd w => some (w, intLanes w fun a b => a + b)
  | .psub w => some (w, intLanes w fun a b => a - b)
  | .pmul w => some (w, intLanes w fun a b => a * b)
  | .pmin w => some (w, iminmaxLane w false)
  | .pmax w => some (w, iminmaxLane w true)
  | .psh w => some (w, shLane w)
  | .pdot w => some (w, dotLane w)
  | .pidot w => some (w, idotLane w)
  | .pcdot w => some (w, cdotLane w)
  | .pcvtn w => some (w, cvtnLane w)
  | .pcvtw w => some (w, cvtwLane w)
  | .pcvti w => some (w, cvtiLane w)
  | .pscale w => some (w, scaleLane w)
  | .pgrind w => some (w, grindLane w)
  | .psel w => some (w, selLane w)
  | .ppack w => some (w, packLane w)
  | .lfsrrd w => some (w, seedLane)
  | _ => none

end Sys2Proof
end

