-- ==== Sys2Proof/Certificates/Slice0/Obligations.lean ====
section
/-! DEFINITION. The statements for the provers. A group of threads issues in ascending lane order, one thread after the other
(R142, R343); the statements about instructions that reach beyond their thread name the group of one thread. -/

open Sys2Proof Sys2Proof.Machine

/-! Encodings. -/

/-- Words written out bit by bit from the tables of the spec decode to the instructions they stand for: a full-form word of
each of nine families, a pair word, and a standard word of each length. The fields stand in the order of R84, high bits
first. -/
def Obligations.WordsDecode : Prop :=
  decode 0x0000_0011_C14A_003F = .ok (.pfadd ⟨0, 0, 0, 0, 35, 65, false, 37, false⟩, 8) ∧
  decode 0x0008_0011_2148_053F = .ok (.pfmul ⟨0, 1, 0, 0, 34, 33, false, 36, true⟩, 8) ∧
  decode 0x0000_0000_0B14_603F = .ok (.mig ⟨0, 0, 0, 0, 0, 11, false, 10, false⟩, 8) ∧
  decode 0x0000_0000_123A_903F = .ok (.syinit ⟨0, 0, 0, 0, 0, 18, false, 29, false⟩, 8) ∧
  decode 0x0000_0006_0B14_803F = .ok (.qpush ⟨0, 0, 0, 0, 12, 11, false, 10, false⟩, 8) ∧
  decode 0x0061_8000_8000_D03F = .ok (.mma ⟨3, 0, 12, 0, 1, 0, false, 0, false⟩, 8) ∧
  decode 0x0140_6006_0A01_263F = .ok (.strel ⟨10, 0, 3, 0, 12, 10, false, 0, false⟩, 8) ∧
  decode 0x0020_000A_131E_F03F = .ok (.rcpy ⟨1, 0, 0, 0, 20, 19, false, 15, false⟩, 8) ∧
  decode 0x0000_0300_0B15_023F = .ok (.lamo ⟨0, 0, 0, 12, 0, 11, false, 10, false⟩, 8) ∧
  decode 0x0000_0000_0501_143F = .ok (.cdone ⟨0, 0, 0, 0, 0, 5, false, 0, false⟩, 8) ∧
  decode 0x0140_6890_016A_02BF = .ok (.pairWord false ⟨0, 11, 10, .add2⟩ ⟨5, 0, 13, .addi2⟩, 8) ∧
  decode 0x0000_0000_00B5_0533 = .ok (.standardInstruction (.alu .add 10 10 11), 4) ∧
  decode 0x0000_0000_FE00_0EE3 = .ok (.conditionalBranch .beq 0 0 0xFFE, 4) ∧
  decode 0x0000_0000_0000_8082 = .ok (.standardInstruction (.jalr 0 1 0), 2)

/-- R84: what a full-form word decodes to has its fields from the bits that the table gives them. -/
def Obligations.FullFormFields : Prop :=
  ∀ v i n, bits v 7 0 = 0x3F → decode v = .ok (i, n) →
    ∃ maj w, wideOf? i = some (maj, w) ∧ n = 8 ∧
      w.imm11.toNat = bits v 63 53 ∧ w.lt.toNat = bits v 52 51 ∧ w.fn.toNat = bits v 50 45 ∧ w.s3.toNat = bits v 44 38 ∧
      w.s2.toNat = bits v 37 31 ∧ w.s1.toNat = bits v 30 24 ∧ w.w = bit v 23 ∧ w.d.toNat = bits v 22 17 ∧
      maj.toNat = bits v 16 9 ∧ w.h = bit v 8

/-- Every well-formed full-form instruction is what its word decodes to, at every value of every field.

Every well-formed pair word is what its word decodes to. -/
def Obligations.WideRoundTrip : Prop :=
  (∀ i maj w, i.wf = true → wideOf? i = some (maj, w) → encode i = some (wideWord maj w, 8) ∧ decode (wideWord maj w) = .ok (i, 8)) ∧
  (∀ h p0 p1, (Instr.pairWord h p0 p1).wf = true →
     ∃ v, encode (.pairWord h p0 p1) = some (v, 8) ∧ decode v = .ok (.pairWord h p0 p1, 8))

/-- Every well-formed standard instruction is what its 32-bit word decodes to: with each of the rows that have a word of their
own. -/
def Obligations.StandardRoundTrip : Prop :=
  ∀ i v n, i.wf = true → wideOf? i = none → (∀ h p0 p1, i ≠ .pairWord h p0 p1) → encode i = some (v, n) →
    n = 4 ∧ decode v = .ok (i, 4)

/-- R80, R108: encodings that are no instruction are refused, with their REASON: a length that is illegal, a MAJ that no table
lists, and a pair OP that is reserved. -/
def Obligations.ReservedEncodingsRefused : Prop :=
  (∀ v, bits v 5 0 = 0x1F ∨ bits v 6 0 = 0x7F → decode v = .error (.length, 0)) ∧
  (∀ v, bits v 7 0 = 0x3F → major? (v.extractLsb' 9 8) = none → decode v = .error (.reserved, 0)) ∧
  (∀ v, bits v 7 0 = 0xBF → pairOp? (bits v 15 9) = none → decode v = .error (.reserved, 0)) ∧
  (∀ v, bits v 7 0 = 0xBF → pairOp? (bits v 15 9) ≠ none → pairOp? (bits v 42 36) = none →
    decode v = .error (.reserved, 1))

/-! Steps. -/

/-- A step runs the decoded instruction (log 1): on a hart, which then counts it in `minstret`; on a cobbler core, which first
pays its cycle; on a SIMT core by the group that R145 chooses, what surrounds an issue following it. A group inside its chain
issues a collective word without converging again (R158). -/
def Obligations.StepRunsDecoded : Prop :=
  ∀ s, s.turns = [] → s.boot.powered = true →
    (∀ k i w rest coll s1, s.focus = k → isHart k = true → hartIrq s k = none → (hart s k).running = true → (thr s k).wait = .none →
      asyncTrap s k = none → Fetches s [k] w i rest coll s1 →
      step s = andThen (exec i (issueAt s1 [k] w rest coll)) fun t => retire t k i) ∧
    (∀ x i w rest coll s1 s2, s.focus = cobKey x → x < 0x20_0000 → (slice s x).run ≠ none → Fetches s [cobKey x] w i rest coll s1 →
      payCycle (issueAt s1 [cobKey x] w rest coll) x i = (true, s2) → step s = exec i s2) ∧
    (∀ k0 c k ks i w rest coll s1 s2 u, s.focus = k0 → isSimt k0 = true → coreOf k0 = c → (onCore s c).findSome? (asyncTrap s) = none →
      (onCore s c).filter (canIssue s) ≠ [] →
      chooseGroup (formerUpdate s c ((onCore s c).filter (canIssue s))) c ((onCore s c).filter (canIssue s)) = (k :: ks, s1) →
      isSimt k = true → Fetches s1 (k :: ks) w i rest coll s2 → (coll = false ∨ ∀ j ∈ k :: ks, inChain s2 j = true) →
      experiment (issueAt s2 (k :: ks) w rest coll) c (k :: ks) = (true, u) →
      step s = andThen (exec i u) fun t => settleStops (afterGroup t c (k :: ks) i w.addr (asidK u k) (thr u k).team))

/-- R92-R95: a word that ends its chain and breaks no rule where its threads stand is what they issue, one word alone; threads inside
a chain issue the next of the words decoded with its first, and nothing is fetched for them.

R158-R161: the threads of one gang that reach the first word of a collective chain, when no thread of another gang is ready there, issue
it together if they are its live members. Else they do not issue: they wait there; when with them every live member waits at this pc, all
become ready together; where a member waits at another pc, the waiters and the arriving ones all take cause 0x05 at their own pc. A solo
thread takes it too, and so do the threads of a gang that is not complete, or has an ended member, at an unchained strict collective. -/
def Obligations.LegalWordFetches : Prop :=
  (∀ s k ks w i s1, let keys := k :: ks
    (∀ j ∈ keys, (thr s j).chain.words = []) →
    fetchOne (fetchAt s keys) k (thr s k).pc = (.ok (w.bits, w.len), s1) →
    w.addr = (thr s k).pc → (lengthOf w.bits = some 8 → bit w.bits 8 = false) → decode w.bits = .ok (i, w.len) →
    (∀ j ∈ keys, jctx s1 j = jctx s1 k) → (∀ j ∈ keys, (thr s1 j).chain.words = []) →
    wordReason (jctx s1 k) (jctx s1 k).lv false w = none → wrongSide (coreType k) i = false →
    Fetches s keys w i [] (isCollective i && isSimt k) s1) ∧
  (∀ s keys w rest i coll strict,
    (∀ j ∈ keys, (thr s j).chain.words = w :: rest ∧ judge (jctx s j) (w :: rest) .done = some (.run i coll strict)) →
    (∀ j ∈ keys, isSimt j = true) → keys ≠ [] → decode w.bits = .ok (i, w.len) →
    Fetches s keys w i rest coll (fetchAt s keys)) ∧
  ∀ s k ks w i rest s1 s2, let group := k :: ks
    let c := coreOf k
    let can := (onCore s c).filter (canIssue s)
    s.turns = [] → s.boot.powered = true → isSimt s.focus = true → coreOf s.focus = c → isSimt k = true →
    (onCore s c).findSome? (asyncTrap s) = none → can ≠ [] → chooseGroup (formerUpdate s c can) c can = (group, s1) →
    Fetches s1 group w i rest true s2 → (∀ j ∈ group, inChain s2 j = false) →
    (∀ j ∈ onCore s2 c, canIssue s2 j = true → formerKey s2 j = formerKey s2 k → j ∈ group) →
    let others := fun (t : State) (l : List Nat) => t = { s2 with threads := t.threads } ∧ ∀ j, j ∉ l → mget? t.threads j = mget? s2.threads j
    let traps := fun (t : State) (j : Nat) => (thr t j).st = .ready ∧ (thr t j).wait = .none ∧ (thr t j).pc = (thr s2 j).trap.hvec ∧
      (thr t j).trap.hcause = 5 ∧ (thr t j).trap.hepc = (thr s2 j).pc ∧ KeepsRegs [] (thr s2 j) (thr t j)
    let trappable := fun (j : Nat) => isSimt j = true ∧ (thr s2 j).helper = false ∧ (thr s2 j).trap.inh = false ∧
      (thr s2 j).trap.hvec ≠ 0 ∧ (thr s2 j).ops = []
    (ks = [] → (thr s2 k).team = 0 → trappable k → ∃ t, step s = .next t ∧ others t [k] ∧ traps t k) ∧
    ∀ m g, teamK? s2 k = some m →
      let live := (gangIdx m g).filter (posLive m)
      (∀ j ∈ group, (thr s2 j).team = (thr s2 k).team ∧ gangNo (thr s2 j) = g ∧
        ∃ n ∈ live, (member m n).loc = .here ∧ memberKey m n = j) →
      let waits := convWaiters s2 m g
      let absent := ∃ n ∈ live, canIssue s2 (memberKey m n) = false ∨ formerKey s2 (memberKey m n) ≠ formerKey s2 k
      let plain := strictBad m g = false ∨ (rest = [] ∧ isStrict i = false)
      (rest = [] → isStrict i = true → strictBad m g = true → group.Nodup → (∀ j ∈ group, trappable j) →
        ∃ t, step s = .next t ∧ others t group ∧ ∀ j ∈ group, traps t j) ∧
      (∀ s3 u, plain → gangWhole m g group = true → byLane (liveKeys m g) = group → oldestGroup s2 [liveKeys m g] = (liveKeys m g, s3) →
        (∀ j ∈ group, j ∈ onCore s2 c ∧ canIssue s2 j = true ∧ formerKey s2 j = formerKey s2 k) →
        experiment (issueAt s3 group w rest true) c group = (true, u) →
        step s = andThen (exec i u) fun t => settleStops (afterGroup t c group i w.addr (asidK u k) (thr u k).team)) ∧
      (plain → absent → (∀ y ∈ waits, y.2 = w.addr) →
        (∃ n ∈ live, memberKey m n ∉ group ∧ ∀ x, (thr s2 (memberKey m n)).wait ≠ .converge x) →
        ∃ t, step s = .next t ∧ others t group ∧
          ∀ j ∈ group, thr t j = { thr s2 j with st := .blocked, wait := .converge w.addr, wus := 0 }) ∧
      (plain → absent → (∀ y ∈ waits, y.2 = w.addr ∧ (thr s2 y.1).st = .blocked) →
        (∀ n ∈ live, (member m n).loc = .here ∧ (memberKey m n ∈ group ∨ ∃ y ∈ waits, y.1 = memberKey m n)) →
        ∃ t, step s = .next t ∧ others t (liveKeys m g) ∧
          ∀ j ∈ liveKeys m g, thr t j = { thr s2 j with st := .ready, wait := .none, wus := 0, age := s2.cycle }) ∧
      (plain → absent → (∃ y ∈ waits, y.2 ≠ w.addr) →
        let all := waits.map (·.1) ++ group
        all.Nodup → (∀ j ∈ all, trappable j) → ∃ t, step s = .next t ∧ others t all ∧ ∀ j ∈ all, traps t j)

/-- A turn that names an event row runs that row; a turn of time passes, with 1200, 1176 or 1152 cycles to the microsecond (R15, R497,
R499); with nothing of the hardware on its way, no thread, hart or team differs after it.

The machine stops only without power, or where nothing is listed to move and the focus has nothing to issue (log 1): no
instruction faults and none is refused. -/
def Obligations.TurnsRunAndStops : Prop :=
  (∀ s ts, s.boot.powered = true →
     (∀ i, s.turns = .event i :: ts → step s = exec i { s with turns := ts }) ∧
     (∀ n, s.turns = .time n :: ts → ∃ t, step s = .next t ∧ t.cycle = s.cycle + n ∧
       (let us := 1200 - 24 * s.boot.simt
        t.us = s.us + ((s.cycle + n) / us - s.cycle / us)) ∧ t.turns = ts ∧
       ((∀ p, (ethPort s p).buffer = []) → s.posted = [] → s.poison = [] → (∀ e ∈ s.eyelets, e.2.buf = []) →
         (∀ m ∈ s.teams, m.stopping = none) → t.teams = s.teams ∧ t.harts = s.harts ∧
         ∀ k, getReg (thr t k) = getReg (thr s k) ∧ (thr t k).pc = (thr s k).pc))) ∧
  ((∀ i s, ∃ t, exec i s = .next t) ∧
   (∀ s f, step s = .fault f → (f = .noPower ∧ s.boot.powered = false) ∨ (f = .idle ∧ s.turns = [])) ∧
   (∀ s r, step s ≠ .refused r))

/-- R492 step 7 with R38, R41, R45, R66: what package reset leaves. -/
def Obligations.ResetState : Prop :=
  (hart State.reset (hartKey 0 0)).running = true ∧ (hart State.reset (hartKey 0 0)).mode = .machine ∧
  (hart State.reset (hartKey 0 0)).mgr = true ∧
  (∀ k, k ≠ hartKey 0 0 → (hart State.reset k).running = false ∧ occupied State.reset k = false) ∧
  (∀ a, Memory.byte State.reset.mem a = 0) ∧ (∀ p, (part State.reset p).state = 0) ∧
  State.reset.teams = [] ∧ State.reset.copies = [] ∧ State.reset.cycle = 0 ∧ State.reset.us = 0 ∧
  (thr State.reset (hartKey 0 0)).lfsr = 0x9E37_79B9

/-- The canonical form holds at reset. -/
def Obligations.ResetInv : Prop := Canonical State.reset

/-- Every step keeps the canonical form: memory lists rising addresses and no zero byte, threads stand by rising keys. -/
def Obligations.StepKeepsInv : Prop := ∀ s t, Canonical s → step s = .next t → Canonical t

/-! Lane arithmetic, pairs and gangs. -/

/-- R86, R92, R236, R239, R240: every lane instruction runs on every thread of its group: `pfadd`, `pfsub`, `pfmul`, `pffma`,
`pfmin`, `pfmax`, `pfsgn`, `pfcmp`, `padd`, `psub`, `pmul`, `pmin`, `pmax`, `psh`, `pdot`, `pidot`, `pcdot`, `pcvtn`, `pcvtw`,
`pcvti`, `pscale`, `pgrind`, `psel`, `ppack` and `lfsrrd`. The thread's result goes to D (unless W is 1) and to the latch target, its
flags and sticky bits accumulate, its seed moves where the instruction uses it, and nothing else changes: no other register, no
other thread, no byte of memory. -/
def Obligations.LaneResults : Prop :=
  ∀ i w f s, laneInstr? i = some (w, f) → s.cur.keys.Nodup →
    (∀ k ∈ s.cur.keys, isSimt k = true → fpTraps (thr s k) (f (thr s k)).flags = false) →
    ∃ t, exec i s = .next t ∧ OnlyThreads s.cur.keys s t ∧ KeepsMemory s t ∧
      ∀ k ∈ s.cur.keys, EndsWith w (w64 (f (thr s k)).val) (thr s k) (thr t k) ∧
        RaisesOnly (f (thr s k)).flags (f (thr s k)).sticky
          (if (f (thr s k)).adv then advance32 (thr s k).lfsr else (thr s k).lfsr) (thr s k) (thr t k)

/-- R73, R437: a lane instruction that raises an enabled flag completes, and its SIMT thread then takes cause 0x11 in its handler
with the pc after the instruction as the resume point. -/
def Obligations.LaneTrapFollowsResult : Prop :=
  ∀ i w f s k, laneInstr? i = some (w, f) → s.cur.keys = [k] → isSimt k = true → (thr s k).helper = false →
    (thr s k).chain.coll = false → w.h = false → fpTraps (thr s k) (f (thr s k)).flags = true →
    (thr s k).trap.hvec ≠ 0 → (thr s k).trap.inh = false → (thr s k).ops = [] →
    ∃ t, exec i s = .next t ∧ OnlyThreads [k] s t ∧
      (w.w = false → w.d ≠ 0 → getReg (thr t k) w.d.toNat = w64 (f (thr s k)).val) ∧
      KeepsRegs (destOf w) (thr s k) (thr t k) ∧ (thr t k).pc = (thr s k).trap.hvec ∧
      (thr t k).trap.hcause = 0x11 ∧ (thr t k).trap.hepc = (thr s k).pc + 8 ∧ (thr t k).trap.hdec0 = s.cur.bits ∧
      (thr t k).trap.hdec2 = s.cur.pc ∧ (thr t k).trap.inh = true ∧
      (thr t k).fcsr = (thr s k).fcsr ||| w64 ((f (thr s k)).flags % 32)

/-- R246 and R62: element i of the D value of `padd`, `psub` and `pmul` is the exact result reduced to the format: where it lies in
the format's range its bits, else its low bits, or the nearest end of the range where the modifier asks for saturation.

R247, R248, R257, R258: the elements that `pmin`, `pmax`, `psh` with each shift, `psel` and `ppack` give, and that they raise no flag.

R244: `pfsgn` inverts, clears or copies the sign bit, and gives the canonical NaN for a NaN. R245: `pfcmp` gives all ones where the
condition holds, with NV for a signalling NaN, and for any NaN under `.lt` and `.le`. R250, R251: `pidot` and `pcdot` add the exact
products to S3 and wrap or saturate the whole sum, with ISAT when it was clamped. -/
def Obligations.LaneElements : Prop :=
  (∀ w t j, j < fcount w.fmt → ∀ op : Int → Int → Int,
     let x := op (ival w.fmt (elt (src t w.s1) w.fmt j)) (ival w.fmt (elt (src t w.s2) w.fmt j))
     let r := elt (w64 (intLanes w op t).val) w.fmt j
     ((irange w.fmt).1 ≤ x → x ≤ (irange w.fmt).2 → r = lowBits (fwidth w.fmt) x) ∧
     (w.md ≠ 1 → r = lowBits (fwidth w.fmt) x) ∧
     (w.md = 1 → x < (irange w.fmt).1 → r = lowBits (fwidth w.fmt) (irange w.fmt).1) ∧
     (w.md = 1 → (irange w.fmt).2 < x → r = lowBits (fwidth w.fmt) (irange w.fmt).2) ∧
     ((intLanes w op t).sticky = 0 ∨ (intLanes w op t).sticky = ISAT)) ∧
  (∀ w t,
     (∀ j < fcount w.fmt, let wd := fwidth w.fmt
       let a := elt (src t w.s1) w.fmt j
       let b := elt (src t w.s2) w.fmt j
       (w.md = 2 → ∀ i < wd, (elt (w64 (shLane w t).val) w.fmt j).testBit i = a.testBit (min (i + b % wd) (wd - 1))) ∧
       (w.md = 3 → ∀ i < wd, (elt (w64 (shLane w t).val) w.fmt j).testBit i = a.testBit ((i + wd - b % wd) % wd)) ∧
       (∀ mx, elt (w64 (iminmaxLane w mx t).val) w.fmt j =
         (if decide (ival w.fmt (elt (src t w.s1) w.fmt j) < ival w.fmt (elt (src t w.s2) w.fmt j)) = mx
           then elt (src t w.s2) w.fmt j else elt (src t w.s1) w.fmt j)) ∧
       (w.md = 0 → elt (w64 (shLane w t).val) w.fmt j =
         elt (src t w.s1) w.fmt j * 2 ^ (elt (src t w.s2) w.fmt j % fwidth w.fmt) % 2 ^ fwidth w.fmt) ∧
       (w.md = 1 → elt (w64 (shLane w t).val) w.fmt j =
         elt (src t w.s1) w.fmt j / 2 ^ (elt (src t w.s2) w.fmt j % fwidth w.fmt)) ∧
       elt (w64 (selLane w t).val) w.fmt j =
         (if elt (src t w.s3) w.fmt j ≠ 0 then elt (src t w.s1) w.fmt j else elt (src t w.s2) w.fmt j)) ∧
     (∀ j < 8, elt (w64 (packLane w t).val) 8 j =
       (let c := elt (src t w.s3) 8 j
        if 128 ≤ c then 0 else if c % 16 < 8 then elt (src t w.s1) 8 (c % 16) else elt (src t w.s2) 8 (c % 16 - 8))) ∧
     (∀ r ∈ [iminmaxLane w false t, iminmaxLane w true t, shLane w t, selLane w t, packLane w t, sgnLane w t],
       r.flags = 0 ∧ r.sticky = 0 ∧ r.adv = false)) ∧
  (∀ w t, w.fmt < 6 →
     let F := ffmt w.fmt
     let h := 2 ^ (fwidth w.fmt - 1)
     let x := fun j => elt (src t w.s1) w.fmt j
     let y := fun j => elt (src t w.s2) w.fmt j
     let nan := fun j => isNan (fval F (x j)) || isNan (fval F (y j))
     let sig := fun j => isSig (fval F (x j)) || isSig (fval F (y j))
     (∀ j < fcount w.fmt,
       let r := elt (w64 (sgnLane w t).val) w.fmt j
       let c := elt (w64 (cmpLane w t).val) w.fmt j
       (isNan (fval F (x j)) = true → r = F.nan) ∧
       (isNan (fval F (x j)) = false → (w.md = 0 → r = x j ^^^ h) ∧ (w.md = 1 → r = x j % h) ∧ (w.md = 2 → r = x j % h + y j / h * h)) ∧
       (c = 0 ∨ c = 2 ^ fwidth w.fmt - 1) ∧ (nan j = true → (c ≠ 0 ↔ w.md = 3)) ∧ (nan j = false → w.md = 3 → c = 0) ∧
       (nan j = false → w.md ≠ 3 → ∀ p q, ratOf (fval F (x j)) = some p → ratOf (fval F (y j)) = some q →
         (c ≠ 0 ↔ (w.md = 0 ∧ p = q) ∨ (w.md = 1 ∧ p < q) ∨ (w.md = 2 ∧ p ≤ q))) ∧
       (nan j = false → w.md ≠ 3 → ∀ n, fval F (x j) = .inf n → (c ≠ 0 ↔ (w.md ≠ 1 ∧ fval F (y j) = .inf n) ∨
         (w.md ≠ 0 ∧ n = true ∧ fval F (y j) ≠ .inf true)))) ∧
     ((cmpLane w t).flags = if ∃ j < fcount w.fmt, sig j = true ∨ (nan j = true ∧ (w.md = 1 ∨ w.md = 2)) then NV else 0)) ∧
  (∀ w t,
     let fit := fun (sat : Bool) (x : Int) => if sat then max (-2147483648) (min x 2147483647) else x
     let acc := fun i => ival 6 ((src t w.s3).toNat / 2 ^ (32 * i) % 2 ^ 32)
     let dot := acc 0 + ((List.range (fcount w.fmt)).map fun i =>
       ival w.fmt (elt (src t w.s1) w.fmt i) * ival w.fmt (elt (src t w.s2) w.fmt i)).sum
     let a := fun i => cparts w.fmt (elt (src t w.s1) w.fmt i)
     let b := fun i => let p := cparts w.fmt (elt (src t w.s2) w.fmt i); if 2 ≤ w.md then (p.1, -p.2) else p
     let re := acc 0 + ((List.range (fcount w.fmt)).map fun i => (a i).1 * (b i).1 - (a i).2 * (b i).2).sum
     let im := acc 1 + ((List.range (fcount w.fmt)).map fun i => (a i).1 * (b i).2 + (a i).2 * (b i).1).sum
     w64 (idotLane w t).val = BitVec.ofInt 64 (Int.bmod (fit (w.md = 1) dot) (2 ^ 32)) ∧
     ((idotLane w t).sticky = if w.md = 1 ∧ fit true dot ≠ dot then ISAT else 0) ∧
     bits (w64 (cdotLane w t).val) 31 0 = lowBits 32 (fit (w.md % 2 = 1) re) ∧
     bits (w64 (cdotLane w t).val) 63 32 = lowBits 32 (fit (w.md % 2 = 1) im) ∧
     ((cdotLane w t).sticky = if w.md % 2 = 1 ∧ (fit true re ≠ re ∨ fit true im ≠ im) then ISAT else 0))

/-- R88, R89, R90: a pair word computes both slots from the registers as they were, then writes D of each slot that is no `nop2`;
it writes no latch and no other register, and passes eight bytes.

The value of each pair opcode is that of R89: 64-bit integer arithmetic that wraps; f32 on unboxed operands, boxed; f64; and four
elements of bf16 or f16; where an exact finite sum or product is rounded once. -/
def Obligations.PairResults : Prop :=
  (∀ d v imm,
     let one := fun (F : FFmt) (op : FV → FV → FV × Nat) (a b : Nat) => (roundArith F .rne false 0 (op (fval F a) (fval F b))).bits
     let minus := fun a b => fadd .rne a (fneg b)
     let val := fun op => (pairOp op d v imm).1
     val .add2 = d + v ∧ val .sub2 = d - v ∧ val .and2 = d &&& v ∧ val .or2 = d ||| v ∧ val .xor2 = d ^^^ v ∧
     (val .sll2).toNat = d.toNat * 2 ^ bits v 5 0 % 2 ^ 64 ∧ (val .srl2).toNat = d.toNat / 2 ^ bits v 5 0 ∧
     (val .sra2).toInt = d.toInt / 2 ^ bits v 5 0 ∧ val .addi2 = d + imm.signExtend 64 ∧ val .mv2 = v ∧ val .li2 = imm.signExtend 64 ∧
     (val .min2).toInt = min d.toInt v.toInt ∧ (val .max2).toInt = max d.toInt v.toInt ∧
     val .fadd2s = box32 (one f32F (fadd .rne) (unbox32 d) (unbox32 v)) ∧ val .fsub2s = box32 (one f32F minus (unbox32 d) (unbox32 v)) ∧
     val .fmul2s = box32 (one f32F fmul (unbox32 d) (unbox32 v)) ∧ val .fmin2s = box32 (fminmax f32F false (unbox32 d) (unbox32 v)).1 ∧
     val .fmax2s = box32 (fminmax f32F true (unbox32 d) (unbox32 v)).1 ∧
     val .fadd2d = w64 (one f64F (fadd .rne) d.toNat v.toNat) ∧ val .fmul2d = w64 (one f64F fmul d.toNat v.toNat) ∧
     ∀ i < 4,
       elt (val .pfadd2b) 1 i = one bf16F (fadd .rne) (elt d 1 i) (elt v 1 i) % 2 ^ 16 ∧
       elt (val .pfmul2b) 1 i = one bf16F fmul (elt d 1 i) (elt v 1 i) % 2 ^ 16 ∧
       elt (val .pfadd2h) 2 i = one f16F (fadd .rne) (elt d 2 i) (elt v 2 i) % 2 ^ 16 ∧
       elt (val .pfmul2h) 2 i = one f16F fmul (elt d 2 i) (elt v 2 i) % 2 ^ 16) ∧
  (∀ a b p q, ratOf a = some p → ratOf b = some q →
     ratOf (fadd .rne a b).1 = some (p + q) ∧ ratOf (fadd .rne a (fneg b)).1 = some (p - q) ∧ ratOf (fmul a b).1 = some (p * q)) ∧
  ∀ h p0 p1 s, s.cur.keys.Nodup → pairReason p0 p1 = none →
    (∀ k ∈ s.cur.keys, isSimt k = true →
      fpTraps (thr s k) ((slotResult (thr s k) p0).2 ||| (slotResult (thr s k) p1).2) = false) →
    ∃ t, exec (.pairWord h p0 p1) s = .next t ∧ OnlyThreads s.cur.keys s t ∧ KeepsMemory s t ∧
      ∀ k ∈ s.cur.keys,
        (p0.op ≠ .nop2 → pairDest p0 ≠ 0 → getReg (thr t k) (pairDest p0) = (slotResult (thr s k) p0).1) ∧
        (p1.op ≠ .nop2 → getReg (thr t k) (pairDest p1) = (slotResult (thr s k) p1).1) ∧
        (∀ n, (p0.op = .nop2 ∨ n ≠ pairDest p0) → (p1.op = .nop2 ∨ n ≠ pairDest p1) → getReg (thr t k) n = getReg (thr s k) n) ∧
        (∀ n < 4, getLatch (thr t k) n = getLatch (thr s k) n) ∧ (thr t k).pc = (thr s k).pc + 8 ∧
        RaisesOnly ((slotResult (thr s k) p0).2 ||| (slotResult (thr s k) p1).2) 0 (thr s k).lfsr (thr s k) (thr t k)

/-- R164-R166, R170: `gshfl`, `gqx` and `gbcast` give each issuing member the source value of the position that the instruction
names, as all members held it before, or its own where that position is not live or lies beyond the gang. -/
def Obligations.GangMoves : Prop :=
  ∀ s, s.cur.keys.Nodup →
    (∀ w, ∃ t, exec (.gbcast w) s = .next t ∧ OnlyThreads s.cur.keys s t ∧ ∀ k ∈ s.cur.keys,
      let g := gangOf s k
      let q := w.imm11.toNat % 64
      EndsWith w (if q < g.width ∧ g.live q = true then src (g.thread q) w.s1 else src (g.thread (gangPos (thr s k))) w.s1)
        (thr s k) (thr t k) ∧ KeepsRest (thr s k) (thr t k)) ∧
    (∀ w, ∃ t, exec (.gqx w) s = .next t ∧ OnlyThreads s.cur.keys s t ∧ ∀ k ∈ s.cur.keys,
      let g := gangOf s k
      let q := gangPos (thr s k) ^^^ (w.fn.toNat + 1)
      EndsWith w (if q < g.width ∧ g.live q = true then src (g.thread q) w.s1 else src (g.thread (gangPos (thr s k))) w.s1)
        (thr s k) (thr t k) ∧ KeepsRest (thr s k) (thr t k)) ∧
    (∀ w, ∃ t, exec (.gshfl w) s = .next t ∧ OnlyThreads s.cur.keys s t ∧ ∀ k ∈ s.cur.keys,
      let g := gangOf s k
      let p := gangPos (thr s k)
      let d := w.imm11.toNat % 64
      let own := src (g.thread p) w.s1
      let pick := fun q => if q < g.width ∧ g.live q = true then src (g.thread q) w.s1 else own
      EndsWith w (if w.fn = 0 then pick (src (g.thread p) w.s2).toNat
        else if w.fn = 1 then (if d ≤ p then pick (p - d) else own)
        else if w.fn = 2 then pick (p + d) else pick (p ^^^ d)) (thr s k) (thr t k) ∧ KeepsRest (thr s k) (thr t k))

/-- R167-R169, R171, R172: what `gvote`, `gred`, `gscan` and `gmatch` compute from the contributing
positions, and that `gsync` gives no result.

R168: the sum, signed minimum and maximum, and, or and xor of `gred`, each with its identity where no position contributes; and the
tree of `gred.fadd.s`, whose level j + 1 adds neighbours of level j, rounded, from the contributors' f32 values or -0. -/
def Obligations.GangReductions : Prop :=
  (∀ w g, let vs := g.contribs.map fun q => g.val q w.s1
     let n := w.fn.toNat
     (n = 0 → (redInt w g).toNat = (vs.map BitVec.toNat).sum % 2 ^ 64) ∧
     (n = 1 → (redInt w g ∈ vs ∨ redInt w g = 0x7FFF_FFFF_FFFF_FFFF) ∧ ∀ v ∈ vs, (redInt w g).toInt ≤ v.toInt) ∧
     (n = 2 → (redInt w g ∈ vs ∨ redInt w g = 0x8000_0000_0000_0000) ∧ ∀ v ∈ vs, v.toInt ≤ (redInt w g).toInt) ∧
     (∀ i < 64, (n = 3 → bit (redInt w g) i = vs.all (bit · i)) ∧ (n = 4 → bit (redInt w g) i = vs.any (bit · i)) ∧
       (n = 5 → bit (redInt w g) i = decide ((vs.filter (bit · i)).length % 2 = 1)))) ∧
  (∀ w g n, g.width = 2 ^ n → ∃ lev : Nat → Nat → Nat,
     (∀ q < 2 ^ n, lev 0 q = if g.contrib q then unbox32 (g.val q w.s1) else 0x8000_0000) ∧
     (∀ j < n, ∀ q < 2 ^ (n - j - 1),
       lev (j + 1) q = (roundArith f32F .rne false 0 (fadd .rne (fval f32F (lev j (2 * q))) (fval f32F (lev j (2 * q + 1))))).bits) ∧
     (redFadd w g).1 = box32 (lev n 0)) ∧
  ∀ s, s.cur.keys.Nodup →
    (∀ w, ∃ t, exec (.gvote w) s = .next t ∧ OnlyThreads s.cur.keys s t ∧ ∀ k ∈ s.cur.keys,
      let g := gangOf s k
      KeepsRest (thr s k) (thr t k) ∧ ∃ v, EndsWith w v (thr s k) (thr t k) ∧
        (w.fn = 0 → v = if ∃ q, q < g.width ∧ g.contrib q = true ∧ g.val q w.s1 ≠ 0 then 1 else 0) ∧
        (w.fn = 1 → v = if ∀ q < g.width, g.contrib q = true → g.val q w.s1 ≠ 0 then 1 else 0) ∧
        (w.fn = 2 → ∀ q < 64, bit v q = (decide (q < g.width) && g.contrib q && decide (g.val q w.s1 ≠ 0))) ∧
        (w.fn = 3 → v = if ∀ q < g.width, ∀ r < g.width, g.contrib q = true → g.contrib r = true → g.val q w.s1 = g.val r w.s1
          then 1 else 0)) ∧
    (∀ w, w.fn ≠ 6 → ∃ t, exec (.gred w) s = .next t ∧ OnlyThreads s.cur.keys s t ∧ ∀ k ∈ s.cur.keys,
      EndsWith w (redInt w (gangOf s k)) (thr s k) (thr t k) ∧ KeepsRest (thr s k) (thr t k)) ∧
    (∀ w, w.fn = 6 → (∀ k ∈ s.cur.keys, isSimt k = true → fpTraps (thr s k) (redFadd w (gangOf s k)).2 = false) →
      ∃ t, exec (.gred w) s = .next t ∧ OnlyThreads s.cur.keys s t ∧ ∀ k ∈ s.cur.keys,
        EndsWith w (redFadd w (gangOf s k)).1 (thr s k) (thr t k) ∧
        RaisesOnly (redFadd w (gangOf s k)).2 0 (thr s k).lfsr (thr s k) (thr t k)) ∧
    (∀ w, ∃ t, exec (.gscan w) s = .next t ∧ OnlyThreads s.cur.keys s t ∧ ∀ k ∈ s.cur.keys,
      let g := gangOf s k
      let p := gangPos (thr s k)
      EndsWith w (((g.contribs.filter fun q => q < p || (w.fn = 0 && q = p)).map fun q => g.val q w.s1).sum)
        (thr s k) (thr t k) ∧ KeepsRest (thr s k) (thr t k)) ∧
    (∀ w, ∃ t, exec (.gmatch w) s = .next t ∧ OnlyThreads s.cur.keys s t ∧ ∀ k ∈ s.cur.keys,
      let g := gangOf s k
      KeepsRest (thr s k) (thr t k) ∧ ∃ v, EndsWith w v (thr s k) (thr t k) ∧
        ∀ q < 64, bit v q = (decide (q < g.width) && g.contrib q && decide (g.val q w.s1 = g.val (gangPos (thr s k)) w.s1))) ∧
    (∀ w, ∃ t, exec (.gsync w) s = .next t ∧ OnlyThreads s.cur.keys s t ∧ ∀ k ∈ s.cur.keys,
      EndsZero w (thr s k) (thr t k) ∧ KeepsRest (thr s k) (thr t k))

/-! Standard instructions and cache-block operations. -/

/-- R9: the integer instructions without memory, jumps and fences, on every thread of the group: the result goes to rd, x0 discards
it, and the pc passes the instruction or goes to the jump's target. Nothing else changes.

R9, R146, R467: a conditional branch compares two x registers of each thread of the group and moves that thread's pc alone;
`pause` only passes. Where the context is traced, the packets of R467 go to the core's buffer.

R9, R73: a floating instruction with a valid rounding mode writes its result and adds its flags, where none of them is enabled to trap;
a reserved rounding mode is illegal. That FS of a hart is then dirty is the family's (log 12).

R410, R411, R422: on a cobbler core, while the count of cycles stays below BUDGET, the same instructions end the same way, and a load or
store ends with what the access gives; only the invocation's cycles count on beside.

`fence` and `fence.i` only pass (log 4: the model performs accesses in one order). -/
def Obligations.StandardResults : Prop :=
  (∀ s, s.cur.keys.Nodup → (∀ k ∈ s.cur.keys, isCob k = false) →
     (∀ rd imm, ∃ t, exec (.standardInstruction (.lui rd imm)) s = .next t ∧ OnlyThreads s.cur.keys s t ∧ ∀ k ∈ s.cur.keys,
       EndsStd rd.toNat ((imm ++ (0 : BitVec 12) : BitVec 32).signExtend 64) s.cur.len (thr s k) (thr t k)) ∧
     (∀ rd imm, ∃ t, exec (.standardInstruction (.auipc rd imm)) s = .next t ∧ OnlyThreads s.cur.keys s t ∧ ∀ k ∈ s.cur.keys,
       EndsStd rd.toNat ((thr s k).pc + (imm ++ (0 : BitVec 12) : BitVec 32).signExtend 64) s.cur.len (thr s k) (thr t k)) ∧
     (∀ op rd rs1 imm, ∃ t, exec (.standardInstruction (.alui op rd rs1 imm)) s = .next t ∧ OnlyThreads s.cur.keys s t ∧
       ∀ k ∈ s.cur.keys, EndsStd rd.toNat (aluImmOp op (getReg (thr s k) rs1.toNat) imm) s.cur.len (thr s k) (thr t k)) ∧
     (∀ op rd rs1 rs2, ∃ t, exec (.standardInstruction (.alu op rd rs1 rs2)) s = .next t ∧ OnlyThreads s.cur.keys s t ∧
       ∀ k ∈ s.cur.keys, EndsStd rd.toNat (aluOp op (getReg (thr s k) rs1.toNat) (getReg (thr s k) rs2.toNat)) s.cur.len
         (thr s k) (thr t k)) ∧
     (∀ rd imm, ∃ t, exec (.standardInstruction (.jal rd imm)) s = .next t ∧ OnlyThreads s.cur.keys s t ∧ ∀ k ∈ s.cur.keys,
       (rd ≠ 0 → getReg (thr t k) rd.toNat = (thr s k).pc + w64 s.cur.len) ∧ KeepsRegs [rd.toNat] (thr s k) (thr t k) ∧
       thr t k = { thr s k with x := (thr t k).x, pc := (thr t k).pc } ∧ (thr t k).pc = (thr s k).pc + (imm ++ (0 : BitVec 1) : BitVec 21).signExtend 64) ∧
     (∀ rd rs1 imm, ∃ t, exec (.standardInstruction (.jalr rd rs1 imm)) s = .next t ∧ OnlyThreads s.cur.keys s t ∧
       ∀ k ∈ s.cur.keys,
         (rd ≠ 0 → getReg (thr t k) rd.toNat = (thr s k).pc + w64 s.cur.len) ∧ KeepsRegs [rd.toNat] (thr s k) (thr t k) ∧
         thr t k = { thr s k with x := (thr t k).x, pc := (thr t k).pc } ∧
         (thr t k).pc = (getReg (thr s k) rs1.toNat + imm.signExtend 64) &&& ~~~ 1#64) ∧
     (∀ fm pred succ rd rs1, ∃ t, exec (.standardInstruction (.fence fm pred succ rd rs1)) s = .next t ∧
       OnlyThreads s.cur.keys s t ∧ ∀ k ∈ s.cur.keys, EndsStd 0 0 s.cur.len (thr s k) (thr t k)) ∧
     (∃ t, exec (.standardInstruction .fencei) s = .next t ∧ OnlyThreads s.cur.keys s t ∧
       ∀ k ∈ s.cur.keys, EndsStd 0 0 s.cur.len (thr s k) (thr t k))) ∧
  (∀ s, s.cur.keys.Nodup → (∀ k ∈ s.cur.keys, isCob k = false) →
     (∀ op rs1 rs2 imm, ∃ t, exec (.conditionalBranch op rs1 rs2 imm) s = .next t ∧
       ((∀ k ∈ s.cur.keys, isSimt k = true → traced s (partOf s k) (asidK s k) = false) → OnlyThreads s.cur.keys s t ∧ KeepsMemory s t) ∧
       (∀ j, j ∉ s.cur.keys → mget? t.threads j = mget? s.threads j) ∧ ∀ k ∈ s.cur.keys,
         let a := getReg (thr s k) rs1.toNat
         let b := getReg (thr s k) rs2.toNat
         let taken : Bool := match op with
           | .beq => a = b | .bne => a ≠ b | .blt => decide (a.toInt < b.toInt) | .bge => decide (b.toInt ≤ a.toInt)
           | .bltu => decide (a.toNat < b.toNat) | .bgeu => decide (b.toNat ≤ a.toNat)
         thr t k = { thr s k with
           pc := if taken then (thr s k).pc + (imm ++ (0 : BitVec 1) : BitVec 13).signExtend 64 else (thr s k).pc + w64 s.cur.len }) ∧
     (∃ t, exec .pause s = .next t ∧ OnlyThreads s.cur.keys s t ∧ ∀ k ∈ s.cur.keys,
       EndsStd 0 0 s.cur.len (thr s k) (thr t k))) ∧
  (∀ s k, s.cur.keys = [k] → isCob k = false → fpOff s k = false →
     let t0 := thr s k
     let runs := fun (i : Std) (rd : Nat) (r : Word × Nat) => (isSimt k = true → fpTraps t0 r.2 = false) →
       ∃ t, exec (.standardInstruction i) s = .next t ∧ t = { s with threads := t.threads, harts := t.harts } ∧
         (∀ j, j ≠ k → mget? t.threads j = mget? s.threads j ∧ hart t j = hart s j) ∧ (rd ≠ 0 → getReg (thr t k) rd = r.1) ∧
         KeepsRegs [rd] t0 (thr t k) ∧ (thr t k).pc = t0.pc + w64 s.cur.len ∧
         thr t k = { t0 with x := (thr t k).x, f := (thr t k).f, pc := (thr t k).pc, fcsr := t0.fcsr ||| w64 (r.2 % 32) } ∧
         (isHart k = true → bits (hart t k).mstatus 14 13 = 3)
     (∀ op d rm rd rs1 rs2 m, (if fp2Rounds op then stdRm t0 rm else some .rne) = some m →
       runs (.fp2 op d rm rd rs1 rs2) ((if fp2ToX op then 0 else 32) + rd.toNat) (stdFp2 op d m (getF t0 rs1) (getF t0 rs2))) ∧
     (∀ op d rm rd rs1 rs2 rs3 m, stdRm t0 rm = some m →
       runs (.fp3 op d rm rd rs1 rs2 rs3) (32 + rd.toNat) (stdFp3 op d m (getF t0 rs1) (getF t0 rs2) (getF t0 rs3))) ∧
     (∀ op d rm rd rs1 m, (if fp1Rounds op then stdRm t0 rm else some .rne) = some m →
       runs (.fp1 op d rm rd rs1) ((if fp1ToX op then 0 else 32) + rd.toNat)
         (stdFp1 op d m (if fp1FromX op then getX t0 rs1 else getF t0 rs1))) ∧
     (∀ op d rm rd rs1 rs2 rs3, stdRm t0 rm = none →
       exec (.standardInstruction (.fp3 op d rm rd rs1 rs2 rs3)) s = .next (stdIllegal s k))) ∧
  (∀ s k, s.cur.keys = [k] → isCob k = true →
     let t0 := thr s k
     let x := k - 0x20_0000
     let cost := fun (s1 t : State) => t = { s1 with threads := t.threads, slices := t.slices } ∧
       ∀ j, j ≠ k → mget? t.threads j = mget? s1.threads j
     let fits := fun (s1 : State) (n : Nat) =>
       n = 0 ∨ ∀ r b, running? s1 x = some (r, b) → r.cycles + n < (if b.budget = 0 then 512 else b.budget)
     (∀ op rd rs1 rs2, fits s (aluCycles op) → ∃ t, exec (.standardInstruction (.alu op rd rs1 rs2)) s = .next t ∧ cost s t ∧
       EndsStd rd.toNat (aluOp op (getReg t0 rs1.toNat) (getReg t0 rs2.toNat)) s.cur.len t0 (thr t k)) ∧
     (∀ op rd rs1 imm, ∃ t, exec (.standardInstruction (.alui op rd rs1 imm)) s = .next t ∧ cost s t ∧
       EndsStd rd.toNat (aluImmOp op (getReg t0 rs1.toNat) imm) s.cur.len t0 (thr t k)) ∧
     (∀ op rs1 rs2 imm, fits s (if branchTaken op (getReg t0 rs1.toNat) (getReg t0 rs2.toNat) then 1 else 0) →
       ∃ t, exec (.conditionalBranch op rs1 rs2 imm) s = .next t ∧ cost s t ∧
         thr t k = { t0 with pc := (if branchTaken op (getReg t0 rs1.toNat) (getReg t0 rs2.toNat)
           then t0.pc + (imm ++ (0 : BitVec 1) : BitVec 13).signExtend 64 else t0.pc + w64 s.cur.len) }) ∧
     (∀ op rd rs1 imm n sgn box bs cyc s1, loadKind op = .load n sgn box → loadFloat op = false →
       cobAccess s x (getReg t0 rs1.toNat + imm.signExtend 64) n false [] = (.ok bs cyc, s1) → fits s1 cyc →
       ∃ t, exec (.standardInstruction (.load op rd rs1 imm)) s = .next t ∧ cost s1 t ∧
         EndsStd rd.toNat (extend n sgn false bs) s.cur.len (thr s1 k) (thr t k)) ∧
     (∀ op rs1 rs2 imm bs cyc s1, storeFloat op = false →
       cobAccess s x (getReg t0 rs1.toNat + imm.signExtend 64) (storeBytes op) true
         (toBytes (storeBytes op) (getReg t0 rs2.toNat).toNat) = (.ok bs cyc, s1) → fits s1 cyc →
       ∃ t, exec (.standardInstruction (.store op rs1 rs2 imm)) s = .next t ∧ cost s1 t ∧
         EndsStd 0 0 s.cur.len (thr s1 k) (thr t k)))

/-- R9, R443: on a hart a load, a store and an atomic are performed at once where the address lands in memory: rd takes the loaded
value, the bytes stored are the form's, at the physical address that the access reaches, and every other byte is as the
translation left it. A misaligned one takes its exception. A store of 4 bytes to the page of an interrupt file is a message: it writes no
memory (R10, log 12).

Standard A on a hart: a store-conditional writes and gives 0 where the reservation of its load-reserve stands, and gives 1 and
writes nothing where none does; either way the reservation is gone.

How long a reservation stands is the model's (log 8). -/
def Obligations.HartMemory : Prop :=
  (∀ s k, s.cur.keys = [k] → isHart k = true →
     (∀ op rd rs1 imm n sgn box pa pat s1, loadKind op = .load n sgn box → (loadFloat op = true → fpOff s k = false) →
       let va := getReg (thr s k) rs1.toNat + imm.signExtend 64
       va.toNat % n = 0 → reach s k va n .load true = (.ok (.mem pa pat), s1) →
       ∃ t, exec (.standardInstruction (.load op rd rs1 imm)) s = .next t ∧
         EndsStd ((if loadFloat op then 32 else 0) + rd.toNat) (extend n sgn box (rdBytes s1 pa n)) s.cur.len (thr s1 k) (thr t k) ∧
         KeepsMemory s1 t) ∧
     (∀ op rs1 rs2 imm pa pat s1, (storeFloat op = true → fpOff s k = false) →
       let va := getReg (thr s k) rs1.toNat + imm.signExtend 64
       let n := storeBytes op
       let v := getReg (thr s k) ((if storeFloat op then 32 else 0) + rs2.toNat)
       va.toNat % n = 0 → reach s k va n .store true = (.ok (.mem pa pat), s1) →
       ∃ t, exec (.standardInstruction (.store op rs1 rs2 imm)) s = .next t ∧
         EndsStd 0 0 s.cur.len (thr s1 k) (thr t k) ∧
         (¬ (n = 4 ∧ pa % 4096 < 8 ∧ pa / 4096 ∈ s1.intPages) →
           (∀ j < n, Memory.byte t.mem (pa + j) = BitVec.ofNat 8 (v.toNat / 256 ^ j)) ∧
           ∀ a, a < pa ∨ pa + n ≤ a → Memory.byte t.mem a = Memory.byte s1.mem a) ∧
         (n = 4 → pa % 4096 = 0 → pa / 4096 ∈ s1.intPages → KeepsMemory s1 t ∧
           let id := v.toNat % 2 ^ 32
           t.msis = s1.msis ++ if 0 < id ∧ id < 2048 then [(pa / 4096 % 2 ^ 52, id)] else [])) ∧
     (∀ op d aq rl rd rs1 rs2 pa pat s1,
       let va := getReg (thr s k) rs1.toNat
       let n := atomBytes d
       let old := ofBytes (rdBytes s1 pa n)
       va.toNat % n = 0 → reach s k va n .store false = (.ok (.mem pa pat), s1) →
       ∃ t, exec (.standardInstruction (.amo op d aq rl rd rs1 rs2)) s = .next t ∧
         EndsStd rd.toNat (sext (8 * n) old) s.cur.len (thr s1 k) (thr t k) ∧
         ofBytes (rdBytes t pa n) = amoResult op n old (getReg (thr s k) rs2.toNat).toNat % 256 ^ n ∧
         ∀ a, a < pa ∨ pa + n ≤ a → Memory.byte t.mem a = Memory.byte s1.mem a) ∧
     (∀ op rd rs1 imm n sgn box, loadKind op = .load n sgn box → (loadFloat op = true → fpOff s k = false) →
       let va := getReg (thr s k) rs1.toNat + imm.signExtend 64
       va.toNat % n ≠ 0 →
       ∃ t, exec (.standardInstruction (.load op rd rs1 imm)) s = .next t ∧ TakesException k 4 va (thr s k).pc s t) ∧
     (∀ op rs1 rs2 imm, (storeFloat op = true → fpOff s k = false) →
       let va := getReg (thr s k) rs1.toNat + imm.signExtend 64
       va.toNat % storeBytes op ≠ 0 →
       ∃ t, exec (.standardInstruction (.store op rs1 rs2 imm)) s = .next t ∧ TakesException k 6 va (thr s k).pc s t) ∧
     (∀ op d aq rl rd rs1 rs2, let va := getReg (thr s k) rs1.toNat
       va.toNat % atomBytes d ≠ 0 →
       (∃ t, exec (.standardInstruction (.amo op d aq rl rd rs1 rs2)) s = .next t ∧ TakesException k 6 va (thr s k).pc s t) ∧
       (∃ t, exec (.standardInstruction (.sc d aq rl rd rs1 rs2)) s = .next t ∧ TakesException k 6 va (thr s k).pc s t) ∧
       ∃ t, exec (.standardInstruction (.lr d aq rl rd rs1)) s = .next t ∧ TakesException k 4 va (thr s k).pc s t)) ∧
  (∀ s k d aq rl rd rs1 pa pat s1, s.cur.keys = [k] → isHart k = true →
     let va := getReg (thr s k) rs1.toNat
     let n := atomBytes d
     va.toNat % n = 0 →
     (reach s k va n .load false = (.ok (.mem pa pat), s1) →
       ∃ t, exec (.standardInstruction (.lr d aq rl rd rs1)) s = .next t ∧ KeepsMemory s1 t ∧
         EndsStd rd.toNat (sext (8 * n) (ofBytes (rdBytes s1 pa n))) s.cur.len (thr s1 k) (thr t k) ∧ (k, pa, n) ∈ t.resvs) ∧
     (∀ rs2, reach s k va n .store false = (.ok (.mem pa pat), s1) →
       ∃ t, exec (.standardInstruction (.sc d aq rl rd rs1 rs2)) s = .next t ∧ (∀ r ∈ t.resvs, r.1 ≠ k) ∧
         ((k, pa, n) ∈ s1.resvs → EndsStd rd.toNat 0 s.cur.len (thr s1 k) (thr t k) ∧
           ofBytes (rdBytes t pa n) = (getReg (thr s k) rs2.toNat).toNat % 256 ^ n ∧
           ∀ a, a < pa ∨ pa + n ≤ a → Memory.byte t.mem a = Memory.byte s1.mem a) ∧
         ((k, pa, n) ∉ s1.resvs → EndsStd rd.toNat 1 s.cur.len (thr s1 k) (thr t k) ∧ KeepsMemory s1 t)))

/-- R359, R361, R434: the cache-block operations. On a SIMT thread each joins the operations that the thread has issued. On a hart
that may run it, it is performed: `cbo.zero` sets the 64 bytes of the line to zero and no other byte, `cbo.clean` leaves no
dirty copy of the line, `cbo.flush` and `cbo.inval` no copy at all.

The line that `cbo.zero` displaces raises no event that is dropped, where the events' queues have room (R417).

What `cbo.inval` leaves of bytes that were written since the line was last written back is one of their values since then (log 10). -/
def Obligations.CacheBlocks : Prop :=
  ∀ s k rs1, s.cur.keys = [k] →
    let va := getReg (thr s k) rs1.toNat
    (isSimt k = true → (thr s k).helper = false → ∀ i which,
      (i, which) ∈ [(Instr.cboClean rs1, 0), (.cboFlush rs1, 1), (.cboInval rs1, 2), (.cboZero rs1, 3)] →
      ∃ t, exec i s = .next t ∧ OnlyThreads [k] s t ∧
        thr t k = { thr s k with
          pc := (thr s k).pc + w64 s.cur.len
          ops := (thr s k).ops ++ [{ pc := s.cur.pc, bits := s.cur.bits, op1 := va, op2 := 0, kind := .cbo which, rd := 0
                                     sent := false, value := 0, grp := s.nextId + 1 }] }) ∧
    (isHart k = true → (hart s k).mode = .machine → ∀ pa pat s1,
      (reach s k (va &&& ~~~ 63#64) 64 .store true = (.ok (.mem pa pat), s1) → pa % 64 = 0 →
        (∀ x, (slice s1 x).queue.length + (slice s1 x).sets.length ≤ 64) →
        ∃ t, exec (.cboZero rs1) s = .next t ∧ EndsStd 0 0 s.cur.len (thr s1 k) (thr t k) ∧
          (∀ j < 64, Memory.byte t.mem (pa + j) = 0) ∧
          ∀ a, a < pa ∨ pa + 64 ≤ a → Memory.byte t.mem a = Memory.byte s1.mem a) ∧
      (reach s k (va &&& ~~~ 63#64) 64 .load false = (.ok (.mem pa pat), s1) →
        (∃ t, exec (.cboClean rs1) s = .next t ∧ EndsStd 0 0 s.cur.len (thr s1 k) (thr t k) ∧
          ∀ l ∈ t.l1, l.line = pa / 64 → l.dirty = []) ∧
        (∃ t, exec (.cboFlush rs1) s = .next t ∧ EndsStd 0 0 s.cur.len (thr s1 k) (thr t k) ∧ ∀ l ∈ t.l1, l.line ≠ pa / 64) ∧
        (∃ t, exec (.cboInval rs1) s = .next t ∧ EndsStd 0 0 s.cur.len (thr s1 k) (thr t k) ∧
          (∀ l ∈ t.l1, l.line ≠ pa / 64) ∧ ∀ a, Memory.byte t.mem a = Memory.byte s1.mem a ∨
            (a / 64 = pa / 64 ∧ ∃ old, (a, old) ∈ s1.stale ∧ Memory.byte t.mem a ∈ old))))

/-- R9, R443: `ecall` and `ebreak` on a hart take the standard exceptions, codes 8, 9 and 11 by mode and 3, in S mode where they are
delegated; an instruction that its mode refuses takes code 2 with the instruction's bits.

The standard returns: `mret` in M mode and `sret` in S mode put the mode of MPP or SPP, MIE or SIE from MPIE or SPIE, and the pc
of `mepc` or `sepc` in force, and change nothing else. `wfi` waits for an interrupt that is enabled, and `sfence.vma` drops entries
of the hart's own cache. R472's cause 0x12 is that of `ebreak` on a SIMT thread.

The layout of the standard registers is that of the family (log 12). -/
def Obligations.HartExceptionsAndReturns : Prop :=
  (∀ s k, s.cur.keys = [k] → isHart k = true →
     (∃ t, exec .ecall s = .next t ∧ TakesException k (8 + (hart s k).mode.code) 0 (thr s k).pc s t) ∧
     (∃ t, exec (.standardInstruction .ebreak) s = .next t ∧ TakesException k 3 s.cur.pc (thr s k).pc s t) ∧
     ((hart s k).mode ≠ .machine →
       ∃ t, exec (.standardInstruction .mret) s = .next t ∧ TakesException k 2 s.cur.bits (thr s k).pc s t) ∧
     ((hart s k).mode = .user →
       (∃ t, exec (.standardInstruction .sret) s = .next t ∧ TakesException k 2 s.cur.bits (thr s k).pc s t) ∧
       (∃ t, exec (.standardInstruction .wfi) s = .next t ∧ TakesException k 2 s.cur.bits (thr s k).pc s t) ∧
       ∀ rs1 rs2, ∃ t, exec (.standardInstruction (.sfencevma rs1 rs2)) s = .next t ∧
         TakesException k 2 s.cur.bits (thr s k).pc s t)) ∧
  (∀ s k, s.cur.keys = [k] → isHart k = true →
     ((hart s k).mode = .machine →
       ∃ t, exec (.standardInstruction .mret) s = .next t ∧ OnlyHart k s t ∧ (hart t k).mode = modeOf (bits (hart s k).mstatus 12 11) ∧
         bit (hart t k).mstatus 3 = bit (hart s k).mstatus 7 ∧ bit (hart t k).mstatus 7 = true ∧ bits (hart t k).mstatus 12 11 = 0 ∧
         thr t k = { thr s k with pc := (hart s k).mepc }) ∧
     ((hart s k).mode = .supervisor → bit (hart s k).mstatus 22 = false →
       ∃ t, exec (.standardInstruction .sret) s = .next t ∧ OnlyHart k s t ∧
         (hart t k).mode = (if bit (hart s k).mstatus 8 then .supervisor else .user) ∧
         bit (hart t k).mstatus 1 = bit (hart s k).mstatus 5 ∧ bit (hart t k).mstatus 5 = true ∧ bit (hart t k).mstatus 8 = false ∧
         thr t k = { thr s k with pc := (hart s k).sepc })) ∧
  (∀ s k, s.cur.keys = [k] → isHart k = true → (hart s k).mode ≠ .user →
     (((hart s k).mode = .machine ∨ bit (hart s k).mstatus 21 = false) →
       ((hart s k).wanted ≠ 0 → ∃ t, exec (.standardInstruction .wfi) s = .next t ∧ OnlyThreads [k] s t ∧
         EndsStd 0 0 s.cur.len (thr s k) (thr t k)) ∧
       ((hart s k).wanted = 0 → ∃ t, exec (.standardInstruction .wfi) s = .next t ∧ OnlyThreads [k] s t ∧
         thr t k = { thr s k with wait := .wfi })) ∧
     (trapsVm s k = false → ∀ rs1 rs2, ∃ t, exec (.standardInstruction (.sfencevma rs1 rs2)) s = .next t ∧
       t = { s with threads := t.threads, tlb := t.tlb } ∧ EndsStd 0 0 s.cur.len (thr s k) (thr t k) ∧ (∀ e ∈ t.tlb, e ∈ s.tlb) ∧
       (∀ e ∈ s.tlb, e.cache ≠ 0x1000 + (k - 0x10_0000) → e ∈ t.tlb) ∧
       (rs1 = 0 → rs2 = 0 → ∀ e ∈ t.tlb, e.cache ≠ 0x1000 + (k - 0x10_0000)))) ∧
  (∀ s k, s.cur.keys = [k] → isSimt k = true → exec (.standardInstruction .ebreak) s = .next (raise s k 0x12 0 .load))

/-- R434, R435: a load, store or atomic of a SIMT thread joins the operations it has issued and the pc goes on; OPERATION_SENT
performs the oldest one not sent, and OPERATION_FINISH ends one that was sent, whose destination takes its value. -/
def Obligations.ThreadOperations : Prop :=
  (∀ s k op rd rs1 imm n sgn box, s.cur.keys = [k] → isSimt k = true → loadKind op = .load n sgn box →
    let va := getReg (thr s k) rs1.toNat + imm.signExtend 64
    va.toNat % n = 0 →
    ∃ t, exec (.standardInstruction (.load op rd rs1 imm)) s = .next t ∧ OnlyThreads [k] s t ∧
      thr t k = { thr s k with
        pc := (thr s k).pc + w64 s.cur.len
        ops := (thr s k).ops ++ [{ pc := s.cur.pc, bits := s.cur.bits, op1 := va, op2 := 0, kind := loadKind op
                                   rd := (if loadFloat op then 32 else 0) + rd.toNat, sent := false, value := 0
                                   grp := s.nextId + 1 }] }) ∧
  (∀ s k i kind va op2, s.cur.keys = [k] → isSimt k = true → (thr s k).helper = false →
    ((∃ op rs1 rs2 imm, i = Std.store op rs1 rs2 imm ∧ kind = .store (storeBytes op) ∧
        va = getReg (thr s k) rs1.toNat + imm.signExtend 64 ∧ op2 = getReg (thr s k) ((if storeFloat op then 32 else 0) + rs2.toNat)) ∨
      (∃ op d aq rl rd rs1 rs2, i = Std.amo op d aq rl rd rs1 rs2 ∧ kind = .amo op (atomBytes d) ∧ va = getReg (thr s k) rs1.toNat ∧
        op2 = getReg (thr s k) rs2.toNat) ∨
      (∃ d aq rl rd rs1, i = Std.lr d aq rl rd rs1 ∧ kind = .lr (atomBytes d) ∧ va = getReg (thr s k) rs1.toNat ∧ op2 = 0) ∨
      (∃ d aq rl rd rs1 rs2, i = Std.sc d aq rl rd rs1 rs2 ∧ kind = .sc (atomBytes d) ∧ va = getReg (thr s k) rs1.toNat ∧
        op2 = getReg (thr s k) rs2.toNat)) →
    (va.toNat % opSize kind = 0 → ∃ t p, exec (.standardInstruction i) s = .next t ∧ OnlyThreads [k] s t ∧
      thr t k = { thr s k with pc := (thr s k).pc + w64 s.cur.len, ops := (thr s k).ops ++ [p] } ∧ p.kind = kind ∧ p.op1 = va ∧
      p.op2 = op2 ∧ p.pc = s.cur.pc ∧ p.bits = s.cur.bits ∧ p.sent = false) ∧
    (va.toNat % opSize kind ≠ 0 → exec (.standardInstruction i) s = .next (raise s k 0x08 va (opAcc kind)))) ∧
  (∀ s k i p pa pat s1 n, isSimt k = true → occupied s k = true → (thr s k).chain.live = false → (thr s k).st = .ready →
    firstUnsent (thr s k) = some (i, p) → p.kind = .store n → needsWalk s k p.op1 .store = false →
    raceWaits s k p = false →
    reach s k p.op1 n .store true = (.ok (.mem pa pat), s1) → managed pat = false →
    ¬ (n = 4 ∧ pa % 4096 < 8 ∧ pa / 4096 ∈ s1.intPages) →
    ∃ t, exec (.operationSent k) s = .next t ∧
      (thr t k).ops = (thr s1 k).ops.set i { p with sent := true, value := 0 } ∧ KeepsRegs [] (thr s1 k) (thr t k) ∧
      (∀ j < n, Memory.byte t.mem (pa + j) = BitVec.ofNat 8 (p.op2.toNat / 256 ^ j)) ∧
      ∀ a, a < pa ∨ pa + n ≤ a → Memory.byte t.mem a = Memory.byte s1.mem a) ∧
  (∀ s k i p n sgn box, (thr s k).ops[i]? = some p → p.sent = true → p.kind = .load n sgn box →
    ∃ t, exec (.operationFinish k i) s = .next t ∧ OnlyThreads [k] s t ∧ KeepsMemory s t ∧
      (p.rd ≠ 0 → getReg (thr t k) p.rd = p.value) ∧ KeepsRegs [p.rd] (thr s k) (thr t k) ∧
      (thr t k).ops = (thr s k).ops.eraseIdx i)

/-- R13, R82: a CSR instruction that only reads gives the register's value to rd and changes nothing else; a hart in M mode that
writes `mscratch` keeps the value there; a mode below the register's takes exception 2; and on a SIMT thread a number outside
those of R82 is illegal.

R66, R67, R72, R261, R430: writes of `fcsr`, `lfsr`, `hvec`, `qflags` and `tlcfg` by a SIMT thread keep the fields that they have, and a
sticky bit of `qflags` is cleared by a 1; the old value goes to rd.

The registers of the standard are the family's (log 12). -/
def Obligations.CsrAccess : Prop :=
  ∀ s k, s.cur.keys = [k] →
    (∀ op ui rd n old, op ≠ .rw → csrRead s k n.toNat = some old → csrShut s k n.toNat = false → isMcycle n.toNat = false →
      ∃ t, exec (.standardInstruction (.csr op ui rd 0 n)) s = .next t ∧ OnlyThreads [k] s t ∧
        EndsStd rd.toNat old s.cur.len (thr s k) (thr t k)) ∧
    (isHart k = true → (hart s k).mode = .machine → ∀ rd rs1,
      ∃ t, exec (.standardInstruction (.csr .rw false rd rs1 0x340)) s = .next t ∧ OnlyHart k s t ∧
        hart t k = { hart s k with mscratch := getReg (thr s k) rs1.toNat } ∧
        EndsStd rd.toNat (hart s k).mscratch s.cur.len (thr s k) (thr t k)) ∧
    (isHart k = true → ∀ op ui rd rs1 n old, csrRead s k n.toNat = some old → (hart s k).mode.code < csrMode n.toNat →
      ∃ t, exec (.standardInstruction (.csr op ui rd rs1 n)) s = .next t ∧ TakesException k 2 s.cur.bits (thr s k).pc s t) ∧
    (isSimt k = true → ∀ op ui rd rs1 n, userCsr s k n.toNat = none →
      exec (.standardInstruction (.csr op ui rd rs1 n)) s = .next (raiseIllegal s k .standard)) ∧
    (isSimt k = true → ∀ rd rs1, let t0 := thr s k
      let v := getReg t0 rs1.toNat
      let writes := fun (n : BitVec 12) (old : Word) (u : Thread) =>
        ∃ t, exec (.standardInstruction (.csr .rw false rd rs1 n)) s = .next t ∧ OnlyThreads [k] s t ∧
          (rd ≠ 0 → getReg (thr t k) rd.toNat = old) ∧ KeepsRegs [rd.toNat] t0 (thr t k) ∧
          thr t k = { u with x := (thr t k).x, pc := t0.pc + w64 s.cur.len }
      writes 0x003 (w64 (bits t0.fcsr 7 0)) { t0 with fcsr := w64 (bits v 7 0) } ∧
      writes 0x820 t0.lfsr { t0 with lfsr := w64 (bits v 31 0) } ∧
      writes 0x822 t0.trap.hvec { t0 with trap := { t0.trap with hvec := v &&& ~~~ 1#64 } } ∧
      writes 0x82A t0.qflags { t0 with qflags := (v &&& 0x1F10) ||| (t0.qflags &&& 7 &&& ~~~ v) } ∧
      ∀ m n, teamK? s k = some m → t0.helper = false → n < 32 → n < m.desc.tiles →
        ∃ t m', exec (.standardInstruction (.csr .rw false rd rs1 (BitVec.ofNat 12 (0x800 + n)))) s = .next t ∧ KeepsMemory s t ∧
          (rd ≠ 0 → getReg (thr t k) rd.toNat = mget 0 m.tlcfg n) ∧ KeepsRegs [rd.toNat] t0 (thr t k) ∧
          thr t k = { t0 with x := (thr t k).x, pc := t0.pc + w64 s.cur.len } ∧ teamK? t k = some m' ∧
          mget 0 m'.tlcfg n = w64 (bits v 23 0) ∧ ∀ j, j ≠ n → mget 0 m'.tlcfg j = mget 0 m.tlcfg j)

/-! Threads: exit, migration, creation, and their events. -/

/-- R131, R132, R134: `mig` of a SIMT thread. A handle that R132 refuses gives its status and moves nothing; a thread that is at
the place already gets 0 and stays; any other leaves its slot with its frame written, STATE migrating and the pc after the
word, for the return queue (a handle of the latency side) or on its way to the die that the handle names.

R123, R137, R139: `texit` on a SIMT thread that is solo frees the slot; the frame is written with STATE exited and the exit
value in its a0, the return queue gets a posting with REASON 3, and no byte outside the frame changes. R212: a task thread's posts nothing
and writes no frame; its slot is free.

R135: on a hart a `mig` to a SIMT placement takes exception 25 and a `texit` exception 26, delegated or in M mode, at the instruction with
the frame's address, after the frame is written. -/
def Obligations.MigrationAndExit : Prop :=
  (∀ s k w, s.cur.keys = [k] → isSimt k = true → occupied s k = true →
     let h := src (thr s k) w.s1
     let a := (thr s k).frame
     (handleCheck s k h ≠ 0 → ∃ t, exec (.mig w) s = .next t ∧ OnlyThreads [k] s t ∧
       EndsWith w (w64 (handleCheck s k h)) (thr s k) (thr t k)) ∧
     (handleCheck s k h = 0 → atPlace k (thr s k) h = true → ∃ t, exec (.mig w) s = .next t ∧ OnlyThreads [k] s t ∧
       EndsWith w 0 (thr s k) (thr t k)) ∧
     (handleCheck s k h = 0 → atPlace k (thr s k) h = false → (thr s k).helper = false → inRanges s (thr s k).part a 1024 = true →
       postClear s (agentDie k) a 1024 = true →
       ∃ t, exec (.mig w) s = .next t ∧ occupied t k = false ∧ bits (rdWord t a) 3 0 = 2 ∧ rdWord t (a + 8) = (thr s k).pc + 8 ∧
         (∀ b, b < a ∨ a + 1024 ≤ b → Memory.byte t.mem b = Memory.byte s.mem b) ∧
         (hKind h = 2 → (part t (thr s k).part).retPend = (part s (thr s k).part).retPend ++ [(a, 0)]) ∧
         (hKind h = 1 → ∃ x, t.transits = s.transits ++ [x] ∧ x.frame = a ∧ x.kind = 1 ∧
           x.target = (if bit h 2 then 4 else bits h 1 0)))) ∧
  (∀ s k w, s.cur.keys = [k] → isSimt k = true → (thr s k).helper = false → (thr s k).task = false → (thr s k).team = 0 →
     occupied s k = true → postClear s (agentDie k) (thr s k).frame 1024 = true →
     let a := (thr s k).frame
     let p := (thr s k).part
     ∃ t, exec (.texit w) s = .next t ∧ occupied t k = false ∧ (∀ j, j ≠ k → mget? t.threads j = mget? s.threads j) ∧
       bits (rdWord t a) 3 0 = 7 ∧ bit (rdWord t a) 20 = true ∧ rdWord t (a + 88) = src (thr s k) w.s1 ∧
       rdWord t (a + 8) = (thr s k).pc ∧ (∀ b, b < a ∨ a + 1024 ≤ b → Memory.byte t.mem b = Memory.byte s.mem b) ∧
       (part t p).retPend = (part s p).retPend ++ [(a, 3)] ∧ (ended? t p (thr s k).tid).isSome = true) ∧
  (∀ s k w, s.cur.keys = [k] → isSimt k = true → (thr s k).helper = false → (thr s k).task = true → occupied s k = true →
     ∃ t, exec (.texit w) s = .next t ∧ occupied t k = false ∧ (∀ j, j ≠ k → mget? t.threads j = mget? s.threads j) ∧
       KeepsMemory s t ∧ (part t (thr s k).part).retPend = (part s (thr s k).part).retPend ∧ t.held = s.held) ∧
  (∀ s k w, s.cur.keys = [k] → isHart k = true → (thr s k).helper = false →
     let h := src (thr s k) w.s1
     let a := (hart s k).tframe.toNat
     let p := partOf s k
     let departs := fun (code : Nat) (t : State) =>
       (if (hart s k).mode ≠ .machine ∧ bit (hart s k).medeleg code = true then
          (hart t k).mode = .supervisor ∧ (hart t k).scause = w64 code ∧ (hart t k).sepc = (thr s k).pc ∧ (hart t k).stval = w64 a
        else (hart t k).mode = .machine ∧ (hart t k).mcause = w64 code ∧ (hart t k).mepc = (thr s k).pc ∧ (hart t k).mtval = w64 a) ∧
       (∀ b, b < a ∨ a + 1024 ≤ b → Memory.byte t.mem b = Memory.byte s.mem b)
     inRanges s p a 1024 = true → recordHeld s k a 8 = none → postClear s (agentDie k) a 1024 = true →
     (occupied s k = true → handleCheck s k h = 0 → hKind h ≠ 2 → ∃ t x, exec (.mig w) s = .next t ∧ departs 25 t ∧
       bits (rdWord t a) 3 0 = 2 ∧ rdWord t (a + 8) = (thr s k).pc + 8 ∧ t.transits = s.transits ++ [x] ∧ x.frame = a ∧ x.kind = hKind h) ∧
     ((thr s k).team = 0 → ∃ t, exec (.texit w) s = .next t ∧ departs 26 t ∧ bits (rdWord t a) 3 0 = 7 ∧
       rdWord t (a + 8) = (thr s k).pc ∧ rdWord t (a + 88) = h ∧ (ended? t p (thr s k).tid).isSome = true))

/-- R140: `tspawn` of a member. An odd start address gives status 2 and too large a number status 1, and neither creates a
thread; else the result is the first new index, the count grows, and each new index has a thread with its pc at the start
address, its index in a0 and the argument in a1. -/
def Obligations.SpawnCreates : Prop :=
  ∀ s k w m, s.cur.keys = [k] → isSimt k = true → (thr s k).helper = false → teamK? s k = some m →
    let start := src (thr s k) w.s1
    let n := (src (thr s k) w.s2).toNat
    (bit start 0 = true → ∃ t, exec (.tspawn w) s = .next t ∧ OnlyThreads [k] s t ∧ EndsWith w (stw 2) (thr s k) (thr t k)) ∧
    (bit start 0 = false → m.desc.limit - m.count < n →
      ∃ t, exec (.tspawn w) s = .next t ∧ OnlyThreads [k] s t ∧ EndsWith w (stw 1) (thr s k) (thr t k)) ∧
    (bit start 0 = false → n ≤ m.desc.limit - m.count → ((List.range m.desc.l4).map (memberKey m)).Nodup →
        (∀ i < m.desc.l4, m.count ≤ i → memberKey m i ≠ k) →
      ∃ t, exec (.tspawn w) s = .next t ∧ EndsWith w (w64 m.count) (thr s k) (thr t k) ∧
        (team t m.part m.asid m.num).count = m.count + n ∧ KeepsMemory s t ∧
        ∀ i, m.count ≤ i → i < m.count + n →
          let u := thr t (memberKey m i)
          u.pc = start ∧ getReg u 10 = w64 i ∧ getReg u 11 = src (thr s k) w.s3 ∧ u.tidx = i ∧ u.helper = false ∧
          u.trap.hvec = (thr s k).trap.hvec)

/-- R134: a solo thread's frame on its way to a die loads into the idle slot named, with what the frame holds, and is on its way no
more. R145: a thread that has been ready without issuing for 4096 cycles is promoted. R151: a thread with a signal pending
leaves its slot at an instruction boundary, where its next instruction is no `mig` and no cause of higher rank waits (R432), for the
latency side, with REASON 1 and CAUSE 0x17.

R137, R138: the oldest posting takes the ring's next slot, with its REASON in the low bits, and the tail moves on; a full ring
holds it back. -/
def Obligations.ThreadEventsAndPostings : Prop :=
  ((∀ s die cr lane slot x, s.transits = [x] → x.kind = 1 → x.task = none → x.target = die → die < 4 → poisoned s x.frame 1024 = false →
     postClear s die x.frame 1024 = true →
     ownsCore s x.part (64 * die + cr) = true → cr < 64 → (idleSlots s (64 * die + cr)).contains (slotKey die cr lane slot) = true →
     ∃ t, exec (.frameLoad 0 die cr lane slot) s = .next t ∧ t.transits = [] ∧ KeepsMemory s t ∧
       (∀ j, j ≠ slotKey die cr lane slot → mget? t.threads j = mget? s.threads j) ∧
       let u := thr t (slotKey die cr lane slot)
       u.st = .ready ∧ u.pc = setBit (rdWord s (x.frame + 8)) 0 false ∧ u.frame = x.frame ∧
       ∀ n, 0 < n → n < 32 → getReg u n = rdWord s (x.frame + 8 + 8 * n)) ∧
   (∀ s k, isSimt k = true → (thr s k).st = .ready → (thr s k).wait = .none → (thr s k).age + 4096 ≤ s.cycle →
     ∃ t, exec (.threadPromotion k) s = .next t ∧ OnlyThreads [k] s t ∧ thr t k = { thr s k with promoted := true }) ∧
   (∀ s k, isSimt k = true → occupied s k = true → (thr s k).st = .ready → (thr s k).wait = .none → (thr s k).sigpend = true →
     (thr s k).chain.live = false → slotOf k ≠ 15 → (thr s k).ops = [] → nextIsMig s k = false →
     (thr s k).chain.fp = none → (thr s k).pend0E = none → (thr s k).pend16 = none → (thr s k).held.length ≤ 8 →
     postClear s (agentDie k) (thr s k).frame 1024 = true →
     let a := (thr s k).frame
     ∃ t, exec (.signalMigration k) s = .next t ∧ occupied t k = false ∧ bits (rdWord t a) 3 0 = 2 ∧
       bit (rdWord t a) 22 = false ∧ bits (rdWord t a) 15 8 = 0x17 ∧ rdWord t (a + 8) = (thr s k).pc ∧
       (part t (thr s k).part).retPend = (part s (thr s k).part).retPend ++ [(a, 1)])) ∧
  (∀ s p fr reason rest, (part s p).retPend = (fr, reason) :: rest → fr % 16 = 0 → reason < 16 →
     let base := bits (part s p).retq 63 12 * 4096
     let n := ringSize (part s p).retq 20
     let tail := rdWord s (base + 8)
     inRanges s p base (0x40 + 8 * n) = true → poisoned s base 64 = false → ringClear s base 64 = true →
     ringClear s (base + 0x40 + 8 * (tail.toNat % n)) 8 = true → ringClear s fr 1024 = true →
     ((tail - rdWord s base).toNat < n → ∃ t, exec (.returnQueuePost p) s = .next t ∧ (part t p).retPend = rest ∧
       rdWord t (base + 8) = tail + 1 ∧ rdWord t (base + 0x40 + 8 * (tail.toNat % n)) = w64 (fr + reason) ∧
       t.threads = s.threads ∧ t.teams = s.teams) ∧
     (n ≤ (tail - rdWord s base).toNat → exec (.returnQueuePost p) s = .next s))

/-! Traps of threads. -/

/-- R433, R437: a cause that routes to the user is taken in the thread's handler: the pc goes to `hvec`, `hepc` holds where it was,
`hcause` the cause, `hdec0` and `hdec2` the instruction's bits and address, `hfva` the address of a memory cause; `hstat`.INH is
set. Where no handler is set, or one runs already, the thread parks and a fault record of KIND 1 is posted.

R439, R441: `hret` in a handler puts the pc to `hepc`, clears INH and gives back the held entries; outside one it only passes.
R440: `htrap` outside a handler raises the cause that its operand names, after it has completed. -/
def Obligations.HandlerEntryAndReturn : Prop :=
  (∀ s k tr acc, isSimt k = true → (thr s k).helper = false → (thr s k).ops = [] → tr.dec = none →
     (routesUser tr.code = true → tr.priv = false → (thr s k).trap.hvec ≠ 0 → (thr s k).trap.inh = false →
       let t := raiseTrap s k tr acc
       OnlyThreads [k] s t ∧ (thr t k).pc = (thr s k).trap.hvec ∧ (thr t k).trap.hepc = (thr s k).pc ∧
       (thr t k).trap.hcause = w64 tr.code ∧ (thr t k).trap.hdec0 = tr.insn ∧ (thr t k).trap.hdec2 = tr.addr ∧
       (thr t k).trap.hfva = tr.va ∧ (thr t k).trap.inh = true ∧ (thr t k).trap.hvec = (thr s k).trap.hvec ∧
       KeepsRegs [] (thr s k) (thr t k)) ∧
     (routesUser tr.code = false ∨ (thr s k).trap.hvec = 0 ∨ (thr s k).trap.inh = true →
       let t := raiseTrap s k tr acc
       (thr t k).st = .parked ∧ (thr t k).pc = (thr s k).pc ∧ (thr t k).park = (thr s k).park + 1 ∧
       KeepsRegs [] (thr s k) (thr t k) ∧ (∀ j, j ≠ k → mget? t.threads j = mget? s.threads j) ∧
       ∃ r, (part t (thr s k).part).fqPend = (part s (thr s k).part).fqPend ++ [r] ∧ bits (dw r 0) 63 60 = tr.kind % 16 ∧
         bits (dw r 0) 55 48 = tr.code % 256 ∧ bits (dw r 0) 31 0 = (thr s k).tid % 2 ^ 32 ∧ dw r 1 = tr.addr ∧ dw r 2 = tr.va ∧
         dw r 6 = tr.insn ∧ bit (dw r 7) 0 = true)) ∧
  (∀ s k w, s.cur.keys = [k] → isSimt k = true →
     ((thr s k).trap.inh = true → ∃ t, exec (.hret w) s = .next t ∧ OnlyThreads [k] s t ∧ (thr t k).pc = (thr s k).trap.hepc ∧
       (thr t k).trap = { (thr s k).trap with flt := false, redo := false, inh := false } ∧ KeepsRegs [] (thr s k) (thr t k) ∧
       (thr t k).held = [] ∧ ((thr s k).trap.flt = false → (thr s k).ops = [] →
         (thr t k).ops = (thr s k).held.map fun e => { e with sent := false })) ∧
     ((thr s k).trap.inh = false → ∃ t, exec (.hret w) s = .next t ∧ OnlyThreads [k] s t ∧ EndsZero w (thr s k) (thr t k) ∧
       KeepsRest (thr s k) (thr t k)) ∧
     (let v := src (thr s k) w.s1
      htrapBad v = false → v ≠ 1 → routesUser v.toNat = true → (thr s k).helper = false → (thr s k).trap.inh = false →
       (thr s k).trap.hvec ≠ 0 → (thr s k).ops = [] → w.h = false →
       ∃ t, exec (.htrap w) s = .next t ∧ OnlyThreads [k] s t ∧ (thr t k).pc = (thr s k).trap.hvec ∧
         (thr t k).trap.hcause = v ∧ (thr t k).trap.hepc = (thr s k).pc + 8 ∧ KeepsRegs [] (thr s k) (thr t k)))

/-- R148, R149: an `ecall` whose call number the mailbox page enables puts its tid, pc and a0-a7 into the next record of its core's
mailbox, moves the tail and waits; any other migrates the thread to the latency side with REASON 2. R444: `mbpost` of a record's
number ends that wait, with a0 and a1 from the record and the pc after the `ecall`. -/
def Obligations.MailboxCalls : Prop :=
  (∀ s k n, s.cur.keys = [k] → isSimt k = true → (thr s k).helper = false → mailBad s (thr s k).part (coreOf k) = false →
    mailHeld s k = false → mailRoom s k = some n →
    let r := mailbox s (thr s k).part (coreOf k) + 0x80 + 128 * (n % 31)
    ∃ t, exec .ecall s = .next t ∧ (thr t k).st = .blocked ∧ (thr t k).wait = .mailbox (coreOf k) n ∧
      (thr t k).pc = (thr s k).pc ∧ KeepsRegs [] (thr s k) (thr t k) ∧ rdWord t r = w64 (thr s k).tid ∧
      rdWord t (r + 8) = (thr s k).pc ∧ (∀ i < 8, rdWord t (r + 16 + 8 * i) = getReg (thr s k) (10 + i)) ∧
      rdWord t (mailbox s (thr s k).part (coreOf k) + 0x48) = w64 (n + 1)) ∧
  (∀ s k, s.cur.keys = [k] → isSimt k = true → (thr s k).helper = false → mailBad s (thr s k).part (coreOf k) = false →
    mailHeld s k = false → mailRoom s k = none → slotOf k ≠ 15 → (thr s k).ops = [] →
    postClear s (agentDie k) (thr s k).frame 1024 = true →
    ∃ t, exec .ecall s = .next t ∧ occupied t k = false ∧ rdWord t ((thr s k).frame + 8) = (thr s k).pc ∧
      (part t (thr s k).part).retPend = (part s (thr s k).part).retPend ++ [((thr s k).frame, 2)]) ∧
  (∀ s k w x, s.cur.keys = [k] → isSimt k = true → slotOf k = 15 →
    let p := (thr s k).part
    let n := src (thr s k) w.s1
    let a := mailbox s p (coreOf k)
    let r := a + 0x80 + 128 * (n.toNat % 31)
    recordHeld s k a 4096 = none → inRanges s p a 4096 = true → (rdWord s (a + 0x40)).toNat ≤ n.toNat →
    n.toNat < (rdWord s (a + 0x48)).toNat → mailWaiter s p (coreOf k) n.toNat ((rdWord s r).toNat % 2 ^ 32) = some x → x ≠ k →
    rdWord s (r + 0x50) = 0 →
    ∃ t, exec (.mbpost w) s = .next t ∧ OnlyThreads [k, x] s t ∧ EndsWith w 0 (thr s k) (thr t k) ∧ (thr t x).st = .ready ∧
      (thr t x).pc = rdWord s (r + 8) + 4 ∧ getReg (thr t x) 10 = rdWord s (r + 0x58) ∧ getReg (thr t x) 11 = rdWord s (r + 0x60) ∧
      KeepsRegs [10, 11] (thr s x) (thr t x))

/-- R449, R450: `treplay` and `tresume` answer a fault record. A refused record gives St of its code; `treplay` of a parked
thread's record takes the thread's state from its frame again; `tresume` with action 0 clears VALID of the record and makes the
thread ready, its held entries issued again outside a handler.

R448: the oldest fault record takes the ring's next slot and the tail moves on; R453: a store that fails late waits on its
thread, wherever the thread is on a core; R454: an uncorrectable error stands in its line, and a pinned line is unlocked. -/
def Obligations.FaultRecords : Prop :=
  (∀ s k w, s.cur.keys = [k] → isCob k = false →
     let p := partOf s k
     let a := src (thr s k) w.s1
     let only := fun (ks : List Nat) (t : State) => t = { s with threads := t.threads, harts := t.harts } ∧
       (∀ j, j ∉ ks → mget? t.threads j = mget? s.threads j) ∧ (∀ j, j ≠ k → hart t j = hart s j) ∧
       hart t k = { hart s k with shut := false }
     answerHeld s k a = none →
     (∀ c, recordCheck s p a = .error c → c ≠ 0 →
       (∃ t, exec (.treplay w) s = .next t ∧ only [k] t ∧ EndsWith w (stw c) (thr s k) (thr t k)) ∧
       (∃ t, exec (.tresume w) s = .next t ∧ only [k] t ∧ EndsWith w (stw c) (thr s k) (thr t k))) ∧
     (∀ r x, recordCheck s p a = .ok (r, .here x) → x ≠ k →
       (recordShut s k (thr s x).frame 1024 = none → ∃ t, exec (.treplay w) s = .next t ∧ only [k, x] t ∧
         EndsWith w 0 (thr s k) (thr t k) ∧ (thr t x).st = (thr s x).st ∧
         (thr t x).pc = setBit (rdWord s ((thr s x).frame + 8)) 0 false ∧
         ∀ n, 0 < n → n < 32 → getReg (thr t x) n = rdWord s ((thr s x).frame + 8 + 8 * n)) ∧
       (src (thr s k) w.s2 = 0 → (thr s x).trap.inh = false → ∃ t, exec (.tresume w) s = .next t ∧
         EndsWith w 0 (thr s k) (thr t k) ∧ (thr t x).st = .ready ∧ (thr t x).pc = (thr s x).pc ∧
         (thr t x).ops = (thr s x).ops ++ (thr s x).held.map (fun e => { e with own := false, sent := false }) ∧ (thr t x).held = [] ∧
         KeepsRegs [] (thr s x) (thr t x) ∧ bit (rdWord t (a.toNat + 0x38)) 0 = false))) ∧
  ((∀ s p r rest, (part s p).fqPend = r :: rest → r.length = 8 →
     let base := bits (part s p).fq 63 12 * 4096
     let n := ringSize (part s p).fq 16
     let tail := rdWord s (base + 8)
     inRanges s p base (0x40 + 64 * n) = true → poisoned s base 64 = false → ringClear s base 64 = true → frameWritten s r = true →
     ringClear s (base + 0x40 + 64 * (tail.toNat % n)) 64 = true → (tail - rdWord s base).toNat < n →
     ∃ t, exec (.faultRecordPost p) s = .next t ∧ (part t p).fqPend = rest ∧ rdWord t (base + 8) = tail + 1 ∧
       (∀ i < 8, rdWord t (base + 0x40 + 64 * (tail.toNat % n) + 8 * i) = dw r i) ∧ t.threads = s.threads) ∧
   (∀ s p k u pc va, s.threads = [(k, u)] → isSimt k = true → u.part = p → u.helper = false → u.st ≠ .exited → u.away = false →
     ∃ t, exec (.impreciseStoreFault p u.tid pc va) s = .next t ∧ OnlyThreads [k] s t ∧
       thr t k = { u with pend0E := some (w64 pc, w64 va) }) ∧
   (∀ s pa, ∃ t, exec (.uncorrectableError pa) s = .next t ∧ KeepsMemory s t ∧ pa / 64 ∈ t.poison ∧ pa / 64 ∉ t.pinned ∧
     (∀ l, l ≠ pa / 64 → (l ∈ t.poison ↔ l ∈ s.poison) ∧ (l ∈ t.pinned ↔ l ∈ s.pinned)) ∧
     t = { s with poison := t.poison, pinned := t.pinned }))


/-! Teams. -/

/-- R176, R177, R179-R182, R187: `teamnew` reads its descriptor at the address in S1. An invalid descriptor gives 3 in the failure
form and creates nothing; with a core that fits and no request queued before it, the result is the lowest free number, and the
team of that number is resident on that core with the descriptor's fields, no member and empty storage; with none that fits,
and NOWAIT = 0, the issuer waits in the admission queue. -/
def Obligations.TeamCreation : Prop :=
  ∀ s k w l s1, s.cur.keys = [k] → isCob k = false → (thr s k).helper = false →
    descLoad s k (src (thr s k) w.s1) = (.ok l, s1) →
    let p := partOf s1 k
    let asid := asidK s1 k
    let d := descOf l
    (descBad s1 p l = true → ∃ t, exec (.teamnew w) s = .next t ∧ OnlyThreads [k] s1 t ∧
      EndsWith w (w64 (0xC000_0000_0000_0000 + 3)) (thr s1 k) (thr t k)) ∧
    (descBad s1 p l = false → hintBad s1 p d = false → noNumber s1 p asid = false → (part s1 p).admissions = [] →
      ∀ c n, hintPlace s1 p d (fun _ => 0) = some c → freeNumber s1 p asid = some n →
      ∃ t m, exec (.teamnew w) s = .next t ∧ EndsWith w (w64 n) (thr s1 k) (thr t k) ∧ (s1.l1 = [] → KeepsMemory s1 t) ∧
        (t.l1.filter (·.core = c)).length ≤ l1Lines t c ∧
        t.teams = s1.teams ++ [m] ∧ m.part = p ∧ m.asid = asid ∧ m.num = n ∧ m.st = .resident ∧ 64 * m.die + m.core = c ∧ m.desc = d ∧
        m.count = 0 ∧ m.members = [] ∧ m.scratch = [] ∧ m.tiles = [] ∧ m.accs = [] ∧ m.syncs = [] ∧ m.phase = 0) ∧
    (descBad s1 p l = false → hintBad s1 p d = false → noNumber s1 p asid = false → d.nowait = false →
      ((part s1 p).admissions ≠ [] ∨ hintPlace s1 p d (fun _ => 0) = none) →
      ∃ t, exec (.teamnew w) s = .next t ∧ t.teams = s1.teams ∧ KeepsMemory s1 t ∧ (thr t k).wait = .admission ∧
        (thr t k).pc = (thr s1 k).pc ∧ KeepsRegs [] (thr s1 k) (thr t k) ∧
        (part t p).admissions = (part s1 p).admissions ++ [{ key := k, desc := l }])

/-- R187: ADMISSION answers the oldest request of the queue when a core fits it: its issuer's `teamnew` completes with the number
of the new team. R188: `teamfree` of a team without live members, or of a saved or lost one, with nothing of it outstanding,
gives 0 and the team is gone; one with live members gives 6 and a number that names no team 2.

R189: what `teaminfo` reads of a team: STATUS with the serial, limit, count, HALT and state in their places, PLACE, the number of
its live real threads, or the phase count; its failures. -/
def Obligations.TeamAdmissionReleaseAndInfo : Prop :=
  ((∀ s p r c n, (part s p).admissions = [r] → (thr s r.key).st ≠ .halted → (thr s r.key).wait = .admission →
     let d := descOf r.desc
     let asid := asidK s r.key
     descBad s p r.desc = false → hintBad s p d = false → noNumber s p asid = false → hintPlace s p d (fun _ => 0) = some c →
     freeNumber s p asid = some n →
     ∃ t m, exec (.admission p) s = .next t ∧ (part t p).admissions = [] ∧ t.teams = s.teams ++ [m] ∧ m.num = n ∧ m.asid = asid ∧
       m.st = .resident ∧ m.desc = d ∧ EndsWith (thr s r.key).ww (w64 n) (thr s r.key) (thr t r.key) ∧
       ((thr s r.key).st = .blocked → (thr t r.key).st = .ready) ∧ (thr t r.key).wait = .none) ∧
   (∀ s k w, s.cur.keys = [k] → isCob k = false → (thr s k).helper = false →
     let h := src (thr s k) w.s1
     let p := partOf s k
     handleBad h = false →
     (handleTeam s p (asidK s k) h = none → ∃ t, exec (.teamfree w) s = .next t ∧ OnlyThreads [k] s t ∧
       EndsWith w 2 (thr s k) (thr t k)) ∧
     (∀ m, handleTeam s p (asidK s k) h = some m → m.st = .resident → liveReal m ≠ [] →
       ∃ t, exec (.teamfree w) s = .next t ∧ OnlyThreads [k] s t ∧ EndsWith w 6 (thr s k) (thr t k)) ∧
     (∀ m, handleTeam s p (asidK s k) h = some m → m.part = p → m.asid = asidK s k → m.num = bits h 31 0 → m.ops = 0 →
       k ∉ residents m → s.copies = [] → teamPasses s m = [] →
       ((m.st = .resident ∧ liveReal m = []) ∨ m.st = .saved ∨ m.st = .lost) →
       ∃ t, exec (.teamfree w) s = .next t ∧ EndsWith w 0 (thr s k) (thr t k) ∧ team? t p (asidK s k) m.num = none ∧
         (m.st = .resident → ∀ j ∈ residents m, occupied t j = false) ∧ KeepsMemory s t ∧
         ∀ q a n, (q, a, n) ≠ (p, asidK s k, m.num) → team? t q a n = team? s q a n))) ∧
  (∀ s k w, s.cur.keys = [k] → isCob k = false → (thr s k).helper = false →
     let h := src (thr s k) w.s1
     ∃ t v, exec (.teaminfo w) s = .next t ∧ OnlyThreads [k] s t ∧ EndsWith w v (thr s k) (thr t k) ∧
       KeepsRest (thr s k) (thr t k) ∧
       (handleBad h = true → v = w64 (0xC000_0000_0000_0000 + 5)) ∧
       (handleBad h = false → handleTeam s (partOf s k) (asidK s k) h = none → v = w64 (0xC000_0000_0000_0000 + 2)) ∧
       (handleBad h = false → ∀ m, handleTeam s (partOf s k) (asidK s k) h = some m →
         (w.fn = 0 → m.serial < 2 ^ 32 → m.desc.limit ≤ 960 → m.count ≤ 960 → m.desc.cls < 4 → m.desc.gw ∈ [16, 32, 64] →
           bits v 63 32 = m.serial ∧ bits v 27 18 = m.desc.limit ∧ bits v 17 8 = m.count ∧ bit v 4 = m.halt ∧
           (m.st = .resident → bits v 3 0 = 1) ∧ (m.st = .saving → bits v 3 0 = 2) ∧ (m.st = .saved → bits v 3 0 = 3) ∧
           (m.st = .loading → bits v 3 0 = 4) ∧ (m.st = .lost → bits v 3 0 = 5)) ∧
         (w.fn = 1 → m.st ≠ .resident → v = BitVec.allOnes 64) ∧
         (w.fn = 1 → m.st = .resident → v = w64 (m.die * 2 ^ 20 + m.core * 2 ^ 14 + m.core / 4 * 2 ^ 10)) ∧
         (w.fn = 2 → v = w64 (liveReal m).length) ∧ (w.fn = 3 → v = w64 m.phase)))

/-- R190: `teamsave` that SaveCheck refuses gives its status and saves nothing; else the team is saving with the frame and a deadline, and
the hart waits. R190, R196: when every member stands at a boundary and nothing of the team is outstanding, TEAMSAVE_IMAGE_WRITTEN, before
the deadline, writes the image: tiles and scratch in their places and VALID in the header, no byte outside the team frame changes; the
team is saved, its slots are free and the hart's instruction ends with 0.

R194: at the save deadline a team that is still saving is lost: its members are gone, its frame's header has bit 62 and not VALID, and a
record of KIND 4 is posted.

What a save keeps of a member beside its frame is the model's reading (log 27). -/
def Obligations.TeamSave : Prop :=
  ((∀ s k w, s.cur.keys = [k] → isHart k = true →
     let h := src (thr s k) w.s1
     let f := src (thr s k) w.s2
     let c := saveCheck s (partOf s k) (asidK s k) h f
     (c ≠ 0 → ∃ t, exec (.teamsave w) s = .next t ∧ OnlyThreads [k] s t ∧ EndsWith w (w64 c) (thr s k) (thr t k)) ∧
     (c = 0 → ∀ m, team? s (partOf s k) (asidK s k) (bits h 31 0) = some m →
       ∃ t, exec (.teamsave w) s = .next t ∧ KeepsMemory s t ∧ (thr t k).wait = .teamsave (bits h 31 0) ∧
         (thr t k).pc = (thr s k).pc ∧ ∃ m', team? t (partOf s k) (asidK s k) (bits h 31 0) = some m' ∧ m'.st = .saving ∧
           m'.frame = f.toNat ∧ m'.saves = (m.saves + 1) % 65536 ∧
           m'.deadline = s.us + max 10 (bits (part s (partOf s k)).tsdl 15 0))) ∧
   (∀ s p asid num m, s.teams = [m] → m.part = p → m.asid = asid → m.num = num → m.st = .saving → s.us < m.deadline → saveReady s m = true →
     postClear s m.die m.frame (frameSize m.desc) = true → m.stopping = none → (part s p).dbgcmd = 0 →
     (∀ e ∈ m.members, e.1 < m.desc.l4) → mkeys m.members = true →
     let o1 := 0x3000 + 1024 * m.desc.l4
     let o3 := o1 + 8192 * m.desc.tiles + 65536 * m.desc.accs
     ∃ t, exec (.teamsaveImageWritten p asid num) s = .next t ∧
       (∀ o < 8192 * m.desc.tiles, Memory.byte t.mem (m.frame + o1 + o) = mget 0 m.tiles o) ∧
       (∀ o < 4096 * m.desc.scrpg, Memory.byte t.mem (m.frame + o3 + o) = mget 0 m.scratch o) ∧
       bit (rdWord t m.frame) 63 = true ∧
       (∀ a, a < m.frame ∨ m.frame + frameSize m.desc ≤ a → Memory.byte t.mem a = Memory.byte s.mem a) ∧
       (∀ j ∈ residents m, occupied t j = false) ∧
       ∃ m', team? t p asid num = some m' ∧ m'.st = .saved ∧ m'.scratch = [] ∧ m'.tiles = [] ∧ m'.count = m.count ∧ m'.desc = m.desc)) ∧
  (∀ s p asid num m, s.teams = [m] → m.part = p → m.asid = asid → m.num = num → m.st = .saving → m.deadline ≤ s.us → num < 4096 →
     postClear s m.die m.frame 8 = true → (∀ c ∈ s.copies, c.state ≠ 2) →
     ∃ t, exec (.saveDeadline p asid num) s = .next t ∧ (∀ j ∈ residents m, occupied t j = false) ∧
       bit (rdWord t m.frame) 63 = false ∧ bit (rdWord t m.frame) 62 = true ∧
       (∃ m', team? t p asid num = some m' ∧ m'.st = .lost ∧ m'.scratch = [] ∧ m'.tiles = [] ∧ m'.syncs = []) ∧
       ∃ r ∈ (part t p).fqPend, bits (dw r 0) 63 60 = 4)

/-- R200, R201: `teamload` that is refused gives its status; else the team is loading on the core chosen and the hart waits.
TEAMLOAD_COMPLETE makes it resident with the tiles and scratch that the frame holds, and clears VALID. -/
def Obligations.TeamLoad : Prop :=
  (∀ s k w, s.cur.keys = [k] → isHart k = true →
    let f := src (thr s k) w.s1
    let r := loadCheck s (partOf s k) (asidK s k) f (src (thr s k) w.s2)
    (f.toNat % 4096 = 0 → recordHeld s k f.toNat 64 = none) →
    (∀ c, r = .error c → ∃ t, exec (.teamload w) s = .next t ∧ OnlyThreads [k] s t ∧ EndsWith w (w64 c) (thr s k) (thr t k)) ∧
    (∀ m c, r = .ok (m, c) → team? s m.part m.asid m.num = some m → ∃ t, exec (.teamload w) s = .next t ∧ (s.l1 = [] → KeepsMemory s t) ∧
      (thr t k).wait = .teamload m.num ∧ (thr t k).pc = (thr s k).pc ∧
      ∃ m', team? t m.part m.asid m.num = some m' ∧ m'.st = .loading ∧ 64 * m'.die + m'.core = c ∧ m'.desc = m.desc)) ∧
  (∀ s p asid num m, s.teams = [m] → m.part = p → m.asid = asid → m.num = num → m.st = .loading → m.kept = [] → m.late = [] →
    m.stopping = none →
    (part s p).dbgcmd = 0 →
    poisoned s m.frame (frameSize m.desc) = false → postClear s m.die m.frame (frameSize m.desc) = true → LaceWaitsStand s →
    let o1 := 0x3000 + 1024 * m.desc.l4
    let o3 := o1 + 8192 * m.desc.tiles + 65536 * m.desc.accs
    ∃ t m', exec (.teamloadComplete p asid num) s = .next t ∧ team? t p asid num = some m' ∧ m'.st = .resident ∧
      (∀ o < 8192 * m.desc.tiles, mget 0 m'.tiles o = Memory.byte s.mem (m.frame + o1 + o)) ∧
      (∀ o < 4096 * m.desc.scrpg, mget 0 m'.scratch o = Memory.byte s.mem (m.frame + o3 + o)) ∧
      bit (rdWord t m.frame) 63 = false)

/-! Queues and tasks. -/

/-- R203-R205, R208, R216, R217: the queue instructions of one thread or hart, where its operands are reached. `qpush` of a full
ring gives status 1 and counts REFUSED; else it gives the first free position, and the ring holds the record there with that
position in SEQ and FULL set. `qpop` gives HEAD's position, copies the record with FULL cleared, frees it and moves HEAD; a
queue that is not READY gives status 1. `qwait` gives RES minus HEAD, or waits where they are equal. An invalid header gives 2 and
an invalid record 3.

Which cause an unreachable header raises is the model's reading (log 19). -/
def Obligations.QueuePushPop : Prop :=
  ∀ s k w pa s1, mkeys s.threads = true → s.cur.keys = [k] → isCob k = false → (thr s k).helper = false →
    (thr s k).wait = .none →
    (qOperand s k (src (thr s k) w.s1) 64 64 .store = (.ok pa, s1) → ∀ ra s2,
      (qOperand s1 k (src (thr s k) w.s2) 32 32 .load = (.ok ra, s2) →
        let h := headerAt s2 pa
        let r := rdWords s2 ra 4
        let pos := qRes h
        let full := ringFull h 1
        (headerBad h = true → ∃ t, exec (.qpush w) s = .next t ∧ OnlyThreads [k] s2 t ∧ EndsWith w (stw 2) (thr s k) (thr t k)) ∧
        (headerBad h = false → recordBad r = true →
          ∃ t, exec (.qpush w) s = .next t ∧ OnlyThreads [k] s2 t ∧ EndsWith w (stw 3) (thr s k) (thr t k)) ∧
        (headerBad h = false → recordBad r = false → (isHart k = true → ∀ x ∈ (thr s k).pushHeld, x.1 ≠ (thr s k).pc) → full = true →
          ∃ t, exec (.qpush w) s = .next t ∧ EndsWith w (stw 1) (thr s k) (thr t k) ∧ rdWord t (pa + 0x18) = dw h 3 + 1 ∧
            ∀ a, a < pa + 0x18 ∨ pa + 0x20 ≤ a → Memory.byte t.mem a = Memory.byte s2.mem a) ∧
        (headerBad h = false → recordBad r = false → (isHart k = true → ∀ x ∈ (thr s k).pushHeld, x.1 ≠ (thr s k).pc) → full = false →
          ∀ rpa pat s3, coherentReach (reserve s2 k pa 1).2 k (ringAddr h pos) 32 .store = (.ok (.mem rpa pat), s3) →
          ∃ t, exec (.qpush w) s = .next t ∧ EndsWith w pos (thr s k) (thr t k) ∧ rdWord t rpa = dw r 0 ∧
            rdWord t (rpa + 8) = dw r 1 ∧ rdWord t (rpa + 16) = dw r 2 ∧
            rdWord t (rpa + 24) = w64 (bits pos 31 0 * 2 ^ 32 + bits (dw r 3) 31 4 * 16 + 1) ∧
            (s3.mem = (reserve s2 k pa 1).2.mem → rpa + 32 ≤ pa + 8 ∨ pa + 16 ≤ rpa → rdWord t (pa + 8) = pos + 1) ∧
            ∀ a, a < rpa ∨ rpa + 32 ≤ a → Memory.byte t.mem a = Memory.byte s3.mem a)) ∧
      (qOperand s1 k (src (thr s k) w.s2) 32 32 .store = (.ok ra, s2) →
        (headerBad (headerAt s2 pa) = true →
          ∃ t, exec (.qpop w) s = .next t ∧ OnlyThreads [k] s2 t ∧ EndsWith w (stw 2) (thr s k) (thr t k)) ∧
        (headerBad (headerAt s2 pa) = false → ∀ s3,
          (readyRecord s2 k pa = (.ok none, s3) →
            ∃ t, exec (.qpop w) s = .next t ∧ OnlyThreads [k] s3 t ∧ EndsWith w (stw 1) (thr s k) (thr t k)) ∧
          (∀ rpa r, readyRecord s2 k pa = (.ok (some (rpa, r)), s3) →
            ∃ t, exec (.qpop w) s = .next t ∧ EndsWith w (qHead (headerAt s3 pa)) (thr s k) (thr t k) ∧ rdWord t ra = dw r 0 ∧
              rdWord t (ra + 8) = dw r 1 ∧ rdWord t (ra + 16) = dw r 2 ∧ rdWord t (ra + 24) = setBit (dw r 3) 0 false ∧
              (ra + 32 ≤ pa + 16 ∨ pa + 24 ≤ ra → rdWord t (pa + 16) = qHead (headerAt s3 pa) + 1) ∧
              ((ra + 32 ≤ rpa + 24 ∨ rpa + 32 ≤ ra) → (rpa + 32 ≤ pa + 16 ∨ pa + 24 ≤ rpa + 24) →
                rdWord t (rpa + 24) = setBit (dw r 3) 0 false) ∧
              ∀ a, (a < ra ∨ ra + 32 ≤ a) → (a < pa + 16 ∨ pa + 24 ≤ a) → (a < rpa + 24 ∨ rpa + 32 ≤ a) →
                Memory.byte t.mem a = Memory.byte s3.mem a)))) ∧
    (qOperand s k (src (thr s k) w.s1) 64 64 .load = (.ok pa, s1) →
      let h := headerAt s1 pa
      (headerBad h = true → ∃ t, exec (.qwait w) s = .next t ∧ OnlyThreads [k] s1 t ∧ EndsWith w (stw 2) (thr s k) (thr t k)) ∧
      (headerBad h = false → qCount h ≠ 0 →
        ∃ t, exec (.qwait w) s = .next t ∧ OnlyThreads [k] s1 t ∧ EndsWith w (qRes h - qHead h) (thr s k) (thr t k)) ∧
      (headerBad h = false → qCount h = 0 →
        ∃ t, exec (.qwait w) s = .next t ∧ OnlyThreads [k] s1 t ∧ (thr t k).wait = .queue pa ∧ (thr t k).pc = (thr s k).pc ∧
          KeepsRegs [] (thr s k) (thr t k)))

/-- R210, R211, R502: `qbind` gives the cores of the mask a binding (none where the header's address is 0), or a status and changes
no core. DISPATCH on a core whose queue has a record puts a task thread of it in the lowest idle slot: pc, a0, a1 and a2 from the
record; the record is free and HEAD moves; a finding suspends the binding and posts a record of KIND 7. -/
def Obligations.TasksStart : Prop :=
  (∀ s k w, s.cur.keys = [k] → isHart k = true →
    let a := src (thr s k) w.s1
    let c := bindCheck s (partOf s k) a
    let l := rdWords s a.toNat 8
    let d := bits (dw l 2) 11 10
    (a.toNat % 64 = 0 → recordHeld s k a.toNat 64 = none) →
    (c ≠ 0 → ∃ t, exec (.qbind w) s = .next t ∧ OnlyThreads [k] s t ∧ EndsWith w (stw c) (thr s k) (thr t k)) ∧
    (c = 0 → ∃ t, exec (.qbind w) s = .next t ∧ EndsWith w 0 (thr s k) (thr t k) ∧ KeepsMemory s t ∧
      (∀ j, j ≠ k → mget? t.threads j = mget? s.threads j) ∧
      (∀ n < 64, bit (dw l 3) n = true → (core t (64 * d + n)).binding = (if dw l 0 = 0 then none else
        some { qva := dw l 0, satp := dw l 1, tmax := bits (dw l 2) 9 0, tfr := bits (dw l 4) 63 10 * 1024, suspended := false
               part := partOf s k })) ∧
      ∀ n, (n < 64 * d ∨ 64 * d + 64 ≤ n ∨ bit (dw l 3) (n - 64 * d) = false) → core t n = core s n)) ∧
  (∀ s c b k rest s1, (core s c).binding = some b → idleSlots s c = k :: rest → b.suspended = false →
    (core s c).nextDispatch ≤ s.cycle → tasksOf s c < b.tmax →
    (∀ pa rpa r, examine s (dispatchCtx s c b) b.qva = (.record pa rpa r, s1) →
      ∃ t, exec (.dispatch c) s = .next t ∧
        (let u := thr t k
         u.pc = dw r 0 ∧ getReg u 10 = dw r 1 ∧ getReg u 11 = dw r 2 ∧ getReg u 12 = dw r 3 ∧ u.st = .ready ∧ u.task = true ∧
         u.satp = b.satp ∧ u.part = b.part ∧ u.team = 0) ∧
        rdWord t (pa + 16) = qHead (headerAt s1 pa) + 1 ∧
        ((rpa + 32 ≤ pa + 16 ∨ pa + 24 ≤ rpa + 24) → rdWord t (rpa + 24) = setBit (dw r 3) 0 false) ∧
        (core t c).nextDispatch = s1.cycle + 8 ∧
        ∀ a, (a < pa + 16 ∨ pa + 24 ≤ a) → (a < rpa + 24 ∨ rpa + 32 ≤ a) → Memory.byte t.mem a = Memory.byte s1.mem a) ∧
    (∀ cause addr, examine s (dispatchCtx s c b) b.qva = (.stop cause addr, s1) → cause < 256 →
      ∃ t, exec (.dispatch c) s = .next t ∧ t.threads = s.threads ∧ t.mem = s1.mem ∧
        (core t c).binding = some { b with suspended := true } ∧
        ∃ r, (part t b.part).fqPend = (part s b.part).fqPend ++ [r] ∧ bits (dw r 0) 63 60 = 7 ∧ bits (dw r 0) 55 48 = cause ∧
          dw r 2 = addr ∧ dw r 4 = b.qva))

/-- R213-R215: `jinit` writes COUNT and QUEUE of the join block, clears its error word and gives 0; a count outside 1 to 2^63 - 1
gives 3. `tend` of a task thread takes one from COUNT and frees the slot; at COUNT 0 it marks the block; where COUNT comes to 0
the block's record goes to its queue first, and a full ring is tried again 64 cycles later. -/
def Obligations.JoinBlocks : Prop :=
  (∀ s k w pa s1, s.cur.keys = [k] → isCob k = false → (thr s k).helper = false →
    qOperand s k (src (thr s k) w.s1) 64 64 .store = (.ok pa, s1) →
    let n := src (thr s k) w.s2
    ((n = 0 ∨ bit n 63 = true) → ∃ t, exec (.jinit w) s = .next t ∧ OnlyThreads [k] s1 t ∧
      EndsWith w (stw 3) (thr s k) (thr t k)) ∧
    (n ≠ 0 → bit n 63 = false → ∃ t, exec (.jinit w) s = .next t ∧ EndsWith w 0 (thr s k) (thr t k) ∧ rdWord t pa = n ∧
      rdWord t (pa + 8) = src (thr s k) w.s3 ∧ rdWord t (pa + 48) = 0 ∧
      ∀ a, (a < pa ∨ pa + 16 ≤ a) → (a < pa + 48 ∨ pa + 56 ≤ a) → Memory.byte t.mem a = Memory.byte s1.mem a)) ∧
  (∀ s k w, s.cur.keys = [k] → isSimt k = true → (thr s k).helper = false → (thr s k).task = true → (thr s k).team = 0 →
    (src (thr s k) w.s1 = 0 → ∃ t, exec (.tend w) s = .next t ∧ occupied t k = false ∧ KeepsMemory s t ∧
      (∀ j, j ≠ k → mget? t.threads j = mget? s.threads j) ∧ ∃ e ∈ (part t (thr s k).part).ended, e.tid = (thr s k).tid) ∧
    (src (thr s k) w.s1 ≠ 0 → ∀ pa s1, qOperand s k (src (thr s k) w.s1) 64 64 .store = (.ok pa, s1) →
      let n := rdWord s1 pa
      (n = 0 → ∃ t, exec (.tend w) s = .next t ∧ occupied t k = false ∧ rdWord t (pa + 48) = 1 ∧
        ∀ a, (a < pa + 48 ∨ pa + 56 ≤ a) → Memory.byte t.mem a = Memory.byte s1.mem a) ∧
      (n ≠ 0 → n ≠ 1 → ∃ t, exec (.tend w) s = .next t ∧ occupied t k = false ∧ rdWord t pa = n - 1 ∧
        ∀ a, (a < pa ∨ pa + 8 ≤ a) → Memory.byte t.mem a = Memory.byte s1.mem a) ∧
      (n = 1 → ∀ done s2, pushOne (modThr (joinCount s1 k pa).2 k fun t => { t with wus := 0 }) k pa = (done, s2) →
        ∃ t, exec (.tend w) s = .next t ∧ t.mem = s2.mem ∧ (done = true → occupied t k = false) ∧
          (done = false → (thr t k).wait = .pushRetry (w64 pa) ∧ (thr t k).holdTill = some (s2.cycle + 64) ∧
            (thr t k).pc = (thr s2 k).pc)))) ∧
  (∀ s k j done s1, isSimt k = true → (thr s k).helper = false → (thr s k).task = true → (thr s k).team = 0 →
    (thr s k).wait = .pushRetry j → (thr s k).st = .blocked → (thr s k).holdTill = some s.cycle →
    pushOne s k j.toNat = (done, s1) →
    ∃ t, exec (.joinPushRetry k) s = .next t ∧ t.mem = s1.mem ∧ (done = true → occupied t k = false) ∧
      (done = false → thr t k = { thr s1 k with holdTill := some (s1.cycle + 64) } ∧ (thr t k).wait = .pushRetry j))

/-! Sync entries. -/

/-- R225-R228: the sync instructions of a thread that is no helper. A thread of no team, or an entry that its team does not have, gets
2. `syinit` refuses a bad configuration with 5 and an entry waited on with 6, and else sets the entry and gives 0. `semtry` and
`semacq` take the amount from VALUE where it suffices and nobody waits; where it does not, `semtry` gives 1 and `semacq` waits
behind the others. `semadd` credits, and grants the oldest waiter what then suffices for it. -/
def Obligations.Semaphores : Prop :=
  ∀ s k w, s.cur.keys = [k] → (thr s k).helper = false →
    let n := entryNo w
    let t0 := thr s k
    (isSimt k = true → (∀ m, teamK? s k = some m → m.desc.syncs ≤ n) →
      ∀ i ∈ [Instr.syinit w, .semacq w, .semtry w, .barrive w, .bwait w, .bexpect w, .barw w],
        ∃ t, exec i s = .next t ∧ OnlyThreads [k] s t ∧ EndsWith w (stw 2) t0 (thr t k)) ∧
    (isSimt k = true → ∀ m, teamK? s k = some m → n < m.desc.syncs → memberKey m t0.tidx = k → liveReal m ≠ [] →
      let e := syncOf m n
      let c := src t0 w.s1
      let v := src t0 w.s2
      let a := c.toNat
      let after := fun (t : State) => syncOf (team t m.part m.asid m.num) n
      (configBad m n c v = true → ∃ t, exec (.syinit w) s = .next t ∧ OnlyThreads [k] s t ∧ EndsWith w (stw 5) t0 (thr t k)) ∧
      (configBad m n c v = false → entryWaited s m n = true →
        ∃ t, exec (.syinit w) s = .next t ∧ OnlyThreads [k] s t ∧ EndsWith w (stw 6) t0 (thr t k)) ∧
      (configBad m n c v = false → entryWaited s m n = false →
        ∃ t, exec (.syinit w) s = .next t ∧ EndsWith w 0 t0 (thr t k) ∧ KeepsMemory s t ∧
          (∀ j, j ≠ k → mget? t.threads j = mget? s.threads j) ∧
          (after t).kind = bits c 13 12 ∧ (after t).tb = bit c 11 ∧ (after t).expect = bits c 9 0 ∧ (after t).arrived = 0 ∧
          (after t).waiters = [] ∧ (after t).phase = (if bit c 11 then m.phase % 65536 else 0) ∧
          (bits c 13 12 = 1 → (after t).value = v.toNat) ∧ (bits c 13 12 = 2 → (after t).pend = v.toInt) ∧
          ∀ j, j ≠ n → syncOf (team t m.part m.asid m.num) j = syncOf m j) ∧
      (e.kind ≠ 1 → ∀ i ∈ [Instr.semacq w, .semtry w],
        ∃ t, exec i s = .next t ∧ OnlyThreads [k] s t ∧ EndsWith w (stw 3) t0 (thr t k)) ∧
      (e.kind = 1 → 2 ^ 48 ≤ a → ∀ i ∈ [Instr.semacq w, .semtry w],
        ∃ t, exec i s = .next t ∧ OnlyThreads [k] s t ∧ EndsWith w (stw 4) t0 (thr t k)) ∧
      (e.kind = 1 → a < 2 ^ 48 → a ≠ 0 → e.waiters = [] → a ≤ e.value → ∀ i ∈ [Instr.semacq w, .semtry w],
        ∃ t, exec i s = .next t ∧ EndsWith w (w64 (e.value - a)) t0 (thr t k) ∧ after t = { e with value := e.value - a } ∧
          KeepsMemory s t ∧ ∀ j, j ≠ k → mget? t.threads j = mget? s.threads j) ∧
      (e.kind = 1 → a < 2 ^ 48 → a ≠ 0 → (e.waiters ≠ [] ∨ e.value < a) →
        ∃ t, exec (.semtry w) s = .next t ∧ OnlyThreads [k] s t ∧ EndsWith w (stw 1) t0 (thr t k)) ∧
      (e.kind = 1 → a < 2 ^ 48 → (∀ x ∈ (e.waiters ++ [(t0.tidx, a)]).head?, e.value < x.2) →
        ∃ t, exec (.semacq w) s = .next t ∧ (thr t k).wait = .sem n a ∧ (thr t k).st = .blocked ∧ (thr t k).pc = t0.pc ∧
          KeepsRegs [] t0 (thr t k) ∧ after t = { e with waiters := e.waiters ++ [(t0.tidx, a)] })) ∧
    (let r := src t0 w.s1
     let b := src t0 w.s2
     (∀ c, semaddHeld s k r b = none → semaddCheck s k r b = .error c → ∃ t, exec (.semadd w) s = .next t ∧ OnlyThreads [k] s t ∧
       EndsWith w (stw c) t0 (thr t k)) ∧
     (∀ m, semaddCheck s k r b = .ok m → team? s m.part m.asid m.num = some m → m.st = .resident →
       let e := syncOf m (bits r 5 0)
       let after := fun (t : State) => syncOf (team t m.part m.asid m.num) (bits r 5 0)
       e.kind = 1 → e.value + b.toNat ≤ 2 ^ 48 - 1 →
       (e.waiters = [] → ∃ t, exec (.semadd w) s = .next t ∧ EndsWith w 0 t0 (thr t k) ∧ KeepsMemory s t ∧
         after t = { e with value := e.value + b.toNat } ∧ ∀ j, j ≠ k → mget? t.threads j = mget? s.threads j) ∧
       (∀ i x, e.waiters = [(i, x)] → (thr s (memberKey m i)).st = .blocked → (∃ q, (thr s (memberKey m i)).wait = .sem (bits r 5 0) q) →
         memberKey m i ≠ k → x ≤ e.value + b.toNat →
         ∃ t, exec (.semadd w) s = .next t ∧ EndsWith w 0 t0 (thr t k) ∧
           after t = { e with value := e.value + b.toNat - x, waiters := [] } ∧ (thr t (memberKey m i)).st = .ready ∧
           EndsWith (thr s (memberKey m i)).ww (w64 (e.value + b.toNat - x)) (thr s (memberKey m i)) (thr t (memberKey m i)))))

/-- R230, R232: an arrival gives the phase and counts; the arrival that fills EXPECT with no bytes pending completes the phase, which
makes the waiters of the entry ready with the new phase. A second arrival of a member at its team's barrier has bit 63 set and counts
nothing. `bwait` waits while the phase is its token's, `barw` while it is its arrival's. `bexpect` adds to PEND. -/
def Obligations.Barriers : Prop :=
  ∀ s k w m, s.cur.keys = [k] → isSimt k = true → (thr s k).helper = false → teamK? s k = some m → entryNo w < m.desc.syncs →
    (thr s k).wait = .none →
    let n := entryNo w
    let e := syncOf m n
    let t0 := thr s k
    let a := src t0 w.s1
    let ph := (e.phase + 1) % 65536
    let after := fun (t : State) => syncOf (team t m.part m.asid m.num) n
    (e.kind ≠ 2 → ∀ i ∈ [Instr.barrive w, .bwait w, .bexpect w, .barw w],
      ∃ t, exec i s = .next t ∧ OnlyThreads [k] s t ∧ EndsWith w (stw 3) t0 (thr t k)) ∧
    (e.kind = 2 → e.tb = false → e.arrived < e.expect → e.phase < 65536 →
      ((e.arrived + 1 < e.expect ∨ e.pend ≠ 0) →
        (∃ t, exec (.barrive w) s = .next t ∧ EndsWith w (w64 e.phase) t0 (thr t k) ∧ KeepsMemory s t ∧
          after t = { e with arrived := e.arrived + 1 } ∧ ∀ j, j ≠ k → mget? t.threads j = mget? s.threads j) ∧
        ∃ t, exec (.barw w) s = .next t ∧ (thr t k).wait = .barrier n (w64 e.phase) 1 ∧ (thr t k).st = .blocked ∧ (thr t k).pc = t0.pc ∧
          KeepsRegs [] t0 (thr t k) ∧ after t = { e with arrived := e.arrived + 1 }) ∧
      (e.arrived + 1 = e.expect → e.pend = 0 → ∀ i v, (i, v) ∈ [(Instr.barrive w, e.phase), (.barw w, ph)] →
        ∃ t, exec i s = .next t ∧ EndsWith w (w64 v) t0 (thr t k) ∧ KeepsMemory s t ∧
          after t = { e with phase := ph, arrived := 0 } ∧
          ∀ j ∈ residents m, (thr s j).st = .blocked → ∀ x q, (thr s j).wait = .barrier n x q → bits x 15 0 = e.phase → q ≠ 2 →
            (thr t j).st = .ready ∧ (thr t j).wait = .none ∧ EndsWith (thr s j).ww (w64 ph) (thr s j) (thr t j))) ∧
    (e.kind = 2 → e.tb = true → mget false m.arr t0.tidx = true → phaseDone m e = false →
      ∃ t, exec (.barrive w) s = .next t ∧ OnlyThreads [k] s t ∧ EndsWith w (setBit (w64 e.phase) 63 true) t0 (thr t k)) ∧
    (e.kind = 2 → e.tb = true → mget false m.arr t0.tidx = false → e.expect = 0 → e.pend = 0 → m.sweep = false →
      (∀ i ∈ liveReal m, i ≠ t0.tidx → mget false m.arr i = true) →
      ∃ t, exec (.barrive w) s = .next t ∧ EndsWith w (w64 e.phase) t0 (thr t k) ∧
        after t = { e with phase := ph, arrived := 0 } ∧ (team t m.part m.asid m.num).arr = [] ∧
        (team t m.part m.asid m.num).phase = (m.phase + 1) % 2 ^ 64) ∧
    (e.kind = 2 → bits a 62 16 ≠ 0 →
      ∃ t, exec (.bwait w) s = .next t ∧ OnlyThreads [k] s t ∧ EndsWith w (stw 4) t0 (thr t k)) ∧
    (e.kind = 2 → bits a 62 16 = 0 → e.phase ≠ bits a 15 0 →
      ∃ t, exec (.bwait w) s = .next t ∧ OnlyThreads [k] s t ∧ EndsWith w (w64 e.phase) t0 (thr t k)) ∧
    (e.kind = 2 → bits a 62 16 = 0 → e.phase = bits a 15 0 →
      ∃ t, exec (.bwait w) s = .next t ∧ OnlyThreads [k] s t ∧ (thr t k).wait = .barrier n a 0 ∧ (thr t k).st = .blocked ∧
        (thr t k).pc = t0.pc ∧ KeepsRegs [] t0 (thr t k)) ∧
    (e.kind = 2 → 2 ^ 35 ≤ a.toNat →
      ∃ t, exec (.bexpect w) s = .next t ∧ OnlyThreads [k] s t ∧ EndsWith w (stw 4) t0 (thr t k)) ∧
    (e.kind = 2 → a.toNat < 2 ^ 35 → e.waiters = [] → e.pend + a.toNat ≤ 2 ^ 35 - 1 →
      (phaseDone m e = false ∨ e.pend + a.toNat ≠ 0) →
      ∃ t, exec (.bexpect w) s = .next t ∧ EndsWith w 0 t0 (thr t k) ∧ KeepsMemory s t ∧
        after t = { e with pend := e.pend + a.toNat } ∧ ∀ j, j ≠ k → mget? t.threads j = mget? s.threads j)

/-- R233-R235: `drain` gives 0 where no operation of FN is outstanding, and else waits for those that are. The watchdog takes a blocked
thread whose count has reached the limit out of its wait with cause 0x14, and leaves one that has not. -/
def Obligations.DrainAndWatchdog : Prop :=
  (∀ s k w, s.cur.keys = [k] → isSimt k = true → (thr s k).helper = false →
    (drainSet s k w.fn.toNat = ([], [], []) →
      ∃ t, exec (.drain w) s = .next t ∧ OnlyThreads [k] s t ∧ EndsWith w 0 (thr s k) (thr t k)) ∧
    (∀ cs rs ls, drainSet s k w.fn.toNat = (cs, rs, ls) → (cs, rs, ls) ≠ ([], [], []) →
      ∃ t, exec (.drain w) s = .next t ∧ OnlyThreads [k] s t ∧ (thr t k).wait = .drain w.fn.toNat cs rs ls ∧
        (thr t k).st = .blocked ∧ (thr t k).pc = (thr s k).pc ∧ KeepsRegs [] (thr s k) (thr t k))) ∧
  ∀ s k, isSimt k = true → watched s (thr s k) = true →
    ((thr s k).wus < max 1 (bits (part s (thr s k).part).wdog 31 0) → exec (.watchdogExpiry k) s = .next s) ∧
    (max 1 (bits (part s (thr s k).part).wdog 31 0) ≤ (thr s k).wus → bit (part s (thr s k).part).wdog 63 = true →
      (∃ pa, (thr s k).wait = .queue pa) → (thr s k).helper = false → (thr s k).chain.words = [] → (thr s k).trap.hvec ≠ 0 →
        (thr s k).trap.inh = false → (thr s k).ops = [] →
      ∃ t, exec (.watchdogExpiry k) s = .next t ∧ OnlyThreads [k] s t ∧ (thr t k).pc = (thr s k).trap.hvec ∧
        (thr t k).wait = .none ∧ (thr t k).st = .ready ∧ (thr t k).trap.hcause = 0x14 ∧ (thr t k).trap.hepc = (thr s k).pc ∧
        (thr t k).trap.hdec2 = (thr s k).pc ∧ KeepsRegs [] (thr s k) (thr t k))

/-! Tiles and accumulators. -/

/-- R262, R273-R276: the moves of a gang on a tile that it may use. `tzero` clears the tile; `tfill` repeats the operand's eight bytes
in every row; `tmov` copies the tile and `ttr` transposes its elements; `tld` and `tldbp` put the bytes read, row after row, into
the rows; `tst` writes the rows where their addresses land and no other byte. Bytes of the tile beyond its rows are zero, and no other tile
changes. -/
def Obligations.TileMoves : Prop :=
  ∀ s ks l m w, GangIssues s ks l m →
    let n := w.d.toNat
    let c := tlcfg m n
    let a := src (thr s l) w.s1
    let st := src (thr s l) w.s2
    let after := fun (t : State) (x r j : Nat) => mget 0 (team t m.part m.asid m.num).tiles (8192 * x + 64 * r + j)
    let others := fun (t : State) => ∀ x, x / 8192 ≠ n → mget 0 (team t m.part m.asid m.num).tiles x = mget 0 m.tiles x
    (n < m.desc.tiles → claimed s m n false = false →
      ∃ t, exec (.tzero w) s = .next t ∧ GangEnds w ks s t ∧ KeepsMemory s t ∧ others t ∧
        ∀ r < 128, ∀ j < 64, after t n r j = 0) ∧
    (badTile m n = false → claimed s m n false = false →
      ∃ t, exec (.tfill w) s = .next t ∧ GangEnds w ks s t ∧ KeepsMemory s t ∧ others t ∧ ∀ r < 128, ∀ j < 64,
        after t n r j = if r < c.rows ∧ j < c.rowBytes then BitVec.ofNat 8 (a.toNat / 256 ^ (j % 8)) else 0) ∧
    (n < m.desc.tiles → w.s1.toNat < m.desc.tiles → claimed s m n false = false → claimed s m w.s1.toNat true = false →
      ∃ t, exec (.tmov w) s = .next t ∧ GangEnds w ks s t ∧ KeepsMemory s t ∧ others t ∧ ∀ r < 128, ∀ j < 64,
        after t n r j = mget 0 m.tiles (8192 * w.s1.toNat + 64 * r + j)) ∧
    (badTile m n = false → badTile m w.s1.toNat = false → claimed s m n false = false → claimed s m w.s1.toNat true = false →
      let cs := tlcfg m w.s1.toNat
      let b := fwidth cs.fmt / 8
      c.fmt = cs.fmt → cs.fmt ≠ 14 → 8 ≤ fwidth cs.fmt → c.rows = cs.cols → c.cols = cs.rows →
      ∃ t, exec (.ttr w) s = .next t ∧ GangEnds w ks s t ∧ KeepsMemory s t ∧ others t ∧
        ∀ i < c.rows, ∀ j < c.cols, ∀ x < b, after t n i (b * j + x) = mget 0 m.tiles (8192 * w.s1.toNat + 64 * j + (b * i + x))) ∧
    (∀ i bp al rows ls s1,
      (i, bp, al, rows) ∈
        [(Instr.tld w, false, 8, (rowAddrs a st c.rows).map fun x => (x, c.rowBytes)),
         (.tldbp w, true, 64, (rowAddrs a st c.rows).flatMap fun x =>
            (List.range (c.cols / 64)).map fun b => (x + w64 (64 * b), 8 * (c.grind + 1)))] →
      badTile m n = false → (bp = true → c.fmt = 14) → a.toNat % al = 0 → st.toNat % al = 0 → claimed s m n false = false →
      reachAll s l .load (rows.flatMap fun x => lineCuts x.1 x.2) = (.ok ls, s1) → Unmanaged ls →
      let data := ls.flatMap fun x => (readLoc s1 l x.1 x.2).1
      ∃ t, exec i s = .next t ∧ GangEnds w ks s t ∧ KeepsMemory s1 t ∧ others t ∧ ∀ r < 128, ∀ j < 64,
        after t n r j = if r < c.rows ∧ j < c.rowBytes then data.getD (r * c.rowBytes + j) 0 else 0) ∧
    (badTile m n = false → a.toNat % 8 = 0 → st.toNat % 8 = 0 → claimed s m n true = false → ∀ ls s1,
      reachAll s l .store ((rowAddrs a st c.rows).flatMap fun x => lineCuts x c.rowBytes) = (.ok ls, s1) → Unmanaged ls →
      let data := (List.range c.rows).flatMap fun r => tileRow m n r c.rowBytes
      ∃ t, exec (.tst w) s = .next t ∧ GangEnds w ks s t ∧
        (∀ x, (∀ y ∈ ls, ∀ pa pat, y.1 = .mem pa pat → x < pa ∨ pa + y.2 ≤ x) → Memory.byte t.mem x = Memory.byte s1.mem x) ∧
        ∀ pre pa pat z post, ls = pre ++ (.mem pa pat, z) :: post →
          (∀ y ∈ post, ∀ q pat', y.1 = .mem q pat' → pa + z ≤ q ∨ q + y.2 ≤ pa) →
          ∀ j < z, Memory.byte t.mem (pa + j) = data.getD ((pre.map (·.2)).sum + j) 0) ∧
    (ks = [l] → badTile m n = true → ∀ i ∈ [Instr.tld w, .tst w, .tfill w], exec i s = .next (raise s l 0x06 0 .load))

/-- R265, R277-R279: `tres` takes a free accumulator for the gang with all its elements zero and its type from S1, and waits for one
that another gang holds; `trel` frees it, `acz` clears it and `acld` loads its rows of 128 elements. -/
def Obligations.Accumulators : Prop :=
  ∀ s ks l m w, GangIssues s ks l m → (∀ k ∈ ks, isSimt k = true) →
    let n := w.d.toNat
    let g := gangNo (thr s l)
    let a := accOf m n
    let after := fun (t : State) => team t m.part m.asid m.num
    (n < m.desc.accs → lostAccs m g = [] → a.st = 0 → ∃ t, exec (.tres w) s = .next t ∧ GangEnds w ks s t ∧ KeepsMemory s t ∧
      accOf (after t) n = { st := 1, gang := g, int := bit (src (thr s l) w.s1) 0, waiters := [] } ∧
      ∀ r < 128, ∀ c < 128, accElt (after t) n r c = 0) ∧
    (n < m.desc.accs → lostAccs m g = [] → a.st ≠ 0 → a.gang ≠ g → ∃ t, exec (.tres w) s = .next t ∧ KeepsMemory s t ∧
      (accOf (after t) n).waiters = a.waiters.filter (· ≠ g) ++ [g] ∧ (∀ j, j ∉ ks → mget? t.threads j = mget? s.threads j) ∧
      ∀ k ∈ ks, (thr t k).wait = .acc n ∧ (thr t k).st = .blocked ∧ (thr t k).pc = (thr s k).pc ∧
        KeepsRegs [] (thr s k) (thr t k)) ∧
    (accCheck m g none [n] = none → accPending s m n = false →
      (a.waiters = [] → ∃ t, exec (.trel w) s = .next t ∧ GangEnds w ks s t ∧ KeepsMemory s t ∧ accOf (after t) n = {} ∧
        ∀ r < 128, ∀ c < 128, accElt (after t) n r c = 0) ∧
      ∃ t, exec (.acz w) s = .next t ∧ GangEnds w ks s t ∧ KeepsMemory s t ∧ accOf (after t) n = a ∧
        ∀ r < 128, ∀ c < 128, accElt (after t) n r c = 0) ∧
    (accCheck m g (some (w.fmt = 6)) [n] = none → accPending s m n = false →
      let p := src (thr s l) w.s1
      let st := src (thr s l) w.s2
      p.toNat % 64 = 0 → st.toNat % 64 = 0 → ∀ rows s1, readRows s l ((rowAddrs p st 128).map fun x => (x, 512)) = (.ok rows, s1) →
      ∃ t, exec (.acld w) s = .next t ∧ GangEnds w ks s t ∧ KeepsMemory s1 t ∧
        ∀ r < 128, ∀ c < 128, accElt (after t) n r c = ofBytes (((rows.getD r []).drop (4 * c)).take 4))

/-! The matrix engine. -/

/-- R263, R266, R281-R283, R290-R294: a matrix instruction that its checks admit posts one pass and the gang goes on; a drain posts
itself with what it captures, its gang's seed advances, and the gang stalls at it. `mwait` gives 0 where no pass of the gang
is outstanding, and else waits for those that are. -/
def Obligations.PassesPosted : Prop :=
  ∀ s ks l m w, GangIssues s ks l m →
    let g := gangNo (thr s l)
    let e := engineOf m
    let cfg := fun n => mget 0 m.tlcfg n
    (∀ i maj ns, (i, maj, ns) ∈ [(Instr.mma w, 0x68, [w.d.toNat]), (.mmac w, 0x69, [w.d.toNat, w.d.toNat + 1]),
        (.mmabs w, 0x6A, [w.d.toNat])] →
      badTile m w.s1.toNat = false → badTile m w.s2.toNat = false → (maj = 0x6A → badTile m w.s3.toNat = false) →
      mmaShapeBad maj w m (tlcfg m w.s1.toNat) (tlcfg m w.s2.toNat) = false → accCheck m g (some (decide (6 ≤ w.fmt))) ns = none →
      claimed s m w.s1.toNat true = false → claimed s m w.s2.toNat true = false →
      (maj = 0x6A → claimed s m w.s3.toNat true = false) → passRoom s m = true →
      ∃ t p, exec i s = .next t ∧ GangEnds w ks s t ∧ KeepsMemory s t ∧ t.teams = (opBegan s m.part m.asid m.num).teams ∧
        (engine t e).queue = (engine s e).queue ++ [p] ∧ (engine t e).running = (engine s e).running ∧ p.maj = maj ∧ p.w = w ∧
        p.gang = g ∧ p.part = m.part ∧ p.asid = m.asid ∧ p.team = m.num ∧ p.ca = cfg w.s1.toNat ∧ p.cb = cfg w.s2.toNat ∧
        p.posted = s.cycle ∧ p.granted = none ∧ p.leader = (thr s l).tidx) ∧
    (∀ i maj tiles, (i, maj, tiles) ∈ [(Instr.tdr w, 0x6D, w.d.toNat :: if blockFmt w.fmt then [w.s3.toNat] else []), (.tdrm w, 0x6E, []),
        (.tdrt w, 0x6F, w.d.toNat :: if blockFmt w.fmt then [w.imm11.toNat / 16 % 32] else [])] →
      let c := ctrlOf (src (thr s l) w.s2)
      let cd := tlcfg m w.d.toNat
      let a := src (thr s l) w.s3
      let ns := if w.fmt = 12 || w.fmt = 13 then [w.s1.toNat, w.s1.toNat + 1] else [w.s1.toNat]
      drainBad maj w m c cd = false → accCheck m g (some (decide (6 ≤ w.fmt))) ns = none → (maj = 0x6D ∨ a.toNat % 8 = 0) →
      (∀ n ∈ tiles, claimed s m n false = false) → passRoom s m = true →
      ∀ ls s1, reachAll s l .store ((drainSpots maj w c cd a).flatMap fun x => lineCuts x.1 x.2) = (.ok ls, s1) →
      ∃ t p, exec i s = .next t ∧ KeepsMemory s1 t ∧ (engine t e).queue = (engine s e).queue ++ [p] ∧ p.maj = maj ∧ p.w = w ∧
        p.gang = g ∧ p.ctrl = src (thr s l) w.s2 ∧ p.addr = a ∧ p.seed = m.seeds.getD g 0 ∧
        (team t m.part m.asid m.num).seeds = m.seeds.set g (advance64 (m.seeds.getD g 0)) ∧
        (∀ j, j ∉ ks → mget? t.threads j = mget? s.threads j) ∧ ∀ k ∈ ks, (thr t k).wait = .drainStall p.id ∧
          (thr t k).st = (thr s k).st ∧ (thr t k).pc = (thr s k).pc ∧ KeepsRegs [] (thr s k) (thr t k)) ∧
    (∀ k rest, ks = k :: rest → teamK? s k = some m → gangNo (thr s k) = g →
      (∀ n < m.desc.accs, (accOf m n).st = 2 → (accOf m n).gang ≠ g) →
      let ids := ((teamPasses s m).filter fun p => !isDrain p && p.gang = g).map (·.id)
      (ids = [] → ∃ t, exec (.mwait w) s = .next t ∧ OnlyThreads ks s t ∧ ∀ j ∈ ks, EndsWith w 0 (thr s j) (thr t j)) ∧
      (ids ≠ [] → ∃ t, exec (.mwait w) s = .next t ∧ OnlyThreads ks s t ∧ ∀ j ∈ ks, (thr t j).wait = .passes ids ∧
        (thr t j).pc = (thr s j).pc ∧ KeepsRegs [] (thr s j) (thr t j)))

/-- R267, R268, R281, R284, R285, R293, R294, R451, R452: the engine's steps. A pass that is granted runs: with integer formats
each element gains, modulo 2^32, the sum of the products of its row of A and its row of B. A pass that has waited 4096 cycles is
promoted. Twenty cycles after its grant a pass is complete: its flags reach its leader and those that wait for it go on. A drain
of i32 at scale byte 127 puts the window's elements into the tile as they are, and its gang passes the word. A grant 65 536 cycles old hangs
the engine, and a record of KIND 6 is posted. `engrst` empties the engine, and the accumulators held become LOST. -/
def Obligations.EngineSteps : Prop :=
  (∀ s e p m, (engine s e).hung = false → (engine s e).freeAt ≤ s.cycle → (engine s e).queue = [p] → p.posted < s.cycle →
    isDrain p = false → team? s p.part p.asid p.team = some m →
    ∃ t, exec (.passGrant e) s = .next t ∧ (engine t e).queue = [] ∧ (engine t e).freeAt = s.cycle + 8 ∧ KeepsMemory s t ∧
      (∃ q, (engine t e).running = (engine s e).running ++ [q] ∧ q.granted = some s.cycle ∧ q.id = p.id) ∧
      (let ca := cfgOf p.ca
       let cb := cfgOf p.cb
       let d := p.w.d.toNat
       p.maj = 0x68 → p.w.md = 0 → ca.fmt ∈ [7, 8, 9, 10, 11] → cb.fmt ∈ [7, 8, 9, 10, 11] → ca.rows ≤ 128 → cb.rows ≤ 128 →
       ca.cols % stepWidth ca = 0 → ∀ i < ca.rows, ∀ j < cb.rows,
         ((accElt (team t p.part p.asid p.team) d i j : Int) - (ival 6 (accElt m d i j) +
           ((List.range ca.cols).map fun k =>
             intElt ca false (tileRowNat m p.w.s1.toNat i) k * intElt cb false (tileRowNat m p.w.s2.toNat j) k).sum)) % 2 ^ 32 = 0)) ∧
  (∀ s e i p, (engine s e).queue[i]? = some p → p.posted + 4096 ≤ s.cycle →
    ∃ t, exec (.passPromotion e i) s = .next t ∧ t.threads = s.threads ∧ t.teams = s.teams ∧ KeepsMemory s t ∧
      (engine t e).queue = (engine s e).queue.set i { p with promoted := true }) ∧
  (∀ s e p m g, s.engines = [(e, engine s e)] → (engine s e).hung = false → (engine s e).queue = [] → (engine s e).running = [p] →
    isDrain p = false → p.granted = some g → g + 20 ≤ s.cycle → team? s p.part p.asid p.team = some m → m.serial = p.serial →
    m.st = .resident → (member m p.leader).loc = .here →
    let k := memberKey m p.leader
    ∃ t, exec (.passComplete e) s = .next t ∧ (engine t e).running = [] ∧ KeepsMemory s t ∧
      t.teams = (opEnded s p.part p.asid p.team p.serial).teams ∧
      (thr t k).fcsr = (thr s k).fcsr ||| w64 (p.flags % 32) ∧ (thr t k).qflags = (thr s k).qflags ||| w64 (p.flags / 32 % 8) ∧
      ∀ j, (thr s j).wait = .passes [p.id] → (thr s j).st = .blocked → (thr t j).st = .ready ∧ (thr t j).wait = .none) ∧
  (∀ s e p m g, (engine s e).hung = false → (engine s e).running = [p] → p.maj = 0x6D → p.w.fmt = 6 → p.granted = some g →
    g + 20 + p.retries ≤ s.cycle → team? s p.part p.asid p.team = some m → m.st ≠ .held → (∀ x ∈ s.teams, x.stopping = none) →
    let cd := cfgOf p.ca
    let c := ctrlOf p.ctrl
    let ks := (gangIdx m p.gang).map (memberKey m)
    cd.rows ≤ 128 → cd.cols ≤ 16 → c.scale = 127 → ks.Nodup → (∀ k ∈ ks, (thr s k).chain.fp = none) →
    ∃ t, exec (.drainComplete e) s = .next t ∧ (engine t e).running = [] ∧ KeepsMemory s t ∧
      (∀ i < cd.rows, ∀ j < cd.cols, rowElt (tileRowNat (team t p.part p.asid p.team) p.w.d.toNat i) 32 j =
        accElt m p.w.s1.toNat (c.row0 + i) (c.col0 + j)) ∧
      ∀ k ∈ ks, (thr s k).wait = .drainStall p.id → (thr t k).wait = .none ∧ EndsZero (thr s k).ww (thr s k) (thr t k)) ∧
  (∀ s e p g o, (engine s e).hung = false → p ∈ (engine s e).running → p.granted = some g → g + 65536 ≤ s.cycle →
    coreOwner s (e / 16 * 64 + e % 16 * 4) = some o →
    ∃ t, exec (.engineHang e) s = .next t ∧ engine t e = { engine s e with hung := true } ∧ t.threads = s.threads ∧ KeepsMemory s t ∧
      ∃ r, (part t o).fqPend = (part s o).fqPend ++ [r] ∧ bits (dw r 0) 63 60 = 6) ∧
  ∀ s k w, s.cur.keys = [k] → isHart k = true → (thr s k).wait = .none →
    let v := src (thr s k) w.s1
    let e := bits v 5 0
    (bits v 63 6 ≠ 0 → ∃ t, exec (.engrst w) s = .next t ∧ OnlyThreads [k] s t ∧ EndsWith w (stw 4) (thr s k) (thr t k)) ∧
    (bits v 63 6 = 0 → ownsCore s (partOf s k) (bits v 5 4 * 64 + bits v 3 0 * 4) = false →
      ∃ t, exec (.engrst w) s = .next t ∧ OnlyThreads [k] s t ∧ EndsWith w (stw 1) (thr s k) (thr t k)) ∧
    (bits v 63 6 = 0 → ownsCore s (partOf s k) (bits v 5 4 * 64 + bits v 3 0 * 4) = true →
      let on := fun (x : Team) => placed x = true ∧ x.st ≠ .loading ∧ engineOf x = e
      (∀ p ∈ (engine s e).running, isDrain p = false) →
      ∃ t n, exec (.engrst w) s = .next t ∧ EndsWith w (w64 n) (thr s k) (thr t k) ∧
        n = ((s.teams.filter fun x => on x).map fun x =>
          (x.accInfo.filter fun (_, y) => y.st = 1).length).sum ∧
        (engine t e).hung = false ∧ (engine t e).queue = [] ∧ (engine t e).running = [] ∧
        ∀ m i, team? s m.part m.asid m.num = some m → on m → (accOf m i).st = 1 →
          (accOf (team t m.part m.asid m.num) i).st = 2)

/-! Copies. -/

/-- R300-R306, R311, R319, R320: a copy word of one thread, its layout record loaded. A bad record gives 5, an entry that its team does not
have 2, one of KIND 0 3 and an operand outside its range 4, and starts nothing; a misaligned address raises cause 0x08; with
sixteen operations on the core the thread waits for room. Else one QUEUED operation with the word's operands joins the core's, its
result is its ticket, whose number is the team's (or, of a solo thread, the core's) next, and its destination is locked. `cpq` gives
REMAIN and STATE of the ticket's operation, 0 where it has retired, and 4 for a ticket that names none. -/
def Obligations.CopyIssue : Prop :=
  ∀ s k w, s.cur.keys = [k] → isSimt k = true → (thr s k).helper = false →
    let t0 := thr s k
    (∀ i maj ws s1, (i, maj) ∈ [(Instr.cpl w, 0x59), (.cpr w, 0x5C), (.cpt w, 0x58), (.cpg w, 0x5A), (.cps w, 0x5B), (.cpim w, 0x5D)] →
      layoutLoad s k maj (src t0 w.s1) = (.ok ws, s1) →
      let tm := teamK? s1 k
      let ent := w.imm11.toNat % 64
      let nosync := w.imm11.getLsbD 6
      let l := layOf ws
      let es := copyEs maj w.fn.toNat ws
      let a := src t0 w.s1
      let b := src t0 w.s2
      let c := src t0 w.s3
      let good := ws = [] ∨ layBad maj ws = false
      let entry := nosync = true ∨ ∃ m, tm = some m ∧ ent < m.desc.syncs ∧ (syncOf m ent).kind ≠ 0
      let status := fun n => ∃ t, exec i s = .next t ∧ OnlyThreads [k] s1 t ∧ EndsWith w (stw n) t0 (thr t k)
      let busy := (s1.copies.filter fun x => 64 * x.die + x.core = coreOf k).length
      (ws ≠ [] → layBad maj ws = true → status 5) ∧
      (good → nosync = false → (∀ m, tm = some m → m.desc.syncs ≤ ent) → status 2) ∧
      (good → nosync = false → (∃ m, tm = some m ∧ ent < m.desc.syncs ∧ (syncOf m ent).kind = 0) → status 3) ∧
      (good → entry → rangeBad maj l es a b c = true → status 4) ∧
      (good → entry → rangeBad maj l es a b c = false → ∀ v, alignBad maj l es a b c = some v →
        exec i s = .next (raise s1 k 0x08 v .load)) ∧
      (good → entry → rangeBad maj l es a b c = false → alignBad maj l es a b c = none → 16 ≤ busy →
        ∃ t, exec i s = .next t ∧ OnlyThreads [k] s1 t ∧ (thr t k).wait = .room .copies ∧ (thr t k).pc = t0.pc ∧ KeepsRegs [] t0 (thr t k)) ∧
      (good → entry → rangeBad maj l es a b c = false → alignBad maj l es a b c = none → busy < 16 →
        classWaits s1 (newCopy s1 k maj w ws) = false →
        let seq := match tm with | some m => m.copySeq | none => (core s1 (coreOf k)).seq
        let ticket := match tm with
          | some _ => w64 (t0.team * 2 ^ 32 + seq)
          | none => w64 (2 ^ 62 + coreOf k / 64 * 2 ^ 54 + coreOf k % 64 * 2 ^ 48 + seq)
        ∃ t x, exec i s = .next t ∧ EndsWith w ticket t0 (thr t k) ∧ KeepsMemory s1 t ∧
          (∀ j, j ≠ k → mget? t.threads j = mget? s1.threads j) ∧ t.copies = s1.copies ++ [x] ∧ x.state = 1 ∧ x.done = 0 ∧ x.maj = maj ∧
          x.s1 = a ∧ x.s2 = b ∧ x.s3 = c ∧ x.entry = ent ∧ x.nosync = nosync ∧ x.ticket = ticket ∧
          x.nominal = (if ws = [] then c.toNat else l.nominal) ∧
          (∀ m, tm = some m → (team t m.part m.asid m.num).copySeq = (m.copySeq + 1) % 2 ^ 32) ∧
          (tm = none → (core t (coreOf k)).seq = (seq + 1) % 2 ^ 32) ∧
          (maj = 0x59 → ∃ e ∈ (core t (coreOf k)).rlocks, e.write = true ∧ e.copy = x.id ∧ e.asid = asidOf t0.satp ∧
            e.lo = a.toNat ∧ e.hi = a.toNat + c.toNat))) ∧
    (let v := src t0 w.s1
     let asid := asidOf t0.satp
     ∃ t r, exec (.cpq w) s = .next t ∧ OnlyThreads [k] s t ∧ EndsWith w r t0 (thr t k) ∧
       (badTicket s t0.part asid v = true → r = stw 4) ∧
       (badTicket s t0.part asid v = false → copyOfTicket s t0.part asid v = none → r = 0) ∧
       ∀ c, badTicket s t0.part asid v = false → copyOfTicket s t0.part asid v = some c →
         r = w64 ((c.nominal - c.done * copyEs c.maj c.fn c.layout) * 16 + c.state))

/-- R298, R299, R306, R313-R317: COPY_START makes a QUEUED operation ACTIVE unless an earlier one of the core conflicts. COPY_DONE of an
operation with one byte to go writes that byte, credits the entry with the nominal size, releases the locks, retires the
operation, and lets a `drain` that waited for it alone go on with 1. COPY_TRANSLATION_FAULT stalls it and COPY_FAULTED ends it without a
credit, each with a record of KIND 2.

R306, R308-R310: COPY_DONE of an operation with one element to go moves that element: `cpr` adds it to the destination's, modulo 2^32 in
i32; `cpt` moves it between the box and the dense side, `cpg` from and `cps` to the row that the index names, `cpim` from the input element
of its output pixel and tap; what lies outside gives the fill element. No other byte changes.

How much of an operation one turn moves is the model's (log 22). -/
def Obligations.CopySteps : Prop :=
  (∀ s i c, s.copies[i]? = some c → c.state = 1 →
    ((∃ x ∈ s.copies.take i, x.die = c.die ∧ x.core = c.core ∧ copiesConflict x c = true) → exec (.copyStart i) s = .next s) ∧
    ((∀ x ∈ s.copies.take i, x.die = c.die → x.core = c.core → copiesConflict x c = false) →
      ∃ t, exec (.copyStart i) s = .next t ∧ t = { s with copies := t.copies } ∧ { c with state := 2 } ∈ t.copies ∧
        ∀ x ∈ s.copies, x.id ≠ c.id → x ∈ t.copies)) ∧
  (∀ s i c m p1 q1 p2 q2 s1 s2, mkeys s.threads = true → s.copies[i]? = some c → c.state = 2 → c.maj = 0x59 → c.done + 1 = c.nominal →
    c.orig = [] → c.copied = [] → c.flags = 0 → (c.s1.toNat ≤ c.s2.toNat ∨ c.s2.toNat + c.nominal ≤ c.s1.toNat) → c.solo = false →
      c.nosync = false →
    copyReach s c (c.s2 + w64 c.done) 1 false = (.ok (.mem p1 q1), s1) →
    copyReach s1 c (c.s1 + w64 c.done) 1 true = (.ok (.mem p2 q2), s2) → managed q1 = false → managed q2 = false →
    team? s c.part (asidOf c.satp) c.team = some m → m.serial = c.serial → m.st = .resident →
    let e := syncOf m c.entry
    e.kind = 1 → e.waiters = [] → e.value + c.nominal ≤ 2 ^ 48 - 1 →
    ∃ t, exec (.copyDone i) s = .next t ∧ Memory.byte t.mem p2 = Memory.byte s1.mem p1 ∧
      (∀ a, a ≠ p2 → Memory.byte t.mem a = Memory.byte s2.mem a) ∧
      syncOf (team t c.part (asidOf c.satp) c.team) c.entry = { e with value := e.value + c.nominal } ∧
      t.copies = s.copies.filter (fun x => x.id ≠ c.id) ∧ (∀ n, ∀ x ∈ (core t n).rlocks, x.copy ≠ c.id) ∧
      ∀ j fn, (thr s j).wait = .drain fn [c.id] [] [] → (thr s j).st = .blocked →
        (thr t j).st = .ready ∧ (thr t j).wait = .none ∧ EndsWith (thr s j).ww 1 (thr s j) (thr t j)) ∧
  (∀ s i c (x : Nat) m org dst bs p2 q2 s1 s2, mkeys s.threads = true → s.copies[i]? = some c → c.state = 2 → c.done + 1 = c.total →
    c.orig = [] → c.copied = [] → c.nosync = true → c.solo = false → team? s c.part (asidOf c.satp) c.team = some m →
    m.serial = c.serial → m.st = .resident → (member m c.tidx).loc = .here →
    let es := copyEs c.maj c.fn c.layout
    MovesElement c x org dst → es ∈ [1, 2, 4, 8] → dst.toNat % es = 0 → ReadsSource s c org bs s1 →
    copyReach s1 c dst es true = (.ok (.mem p2 q2), s2) → managed q2 = false →
    let d := ofBytes (rdBytes s2 p2 es)
    let v := ofBytes bs
    let fm := c.fn / 4
    ∃ t, exec (.copyDone i) s = .next t ∧ (∀ a, a < p2 ∨ p2 + es ≤ a → Memory.byte t.mem a = Memory.byte s2.mem a) ∧
      (c.maj ≠ 0x5C → rdBytes t p2 es = bs) ∧
      (c.maj = 0x5C → fm = 6 → ofBytes (rdBytes t p2 es) = (d + v) % 2 ^ 32) ∧
      (c.maj = 0x5C → fm ≤ 2 → ofBytes (rdBytes t p2 es) =
        (roundTo (ffmt fm) .rne false 0 (fadd .rne (fval (ffmt fm) d) (fval (ffmt fm) v)).1).bits % 256 ^ es)) ∧
  (∀ s i c c' code va wr s1, s.copies[i]? = some c → c.state = 2 → code < 256 →
    copyRun s c (c.total - c.done) = ((c', some (.xlat code va wr)), s1) →
    ∃ t r, exec (.copyTranslationFault i) s = .next t ∧ { c' with state := 3 } ∈ t.copies ∧ t.mem = s1.mem ∧
      (part t c.part).fqPend = (part s c.part).fqPend ++ [r] ∧ bits (dw r 0) 63 60 = 2 ∧ bits (dw r 0) 55 48 = code ∧ dw r 2 = va ∧
      bit (dw r 6) 8 = false ∧ bit (dw r 6) 0 = wr) ∧
  ∀ s i c c' va wr s1, s.copies[i]? = some c → c.state = 2 →
    copyRun s c (c.total - c.done) = ((c', some (.fault va wr)), s1) →
    ∃ t r, exec (.copyFaulted i) s = .next t ∧ t.copies = s.copies.filter (fun x => x.id ≠ c.id) ∧ t.mem = s1.mem ∧
      (part t c.part).fqPend = (part s c.part).fqPend ++ [r] ∧ bits (dw r 0) 63 60 = 2 ∧ bits (dw r 0) 55 48 = 0x0B ∧ dw r 2 = va ∧
      bit (dw r 6) 8 = true ∧ bit (dw r 6) 0 = wr

/-! Ordering, atomics and translation caches. -/

/-- R331-R335: the fences pass. `ldacq` gives the sign-extended value where its address lands, `strel` stores the low bytes, `amos` gives
the old value and stores the result of its operation, and `casx` gives the old value, of one register or a pair, and stores the new
one exactly where the old one is the expected one; no other byte changes. A misaligned address raises cause 0x08. A page that may not
be written gives a `casx` cause 0x0A whatever stands there.

That the fences only pass is the model's reading of them in one order of accesses (log 4). -/
def Obligations.OrderedAccesses : Prop :=
  (∀ s w, s.cur.keys.Nodup → ∀ i ∈ [Instr.fences w, .fencesc w],
    ∃ t, exec i s = .next t ∧ OnlyThreads s.cur.keys s t ∧
      ∀ k ∈ s.cur.keys, EndsZero w (thr s k) (thr t k) ∧ KeepsRest (thr s k) (thr t k)) ∧
  ∀ s k w, s.cur.keys = [k] → (thr s k).helper = false →
    let t0 := thr s k
    let va := src t0 w.s1
    let plain := fun (pat : Word) => managed pat = false ∨ isSimt k = false
    let frame := fun (pa n : Nat) (s1 t : State) => ∀ a, a < pa ∨ pa + n ≤ a → Memory.byte t.mem a = Memory.byte s1.mem a
    (let n := 2 ^ (w.fn.toNat % 4)
     va.toNat % n = 0 → ∀ pa pat s1, plain pat →
       (reach s k va n .load false = (.ok (.mem pa pat), s1) →
         ∃ t, exec (.ldacq w) s = .next t ∧ EndsWith w (sext (8 * n) (ofBytes (rdBytes s1 pa n))) t0 (thr t k) ∧ KeepsMemory s1 t) ∧
       (reach s k va n .store false = (.ok (.mem pa pat), s1) → ¬ (n = 4 ∧ pa % 4096 < 8 ∧ pa / 4096 ∈ s1.intPages) →
         ∃ t, exec (.strel w) s = .next t ∧ EndsZero w t0 (thr t k) ∧ frame pa n s1 t ∧
           ofBytes (rdBytes t pa n) = (src t0 w.s2).toNat % 256 ^ n)) ∧
    (let n := if w.fn.getLsbD 4 then 8 else 4
     va.toNat % n = 0 → ∀ pa pat s1, plain pat → reach s k va n .store false = (.ok (.mem pa pat), s1) →
       let old := ofBytes (rdBytes s1 pa n)
       ∃ t, exec (.amos w) s = .next t ∧ EndsWith w (sext (8 * n) old) t0 (thr t k) ∧ frame pa n s1 t ∧
         ofBytes (rdBytes t pa n) = amoResult (amosOp (w.fn.toNat % 16)) n old (src t0 w.s2).toNat % 256 ^ n) ∧
    (w.fn ≠ 1 → va.toNat % 8 = 0 → ∀ pa pat s1, plain pat → reach s k va 8 .store false = (.ok (.mem pa pat), s1) →
      ∃ t, exec (.casx w) s = .next t ∧ EndsWith w (rdWord s1 pa) t0 (thr t k) ∧ frame pa 8 s1 t ∧
        rdWord t pa = if rdWord s1 pa = src t0 w.s2 then src t0 w.s3 else rdWord s1 pa) ∧
    (w.fn = 1 → va.toNat % 16 = 0 → ∀ pa pat s1, plain pat → reach s k va 16 .store false = (.ok (.mem pa pat), s1) →
      let lo := rdWord s1 pa
      let hi := rdWord s1 (pa + 8)
      let same := lo.toNat + 2 ^ 64 * hi.toNat = pairVal t0 w.s2
      ∃ t, exec (.casx w) s = .next t ∧ frame pa 16 s1 t ∧ (thr t k).pc = t0.pc + 8 ∧ getLatch (thr t k) w.lt.toNat = lo ∧
        (w.w = false → w.d ≠ 0 → getReg (thr t k) w.d.toNat = lo ∧ getReg (thr t k) (w.d.toNat + 1) = hi) ∧
        KeepsRegs (if w.w || w.d = 0 then [] else [w.d.toNat, w.d.toNat + 1]) t0 (thr t k) ∧
        (same → ofBytes (rdBytes t pa 16) = pairVal t0 w.s3) ∧ (¬ same → KeepsMemory s1 t)) ∧
    (∀ i n acc, (i, n, acc) ∈ [(Instr.ldacq w, 2 ^ (w.fn.toNat % 4), Acc.load), (.strel w, 2 ^ (w.fn.toNat % 4), .store),
        (.amos w, (if w.fn.getLsbD 4 then 8 else 4), .store), (.casx w, (if w.fn = 1 then 16 else 8), .store)] →
      va.toNat % n ≠ 0 → exec i s = .next (raise s k 0x08 va acc)) ∧
    (let n := if w.fn = 1 then 16 else 8
     let c := ctxOf s k .store
     va.toNat % n = 0 → xlatWaits s c va .store = false → ∀ s1, translate s c va .store = (.error 0x0A, s1) →
       exec (.casx w) s = .next (raise s1 k 0x0A va .store))

/-- R346, R363, R365, R366: `tlbip` with a bad ASID gives 4, with no agent to wait for gives 0, and else waits; each agent's
acknowledgement removes its matching entries, and the last one ends the instruction. A miss gets a walker; the walk that completes leaves
a translation of the address in the core's cache. The end of a sweep leaves only race tags of the running phase.

That an entry stays until then is the model's (log 7). -/
def Obligations.TranslationCaches : Prop :=
  (∀ s k w, s.cur.keys = [k] → isHart k = true →
    let bad := w.imm11.getLsbD 1 = false ∧ bits (src (thr s k) w.s2) 63 16 ≠ 0
    let agents := shootAgents s (partOf s k)
    (bad → ∃ t, exec (.tlbip w) s = .next t ∧ OnlyThreads [k] s t ∧ EndsWith w (stw 4) (thr s k) (thr t k)) ∧
    (¬ bad → agents = [] → ∃ t, exec (.tlbip w) s = .next t ∧ OnlyThreads [k] s t ∧ EndsWith w 0 (thr s k) (thr t k)) ∧
    (¬ bad → agents ≠ [] → ∃ t x, exec (.tlbip w) s = .next t ∧ (thr t k).wait = .tlbip ∧ (thr t k).pc = (thr s k).pc ∧
      KeepsRegs [] (thr s k) (thr t k) ∧ t.shoots = s.shoots ++ [x] ∧ x.part = partOf s k ∧ x.key = k ∧ x.waits = agents ∧
      x.va = src (thr s k) w.s1 ∧ x.asid = bits (src (thr s k) w.s2) 15 0 ∧ x.av = w.imm11.getLsbD 0 ∧ x.aa = w.imm11.getLsbD 1 ∧
      t.tlb = s.tlb)) ∧
  (∀ s p a x, s.shoots = [x] → x.part = p → a ∈ x.waits → shootReady s x a = true →
    ∃ t, exec (.tlbipAck p a) s = .next t ∧ (∀ e ∈ t.tlb, e ∈ s.tlb ∧ (e.cache = a → shootEntry x e = false)) ∧
      (∀ e ∈ s.tlb, e.cache ≠ a → e ∈ t.tlb) ∧
      ((∀ y ∈ x.waits, y = a) → (thr s x.key).wait = .tlbip → t.shoots = [] ∧ (thr t x.key).wait = .none ∧
        EndsWith (thr s x.key).ww 0 (thr s x.key) (thr t x.key)) ∧
      ((∃ y ∈ x.waits, y ≠ a) → t.shoots = [{ x with waits := x.waits.filter (· ≠ a) }] ∧
        ∀ j, (∀ q, (thr s j).wait ≠ .queue q) → mget? t.threads j = mget? s.threads j)) ∧
  (∀ s d x, s.walks = [x] → dieOf x.key = d → x.phase = 0 →
    ∃ t, exec (.pageWalk d) s = .next t ∧ t = { s with walks := [{ x with phase := 1 }] }) ∧
  (∀ s d x pa pat s1, s.walks = [x] → dieOf x.key = d → x.phase = 1 → isSimt x.key = true →
    let acc : Acc := if x.write then .store else .load
    let c := ctxOf s x.key acc
    bits c.satp 63 60 = 10 → walkWaits s c x.va acc = false → translate s c x.va acc = (.ok (pa, pat), s1) →
    ∃ t, exec (.walkComplete d 0) s = .next t ∧ t = { s1 with walks := [{ x with phase := 2 }] } ∧
      ∃ e ∈ t.tlb, e.cache = coreOf x.key ∧ e.vpn ≤ bits x.va 56 12 ∧ bits x.va 56 12 < e.vpn + e.pages) ∧
  ∀ s p asid num m, team? s p asid num = some m → m.sweep = true →
    (m.heldPhase = none → ∃ t, exec (.raceSweepEnd p asid num) s = .next t ∧ t.threads = s.threads ∧ KeepsMemory s t ∧
      (team t p asid num).sweep = false ∧ (∀ x ∈ (team t p asid num).tags, x.2.par = decide (m.phase % 2 = 1)) ∧
      ∀ x ∈ m.tags, x.2.par = decide (m.phase % 2 = 1) → x ∈ (team t p asid num).tags) ∧
    (∀ n, m.heldPhase = some n → (syncOf m n).kind = 2 → (syncOf m n).tb = true → phaseDone m (syncOf m n) = true →
      (syncOf m n).pend = 0 → ∃ t, exec (.raceSweepEnd p asid num) s = .next t ∧
        (team t p asid num).phase = (m.phase + 1) % 2 ^ 64 ∧
        syncOf (team t p asid num) n = { syncOf m n with phase := ((syncOf m n).phase + 1) % 65536, arrived := 0 })

/-! Row operations. -/

/-- R374-R378, R380, R382: `rcpy`, `rfil` and `rbop` of one thread or hart complete where their operands pass the checks of R376: one
QUEUED operation with these pages starts and the result is its path code, but a hart's operation without an entry holds the hart. An
entry that does not suit gives its status; a page that R371 forbids gives 5 and a page named twice 4; a locked page raises cause
0x0C and one outside the partition 0x0B; with no operation free a SIMT thread waits for room. `rq` completes where its two addresses raise no page fault: it gives the place
of the first page with the path to the second one, or to itself where S2 is 0, or PATH 3 where the first is no operand.

What `rq` gives for a page that is no operand is the model's reading (log 24). -/
def Obligations.RowIssue : Prop :=
  ∀ s k w, s.cur.keys = [k] → isCob k = false → (thr s k).helper = false →
    let t0 := thr s k
    (∀ i maj, (i, maj) ∈ [(Instr.rcpy w, 0x78), (.rfil w, 0x79), (.rbop w, 0x7A)] →
      let ent := w.imm11.toNat % 64
      let nosync := w.imm11.getLsbD 6
      let r1 := src t0 w.s1
      let n := bits r1 8 0 + 1
      let d := w64 (bits r1 63 12 * 4096)
      let srcs := rowSources maj w.fn.toNat (src t0 w.s2) (src t0 w.s3)
      (nosync = false → rowEntry s k ent ≠ 0 →
        ∃ t, exec i s = .next t ∧ OnlyThreads [k] s t ∧ EndsWith w (stw (rowEntry s k ent)) t0 (thr t k)) ∧
      ((nosync = true ∨ rowEntry s k ent = 0) → bits r1 11 9 ≠ 0 → exec i s = .next (raise s k 0x08 r1 .store)) ∧
      ((nosync = true ∨ rowEntry s k ent = 0) → bits r1 11 9 = 0 → (∀ a ∈ srcs, bits a 11 0 = 0) → ∀ dp s1 sp s2,
        rowPages s k .store (pageVas d n) = (.ok dp, s1) → rowSrcPages s1 k n srcs = (.ok sp, s2) →
        let pages := ∀ l ∈ dp :: sp, ∀ x ∈ l, rowPage s2 x.1 x.2 = true ∨ rowShut s2 k x.1 x.2 = true
        let dst := dp.map (·.1)
        let sps := sp.map fun l => l.map (·.1)
        ((∃ l ∈ dp :: sp, ∃ x ∈ l, rowPage s2 x.1 x.2 = false ∧ rowShut s2 k x.1 x.2 = false) →
          ∃ t, exec i s = .next t ∧ OnlyThreads [k] s2 t ∧ EndsWith w (stw 5) t0 (thr t k)) ∧
        (pages → rowClash dst sps = true → ∃ t, exec i s = .next t ∧ OnlyThreads [k] s2 t ∧ EndsWith w (stw 4) t0 (thr t k)) ∧
        (pages → rowClash dst sps = false → ∀ va acc, rowLocked s2 k n d srcs = some (va, acc) →
          exec i s = .next (raise s2 k 0x0C va acc)) ∧
        (pages → rowClash dst sps = false → rowLocked s2 k n d srcs = none → ∀ va acc, rowRefused s2 k n d srcs dp sp = some (va, acc) →
          exec i s = .next (raise s2 k 0x0B va acc)) ∧
        (pages → rowClash dst sps = false → rowLocked s2 k n d srcs = none → rowRefused s2 k n d srcs dp sp = none → rowsHeld s2 k ≥ (if isSimt k then 16 else 4) →
          isSimt k = true → ∃ t, exec i s = .next t ∧ OnlyThreads [k] s2 t ∧ (thr t k).wait = .room .rows ∧ (thr t k).pc = t0.pc))) ∧
    (let starts := fun (i : Instr) (maj : Nat) => ∀ s2 dst sps, rowOperands s k w maj = some (s2, dst, sps) →
        ∃ t r, exec i s = .next t ∧ t.rowOps = s2.rowOps ++ [r] ∧ KeepsMemory s2 t ∧ r.maj = maj ∧ r.fn = w.fn.toNat ∧ r.dst = dst ∧
          r.srcA = sps.getD 0 [] ∧ r.srcB = sps.getD 1 [] ∧ r.pattern = src t0 w.s2 ∧ r.entry = w.imm11.toNat % 64 ∧
          r.nosync = w.imm11.getLsbD 6 ∧ r.active = false ∧ r.next = 0 ∧ r.path = rowPath s2 dst sps ∧ r.part = partOf s k ∧
          r.asid = asidK s k ∧ (∀ j, j ≠ k → mget? t.threads j = mget? s2.threads j) ∧
          (isHart k = false ∨ r.nosync = false → EndsWith w (w64 r.path) t0 (thr t k)) ∧
          (isHart k = true → r.nosync = true → (thr t k).wait = .rowOp r.id ∧ (thr t k).pc = t0.pc ∧ KeepsRegs [] t0 (thr t k))
     starts (.rcpy w) 0x78 ∧ starts (.rfil w) 0x79 ∧ starts (.rbop w) 0x7A) ∧
    (∀ s2 a b, rqOperands s k w = some (s2, a, b) → ∃ t, exec (.rq w) s = .next t ∧ OnlyThreads [k] s2 t ∧
      EndsWith w (match a, b with
        | none, _ => 0xC000_0000_0000_0000
        | some pa, none => rqWord s2 2 pa
        | some pa, some pb => rqWord s2 (if subarrayMates pa pb then 0 else if bankMates s2 pa pb then 1 else 2) pa) t0 (thr t k))

/-- R375, R380, R386-R389: ROW_OP_START makes a QUEUED operation ACTIVE unless an earlier one of its issuer conflicts. ROW_OP_DONE leaves
every byte of the destination pages with the copy, the pattern or the bitwise function of the source bytes, changes no other
byte, credits the entry with 4096 bytes a page and its path count, and ends a hart's wait. An uncorrectable error in a source ends the
operation with a record of KIND 3. A precharge counts an activation, or resets the count and marks the row.

How much of an operation one turn moves is the model's (log 22). -/
def Obligations.RowSteps : Prop :=
  (∀ s i r, s.rowOps[i]? = some r → r.active = false →
    ((∃ x ∈ s.rowOps.take i, rowsConflict x r = true) → exec (.rowOpStart i) s = .next s) ∧
    ((∀ x ∈ s.rowOps.take i, rowsConflict x r = false) →
      ∃ t, exec (.rowOpStart i) s = .next t ∧ t = { s with rowOps := t.rowOps } ∧ { r with active := true } ∈ t.rowOps)) ∧
  (∀ s i r, mkeys s.threads = true → s.rowOps[i]? = some r → r.active = true → r.next = 0 →
    (∀ m, team? s r.part r.asid r.team = some m → m.st = .resident) → (r.maj = 0x78 ∨ r.maj = 0x79 ∨ r.maj = 0x7A) → r.fn < 6 →
    (∀ n ∈ r.rest, rowHeld s r n = false ∧ rowPoison s r n = false) →
    (∀ x ∈ s.l1, ∀ p ∈ r.dst ++ r.srcA ++ r.srcB, x.line / 64 ≠ p / 4096) →
    r.dst.Nodup → (∀ p ∈ r.dst ++ r.srcA ++ r.srcB, p % 4096 = 0) →
    (r.maj ≠ 0x79 → r.srcA.length = r.dst.length) → (r.maj = 0x7A → r.fn ≠ 3 → r.srcB.length = r.dst.length) →
    (∀ x y : Nat, x < r.dst.length → y < r.dst.length → r.srcA[x]? = r.dst[y]? ∨ r.srcB[x]? = r.dst[y]? → x = y) →
    ∃ t, exec (.rowOpDone i) s = .next t ∧ t.rowOps = s.rowOps.filter (fun x => x.id ≠ r.id) ∧
      (∀ a, (∀ p ∈ r.dst, a < p ∨ p + 4096 ≤ a) → Memory.byte t.mem a = Memory.byte s.mem a) ∧
      (∀ x < r.dst.length, ∀ o < 4096,
        let at_ := fun (l : List Nat) => Memory.byte s.mem (l.getD x 0 + o)
        let a := at_ r.srcA
        let b := at_ r.srcB
        let c := at_ r.dst
        Memory.byte t.mem (r.dst.getD x 0 + o) =
          if r.maj = 0x78 then a else if r.maj = 0x79 then BitVec.ofNat 8 (r.pattern.toNat / 256 ^ (o % 8))
          else match r.fn with
            | 0 => a &&& b | 1 => a ||| b | 2 => a ^^^ b | 3 => ~~~ a | 4 => (a &&& b) ||| (a &&& c) ||| (b &&& c) | _ => a &&& ~~~ b) ∧
      (r.nosync = false → ∀ m, team? s r.part r.asid r.team = some m → m.serial = r.serial → m.st = .resident → r.team ≠ 0 → r.path < 3 →
        let e := syncOf m r.entry
        e.kind = 1 → e.waiters = [] → e.value + 4096 * r.dst.length ≤ 2 ^ 48 - 1 →
        let e' := syncOf (team t r.part r.asid r.team) r.entry
        e'.value = e.value + 4096 * r.dst.length ∧ e'.nis = (if r.path = 0 then min 15 (e.nis + 1) else e.nis) ∧
        e'.nbk = (if r.path = 1 then min 15 (e.nbk + 1) else e.nbk) ∧ e'.nfb = (if r.path = 2 then min 15 (e.nfb + 1) else e.nfb)) ∧
      (r.nosync = true → (thr s r.key).wait = .rowOp r.id → (thr t r.key).wait = .none ∧
        EndsWith (thr s r.key).ww (w64 r.path) (thr s r.key) (thr t r.key))) ∧
  (∀ s i r page, s.rowOps[i]? = some r → r.active = true → page < r.dst.length →
    (∀ n ∈ r.rest, (n / 64 ≤ page → rowHeld s r n = false) ∧ (n / 64 < page → rowPoison s r n = false)) →
    (∃ n ∈ r.rest, n / 64 = page ∧ rowPoison s r n = true) →
    ∃ t f, exec (.rowOpFaulted i page) s = .next t ∧ t.rowOps = s.rowOps.filter (fun x => x.id ≠ r.id) ∧
      (part t r.part).fqPend = (part s r.part).fqPend ++ [f] ∧ bits (dw f 0) 63 60 = 3 ∧ dw f 1 = r.pc ∧
      dw f 2 = r.va + w64 (4096 * page)) ∧
  (∀ s row, let c := mget 0 s.rowCnt row
    (c + 1 < min 4095 (max 256 s.actThresh) → ∃ t, exec (.rowPrecharge row false) s = .next t ∧ mget 0 t.rowCnt row = c + 1 ∧
      t = { s with rowCnt := t.rowCnt } ∧ ∀ x, x ≠ row → mget 0 t.rowCnt x = mget 0 s.rowCnt x) ∧
    (max 256 s.actThresh ≤ c + 1 → c + 1 < 4095 → ∃ t, exec (.rowPrecharge row false) s = .next t ∧ mget 0 t.rowCnt row = 0 ∧
      row ∈ t.rowDue) ∧
    (4095 ≤ c + 1 → ∃ t, exec (.rowPrecharge row false) s = .next t ∧ mget 0 t.rowCnt row = 0 ∧
      t.actSatn = min 0xFFFF (s.actSatn + 1)) ∧
    (∃ t, exec (.rowPrecharge row true) s = .next t ∧ mget 0 t.rowCnt row = 0 ∧ t.actCorr = min 0xFFFF (s.actCorr + 1) ∧
      t.mirqs = s.mirqs + 1) ∧
    ∃ t, exec (.deferredMitigation row) s = .next t ∧ row ∉ t.rowDue ∧ t = { s with rowDue := t.rowDue })

/-! Laces. -/

/-- R396, R398-R407: the lace instructions of one thread or hart. A handle, offset or eyelet state that R399 refuses raises cause 0x15.
`lst` and `lamo` send one laced operation; `lst` gives 0 and `lamo` waits at the word. `lseq` gives the eyelet's state, buffered
count and APPLIED; `lwait` gives APPLIED once the stamp is reached, and waits until then; `lfence` waits for the issuer's unstamped
operations. `ljoin` binds an eyelet to a lace and gives its first stamp, or its status; `lleave` gives the final APPLIED once the eyelet
has applied what was stamped before, and waits until then. -/
def Obligations.LaceInstructions : Prop :=
  ∀ s k w, mkeys s.threads = true → s.cur.keys = [k] → isCob k = false → (thr s k).helper = false →
    let t0 := thr s k
    let h := src t0 w.s1
    let off := src t0 w.s2
    let y := eyelet s (hEye h)
    let waits := fun (s1 t : State) => (∀ j, j ≠ k → mget? t.threads j = mget? s1.threads j) ∧ (thr t k).pc = t0.pc ∧
      KeepsRegs [] t0 (thr t k) ∧ KeepsMemory s1 t
    (∀ r, laceCheck s k h off (hLen h) true = some r → exec (.lst w) s = .next (raiseLace s k h r)) ∧
    (∀ r, laceCheck s k h off 8 false = some r → exec (.lamo w) s = .next (raiseLace s k h r)) ∧
    (laceCheck s k h off (hLen h) true = none → (src t0 w.s3).toNat % 8 = 0 → ∀ bs s1,
      lstRead s k (src t0 w.s3) (hLen h) = (.ok bs, s1) → lacedHeld s1 k < 32 →
      ∃ t o, exec (.lst w) s = .next t ∧ EndsWith w 0 t0 (thr t k) ∧ KeepsMemory s1 t ∧ t.laced = s1.laced ++ [o] ∧ o.lace = hLace h ∧
        o.eye = hEye h ∧ o.kind = 0 ∧ o.off = off.toNat ∧ o.data = bs ∧ o.key = k ∧ o.tid = t0.tid) ∧
    (laceCheck s k h off 8 false = none → lacedHeld s k < 32 →
      ∃ t o, exec (.lamo w) s = .next t ∧ waits s t ∧ t.laced = s.laced ++ [o] ∧ (thr t k).wait = .lamo (hEye h) o.id ∧
        o.lace = hLace h ∧ o.kind = w.fn.toNat + 1 ∧ o.off = off.toNat ∧ ofBytes o.data = (src t0 w.s3).toNat ∧ o.data.length = 8) ∧
    (handleWrong s k h false = true → ∀ i ∈ [Instr.lseq w, .lwait w], exec i s = .next (raiseLace s k h 3)) ∧
    (handleWrong s k h false = false →
      (∃ t, exec (.lseq w) s = .next t ∧ OnlyThreads [k] s t ∧
        EndsWith w (w64 (y.st * 2 ^ 56 + y.buf.length * 2 ^ 49 + y.applied)) t0 (thr t k)) ∧
      (bits off 63 48 = 0 → y.st ≠ 3 → reached y.applied off.toNat = true →
        ∃ t, exec (.lwait w) s = .next t ∧ OnlyThreads [k] s t ∧ EndsWith w (w64 y.applied) t0 (thr t k)) ∧
      (bits off 63 48 = 0 → y.st ≠ 3 → reached y.applied off.toNat = false →
        ∃ t, exec (.lwait w) s = .next t ∧ waits s t ∧ (thr t k).wait = .lace (hEye h) off.toNat y.joins)) ∧
    ((∀ o ∈ s.laced, ¬ (o.tid = t0.tid ∧ o.part = partOf s k)) →
      ∃ t, exec (.lfence w) s = .next t ∧ OnlyThreads [k] s t ∧ EndsZero w t0 (thr t k)) ∧
    ((∃ o ∈ s.laced, o.tid = t0.tid ∧ o.part = partOf s k) →
      ∃ t, exec (.lfence w) s = .next t ∧ waits s t ∧ (thr t k).wait = .lfence s.nextId) ∧
    (isHart k = true →
      let p := partOf s k
      let l := rdWords s h.toNat 8
      let e := bits (dw l 0) 27 16
      let id := bits (dw l 0) 15 0
      let lc := lace s id
      let ws := bits (dw l 2) 4 0
      let nx := bits (dw l 3) 47 0
      let start := if nx = 0 then lc.next else nx
      let status := fun (s1 : State) n => ∃ t, exec (.ljoin w) s = .next t ∧ OnlyThreads [k] s1 t ∧ EndsWith w (stw n) t0 (thr t k)
      let placed := h.toNat % 64 = 0 ∧ inRanges s p h.toNat 64 = true
      let free := (part s p).eye.testBit (e / 64) = true ∧ ((eyelet s e).st = 0 ∨ ((eyelet s e).st = 3 ∧ (eyelet s e).lace = id))
      let x : Ctx := { part := p, satp := dw l 1, user := true, cache := 0x1000 + (k - 0x10_0000), adue := (part s p).adue }
      let vas := (List.range (2 ^ (ws - 12))).map fun i => w64 (bits (dw l 2) 63 12 * 4096) + w64 (4096 * i)
      let walked := ∀ va ∈ vas, xlatWaits s x va .load = false ∧ xlatWaits s x va .store = false
      let early := nx = 0 ∨ (lc.next + 2 ^ 48 - nx) % 2 ^ 48 ≤ 4096
      (h.toNat % 64 = 0 → recordHeld s k h.toNat 64 = none) →
      (¬ placed → status s 8) ∧ (placed → joinBad l = true → status s 2) ∧ (placed → joinBad l = false → ¬ free → status s 1) ∧
      (placed → joinBad l = false → free → laceReach id = 0 → walked → (windowPages s x vas).1 = none → status s 5) ∧
      (placed → joinBad l = false → free → laceReach id = 0 → walked → (windowPages s x vas).1 ≠ none →
        (lc.open_ = false ∧ bit (dw l 0) 63 = false → status s 3) ∧
        (lc.open_ = true ∨ bit (dw l 0) 63 = true → ¬ early → status s 4)) ∧
      (placed → joinBad l = false → free → laceReach id = 0 → walked → ∀ ps s1, windowPages s x vas = (some ps, s1) →
        (lc.open_ = true ∨ bit (dw l 0) 63 = true) → early → (thr s k).wait = .none →
        ∃ t, exec (.ljoin w) s = .next t ∧ EndsWith w (w64 start) t0 (thr t k) ∧ (lace t id).open_ = true ∧ (lace t id).next = lc.next ∧
          (eyelet t e).st = (if start = lc.next then 2 else 1) ∧ (eyelet t e).lace = id ∧ (eyelet t e).pages = ps ∧
          (eyelet t e).applied = (start + 2 ^ 48 - 1) % 2 ^ 48 ∧ ∀ j, j ≠ e → eyelet t j = eyelet s j) ∧
      (bits h 63 28 ≠ 0 ∨ y.st = 0 ∨ y.lace ≠ hLace h ∨ y.part ≠ p →
        ∃ t, exec (.lleave w) s = .next t ∧ OnlyThreads [k] s t ∧ EndsWith w (stw 1) t0 (thr t k)) ∧
      (bits h 63 28 = 0 → y.lace = hLace h → y.part = p → (∀ x ∈ s.threads, x.2.wait ≠ .lleave (hEye h)) →
        let last := ((lace s y.lace).next + 2 ^ 48 - 1) % 2 ^ 48
        ((y.st = 3 ∨ ((y.st = 1 ∨ y.st = 2) ∧ reached y.applied last = true)) →
          ∃ t, exec (.lleave w) s = .next t ∧ EndsWith w (w64 y.applied) t0 (thr t k) ∧ eyelet t (hEye h) = { joins := y.joins }) ∧
        ((y.st = 1 ∨ y.st = 2) → reached y.applied last = false →
          ∃ t, exec (.lleave w) s = .next t ∧ waits s t ∧ (thr t k).wait = .lleave (hEye h) ∧
            eyelet t (hEye h) = { y with st := 4, upTo := last }) ∧
        (y.st = 4 → reached y.applied y.upTo = false →
          ∃ t, exec (.lleave w) s = .next t ∧ waits s t ∧ (thr t k).wait = .lleave (hEye h) ∧ eyelet t (hEye h) = y)))

/-- R390, R391, R393-R395, R400, R401: a laced operation that is alone takes its lace's next stamp and stands in the history; at a root
switch an operation of another package may take the stamp first. The next
stamp's operation that an eyelet receives is applied to the window: a store's or a swap's bytes, or a sum; no other byte changes,
APPLIED is the stamp, and an `lamo` that waited for it gets the old value. A later one is buffered, an earlier one changes
nothing. A gap of 20 microseconds or an error in the window makes the eyelet STALE, and closing a lace of a switch unbinds its eyelets.

What becomes of an operation at a closed lace is the model's reading (log 25). -/
def Obligations.LaceSteps : Prop :=
  (∀ s l o, s.laced = [o] → o.lace = l → (laceReach l = 0 ∨ (lace s l).open_ = false) →
    ∃ t, exec (.laceStamp l) s = .next t ∧ t.laced = [] ∧ KeepsMemory s t ∧
      ((lace s l).open_ = true → (lace t l).next = ((lace s l).next + 1) % 2 ^ 48 ∧
        (lace t l).history = ((lace s l).next, o) :: (lace s l).history.take 4095) ∧
      ((lace s l).open_ = false → lace t l = lace s l)) ∧
  (∀ s l o, s.laced = [o] → o.lace = l → laceReach l ≠ 0 → (lace s l).open_ = true →
    ∃ t op, exec (.laceStamp l) s = .next t ∧ KeepsMemory s t ∧ (lace t l).next = ((lace s l).next + 1) % 2 ^ 48 ∧
      (lace t l).history = ((lace s l).next, op) :: (lace s l).history.take 4095 ∧ ((op = o ∧ t.laced = []) ∨ t.laced = [o])) ∧
  (∀ s e n x op pa, mkeys s.threads = true → LaceWaitsStand s →
    let y := eyelet s e
    let z := op.data.length
    windowPa y op.off = some pa →
    (lace s y.lace).history.find? (fun (st, _) => st = n) = some (x, op) → y.st = 2 → y.buf = [] → y.drop = none → y.applied < 2 ^ 48 →
    n < 2 ^ 48 → (op.kind = 1 → z = 8) →
    (n = (y.applied + 1) % 2 ^ 48 → postClear s (bolcelDie y.port) pa z = true → poisoned s pa z = false →
      ∃ t, exec (.eyeletReceive e n) s = .next t ∧ (eyelet t e).applied = n ∧
        (∀ a, a < pa ∨ pa + z ≤ a → Memory.byte t.mem a = Memory.byte s.mem a) ∧
        (op.kind ≠ 1 → rdBytes t pa z = op.data) ∧
        (op.kind = 1 → ofBytes (rdBytes t pa 8) = (ofBytes (rdBytes s pa 8) + ofBytes op.data) % 2 ^ 64) ∧
        (op.eye = e → (thr s op.key).wait = .lamo e op.id → (thr t op.key).wait = .none ∧
          EndsWith (thr s op.key).ww (w64 (ofBytes (rdBytes s pa z))) (thr s op.key) (thr t op.key)) ∧
        ∀ j m i, isSimt j = true → (thr s j).wait = .lace e m i → (thr s j).st = .blocked → reached n m = true →
          (thr t j).st = .ready ∧ EndsWith (thr s j).ww (w64 n) (thr s j) (thr t j)) ∧
    (let d := (n + 2 ^ 48 - (y.applied + 1) % 2 ^ 48) % 2 ^ 48
     (0 < d → d < 64 → ∃ t, exec (.eyeletReceive e n) s = .next t ∧ t = { s with eyelets := t.eyelets } ∧
       (eyelet t e).buf = [(n, op)] ∧ (eyelet t e).applied = y.applied ∧ ((eyelet t e).gapUs).isSome = true) ∧
     (2 ^ 47 ≤ d → ∃ t, exec (.eyeletReceive e n) s = .next t ∧ t = { s with eyelets := t.eyelets } ∧ (eyelet t e).buf = [] ∧
       (eyelet t e).applied = y.applied))) ∧
  (∀ s e g, (eyelet s e).gapUs = some g →
    (g + 2 + 4 * (eyelet s e).asked ≤ s.us → ∃ t, exec (.resendRequest e) s = .next t ∧ t = { s with eyelets := t.eyelets } ∧
      eyelet t e = { eyelet s e with asked := (eyelet s e).asked + 1 }) ∧
    (s.us < g + 2 + 4 * (eyelet s e).asked → exec (.resendRequest e) s = .next s) ∧
    (g + 20 ≤ s.us → (eyelet s e).st = 2 → ∃ t, exec (.eyeletStale e) s = .next t ∧ (eyelet t e).st = 3 ∧ (eyelet t e).reason = 0 ∧
      (eyelet t e).buf = []) ∧
    (s.us < g + 20 → exec (.eyeletStale e) s = .next s)) ∧
  (∀ s e, (eyelet s e).st = 2 → (∃ a ∈ (eyelet s e).pages, poisoned s a 4096 = true) →
    ∃ t, exec (.windowError e) s = .next t ∧ (eyelet t e).st = 3 ∧ (eyelet t e).reason = 1) ∧
  ∀ s l, mkeys s.eyelets = true → (laceReach l = 1 ∨ laceReach l = 2) → (lace s l).open_ = true →
    (∀ x ∈ s.eyelets, x.2.lace = l → ∀ a ∈ x.2.pages, lineHeld s hwKey a 4096 = false) →
    ∃ t, exec (.switchLaceClose l) s = .next t ∧ lace t l = {} ∧
      ∀ e, (eyelet s e).st ≠ 0 → (eyelet s e).lace = l → eyelet t e = { joins := (eyelet s e).joins }

/-! Cobbler cores. -/

/-- R412, R414-R418, R420, R422, R426-R428: `cbind` that is refused gives its status; one that is not puts the binding into the slot of
every slice selected; an unbind is accepted whatever its reserved bits (log 26). A miss or fill event of a line that may be absent (log
36), or an eviction of one, in a window that enables the event queues it; a full queue drops it and counts. `cmsg` queues a message for the handler of its slot, gives 2 where none takes it, and waits for room. The oldest event starts
on the free core with its arguments in a0 to a4; `cdone` writes every held byte and ends the invocation,
aborting it instead for an address outside the window; `cfwd` writes the bytes for a fill event and goes on; at BUDGET the invocation aborts and nothing it held is written. -/
def Obligations.Cobblers : Prop :=
  (∀ s k w, s.cur.keys = [k] → isHart k = true →
    ((src (thr s k) w.s1).toNat % 64 = 0 → cbindHeld s k (src (thr s k) w.s1).toNat = none) →
    ∀ c s1, cbindRecord s k (src (thr s k) w.s1).toNat = (c, s1) → s1.threads = s.threads →
    ∃ t, exec (.cbind w) s = .next t ∧ t = { s1 with threads := t.threads, harts := t.harts } ∧
      (∀ j, j ≠ k → mget? t.threads j = mget? s.threads j ∧ hart t j = hart s1 j) ∧ hart t k = { hart s1 k with shut := false } ∧ EndsWith w (if c = 0 then 0 else stw c) (thr s k) (thr t k)) ∧
  (∀ s k a, isHart k = true → (∀ x ∈ s.threads, ∀ r, x.2.wait ≠ .room r) →
    let l := rdWords s a 8
    let p := partOf s k
    let b := cobRecordOf s p l
    let set := bits (dw l 6) 35 32
    let xs := cobSlices l
    let placed := a % 64 = 0 ∧ inRanges s p a 64 = true
    (¬ placed → cbindRecord s k a = (8, s)) ∧
    (placed → bit (dw l 6) 26 = true → xs ≠ [] → (part s p).cs.testBit (16 * bits (dw l 6) 37 36 + set) = true →
      ∃ t, cbindRecord s k a = (0, t) ∧ (∀ x ∈ xs, (slice s x).run = none → binding? (slice t x) set = none) ∧
        ∀ x, x ∉ xs → slice t x = slice s x) ∧
    (placed → bit (dw l 6) 26 = false → inRanges s p (bits (dw l 0) 63 6 * 64) (bits (dw l 1) 15 0) = true →
      inRanges s p b.fq (0x40 + 32 * 2 ^ b.fqsize) = true → cobBad l b = false → xs ≠ [] →
      (part s p).cs.testBit (16 * bits (dw l 6) 37 36 + set) = true →
      (∀ x ∈ xs, ∀ o, binding? (slice s x) set = some o → o.satp = b.satp) → imageBad b = false → ∀ s1,
      pairedPages { part := p, satp := b.satp, user := true, cache := 0x1000 + (k - 0x10_0000), adue := (part s p).adue } b
        (List.range (2 ^ (b.wsize - 12))) s = (true, s1) → (∀ x ∈ xs, regionClash s1 set x b = false) →
      ∃ t, cbindRecord s k a = (0, t) ∧ (∀ x ∈ xs, (slice s x).run = none → binding? (slice t x) set = some b ∧
          ∀ i < b.slen * 1024, mget 0 (slice t x).region (b.soff * 1024 + i) = b.image.getD i 0) ∧
        ∀ x, x ∉ xs → slice t x = slice s x)) ∧
  (∀ s pa dirty i code a2, (i, code, a2) ∈ [(Instr.missEvent pa, 0, 0), (.fillEvent pa, 1, 0), (.evictionEvent pa dirty, 2, w64 (b2n dirty))] →
    (code ≠ 2 → mayBeAbsent s pa = true) → (code = 2 → lineHeld s hwKey (pa / 64 * 64) 64 = false ∧ pa / 64 ∉ s.pinned) →
    let x := homeSlice s pa
    let line := pa / 64 * 64
    (raising (slice s x) code line = [] → ∃ t, exec i s = .next t ∧ (code ≠ 2 → t = s) ∧
      (code = 2 → t = { s with stale := t.stale, zeroTags := t.zeroTags } ∧ pa / 64 ∉ t.zeroTags)) ∧
    ∀ set b, raising (slice s x) code line = [(set, b)] →
      ((slice s x).queue.length < 64 → ∃ t e, exec i s = .next t ∧ t = { s with slices := t.slices } ∧
        slice t x = { slice s x with queue := (slice s x).queue ++ [e] } ∧ e.set = set ∧ e.code = code ∧
        e.a1 = w64 (b.vabase + (line - b.pabase)) ∧ e.a2 = a2) ∧
      (64 ≤ (slice s x).queue.length → postClear s (x / 64) (b.fq + 0x18) 8 = true → poisoned s (b.fq + 0x18) 8 = false →
        ∃ t, exec i s = .next t ∧ t.slices = s.slices ∧
        rdWord t (b.fq + 0x18) = rdWord s (b.fq + 0x18) + 1 ∧
        ∀ a, a < b.fq + 0x18 ∨ b.fq + 0x20 ≤ a → Memory.byte t.mem a = Memory.byte s.mem a)) ∧
  (∀ s k w pa pat s1, s.cur.keys = [k] → isCob k = false → (thr s k).helper = false →
    let a := src (thr s k) w.s1
    a.toNat % 8 = 0 → xlatWaits s (ctxOf s k .load) a .load = false →
    translate s (ctxOf s k .load) a .load = (.ok (pa, pat), s1) → bits pat 3 2 ≠ 3 →
    inRanges s1 (partOf s k) pa 8 = true → homeOpen s1 (agentDie k) pa = true →
    let x := homeSlice s1 pa
    let taker := (raising (slice s1 x) 3 pa).find? fun (i, b) => i = w.imm11.toNat % 16 && b.satp = satpOf s k && b.part = partOf s k
    (taker = none → ∃ t, exec (.cmsg w) s = .next t ∧ OnlyThreads [k] s1 t ∧ EndsWith w (stw 2) (thr s k) (thr t k)) ∧
    (∀ y, taker = some y → (slice s1 x).queue.length < 64 → ∃ t e, exec (.cmsg w) s = .next t ∧ EndsWith w 0 (thr s k) (thr t k) ∧
      KeepsMemory s1 t ∧ (slice t x).queue = (slice s1 x).queue ++ [e] ∧ e.code = 3 ∧ e.set = w.imm11.toNat % 16 ∧ e.a1 = a ∧
      e.a2 = src (thr s k) w.s2 ∧ e.a3 = src (thr s k) w.s3 ∧ e.a4 = w64 (thr s k).tid) ∧
    (∀ y, taker = some y → 64 ≤ (slice s1 x).queue.length → isSimt k = true → ∃ t, exec (.cmsg w) s = .next t ∧ OnlyThreads [k] s1 t ∧
      (thr t k).wait = .room (.events x) ∧ (thr t k).pc = (thr s k).pc ∧ KeepsRegs [] (thr s k) (thr t k))) ∧
  (∀ s x e rest b, (slice s x).run = none → (slice s x).queue = e :: rest → binding? (slice s x) e.set = some b →
    ∃ t r, exec (.invocationStart x) s = .next t ∧ (slice t x).queue = rest ∧ (slice t x).run = some r ∧ r.ev = e ∧ r.cycles = 0 ∧
      KeepsMemory s t ∧
      (let u := thr t (cobKey x)
       u.pc = w64 (b.entry e.code) ∧ getReg u 2 = w64 (b.slen * 1024) ∧ getReg u 10 = w64 e.code ∧ getReg u 11 = e.a1 ∧
       getReg u 12 = e.a2 ∧ getReg u 13 = e.a3 ∧ getReg u 14 = e.a4 ∧ u.st = .ready)) ∧
  (∀ s x w r b, s.cur.keys = [cobKey x] → cobKey x - 0x20_0000 = x → running? s x = some (r, b) →
    let a := (src (thr s (cobKey x)) w.s1).toNat
    let inWindow := a = 0 ∨ (b.vabase ≤ a ∧ a < b.vabase + 2 ^ b.wsize)
    let commits := fun (t : State) => (r.held.map (·.1)).Nodup →
      (∀ y ∈ r.held, (y.2.map (·.1)).Nodup ∧ ∀ z ∈ y.2, z.1 < 64) →
      (∀ y ∈ r.held, ∀ z ∈ y.2, Memory.byte t.mem (64 * y.1 + z.1) = z.2) ∧
      ∀ p, (∀ y ∈ r.held, ∀ z ∈ y.2, p ≠ 64 * y.1 + z.1) → Memory.byte t.mem p = Memory.byte s.mem p
    (inWindow → ∃ t, exec (.cdone w) s = .next t ∧ (slice t x).run = none ∧ occupied t (cobKey x) = false ∧ commits t) ∧
    (¬ inWindow → ∃ t, exec (.cdone w) s = .next t ∧ (slice t x).run = none ∧ occupied t (cobKey x) = false) ∧
    (r.ev.code = 1 → r.fwd = false → ∃ t r', exec (.cfwd w) s = .next t ∧ commits t ∧ (slice t x).run = some r' ∧ r'.held = [] ∧ r'.fwd = true ∧
      r'.cycles = r.cycles ∧ EndsZero w (thr s (cobKey x)) (thr t (cobKey x))) ∧
    ((r.ev.code ≠ 1 ∨ r.fwd = true) → ∃ t, exec (.cfwd w) s = .next t ∧ OnlyThreads [cobKey x] s t ∧
      EndsZero w (thr s (cobKey x)) (thr t (cobKey x)))) ∧
  ∀ s x r b, running? s x = some (r, b) → (if b.budget = 0 then 512 else b.budget) ≤ r.cycles → r.ev.code < 4 → r.ev.set < 16 → x < 256 →
    let size := 2 ^ b.fqsize
    let tail := rdWord s (b.fq + 8)
    let slot := b.fq + 0x40 + 32 * (tail.toNat % size)
    postClear s (x / 64) b.fq 64 = true → poisoned s b.fq 64 = false → postClear s (x / 64) slot 32 = true → poisoned s slot 32 = false →
    ∃ t, exec (.budgetAbort x) s = .next t ∧ (slice t x).run = none ∧ occupied t (cobKey x) = false ∧
      ((tail - rdWord s b.fq).toNat = size → rdWord t (b.fq + 0x10) = rdWord s (b.fq + 0x10) + 1 ∧
        ∀ p, p < b.fq + 0x10 ∨ b.fq + 0x18 ≤ p → Memory.byte t.mem p = Memory.byte s.mem p) ∧
      ((tail - rdWord s b.fq).toNat ≠ size →
        rdWord t (b.fq + 8) = tail + 1 ∧ bits (rdWord t slot) 63 56 = 1 ∧ rdWord t (slot + 8) = r.ev.a1 ∧
        ∀ p, (p < b.fq + 8 ∨ b.fq + 0x10 ≤ p) → (p < slot ∨ slot + 32 ≤ p) → Memory.byte t.mem p = Memory.byte s.mem p)

/-! Trace and debug. -/

/-- R470-R472: `tmark` adds its operand to an enabled counter of its context, and puts a MARK packet into the buffer of a core that is
traced, after the SYNC of its cycle; `tbrk` of an identity without an action only passes, with action 1 raises cause 0x12 (a hart's
breakpoint exception), and with action 2 asks its team to halt. R456: beside a write of the counter by another issuer at the same count of
cycles the increment is made or lost (log 3). R467, R468: a SYNC packet at a multiple of 4096 cycles, and the LOSS packet once there is
room. -/
def Obligations.MarksAndPackets : Prop :=
  (∀ s k w, s.cur.keys = [k] → (thr s k).helper = false → isCob k = false →
    let p := partOf s k
    let v := src (thr s k) w.s1
    let n := w.imm11.toNat % 16
    let c := mget 0 (part s p).mkcnt n
    let act := bits (part s p).tbrkcfg (2 * n + 1) (2 * n)
    let quiet := bit (part s p).trctl 61 = false ∨ isHart k = true
    (quiet → ∃ t, exec (.tmark w) s = .next t ∧ EndsZero w (thr s k) (thr t k) ∧ KeepsMemory s t ∧
      t = { s with threads := t.threads, parts := t.parts, freeIdx := t.freeIdx } ∧
      (¬ (bit c 47 = true ∧ bits c 63 48 = asidK s k) → t.parts = s.parts) ∧
      (bit c 47 = true → bits c 63 48 = asidK s k →
        let c' := mget 0 (part t p).mkcnt n
        let adds := bits c' 39 0 = (bits c 39 0 + bits v 39 0) % 2 ^ 40 ∧ bit c' 47 = true ∧ bits c' 63 48 = asidK s k ∧
          bit c' 46 = (bit c 46 || decide (2 ^ 40 ≤ bits c 39 0 + bits v 39 0))
        let apart := ∀ x, mget? (part s p).mkWrite n = some x → x.1 ≠ s.cycle ∨ x.2 = k
        (apart → adds) ∧ (adds ∨ c' = c) ∧ ∀ j, j ≠ n → mget 0 (part t p).mkcnt j = mget 0 (part s p).mkcnt j)) ∧
    (isSimt k = true → coreOf k < 256 → bit (part s p).trctl 61 = true → traced s p (asidK s k) = true → bit c 47 = false →
      let x := core s (coreOf k)
      let due := s.cycle % 4096 = 0 ∧ x.syncAt ≠ s.cycle ∧ x.lastPkt ≠ s.cycle
      x.drops = 0 → x.buffer.length + (if due then 2 else 1) ≤ 128 →
      ∃ t pre pkt, exec (.tmark w) s = .next t ∧ EndsZero w (thr s k) (thr t k) ∧ KeepsMemory s t ∧ t.parts = s.parts ∧
        (core t (coreOf k)).buffer = x.buffer ++ pre ++ [pkt] ∧ bits (dw pkt.dws 0) 63 60 = 4 ∧ dw pkt.dws 1 = s.cur.pc ∧
        dw pkt.dws 2 = v ∧ dw pkt.dws 3 = w64 n ∧ (¬ due → pre = []) ∧
        (due → ∃ sync, pre = [sync] ∧ bits (dw sync.dws 0) 63 60 = 2 ∧ dw sync.dws 1 = w64 s.cycle)) ∧
    (act = 0 → ∃ t, exec (.tbrk w) s = .next t ∧ OnlyThreads [k] s t ∧ EndsZero w (thr s k) (thr t k)) ∧
    (quiet → act = 3 → ∃ t, exec (.tbrk w) s = .next t ∧ OnlyThreads [k] s t ∧ EndsZero w (thr s k) (thr t k)) ∧
    (isHart k = true → act ≠ 0 → act ≠ 3 → ∃ t, exec (.tbrk w) s = .next t ∧ TakesException k 3 v (thr s k).pc s t) ∧
    (quiet → isSimt k = true → (act = 1 ∨ (act = 2 ∧ teamK? s k = none)) → exec (.tbrk w) s = .next (raise s k 0x12 0 .load)) ∧
    (quiet → isSimt k = true → act = 2 → ∀ m, teamK? s k = some m → ∃ t m', exec (.tbrk w) s = .next t ∧
      EndsZero w (thr s k) (thr t k) ∧ team? t m.part m.asid m.num = some m' ∧ m'.halt = true ∧ m'.stopping.isSome = true ∧
      (m.stopping = none → m'.stopping = some 1) ∧ KeepsMemory s t)) ∧
  (∀ s c p, coreOwner s c = some p → bit (part s p).trctl 63 = true → s.cycle % 4096 = 0 → (core s c).syncAt ≠ s.cycle →
    (core s c).lastPkt ≠ s.cycle → (core s c).drops = 0 → (core s c).buffer.length < 128 → c < 256 → s.cycle < 2 ^ 64 →
    ∃ t pkt, exec (.traceSync c) s = .next t ∧ t = { s with cores := t.cores } ∧ (core t c).buffer = (core s c).buffer ++ [pkt] ∧
      bits (dw pkt.dws 0) 63 60 = 2 ∧ dw pkt.dws 1 = w64 s.cycle ∧ dw pkt.dws 2 = (core s c).lastPc ∧ (core t c).lastPkt = s.cycle) ∧
  ∀ s c, (core s c).drops ≠ 0 → (core s c).buffer.length + (if 4095 < s.cycle - (core s c).lastPkt then 2 else 1) ≤ 128 → c < 256 →
    ∃ t pre pkt, exec (.lossPacket c) s = .next t ∧ t = { s with cores := t.cores } ∧
      (core t c).buffer = (core s c).buffer ++ pre ++ [pkt] ∧ bits (dw pkt.dws 0) 63 60 = 3 ∧ dw pkt.dws 1 = w64 (core s c).dropAt ∧
      dw pkt.dws 2 = w64 (core s c).drops ∧ (core t c).drops = 0 ∧ pre.length ≤ 1

/-- R461-R464, R474: a `dbgctl` write whose team does not exist sets ERR. A stop halts a team whose one member is at a boundary: STATE is
6 in its frame, HALT is set and `dbgev` names the team. A resume gives a halted member back the state it held, where one whose wait has
ended meanwhile is ready, which is the model's reading (log 30), and a reload its registers from the frame too. `cexp` starts a trial that its record describes, ends the running one with ABORT for the address 0, and
else gives its status; TRIAL_END writes the counts and differences, then DONE. -/
def Obligations.DebugAndTrials : Prop :=
  (∀ s k v, supHart s k = true → bit (part s (partOf s k)).dbgctl 63 = false →
    let p := partOf s k
    let asid := bits v 47 32
    let num := bits v 19 8
    (∀ i n, (i, n) ∈ [(Instr.dbgctlStop k v, 1), (.dbgctlResume k v, 2), (.dbgctlReload k v, 3)] → bits v 2 0 = n →
      team? s p asid num = none → ∃ t, exec i s = .next t ∧ t = { s with parts := t.parts } ∧ bit (part t p).dbgctl 62 = true ∧
        bit (part t p).dbgctl 63 = false ∧ ∀ q, q ≠ p → part t q = part s q) ∧
    (bits v 2 0 = 1 → ∀ m j, s.teams = [m] → m.part = p → m.asid = asid → m.num = num → m.st = .resident → residents m = [j] →
      (thr s j).st = .ready → (thr s j).wait = .none → (thr s j).chain.live = false → (thr s j).ops = [] → (thr s j).trap.inh = false →
      (thr s j).held.length ≤ 8 → postClear s (agentDie j) (thr s j).frame 1024 = true →
      ∃ t, exec (.dbgctlStop k v) s = .next t ∧ (thr t j).st = .halted ∧ (thr t j).before = .ready ∧ (thr t j).pc = (thr s j).pc ∧
        KeepsRegs [] (thr s j) (thr t j) ∧ bits (rdWord t (thr s j).frame) 3 0 = 6 ∧ (team t p asid num).halt = true ∧
        bit (part t p).dbgctl 63 = false ∧ bit (part t p).dbgev 63 = true ∧ bits (part t p).dbgev 47 32 = asid ∧
        bits (part t p).dbgev 19 8 = num ∧ ∀ a, a < (thr s j).frame ∨ (thr s j).frame + 1024 ≤ a →
          Memory.byte t.mem a = Memory.byte s.mem a) ∧
    (∀ i n m j, (i, n) ∈ [(Instr.dbgctlResume k v, 2), (.dbgctlReload k v, 3)] → bits v 2 0 = n → s.teams = [m] → m.part = p →
      m.asid = asid → m.num = num → m.st = .resident → m.halt = true → residents m = [j] → (thr s j).st = .halted →
      (∀ x ∈ s.threads, x.2.wait = .none ∨ x.1 = j ∧ ∃ c n, x.2.wait = .mailbox c n) → m.syncs = [] → m.accInfo = [] → (∀ x ∈ m.members, x.2.helper = false) →
      ∃ t, exec i s = .next t ∧ KeepsMemory s t ∧ (team t p asid num).halt = false ∧ bit (part t p).dbgctl 63 = false ∧
        (thr t j).st = (if (thr s j).before = .blocked ∧ (thr s j).wait = .none then .ready else (thr s j).before) ∧
        (n = 2 → (thr t j).pc = (thr s j).pc ∧ KeepsRegs [] (thr s j) (thr t j)) ∧
        (n = 3 → ∀ x, 0 < x → x < 32 → getReg (thr t j) x = rdWord s ((thr s j).frame + 8 + 8 * x)))) ∧
  (∀ s k w, s.cur.keys = [k] → isHart k = true →
    let p := partOf s k
    let a := src (thr s k) w.s1
    let l := rdWords s a.toNat 24
    let placed := a.toNat % 64 = 0 ∧ inRanges s p a.toNat 192 = true
    let status := fun n => ∃ t, exec (.cexp w) s = .next t ∧ OnlyThreads [k] s t ∧ EndsWith w (stw n) (thr s k) (thr t k)
    (a = 0 → (part s p).trial = none → status 6) ∧
    (a ≠ 0 → cexpHeld s k a = none → ¬ placed → status 8) ∧
    (a ≠ 0 → cexpHeld s k a = none → placed → trialBad l = true → status 2) ∧
    (a ≠ 0 → cexpHeld s k a = none → placed → trialBad l = false → ∀ tr, (part s p).trial = some tr → status 6) ∧
    (a ≠ 0 → cexpHeld s k a = none → placed → trialBad l = false → (part s p).trial = none →
      ∃ t tr, exec (.cexp w) s = .next t ∧ EndsWith w 0 (thr s k) (thr t k) ∧ KeepsMemory s t ∧ (part t p).trial = some tr ∧
        tr.recAt = a.toNat ∧ tr.lo = dw l 0 ∧ tr.hi = dw l 1 ∧ tr.asid = bits (dw l 2) 47 32 ∧ tr.delay = bits (dw l 2) 31 16 ∧
        tr.endUs = s.us + bits (dw l 2) 15 0 ∧ tr.inrange = 0 ∧ tr.held = 0) ∧
    (a = 0 → ∀ tr, (part s p).trial = some tr → trialClear s tr = true → ∃ t, exec (.cexp w) s = .next t ∧ EndsWith w 0 (thr s k) (thr t k) ∧
      (part t p).trial = none ∧ bit (rdWord t (tr.recAt + 0x20)) 63 = true ∧ bit (rdWord t (tr.recAt + 0x20)) 62 = true)) ∧
  ∀ s p tr, (part s p).trial = some tr →
    (s.us < tr.endUs → exec (.trialEnd p) s = .next s) ∧
    (tr.endUs ≤ s.us → trialClear s tr = true → ∃ t, exec (.trialEnd p) s = .next t ∧ (part t p).trial = none ∧ rdWord t (tr.recAt + 0x20) = w64 (2 ^ 63) ∧
      rdWord t (tr.recAt + 0x28) = w64 tr.inrange ∧ rdWord t (tr.recAt + 0x30) = w64 tr.held ∧
      (∀ n < 16, rdWord t (tr.recAt + 0x40 + 8 * n) = if tr.cmask.testBit n then
        w64 ((bits (mget 0 (part s p).mkcnt n) 39 0 + 2 ^ 40 - tr.start.getD n 0) % 2 ^ 40) else 0) ∧
      ∀ a, a < tr.recAt + 0x20 ∨ tr.recAt + 0xC0 ≤ a → Memory.byte t.mem a = Memory.byte s.mem a)

/-! CSR commands, partitions and contexts. -/

/-- R13, R42-R44, R127, R151, R442: the commands of a hart in S or M mode. A `tframe` write takes the identity of the frame's thread, or
exception 5 outside the ranges. `tsig` sets SIGPEND of the thread with its tid, makes a waiting one migrate, or sets ABSENT. `rsvr` loads a resident
supervisor into slot 15 of the place that its frame names, or sets ERR. `satp` with a new ASID opens a context, and `ctxfree` frees one
that is not busy: a refused write changes ERR alone, and one whose team a copy still touches is held, with interrupts shut. A tenant key
loads into an empty slot, and a register write that the hart may make is made.

That these registers stand once for each hart is the model's reading (log 33). -/
def Obligations.ThreadCsrCommands : Prop :=
  (∀ s k v, mkeys s.threads = true → supHart s k = true →
    let p := partOf s k
    let fr := bits v 63 10 * 1024
    let tid := bits v 31 0
    let asid := bits v 15 0
    let only := fun (t : State) => t = { s with harts := t.harts } ∧ ∀ j, j ≠ k → hart t j = hart s j
    (inRanges s p fr 1024 = false → ∃ t, exec (.tframeWrite k v) s = .next t ∧ TakesException k 5 (w64 fr) (thr s k).pc s t) ∧
    (inRanges s p fr 1024 = true → frameHeld s k v = none → ∃ t, exec (.tframeWrite k v) s = .next t ∧ KeepsMemory s t ∧
      hart t k = { hart s k with tframe := w64 fr } ∧ KeepsRegs [] (thr s k) (thr t k) ∧ (thr t k).pc = (thr s k).pc ∧
      (thr t k).tid = (rdWord s (fr + 0x290)).toNat % 2 ^ 32 ∧ (thr t k).team = (rdWord s (fr + 0x298)).toNat % 2 ^ 32 ∧
      (thr t k).tidx = (rdWord s (fr + 0x2A0)).toNat % 1024 ∧ (thr t k).gangw = (rdWord s (fr + 0x2A8)).toNat % 128 ∧
      (∀ j, j ≠ k → mget? t.threads j = mget? s.threads j) ∧ ∀ j, j ≠ k → hart t j = hart s j) ∧
    (∀ j, isSimt j = true → occupied s j = true → (thr s j).part = p → (thr s j).tid = tid → (thr s j).helper = false →
      (thr s j).st ≠ .exited → (∀ x ∈ s.threads, x.2.tid = tid → x.1 = j) →
      let u := thr s j
      let sent := fun (t : State) => (∀ i, i ≠ j → mget? t.threads i = mget? s.threads i) ∧
        hart t k = { hart s k with tsig := setBit (w64 tid) 63 (bit (hart s k).tsig 63 && !bit v 63) }
      (u.st ≠ .blocked ∨ isRsv j = true → ∃ t, exec (.tsigWrite k v) s = .next t ∧
        t = { s with threads := t.threads, harts := t.harts } ∧ thr t j = { u with sigpend := true } ∧ sent t) ∧
      (∀ pa, u.st = .blocked → u.wait = .queue pa → isRsv j = false → u.ops = [] → u.held.length ≤ 8 → u.chain.fp = none →
        u.pend0E = none → u.pend16 = none → postClear s (agentDie j) u.frame 1024 = true →
        ∃ t, exec (.tsigWrite k v) s = .next t ∧ occupied t j = false ∧ sent t ∧ (part t p).retPend = (part s p).retPend ++ [(u.frame, 1)] ∧
          bits (rdWord t u.frame) 3 0 = 2 ∧ bits (rdWord t u.frame) 15 8 = 0x17 ∧ rdWord t (u.frame + 8) = u.pc ∧
          ∀ a, a < u.frame ∨ u.frame + 1024 ≤ a → Memory.byte t.mem a = Memory.byte s.mem a)) ∧
    ((∀ x ∈ s.threads, isSimt x.1 = true → x.2.tid ≠ tid) → s.transits = [] → (part s p).retPend = [] → s.teams = [] →
      ∃ t, exec (.tsigWrite k v) s = .next t ∧ only t ∧ hart t k = { hart s k with tsig := setBit (w64 tid) 63 true }) ∧
    (let pl := rdWord s (fr + 0x2C0)
     let key := slotKey (bits pl 21 20) (bits pl 19 14) (bits pl 9 4) 15
     let good := bits (rdWord s fr) 3 0 = 1 ∧ bit (rdWord s fr) 20 = true ∧ bit pl 63 = false ∧
       ownsCore s p (bits pl 21 20 * 64 + bits pl 19 14) = true ∧ occupied s key = false
     frameHeld s k v = none →
     (inRanges s p fr 1024 = false ∨ ¬ good →
       ∃ t, exec (.rsvrWrite k v) s = .next t ∧ only t ∧ hart t k = { hart s k with rsvr := setBit (w64 fr) 0 true }) ∧
     (inRanges s p fr 1024 = true → good →
       ∃ t, exec (.rsvrWrite k v) s = .next t ∧ t = { s with threads := t.threads, harts := t.harts, parts := t.parts } ∧
         (thr t key).st = .ready ∧ (∀ q, q ≠ p → part t q = part s q) ∧ (thr t key).part = p ∧ (thr t key).frame = fr ∧
           (thr t key).pc = setBit (rdWord s (fr + 8)) 0 false ∧
         (thr t key).tid = (rdWord s (fr + 0x290)).toNat % 2 ^ 32 ∧ (thr t key).team = 0 ∧
         (∀ x, 0 < x → x < 32 → getReg (thr t key) x = rdWord s (fr + 8 + 8 * x)) ∧
         (∀ j, j ≠ key → mget? t.threads j = mget? s.threads j) ∧
         hart t k = { hart s k with rsvr := setBit (w64 fr) 0 (bit (hart s k).rsvr 0 && !bit v 0) })) ∧
    ((part s p).open_.contains asid = false ∨ contextBusy s p asid = true →
      ∃ t, exec (.ctxfreeWrite k v) s = .next t ∧ only t ∧
        hart t k = { hart s k with ctxfree := setBit (hart s k).ctxfree 63 true, shut := false }) ∧
    ((part s p).open_.contains asid = true → contextBusy s p asid = false → contextCopies s p asid = true →
      ∃ t, exec (.ctxfreeWrite k v) s = .next t ∧ only t ∧ hart t k = { hart s k with shut := true }) ∧
    ((part s p).open_.contains asid = true → contextBusy s p asid = false → contextCopies s p asid = false → s.eyelets = [] →
      ∃ t, exec (.ctxfreeWrite k v) s = .next t ∧ (part t p).open_ = (part s p).open_.filter (· ≠ asid) ∧
        (∀ x ∈ (part t p).keys, x.2.asid ≠ asid) ∧ (∀ m ∈ t.teams, m.part = p → m.asid = asid → m.st = .held) ∧
        ((∀ m ∈ s.teams, m.num ≠ 0) → ∀ m, ¬ (m.part = p ∧ m.asid = asid) → m.st ≠ .held →
          (∀ x ∈ s.slices, ∀ e ∈ x.2.queue, e.part = m.part → e.asid = m.asid → ∀ b ∈ x.2.sets, b.1 = e.set →
            ¬ (b.2.part = p ∧ asidOf b.2.satp = asid)) → (m ∈ t.teams ↔ m ∈ s.teams)) ∧
        (∀ c b, ownsCore s p c = true → (core t c).binding = some b → asidOf b.satp ≠ asid) ∧
        (∀ q, q ≠ p → part t q = part s q) ∧
        ((∀ c ∈ s.copies, c.part = p → asidOf c.satp = asid → c.state ≠ 2) → KeepsMemory s t ∧
          hart t k = { hart s k with ctxfree := setBit (w64 asid) 63 (bit (hart s k).ctxfree 63 && !bit v 63), shut := false })) ∧
    (trapsVm s k = false → (part s p).open_.contains (asidOf v) = false →
      (bits v 63 60 ≠ 0 → levels (bits v 63 60) = none → exec (.contextOpen k v) s = .next s) ∧
      (bits v 63 60 = 0 ∨ (levels (bits v 63 60)).isSome = true → (hart s k).mgr = false →
        ∃ t, exec (.contextOpen k v) s = .next t ∧ t = { s with harts := t.harts, parts := t.parts } ∧
          hart t k = { hart s k with satp := v } ∧ part t p = { part s p with open_ := (part s p).open_ ++ [asidOf v] } ∧
          (∀ j, j ≠ k → hart t j = hart s j) ∧ ∀ q, q ≠ p → part t q = part s q))) ∧
  (∀ s p slot asid key,
    let q := part s p
    let good := s.boot.lc = 2 ∧ p < 8 ∧ q.state ≠ 0 ∧ slot < 16 ∧ q.open_.contains asid = true ∧ mget? q.keys slot = none ∧
      ∀ x ∈ q.keys, x.2.asid ≠ asid
    (¬ good → exec (.tenantKeyLoad p slot ⟨asid, key⟩) s = .next s) ∧
    (good → ∃ t, exec (.tenantKeyLoad p slot ⟨asid, key⟩) s = .next t ∧ t = { s with parts := t.parts } ∧
      mget? (part t p).keys slot = some { loaded := true, key := key % 2 ^ 256, asid := asid, count := 0, exhausted := false } ∧
      (∀ i, i ≠ slot → mget? (part t p).keys i = mget? q.keys i) ∧ ∀ r, r ≠ p → part t r = part s r)) ∧
  ∀ s k n v, isHart k = true → (hart s k).running = true →
    (csrRead s k n = none ∨ csrShut s k n = true ∨ (csrRead s k n ≠ none ∧ csrWrite s k n v = .illegal) →
      exec (.registerWrite k n v) s = .next s) ∧
    ((hart s k).mode = .machine → n = 0x340 → ∃ t, exec (.registerWrite k n v) s = .next t ∧ OnlyHart k s t ∧
      t.threads = s.threads ∧ hart t k = { hart s k with mscratch := v }) ∧
    ((hart s k).mode ≠ .user → n = 0x5C9 → ∃ t, exec (.registerWrite k n v) s = .next t ∧ t = { s with parts := t.parts } ∧
      part t (partOf s k) = { part s (partOf s k) with tsdl := w64 (bits v 15 0) } ∧ ∀ q, q ≠ partOf s k → part t q = part s q) ∧
    ((hart s k).mode = .machine → (hart s k).mgr = false → n = 0x7C3 → exec (.registerWrite k n v) s = .next s)

/-- R32, R33, R35, R38-R40: `partctl` and `rtbase` of a manager hart in M mode. A command that its partition's state or the table does
not allow sets CERR and changes nothing else. Configure takes the section's resources and the map's granules; start sets
the first hart at BOOT in M mode; reset stops what the partition runs and leaves every other partition as it is; release returns
the resources. The drain ends, with DLATE after its deadline, and the wipe leaves zero in the partition's ranges and nowhere else.

What a reset discards at once is the model's reading (log 28), and so is that a managed copy of a request's line may be written back
before it (log 10). -/
def Obligations.Partitions : Prop :=
  (∀ s k v, mgrHart s k = true → bit v 16 = false → bit v 11 = false →
    let p := bits v 2 0
    let base := tableBase s
    let l := rdWords s (base + 0x1000 + 256 * p) 32
    let es := (mapEntries s base).filter fun (_, e) => bit e 63 && !bit e 20 && bits e 19 17 = p
    let q := sectionOf (part s p) l
    let cerr := fun (t : State) => t = { s with partctl := t.partctl } ∧ bit t.partctl 17 = true ∧ bits t.partctl 2 0 = p
    (∀ i n, (i, n) ∈ [(Instr.partctlConfigure k v, 4), (.partctlStart k v, 1), (.partctlReset k v, 2), (.partctlRelease k v, 3)] →
      bits v 6 4 = n → configureHeld s k v = none →
      (n = 4 ∧ ((part s p).state ≠ 0 ∨ configureBad s p l es = true)) ∨ (n = 1 ∧ (part s p).state ≠ 1 ∧ (part s p).state ≠ 4) ∨
        (n = 2 ∧ (part s p).state ≠ 2) ∨ (n = 3 ∧ (part s p).state ≠ 4) →
      ∃ t, exec i s = .next t ∧ cerr t) ∧
    (bits v 6 4 = 4 → configureHeld s k v = none → (part s p).state = 0 → configureBad s p l es = false →
      ∃ t, exec (.partctlConfigure k v) s = .next t ∧ KeepsMemory s t ∧ part t p = q ∧ t.threads = s.threads ∧
        (∀ r, r ≠ p → part t r = part s r) ∧ (∀ h ∈ hartsOf q, hart t h = { part := p }) ∧
        (∀ h, h ∉ hartsOf q → hart t h = hart s h) ∧
        ∀ g < 4096, let e := rdWord s (base + 0x2000 + 8 * g)
          mget? t.granules g = if (mget? s.granules g).isSome then mget? s.granules g
            else if bit e 63 = true ∧ bit e 20 = false ∧ bits e 19 17 = p then some e else none) ∧
    (bits v 6 4 = 1 → (part s p).state = 1 ∨ (part s p).state = 4 → ∀ h hs, hartsOf (part s p) = h :: hs →
      ∃ t, exec (.partctlStart k v) s = .next t ∧ KeepsMemory s t ∧ part t p = { part s p with state := 2 } ∧
        hart t h = { running := true, mode := .machine, part := p } ∧
        thr t h = { part := p, st := .latency, pc := (part s p).boot, lfsr := 0x9E37_79B9 } ∧
        (∀ j, j ≠ h → hart t j = hart s j ∧ mget? t.threads j = mget? s.threads j) ∧ ∀ r, r ≠ p → part t r = part s r) ∧
    (bits v 6 4 = 2 → (part s p).state = 2 → mkeys s.threads = true → mkeys s.harts = true →
      (∀ e ∈ s.eyelets, e.2.part = p → e.2.st = 0) →
      ∃ t, exec (.partctlReset k v) s = .next t ∧ KeepsMemory s t ∧ (part t p).state = 3 ∧ (part t p).done = false ∧
        (part t p).dlate = false ∧ (part t p).retPend = [] ∧ (part t p).open_ = [] ∧ (∀ r, r ≠ p → part t r = part s r) ∧
        (part t p).ethrq = (part s p).ethrq ∧ (∀ m ∈ t.teams, m.part ≠ p) ∧
        (∀ m, m.part ≠ p → m.st ≠ .held →
          (∀ x ∈ s.slices, ∀ e ∈ x.2.queue, e.part = m.part → ∀ b ∈ x.2.sets, b.1 = e.set → b.2.part ≠ p) →
          (m ∈ t.teams ↔ m ∈ s.teams)) ∧
        t.copies = s.copies.filter (fun c => c.part ≠ p) ∧ t.rowOps = s.rowOps.filter (fun r => r.part ≠ p) ∧
        t.granules = s.granules ∧ t.laced = s.laced ∧
        (∀ j, isSimt j = true → (thr s j).part = p → occupied t j = false) ∧
        (∀ j, isSimt j = true → (thr s j).part ≠ p → (∀ r, (thr s j).wait ≠ .room r) → mget? t.threads j = mget? s.threads j) ∧
        ∀ j, isHart j = true → if partHart s p j = true then hart t j = { part := p } ∧ occupied t j = false
          else hart t j = hart s j ∧ ((∀ r, (thr s j).wait ≠ .room r) → mget? t.threads j = mget? s.threads j)) ∧
    (bits v 6 4 = 3 → (part s p).state = 4 →
      ∃ t, exec (.partctlRelease k v) s = .next t ∧ KeepsMemory s t ∧
        part t p = { done := (part s p).done, dlate := (part s p).dlate } ∧ (∀ r, r ≠ p → part t r = part s r) ∧
        (∀ h ∈ hartsOf (part s p), hart t h = {}) ∧ (∀ h, h ∉ hartsOf (part s p) → hart t h = hart s h) ∧
        t.granules = s.granules.filter fun (_, e) => bit e 20 || bits e 19 17 ≠ p) ∧
    (let b := bits v 63 16 * 65536
     let refused := fun (t : State) => t = { s with partctl := t.partctl } ∧ bit t.partctl 17 = true
     rtbaseHeld s k v = none →
      ((∃ x ∈ s.parts, x.2.state ≠ 0) ∨ tableBad s b = true → ∃ t, exec (.rtbaseWrite k v) s = .next t ∧ refused t) ∧
      ((∀ x ∈ s.parts, x.2.state = 0) → tableBad s b = false → ∃ t, exec (.rtbaseWrite k v) s = .next t ∧ KeepsMemory s t ∧
        t.rtbase = w64 b ∧ t.parts = s.parts ∧ t.threads = s.threads ∧
        (∀ d < 2, ∀ c < 36, hart t (hartKey d c) = { hart s (hartKey d c) with mgr := bit (rdWord s (b + 8 * d)) c }) ∧
        ∀ g < 4096, let e := rdWord s (b + 0x2000 + 8 * g)
          mget? t.granules g = if bit e 20 = true ∧ bit e 63 = true then some e else none))) ∧
  (∀ s p, let q := part s p
    (q.state = 3 → q.drained = false → inFlight s p = false →
      ∃ t, exec (.resetDrainEnd p) s = .next t ∧ KeepsMemory s t ∧ part t p = { q.bare with drained := true, ethrq := q.ethrq } ∧
        (∀ r, r ≠ p → part t r = part s r) ∧ t.tlb = s.tlb.filter (fun e => e.part ≠ p) ∧ t.threads = s.threads ∧ t.harts = s.harts) ∧
    (q.state ≠ 3 ∨ q.drained = true ∨ inFlight s p = true → exec (.resetDrainEnd p) s = .next s) ∧
    (q.state = 3 → q.drained = false → inFlight s p = true → q.resetUs + 1000 ≤ s.us →
      ∃ t, exec (.drainDeadline p) s = .next t ∧ KeepsMemory s t ∧ (part t p).dlate = true ∧ (part t p).drained = true ∧
        (part t p).state = 3 ∧ inFlight t p = false ∧ ∀ r, r ≠ p → part t r = part s r ∧ inFlight t r = inFlight s r) ∧
    (q.state ≠ 3 ∨ s.us < q.resetUs + 1000 → exec (.drainDeadline p) s = .next s) ∧
    (q.state = 3 → q.drained = true → ∃ t, exec (.wipeComplete p) s = .next t ∧ part t p = { q with state := 4, done := true, ethrq := 0 } ∧
      (∀ r, r ≠ p → part t r = part s r) ∧
      ∀ a, Memory.byte t.mem a = if ownedBy s p a = true then 0 else Memory.byte s.mem a) ∧
    (q.state ≠ 3 ∨ q.drained = false → exec (.wipeComplete p) s = .next s)) ∧
  ∀ s (r : HomeReq),
    let n := if r.write then r.data.length else r.len
    (inRanges s r.tag r.pa n = false →
      (r.kind = .thread → occupied s r.key = false → exec (.homeRequest r) s = .next s) ∧
      (r.kind = .thread → isHart r.key = true → occupied s r.key = true →
        ∃ t, exec (.homeRequest r) s = .next t ∧
          TakesException r.key (if r.write then 7 else 5) (w64 r.va) (thr s r.key).pc s t) ∧
      (r.kind = .eyelet → exec (.homeRequest r) s = .next s) ∧
      (r.kind ≠ .thread → r.kind ≠ .eyelet → ∃ t, exec (.homeRequest r) s = .next t ∧
        t = mirq { s with
          errLog := s.errLog ++ [{ kind := 0, part := r.tag, req := requesterCode r.kind, pa := r.pa, tid := r.tid }] } ∧
        t.mirqs = s.mirqs + 1)) ∧
    let uncopied := ∀ x ∈ s.l1, x.line ≠ r.pa / 64
    (inRanges s r.tag r.pa n = true → lineHeld s r.key r.pa n = true ∨ (r.write = false ∧ uncopied) → exec (.homeRequest r) s = .next s) ∧
    (inRanges s r.tag r.pa n = true → lineHeld s r.key r.pa n = false → r.write = true →
      ∃ t, exec (.homeRequest r) s = .next t ∧ (∀ i < n, Memory.byte t.mem (r.pa + i) = r.data.getD i 0) ∧
        (∀ a, a < r.pa ∨ r.pa + n ≤ a → a / 64 ≠ r.pa / 64 ∨ uncopied → Memory.byte t.mem a = Memory.byte s.mem a) ∧
        t.threads = s.threads ∧ t.parts = s.parts)

/-! Links. -/

/-- R476-R480: the commands of `weltctl` on the module that `weltsel` names: one that its state does not allow sets ERR and leaves the
state and the width, and one while BUSY is ignored. A pause ends once the retry buffer is empty, and training in PAUSED with the new
width or DOWN with ERR. A CRC error counts a retry and blames its lane; sixteen of one flit begin a pause; a window's end moves RCUR to
RWIN and raises an interrupt where HI goes to 1.

That resume and down act at once, and that a refused command still writes HI, HALF and RTHR, is the model's reading (log 29); which
interrupt file receives the interrupt of a window's end rests on the family (log 12). -/
def Obligations.WeltModules : Prop :=
  (∀ s k v, mgrHart s k = true →
    let m := weltNo s
    let x := welt s m
    let only := fun (t : State) => t = { s with welts := t.welts } ∧ ∀ j, j ≠ m → welt t j = welt s j
    let rows := [(Instr.weltctlPause k v, 1), (.weltctlResume k v, 2), (.weltctlRetrainX64 k v, 3), (.weltctlRetrainX32 k v, 4),
      (.weltctlDown k v, 5)]
    let allowed := fun n => if n = 1 then x.st = 1 ∨ x.st = 2 else if n = 2 then x.st = 3
      else if n = 5 then x.st = 1 ∨ x.st = 2 ∨ x.st = 3 else (x.st = 0 ∨ x.st = 3) ∧ sparesClash x.map = false
    (∀ i n, (i, n) ∈ rows → bits v 2 0 = n → x.isBusy = true → exec i s = .next s) ∧
    (∀ i n, (i, n) ∈ rows → bits v 2 0 = n → x.isBusy = false → ¬ allowed n → ∃ t, exec i s = .next t ∧ only t ∧
      welt t m = { x with err := true, hi := x.hi && !bit v 31, half := bit v 49, rthr := bits v 47 32 }) ∧
    (∀ i n, (i, n) ∈ rows → bits v 2 0 = n → x.isBusy = false → allowed n → ∃ t, exec i s = .next t ∧ only t ∧
      (welt t m).err = (x.err && !bit v 62) ∧ (welt t m).hi = (x.hi && !bit v 31) ∧ (welt t m).half = bit v 49 ∧
      (welt t m).rthr = bits v 47 32 ∧ (welt t m).map = x.map ∧ (welt t m).width = x.width ∧
      (welt t m).st = (if n = 1 then x.st else if n = 2 then (if x.width = 32 then 2 else 1) else if n = 5 then 0 else 4) ∧
      (n = 1 ∨ n = 3 ∨ n = 4 → (welt t m).isBusy = true)) ∧
    (x.st = 0 ∨ x.st = 3 → ∃ t, exec (.weltmapWrite k v) s = .next t ∧ only t ∧
      welt t m = { x with map := bits (v &&& 0xBFBF_BFBF) 31 0 }) ∧
    (¬ (x.st = 0 ∨ x.st = 3) → ∃ t, exec (.weltmapWrite k v) s = .next t ∧ only t ∧ welt t m = { x with err := true })) ∧
  (∀ s m, let x := welt s m
    let only := fun (t : State) => t = { s with welts := t.welts } ∧ ∀ j, j ≠ m → welt t j = welt s j
    (∀ ok, x.st = 4 → ∃ t, exec (.trainingComplete m ok) s = .next t ∧ only t ∧
      welt t m = if ok then { x with st := 3, width := if x.busy = 4 then 32 else 64, busy := 0 }
        else { x with st := 0, err := true, busy := 0 }) ∧
    (∀ ok, x.st ≠ 4 → exec (.trainingComplete m ok) s = .next s) ∧
    ((x.busy = 1 ∨ x.busy = 8) → (x.st = 1 ∨ x.st = 2) → ∃ t, exec (.pauseComplete m) s = .next t ∧ only t ∧
      (welt t m).st = 3 ∧ (welt t m).width = x.width ∧ (welt t m).isBusy = false) ∧
    (x.busy = 0 ∨ x.st = 3 → exec (.pauseComplete m) s = .next s) ∧
    (∀ lane again, m < 96 → (x.st = 1 ∨ x.st = 2) → ∃ t, exec (.flitCrcError m lane again) s = .next t ∧ only t ∧
      (welt t m).rtot = (x.rtot + 1) % 2 ^ 32 ∧ (welt t m).rcur = min 0xFFFF (x.rcur + 1) ∧ (welt t m).st = x.st ∧
      (∀ j < 64, bit (welt t m).lerr j = (bit x.lerr j || decide (j = lane))) ∧
      (again = true → 15 ≤ x.replays → x.busy = 0 → (welt t m).busy = 8) ∧ (again = false → (welt t m).busy = x.busy)) ∧
    (∀ lane again, x.st ≠ 1 → x.st ≠ 2 → exec (.flitCrcError m lane again) s = .next s)) ∧
  ∀ s, (s.us < s.windowUs + 1000 → exec .retryWindowEnd s = .next s) ∧
    (s.windowUs + 1000 ≤ s.us → ∃ t, exec .retryWindowEnd s = .next t ∧
      t = { s with welts := t.welts, windowUs := s.us / 1000 * 1000, mirqs := t.mirqs, harts := t.harts } ∧
      (∀ k, k ≠ hartKey 0 0 → hart t k = hart s k) ∧
      (hart t (hartKey 0 0)).mfile = (if t.mirqs = s.mirqs then (hart s (hartKey 0 0)).mfile
        else (hart s (hartKey 0 0)).mfile.post (Config.deviceIrq % 2047 + 1)) ∧
      (∀ m < 96, let x := welt s m
        welt t m = { x with rwin := x.rcur, rcur := 0, hi := x.hi || decide (x.rthr ≤ x.rcur) }) ∧
      t.mirqs = s.mirqs +
        ((List.range 96).filter fun m => !(welt s m).hi && decide ((welt s m).rthr ≤ (welt s m).rcur)).length)

/-- R27, R40, R395, R482, R485, R486: `bcport` commands reach owned ports only; training and reports leave the state that the lanes call
for. A request that a port brings in from another package is served at its home, after the line's copies elsewhere are invalidated,
unless its partition is RESETTING; it waits while its route is closed or its line is held. A failing completion raises cause 0x0B at
a thread's load, is pending at a store's thread, ends a copy with a record, and leaves prefetches; a timeout is one after 2 ms. A
snoop writes back what the line's copies hold, and an invalidation drops them.

Choices of the model: retrain and down are accepted in every state (log 29); an invalidation ends the reservations on the line (log 8); a
failing completion of a laced operation changes nothing but leaves the gap of R395 (log 25); a managed copy of a request's line may be
written back before it (log 10); the invalidations are acknowledged in the step that sends them (log 36). -/
def Obligations.BolcelPorts : Prop :=
  (∀ s k v i n, supHart s k = true → (i, n) ∈ [(Instr.bcportRetrain k v, 1), (.bcportDown k v, 2)] → bits v 7 6 = n →
    let p := partOf s k
    let x := bits v 5 0
    let own := x < 36 ∧ (part s p).bc.testBit x = true
    ∃ t, exec i s = .next t ∧ t = { s with parts := t.parts, ports := t.ports } ∧ bits (part t p).bcport 5 0 = x ∧
      (own → bit (part t p).bcport 8 = (bit (part s p).bcport 8 && !bit v 8) ∧
        port t x = { st := if n = 1 then 1 else 0, lanes := 0 } ∧ ∀ j, j ≠ x → port t j = port s j) ∧
      (¬ own → bit (part t p).bcport 8 = true ∧ t.ports = s.ports) ∧ ∀ q, q ≠ p → part t q = part s q) ∧
  (∀ s n lanes,
    ((port s n).st = 1 → ∃ t, exec (.bolcelTrainingComplete n lanes) s = .next t ∧ t = { s with ports := t.ports } ∧
      port t n = { st := if lanes = 0 then 0 else if lanes = 0xF#4 then 2 else 3, lanes := lanes } ∧
      ∀ j, j ≠ n → port t j = port s j) ∧
    ((port s n).st ≠ 1 → exec (.bolcelTrainingComplete n lanes) s = .next s) ∧
    (∀ ok, 2 ≤ (port s n).st → let l := (port s n).lanes &&& lanes
      ∃ t, exec (.bolcelPortReport n ok lanes) s = .next t ∧ t = { s with ports := t.ports } ∧
      port t n = { st := if l = 0 then 0 else if ok = false then 4 else if l = 0xF#4 then 2 else 3, lanes := l } ∧
      ∀ j, j ≠ n → port t j = port s j) ∧
    (∀ ok, (port s n).st < 2 → exec (.bolcelPortReport n ok lanes) s = .next s)) ∧
  (∀ s port (r : HomeReq), let g := granule s r.pa
    let n := if r.write then r.data.length else r.len
    let uncopied := ∀ x ∈ s.l1, x.line ≠ r.pa / 64
    (portUp s port = false ∨ bit g 63 = false ∨ bit g 20 = true ∨ (part s (bits g 19 17)).state = 3 ∨
      inRanges s (bits g 19 17) r.pa n = false ∨ postClear s (bolcelDie port) r.pa n = false ∨ (r.write = false ∧ uncopied) →
      exec (.bolcelRequest ⟨port, r⟩) s = .next s) ∧
    (portUp s port = true → bit g 63 = true → bit g 20 = false → (part s (bits g 19 17)).state ≠ 3 →
      inRanges s (bits g 19 17) r.pa n = true → postClear s (bolcelDie port) r.pa n = true → r.write = true →
      ∃ t, exec (.bolcelRequest ⟨port, r⟩) s = .next t ∧ (∀ i < n, Memory.byte t.mem (r.pa + i) = r.data.getD i 0) ∧
        (∀ a, a < r.pa ∨ r.pa + n ≤ a → a / 64 ≠ r.pa / 64 ∨ uncopied → Memory.byte t.mem a = Memory.byte s.mem a) ∧
        t.invals = r.pa / 64 :: s.invals ∧ t.threads = s.threads)) ∧
  (∀ s o, (∀ e n, exec (.failingCompletion ⟨o, .laced e n⟩) s = .next s) ∧ exec (.failingCompletion ⟨o, .prefetch⟩) s = .next s ∧
    (∀ r x, o = some x → (port s x).st ≠ 0 → (port s x).st ≠ 4 → exec (.failingCompletion ⟨o, r⟩) s = .next s) ∧
    (∀ r us, us < 2000 → exec (.bolcelTimeout r us) s = .next s) ∧
    (∀ r us, 2000 ≤ us → exec (.bolcelTimeout r us) s = exec (.failingCompletion ⟨none, r⟩) s) ∧
    ((∀ x, o = some x → (port s x).st = 0 ∨ (port s x).st = 4) →
    (∀ k va p n sgn box, isSimt k = true → occupied s k = true → (thr s k).helper = false → (thr s k).trap.inh = false →
      (thr s k).trap.hvec ≠ 0 → (thr s k).st ≠ .blocked → (thr s k).ops = [p] → p.sent = true → p.kind = .load n sgn box →
      opAddr p.kind p.op1 = w64 va → (∀ x ∈ s.walks, x.key = k → x.phase ≠ 2) →
      ∃ t, exec (.failingCompletion ⟨o, .threadLoad k va⟩) s = .next t ∧ OnlyThreads [k] s t ∧ (thr t k).trap.hcause = 0x0B ∧
        (thr t k).trap.hfva = w64 va ∧ (thr t k).trap.flt = true ∧ (thr t k).trap.inh = true ∧ (thr t k).trap.hepc = (thr s k).pc ∧
        (thr t k).trap.hdec0 = p.bits ∧ (thr t k).pc = (thr s k).trap.hvec ∧ (thr t k).ops = [] ∧
        (thr t k).held = (thr s k).held ++ [{ p with sent := false, own := false }] ∧ KeepsRegs [] (thr s k) (thr t k)) ∧
    (∀ k p tid pc va, mkeys s.threads = true → isCob k = false → occupied s k = true → partOf s k = p → (thr s k).tid = tid →
      (thr s k).helper = false → (thr s k).away = false → (thr s k).st ≠ .exited → (∀ x ∈ s.threads, x.2.tid = tid → x.1 = k) →
      ∃ t, exec (.failingCompletion ⟨o, .threadStore p tid pc va⟩) s = .next t ∧ OnlyThreads [k] s t ∧
        thr t k = { thr s k with pend0E := some (w64 pc, w64 va) }) ∧
    (∀ c va wr, s.copies = [c] → c.state = 2 → c.solo = true → (∀ x ∈ s.threads, x.2.wait = .none) →
      ∃ t r, exec (.failingCompletion ⟨o, .copy c.part c.ticket va wr⟩) s = .next t ∧ t.copies = [] ∧ KeepsMemory s t ∧
        (part t c.part).fqPend = (part s c.part).fqPend ++ [r] ∧ bits (dw r 0) 63 60 = 2 ∧ bits (dw r 0) 55 48 = 0x0B ∧ dw r 2 = va ∧
        dw r 4 = c.ticket ∧ bit (dw r 6) 8 = true ∧ bit (dw r 6) 0 = wr))) ∧
  ∀ s pa inval, let l := pa / 64
    ∃ t, exec (.directorySnoop pa inval) s = .next t ∧ t.threads = s.threads ∧
      (∀ x, s.l1.filter (fun y => y.line = l) = [x] →
        (∀ o, (o, true) ∈ x.dirty → Memory.byte t.mem (64 * l + o) = mget 0 x.data o) ∧
        ∀ a, (∀ o, (o, true) ∈ x.dirty → a ≠ 64 * l + o) → Memory.byte t.mem a = Memory.byte s.mem a) ∧
      (∀ y ∈ t.l1, y.line = l → y.dirty = []) ∧ (∀ y, y.line ≠ l → (y ∈ t.l1 ↔ y ∈ s.l1)) ∧
      (inval = true → (∀ y ∈ t.l1, y.line ≠ l) ∧ ∀ r ∈ t.resvs, overlaps (64 * l) 64 r.2.1 r.2.2 = false)

/-- R30, R40, R487-R491: a frame for an enabled queue with a slot lies at the slot's buffer, with VALID, LEN and DONE written; it is
dropped and counted where the queue is off, the buffer is too short, the queue is full with DROP = 1, or the partition is being reset; for
a full queue with DROP = 0 it waits and flow control is sent, and repeated every 2 µs. A transmit queue sends its slot's frame, or
completes a slot of a bad length with VALID = 0. R454, R481: a frame waits in the port's buffer while the queue's record or the slot has
an uncorrectable error. A DMA request outside its owner's ranges leaves memory and a boundary record.

Choices of the model: which routes a port's accesses wait for (log 37); that a blocked frame counts as dropped (log 29); that a DMA
request is dropped in RESETTING (log 36); that a managed copy of its line may be written back before it (log 10). -/
def Obligations.EthernetAndDma : Prop :=
  (∀ s n tagged pcp udp bs, (ethPort s n).paused = [] → (ethPort s n).buffer = [] →
    let f : EthFrame := { queue := 8 * (if tagged then pcp % 8 else 0) + udp % 8, tagged := tagged, bytes := bs }
    let run := Instr.frameReceive n tagged pcp udp bs
    (9216 < bs.length ∨ ethOwner s n = none → exec run s = .next s) ∧
    (bs.length ≤ 9216 → ∀ p, ethOwner s n = some p → inRanges s p (ethRec s p n f.queue) 64 = true →
      let qa := ethRec s p n f.queue
      let l := rdWords s qa 8
      let a := slotAddr l
      let buf := (rdWord s a).toNat
      let drop := postClear s (ethDie n) (qa + 0x28) 8 = true → poisoned s qa 64 = false →
        ∃ t, exec run s = .next t ∧ rdWord t (qa + 0x28) = rdWord s (qa + 0x28) + 1 ∧ t.eth = s.eth ∧
          ∀ x, x < qa + 0x28 ∨ qa + 0x30 ≤ x → Memory.byte t.mem x = Memory.byte s.mem x
      let waits := ∃ t, exec run s = .next t ∧ KeepsMemory s t ∧ (ethPort t n).buffer = [f] ∧ ∀ j, j ≠ n → ethPort t j = ethPort s j
      let read := (part s p).state ≠ 3 ∧ poisoned s qa 64 = false ∧ ethOpen s n qa 64 = true
      let open_ := ethOpen s n a 16 = true ∧ ethOpen s n buf bs.length = true
      ((part s p).state = 3 → drop) ∧
      ((part s p).state ≠ 3 → poisoned s qa 64 = true ∨ ethOpen s n qa 64 = false → waits) ∧
      (read → ethOn l = false → drop) ∧
      (read → ethOn l = true → ethSlot l = false → bit (dw l 2) 62 = true → drop) ∧
      (read → ethOn l = true → ethSlot l = true → ¬ open_ ∨ (inRanges s p a 16 = true ∧ poisoned s a 16 = true) → waits) ∧
      (read → ethOn l = true → ethSlot l = true → open_ → inRanges s p a 16 = true → poisoned s a 16 = false →
        bits (rdWord s (a + 8)) 13 0 < bs.length → drop) ∧
      (read → ethOn l = true → ethSlot l = true → open_ → inRanges s p a 16 = true → poisoned s a 16 = false →
        bs.length ≤ bits (rdWord s (a + 8)) 13 0 → inRanges s p buf bs.length = true → dw l 1 = 0 →
        overlaps a 16 qa 64 = false → overlaps buf bs.length qa 64 = false → overlaps buf bs.length a 16 = false →
        ∃ t, exec run s = .next t ∧ (∀ i < bs.length, Memory.byte t.mem (buf + i) = bs.getD i 0) ∧
          rdWord t (a + 8) = w64 (2 ^ 63 + bs.length) ∧ rdWord t (qa + 0x20) = dw l 4 + 1 ∧ t.teams = s.teams ∧ t.eth = s.eth ∧
          ∀ x, (x < buf ∨ buf + bs.length ≤ x) → (x < a + 8 ∨ a + 16 ≤ x) → (x < qa + 0x20 ∨ qa + 0x28 ≤ x) →
            Memory.byte t.mem x = Memory.byte s.mem x) ∧
      (read → ethOn l = true → ethSlot l = false → bit (dw l 2) 62 = false →
        ∃ t, exec run s = .next t ∧ KeepsMemory s t ∧ (ethPort t n).buffer = [f] ∧
          (ethPort t n).fcSent = (ethPort s n).fcSent ++ [(if tagged then pcp % 8 else 8, 0xFFFF)] ∧
          ∀ j, j ≠ n → ethPort t j = ethPort s j))) ∧
  (∀ s n q, (∀ y ∈ (ethPort s n).paused, ethFree s n y.2.1 = false) →
    (∀ f ∈ (ethPort s n).buffer, ∃ y ∈ (ethPort s n).paused, y.2.1 = f.queue) →
    ∃ t, exec (.pfcRepeat n q) s = .next t ∧ t = { s with eth := t.eth } ∧ (ethPort t n).buffer = (ethPort s n).buffer ∧
      (ethPort t n).fcSent = (ethPort s n).fcSent ++
        ((ethPort s n).paused.filter fun y => y.2.1 = q && y.2.2 + 2 ≤ s.us).map fun y => (y.1, 0xFFFF)) ∧
  (∀ s n q, (ethOwner s n = none ∨ q < 64 ∨ 128 ≤ q → exec (.transmitFrame n q) s = .next s) ∧
    ∀ p, ethOwner s n = some p → 64 ≤ q → q < 128 → (part s p).state ≠ 3 → inRanges s p (ethRec s p n q) 64 = true →
      poisoned s (ethRec s p n q) 64 = false →
      let qa := ethRec s p n q
      let l := rdWords s qa 8
      let a := slotAddr l
      let buf := (rdWord s a).toNat
      let len := bits (rdWord s (a + 8)) 13 0
      let ends := fun (t : State) (v : Word) => rdWord t (a + 8) = v ∧ rdWord t (qa + 0x20) = dw l 4 + 1 ∧ t.teams = s.teams ∧
        ∀ x, (x < a + 8 ∨ a + 16 ≤ x) → (x < qa + 0x20 ∨ qa + 0x28 ≤ x) → Memory.byte t.mem x = Memory.byte s.mem x
      (ethOn l = false ∨ ethSlot l = false → exec (.transmitFrame n q) s = .next s) ∧
      let ready := ethOpen s n qa 64 = true ∧ ethOpen s n a 16 = true ∧ ethOpen s n buf len = true
      (¬ ready → inRanges s p a 16 = true → poisoned s a 16 = false → exec (.transmitFrame n q) s = .next s) ∧
      (ready → ethOn l = true → ethSlot l = true → inRanges s p a 16 = true → poisoned s a 16 = false → len < 60 ∨ 9216 < len → overlaps a 16 qa 64 = false →
        ∃ t, exec (.transmitFrame n q) s = .next t ∧ ends t (w64 len) ∧ t.eth = s.eth) ∧
      (ready → ethOn l = true → ethSlot l = true → inRanges s p a 16 = true → poisoned s a 16 = false → 60 ≤ len → len ≤ 9216 →
        inRanges s p buf len = true → poisoned s buf len = false → dw l 1 = 0 → overlaps a 16 qa 64 = false →
        ∃ t, exec (.transmitFrame n q) s = .next t ∧ ends t (w64 (2 ^ 63 + len)) ∧
          (ethPort t n).sent = (ethPort s n).sent ++ [rdBytes s buf len])) ∧
  ∀ s link func write pa data,
    let owner := (List.range 8).find? fun p => (part s p).state ≠ 0 && (part s p).io.testBit (8 + 8 * link + func)
    let run := Instr.pcieDma link func write pa data
    (2 ≤ link ∨ 8 ≤ func ∨ owner = none → exec run s = .next s) ∧
    (link < 2 → func < 8 → ∀ p, owner = some p →
      let open_ := homeOpen s (pcieDie link) pa = true
      let uncopied := ∀ x ∈ s.l1, x.line ≠ pa / 64
      ((part s p).state = 3 ∨ ¬ open_ → exec run s = .next s) ∧
      (open_ → (part s p).state ≠ 3 → inRanges s p pa data.length = false → ∃ t, exec run s = .next t ∧ t.mirqs = s.mirqs + 1 ∧
        t = mirq { s with errLog := s.errLog ++ [{ kind := 0, part := p, req := 3, pa := pa, tid := 0 }] }) ∧
      (open_ → (part s p).state ≠ 3 → inRanges s p pa data.length = true →
        lineHeld s hwKey pa data.length = true ∨ (write = false ∧ uncopied) → exec run s = .next s) ∧
      (open_ → (part s p).state ≠ 3 → inRanges s p pa data.length = true → lineHeld s hwKey pa data.length = false → write = true →
        ∃ t, exec run s = .next t ∧ (∀ i < data.length, Memory.byte t.mem (pa + i) = data.getD i 0) ∧ t.threads = s.threads ∧
          ∀ a, a < pa ∨ pa + data.length ≤ a → a / 64 ≠ pa / 64 ∨ uncopied → Memory.byte t.mem a = Memory.byte s.mem a))

/-! Boot, heat, power and interrupts. -/

/-- R6, R492-R495, R500: a package reset whose token or image is refused leaves every core in reset with its failure code; else the
image and the boot block's copy stand in memory, everything else reads zero, and the first hart runs the image in M mode. Heat
changes THR alone, or asks for a reset; without power everything but the fuses is lost and the machine stops. R9, R10: an interrupt that
is delivered to a hart and enabled is taken between instructions, in S mode where it is delegated and in M mode else, at the base or
the vectored address of its mode.

The entry of the image, the outcome of its signatures, the roles of the links and the places of the interrupt files come with the event
(logs 11, 12, 15). The registers of a hart's interrupt entry are the family's (log 12), and that one is taken between instructions alone,
outside chains, is the model's reading (log 16). -/
def Obligations.BootAndPower : Prop :=
  (∀ s (b : BootBlock),
    let fails := fun c => ∃ t, exec (.packageReset b) s = .next t ∧ t.boot.failure = c ∧ (∀ k, (hart t k).running = false) ∧
      t.threads = [] ∧ (∀ a, Memory.byte t.mem a = 0) ∧ t.boot.floor = s.boot.floor
    (afterToken s.boot.lc b.token = none → fails 4) ∧
    (∀ lc, afterToken s.boot.lc b.token = some lc → imageFailure lc s.boot.floor b.image ≠ 0 →
      fails (imageFailure lc s.boot.floor b.image)) ∧
    (∀ lc, afterToken s.boot.lc b.token = some lc → imageFailure lc s.boot.floor b.image = 0 →
      let copyAt := if b.copyAt + b.bytes.length ≤ 2 ^ 30 then b.copyAt else 0
      let at_ := if b.image.at_ + b.image.bytes.length ≤ 2 ^ 30 then b.image.at_ else 0
      ∃ t, exec (.packageReset b) s = .next t ∧ t.boot.failure = 0 ∧ t.boot.lc = lc ∧ s.boot.floor ≤ t.boot.floor ∧
        t.boot.powered = true ∧ t.boot.roots = b.image.roots % 4 ∧ t.intPages = b.image.intPages ∧ (hart t (hartKey 0 0)).running = true ∧ (hart t (hartKey 0 0)).mode = .machine ∧
        (hart t (hartKey 0 0)).mgr = true ∧ (thr t (hartKey 0 0)).pc = w64 b.entry ∧
        getReg (thr t (hartKey 0 0)) 10 = w64 copyAt ∧ (thr t (hartKey 0 0)).lfsr = 0x9E37_79B9 ∧
        (∀ k, k ≠ hartKey 0 0 → (hart t k).running = false ∧ occupied t k = false) ∧
        (∀ i < b.bytes.length, Memory.byte t.mem (copyAt + i) = b.bytes.getD i 0) ∧
        (∀ a, a < copyAt ∨ copyAt + b.bytes.length ≤ a →
          Memory.byte t.mem a = if at_ ≤ a ∧ a < at_ + b.image.bytes.length
            then b.image.bytes.getD (a - at_) 0 else 0) ∧
        t.teams = [] ∧ (∀ p, part t p = {}) ∧ t.cycle = 0) ∧
    (∀ t, b.token = some t → t.rsaOk = false ∨ t.slhOk = false ∨ t.bound = false ∨ t.src ≠ s.boot.lc → fails 4) ∧
    (b.token = none → b.image.rsaOk = false ∨ b.image.slhOk = false → fails 1)) ∧
  (∀ s d,
    (∃ t, exec (.thermalThrottle d) s = .next t ∧ t = { s with boot := { s.boot with hot := t.boot.hot } } ∧ d ∈ t.boot.hot ∧
      ∀ x, x ≠ d → (x ∈ t.boot.hot ↔ x ∈ s.boot.hot)) ∧
    (∃ t, exec (.thermalThrottleEnd d) s = .next t ∧ t = { s with boot := { s.boot with hot := t.boot.hot } } ∧ d ∉ t.boot.hot ∧
      ∀ x, x ≠ d → (x ∈ t.boot.hot ↔ x ∈ s.boot.hot)) ∧
    exec (.thermalResetRequest d) s = .next { s with boot := { s.boot with asked := true } } ∧
    ∃ t, exec .powerDown s = .next t ∧ t.boot = { powered := false, lc := s.boot.lc, floor := s.boot.floor } ∧ t.threads = [] ∧
      t.teams = [] ∧ (∀ a, Memory.byte t.mem a = 0) ∧ (∀ p, part t p = {}) ∧
      (s.turns = [] → step t = .fault .noPower)) ∧
  ∀ s k c, isHart k = true → (hart s k).running = true → c < 64 → (thr s k).wait = .none →
    ((thr s k).chain.live = true ∨ irqOpen (hart s k) c = false ∨ (hart s k).shut = true → exec (.hartInterrupt k c) s = .next s) ∧
    ((thr s k).chain.live = false → irqOpen (hart s k) c = true → (hart s k).shut = false → ∃ t, exec (.hartInterrupt k c) s = .next t ∧
      OnlyHart k s t ∧
      KeepsRegs [] (thr s k) (thr t k) ∧
      (bit (hart s k).mideleg c = true → (hart s k).mode ≠ .machine → (hart t k).mode = .supervisor ∧
        (hart t k).scause = w64 (2 ^ 63 + c) ∧ (hart t k).sepc = (thr s k).pc ∧ bit (hart t k).mstatus 1 = false ∧
        bit (hart t k).mstatus 5 = bit (hart s k).mstatus 1 ∧
        (bits (hart s k).stvec 1 0 ≠ 1 → (thr t k).pc = (hart s k).stvec &&& 0xFFFF_FFFF_FFFF_FFFC) ∧
        (bits (hart s k).stvec 1 0 = 1 → (thr t k).pc = ((hart s k).stvec &&& 0xFFFF_FFFF_FFFF_FFFC) + w64 (4 * c))) ∧
      (bit (hart s k).mideleg c = false → (hart t k).mode = .machine ∧ (hart t k).mcause = w64 (2 ^ 63 + c) ∧
        (hart t k).mepc = (thr s k).pc ∧ bit (hart t k).mstatus 3 = false ∧ bit (hart t k).mstatus 7 = bit (hart s k).mstatus 3 ∧
        bits (hart t k).mstatus 12 11 = (hart s k).mode.code ∧
        (bits (hart s k).mtvec 1 0 ≠ 1 → (thr t k).pc = (hart s k).mtvec &&& 0xFFFF_FFFF_FFFF_FFFC) ∧
        (bits (hart s k).mtvec 1 0 = 1 → (thr t k).pc = ((hart s k).mtvec &&& 0xFFFF_FFFF_FFFF_FFFC) + w64 (4 * c))))
end

