-- ==== Sys2Proof/Laws/Map.lean ====
section
/-! SUPPORT. Sparse maps: what a read gives after a write or a removal, and that the canonical form is kept. -/

namespace Sys2Proof.Machine

@[simp] theorem mget?_nil (x : Nat) : mget? ([] : SMap α) x = none := rfl

theorem mget?_cons (k : Nat) (v : α) (m : SMap α) (x : Nat) :
    mget? ((k, v) :: m) x = if x = k then some v else mget? m x := rfl

@[simp] theorem mget?_mput_same (m : SMap α) (x : Nat) (v : α) : mget? (mput m x v) x = some v := by
  induction m with
  | nil => simp [mput, mget?_cons]
  | cons e m ih =>
    obtain ⟨k, w⟩ := e
    by_cases h : x < k
    · simp [mput, h, mget?_cons]
    · by_cases hk : x = k
      · simp [mput, hk, mget?_cons]
      · simp [mput, h, hk, mget?_cons, ih]

theorem mget?_mput_other (m : SMap α) {x y : Nat} (v : α) (h : y ≠ x) : mget? (mput m x v) y = mget? m y := by
  induction m with
  | nil => simp [mput, mget?_cons, h]
  | cons e m ih =>
    obtain ⟨k, w⟩ := e
    by_cases hl : x < k
    · simp [mput, hl, mget?_cons, h]
    · by_cases hk : x = k
      · subst hk; simp [mput, mget?_cons, h]
      · simp [mput, hl, hk, mget?_cons, ih]

theorem mget?_mput (m : SMap α) (x y : Nat) (v : α) :
    mget? (mput m x v) y = if y = x then some v else mget? m y := by
  by_cases h : y = x
  · subst h; simp
  · simp [h, mget?_mput_other m v h]

theorem mget?_mdel_other (m : SMap α) {x y : Nat} (h : y ≠ x) : mget? (mdel m x) y = mget? m y := by
  induction m with
  | nil => rfl
  | cons e m ih =>
    obtain ⟨k, w⟩ := e
    by_cases hk : x = k
    · subst hk; simp [mdel, mget?_cons, h, ih]
    · simp [mdel, hk, mget?_cons, ih]

theorem mkeys_tail {e : Nat × α} {m : SMap α} (h : mkeys (e :: m) = true) : mkeys m = true := by
  cases m with
  | nil => rfl
  | cons e' m' =>
    obtain ⟨k, v⟩ := e
    obtain ⟨k', v'⟩ := e'
    simp only [mkeys, Bool.and_eq_true] at h
    exact h.2

theorem mkeys_head_lt {k : Nat} {v : α} {m : SMap α} (h : mkeys ((k, v) :: m) = true) : ∀ e ∈ m.head?, k < e.1 := by
  cases m with
  | nil => intro e he; cases he
  | cons e' m' =>
    obtain ⟨k', v'⟩ := e'
    simp only [mkeys, Bool.and_eq_true, decide_eq_true_eq] at h
    intro e he
    cases he
    exact h.1

theorem mkeys_cons {k : Nat} {v : α} {m : SMap α} (hm : mkeys m = true) (hb : ∀ e ∈ m.head?, k < e.1) :
    mkeys ((k, v) :: m) = true := by
  cases m with
  | nil => rfl
  | cons e' m' =>
    obtain ⟨k', v'⟩ := e'
    simp only [mkeys, Bool.and_eq_true, decide_eq_true_eq]
    exact ⟨hb (k', v') rfl, hm⟩

@[simp] theorem mget?_mdel_same (m : SMap α) (x : Nat) : mget? (mdel m x) x = none := by
  induction m with
  | nil => rfl
  | cons e m ih =>
    obtain ⟨k, v⟩ := e
    by_cases hk : x = k
    · subst hk; simpa only [mdel, if_true] using ih
    · simpa only [mdel, hk, if_false, mget?_cons] using ih

theorem mget?_mdel (m : SMap α) (x y : Nat) : mget? (mdel m x) y = if y = x then none else mget? m y := by
  by_cases h : y = x
  · subst h; simp
  · simp [h, mget?_mdel_other m h]

theorem mput_head (m : SMap α) (x : Nat) (v : α) {b : Nat} (hx : b < x) (hb : ∀ e ∈ m.head?, b < e.1) :
    ∀ e ∈ (mput m x v).head?, b < e.1 := by
  cases m with
  | nil => intro e he; cases he; exact hx
  | cons e' m' =>
    obtain ⟨k, w⟩ := e'
    intro e he
    by_cases h : x < k
    · simp [mput, h] at he; subst he; exact hx
    · by_cases hk : x = k
      · simp [mput, hk] at he; subst he; subst hk; exact hx
      · simp [mput, h, hk] at he; subst he; exact hb (k, w) rfl

theorem mkeys_mput {m : SMap α} (h : mkeys m = true) (x : Nat) (v : α) : mkeys (mput m x v) = true := by
  induction m with
  | nil => rfl
  | cons e m ih =>
    obtain ⟨k, w⟩ := e
    by_cases hl : x < k
    · simp only [mput, hl, if_true]
      exact mkeys_cons h (by intro e he; cases he; exact hl)
    · by_cases hk : x = k
      · subst hk
        simp only [mput, lt_irrefl, if_false, if_true]
        exact mkeys_cons (mkeys_tail h) (mkeys_head_lt h)
      · simp only [mput, hl, hk, if_false]
        exact mkeys_cons (ih (mkeys_tail h)) (mput_head m x v (by omega) (mkeys_head_lt h))

/-- The head of a map after a removal is above a bound that every key is above. -/
theorem mdel_head {m : SMap α} (hw : mkeys m = true) (x : Nat) {b : Nat} (hb : ∀ e ∈ m.head?, b < e.1) :
    ∀ e ∈ (mdel m x).head?, b < e.1 := by
  induction m generalizing b with
  | nil => intro e he; cases he
  | cons e' m' ih =>
    obtain ⟨k, w⟩ := e'
    intro e he
    have h2 : b < k := hb (k, w) rfl
    by_cases hk : x = k
    · simp only [mdel, hk, if_true] at he
      have := ih (mkeys_tail hw) (b := k) (mkeys_head_lt hw) e (by rw [hk]; exact he)
      omega
    · simp [mdel, hk] at he; subst he; exact h2

theorem mkeys_mdel {m : SMap α} (h : mkeys m = true) (x : Nat) : mkeys (mdel m x) = true := by
  induction m with
  | nil => rfl
  | cons e m ih =>
    obtain ⟨k, w⟩ := e
    by_cases hk : x = k
    · subst hk; simp only [mdel, if_true]; exact ih (mkeys_tail h)
    · simp only [mdel, hk, if_false]
      exact mkeys_cons (ih (mkeys_tail h)) (mdel_head (mkeys_tail h) x (mkeys_head_lt h))

theorem mem_mput {m : SMap α} {x : Nat} {v : α} {e : Nat × α} (h : e ∈ mput m x v) : e = (x, v) ∨ e ∈ m := by
  induction m with
  | nil => simp [mput] at h; exact .inl h
  | cons e' m ih =>
    obtain ⟨k, w⟩ := e'
    by_cases hl : x < k
    · simpa [mput, hl] using h
    · by_cases hk : x = k
      · subst hk
        simp only [mput, lt_irrefl, if_false, if_true, List.mem_cons] at h ⊢
        tauto
      · simp only [mput, hl, hk, if_false, List.mem_cons] at h ⊢
        rcases h with h | h
        · exact .inr (.inl h)
        · rcases ih h with h | h
          · exact .inl h
          · exact .inr (.inr h)

theorem mem_mdel {m : SMap α} {x : Nat} {e : Nat × α} (h : e ∈ mdel m x) : e ∈ m := by
  induction m with
  | nil => exact h
  | cons e' m ih =>
    obtain ⟨k, w⟩ := e'
    by_cases hk : x = k
    · subst hk; simp only [mdel, if_true] at h; exact List.mem_cons_of_mem _ (ih h)
    · simp only [mdel, hk, if_false, List.mem_cons] at h ⊢
      exact h.imp id ih

/-- The canonical form is that keys rise and that no entry holds the default. -/
theorem mwf_iff [DecidableEq α] (d : α) (m : SMap α) : mwf d m = true ↔ mkeys m = true ∧ ∀ e ∈ m, e.2 ≠ d := by
  induction m with
  | nil => simp [mwf, mkeys]
  | cons e m ih =>
    obtain ⟨k, v⟩ := e
    cases m with
    | nil => simp [mwf, mkeys]
    | cons e' m' =>
      obtain ⟨k', v'⟩ := e'
      simp only [mwf, mkeys, Bool.and_eq_true, decide_eq_true_eq] at ih ⊢
      rw [ih]
      simp only [List.mem_cons, forall_eq_or_imp]
      tauto

theorem mwf_mset [DecidableEq α] {d : α} {m : SMap α} (h : mwf d m = true) (x : Nat) (v : α) : mwf d (mset d m x v) = true := by
  rw [mwf_iff] at h ⊢
  unfold mset
  split
  · exact ⟨mkeys_mdel h.1 x, fun e he => h.2 e (mem_mdel he)⟩
  · rename_i hv
    refine ⟨mkeys_mput h.1 x v, fun e he => ?_⟩
    rcases mem_mput he with rfl | he
    · exact hv
    · exact h.2 e he

theorem mget_mset_other [DecidableEq α] (d : α) (m : SMap α) {x y : Nat} (v : α) (h : y ≠ x) : mget d (mset d m x v) y = mget d m y := by
  unfold mget mset
  split
  · rw [mget?_mdel_other m h]
  · rw [mget?_mput_other m v h]

@[simp] theorem mget_mset_same [DecidableEq α] (d : α) (m : SMap α) (x : Nat) (v : α) : mget d (mset d m x v) x = v := by
  unfold mget mset
  split
  · rename_i hv; rw [mget?_mdel_same m x, hv]; rfl
  · rw [mget?_mput_same]; rfl

theorem mget_mset [DecidableEq α] (d : α) (m : SMap α) (x y : Nat) (v : α) :
    mget d (mset d m x v) y = if y = x then v else mget d m y := by
  by_cases h : y = x
  · subst h; simp
  · simp [h, mget_mset_other d m v h]

theorem mkeys_mset [DecidableEq α] {d : α} {m : SMap α} (h : mkeys m = true) (x : Nat) (v : α) : mkeys (mset d m x v) = true := by
  unfold mset
  split
  · exact mkeys_mdel h x
  · exact mkeys_mput h x v

end Sys2Proof.Machine
end

