-- ==== Sys2Proof/Laws/Memory.lean ====
section
/-! SUPPORT. Memory: read after write, every other byte alone, the canonical form kept; bytes of a number. -/

namespace Sys2Proof.Machine

@[simp] theorem Memory.byte_put_same (m : List Host.Cell) (a : Nat) (b : Byte) :
    Memory.byte (Memory.put m a b) a = b := mget_mset_same 0 m a b

theorem Memory.byte_put_other (m : List Host.Cell) {a x : Nat} (b : Byte) (h : x ≠ a) :
    Memory.byte (Memory.put m a b) x = Memory.byte m x := mget_mset_other 0 m b h

theorem Memory.byte_absent {m : List Host.Cell} {a : Nat} (h : ∀ c ∈ m, c.1 ≠ a) : Memory.byte m a = 0 := by
  unfold Memory.byte mget
  induction m with
  | nil => rfl
  | cons c m ih =>
    rw [mget?, if_neg fun e => h c (List.mem_cons_self ..) e.symm]
    exact ih fun d hd => h d (List.mem_cons_of_mem _ hd)

theorem Memory.wf_put {m : List Host.Cell} (hw : Memory.wf m = true) (a : Nat) (b : Byte) :
    Memory.wf (Memory.put m a b) = true := mwf_mset hw a b

theorem Memory.wf_write {m : List Host.Cell} (hw : Memory.wf m = true) (a : Nat) (bs : List Byte) :
    Memory.wf (Memory.write m a bs) = true := by
  induction bs generalizing m a with
  | nil => exact hw
  | cons b bs ih => exact ih (Memory.wf_put hw a b) (a + 1)

theorem Memory.byte_write_outside (m : List Host.Cell) (a : Nat) (bs : List Byte) {x : Nat}
    (h : x < a ∨ a + bs.length ≤ x) : Memory.byte (Memory.write m a bs) x = Memory.byte m x := by
  induction bs generalizing m a with
  | nil => rfl
  | cons b bs ih =>
    simp only [List.length_cons] at h
    rw [Memory.write, ih _ (a + 1) (by omega), Memory.byte_put_other m b (by omega)]

theorem Memory.byte_write_inside (m : List Host.Cell) (a : Nat) (bs : List Byte) {i : Nat}
    (h : i < bs.length) : Memory.byte (Memory.write m a bs) (a + i) = bs[i] := by
  induction bs generalizing m a i with
  | nil => exact absurd h (Nat.not_lt_zero i)
  | cons b bs ih =>
    rw [Memory.write]
    cases i with
    | zero =>
      rw [Memory.byte_write_outside _ (a + 1) bs (by omega)]
      exact Memory.byte_put_same m a b
    | succ i =>
      have := ih (Memory.put m a b) (a + 1) (i := i) (by simpa using h)
      rw [show a + (i + 1) = a + 1 + i by omega, this]
      rfl

theorem Memory.read_length (m : List Host.Cell) (a n : Nat) : (Memory.read m a n).length = n := by
  simp [Memory.read, span]

theorem Memory.read_write_same (m : List Host.Cell) (a : Nat) (bs : List Byte) :
    Memory.read (Memory.write m a bs) a bs.length = bs := by
  apply List.ext_getElem
  · rw [Memory.read_length]
  · intro i h1 h2
    simp only [Memory.read, span, List.getElem_map, List.getElem_range]
    exact Memory.byte_write_inside m a bs h2

theorem Memory.read_write_apart (m : List Host.Cell) (a : Nat) (bs : List Byte) {x n : Nat}
    (h : x + n ≤ a ∨ a + bs.length ≤ x) : Memory.read (Memory.write m a bs) x n = Memory.read m x n := by
  apply List.ext_getElem
  · simp [Memory.read_length]
  · intro i h1 h2
    rw [Memory.read_length] at h1
    simp only [Memory.read, span, List.getElem_map, List.getElem_range]
    exact Memory.byte_write_outside m a bs (by omega)

@[simp] theorem toBytes_length (n v : Nat) : (toBytes n v).length = n := by
  induction n generalizing v with
  | zero => rfl
  | succ n ih => simp [toBytes, ih]

theorem ofBytes_toBytes (n v : Nat) : ofBytes (toBytes n v) = v % 256 ^ n := by
  induction n generalizing v with
  | zero => simp [toBytes, ofBytes, Nat.mod_one]
  | succ n ih =>
    have h : (256 : Nat) ^ (n + 1) = 256 * 256 ^ n := Nat.pow_succ'
    rw [toBytes, ofBytes, ih, BitVec.toNat_ofNat, h, Nat.mod_mul]

/-! Bytes and doublewords at a home. -/

theorem wrBytes_mem (s : State) (k a : Nat) (bs : List Byte) : (wrBytes s k a bs).mem = Memory.write s.mem a bs := rfl

theorem wrBytes_wf {s : State} (hw : Memory.wf s.mem = true) (k a : Nat) (bs : List Byte) :
    Memory.wf (wrBytes s k a bs).mem = true := Memory.wf_write hw a bs

theorem rdBytes_wrBytes_same (s : State) (k a : Nat) (bs : List Byte) :
    rdBytes (wrBytes s k a bs) a bs.length = bs := Memory.read_write_same s.mem a bs

theorem rdBytes_wrBytes_apart (s : State) (k a : Nat) (bs : List Byte) {x n : Nat} (h : x + n ≤ a ∨ a + bs.length ≤ x) :
    rdBytes (wrBytes s k a bs) x n = rdBytes s x n := Memory.read_write_apart s.mem a bs h

theorem byte_wrBytes_outside (s : State) (k a : Nat) (bs : List Byte) {x : Nat} (h : x < a ∨ a + bs.length ≤ x) :
    Memory.byte (wrBytes s k a bs).mem x = Memory.byte s.mem x := Memory.byte_write_outside s.mem a bs h

theorem wrWord_wf {s : State} (hw : Memory.wf s.mem = true) (a : Nat) (v : Word) : Memory.wf (wrWord s a v).mem = true :=
  wrBytes_wf hw hwKey a _

theorem wrWords_wf {s : State} (hw : Memory.wf s.mem = true) (a : Nat) (vs : List Word) :
    Memory.wf (wrWords s a vs).mem = true := by
  induction vs generalizing s a with
  | nil => exact hw
  | cons v vs ih => exact ih (wrWord_wf hw a v) (a + 8)

@[simp] theorem rdWord_wrWord_same (s : State) (a : Nat) (v : Word) : rdWord (wrWord s a v) a = v := by
  have h := rdBytes_wrBytes_same s hwKey a (toBytes 8 v.toNat)
  rw [toBytes_length] at h
  unfold rdWord wrWord
  rw [h, ofBytes_toBytes]
  apply BitVec.eq_of_toNat_eq
  have := v.isLt
  simp only [w64, BitVec.toNat_ofNat]
  omega

theorem rdWord_wrWord_apart (s : State) (a : Nat) (v : Word) {x : Nat} (h : x + 8 ≤ a ∨ a + 8 ≤ x) :
    rdWord (wrWord s a v) x = rdWord s x := by
  unfold rdWord wrWord
  rw [rdBytes_wrBytes_apart s hwKey a _ (by simpa using h)]

theorem rdWord_absent {s : State} {a : Nat} (h : ∀ c ∈ s.mem, c.1 < a ∨ a + 8 ≤ c.1) : rdWord s a = 0 := by
  have : rdBytes s a 8 = List.replicate 8 0 := by
    refine List.eq_replicate_iff.2 ⟨Memory.read_length .., fun b hb => ?_⟩
    obtain ⟨x, hx, rfl⟩ := List.mem_map.1 hb
    obtain ⟨i, hi, rfl⟩ := List.mem_map.1 hx
    exact Memory.byte_absent fun c hc => by have := h c hc; have := List.mem_range.1 hi; omega
  rw [rdWord, this]
  rfl

theorem rdWord_wrWords_apart (s : State) (a : Nat) (vs : List Word) {x : Nat} (h : x + 8 ≤ a ∨ a + 8 * vs.length ≤ x) :
    rdWord (wrWords s a vs) x = rdWord s x := by
  induction vs generalizing s a with
  | nil => rfl
  | cons v vs ih =>
    simp only [List.length_cons] at h
    rw [wrWords, ih _ (a + 8) (by omega), rdWord_wrWord_apart s a v (by omega)]

theorem byte_wrWords_outside (s : State) (a : Nat) (vs : List Word) {x : Nat} (h : x < a ∨ a + 8 * vs.length ≤ x) :
    Memory.byte (wrWords s a vs).mem x = Memory.byte s.mem x := by
  induction vs generalizing s a with
  | nil => rfl
  | cons v vs ih =>
    simp only [List.length_cons] at h
    rw [wrWords, ih _ (a + 8) (by omega)]
    exact byte_wrBytes_outside s hwKey a _ (by simp; omega)

end Sys2Proof.Machine
end

