-- ==== Sys2Proof/Laws/State.lean ====
section
/-! SUPPORT. Every field of State after each of the small updates: a read of what an update does not write is what it was. -/

namespace Sys2Proof.Machine

/-! setThr -/

@[simp] theorem setThr_turns (s : State) (k : Nat) (t : Thread) : (setThr s k t).turns = s.turns := rfl
@[simp] theorem setThr_focus (s : State) (k : Nat) (t : Thread) : (setThr s k t).focus = s.focus := rfl
@[simp] theorem setThr_cur (s : State) (k : Nat) (t : Thread) : (setThr s k t).cur = s.cur := rfl
@[simp] theorem setThr_cycle (s : State) (k : Nat) (t : Thread) : (setThr s k t).cycle = s.cycle := rfl
@[simp] theorem setThr_us (s : State) (k : Nat) (t : Thread) : (setThr s k t).us = s.us := rfl
@[simp] theorem setThr_freeIdx (s : State) (k : Nat) (t : Thread) : (setThr s k t).freeIdx = s.freeIdx := rfl
@[simp] theorem setThr_nextId (s : State) (k : Nat) (t : Thread) : (setThr s k t).nextId = s.nextId := rfl
@[simp] theorem setThr_mem (s : State) (k : Nat) (t : Thread) : (setThr s k t).mem = s.mem := rfl
@[simp] theorem setThr_stale (s : State) (k : Nat) (t : Thread) : (setThr s k t).stale = s.stale := rfl
@[simp] theorem setThr_posted (s : State) (k : Nat) (t : Thread) : (setThr s k t).posted = s.posted := rfl
@[simp] theorem setThr_resvs (s : State) (k : Nat) (t : Thread) : (setThr s k t).resvs = s.resvs := rfl
@[simp] theorem setThr_poison (s : State) (k : Nat) (t : Thread) : (setThr s k t).poison = s.poison := rfl
@[simp] theorem setThr_pinned (s : State) (k : Nat) (t : Thread) : (setThr s k t).pinned = s.pinned := rfl
@[simp] theorem setThr_zeroTags (s : State) (k : Nat) (t : Thread) : (setThr s k t).zeroTags = s.zeroTags := rfl
@[simp] theorem setThr_l1 (s : State) (k : Nat) (t : Thread) : (setThr s k t).l1 = s.l1 := rfl
@[simp] theorem setThr_rtbase (s : State) (k : Nat) (t : Thread) : (setThr s k t).rtbase = s.rtbase := rfl
@[simp] theorem setThr_granules (s : State) (k : Nat) (t : Thread) : (setThr s k t).granules = s.granules := rfl
@[simp] theorem setThr_partctl (s : State) (k : Nat) (t : Thread) : (setThr s k t).partctl = s.partctl := rfl
@[simp] theorem setThr_parts (s : State) (k : Nat) (t : Thread) : (setThr s k t).parts = s.parts := rfl
@[simp] theorem setThr_harts (s : State) (k : Nat) (t : Thread) : (setThr s k t).harts = s.harts := rfl
@[simp] theorem setThr_held (s : State) (k : Nat) (t : Thread) : (setThr s k t).held = s.held := rfl
@[simp] theorem setThr_teams (s : State) (k : Nat) (t : Thread) : (setThr s k t).teams = s.teams := rfl
@[simp] theorem setThr_cores (s : State) (k : Nat) (t : Thread) : (setThr s k t).cores = s.cores := rfl
@[simp] theorem setThr_engines (s : State) (k : Nat) (t : Thread) : (setThr s k t).engines = s.engines := rfl
@[simp] theorem setThr_copies (s : State) (k : Nat) (t : Thread) : (setThr s k t).copies = s.copies := rfl
@[simp] theorem setThr_rowOps (s : State) (k : Nat) (t : Thread) : (setThr s k t).rowOps = s.rowOps := rfl
@[simp] theorem setThr_transits (s : State) (k : Nat) (t : Thread) : (setThr s k t).transits = s.transits := rfl
@[simp] theorem setThr_laces (s : State) (k : Nat) (t : Thread) : (setThr s k t).laces = s.laces := rfl
@[simp] theorem setThr_laced (s : State) (k : Nat) (t : Thread) : (setThr s k t).laced = s.laced := rfl
@[simp] theorem setThr_eyelets (s : State) (k : Nat) (t : Thread) : (setThr s k t).eyelets = s.eyelets := rfl
@[simp] theorem setThr_slices (s : State) (k : Nat) (t : Thread) : (setThr s k t).slices = s.slices := rfl
@[simp] theorem setThr_tlb (s : State) (k : Nat) (t : Thread) : (setThr s k t).tlb = s.tlb := rfl
@[simp] theorem setThr_walkCache (s : State) (k : Nat) (t : Thread) : (setThr s k t).walkCache = s.walkCache := rfl
@[simp] theorem setThr_walks (s : State) (k : Nat) (t : Thread) : (setThr s k t).walks = s.walks := rfl
@[simp] theorem setThr_shoots (s : State) (k : Nat) (t : Thread) : (setThr s k t).shoots = s.shoots := rfl
@[simp] theorem setThr_msis (s : State) (k : Nat) (t : Thread) : (setThr s k t).msis = s.msis := rfl
@[simp] theorem setThr_intPages (s : State) (k : Nat) (t : Thread) : (setThr s k t).intPages = s.intPages := rfl
@[simp] theorem setThr_mirqs (s : State) (k : Nat) (t : Thread) : (setThr s k t).mirqs = s.mirqs := rfl
@[simp] theorem setThr_errLog (s : State) (k : Nat) (t : Thread) : (setThr s k t).errLog = s.errLog := rfl
@[simp] theorem setThr_invals (s : State) (k : Nat) (t : Thread) : (setThr s k t).invals = s.invals := rfl
@[simp] theorem setThr_actCorr (s : State) (k : Nat) (t : Thread) : (setThr s k t).actCorr = s.actCorr := rfl
@[simp] theorem setThr_actSatn (s : State) (k : Nat) (t : Thread) : (setThr s k t).actSatn = s.actSatn := rfl
@[simp] theorem setThr_actThresh (s : State) (k : Nat) (t : Thread) : (setThr s k t).actThresh = s.actThresh := rfl
@[simp] theorem setThr_rowCnt (s : State) (k : Nat) (t : Thread) : (setThr s k t).rowCnt = s.rowCnt := rfl
@[simp] theorem setThr_rowDue (s : State) (k : Nat) (t : Thread) : (setThr s k t).rowDue = s.rowDue := rfl
@[simp] theorem setThr_weltsel (s : State) (k : Nat) (t : Thread) : (setThr s k t).weltsel = s.weltsel := rfl
@[simp] theorem setThr_welts (s : State) (k : Nat) (t : Thread) : (setThr s k t).welts = s.welts := rfl
@[simp] theorem setThr_windowUs (s : State) (k : Nat) (t : Thread) : (setThr s k t).windowUs = s.windowUs := rfl
@[simp] theorem setThr_ports (s : State) (k : Nat) (t : Thread) : (setThr s k t).ports = s.ports := rfl
@[simp] theorem setThr_eth (s : State) (k : Nat) (t : Thread) : (setThr s k t).eth = s.eth := rfl
@[simp] theorem setThr_boot (s : State) (k : Nat) (t : Thread) : (setThr s k t).boot = s.boot := rfl
@[simp] theorem hart_setThr (s : State) (k : Nat) (t : Thread) (j : Nat) : hart (setThr s k t) j = hart s j := rfl
@[simp] theorem part_setThr (s : State) (k : Nat) (t : Thread) (j : Nat) : part (setThr s k t) j = part s j := rfl
@[simp] theorem core_setThr (s : State) (k : Nat) (t : Thread) (j : Nat) : core (setThr s k t) j = core s j := rfl
@[simp] theorem engine_setThr (s : State) (k : Nat) (t : Thread) (j : Nat) : engine (setThr s k t) j = engine s j := rfl
@[simp] theorem slice_setThr (s : State) (k : Nat) (t : Thread) (j : Nat) : slice (setThr s k t) j = slice s j := rfl
@[simp] theorem eyelet_setThr (s : State) (k : Nat) (t : Thread) (j : Nat) : eyelet (setThr s k t) j = eyelet s j := rfl
@[simp] theorem lace_setThr (s : State) (k : Nat) (t : Thread) (j : Nat) : lace (setThr s k t) j = lace s j := rfl
@[simp] theorem welt_setThr (s : State) (k : Nat) (t : Thread) (j : Nat) : welt (setThr s k t) j = welt s j := rfl
@[simp] theorem port_setThr (s : State) (k : Nat) (t : Thread) (j : Nat) : port (setThr s k t) j = port s j := rfl
@[simp] theorem teamOpt_setThr (s : State) (k : Nat) (t : Thread) (j n i : Nat) : team? (setThr s k t) j n i = team? s j n i := rfl
@[simp] theorem rdWord_setThr (s : State) (k : Nat) (t : Thread) (j : Nat) : rdWord (setThr s k t) j = rdWord s j := rfl

/-! modThr -/

@[simp] theorem modThr_turns (s : State) (k : Nat) (f : Thread → Thread) : (modThr s k f).turns = s.turns := rfl
@[simp] theorem modThr_focus (s : State) (k : Nat) (f : Thread → Thread) : (modThr s k f).focus = s.focus := rfl
@[simp] theorem modThr_cur (s : State) (k : Nat) (f : Thread → Thread) : (modThr s k f).cur = s.cur := rfl
@[simp] theorem modThr_cycle (s : State) (k : Nat) (f : Thread → Thread) : (modThr s k f).cycle = s.cycle := rfl
@[simp] theorem modThr_us (s : State) (k : Nat) (f : Thread → Thread) : (modThr s k f).us = s.us := rfl
@[simp] theorem modThr_freeIdx (s : State) (k : Nat) (f : Thread → Thread) : (modThr s k f).freeIdx = s.freeIdx := rfl
@[simp] theorem modThr_nextId (s : State) (k : Nat) (f : Thread → Thread) : (modThr s k f).nextId = s.nextId := rfl
@[simp] theorem modThr_mem (s : State) (k : Nat) (f : Thread → Thread) : (modThr s k f).mem = s.mem := rfl
@[simp] theorem modThr_stale (s : State) (k : Nat) (f : Thread → Thread) : (modThr s k f).stale = s.stale := rfl
@[simp] theorem modThr_posted (s : State) (k : Nat) (f : Thread → Thread) : (modThr s k f).posted = s.posted := rfl
@[simp] theorem modThr_resvs (s : State) (k : Nat) (f : Thread → Thread) : (modThr s k f).resvs = s.resvs := rfl
@[simp] theorem modThr_poison (s : State) (k : Nat) (f : Thread → Thread) : (modThr s k f).poison = s.poison := rfl
@[simp] theorem modThr_pinned (s : State) (k : Nat) (f : Thread → Thread) : (modThr s k f).pinned = s.pinned := rfl
@[simp] theorem modThr_zeroTags (s : State) (k : Nat) (f : Thread → Thread) : (modThr s k f).zeroTags = s.zeroTags := rfl
@[simp] theorem modThr_l1 (s : State) (k : Nat) (f : Thread → Thread) : (modThr s k f).l1 = s.l1 := rfl
@[simp] theorem modThr_rtbase (s : State) (k : Nat) (f : Thread → Thread) : (modThr s k f).rtbase = s.rtbase := rfl
@[simp] theorem modThr_granules (s : State) (k : Nat) (f : Thread → Thread) : (modThr s k f).granules = s.granules := rfl
@[simp] theorem modThr_partctl (s : State) (k : Nat) (f : Thread → Thread) : (modThr s k f).partctl = s.partctl := rfl
@[simp] theorem modThr_parts (s : State) (k : Nat) (f : Thread → Thread) : (modThr s k f).parts = s.parts := rfl
@[simp] theorem modThr_harts (s : State) (k : Nat) (f : Thread → Thread) : (modThr s k f).harts = s.harts := rfl
@[simp] theorem modThr_held (s : State) (k : Nat) (f : Thread → Thread) : (modThr s k f).held = s.held := rfl
@[simp] theorem modThr_teams (s : State) (k : Nat) (f : Thread → Thread) : (modThr s k f).teams = s.teams := rfl
@[simp] theorem modThr_cores (s : State) (k : Nat) (f : Thread → Thread) : (modThr s k f).cores = s.cores := rfl
@[simp] theorem modThr_engines (s : State) (k : Nat) (f : Thread → Thread) : (modThr s k f).engines = s.engines := rfl
@[simp] theorem modThr_copies (s : State) (k : Nat) (f : Thread → Thread) : (modThr s k f).copies = s.copies := rfl
@[simp] theorem modThr_rowOps (s : State) (k : Nat) (f : Thread → Thread) : (modThr s k f).rowOps = s.rowOps := rfl
@[simp] theorem modThr_transits (s : State) (k : Nat) (f : Thread → Thread) : (modThr s k f).transits = s.transits := rfl
@[simp] theorem modThr_laces (s : State) (k : Nat) (f : Thread → Thread) : (modThr s k f).laces = s.laces := rfl
@[simp] theorem modThr_laced (s : State) (k : Nat) (f : Thread → Thread) : (modThr s k f).laced = s.laced := rfl
@[simp] theorem modThr_eyelets (s : State) (k : Nat) (f : Thread → Thread) : (modThr s k f).eyelets = s.eyelets := rfl
@[simp] theorem modThr_slices (s : State) (k : Nat) (f : Thread → Thread) : (modThr s k f).slices = s.slices := rfl
@[simp] theorem modThr_tlb (s : State) (k : Nat) (f : Thread → Thread) : (modThr s k f).tlb = s.tlb := rfl
@[simp] theorem modThr_walkCache (s : State) (k : Nat) (f : Thread → Thread) : (modThr s k f).walkCache = s.walkCache := rfl
@[simp] theorem modThr_walks (s : State) (k : Nat) (f : Thread → Thread) : (modThr s k f).walks = s.walks := rfl
@[simp] theorem modThr_shoots (s : State) (k : Nat) (f : Thread → Thread) : (modThr s k f).shoots = s.shoots := rfl
@[simp] theorem modThr_msis (s : State) (k : Nat) (f : Thread → Thread) : (modThr s k f).msis = s.msis := rfl
@[simp] theorem modThr_intPages (s : State) (k : Nat) (f : Thread → Thread) : (modThr s k f).intPages = s.intPages := rfl
@[simp] theorem modThr_mirqs (s : State) (k : Nat) (f : Thread → Thread) : (modThr s k f).mirqs = s.mirqs := rfl
@[simp] theorem modThr_errLog (s : State) (k : Nat) (f : Thread → Thread) : (modThr s k f).errLog = s.errLog := rfl
@[simp] theorem modThr_invals (s : State) (k : Nat) (f : Thread → Thread) : (modThr s k f).invals = s.invals := rfl
@[simp] theorem modThr_actCorr (s : State) (k : Nat) (f : Thread → Thread) : (modThr s k f).actCorr = s.actCorr := rfl
@[simp] theorem modThr_actSatn (s : State) (k : Nat) (f : Thread → Thread) : (modThr s k f).actSatn = s.actSatn := rfl
@[simp] theorem modThr_actThresh (s : State) (k : Nat) (f : Thread → Thread) : (modThr s k f).actThresh = s.actThresh := rfl
@[simp] theorem modThr_rowCnt (s : State) (k : Nat) (f : Thread → Thread) : (modThr s k f).rowCnt = s.rowCnt := rfl
@[simp] theorem modThr_rowDue (s : State) (k : Nat) (f : Thread → Thread) : (modThr s k f).rowDue = s.rowDue := rfl
@[simp] theorem modThr_weltsel (s : State) (k : Nat) (f : Thread → Thread) : (modThr s k f).weltsel = s.weltsel := rfl
@[simp] theorem modThr_welts (s : State) (k : Nat) (f : Thread → Thread) : (modThr s k f).welts = s.welts := rfl
@[simp] theorem modThr_windowUs (s : State) (k : Nat) (f : Thread → Thread) : (modThr s k f).windowUs = s.windowUs := rfl
@[simp] theorem modThr_ports (s : State) (k : Nat) (f : Thread → Thread) : (modThr s k f).ports = s.ports := rfl
@[simp] theorem modThr_eth (s : State) (k : Nat) (f : Thread → Thread) : (modThr s k f).eth = s.eth := rfl
@[simp] theorem modThr_boot (s : State) (k : Nat) (f : Thread → Thread) : (modThr s k f).boot = s.boot := rfl
@[simp] theorem hart_modThr (s : State) (k : Nat) (f : Thread → Thread) (j : Nat) : hart (modThr s k f) j = hart s j := rfl
@[simp] theorem part_modThr (s : State) (k : Nat) (f : Thread → Thread) (j : Nat) : part (modThr s k f) j = part s j := rfl
@[simp] theorem core_modThr (s : State) (k : Nat) (f : Thread → Thread) (j : Nat) : core (modThr s k f) j = core s j := rfl
@[simp] theorem engine_modThr (s : State) (k : Nat) (f : Thread → Thread) (j : Nat) : engine (modThr s k f) j = engine s j := rfl
@[simp] theorem slice_modThr (s : State) (k : Nat) (f : Thread → Thread) (j : Nat) : slice (modThr s k f) j = slice s j := rfl
@[simp] theorem eyelet_modThr (s : State) (k : Nat) (f : Thread → Thread) (j : Nat) : eyelet (modThr s k f) j = eyelet s j := rfl
@[simp] theorem lace_modThr (s : State) (k : Nat) (f : Thread → Thread) (j : Nat) : lace (modThr s k f) j = lace s j := rfl
@[simp] theorem welt_modThr (s : State) (k : Nat) (f : Thread → Thread) (j : Nat) : welt (modThr s k f) j = welt s j := rfl
@[simp] theorem port_modThr (s : State) (k : Nat) (f : Thread → Thread) (j : Nat) : port (modThr s k f) j = port s j := rfl
@[simp] theorem teamOpt_modThr (s : State) (k : Nat) (f : Thread → Thread) (j n i : Nat) : team? (modThr s k f) j n i = team? s j n i := rfl
@[simp] theorem rdWord_modThr (s : State) (k : Nat) (f : Thread → Thread) (j : Nat) : rdWord (modThr s k f) j = rdWord s j := rfl

/-! dropThr -/

@[simp] theorem dropThr_turns (s : State) (k : Nat) : (dropThr s k).turns = s.turns := rfl
@[simp] theorem dropThr_focus (s : State) (k : Nat) : (dropThr s k).focus = s.focus := rfl
@[simp] theorem dropThr_cur (s : State) (k : Nat) : (dropThr s k).cur = s.cur := rfl
@[simp] theorem dropThr_cycle (s : State) (k : Nat) : (dropThr s k).cycle = s.cycle := rfl
@[simp] theorem dropThr_us (s : State) (k : Nat) : (dropThr s k).us = s.us := rfl
@[simp] theorem dropThr_freeIdx (s : State) (k : Nat) : (dropThr s k).freeIdx = s.freeIdx := rfl
@[simp] theorem dropThr_nextId (s : State) (k : Nat) : (dropThr s k).nextId = s.nextId := rfl
@[simp] theorem dropThr_mem (s : State) (k : Nat) : (dropThr s k).mem = s.mem := rfl
@[simp] theorem dropThr_stale (s : State) (k : Nat) : (dropThr s k).stale = s.stale := rfl
@[simp] theorem dropThr_posted (s : State) (k : Nat) : (dropThr s k).posted = s.posted := rfl
@[simp] theorem dropThr_resvs (s : State) (k : Nat) : (dropThr s k).resvs = s.resvs := rfl
@[simp] theorem dropThr_poison (s : State) (k : Nat) : (dropThr s k).poison = s.poison := rfl
@[simp] theorem dropThr_pinned (s : State) (k : Nat) : (dropThr s k).pinned = s.pinned := rfl
@[simp] theorem dropThr_zeroTags (s : State) (k : Nat) : (dropThr s k).zeroTags = s.zeroTags := rfl
@[simp] theorem dropThr_l1 (s : State) (k : Nat) : (dropThr s k).l1 = s.l1 := rfl
@[simp] theorem dropThr_rtbase (s : State) (k : Nat) : (dropThr s k).rtbase = s.rtbase := rfl
@[simp] theorem dropThr_granules (s : State) (k : Nat) : (dropThr s k).granules = s.granules := rfl
@[simp] theorem dropThr_partctl (s : State) (k : Nat) : (dropThr s k).partctl = s.partctl := rfl
@[simp] theorem dropThr_parts (s : State) (k : Nat) : (dropThr s k).parts = s.parts := rfl
@[simp] theorem dropThr_harts (s : State) (k : Nat) : (dropThr s k).harts = s.harts := rfl
@[simp] theorem dropThr_held (s : State) (k : Nat) : (dropThr s k).held = s.held := rfl
@[simp] theorem dropThr_teams (s : State) (k : Nat) : (dropThr s k).teams = s.teams := rfl
@[simp] theorem dropThr_cores (s : State) (k : Nat) : (dropThr s k).cores = s.cores := rfl
@[simp] theorem dropThr_engines (s : State) (k : Nat) : (dropThr s k).engines = s.engines := rfl
@[simp] theorem dropThr_copies (s : State) (k : Nat) : (dropThr s k).copies = s.copies := rfl
@[simp] theorem dropThr_rowOps (s : State) (k : Nat) : (dropThr s k).rowOps = s.rowOps := rfl
@[simp] theorem dropThr_transits (s : State) (k : Nat) : (dropThr s k).transits = s.transits := rfl
@[simp] theorem dropThr_laces (s : State) (k : Nat) : (dropThr s k).laces = s.laces := rfl
@[simp] theorem dropThr_laced (s : State) (k : Nat) : (dropThr s k).laced = s.laced := rfl
@[simp] theorem dropThr_eyelets (s : State) (k : Nat) : (dropThr s k).eyelets = s.eyelets := rfl
@[simp] theorem dropThr_slices (s : State) (k : Nat) : (dropThr s k).slices = s.slices := rfl
@[simp] theorem dropThr_tlb (s : State) (k : Nat) : (dropThr s k).tlb = s.tlb := rfl
@[simp] theorem dropThr_walkCache (s : State) (k : Nat) : (dropThr s k).walkCache = s.walkCache := rfl
@[simp] theorem dropThr_walks (s : State) (k : Nat) : (dropThr s k).walks = s.walks := rfl
@[simp] theorem dropThr_shoots (s : State) (k : Nat) : (dropThr s k).shoots = s.shoots := rfl
@[simp] theorem dropThr_msis (s : State) (k : Nat) : (dropThr s k).msis = s.msis := rfl
@[simp] theorem dropThr_intPages (s : State) (k : Nat) : (dropThr s k).intPages = s.intPages := rfl
@[simp] theorem dropThr_mirqs (s : State) (k : Nat) : (dropThr s k).mirqs = s.mirqs := rfl
@[simp] theorem dropThr_errLog (s : State) (k : Nat) : (dropThr s k).errLog = s.errLog := rfl
@[simp] theorem dropThr_invals (s : State) (k : Nat) : (dropThr s k).invals = s.invals := rfl
@[simp] theorem dropThr_actCorr (s : State) (k : Nat) : (dropThr s k).actCorr = s.actCorr := rfl
@[simp] theorem dropThr_actSatn (s : State) (k : Nat) : (dropThr s k).actSatn = s.actSatn := rfl
@[simp] theorem dropThr_actThresh (s : State) (k : Nat) : (dropThr s k).actThresh = s.actThresh := rfl
@[simp] theorem dropThr_rowCnt (s : State) (k : Nat) : (dropThr s k).rowCnt = s.rowCnt := rfl
@[simp] theorem dropThr_rowDue (s : State) (k : Nat) : (dropThr s k).rowDue = s.rowDue := rfl
@[simp] theorem dropThr_weltsel (s : State) (k : Nat) : (dropThr s k).weltsel = s.weltsel := rfl
@[simp] theorem dropThr_welts (s : State) (k : Nat) : (dropThr s k).welts = s.welts := rfl
@[simp] theorem dropThr_windowUs (s : State) (k : Nat) : (dropThr s k).windowUs = s.windowUs := rfl
@[simp] theorem dropThr_ports (s : State) (k : Nat) : (dropThr s k).ports = s.ports := rfl
@[simp] theorem dropThr_eth (s : State) (k : Nat) : (dropThr s k).eth = s.eth := rfl
@[simp] theorem dropThr_boot (s : State) (k : Nat) : (dropThr s k).boot = s.boot := rfl
@[simp] theorem hart_dropThr (s : State) (k : Nat) (j : Nat) : hart (dropThr s k) j = hart s j := rfl
@[simp] theorem part_dropThr (s : State) (k : Nat) (j : Nat) : part (dropThr s k) j = part s j := rfl
@[simp] theorem core_dropThr (s : State) (k : Nat) (j : Nat) : core (dropThr s k) j = core s j := rfl
@[simp] theorem engine_dropThr (s : State) (k : Nat) (j : Nat) : engine (dropThr s k) j = engine s j := rfl
@[simp] theorem slice_dropThr (s : State) (k : Nat) (j : Nat) : slice (dropThr s k) j = slice s j := rfl
@[simp] theorem eyelet_dropThr (s : State) (k : Nat) (j : Nat) : eyelet (dropThr s k) j = eyelet s j := rfl
@[simp] theorem lace_dropThr (s : State) (k : Nat) (j : Nat) : lace (dropThr s k) j = lace s j := rfl
@[simp] theorem welt_dropThr (s : State) (k : Nat) (j : Nat) : welt (dropThr s k) j = welt s j := rfl
@[simp] theorem port_dropThr (s : State) (k : Nat) (j : Nat) : port (dropThr s k) j = port s j := rfl
@[simp] theorem teamOpt_dropThr (s : State) (k : Nat) (j n i : Nat) : team? (dropThr s k) j n i = team? s j n i := rfl
@[simp] theorem rdWord_dropThr (s : State) (k : Nat) (j : Nat) : rdWord (dropThr s k) j = rdWord s j := rfl

/-! modHart -/

@[simp] theorem modHart_turns (s : State) (k : Nat) (f : Hart → Hart) : (modHart s k f).turns = s.turns := rfl
@[simp] theorem modHart_focus (s : State) (k : Nat) (f : Hart → Hart) : (modHart s k f).focus = s.focus := rfl
@[simp] theorem modHart_cur (s : State) (k : Nat) (f : Hart → Hart) : (modHart s k f).cur = s.cur := rfl
@[simp] theorem modHart_cycle (s : State) (k : Nat) (f : Hart → Hart) : (modHart s k f).cycle = s.cycle := rfl
@[simp] theorem modHart_us (s : State) (k : Nat) (f : Hart → Hart) : (modHart s k f).us = s.us := rfl
@[simp] theorem modHart_freeIdx (s : State) (k : Nat) (f : Hart → Hart) : (modHart s k f).freeIdx = s.freeIdx := rfl
@[simp] theorem modHart_nextId (s : State) (k : Nat) (f : Hart → Hart) : (modHart s k f).nextId = s.nextId := rfl
@[simp] theorem modHart_mem (s : State) (k : Nat) (f : Hart → Hart) : (modHart s k f).mem = s.mem := rfl
@[simp] theorem modHart_stale (s : State) (k : Nat) (f : Hart → Hart) : (modHart s k f).stale = s.stale := rfl
@[simp] theorem modHart_posted (s : State) (k : Nat) (f : Hart → Hart) : (modHart s k f).posted = s.posted := rfl
@[simp] theorem modHart_resvs (s : State) (k : Nat) (f : Hart → Hart) : (modHart s k f).resvs = s.resvs := rfl
@[simp] theorem modHart_poison (s : State) (k : Nat) (f : Hart → Hart) : (modHart s k f).poison = s.poison := rfl
@[simp] theorem modHart_pinned (s : State) (k : Nat) (f : Hart → Hart) : (modHart s k f).pinned = s.pinned := rfl
@[simp] theorem modHart_zeroTags (s : State) (k : Nat) (f : Hart → Hart) : (modHart s k f).zeroTags = s.zeroTags := rfl
@[simp] theorem modHart_l1 (s : State) (k : Nat) (f : Hart → Hart) : (modHart s k f).l1 = s.l1 := rfl
@[simp] theorem modHart_rtbase (s : State) (k : Nat) (f : Hart → Hart) : (modHart s k f).rtbase = s.rtbase := rfl
@[simp] theorem modHart_granules (s : State) (k : Nat) (f : Hart → Hart) : (modHart s k f).granules = s.granules := rfl
@[simp] theorem modHart_partctl (s : State) (k : Nat) (f : Hart → Hart) : (modHart s k f).partctl = s.partctl := rfl
@[simp] theorem modHart_parts (s : State) (k : Nat) (f : Hart → Hart) : (modHart s k f).parts = s.parts := rfl
@[simp] theorem modHart_threads (s : State) (k : Nat) (f : Hart → Hart) : (modHart s k f).threads = s.threads := rfl
@[simp] theorem modHart_held (s : State) (k : Nat) (f : Hart → Hart) : (modHart s k f).held = s.held := rfl
@[simp] theorem modHart_teams (s : State) (k : Nat) (f : Hart → Hart) : (modHart s k f).teams = s.teams := rfl
@[simp] theorem modHart_cores (s : State) (k : Nat) (f : Hart → Hart) : (modHart s k f).cores = s.cores := rfl
@[simp] theorem modHart_engines (s : State) (k : Nat) (f : Hart → Hart) : (modHart s k f).engines = s.engines := rfl
@[simp] theorem modHart_copies (s : State) (k : Nat) (f : Hart → Hart) : (modHart s k f).copies = s.copies := rfl
@[simp] theorem modHart_rowOps (s : State) (k : Nat) (f : Hart → Hart) : (modHart s k f).rowOps = s.rowOps := rfl
@[simp] theorem modHart_transits (s : State) (k : Nat) (f : Hart → Hart) : (modHart s k f).transits = s.transits := rfl
@[simp] theorem modHart_laces (s : State) (k : Nat) (f : Hart → Hart) : (modHart s k f).laces = s.laces := rfl
@[simp] theorem modHart_laced (s : State) (k : Nat) (f : Hart → Hart) : (modHart s k f).laced = s.laced := rfl
@[simp] theorem modHart_eyelets (s : State) (k : Nat) (f : Hart → Hart) : (modHart s k f).eyelets = s.eyelets := rfl
@[simp] theorem modHart_slices (s : State) (k : Nat) (f : Hart → Hart) : (modHart s k f).slices = s.slices := rfl
@[simp] theorem modHart_tlb (s : State) (k : Nat) (f : Hart → Hart) : (modHart s k f).tlb = s.tlb := rfl
@[simp] theorem modHart_walkCache (s : State) (k : Nat) (f : Hart → Hart) : (modHart s k f).walkCache = s.walkCache := rfl
@[simp] theorem modHart_walks (s : State) (k : Nat) (f : Hart → Hart) : (modHart s k f).walks = s.walks := rfl
@[simp] theorem modHart_shoots (s : State) (k : Nat) (f : Hart → Hart) : (modHart s k f).shoots = s.shoots := rfl
@[simp] theorem modHart_msis (s : State) (k : Nat) (f : Hart → Hart) : (modHart s k f).msis = s.msis := rfl
@[simp] theorem modHart_intPages (s : State) (k : Nat) (f : Hart → Hart) : (modHart s k f).intPages = s.intPages := rfl
@[simp] theorem modHart_mirqs (s : State) (k : Nat) (f : Hart → Hart) : (modHart s k f).mirqs = s.mirqs := rfl
@[simp] theorem modHart_errLog (s : State) (k : Nat) (f : Hart → Hart) : (modHart s k f).errLog = s.errLog := rfl
@[simp] theorem modHart_invals (s : State) (k : Nat) (f : Hart → Hart) : (modHart s k f).invals = s.invals := rfl
@[simp] theorem modHart_actCorr (s : State) (k : Nat) (f : Hart → Hart) : (modHart s k f).actCorr = s.actCorr := rfl
@[simp] theorem modHart_actSatn (s : State) (k : Nat) (f : Hart → Hart) : (modHart s k f).actSatn = s.actSatn := rfl
@[simp] theorem modHart_actThresh (s : State) (k : Nat) (f : Hart → Hart) : (modHart s k f).actThresh = s.actThresh := rfl
@[simp] theorem modHart_rowCnt (s : State) (k : Nat) (f : Hart → Hart) : (modHart s k f).rowCnt = s.rowCnt := rfl
@[simp] theorem modHart_rowDue (s : State) (k : Nat) (f : Hart → Hart) : (modHart s k f).rowDue = s.rowDue := rfl
@[simp] theorem modHart_weltsel (s : State) (k : Nat) (f : Hart → Hart) : (modHart s k f).weltsel = s.weltsel := rfl
@[simp] theorem modHart_welts (s : State) (k : Nat) (f : Hart → Hart) : (modHart s k f).welts = s.welts := rfl
@[simp] theorem modHart_windowUs (s : State) (k : Nat) (f : Hart → Hart) : (modHart s k f).windowUs = s.windowUs := rfl
@[simp] theorem modHart_ports (s : State) (k : Nat) (f : Hart → Hart) : (modHart s k f).ports = s.ports := rfl
@[simp] theorem modHart_eth (s : State) (k : Nat) (f : Hart → Hart) : (modHart s k f).eth = s.eth := rfl
@[simp] theorem modHart_boot (s : State) (k : Nat) (f : Hart → Hart) : (modHart s k f).boot = s.boot := rfl
@[simp] theorem thr_modHart (s : State) (k : Nat) (f : Hart → Hart) (j : Nat) : thr (modHart s k f) j = thr s j := rfl
@[simp] theorem occupied_modHart (s : State) (k : Nat) (f : Hart → Hart) (j : Nat) : occupied (modHart s k f) j = occupied s j := rfl
@[simp] theorem part_modHart (s : State) (k : Nat) (f : Hart → Hart) (j : Nat) : part (modHart s k f) j = part s j := rfl
@[simp] theorem core_modHart (s : State) (k : Nat) (f : Hart → Hart) (j : Nat) : core (modHart s k f) j = core s j := rfl
@[simp] theorem engine_modHart (s : State) (k : Nat) (f : Hart → Hart) (j : Nat) : engine (modHart s k f) j = engine s j := rfl
@[simp] theorem slice_modHart (s : State) (k : Nat) (f : Hart → Hart) (j : Nat) : slice (modHart s k f) j = slice s j := rfl
@[simp] theorem eyelet_modHart (s : State) (k : Nat) (f : Hart → Hart) (j : Nat) : eyelet (modHart s k f) j = eyelet s j := rfl
@[simp] theorem lace_modHart (s : State) (k : Nat) (f : Hart → Hart) (j : Nat) : lace (modHart s k f) j = lace s j := rfl
@[simp] theorem welt_modHart (s : State) (k : Nat) (f : Hart → Hart) (j : Nat) : welt (modHart s k f) j = welt s j := rfl
@[simp] theorem port_modHart (s : State) (k : Nat) (f : Hart → Hart) (j : Nat) : port (modHart s k f) j = port s j := rfl
@[simp] theorem teamOpt_modHart (s : State) (k : Nat) (f : Hart → Hart) (j n i : Nat) : team? (modHart s k f) j n i = team? s j n i := rfl
@[simp] theorem rdWord_modHart (s : State) (k : Nat) (f : Hart → Hart) (j : Nat) : rdWord (modHart s k f) j = rdWord s j := rfl

/-! modPart -/

@[simp] theorem modPart_turns (s : State) (p : Nat) (f : Partition → Partition) : (modPart s p f).turns = s.turns := rfl
@[simp] theorem modPart_focus (s : State) (p : Nat) (f : Partition → Partition) : (modPart s p f).focus = s.focus := rfl
@[simp] theorem modPart_cur (s : State) (p : Nat) (f : Partition → Partition) : (modPart s p f).cur = s.cur := rfl
@[simp] theorem modPart_cycle (s : State) (p : Nat) (f : Partition → Partition) : (modPart s p f).cycle = s.cycle := rfl
@[simp] theorem modPart_us (s : State) (p : Nat) (f : Partition → Partition) : (modPart s p f).us = s.us := rfl
@[simp] theorem modPart_freeIdx (s : State) (p : Nat) (f : Partition → Partition) : (modPart s p f).freeIdx = s.freeIdx := rfl
@[simp] theorem modPart_nextId (s : State) (p : Nat) (f : Partition → Partition) : (modPart s p f).nextId = s.nextId := rfl
@[simp] theorem modPart_mem (s : State) (p : Nat) (f : Partition → Partition) : (modPart s p f).mem = s.mem := rfl
@[simp] theorem modPart_stale (s : State) (p : Nat) (f : Partition → Partition) : (modPart s p f).stale = s.stale := rfl
@[simp] theorem modPart_posted (s : State) (p : Nat) (f : Partition → Partition) : (modPart s p f).posted = s.posted := rfl
@[simp] theorem modPart_resvs (s : State) (p : Nat) (f : Partition → Partition) : (modPart s p f).resvs = s.resvs := rfl
@[simp] theorem modPart_poison (s : State) (p : Nat) (f : Partition → Partition) : (modPart s p f).poison = s.poison := rfl
@[simp] theorem modPart_pinned (s : State) (p : Nat) (f : Partition → Partition) : (modPart s p f).pinned = s.pinned := rfl
@[simp] theorem modPart_zeroTags (s : State) (p : Nat) (f : Partition → Partition) : (modPart s p f).zeroTags = s.zeroTags := rfl
@[simp] theorem modPart_l1 (s : State) (p : Nat) (f : Partition → Partition) : (modPart s p f).l1 = s.l1 := rfl
@[simp] theorem modPart_rtbase (s : State) (p : Nat) (f : Partition → Partition) : (modPart s p f).rtbase = s.rtbase := rfl
@[simp] theorem modPart_granules (s : State) (p : Nat) (f : Partition → Partition) : (modPart s p f).granules = s.granules := rfl
@[simp] theorem modPart_partctl (s : State) (p : Nat) (f : Partition → Partition) : (modPart s p f).partctl = s.partctl := rfl
@[simp] theorem modPart_harts (s : State) (p : Nat) (f : Partition → Partition) : (modPart s p f).harts = s.harts := rfl
@[simp] theorem modPart_threads (s : State) (p : Nat) (f : Partition → Partition) : (modPart s p f).threads = s.threads := rfl
@[simp] theorem modPart_held (s : State) (p : Nat) (f : Partition → Partition) : (modPart s p f).held = s.held := rfl
@[simp] theorem modPart_teams (s : State) (p : Nat) (f : Partition → Partition) : (modPart s p f).teams = s.teams := rfl
@[simp] theorem modPart_cores (s : State) (p : Nat) (f : Partition → Partition) : (modPart s p f).cores = s.cores := rfl
@[simp] theorem modPart_engines (s : State) (p : Nat) (f : Partition → Partition) : (modPart s p f).engines = s.engines := rfl
@[simp] theorem modPart_copies (s : State) (p : Nat) (f : Partition → Partition) : (modPart s p f).copies = s.copies := rfl
@[simp] theorem modPart_rowOps (s : State) (p : Nat) (f : Partition → Partition) : (modPart s p f).rowOps = s.rowOps := rfl
@[simp] theorem modPart_transits (s : State) (p : Nat) (f : Partition → Partition) : (modPart s p f).transits = s.transits := rfl
@[simp] theorem modPart_laces (s : State) (p : Nat) (f : Partition → Partition) : (modPart s p f).laces = s.laces := rfl
@[simp] theorem modPart_laced (s : State) (p : Nat) (f : Partition → Partition) : (modPart s p f).laced = s.laced := rfl
@[simp] theorem modPart_eyelets (s : State) (p : Nat) (f : Partition → Partition) : (modPart s p f).eyelets = s.eyelets := rfl
@[simp] theorem modPart_slices (s : State) (p : Nat) (f : Partition → Partition) : (modPart s p f).slices = s.slices := rfl
@[simp] theorem modPart_tlb (s : State) (p : Nat) (f : Partition → Partition) : (modPart s p f).tlb = s.tlb := rfl
@[simp] theorem modPart_walkCache (s : State) (p : Nat) (f : Partition → Partition) : (modPart s p f).walkCache = s.walkCache := rfl
@[simp] theorem modPart_walks (s : State) (p : Nat) (f : Partition → Partition) : (modPart s p f).walks = s.walks := rfl
@[simp] theorem modPart_shoots (s : State) (p : Nat) (f : Partition → Partition) : (modPart s p f).shoots = s.shoots := rfl
@[simp] theorem modPart_msis (s : State) (p : Nat) (f : Partition → Partition) : (modPart s p f).msis = s.msis := rfl
@[simp] theorem modPart_intPages (s : State) (p : Nat) (f : Partition → Partition) : (modPart s p f).intPages = s.intPages := rfl
@[simp] theorem modPart_mirqs (s : State) (p : Nat) (f : Partition → Partition) : (modPart s p f).mirqs = s.mirqs := rfl
@[simp] theorem modPart_errLog (s : State) (p : Nat) (f : Partition → Partition) : (modPart s p f).errLog = s.errLog := rfl
@[simp] theorem modPart_invals (s : State) (p : Nat) (f : Partition → Partition) : (modPart s p f).invals = s.invals := rfl
@[simp] theorem modPart_actCorr (s : State) (p : Nat) (f : Partition → Partition) : (modPart s p f).actCorr = s.actCorr := rfl
@[simp] theorem modPart_actSatn (s : State) (p : Nat) (f : Partition → Partition) : (modPart s p f).actSatn = s.actSatn := rfl
@[simp] theorem modPart_actThresh (s : State) (p : Nat) (f : Partition → Partition) : (modPart s p f).actThresh = s.actThresh := rfl
@[simp] theorem modPart_rowCnt (s : State) (p : Nat) (f : Partition → Partition) : (modPart s p f).rowCnt = s.rowCnt := rfl
@[simp] theorem modPart_rowDue (s : State) (p : Nat) (f : Partition → Partition) : (modPart s p f).rowDue = s.rowDue := rfl
@[simp] theorem modPart_weltsel (s : State) (p : Nat) (f : Partition → Partition) : (modPart s p f).weltsel = s.weltsel := rfl
@[simp] theorem modPart_welts (s : State) (p : Nat) (f : Partition → Partition) : (modPart s p f).welts = s.welts := rfl
@[simp] theorem modPart_windowUs (s : State) (p : Nat) (f : Partition → Partition) : (modPart s p f).windowUs = s.windowUs := rfl
@[simp] theorem modPart_ports (s : State) (p : Nat) (f : Partition → Partition) : (modPart s p f).ports = s.ports := rfl
@[simp] theorem modPart_eth (s : State) (p : Nat) (f : Partition → Partition) : (modPart s p f).eth = s.eth := rfl
@[simp] theorem modPart_boot (s : State) (p : Nat) (f : Partition → Partition) : (modPart s p f).boot = s.boot := rfl
@[simp] theorem thr_modPart (s : State) (p : Nat) (f : Partition → Partition) (j : Nat) : thr (modPart s p f) j = thr s j := rfl
@[simp] theorem occupied_modPart (s : State) (p : Nat) (f : Partition → Partition) (j : Nat) : occupied (modPart s p f) j = occupied s j := rfl
@[simp] theorem hart_modPart (s : State) (p : Nat) (f : Partition → Partition) (j : Nat) : hart (modPart s p f) j = hart s j := rfl
@[simp] theorem core_modPart (s : State) (p : Nat) (f : Partition → Partition) (j : Nat) : core (modPart s p f) j = core s j := rfl
@[simp] theorem engine_modPart (s : State) (p : Nat) (f : Partition → Partition) (j : Nat) : engine (modPart s p f) j = engine s j := rfl
@[simp] theorem slice_modPart (s : State) (p : Nat) (f : Partition → Partition) (j : Nat) : slice (modPart s p f) j = slice s j := rfl
@[simp] theorem eyelet_modPart (s : State) (p : Nat) (f : Partition → Partition) (j : Nat) : eyelet (modPart s p f) j = eyelet s j := rfl
@[simp] theorem lace_modPart (s : State) (p : Nat) (f : Partition → Partition) (j : Nat) : lace (modPart s p f) j = lace s j := rfl
@[simp] theorem welt_modPart (s : State) (p : Nat) (f : Partition → Partition) (j : Nat) : welt (modPart s p f) j = welt s j := rfl
@[simp] theorem port_modPart (s : State) (p : Nat) (f : Partition → Partition) (j : Nat) : port (modPart s p f) j = port s j := rfl
@[simp] theorem teamOpt_modPart (s : State) (p : Nat) (f : Partition → Partition) (j n i : Nat) : team? (modPart s p f) j n i = team? s j n i := rfl
@[simp] theorem rdWord_modPart (s : State) (p : Nat) (f : Partition → Partition) (j : Nat) : rdWord (modPart s p f) j = rdWord s j := rfl

/-! modCore -/

@[simp] theorem modCore_turns (s : State) (c : Nat) (f : Core → Core) : (modCore s c f).turns = s.turns := rfl
@[simp] theorem modCore_focus (s : State) (c : Nat) (f : Core → Core) : (modCore s c f).focus = s.focus := rfl
@[simp] theorem modCore_cur (s : State) (c : Nat) (f : Core → Core) : (modCore s c f).cur = s.cur := rfl
@[simp] theorem modCore_cycle (s : State) (c : Nat) (f : Core → Core) : (modCore s c f).cycle = s.cycle := rfl
@[simp] theorem modCore_us (s : State) (c : Nat) (f : Core → Core) : (modCore s c f).us = s.us := rfl
@[simp] theorem modCore_freeIdx (s : State) (c : Nat) (f : Core → Core) : (modCore s c f).freeIdx = s.freeIdx := rfl
@[simp] theorem modCore_nextId (s : State) (c : Nat) (f : Core → Core) : (modCore s c f).nextId = s.nextId := rfl
@[simp] theorem modCore_mem (s : State) (c : Nat) (f : Core → Core) : (modCore s c f).mem = s.mem := rfl
@[simp] theorem modCore_stale (s : State) (c : Nat) (f : Core → Core) : (modCore s c f).stale = s.stale := rfl
@[simp] theorem modCore_posted (s : State) (c : Nat) (f : Core → Core) : (modCore s c f).posted = s.posted := rfl
@[simp] theorem modCore_resvs (s : State) (c : Nat) (f : Core → Core) : (modCore s c f).resvs = s.resvs := rfl
@[simp] theorem modCore_poison (s : State) (c : Nat) (f : Core → Core) : (modCore s c f).poison = s.poison := rfl
@[simp] theorem modCore_pinned (s : State) (c : Nat) (f : Core → Core) : (modCore s c f).pinned = s.pinned := rfl
@[simp] theorem modCore_zeroTags (s : State) (c : Nat) (f : Core → Core) : (modCore s c f).zeroTags = s.zeroTags := rfl
@[simp] theorem modCore_l1 (s : State) (c : Nat) (f : Core → Core) : (modCore s c f).l1 = s.l1 := rfl
@[simp] theorem modCore_rtbase (s : State) (c : Nat) (f : Core → Core) : (modCore s c f).rtbase = s.rtbase := rfl
@[simp] theorem modCore_granules (s : State) (c : Nat) (f : Core → Core) : (modCore s c f).granules = s.granules := rfl
@[simp] theorem modCore_partctl (s : State) (c : Nat) (f : Core → Core) : (modCore s c f).partctl = s.partctl := rfl
@[simp] theorem modCore_parts (s : State) (c : Nat) (f : Core → Core) : (modCore s c f).parts = s.parts := rfl
@[simp] theorem modCore_harts (s : State) (c : Nat) (f : Core → Core) : (modCore s c f).harts = s.harts := rfl
@[simp] theorem modCore_threads (s : State) (c : Nat) (f : Core → Core) : (modCore s c f).threads = s.threads := rfl
@[simp] theorem modCore_held (s : State) (c : Nat) (f : Core → Core) : (modCore s c f).held = s.held := rfl
@[simp] theorem modCore_teams (s : State) (c : Nat) (f : Core → Core) : (modCore s c f).teams = s.teams := rfl
@[simp] theorem modCore_engines (s : State) (c : Nat) (f : Core → Core) : (modCore s c f).engines = s.engines := rfl
@[simp] theorem modCore_copies (s : State) (c : Nat) (f : Core → Core) : (modCore s c f).copies = s.copies := rfl
@[simp] theorem modCore_rowOps (s : State) (c : Nat) (f : Core → Core) : (modCore s c f).rowOps = s.rowOps := rfl
@[simp] theorem modCore_transits (s : State) (c : Nat) (f : Core → Core) : (modCore s c f).transits = s.transits := rfl
@[simp] theorem modCore_laces (s : State) (c : Nat) (f : Core → Core) : (modCore s c f).laces = s.laces := rfl
@[simp] theorem modCore_laced (s : State) (c : Nat) (f : Core → Core) : (modCore s c f).laced = s.laced := rfl
@[simp] theorem modCore_eyelets (s : State) (c : Nat) (f : Core → Core) : (modCore s c f).eyelets = s.eyelets := rfl
@[simp] theorem modCore_slices (s : State) (c : Nat) (f : Core → Core) : (modCore s c f).slices = s.slices := rfl
@[simp] theorem modCore_tlb (s : State) (c : Nat) (f : Core → Core) : (modCore s c f).tlb = s.tlb := rfl
@[simp] theorem modCore_walkCache (s : State) (c : Nat) (f : Core → Core) : (modCore s c f).walkCache = s.walkCache := rfl
@[simp] theorem modCore_walks (s : State) (c : Nat) (f : Core → Core) : (modCore s c f).walks = s.walks := rfl
@[simp] theorem modCore_shoots (s : State) (c : Nat) (f : Core → Core) : (modCore s c f).shoots = s.shoots := rfl
@[simp] theorem modCore_msis (s : State) (c : Nat) (f : Core → Core) : (modCore s c f).msis = s.msis := rfl
@[simp] theorem modCore_intPages (s : State) (c : Nat) (f : Core → Core) : (modCore s c f).intPages = s.intPages := rfl
@[simp] theorem modCore_mirqs (s : State) (c : Nat) (f : Core → Core) : (modCore s c f).mirqs = s.mirqs := rfl
@[simp] theorem modCore_errLog (s : State) (c : Nat) (f : Core → Core) : (modCore s c f).errLog = s.errLog := rfl
@[simp] theorem modCore_invals (s : State) (c : Nat) (f : Core → Core) : (modCore s c f).invals = s.invals := rfl
@[simp] theorem modCore_actCorr (s : State) (c : Nat) (f : Core → Core) : (modCore s c f).actCorr = s.actCorr := rfl
@[simp] theorem modCore_actSatn (s : State) (c : Nat) (f : Core → Core) : (modCore s c f).actSatn = s.actSatn := rfl
@[simp] theorem modCore_actThresh (s : State) (c : Nat) (f : Core → Core) : (modCore s c f).actThresh = s.actThresh := rfl
@[simp] theorem modCore_rowCnt (s : State) (c : Nat) (f : Core → Core) : (modCore s c f).rowCnt = s.rowCnt := rfl
@[simp] theorem modCore_rowDue (s : State) (c : Nat) (f : Core → Core) : (modCore s c f).rowDue = s.rowDue := rfl
@[simp] theorem modCore_weltsel (s : State) (c : Nat) (f : Core → Core) : (modCore s c f).weltsel = s.weltsel := rfl
@[simp] theorem modCore_welts (s : State) (c : Nat) (f : Core → Core) : (modCore s c f).welts = s.welts := rfl
@[simp] theorem modCore_windowUs (s : State) (c : Nat) (f : Core → Core) : (modCore s c f).windowUs = s.windowUs := rfl
@[simp] theorem modCore_ports (s : State) (c : Nat) (f : Core → Core) : (modCore s c f).ports = s.ports := rfl
@[simp] theorem modCore_eth (s : State) (c : Nat) (f : Core → Core) : (modCore s c f).eth = s.eth := rfl
@[simp] theorem modCore_boot (s : State) (c : Nat) (f : Core → Core) : (modCore s c f).boot = s.boot := rfl
@[simp] theorem thr_modCore (s : State) (c : Nat) (f : Core → Core) (j : Nat) : thr (modCore s c f) j = thr s j := rfl
@[simp] theorem occupied_modCore (s : State) (c : Nat) (f : Core → Core) (j : Nat) : occupied (modCore s c f) j = occupied s j := rfl
@[simp] theorem hart_modCore (s : State) (c : Nat) (f : Core → Core) (j : Nat) : hart (modCore s c f) j = hart s j := rfl
@[simp] theorem part_modCore (s : State) (c : Nat) (f : Core → Core) (j : Nat) : part (modCore s c f) j = part s j := rfl
@[simp] theorem engine_modCore (s : State) (c : Nat) (f : Core → Core) (j : Nat) : engine (modCore s c f) j = engine s j := rfl
@[simp] theorem slice_modCore (s : State) (c : Nat) (f : Core → Core) (j : Nat) : slice (modCore s c f) j = slice s j := rfl
@[simp] theorem eyelet_modCore (s : State) (c : Nat) (f : Core → Core) (j : Nat) : eyelet (modCore s c f) j = eyelet s j := rfl
@[simp] theorem lace_modCore (s : State) (c : Nat) (f : Core → Core) (j : Nat) : lace (modCore s c f) j = lace s j := rfl
@[simp] theorem welt_modCore (s : State) (c : Nat) (f : Core → Core) (j : Nat) : welt (modCore s c f) j = welt s j := rfl
@[simp] theorem port_modCore (s : State) (c : Nat) (f : Core → Core) (j : Nat) : port (modCore s c f) j = port s j := rfl
@[simp] theorem teamOpt_modCore (s : State) (c : Nat) (f : Core → Core) (j n i : Nat) : team? (modCore s c f) j n i = team? s j n i := rfl
@[simp] theorem rdWord_modCore (s : State) (c : Nat) (f : Core → Core) (j : Nat) : rdWord (modCore s c f) j = rdWord s j := rfl

/-! modEngine -/

@[simp] theorem modEngine_turns (s : State) (e : Nat) (f : Engine → Engine) : (modEngine s e f).turns = s.turns := rfl
@[simp] theorem modEngine_focus (s : State) (e : Nat) (f : Engine → Engine) : (modEngine s e f).focus = s.focus := rfl
@[simp] theorem modEngine_cur (s : State) (e : Nat) (f : Engine → Engine) : (modEngine s e f).cur = s.cur := rfl
@[simp] theorem modEngine_cycle (s : State) (e : Nat) (f : Engine → Engine) : (modEngine s e f).cycle = s.cycle := rfl
@[simp] theorem modEngine_us (s : State) (e : Nat) (f : Engine → Engine) : (modEngine s e f).us = s.us := rfl
@[simp] theorem modEngine_freeIdx (s : State) (e : Nat) (f : Engine → Engine) : (modEngine s e f).freeIdx = s.freeIdx := rfl
@[simp] theorem modEngine_nextId (s : State) (e : Nat) (f : Engine → Engine) : (modEngine s e f).nextId = s.nextId := rfl
@[simp] theorem modEngine_mem (s : State) (e : Nat) (f : Engine → Engine) : (modEngine s e f).mem = s.mem := rfl
@[simp] theorem modEngine_stale (s : State) (e : Nat) (f : Engine → Engine) : (modEngine s e f).stale = s.stale := rfl
@[simp] theorem modEngine_posted (s : State) (e : Nat) (f : Engine → Engine) : (modEngine s e f).posted = s.posted := rfl
@[simp] theorem modEngine_resvs (s : State) (e : Nat) (f : Engine → Engine) : (modEngine s e f).resvs = s.resvs := rfl
@[simp] theorem modEngine_poison (s : State) (e : Nat) (f : Engine → Engine) : (modEngine s e f).poison = s.poison := rfl
@[simp] theorem modEngine_pinned (s : State) (e : Nat) (f : Engine → Engine) : (modEngine s e f).pinned = s.pinned := rfl
@[simp] theorem modEngine_zeroTags (s : State) (e : Nat) (f : Engine → Engine) : (modEngine s e f).zeroTags = s.zeroTags := rfl
@[simp] theorem modEngine_l1 (s : State) (e : Nat) (f : Engine → Engine) : (modEngine s e f).l1 = s.l1 := rfl
@[simp] theorem modEngine_rtbase (s : State) (e : Nat) (f : Engine → Engine) : (modEngine s e f).rtbase = s.rtbase := rfl
@[simp] theorem modEngine_granules (s : State) (e : Nat) (f : Engine → Engine) : (modEngine s e f).granules = s.granules := rfl
@[simp] theorem modEngine_partctl (s : State) (e : Nat) (f : Engine → Engine) : (modEngine s e f).partctl = s.partctl := rfl
@[simp] theorem modEngine_parts (s : State) (e : Nat) (f : Engine → Engine) : (modEngine s e f).parts = s.parts := rfl
@[simp] theorem modEngine_harts (s : State) (e : Nat) (f : Engine → Engine) : (modEngine s e f).harts = s.harts := rfl
@[simp] theorem modEngine_threads (s : State) (e : Nat) (f : Engine → Engine) : (modEngine s e f).threads = s.threads := rfl
@[simp] theorem modEngine_held (s : State) (e : Nat) (f : Engine → Engine) : (modEngine s e f).held = s.held := rfl
@[simp] theorem modEngine_teams (s : State) (e : Nat) (f : Engine → Engine) : (modEngine s e f).teams = s.teams := rfl
@[simp] theorem modEngine_cores (s : State) (e : Nat) (f : Engine → Engine) : (modEngine s e f).cores = s.cores := rfl
@[simp] theorem modEngine_copies (s : State) (e : Nat) (f : Engine → Engine) : (modEngine s e f).copies = s.copies := rfl
@[simp] theorem modEngine_rowOps (s : State) (e : Nat) (f : Engine → Engine) : (modEngine s e f).rowOps = s.rowOps := rfl
@[simp] theorem modEngine_transits (s : State) (e : Nat) (f : Engine → Engine) : (modEngine s e f).transits = s.transits := rfl
@[simp] theorem modEngine_laces (s : State) (e : Nat) (f : Engine → Engine) : (modEngine s e f).laces = s.laces := rfl
@[simp] theorem modEngine_laced (s : State) (e : Nat) (f : Engine → Engine) : (modEngine s e f).laced = s.laced := rfl
@[simp] theorem modEngine_eyelets (s : State) (e : Nat) (f : Engine → Engine) : (modEngine s e f).eyelets = s.eyelets := rfl
@[simp] theorem modEngine_slices (s : State) (e : Nat) (f : Engine → Engine) : (modEngine s e f).slices = s.slices := rfl
@[simp] theorem modEngine_tlb (s : State) (e : Nat) (f : Engine → Engine) : (modEngine s e f).tlb = s.tlb := rfl
@[simp] theorem modEngine_walkCache (s : State) (e : Nat) (f : Engine → Engine) : (modEngine s e f).walkCache = s.walkCache := rfl
@[simp] theorem modEngine_walks (s : State) (e : Nat) (f : Engine → Engine) : (modEngine s e f).walks = s.walks := rfl
@[simp] theorem modEngine_shoots (s : State) (e : Nat) (f : Engine → Engine) : (modEngine s e f).shoots = s.shoots := rfl
@[simp] theorem modEngine_msis (s : State) (e : Nat) (f : Engine → Engine) : (modEngine s e f).msis = s.msis := rfl
@[simp] theorem modEngine_intPages (s : State) (e : Nat) (f : Engine → Engine) : (modEngine s e f).intPages = s.intPages := rfl
@[simp] theorem modEngine_mirqs (s : State) (e : Nat) (f : Engine → Engine) : (modEngine s e f).mirqs = s.mirqs := rfl
@[simp] theorem modEngine_errLog (s : State) (e : Nat) (f : Engine → Engine) : (modEngine s e f).errLog = s.errLog := rfl
@[simp] theorem modEngine_invals (s : State) (e : Nat) (f : Engine → Engine) : (modEngine s e f).invals = s.invals := rfl
@[simp] theorem modEngine_actCorr (s : State) (e : Nat) (f : Engine → Engine) : (modEngine s e f).actCorr = s.actCorr := rfl
@[simp] theorem modEngine_actSatn (s : State) (e : Nat) (f : Engine → Engine) : (modEngine s e f).actSatn = s.actSatn := rfl
@[simp] theorem modEngine_actThresh (s : State) (e : Nat) (f : Engine → Engine) : (modEngine s e f).actThresh = s.actThresh := rfl
@[simp] theorem modEngine_rowCnt (s : State) (e : Nat) (f : Engine → Engine) : (modEngine s e f).rowCnt = s.rowCnt := rfl
@[simp] theorem modEngine_rowDue (s : State) (e : Nat) (f : Engine → Engine) : (modEngine s e f).rowDue = s.rowDue := rfl
@[simp] theorem modEngine_weltsel (s : State) (e : Nat) (f : Engine → Engine) : (modEngine s e f).weltsel = s.weltsel := rfl
@[simp] theorem modEngine_welts (s : State) (e : Nat) (f : Engine → Engine) : (modEngine s e f).welts = s.welts := rfl
@[simp] theorem modEngine_windowUs (s : State) (e : Nat) (f : Engine → Engine) : (modEngine s e f).windowUs = s.windowUs := rfl
@[simp] theorem modEngine_ports (s : State) (e : Nat) (f : Engine → Engine) : (modEngine s e f).ports = s.ports := rfl
@[simp] theorem modEngine_eth (s : State) (e : Nat) (f : Engine → Engine) : (modEngine s e f).eth = s.eth := rfl
@[simp] theorem modEngine_boot (s : State) (e : Nat) (f : Engine → Engine) : (modEngine s e f).boot = s.boot := rfl
@[simp] theorem thr_modEngine (s : State) (e : Nat) (f : Engine → Engine) (j : Nat) : thr (modEngine s e f) j = thr s j := rfl
@[simp] theorem occupied_modEngine (s : State) (e : Nat) (f : Engine → Engine) (j : Nat) : occupied (modEngine s e f) j = occupied s j := rfl
@[simp] theorem hart_modEngine (s : State) (e : Nat) (f : Engine → Engine) (j : Nat) : hart (modEngine s e f) j = hart s j := rfl
@[simp] theorem part_modEngine (s : State) (e : Nat) (f : Engine → Engine) (j : Nat) : part (modEngine s e f) j = part s j := rfl
@[simp] theorem core_modEngine (s : State) (e : Nat) (f : Engine → Engine) (j : Nat) : core (modEngine s e f) j = core s j := rfl
@[simp] theorem slice_modEngine (s : State) (e : Nat) (f : Engine → Engine) (j : Nat) : slice (modEngine s e f) j = slice s j := rfl
@[simp] theorem eyelet_modEngine (s : State) (e : Nat) (f : Engine → Engine) (j : Nat) : eyelet (modEngine s e f) j = eyelet s j := rfl
@[simp] theorem lace_modEngine (s : State) (e : Nat) (f : Engine → Engine) (j : Nat) : lace (modEngine s e f) j = lace s j := rfl
@[simp] theorem welt_modEngine (s : State) (e : Nat) (f : Engine → Engine) (j : Nat) : welt (modEngine s e f) j = welt s j := rfl
@[simp] theorem port_modEngine (s : State) (e : Nat) (f : Engine → Engine) (j : Nat) : port (modEngine s e f) j = port s j := rfl
@[simp] theorem teamOpt_modEngine (s : State) (e : Nat) (f : Engine → Engine) (j n i : Nat) : team? (modEngine s e f) j n i = team? s j n i := rfl
@[simp] theorem rdWord_modEngine (s : State) (e : Nat) (f : Engine → Engine) (j : Nat) : rdWord (modEngine s e f) j = rdWord s j := rfl

/-! modSlice -/

@[simp] theorem modSlice_turns (s : State) (x : Nat) (f : Slice → Slice) : (modSlice s x f).turns = s.turns := rfl
@[simp] theorem modSlice_focus (s : State) (x : Nat) (f : Slice → Slice) : (modSlice s x f).focus = s.focus := rfl
@[simp] theorem modSlice_cur (s : State) (x : Nat) (f : Slice → Slice) : (modSlice s x f).cur = s.cur := rfl
@[simp] theorem modSlice_cycle (s : State) (x : Nat) (f : Slice → Slice) : (modSlice s x f).cycle = s.cycle := rfl
@[simp] theorem modSlice_us (s : State) (x : Nat) (f : Slice → Slice) : (modSlice s x f).us = s.us := rfl
@[simp] theorem modSlice_freeIdx (s : State) (x : Nat) (f : Slice → Slice) : (modSlice s x f).freeIdx = s.freeIdx := rfl
@[simp] theorem modSlice_nextId (s : State) (x : Nat) (f : Slice → Slice) : (modSlice s x f).nextId = s.nextId := rfl
@[simp] theorem modSlice_mem (s : State) (x : Nat) (f : Slice → Slice) : (modSlice s x f).mem = s.mem := rfl
@[simp] theorem modSlice_stale (s : State) (x : Nat) (f : Slice → Slice) : (modSlice s x f).stale = s.stale := rfl
@[simp] theorem modSlice_posted (s : State) (x : Nat) (f : Slice → Slice) : (modSlice s x f).posted = s.posted := rfl
@[simp] theorem modSlice_resvs (s : State) (x : Nat) (f : Slice → Slice) : (modSlice s x f).resvs = s.resvs := rfl
@[simp] theorem modSlice_poison (s : State) (x : Nat) (f : Slice → Slice) : (modSlice s x f).poison = s.poison := rfl
@[simp] theorem modSlice_pinned (s : State) (x : Nat) (f : Slice → Slice) : (modSlice s x f).pinned = s.pinned := rfl
@[simp] theorem modSlice_zeroTags (s : State) (x : Nat) (f : Slice → Slice) : (modSlice s x f).zeroTags = s.zeroTags := rfl
@[simp] theorem modSlice_l1 (s : State) (x : Nat) (f : Slice → Slice) : (modSlice s x f).l1 = s.l1 := rfl
@[simp] theorem modSlice_rtbase (s : State) (x : Nat) (f : Slice → Slice) : (modSlice s x f).rtbase = s.rtbase := rfl
@[simp] theorem modSlice_granules (s : State) (x : Nat) (f : Slice → Slice) : (modSlice s x f).granules = s.granules := rfl
@[simp] theorem modSlice_partctl (s : State) (x : Nat) (f : Slice → Slice) : (modSlice s x f).partctl = s.partctl := rfl
@[simp] theorem modSlice_parts (s : State) (x : Nat) (f : Slice → Slice) : (modSlice s x f).parts = s.parts := rfl
@[simp] theorem modSlice_harts (s : State) (x : Nat) (f : Slice → Slice) : (modSlice s x f).harts = s.harts := rfl
@[simp] theorem modSlice_threads (s : State) (x : Nat) (f : Slice → Slice) : (modSlice s x f).threads = s.threads := rfl
@[simp] theorem modSlice_held (s : State) (x : Nat) (f : Slice → Slice) : (modSlice s x f).held = s.held := rfl
@[simp] theorem modSlice_teams (s : State) (x : Nat) (f : Slice → Slice) : (modSlice s x f).teams = s.teams := rfl
@[simp] theorem modSlice_cores (s : State) (x : Nat) (f : Slice → Slice) : (modSlice s x f).cores = s.cores := rfl
@[simp] theorem modSlice_engines (s : State) (x : Nat) (f : Slice → Slice) : (modSlice s x f).engines = s.engines := rfl
@[simp] theorem modSlice_copies (s : State) (x : Nat) (f : Slice → Slice) : (modSlice s x f).copies = s.copies := rfl
@[simp] theorem modSlice_rowOps (s : State) (x : Nat) (f : Slice → Slice) : (modSlice s x f).rowOps = s.rowOps := rfl
@[simp] theorem modSlice_transits (s : State) (x : Nat) (f : Slice → Slice) : (modSlice s x f).transits = s.transits := rfl
@[simp] theorem modSlice_laces (s : State) (x : Nat) (f : Slice → Slice) : (modSlice s x f).laces = s.laces := rfl
@[simp] theorem modSlice_laced (s : State) (x : Nat) (f : Slice → Slice) : (modSlice s x f).laced = s.laced := rfl
@[simp] theorem modSlice_eyelets (s : State) (x : Nat) (f : Slice → Slice) : (modSlice s x f).eyelets = s.eyelets := rfl
@[simp] theorem modSlice_tlb (s : State) (x : Nat) (f : Slice → Slice) : (modSlice s x f).tlb = s.tlb := rfl
@[simp] theorem modSlice_walkCache (s : State) (x : Nat) (f : Slice → Slice) : (modSlice s x f).walkCache = s.walkCache := rfl
@[simp] theorem modSlice_walks (s : State) (x : Nat) (f : Slice → Slice) : (modSlice s x f).walks = s.walks := rfl
@[simp] theorem modSlice_shoots (s : State) (x : Nat) (f : Slice → Slice) : (modSlice s x f).shoots = s.shoots := rfl
@[simp] theorem modSlice_msis (s : State) (x : Nat) (f : Slice → Slice) : (modSlice s x f).msis = s.msis := rfl
@[simp] theorem modSlice_intPages (s : State) (x : Nat) (f : Slice → Slice) : (modSlice s x f).intPages = s.intPages := rfl
@[simp] theorem modSlice_mirqs (s : State) (x : Nat) (f : Slice → Slice) : (modSlice s x f).mirqs = s.mirqs := rfl
@[simp] theorem modSlice_errLog (s : State) (x : Nat) (f : Slice → Slice) : (modSlice s x f).errLog = s.errLog := rfl
@[simp] theorem modSlice_invals (s : State) (x : Nat) (f : Slice → Slice) : (modSlice s x f).invals = s.invals := rfl
@[simp] theorem modSlice_actCorr (s : State) (x : Nat) (f : Slice → Slice) : (modSlice s x f).actCorr = s.actCorr := rfl
@[simp] theorem modSlice_actSatn (s : State) (x : Nat) (f : Slice → Slice) : (modSlice s x f).actSatn = s.actSatn := rfl
@[simp] theorem modSlice_actThresh (s : State) (x : Nat) (f : Slice → Slice) : (modSlice s x f).actThresh = s.actThresh := rfl
@[simp] theorem modSlice_rowCnt (s : State) (x : Nat) (f : Slice → Slice) : (modSlice s x f).rowCnt = s.rowCnt := rfl
@[simp] theorem modSlice_rowDue (s : State) (x : Nat) (f : Slice → Slice) : (modSlice s x f).rowDue = s.rowDue := rfl
@[simp] theorem modSlice_weltsel (s : State) (x : Nat) (f : Slice → Slice) : (modSlice s x f).weltsel = s.weltsel := rfl
@[simp] theorem modSlice_welts (s : State) (x : Nat) (f : Slice → Slice) : (modSlice s x f).welts = s.welts := rfl
@[simp] theorem modSlice_windowUs (s : State) (x : Nat) (f : Slice → Slice) : (modSlice s x f).windowUs = s.windowUs := rfl
@[simp] theorem modSlice_ports (s : State) (x : Nat) (f : Slice → Slice) : (modSlice s x f).ports = s.ports := rfl
@[simp] theorem modSlice_eth (s : State) (x : Nat) (f : Slice → Slice) : (modSlice s x f).eth = s.eth := rfl
@[simp] theorem modSlice_boot (s : State) (x : Nat) (f : Slice → Slice) : (modSlice s x f).boot = s.boot := rfl
@[simp] theorem thr_modSlice (s : State) (x : Nat) (f : Slice → Slice) (j : Nat) : thr (modSlice s x f) j = thr s j := rfl
@[simp] theorem occupied_modSlice (s : State) (x : Nat) (f : Slice → Slice) (j : Nat) : occupied (modSlice s x f) j = occupied s j := rfl
@[simp] theorem hart_modSlice (s : State) (x : Nat) (f : Slice → Slice) (j : Nat) : hart (modSlice s x f) j = hart s j := rfl
@[simp] theorem part_modSlice (s : State) (x : Nat) (f : Slice → Slice) (j : Nat) : part (modSlice s x f) j = part s j := rfl
@[simp] theorem core_modSlice (s : State) (x : Nat) (f : Slice → Slice) (j : Nat) : core (modSlice s x f) j = core s j := rfl
@[simp] theorem engine_modSlice (s : State) (x : Nat) (f : Slice → Slice) (j : Nat) : engine (modSlice s x f) j = engine s j := rfl
@[simp] theorem eyelet_modSlice (s : State) (x : Nat) (f : Slice → Slice) (j : Nat) : eyelet (modSlice s x f) j = eyelet s j := rfl
@[simp] theorem lace_modSlice (s : State) (x : Nat) (f : Slice → Slice) (j : Nat) : lace (modSlice s x f) j = lace s j := rfl
@[simp] theorem welt_modSlice (s : State) (x : Nat) (f : Slice → Slice) (j : Nat) : welt (modSlice s x f) j = welt s j := rfl
@[simp] theorem port_modSlice (s : State) (x : Nat) (f : Slice → Slice) (j : Nat) : port (modSlice s x f) j = port s j := rfl
@[simp] theorem teamOpt_modSlice (s : State) (x : Nat) (f : Slice → Slice) (j n i : Nat) : team? (modSlice s x f) j n i = team? s j n i := rfl
@[simp] theorem rdWord_modSlice (s : State) (x : Nat) (f : Slice → Slice) (j : Nat) : rdWord (modSlice s x f) j = rdWord s j := rfl

/-! modEyelet -/

@[simp] theorem modEyelet_turns (s : State) (e : Nat) (f : Eyelet → Eyelet) : (modEyelet s e f).turns = s.turns := rfl
@[simp] theorem modEyelet_focus (s : State) (e : Nat) (f : Eyelet → Eyelet) : (modEyelet s e f).focus = s.focus := rfl
@[simp] theorem modEyelet_cur (s : State) (e : Nat) (f : Eyelet → Eyelet) : (modEyelet s e f).cur = s.cur := rfl
@[simp] theorem modEyelet_cycle (s : State) (e : Nat) (f : Eyelet → Eyelet) : (modEyelet s e f).cycle = s.cycle := rfl
@[simp] theorem modEyelet_us (s : State) (e : Nat) (f : Eyelet → Eyelet) : (modEyelet s e f).us = s.us := rfl
@[simp] theorem modEyelet_freeIdx (s : State) (e : Nat) (f : Eyelet → Eyelet) : (modEyelet s e f).freeIdx = s.freeIdx := rfl
@[simp] theorem modEyelet_nextId (s : State) (e : Nat) (f : Eyelet → Eyelet) : (modEyelet s e f).nextId = s.nextId := rfl
@[simp] theorem modEyelet_mem (s : State) (e : Nat) (f : Eyelet → Eyelet) : (modEyelet s e f).mem = s.mem := rfl
@[simp] theorem modEyelet_stale (s : State) (e : Nat) (f : Eyelet → Eyelet) : (modEyelet s e f).stale = s.stale := rfl
@[simp] theorem modEyelet_posted (s : State) (e : Nat) (f : Eyelet → Eyelet) : (modEyelet s e f).posted = s.posted := rfl
@[simp] theorem modEyelet_resvs (s : State) (e : Nat) (f : Eyelet → Eyelet) : (modEyelet s e f).resvs = s.resvs := rfl
@[simp] theorem modEyelet_poison (s : State) (e : Nat) (f : Eyelet → Eyelet) : (modEyelet s e f).poison = s.poison := rfl
@[simp] theorem modEyelet_pinned (s : State) (e : Nat) (f : Eyelet → Eyelet) : (modEyelet s e f).pinned = s.pinned := rfl
@[simp] theorem modEyelet_zeroTags (s : State) (e : Nat) (f : Eyelet → Eyelet) : (modEyelet s e f).zeroTags = s.zeroTags := rfl
@[simp] theorem modEyelet_l1 (s : State) (e : Nat) (f : Eyelet → Eyelet) : (modEyelet s e f).l1 = s.l1 := rfl
@[simp] theorem modEyelet_rtbase (s : State) (e : Nat) (f : Eyelet → Eyelet) : (modEyelet s e f).rtbase = s.rtbase := rfl
@[simp] theorem modEyelet_granules (s : State) (e : Nat) (f : Eyelet → Eyelet) : (modEyelet s e f).granules = s.granules := rfl
@[simp] theorem modEyelet_partctl (s : State) (e : Nat) (f : Eyelet → Eyelet) : (modEyelet s e f).partctl = s.partctl := rfl
@[simp] theorem modEyelet_parts (s : State) (e : Nat) (f : Eyelet → Eyelet) : (modEyelet s e f).parts = s.parts := rfl
@[simp] theorem modEyelet_harts (s : State) (e : Nat) (f : Eyelet → Eyelet) : (modEyelet s e f).harts = s.harts := rfl
@[simp] theorem modEyelet_threads (s : State) (e : Nat) (f : Eyelet → Eyelet) : (modEyelet s e f).threads = s.threads := rfl
@[simp] theorem modEyelet_held (s : State) (e : Nat) (f : Eyelet → Eyelet) : (modEyelet s e f).held = s.held := rfl
@[simp] theorem modEyelet_teams (s : State) (e : Nat) (f : Eyelet → Eyelet) : (modEyelet s e f).teams = s.teams := rfl
@[simp] theorem modEyelet_cores (s : State) (e : Nat) (f : Eyelet → Eyelet) : (modEyelet s e f).cores = s.cores := rfl
@[simp] theorem modEyelet_engines (s : State) (e : Nat) (f : Eyelet → Eyelet) : (modEyelet s e f).engines = s.engines := rfl
@[simp] theorem modEyelet_copies (s : State) (e : Nat) (f : Eyelet → Eyelet) : (modEyelet s e f).copies = s.copies := rfl
@[simp] theorem modEyelet_rowOps (s : State) (e : Nat) (f : Eyelet → Eyelet) : (modEyelet s e f).rowOps = s.rowOps := rfl
@[simp] theorem modEyelet_transits (s : State) (e : Nat) (f : Eyelet → Eyelet) : (modEyelet s e f).transits = s.transits := rfl
@[simp] theorem modEyelet_laces (s : State) (e : Nat) (f : Eyelet → Eyelet) : (modEyelet s e f).laces = s.laces := rfl
@[simp] theorem modEyelet_laced (s : State) (e : Nat) (f : Eyelet → Eyelet) : (modEyelet s e f).laced = s.laced := rfl
@[simp] theorem modEyelet_slices (s : State) (e : Nat) (f : Eyelet → Eyelet) : (modEyelet s e f).slices = s.slices := rfl
@[simp] theorem modEyelet_tlb (s : State) (e : Nat) (f : Eyelet → Eyelet) : (modEyelet s e f).tlb = s.tlb := rfl
@[simp] theorem modEyelet_walkCache (s : State) (e : Nat) (f : Eyelet → Eyelet) : (modEyelet s e f).walkCache = s.walkCache := rfl
@[simp] theorem modEyelet_walks (s : State) (e : Nat) (f : Eyelet → Eyelet) : (modEyelet s e f).walks = s.walks := rfl
@[simp] theorem modEyelet_shoots (s : State) (e : Nat) (f : Eyelet → Eyelet) : (modEyelet s e f).shoots = s.shoots := rfl
@[simp] theorem modEyelet_msis (s : State) (e : Nat) (f : Eyelet → Eyelet) : (modEyelet s e f).msis = s.msis := rfl
@[simp] theorem modEyelet_intPages (s : State) (e : Nat) (f : Eyelet → Eyelet) : (modEyelet s e f).intPages = s.intPages := rfl
@[simp] theorem modEyelet_mirqs (s : State) (e : Nat) (f : Eyelet → Eyelet) : (modEyelet s e f).mirqs = s.mirqs := rfl
@[simp] theorem modEyelet_errLog (s : State) (e : Nat) (f : Eyelet → Eyelet) : (modEyelet s e f).errLog = s.errLog := rfl
@[simp] theorem modEyelet_invals (s : State) (e : Nat) (f : Eyelet → Eyelet) : (modEyelet s e f).invals = s.invals := rfl
@[simp] theorem modEyelet_actCorr (s : State) (e : Nat) (f : Eyelet → Eyelet) : (modEyelet s e f).actCorr = s.actCorr := rfl
@[simp] theorem modEyelet_actSatn (s : State) (e : Nat) (f : Eyelet → Eyelet) : (modEyelet s e f).actSatn = s.actSatn := rfl
@[simp] theorem modEyelet_actThresh (s : State) (e : Nat) (f : Eyelet → Eyelet) : (modEyelet s e f).actThresh = s.actThresh := rfl
@[simp] theorem modEyelet_rowCnt (s : State) (e : Nat) (f : Eyelet → Eyelet) : (modEyelet s e f).rowCnt = s.rowCnt := rfl
@[simp] theorem modEyelet_rowDue (s : State) (e : Nat) (f : Eyelet → Eyelet) : (modEyelet s e f).rowDue = s.rowDue := rfl
@[simp] theorem modEyelet_weltsel (s : State) (e : Nat) (f : Eyelet → Eyelet) : (modEyelet s e f).weltsel = s.weltsel := rfl
@[simp] theorem modEyelet_welts (s : State) (e : Nat) (f : Eyelet → Eyelet) : (modEyelet s e f).welts = s.welts := rfl
@[simp] theorem modEyelet_windowUs (s : State) (e : Nat) (f : Eyelet → Eyelet) : (modEyelet s e f).windowUs = s.windowUs := rfl
@[simp] theorem modEyelet_ports (s : State) (e : Nat) (f : Eyelet → Eyelet) : (modEyelet s e f).ports = s.ports := rfl
@[simp] theorem modEyelet_eth (s : State) (e : Nat) (f : Eyelet → Eyelet) : (modEyelet s e f).eth = s.eth := rfl
@[simp] theorem modEyelet_boot (s : State) (e : Nat) (f : Eyelet → Eyelet) : (modEyelet s e f).boot = s.boot := rfl
@[simp] theorem thr_modEyelet (s : State) (e : Nat) (f : Eyelet → Eyelet) (j : Nat) : thr (modEyelet s e f) j = thr s j := rfl
@[simp] theorem occupied_modEyelet (s : State) (e : Nat) (f : Eyelet → Eyelet) (j : Nat) : occupied (modEyelet s e f) j = occupied s j := rfl
@[simp] theorem hart_modEyelet (s : State) (e : Nat) (f : Eyelet → Eyelet) (j : Nat) : hart (modEyelet s e f) j = hart s j := rfl
@[simp] theorem part_modEyelet (s : State) (e : Nat) (f : Eyelet → Eyelet) (j : Nat) : part (modEyelet s e f) j = part s j := rfl
@[simp] theorem core_modEyelet (s : State) (e : Nat) (f : Eyelet → Eyelet) (j : Nat) : core (modEyelet s e f) j = core s j := rfl
@[simp] theorem engine_modEyelet (s : State) (e : Nat) (f : Eyelet → Eyelet) (j : Nat) : engine (modEyelet s e f) j = engine s j := rfl
@[simp] theorem slice_modEyelet (s : State) (e : Nat) (f : Eyelet → Eyelet) (j : Nat) : slice (modEyelet s e f) j = slice s j := rfl
@[simp] theorem lace_modEyelet (s : State) (e : Nat) (f : Eyelet → Eyelet) (j : Nat) : lace (modEyelet s e f) j = lace s j := rfl
@[simp] theorem welt_modEyelet (s : State) (e : Nat) (f : Eyelet → Eyelet) (j : Nat) : welt (modEyelet s e f) j = welt s j := rfl
@[simp] theorem port_modEyelet (s : State) (e : Nat) (f : Eyelet → Eyelet) (j : Nat) : port (modEyelet s e f) j = port s j := rfl
@[simp] theorem teamOpt_modEyelet (s : State) (e : Nat) (f : Eyelet → Eyelet) (j n i : Nat) : team? (modEyelet s e f) j n i = team? s j n i := rfl
@[simp] theorem rdWord_modEyelet (s : State) (e : Nat) (f : Eyelet → Eyelet) (j : Nat) : rdWord (modEyelet s e f) j = rdWord s j := rfl

/-! modLace -/

@[simp] theorem modLace_turns (s : State) (l : Nat) (f : Lace → Lace) : (modLace s l f).turns = s.turns := rfl
@[simp] theorem modLace_focus (s : State) (l : Nat) (f : Lace → Lace) : (modLace s l f).focus = s.focus := rfl
@[simp] theorem modLace_cur (s : State) (l : Nat) (f : Lace → Lace) : (modLace s l f).cur = s.cur := rfl
@[simp] theorem modLace_cycle (s : State) (l : Nat) (f : Lace → Lace) : (modLace s l f).cycle = s.cycle := rfl
@[simp] theorem modLace_us (s : State) (l : Nat) (f : Lace → Lace) : (modLace s l f).us = s.us := rfl
@[simp] theorem modLace_freeIdx (s : State) (l : Nat) (f : Lace → Lace) : (modLace s l f).freeIdx = s.freeIdx := rfl
@[simp] theorem modLace_nextId (s : State) (l : Nat) (f : Lace → Lace) : (modLace s l f).nextId = s.nextId := rfl
@[simp] theorem modLace_mem (s : State) (l : Nat) (f : Lace → Lace) : (modLace s l f).mem = s.mem := rfl
@[simp] theorem modLace_stale (s : State) (l : Nat) (f : Lace → Lace) : (modLace s l f).stale = s.stale := rfl
@[simp] theorem modLace_posted (s : State) (l : Nat) (f : Lace → Lace) : (modLace s l f).posted = s.posted := rfl
@[simp] theorem modLace_resvs (s : State) (l : Nat) (f : Lace → Lace) : (modLace s l f).resvs = s.resvs := rfl
@[simp] theorem modLace_poison (s : State) (l : Nat) (f : Lace → Lace) : (modLace s l f).poison = s.poison := rfl
@[simp] theorem modLace_pinned (s : State) (l : Nat) (f : Lace → Lace) : (modLace s l f).pinned = s.pinned := rfl
@[simp] theorem modLace_zeroTags (s : State) (l : Nat) (f : Lace → Lace) : (modLace s l f).zeroTags = s.zeroTags := rfl
@[simp] theorem modLace_l1 (s : State) (l : Nat) (f : Lace → Lace) : (modLace s l f).l1 = s.l1 := rfl
@[simp] theorem modLace_rtbase (s : State) (l : Nat) (f : Lace → Lace) : (modLace s l f).rtbase = s.rtbase := rfl
@[simp] theorem modLace_granules (s : State) (l : Nat) (f : Lace → Lace) : (modLace s l f).granules = s.granules := rfl
@[simp] theorem modLace_partctl (s : State) (l : Nat) (f : Lace → Lace) : (modLace s l f).partctl = s.partctl := rfl
@[simp] theorem modLace_parts (s : State) (l : Nat) (f : Lace → Lace) : (modLace s l f).parts = s.parts := rfl
@[simp] theorem modLace_harts (s : State) (l : Nat) (f : Lace → Lace) : (modLace s l f).harts = s.harts := rfl
@[simp] theorem modLace_threads (s : State) (l : Nat) (f : Lace → Lace) : (modLace s l f).threads = s.threads := rfl
@[simp] theorem modLace_held (s : State) (l : Nat) (f : Lace → Lace) : (modLace s l f).held = s.held := rfl
@[simp] theorem modLace_teams (s : State) (l : Nat) (f : Lace → Lace) : (modLace s l f).teams = s.teams := rfl
@[simp] theorem modLace_cores (s : State) (l : Nat) (f : Lace → Lace) : (modLace s l f).cores = s.cores := rfl
@[simp] theorem modLace_engines (s : State) (l : Nat) (f : Lace → Lace) : (modLace s l f).engines = s.engines := rfl
@[simp] theorem modLace_copies (s : State) (l : Nat) (f : Lace → Lace) : (modLace s l f).copies = s.copies := rfl
@[simp] theorem modLace_rowOps (s : State) (l : Nat) (f : Lace → Lace) : (modLace s l f).rowOps = s.rowOps := rfl
@[simp] theorem modLace_transits (s : State) (l : Nat) (f : Lace → Lace) : (modLace s l f).transits = s.transits := rfl
@[simp] theorem modLace_laced (s : State) (l : Nat) (f : Lace → Lace) : (modLace s l f).laced = s.laced := rfl
@[simp] theorem modLace_eyelets (s : State) (l : Nat) (f : Lace → Lace) : (modLace s l f).eyelets = s.eyelets := rfl
@[simp] theorem modLace_slices (s : State) (l : Nat) (f : Lace → Lace) : (modLace s l f).slices = s.slices := rfl
@[simp] theorem modLace_tlb (s : State) (l : Nat) (f : Lace → Lace) : (modLace s l f).tlb = s.tlb := rfl
@[simp] theorem modLace_walkCache (s : State) (l : Nat) (f : Lace → Lace) : (modLace s l f).walkCache = s.walkCache := rfl
@[simp] theorem modLace_walks (s : State) (l : Nat) (f : Lace → Lace) : (modLace s l f).walks = s.walks := rfl
@[simp] theorem modLace_shoots (s : State) (l : Nat) (f : Lace → Lace) : (modLace s l f).shoots = s.shoots := rfl
@[simp] theorem modLace_msis (s : State) (l : Nat) (f : Lace → Lace) : (modLace s l f).msis = s.msis := rfl
@[simp] theorem modLace_intPages (s : State) (l : Nat) (f : Lace → Lace) : (modLace s l f).intPages = s.intPages := rfl
@[simp] theorem modLace_mirqs (s : State) (l : Nat) (f : Lace → Lace) : (modLace s l f).mirqs = s.mirqs := rfl
@[simp] theorem modLace_errLog (s : State) (l : Nat) (f : Lace → Lace) : (modLace s l f).errLog = s.errLog := rfl
@[simp] theorem modLace_invals (s : State) (l : Nat) (f : Lace → Lace) : (modLace s l f).invals = s.invals := rfl
@[simp] theorem modLace_actCorr (s : State) (l : Nat) (f : Lace → Lace) : (modLace s l f).actCorr = s.actCorr := rfl
@[simp] theorem modLace_actSatn (s : State) (l : Nat) (f : Lace → Lace) : (modLace s l f).actSatn = s.actSatn := rfl
@[simp] theorem modLace_actThresh (s : State) (l : Nat) (f : Lace → Lace) : (modLace s l f).actThresh = s.actThresh := rfl
@[simp] theorem modLace_rowCnt (s : State) (l : Nat) (f : Lace → Lace) : (modLace s l f).rowCnt = s.rowCnt := rfl
@[simp] theorem modLace_rowDue (s : State) (l : Nat) (f : Lace → Lace) : (modLace s l f).rowDue = s.rowDue := rfl
@[simp] theorem modLace_weltsel (s : State) (l : Nat) (f : Lace → Lace) : (modLace s l f).weltsel = s.weltsel := rfl
@[simp] theorem modLace_welts (s : State) (l : Nat) (f : Lace → Lace) : (modLace s l f).welts = s.welts := rfl
@[simp] theorem modLace_windowUs (s : State) (l : Nat) (f : Lace → Lace) : (modLace s l f).windowUs = s.windowUs := rfl
@[simp] theorem modLace_ports (s : State) (l : Nat) (f : Lace → Lace) : (modLace s l f).ports = s.ports := rfl
@[simp] theorem modLace_eth (s : State) (l : Nat) (f : Lace → Lace) : (modLace s l f).eth = s.eth := rfl
@[simp] theorem modLace_boot (s : State) (l : Nat) (f : Lace → Lace) : (modLace s l f).boot = s.boot := rfl
@[simp] theorem thr_modLace (s : State) (l : Nat) (f : Lace → Lace) (j : Nat) : thr (modLace s l f) j = thr s j := rfl
@[simp] theorem occupied_modLace (s : State) (l : Nat) (f : Lace → Lace) (j : Nat) : occupied (modLace s l f) j = occupied s j := rfl
@[simp] theorem hart_modLace (s : State) (l : Nat) (f : Lace → Lace) (j : Nat) : hart (modLace s l f) j = hart s j := rfl
@[simp] theorem part_modLace (s : State) (l : Nat) (f : Lace → Lace) (j : Nat) : part (modLace s l f) j = part s j := rfl
@[simp] theorem core_modLace (s : State) (l : Nat) (f : Lace → Lace) (j : Nat) : core (modLace s l f) j = core s j := rfl
@[simp] theorem engine_modLace (s : State) (l : Nat) (f : Lace → Lace) (j : Nat) : engine (modLace s l f) j = engine s j := rfl
@[simp] theorem slice_modLace (s : State) (l : Nat) (f : Lace → Lace) (j : Nat) : slice (modLace s l f) j = slice s j := rfl
@[simp] theorem eyelet_modLace (s : State) (l : Nat) (f : Lace → Lace) (j : Nat) : eyelet (modLace s l f) j = eyelet s j := rfl
@[simp] theorem welt_modLace (s : State) (l : Nat) (f : Lace → Lace) (j : Nat) : welt (modLace s l f) j = welt s j := rfl
@[simp] theorem port_modLace (s : State) (l : Nat) (f : Lace → Lace) (j : Nat) : port (modLace s l f) j = port s j := rfl
@[simp] theorem teamOpt_modLace (s : State) (l : Nat) (f : Lace → Lace) (j n i : Nat) : team? (modLace s l f) j n i = team? s j n i := rfl
@[simp] theorem rdWord_modLace (s : State) (l : Nat) (f : Lace → Lace) (j : Nat) : rdWord (modLace s l f) j = rdWord s j := rfl

/-! modWelt -/

@[simp] theorem modWelt_turns (s : State) (m : Nat) (f : Welt → Welt) : (modWelt s m f).turns = s.turns := rfl
@[simp] theorem modWelt_focus (s : State) (m : Nat) (f : Welt → Welt) : (modWelt s m f).focus = s.focus := rfl
@[simp] theorem modWelt_cur (s : State) (m : Nat) (f : Welt → Welt) : (modWelt s m f).cur = s.cur := rfl
@[simp] theorem modWelt_cycle (s : State) (m : Nat) (f : Welt → Welt) : (modWelt s m f).cycle = s.cycle := rfl
@[simp] theorem modWelt_us (s : State) (m : Nat) (f : Welt → Welt) : (modWelt s m f).us = s.us := rfl
@[simp] theorem modWelt_freeIdx (s : State) (m : Nat) (f : Welt → Welt) : (modWelt s m f).freeIdx = s.freeIdx := rfl
@[simp] theorem modWelt_nextId (s : State) (m : Nat) (f : Welt → Welt) : (modWelt s m f).nextId = s.nextId := rfl
@[simp] theorem modWelt_mem (s : State) (m : Nat) (f : Welt → Welt) : (modWelt s m f).mem = s.mem := rfl
@[simp] theorem modWelt_stale (s : State) (m : Nat) (f : Welt → Welt) : (modWelt s m f).stale = s.stale := rfl
@[simp] theorem modWelt_posted (s : State) (m : Nat) (f : Welt → Welt) : (modWelt s m f).posted = s.posted := rfl
@[simp] theorem modWelt_resvs (s : State) (m : Nat) (f : Welt → Welt) : (modWelt s m f).resvs = s.resvs := rfl
@[simp] theorem modWelt_poison (s : State) (m : Nat) (f : Welt → Welt) : (modWelt s m f).poison = s.poison := rfl
@[simp] theorem modWelt_pinned (s : State) (m : Nat) (f : Welt → Welt) : (modWelt s m f).pinned = s.pinned := rfl
@[simp] theorem modWelt_zeroTags (s : State) (m : Nat) (f : Welt → Welt) : (modWelt s m f).zeroTags = s.zeroTags := rfl
@[simp] theorem modWelt_l1 (s : State) (m : Nat) (f : Welt → Welt) : (modWelt s m f).l1 = s.l1 := rfl
@[simp] theorem modWelt_rtbase (s : State) (m : Nat) (f : Welt → Welt) : (modWelt s m f).rtbase = s.rtbase := rfl
@[simp] theorem modWelt_granules (s : State) (m : Nat) (f : Welt → Welt) : (modWelt s m f).granules = s.granules := rfl
@[simp] theorem modWelt_partctl (s : State) (m : Nat) (f : Welt → Welt) : (modWelt s m f).partctl = s.partctl := rfl
@[simp] theorem modWelt_parts (s : State) (m : Nat) (f : Welt → Welt) : (modWelt s m f).parts = s.parts := rfl
@[simp] theorem modWelt_harts (s : State) (m : Nat) (f : Welt → Welt) : (modWelt s m f).harts = s.harts := rfl
@[simp] theorem modWelt_threads (s : State) (m : Nat) (f : Welt → Welt) : (modWelt s m f).threads = s.threads := rfl
@[simp] theorem modWelt_held (s : State) (m : Nat) (f : Welt → Welt) : (modWelt s m f).held = s.held := rfl
@[simp] theorem modWelt_teams (s : State) (m : Nat) (f : Welt → Welt) : (modWelt s m f).teams = s.teams := rfl
@[simp] theorem modWelt_cores (s : State) (m : Nat) (f : Welt → Welt) : (modWelt s m f).cores = s.cores := rfl
@[simp] theorem modWelt_engines (s : State) (m : Nat) (f : Welt → Welt) : (modWelt s m f).engines = s.engines := rfl
@[simp] theorem modWelt_copies (s : State) (m : Nat) (f : Welt → Welt) : (modWelt s m f).copies = s.copies := rfl
@[simp] theorem modWelt_rowOps (s : State) (m : Nat) (f : Welt → Welt) : (modWelt s m f).rowOps = s.rowOps := rfl
@[simp] theorem modWelt_transits (s : State) (m : Nat) (f : Welt → Welt) : (modWelt s m f).transits = s.transits := rfl
@[simp] theorem modWelt_laces (s : State) (m : Nat) (f : Welt → Welt) : (modWelt s m f).laces = s.laces := rfl
@[simp] theorem modWelt_laced (s : State) (m : Nat) (f : Welt → Welt) : (modWelt s m f).laced = s.laced := rfl
@[simp] theorem modWelt_eyelets (s : State) (m : Nat) (f : Welt → Welt) : (modWelt s m f).eyelets = s.eyelets := rfl
@[simp] theorem modWelt_slices (s : State) (m : Nat) (f : Welt → Welt) : (modWelt s m f).slices = s.slices := rfl
@[simp] theorem modWelt_tlb (s : State) (m : Nat) (f : Welt → Welt) : (modWelt s m f).tlb = s.tlb := rfl
@[simp] theorem modWelt_walkCache (s : State) (m : Nat) (f : Welt → Welt) : (modWelt s m f).walkCache = s.walkCache := rfl
@[simp] theorem modWelt_walks (s : State) (m : Nat) (f : Welt → Welt) : (modWelt s m f).walks = s.walks := rfl
@[simp] theorem modWelt_shoots (s : State) (m : Nat) (f : Welt → Welt) : (modWelt s m f).shoots = s.shoots := rfl
@[simp] theorem modWelt_msis (s : State) (m : Nat) (f : Welt → Welt) : (modWelt s m f).msis = s.msis := rfl
@[simp] theorem modWelt_intPages (s : State) (m : Nat) (f : Welt → Welt) : (modWelt s m f).intPages = s.intPages := rfl
@[simp] theorem modWelt_mirqs (s : State) (m : Nat) (f : Welt → Welt) : (modWelt s m f).mirqs = s.mirqs := rfl
@[simp] theorem modWelt_errLog (s : State) (m : Nat) (f : Welt → Welt) : (modWelt s m f).errLog = s.errLog := rfl
@[simp] theorem modWelt_invals (s : State) (m : Nat) (f : Welt → Welt) : (modWelt s m f).invals = s.invals := rfl
@[simp] theorem modWelt_actCorr (s : State) (m : Nat) (f : Welt → Welt) : (modWelt s m f).actCorr = s.actCorr := rfl
@[simp] theorem modWelt_actSatn (s : State) (m : Nat) (f : Welt → Welt) : (modWelt s m f).actSatn = s.actSatn := rfl
@[simp] theorem modWelt_actThresh (s : State) (m : Nat) (f : Welt → Welt) : (modWelt s m f).actThresh = s.actThresh := rfl
@[simp] theorem modWelt_rowCnt (s : State) (m : Nat) (f : Welt → Welt) : (modWelt s m f).rowCnt = s.rowCnt := rfl
@[simp] theorem modWelt_rowDue (s : State) (m : Nat) (f : Welt → Welt) : (modWelt s m f).rowDue = s.rowDue := rfl
@[simp] theorem modWelt_weltsel (s : State) (m : Nat) (f : Welt → Welt) : (modWelt s m f).weltsel = s.weltsel := rfl
@[simp] theorem modWelt_windowUs (s : State) (m : Nat) (f : Welt → Welt) : (modWelt s m f).windowUs = s.windowUs := rfl
@[simp] theorem modWelt_ports (s : State) (m : Nat) (f : Welt → Welt) : (modWelt s m f).ports = s.ports := rfl
@[simp] theorem modWelt_eth (s : State) (m : Nat) (f : Welt → Welt) : (modWelt s m f).eth = s.eth := rfl
@[simp] theorem modWelt_boot (s : State) (m : Nat) (f : Welt → Welt) : (modWelt s m f).boot = s.boot := rfl
@[simp] theorem thr_modWelt (s : State) (m : Nat) (f : Welt → Welt) (j : Nat) : thr (modWelt s m f) j = thr s j := rfl
@[simp] theorem occupied_modWelt (s : State) (m : Nat) (f : Welt → Welt) (j : Nat) : occupied (modWelt s m f) j = occupied s j := rfl
@[simp] theorem hart_modWelt (s : State) (m : Nat) (f : Welt → Welt) (j : Nat) : hart (modWelt s m f) j = hart s j := rfl
@[simp] theorem part_modWelt (s : State) (m : Nat) (f : Welt → Welt) (j : Nat) : part (modWelt s m f) j = part s j := rfl
@[simp] theorem core_modWelt (s : State) (m : Nat) (f : Welt → Welt) (j : Nat) : core (modWelt s m f) j = core s j := rfl
@[simp] theorem engine_modWelt (s : State) (m : Nat) (f : Welt → Welt) (j : Nat) : engine (modWelt s m f) j = engine s j := rfl
@[simp] theorem slice_modWelt (s : State) (m : Nat) (f : Welt → Welt) (j : Nat) : slice (modWelt s m f) j = slice s j := rfl
@[simp] theorem eyelet_modWelt (s : State) (m : Nat) (f : Welt → Welt) (j : Nat) : eyelet (modWelt s m f) j = eyelet s j := rfl
@[simp] theorem lace_modWelt (s : State) (m : Nat) (f : Welt → Welt) (j : Nat) : lace (modWelt s m f) j = lace s j := rfl
@[simp] theorem port_modWelt (s : State) (m : Nat) (f : Welt → Welt) (j : Nat) : port (modWelt s m f) j = port s j := rfl
@[simp] theorem teamOpt_modWelt (s : State) (m : Nat) (f : Welt → Welt) (j n i : Nat) : team? (modWelt s m f) j n i = team? s j n i := rfl
@[simp] theorem rdWord_modWelt (s : State) (m : Nat) (f : Welt → Welt) (j : Nat) : rdWord (modWelt s m f) j = rdWord s j := rfl

/-! modPort -/

@[simp] theorem modPort_turns (s : State) (p : Nat) (f : BPort → BPort) : (modPort s p f).turns = s.turns := rfl
@[simp] theorem modPort_focus (s : State) (p : Nat) (f : BPort → BPort) : (modPort s p f).focus = s.focus := rfl
@[simp] theorem modPort_cur (s : State) (p : Nat) (f : BPort → BPort) : (modPort s p f).cur = s.cur := rfl
@[simp] theorem modPort_cycle (s : State) (p : Nat) (f : BPort → BPort) : (modPort s p f).cycle = s.cycle := rfl
@[simp] theorem modPort_us (s : State) (p : Nat) (f : BPort → BPort) : (modPort s p f).us = s.us := rfl
@[simp] theorem modPort_freeIdx (s : State) (p : Nat) (f : BPort → BPort) : (modPort s p f).freeIdx = s.freeIdx := rfl
@[simp] theorem modPort_nextId (s : State) (p : Nat) (f : BPort → BPort) : (modPort s p f).nextId = s.nextId := rfl
@[simp] theorem modPort_mem (s : State) (p : Nat) (f : BPort → BPort) : (modPort s p f).mem = s.mem := rfl
@[simp] theorem modPort_stale (s : State) (p : Nat) (f : BPort → BPort) : (modPort s p f).stale = s.stale := rfl
@[simp] theorem modPort_posted (s : State) (p : Nat) (f : BPort → BPort) : (modPort s p f).posted = s.posted := rfl
@[simp] theorem modPort_resvs (s : State) (p : Nat) (f : BPort → BPort) : (modPort s p f).resvs = s.resvs := rfl
@[simp] theorem modPort_poison (s : State) (p : Nat) (f : BPort → BPort) : (modPort s p f).poison = s.poison := rfl
@[simp] theorem modPort_pinned (s : State) (p : Nat) (f : BPort → BPort) : (modPort s p f).pinned = s.pinned := rfl
@[simp] theorem modPort_zeroTags (s : State) (p : Nat) (f : BPort → BPort) : (modPort s p f).zeroTags = s.zeroTags := rfl
@[simp] theorem modPort_l1 (s : State) (p : Nat) (f : BPort → BPort) : (modPort s p f).l1 = s.l1 := rfl
@[simp] theorem modPort_rtbase (s : State) (p : Nat) (f : BPort → BPort) : (modPort s p f).rtbase = s.rtbase := rfl
@[simp] theorem modPort_granules (s : State) (p : Nat) (f : BPort → BPort) : (modPort s p f).granules = s.granules := rfl
@[simp] theorem modPort_partctl (s : State) (p : Nat) (f : BPort → BPort) : (modPort s p f).partctl = s.partctl := rfl
@[simp] theorem modPort_parts (s : State) (p : Nat) (f : BPort → BPort) : (modPort s p f).parts = s.parts := rfl
@[simp] theorem modPort_harts (s : State) (p : Nat) (f : BPort → BPort) : (modPort s p f).harts = s.harts := rfl
@[simp] theorem modPort_threads (s : State) (p : Nat) (f : BPort → BPort) : (modPort s p f).threads = s.threads := rfl
@[simp] theorem modPort_held (s : State) (p : Nat) (f : BPort → BPort) : (modPort s p f).held = s.held := rfl
@[simp] theorem modPort_teams (s : State) (p : Nat) (f : BPort → BPort) : (modPort s p f).teams = s.teams := rfl
@[simp] theorem modPort_cores (s : State) (p : Nat) (f : BPort → BPort) : (modPort s p f).cores = s.cores := rfl
@[simp] theorem modPort_engines (s : State) (p : Nat) (f : BPort → BPort) : (modPort s p f).engines = s.engines := rfl
@[simp] theorem modPort_copies (s : State) (p : Nat) (f : BPort → BPort) : (modPort s p f).copies = s.copies := rfl
@[simp] theorem modPort_rowOps (s : State) (p : Nat) (f : BPort → BPort) : (modPort s p f).rowOps = s.rowOps := rfl
@[simp] theorem modPort_transits (s : State) (p : Nat) (f : BPort → BPort) : (modPort s p f).transits = s.transits := rfl
@[simp] theorem modPort_laces (s : State) (p : Nat) (f : BPort → BPort) : (modPort s p f).laces = s.laces := rfl
@[simp] theorem modPort_laced (s : State) (p : Nat) (f : BPort → BPort) : (modPort s p f).laced = s.laced := rfl
@[simp] theorem modPort_eyelets (s : State) (p : Nat) (f : BPort → BPort) : (modPort s p f).eyelets = s.eyelets := rfl
@[simp] theorem modPort_slices (s : State) (p : Nat) (f : BPort → BPort) : (modPort s p f).slices = s.slices := rfl
@[simp] theorem modPort_tlb (s : State) (p : Nat) (f : BPort → BPort) : (modPort s p f).tlb = s.tlb := rfl
@[simp] theorem modPort_walkCache (s : State) (p : Nat) (f : BPort → BPort) : (modPort s p f).walkCache = s.walkCache := rfl
@[simp] theorem modPort_walks (s : State) (p : Nat) (f : BPort → BPort) : (modPort s p f).walks = s.walks := rfl
@[simp] theorem modPort_shoots (s : State) (p : Nat) (f : BPort → BPort) : (modPort s p f).shoots = s.shoots := rfl
@[simp] theorem modPort_msis (s : State) (p : Nat) (f : BPort → BPort) : (modPort s p f).msis = s.msis := rfl
@[simp] theorem modPort_intPages (s : State) (p : Nat) (f : BPort → BPort) : (modPort s p f).intPages = s.intPages := rfl
@[simp] theorem modPort_mirqs (s : State) (p : Nat) (f : BPort → BPort) : (modPort s p f).mirqs = s.mirqs := rfl
@[simp] theorem modPort_errLog (s : State) (p : Nat) (f : BPort → BPort) : (modPort s p f).errLog = s.errLog := rfl
@[simp] theorem modPort_invals (s : State) (p : Nat) (f : BPort → BPort) : (modPort s p f).invals = s.invals := rfl
@[simp] theorem modPort_actCorr (s : State) (p : Nat) (f : BPort → BPort) : (modPort s p f).actCorr = s.actCorr := rfl
@[simp] theorem modPort_actSatn (s : State) (p : Nat) (f : BPort → BPort) : (modPort s p f).actSatn = s.actSatn := rfl
@[simp] theorem modPort_actThresh (s : State) (p : Nat) (f : BPort → BPort) : (modPort s p f).actThresh = s.actThresh := rfl
@[simp] theorem modPort_rowCnt (s : State) (p : Nat) (f : BPort → BPort) : (modPort s p f).rowCnt = s.rowCnt := rfl
@[simp] theorem modPort_rowDue (s : State) (p : Nat) (f : BPort → BPort) : (modPort s p f).rowDue = s.rowDue := rfl
@[simp] theorem modPort_weltsel (s : State) (p : Nat) (f : BPort → BPort) : (modPort s p f).weltsel = s.weltsel := rfl
@[simp] theorem modPort_welts (s : State) (p : Nat) (f : BPort → BPort) : (modPort s p f).welts = s.welts := rfl
@[simp] theorem modPort_windowUs (s : State) (p : Nat) (f : BPort → BPort) : (modPort s p f).windowUs = s.windowUs := rfl
@[simp] theorem modPort_eth (s : State) (p : Nat) (f : BPort → BPort) : (modPort s p f).eth = s.eth := rfl
@[simp] theorem modPort_boot (s : State) (p : Nat) (f : BPort → BPort) : (modPort s p f).boot = s.boot := rfl
@[simp] theorem thr_modPort (s : State) (p : Nat) (f : BPort → BPort) (j : Nat) : thr (modPort s p f) j = thr s j := rfl
@[simp] theorem occupied_modPort (s : State) (p : Nat) (f : BPort → BPort) (j : Nat) : occupied (modPort s p f) j = occupied s j := rfl
@[simp] theorem hart_modPort (s : State) (p : Nat) (f : BPort → BPort) (j : Nat) : hart (modPort s p f) j = hart s j := rfl
@[simp] theorem part_modPort (s : State) (p : Nat) (f : BPort → BPort) (j : Nat) : part (modPort s p f) j = part s j := rfl
@[simp] theorem core_modPort (s : State) (p : Nat) (f : BPort → BPort) (j : Nat) : core (modPort s p f) j = core s j := rfl
@[simp] theorem engine_modPort (s : State) (p : Nat) (f : BPort → BPort) (j : Nat) : engine (modPort s p f) j = engine s j := rfl
@[simp] theorem slice_modPort (s : State) (p : Nat) (f : BPort → BPort) (j : Nat) : slice (modPort s p f) j = slice s j := rfl
@[simp] theorem eyelet_modPort (s : State) (p : Nat) (f : BPort → BPort) (j : Nat) : eyelet (modPort s p f) j = eyelet s j := rfl
@[simp] theorem lace_modPort (s : State) (p : Nat) (f : BPort → BPort) (j : Nat) : lace (modPort s p f) j = lace s j := rfl
@[simp] theorem welt_modPort (s : State) (p : Nat) (f : BPort → BPort) (j : Nat) : welt (modPort s p f) j = welt s j := rfl
@[simp] theorem teamOpt_modPort (s : State) (p : Nat) (f : BPort → BPort) (j n i : Nat) : team? (modPort s p f) j n i = team? s j n i := rfl
@[simp] theorem rdWord_modPort (s : State) (p : Nat) (f : BPort → BPort) (j : Nat) : rdWord (modPort s p f) j = rdWord s j := rfl

/-! modEth -/

@[simp] theorem modEth_turns (s : State) (p : Nat) (f : EthPort → EthPort) : (modEth s p f).turns = s.turns := rfl
@[simp] theorem modEth_focus (s : State) (p : Nat) (f : EthPort → EthPort) : (modEth s p f).focus = s.focus := rfl
@[simp] theorem modEth_cur (s : State) (p : Nat) (f : EthPort → EthPort) : (modEth s p f).cur = s.cur := rfl
@[simp] theorem modEth_cycle (s : State) (p : Nat) (f : EthPort → EthPort) : (modEth s p f).cycle = s.cycle := rfl
@[simp] theorem modEth_us (s : State) (p : Nat) (f : EthPort → EthPort) : (modEth s p f).us = s.us := rfl
@[simp] theorem modEth_freeIdx (s : State) (p : Nat) (f : EthPort → EthPort) : (modEth s p f).freeIdx = s.freeIdx := rfl
@[simp] theorem modEth_nextId (s : State) (p : Nat) (f : EthPort → EthPort) : (modEth s p f).nextId = s.nextId := rfl
@[simp] theorem modEth_mem (s : State) (p : Nat) (f : EthPort → EthPort) : (modEth s p f).mem = s.mem := rfl
@[simp] theorem modEth_stale (s : State) (p : Nat) (f : EthPort → EthPort) : (modEth s p f).stale = s.stale := rfl
@[simp] theorem modEth_posted (s : State) (p : Nat) (f : EthPort → EthPort) : (modEth s p f).posted = s.posted := rfl
@[simp] theorem modEth_resvs (s : State) (p : Nat) (f : EthPort → EthPort) : (modEth s p f).resvs = s.resvs := rfl
@[simp] theorem modEth_poison (s : State) (p : Nat) (f : EthPort → EthPort) : (modEth s p f).poison = s.poison := rfl
@[simp] theorem modEth_pinned (s : State) (p : Nat) (f : EthPort → EthPort) : (modEth s p f).pinned = s.pinned := rfl
@[simp] theorem modEth_zeroTags (s : State) (p : Nat) (f : EthPort → EthPort) : (modEth s p f).zeroTags = s.zeroTags := rfl
@[simp] theorem modEth_l1 (s : State) (p : Nat) (f : EthPort → EthPort) : (modEth s p f).l1 = s.l1 := rfl
@[simp] theorem modEth_rtbase (s : State) (p : Nat) (f : EthPort → EthPort) : (modEth s p f).rtbase = s.rtbase := rfl
@[simp] theorem modEth_granules (s : State) (p : Nat) (f : EthPort → EthPort) : (modEth s p f).granules = s.granules := rfl
@[simp] theorem modEth_partctl (s : State) (p : Nat) (f : EthPort → EthPort) : (modEth s p f).partctl = s.partctl := rfl
@[simp] theorem modEth_parts (s : State) (p : Nat) (f : EthPort → EthPort) : (modEth s p f).parts = s.parts := rfl
@[simp] theorem modEth_harts (s : State) (p : Nat) (f : EthPort → EthPort) : (modEth s p f).harts = s.harts := rfl
@[simp] theorem modEth_threads (s : State) (p : Nat) (f : EthPort → EthPort) : (modEth s p f).threads = s.threads := rfl
@[simp] theorem modEth_held (s : State) (p : Nat) (f : EthPort → EthPort) : (modEth s p f).held = s.held := rfl
@[simp] theorem modEth_teams (s : State) (p : Nat) (f : EthPort → EthPort) : (modEth s p f).teams = s.teams := rfl
@[simp] theorem modEth_cores (s : State) (p : Nat) (f : EthPort → EthPort) : (modEth s p f).cores = s.cores := rfl
@[simp] theorem modEth_engines (s : State) (p : Nat) (f : EthPort → EthPort) : (modEth s p f).engines = s.engines := rfl
@[simp] theorem modEth_copies (s : State) (p : Nat) (f : EthPort → EthPort) : (modEth s p f).copies = s.copies := rfl
@[simp] theorem modEth_rowOps (s : State) (p : Nat) (f : EthPort → EthPort) : (modEth s p f).rowOps = s.rowOps := rfl
@[simp] theorem modEth_transits (s : State) (p : Nat) (f : EthPort → EthPort) : (modEth s p f).transits = s.transits := rfl
@[simp] theorem modEth_laces (s : State) (p : Nat) (f : EthPort → EthPort) : (modEth s p f).laces = s.laces := rfl
@[simp] theorem modEth_laced (s : State) (p : Nat) (f : EthPort → EthPort) : (modEth s p f).laced = s.laced := rfl
@[simp] theorem modEth_eyelets (s : State) (p : Nat) (f : EthPort → EthPort) : (modEth s p f).eyelets = s.eyelets := rfl
@[simp] theorem modEth_slices (s : State) (p : Nat) (f : EthPort → EthPort) : (modEth s p f).slices = s.slices := rfl
@[simp] theorem modEth_tlb (s : State) (p : Nat) (f : EthPort → EthPort) : (modEth s p f).tlb = s.tlb := rfl
@[simp] theorem modEth_walkCache (s : State) (p : Nat) (f : EthPort → EthPort) : (modEth s p f).walkCache = s.walkCache := rfl
@[simp] theorem modEth_walks (s : State) (p : Nat) (f : EthPort → EthPort) : (modEth s p f).walks = s.walks := rfl
@[simp] theorem modEth_shoots (s : State) (p : Nat) (f : EthPort → EthPort) : (modEth s p f).shoots = s.shoots := rfl
@[simp] theorem modEth_msis (s : State) (p : Nat) (f : EthPort → EthPort) : (modEth s p f).msis = s.msis := rfl
@[simp] theorem modEth_intPages (s : State) (p : Nat) (f : EthPort → EthPort) : (modEth s p f).intPages = s.intPages := rfl
@[simp] theorem modEth_mirqs (s : State) (p : Nat) (f : EthPort → EthPort) : (modEth s p f).mirqs = s.mirqs := rfl
@[simp] theorem modEth_errLog (s : State) (p : Nat) (f : EthPort → EthPort) : (modEth s p f).errLog = s.errLog := rfl
@[simp] theorem modEth_invals (s : State) (p : Nat) (f : EthPort → EthPort) : (modEth s p f).invals = s.invals := rfl
@[simp] theorem modEth_actCorr (s : State) (p : Nat) (f : EthPort → EthPort) : (modEth s p f).actCorr = s.actCorr := rfl
@[simp] theorem modEth_actSatn (s : State) (p : Nat) (f : EthPort → EthPort) : (modEth s p f).actSatn = s.actSatn := rfl
@[simp] theorem modEth_actThresh (s : State) (p : Nat) (f : EthPort → EthPort) : (modEth s p f).actThresh = s.actThresh := rfl
@[simp] theorem modEth_rowCnt (s : State) (p : Nat) (f : EthPort → EthPort) : (modEth s p f).rowCnt = s.rowCnt := rfl
@[simp] theorem modEth_rowDue (s : State) (p : Nat) (f : EthPort → EthPort) : (modEth s p f).rowDue = s.rowDue := rfl
@[simp] theorem modEth_weltsel (s : State) (p : Nat) (f : EthPort → EthPort) : (modEth s p f).weltsel = s.weltsel := rfl
@[simp] theorem modEth_welts (s : State) (p : Nat) (f : EthPort → EthPort) : (modEth s p f).welts = s.welts := rfl
@[simp] theorem modEth_windowUs (s : State) (p : Nat) (f : EthPort → EthPort) : (modEth s p f).windowUs = s.windowUs := rfl
@[simp] theorem modEth_ports (s : State) (p : Nat) (f : EthPort → EthPort) : (modEth s p f).ports = s.ports := rfl
@[simp] theorem modEth_boot (s : State) (p : Nat) (f : EthPort → EthPort) : (modEth s p f).boot = s.boot := rfl
@[simp] theorem thr_modEth (s : State) (p : Nat) (f : EthPort → EthPort) (j : Nat) : thr (modEth s p f) j = thr s j := rfl
@[simp] theorem occupied_modEth (s : State) (p : Nat) (f : EthPort → EthPort) (j : Nat) : occupied (modEth s p f) j = occupied s j := rfl
@[simp] theorem hart_modEth (s : State) (p : Nat) (f : EthPort → EthPort) (j : Nat) : hart (modEth s p f) j = hart s j := rfl
@[simp] theorem part_modEth (s : State) (p : Nat) (f : EthPort → EthPort) (j : Nat) : part (modEth s p f) j = part s j := rfl
@[simp] theorem core_modEth (s : State) (p : Nat) (f : EthPort → EthPort) (j : Nat) : core (modEth s p f) j = core s j := rfl
@[simp] theorem engine_modEth (s : State) (p : Nat) (f : EthPort → EthPort) (j : Nat) : engine (modEth s p f) j = engine s j := rfl
@[simp] theorem slice_modEth (s : State) (p : Nat) (f : EthPort → EthPort) (j : Nat) : slice (modEth s p f) j = slice s j := rfl
@[simp] theorem eyelet_modEth (s : State) (p : Nat) (f : EthPort → EthPort) (j : Nat) : eyelet (modEth s p f) j = eyelet s j := rfl
@[simp] theorem lace_modEth (s : State) (p : Nat) (f : EthPort → EthPort) (j : Nat) : lace (modEth s p f) j = lace s j := rfl
@[simp] theorem welt_modEth (s : State) (p : Nat) (f : EthPort → EthPort) (j : Nat) : welt (modEth s p f) j = welt s j := rfl
@[simp] theorem port_modEth (s : State) (p : Nat) (f : EthPort → EthPort) (j : Nat) : port (modEth s p f) j = port s j := rfl
@[simp] theorem teamOpt_modEth (s : State) (p : Nat) (f : EthPort → EthPort) (j n i : Nat) : team? (modEth s p f) j n i = team? s j n i := rfl
@[simp] theorem rdWord_modEth (s : State) (p : Nat) (f : EthPort → EthPort) (j : Nat) : rdWord (modEth s p f) j = rdWord s j := rfl

/-! modTeam -/

@[simp] theorem modTeam_turns (s : State) (p asid num : Nat) (f : Team → Team) : (modTeam s p asid num f).turns = s.turns := rfl
@[simp] theorem modTeam_focus (s : State) (p asid num : Nat) (f : Team → Team) : (modTeam s p asid num f).focus = s.focus := rfl
@[simp] theorem modTeam_cur (s : State) (p asid num : Nat) (f : Team → Team) : (modTeam s p asid num f).cur = s.cur := rfl
@[simp] theorem modTeam_cycle (s : State) (p asid num : Nat) (f : Team → Team) : (modTeam s p asid num f).cycle = s.cycle := rfl
@[simp] theorem modTeam_us (s : State) (p asid num : Nat) (f : Team → Team) : (modTeam s p asid num f).us = s.us := rfl
@[simp] theorem modTeam_freeIdx (s : State) (p asid num : Nat) (f : Team → Team) : (modTeam s p asid num f).freeIdx = s.freeIdx := rfl
@[simp] theorem modTeam_nextId (s : State) (p asid num : Nat) (f : Team → Team) : (modTeam s p asid num f).nextId = s.nextId := rfl
@[simp] theorem modTeam_mem (s : State) (p asid num : Nat) (f : Team → Team) : (modTeam s p asid num f).mem = s.mem := rfl
@[simp] theorem modTeam_stale (s : State) (p asid num : Nat) (f : Team → Team) : (modTeam s p asid num f).stale = s.stale := rfl
@[simp] theorem modTeam_posted (s : State) (p asid num : Nat) (f : Team → Team) : (modTeam s p asid num f).posted = s.posted := rfl
@[simp] theorem modTeam_resvs (s : State) (p asid num : Nat) (f : Team → Team) : (modTeam s p asid num f).resvs = s.resvs := rfl
@[simp] theorem modTeam_poison (s : State) (p asid num : Nat) (f : Team → Team) : (modTeam s p asid num f).poison = s.poison := rfl
@[simp] theorem modTeam_pinned (s : State) (p asid num : Nat) (f : Team → Team) : (modTeam s p asid num f).pinned = s.pinned := rfl
@[simp] theorem modTeam_zeroTags (s : State) (p asid num : Nat) (f : Team → Team) : (modTeam s p asid num f).zeroTags = s.zeroTags := rfl
@[simp] theorem modTeam_l1 (s : State) (p asid num : Nat) (f : Team → Team) : (modTeam s p asid num f).l1 = s.l1 := rfl
@[simp] theorem modTeam_rtbase (s : State) (p asid num : Nat) (f : Team → Team) : (modTeam s p asid num f).rtbase = s.rtbase := rfl
@[simp] theorem modTeam_granules (s : State) (p asid num : Nat) (f : Team → Team) : (modTeam s p asid num f).granules = s.granules := rfl
@[simp] theorem modTeam_partctl (s : State) (p asid num : Nat) (f : Team → Team) : (modTeam s p asid num f).partctl = s.partctl := rfl
@[simp] theorem modTeam_parts (s : State) (p asid num : Nat) (f : Team → Team) : (modTeam s p asid num f).parts = s.parts := rfl
@[simp] theorem modTeam_harts (s : State) (p asid num : Nat) (f : Team → Team) : (modTeam s p asid num f).harts = s.harts := rfl
@[simp] theorem modTeam_threads (s : State) (p asid num : Nat) (f : Team → Team) : (modTeam s p asid num f).threads = s.threads := rfl
@[simp] theorem modTeam_held (s : State) (p asid num : Nat) (f : Team → Team) : (modTeam s p asid num f).held = s.held := rfl
@[simp] theorem modTeam_cores (s : State) (p asid num : Nat) (f : Team → Team) : (modTeam s p asid num f).cores = s.cores := rfl
@[simp] theorem modTeam_engines (s : State) (p asid num : Nat) (f : Team → Team) : (modTeam s p asid num f).engines = s.engines := rfl
@[simp] theorem modTeam_copies (s : State) (p asid num : Nat) (f : Team → Team) : (modTeam s p asid num f).copies = s.copies := rfl
@[simp] theorem modTeam_rowOps (s : State) (p asid num : Nat) (f : Team → Team) : (modTeam s p asid num f).rowOps = s.rowOps := rfl
@[simp] theorem modTeam_transits (s : State) (p asid num : Nat) (f : Team → Team) : (modTeam s p asid num f).transits = s.transits := rfl
@[simp] theorem modTeam_laces (s : State) (p asid num : Nat) (f : Team → Team) : (modTeam s p asid num f).laces = s.laces := rfl
@[simp] theorem modTeam_laced (s : State) (p asid num : Nat) (f : Team → Team) : (modTeam s p asid num f).laced = s.laced := rfl
@[simp] theorem modTeam_eyelets (s : State) (p asid num : Nat) (f : Team → Team) : (modTeam s p asid num f).eyelets = s.eyelets := rfl
@[simp] theorem modTeam_slices (s : State) (p asid num : Nat) (f : Team → Team) : (modTeam s p asid num f).slices = s.slices := rfl
@[simp] theorem modTeam_tlb (s : State) (p asid num : Nat) (f : Team → Team) : (modTeam s p asid num f).tlb = s.tlb := rfl
@[simp] theorem modTeam_walkCache (s : State) (p asid num : Nat) (f : Team → Team) : (modTeam s p asid num f).walkCache = s.walkCache := rfl
@[simp] theorem modTeam_walks (s : State) (p asid num : Nat) (f : Team → Team) : (modTeam s p asid num f).walks = s.walks := rfl
@[simp] theorem modTeam_shoots (s : State) (p asid num : Nat) (f : Team → Team) : (modTeam s p asid num f).shoots = s.shoots := rfl
@[simp] theorem modTeam_msis (s : State) (p asid num : Nat) (f : Team → Team) : (modTeam s p asid num f).msis = s.msis := rfl
@[simp] theorem modTeam_intPages (s : State) (p asid num : Nat) (f : Team → Team) : (modTeam s p asid num f).intPages = s.intPages := rfl
@[simp] theorem modTeam_mirqs (s : State) (p asid num : Nat) (f : Team → Team) : (modTeam s p asid num f).mirqs = s.mirqs := rfl
@[simp] theorem modTeam_errLog (s : State) (p asid num : Nat) (f : Team → Team) : (modTeam s p asid num f).errLog = s.errLog := rfl
@[simp] theorem modTeam_invals (s : State) (p asid num : Nat) (f : Team → Team) : (modTeam s p asid num f).invals = s.invals := rfl
@[simp] theorem modTeam_actCorr (s : State) (p asid num : Nat) (f : Team → Team) : (modTeam s p asid num f).actCorr = s.actCorr := rfl
@[simp] theorem modTeam_actSatn (s : State) (p asid num : Nat) (f : Team → Team) : (modTeam s p asid num f).actSatn = s.actSatn := rfl
@[simp] theorem modTeam_actThresh (s : State) (p asid num : Nat) (f : Team → Team) : (modTeam s p asid num f).actThresh = s.actThresh := rfl
@[simp] theorem modTeam_rowCnt (s : State) (p asid num : Nat) (f : Team → Team) : (modTeam s p asid num f).rowCnt = s.rowCnt := rfl
@[simp] theorem modTeam_rowDue (s : State) (p asid num : Nat) (f : Team → Team) : (modTeam s p asid num f).rowDue = s.rowDue := rfl
@[simp] theorem modTeam_weltsel (s : State) (p asid num : Nat) (f : Team → Team) : (modTeam s p asid num f).weltsel = s.weltsel := rfl
@[simp] theorem modTeam_welts (s : State) (p asid num : Nat) (f : Team → Team) : (modTeam s p asid num f).welts = s.welts := rfl
@[simp] theorem modTeam_windowUs (s : State) (p asid num : Nat) (f : Team → Team) : (modTeam s p asid num f).windowUs = s.windowUs := rfl
@[simp] theorem modTeam_ports (s : State) (p asid num : Nat) (f : Team → Team) : (modTeam s p asid num f).ports = s.ports := rfl
@[simp] theorem modTeam_eth (s : State) (p asid num : Nat) (f : Team → Team) : (modTeam s p asid num f).eth = s.eth := rfl
@[simp] theorem modTeam_boot (s : State) (p asid num : Nat) (f : Team → Team) : (modTeam s p asid num f).boot = s.boot := rfl
@[simp] theorem thr_modTeam (s : State) (p asid num : Nat) (f : Team → Team) (j : Nat) : thr (modTeam s p asid num f) j = thr s j := rfl
@[simp] theorem occupied_modTeam (s : State) (p asid num : Nat) (f : Team → Team) (j : Nat) : occupied (modTeam s p asid num f) j = occupied s j := rfl
@[simp] theorem hart_modTeam (s : State) (p asid num : Nat) (f : Team → Team) (j : Nat) : hart (modTeam s p asid num f) j = hart s j := rfl
@[simp] theorem part_modTeam (s : State) (p asid num : Nat) (f : Team → Team) (j : Nat) : part (modTeam s p asid num f) j = part s j := rfl
@[simp] theorem core_modTeam (s : State) (p asid num : Nat) (f : Team → Team) (j : Nat) : core (modTeam s p asid num f) j = core s j := rfl
@[simp] theorem engine_modTeam (s : State) (p asid num : Nat) (f : Team → Team) (j : Nat) : engine (modTeam s p asid num f) j = engine s j := rfl
@[simp] theorem slice_modTeam (s : State) (p asid num : Nat) (f : Team → Team) (j : Nat) : slice (modTeam s p asid num f) j = slice s j := rfl
@[simp] theorem eyelet_modTeam (s : State) (p asid num : Nat) (f : Team → Team) (j : Nat) : eyelet (modTeam s p asid num f) j = eyelet s j := rfl
@[simp] theorem lace_modTeam (s : State) (p asid num : Nat) (f : Team → Team) (j : Nat) : lace (modTeam s p asid num f) j = lace s j := rfl
@[simp] theorem welt_modTeam (s : State) (p asid num : Nat) (f : Team → Team) (j : Nat) : welt (modTeam s p asid num f) j = welt s j := rfl
@[simp] theorem port_modTeam (s : State) (p asid num : Nat) (f : Team → Team) (j : Nat) : port (modTeam s p asid num f) j = port s j := rfl
@[simp] theorem rdWord_modTeam (s : State) (p asid num : Nat) (f : Team → Team) (j : Nat) : rdWord (modTeam s p asid num f) j = rdWord s j := rfl

/-! wrBytes -/

@[simp] theorem wrBytes_turns (s : State) (k a : Nat) (bs : List Byte) : (wrBytes s k a bs).turns = s.turns := rfl
@[simp] theorem wrBytes_focus (s : State) (k a : Nat) (bs : List Byte) : (wrBytes s k a bs).focus = s.focus := rfl
@[simp] theorem wrBytes_cur (s : State) (k a : Nat) (bs : List Byte) : (wrBytes s k a bs).cur = s.cur := rfl
@[simp] theorem wrBytes_cycle (s : State) (k a : Nat) (bs : List Byte) : (wrBytes s k a bs).cycle = s.cycle := rfl
@[simp] theorem wrBytes_us (s : State) (k a : Nat) (bs : List Byte) : (wrBytes s k a bs).us = s.us := rfl
@[simp] theorem wrBytes_freeIdx (s : State) (k a : Nat) (bs : List Byte) : (wrBytes s k a bs).freeIdx = s.freeIdx := rfl
@[simp] theorem wrBytes_nextId (s : State) (k a : Nat) (bs : List Byte) : (wrBytes s k a bs).nextId = s.nextId := rfl
@[simp] theorem wrBytes_posted (s : State) (k a : Nat) (bs : List Byte) : (wrBytes s k a bs).posted = s.posted := rfl
@[simp] theorem wrBytes_poison (s : State) (k a : Nat) (bs : List Byte) : (wrBytes s k a bs).poison = s.poison := rfl
@[simp] theorem wrBytes_pinned (s : State) (k a : Nat) (bs : List Byte) : (wrBytes s k a bs).pinned = s.pinned := rfl
@[simp] theorem wrBytes_l1 (s : State) (k a : Nat) (bs : List Byte) : (wrBytes s k a bs).l1 = s.l1 := rfl
@[simp] theorem wrBytes_rtbase (s : State) (k a : Nat) (bs : List Byte) : (wrBytes s k a bs).rtbase = s.rtbase := rfl
@[simp] theorem wrBytes_granules (s : State) (k a : Nat) (bs : List Byte) : (wrBytes s k a bs).granules = s.granules := rfl
@[simp] theorem wrBytes_partctl (s : State) (k a : Nat) (bs : List Byte) : (wrBytes s k a bs).partctl = s.partctl := rfl
@[simp] theorem wrBytes_parts (s : State) (k a : Nat) (bs : List Byte) : (wrBytes s k a bs).parts = s.parts := rfl
@[simp] theorem wrBytes_harts (s : State) (k a : Nat) (bs : List Byte) : (wrBytes s k a bs).harts = s.harts := rfl
@[simp] theorem wrBytes_threads (s : State) (k a : Nat) (bs : List Byte) : (wrBytes s k a bs).threads = s.threads := rfl
@[simp] theorem wrBytes_held (s : State) (k a : Nat) (bs : List Byte) : (wrBytes s k a bs).held = s.held := rfl
@[simp] theorem wrBytes_teams (s : State) (k a : Nat) (bs : List Byte) : (wrBytes s k a bs).teams = s.teams := rfl
@[simp] theorem wrBytes_cores (s : State) (k a : Nat) (bs : List Byte) : (wrBytes s k a bs).cores = s.cores := rfl
@[simp] theorem wrBytes_engines (s : State) (k a : Nat) (bs : List Byte) : (wrBytes s k a bs).engines = s.engines := rfl
@[simp] theorem wrBytes_copies (s : State) (k a : Nat) (bs : List Byte) : (wrBytes s k a bs).copies = s.copies := rfl
@[simp] theorem wrBytes_rowOps (s : State) (k a : Nat) (bs : List Byte) : (wrBytes s k a bs).rowOps = s.rowOps := rfl
@[simp] theorem wrBytes_transits (s : State) (k a : Nat) (bs : List Byte) : (wrBytes s k a bs).transits = s.transits := rfl
@[simp] theorem wrBytes_laces (s : State) (k a : Nat) (bs : List Byte) : (wrBytes s k a bs).laces = s.laces := rfl
@[simp] theorem wrBytes_laced (s : State) (k a : Nat) (bs : List Byte) : (wrBytes s k a bs).laced = s.laced := rfl
@[simp] theorem wrBytes_eyelets (s : State) (k a : Nat) (bs : List Byte) : (wrBytes s k a bs).eyelets = s.eyelets := rfl
@[simp] theorem wrBytes_slices (s : State) (k a : Nat) (bs : List Byte) : (wrBytes s k a bs).slices = s.slices := rfl
@[simp] theorem wrBytes_tlb (s : State) (k a : Nat) (bs : List Byte) : (wrBytes s k a bs).tlb = s.tlb := rfl
@[simp] theorem wrBytes_walkCache (s : State) (k a : Nat) (bs : List Byte) : (wrBytes s k a bs).walkCache = s.walkCache := rfl
@[simp] theorem wrBytes_walks (s : State) (k a : Nat) (bs : List Byte) : (wrBytes s k a bs).walks = s.walks := rfl
@[simp] theorem wrBytes_shoots (s : State) (k a : Nat) (bs : List Byte) : (wrBytes s k a bs).shoots = s.shoots := rfl
@[simp] theorem wrBytes_msis (s : State) (k a : Nat) (bs : List Byte) : (wrBytes s k a bs).msis = s.msis := rfl
@[simp] theorem wrBytes_intPages (s : State) (k a : Nat) (bs : List Byte) : (wrBytes s k a bs).intPages = s.intPages := rfl
@[simp] theorem wrBytes_mirqs (s : State) (k a : Nat) (bs : List Byte) : (wrBytes s k a bs).mirqs = s.mirqs := rfl
@[simp] theorem wrBytes_errLog (s : State) (k a : Nat) (bs : List Byte) : (wrBytes s k a bs).errLog = s.errLog := rfl
@[simp] theorem wrBytes_invals (s : State) (k a : Nat) (bs : List Byte) : (wrBytes s k a bs).invals = s.invals := rfl
@[simp] theorem wrBytes_actCorr (s : State) (k a : Nat) (bs : List Byte) : (wrBytes s k a bs).actCorr = s.actCorr := rfl
@[simp] theorem wrBytes_actSatn (s : State) (k a : Nat) (bs : List Byte) : (wrBytes s k a bs).actSatn = s.actSatn := rfl
@[simp] theorem wrBytes_actThresh (s : State) (k a : Nat) (bs : List Byte) : (wrBytes s k a bs).actThresh = s.actThresh := rfl
@[simp] theorem wrBytes_rowCnt (s : State) (k a : Nat) (bs : List Byte) : (wrBytes s k a bs).rowCnt = s.rowCnt := rfl
@[simp] theorem wrBytes_rowDue (s : State) (k a : Nat) (bs : List Byte) : (wrBytes s k a bs).rowDue = s.rowDue := rfl
@[simp] theorem wrBytes_weltsel (s : State) (k a : Nat) (bs : List Byte) : (wrBytes s k a bs).weltsel = s.weltsel := rfl
@[simp] theorem wrBytes_welts (s : State) (k a : Nat) (bs : List Byte) : (wrBytes s k a bs).welts = s.welts := rfl
@[simp] theorem wrBytes_windowUs (s : State) (k a : Nat) (bs : List Byte) : (wrBytes s k a bs).windowUs = s.windowUs := rfl
@[simp] theorem wrBytes_ports (s : State) (k a : Nat) (bs : List Byte) : (wrBytes s k a bs).ports = s.ports := rfl
@[simp] theorem wrBytes_eth (s : State) (k a : Nat) (bs : List Byte) : (wrBytes s k a bs).eth = s.eth := rfl
@[simp] theorem wrBytes_boot (s : State) (k a : Nat) (bs : List Byte) : (wrBytes s k a bs).boot = s.boot := rfl
@[simp] theorem thr_wrBytes (s : State) (k a : Nat) (bs : List Byte) (j : Nat) : thr (wrBytes s k a bs) j = thr s j := rfl
@[simp] theorem occupied_wrBytes (s : State) (k a : Nat) (bs : List Byte) (j : Nat) : occupied (wrBytes s k a bs) j = occupied s j := rfl
@[simp] theorem hart_wrBytes (s : State) (k a : Nat) (bs : List Byte) (j : Nat) : hart (wrBytes s k a bs) j = hart s j := rfl
@[simp] theorem part_wrBytes (s : State) (k a : Nat) (bs : List Byte) (j : Nat) : part (wrBytes s k a bs) j = part s j := rfl
@[simp] theorem core_wrBytes (s : State) (k a : Nat) (bs : List Byte) (j : Nat) : core (wrBytes s k a bs) j = core s j := rfl
@[simp] theorem engine_wrBytes (s : State) (k a : Nat) (bs : List Byte) (j : Nat) : engine (wrBytes s k a bs) j = engine s j := rfl
@[simp] theorem slice_wrBytes (s : State) (k a : Nat) (bs : List Byte) (j : Nat) : slice (wrBytes s k a bs) j = slice s j := rfl
@[simp] theorem eyelet_wrBytes (s : State) (k a : Nat) (bs : List Byte) (j : Nat) : eyelet (wrBytes s k a bs) j = eyelet s j := rfl
@[simp] theorem lace_wrBytes (s : State) (k a : Nat) (bs : List Byte) (j : Nat) : lace (wrBytes s k a bs) j = lace s j := rfl
@[simp] theorem welt_wrBytes (s : State) (k a : Nat) (bs : List Byte) (j : Nat) : welt (wrBytes s k a bs) j = welt s j := rfl
@[simp] theorem port_wrBytes (s : State) (k a : Nat) (bs : List Byte) (j : Nat) : port (wrBytes s k a bs) j = port s j := rfl
@[simp] theorem teamOpt_wrBytes (s : State) (k a : Nat) (bs : List Byte) (j n i : Nat) : team? (wrBytes s k a bs) j n i = team? s j n i := rfl

end Sys2Proof.Machine
end

