-- ==== Sys2Proof/Laws/Thread.lean ====
section
/-! SUPPORT. Threads, registers and latches: reads after writes, the end of a word, and a meaning applied to a group. -/

namespace Sys2Proof.Machine

/-! The thread of a key. -/

theorem thr_setThr (s : State) (k j : Nat) (t : Thread) : thr (setThr s k t) j = if j = k then t else thr s j := by
  unfold thr setThr
  simp only [mget?_mput]
  split <;> rfl

@[simp] theorem thr_setThr_same (s : State) (k : Nat) (t : Thread) : thr (setThr s k t) k = t := by simp [thr_setThr]

theorem thr_setThr_other (s : State) {k j : Nat} (t : Thread) (h : j ≠ k) : thr (setThr s k t) j = thr s j := by
  simp [thr_setThr, h]

@[simp] theorem thr_modThr_same (s : State) (k : Nat) (f : Thread → Thread) : thr (modThr s k f) k = f (thr s k) := by
  simp [modThr]

theorem thr_modThr_other (s : State) {k j : Nat} (f : Thread → Thread) (h : j ≠ k) : thr (modThr s k f) j = thr s j := by
  simp [modThr, thr_setThr, h]

theorem slot_setThr_other (s : State) {k j : Nat} (t : Thread) (h : j ≠ k) :
    mget? (setThr s k t).threads j = mget? s.threads j := mget?_mput_other s.threads t h

theorem slot_modThr_other (s : State) {k j : Nat} (f : Thread → Thread) (h : j ≠ k) :
    mget? (modThr s k f).threads j = mget? s.threads j := slot_setThr_other s _ h

theorem setThr_threads_eq (s : State) (k : Nat) (t : Thread) : setThr s k t = { s with threads := mput s.threads k t } := rfl

theorem mkeys_setThr {s : State} (h : mkeys s.threads = true) (k : Nat) (t : Thread) :
    mkeys (setThr s k t).threads = true := mkeys_mput h k t

theorem mkeys_dropThr {s : State} (h : mkeys s.threads = true) (k : Nat) : mkeys (dropThr s k).threads = true := mkeys_mdel h k

/-! The records of other agents. -/

theorem hart_modHart_other (s : State) {k j : Nat} (f : Hart → Hart) (h : j ≠ k) : hart (modHart s k f) j = hart s j :=
  mget_mset_other _ _ _ h

@[simp] theorem hart_modHart_same (s : State) (k : Nat) (f : Hart → Hart) :
    hart (modHart s k f) k = f (hart s k) := mget_mset_same _ _ k _

theorem part_modPart_other (s : State) {k j : Nat} (f : Partition → Partition) (h : j ≠ k) :
    part (modPart s k f) j = part s j := mget_mset_other _ _ _ h

@[simp] theorem part_modPart_same (s : State) (k : Nat) (f : Partition → Partition) :
    part (modPart s k f) k = f (part s k) := mget_mset_same _ _ k _

@[simp] theorem core_modCore_same (s : State) (k : Nat) (f : Core → Core) :
    core (modCore s k f) k = f (core s k) := mget_mset_same _ _ k _

theorem core_modCore_other (s : State) {k j : Nat} (f : Core → Core) (h : j ≠ k) : core (modCore s k f) j = core s j :=
  mget_mset_other _ _ _ h

@[simp] theorem engine_modEngine_same (s : State) (k : Nat) (f : Engine → Engine) :
    engine (modEngine s k f) k = f (engine s k) := mget_mset_same _ _ k _

theorem engine_modEngine_other (s : State) {k j : Nat} (f : Engine → Engine) (h : j ≠ k) :
    engine (modEngine s k f) j = engine s j := mget_mset_other _ _ _ h

@[simp] theorem slice_modSlice_same (s : State) (k : Nat) (f : Slice → Slice) :
    slice (modSlice s k f) k = f (slice s k) := mget_mset_same _ _ k _

theorem slice_modSlice_other (s : State) {k j : Nat} (f : Slice → Slice) (h : j ≠ k) :
    slice (modSlice s k f) j = slice s j := mget_mset_other _ _ _ h

@[simp] theorem eyelet_modEyelet_same (s : State) (k : Nat) (f : Eyelet → Eyelet) :
    eyelet (modEyelet s k f) k = f (eyelet s k) := mget_mset_same _ _ k _

theorem eyelet_modEyelet_other (s : State) {k j : Nat} (f : Eyelet → Eyelet) (h : j ≠ k) :
    eyelet (modEyelet s k f) j = eyelet s j := mget_mset_other _ _ _ h

@[simp] theorem lace_modLace_same (s : State) (k : Nat) (f : Lace → Lace) :
    lace (modLace s k f) k = f (lace s k) := mget_mset_same _ _ k _

theorem lace_modLace_other (s : State) {k j : Nat} (f : Lace → Lace) (h : j ≠ k) : lace (modLace s k f) j = lace s j :=
  mget_mset_other _ _ _ h

@[simp] theorem welt_modWelt_same (s : State) (k : Nat) (f : Welt → Welt) :
    welt (modWelt s k f) k = f (welt s k) := mget_mset_same _ _ k _

theorem welt_modWelt_other (s : State) {k j : Nat} (f : Welt → Welt) (h : j ≠ k) : welt (modWelt s k f) j = welt s j :=
  mget_mset_other _ _ _ h

@[simp] theorem port_modPort_same (s : State) (k : Nat) (f : BPort → BPort) :
    port (modPort s k f) k = f (port s k) := mget_mset_same _ _ k _

theorem port_modPort_other (s : State) {k j : Nat} (f : BPort → BPort) (h : j ≠ k) : port (modPort s k f) j = port s j :=
  mget_mset_other _ _ _ h

@[simp] theorem ethPort_modEth_same (s : State) (k : Nat) (f : EthPort → EthPort) :
    ethPort (modEth s k f) k = f (ethPort s k) := mget_mset_same _ _ k _

/-! Registers (R85): x0 reads zero and discards writes. -/

@[simp] theorem getReg_zero (t : Thread) : getReg t 0 = 0 := by simp [getReg]

@[simp] theorem setReg_zero (t : Thread) (v : Word) : setReg t 0 v = t := by simp [setReg]

theorem getReg_setReg_other (t : Thread) {n m : Nat} (v : Word) (h : m ≠ n) : getReg (setReg t n v) m = getReg t m := by
  unfold getReg setReg
  by_cases hn : n = 0
  · simp [hn]
  · by_cases hx : n < 32
    · simp only [hn, hx, if_true, if_false]
      split
      · rfl
      · split
        · exact mget_mset_other 0 t.x v h
        · rfl
    · simp only [hn, hx, if_false]
      split
      · rfl
      · split
        · rfl
        · exact mget_mset_other 0 t.f v (by omega)

theorem getReg_setReg_same (t : Thread) {n : Nat} (v : Word) (h : n ≠ 0) : getReg (setReg t n v) n = v := by
  unfold getReg setReg
  by_cases hx : n < 32
  · simp [h, hx]
  · simp [h, hx]

/-- A register write changes registers alone. -/
theorem setReg_rest (t : Thread) (n : Nat) (v : Word) : setReg t n v = { t with x := (setReg t n v).x, f := (setReg t n v).f } := by
  unfold setReg
  split
  · rfl
  · split <;> rfl

@[simp] theorem setReg_pc (t : Thread) (n : Nat) (v : Word) : (setReg t n v).pc = t.pc := by rw [setReg_rest]
@[simp] theorem setReg_chain (t : Thread) (n : Nat) (v : Word) : (setReg t n v).chain = t.chain := by rw [setReg_rest]
@[simp] theorem setReg_fcsr (t : Thread) (n : Nat) (v : Word) : (setReg t n v).fcsr = t.fcsr := by rw [setReg_rest]
@[simp] theorem setReg_lfsr (t : Thread) (n : Nat) (v : Word) : (setReg t n v).lfsr = t.lfsr := by rw [setReg_rest]
@[simp] theorem setReg_qflags (t : Thread) (n : Nat) (v : Word) : (setReg t n v).qflags = t.qflags := by rw [setReg_rest]
@[simp] theorem setReg_st (t : Thread) (n : Nat) (v : Word) : (setReg t n v).st = t.st := by rw [setReg_rest]
@[simp] theorem setReg_trap (t : Thread) (n : Nat) (v : Word) : (setReg t n v).trap = t.trap := by rw [setReg_rest]
@[simp] theorem setReg_wait (t : Thread) (n : Nat) (v : Word) : (setReg t n v).wait = t.wait := by rw [setReg_rest]
@[simp] theorem setReg_team (t : Thread) (n : Nat) (v : Word) : (setReg t n v).team = t.team := by rw [setReg_rest]
@[simp] theorem setReg_part (t : Thread) (n : Nat) (v : Word) : (setReg t n v).part = t.part := by rw [setReg_rest]
@[simp] theorem setReg_satp (t : Thread) (n : Nat) (v : Word) : (setReg t n v).satp = t.satp := by rw [setReg_rest]

/-! Latches (R92). -/

theorem getLatch_putLatch_same (t : Thread) (c : Chain) (n : Nat) (v : Word) :
    getLatch { t with chain := putLatch c n v } n = v := by
  match n with
  | 0 | 1 | 2 => rfl
  | n + 3 => rfl

/-! The end of a word. -/

@[simp] theorem endWord_pc (w : Wide) (v : Word) (t : Thread) : (endWord w v t).pc = t.pc + 8 := by
  unfold endWord; split <;> simp

@[simp] theorem endWord0_pc (w : Wide) (t : Thread) : (endWord0 w t).pc = t.pc + 8 := rfl

theorem getReg_congr {a b : Thread} (hx : a.x = b.x) (hf : a.f = b.f) (n : Nat) : getReg a n = getReg b n := by
  unfold getReg; rw [hx, hf]

theorem endWord_getReg (w : Wide) (v : Word) (t : Thread) (n : Nat) :
    getReg (endWord w v t) n = getReg (if w.w then t else setReg t w.d.toNat v) n := getReg_congr rfl rfl n

theorem endWord_reg_other (w : Wide) (v : Word) (t : Thread) {n : Nat} (h : n ∉ (if w.w then [] else [w.d.toNat])) :
    getReg (endWord w v t) n = getReg t n := by
  rw [endWord_getReg]
  cases hw : w.w
  · simp only [hw, Bool.false_eq_true, if_false] at h ⊢
    exact getReg_setReg_other t v (by simpa using h)
  · rfl

theorem endWord_reg (w : Wide) (v : Word) (t : Thread) (hw : w.w = false) (hd : w.d.toNat ≠ 0) :
    getReg (endWord w v t) w.d.toNat = v := by
  rw [endWord_getReg, hw]
  exact getReg_setReg_same t v hd

/-- A word's end changes registers, latches and the pc alone. -/
theorem endWord_rest (w : Wide) (v : Word) (t : Thread) :
    endWord w v t = { t with x := (endWord w v t).x, f := (endWord w v t).f, pc := t.pc + 8, chain := (endWord w v t).chain } := by
  unfold endWord
  cases w.w
  · simp only [Bool.false_eq_true, if_false]
    rw [setReg_rest]
  · rfl

theorem endWord_chain (w : Wide) (v : Word) (t : Thread) :
    (endWord w v t).chain = chainNext (putLatch t.chain w.lt.toNat v) w.h := by
  unfold endWord
  split <;> simp

theorem endWord_latch (w : Wide) (v : Word) (t : Thread) : getLatch (endWord w v t) w.lt.toNat = v := by
  unfold getLatch
  rw [endWord_chain]
  have : w.lt.toNat < 4 := w.lt.isLt
  unfold chainNext putLatch
  interval_cases w.lt.toNat <;> cases w.h <;> rfl

/-! A meaning applied to the threads of a group (R142). -/

theorem forKeys_one {s : State} {k : Nat} (h : s.cur.keys = [k]) (f : State → Nat → State) : forKeys s f = f s k := by
  simp [forKeys, h]

/-- A meaning that changes each thread alone, by itself: what each thread of a group without repeats becomes, and that
nothing else changes. -/
theorem foldl_threads (g : Nat → Thread → Thread) (ks : List Nat) (s : State) (hn : ks.Nodup) :
    let t := ks.foldl (fun s k => modThr s k (g k)) s
    t = { s with threads := t.threads } ∧ (∀ k ∈ ks, thr t k = g k (thr s k)) ∧
      ∀ j, j ∉ ks → mget? t.threads j = mget? s.threads j := by
  induction ks generalizing s with
  | nil => exact ⟨rfl, by simp, fun _ _ => rfl⟩
  | cons k ks ih =>
    rw [List.nodup_cons] at hn
    obtain ⟨h1, h2, h3⟩ := ih (modThr s k (g k)) hn.2
    refine ⟨?_, ?_, ?_⟩
    · rw [List.foldl_cons]; exact h1
    · intro j hj
      rw [List.foldl_cons]
      rcases List.mem_cons.mp hj with rfl | hj
      · have : mget? (ks.foldl (fun s k => modThr s k (g k)) (modThr s j (g j))).threads j = mget? (modThr s j (g j)).threads j :=
          h3 j hn.1
        unfold thr
        rw [this]
        exact thr_modThr_same s j (g j)
      · rw [h2 j hj, thr_modThr_other]
        exact fun e => hn.1 (e ▸ hj)
    · intro j hj
      rw [List.mem_cons, not_or] at hj
      rw [List.foldl_cons, h3 j hj.2, slot_modThr_other s _ hj.1]

theorem forKeys_threads (g : Nat → Thread → Thread) {s : State} (hn : s.cur.keys.Nodup) :
    let t := forKeys s fun s k => modThr s k (g k)
    t = { s with threads := t.threads } ∧ (∀ k ∈ s.cur.keys, thr t k = g k (thr s k)) ∧
      ∀ j, j ∉ s.cur.keys → mget? t.threads j = mget? s.threads j :=
  foldl_threads g s.cur.keys s hn

end Sys2Proof.Machine
end

