-- ==== Sys2Proof/Laws/Lane.lean ====
section
/-! SUPPORT. Packed words, the end of a lane instruction, and the meaning of a lane or gang instruction on a group. -/

namespace Sys2Proof.Machine

/-! Elements of a packed word (R47). -/

theorem packW_lt (w : Nat) (l : List Nat) : packW w l < 2 ^ (w * l.length) := by
  induction l with
  | nil => simp [packW]
  | cons x l ih =>
    rw [packW, List.length_cons, Nat.mul_succ, Nat.add_comm (w * l.length), Nat.pow_add]
    have hx : x % 2 ^ w < 2 ^ w := Nat.mod_lt _ (by positivity)
    calc x % 2 ^ w + 2 ^ w * packW w l < 2 ^ w + 2 ^ w * packW w l := by omega
      _ = 2 ^ w * (packW w l + 1) := by ring
      _ ≤ 2 ^ w * 2 ^ (w * l.length) := Nat.mul_le_mul_left _ ih

theorem packW_elt (w : Nat) (l : List Nat) {i : Nat} (h : i < l.length) :
    packW w l / 2 ^ (w * i) % 2 ^ w = l[i] % 2 ^ w := by
  induction l generalizing i with
  | nil => simp at h
  | cons x l ih =>
    have hp : 0 < 2 ^ w := by positivity
    cases i with
    | zero => simp [packW, Nat.add_mul_mod_self_left]
    | succ i =>
      rw [packW, Nat.mul_succ, Nat.add_comm (w * i), Nat.pow_add, ← Nat.div_div_eq_div_mul,
        Nat.add_mul_div_left _ _ hp, Nat.div_eq_of_lt (Nat.mod_lt _ hp), Nat.zero_add,
        ih (by simpa using h), List.getElem_cons_succ]

/-- An element of a packed word of a format: what was packed, at the width of the format. -/
theorem elt_packW (fc : Nat) (l : List Nat) (hl : fwidth fc * l.length ≤ 64) {i : Nat} (h : i < l.length) :
    elt (w64 (packW (fwidth fc) l)) fc i = l[i] % 2 ^ fwidth fc := by
  have hlt : packW (fwidth fc) l < 2 ^ 64 := lt_of_lt_of_le (packW_lt _ _) (Nat.pow_le_pow_right (by omega) hl)
  rw [elt, w64, BitVec.toNat_ofNat, Nat.mod_eq_of_lt hlt, packW_elt _ _ h]

theorem fcount_width (fc : Nat) : fwidth fc * fcount fc ≤ 64 := Nat.mul_div_le 64 _

/-- An element of what `lanes` packs at a format's own width. -/
theorem elt_lanes (fc : Nat) (g : Nat → FR) {i : Nat} (h : i < fcount fc) :
    elt (w64 (lanes (fwidth fc) (fcount fc) g).val) fc i = (g i).bits % 2 ^ fwidth fc := by
  have hl : fwidth fc * (((List.range (fcount fc)).map g).map (·.bits)).length ≤ 64 := by simpa using fcount_width fc
  rw [show (lanes (fwidth fc) (fcount fc) g).val = packW (fwidth fc) (((List.range (fcount fc)).map g).map (·.bits)) from rfl,
    elt_packW fc _ hl (by simpa using h)]
  simp

/-- An element of what `rawLanes` packs. -/
theorem elt_rawLanes (fc : Nat) (g : Nat → Nat) {i : Nat} (h : i < fcount fc) :
    elt (w64 (rawLanes fc g).val) fc i = g i % 2 ^ fwidth fc := by
  have hl : fwidth fc * ((List.range (fcount fc)).map g).length ≤ 64 := by simpa using fcount_width fc
  rw [show (rawLanes fc g).val = packW (fwidth fc) ((List.range (fcount fc)).map g) from rfl, elt_packW fc _ hl (by simpa using h)]
  simp

theorem elt_lt (v : Word) (fc i : Nat) : elt v fc i < 2 ^ fwidth fc := Nat.mod_lt _ (by positivity)

/-! The flags of a lane instruction. -/

/-- The enables of `qflags` do not depend on the sticky bits. -/
theorem fpTraps_laneThread (w : Wide) (r : LaneRes) (t : Thread) (fl : Nat) :
    fpTraps (laneThread w r t) fl = fpTraps t fl := by
  have key : ∀ (q : Word) (n : Nat), bits (q ||| w64 (n % 8)) 12 8 = bits q 12 8 := by
    intro q n
    have h8 : n % 8 < 8 := Nat.mod_lt _ (by omega)
    have h : (q ||| w64 (n % 8)) >>> 8 = q >>> 8 := by
      have : ∀ k < 8, (w64 k : Word) >>> 8 = 0 := by decide
      rw [BitVec.ushiftRight_or_distrib, this _ h8]
      exact BitVec.or_zero
    have := congrArg BitVec.toNat h
    simp only [BitVec.toNat_ushiftRight, Nat.shiftRight_eq_div_pow] at this
    simp only [bits, this]
  unfold fpTraps laneThread
  split <;> rw [show ∀ a : Thread, (endWord w (w64 r.val) a).qflags = a.qflags from fun a => by rw [endWord_rest]] <;>
    simp [addSticky, addFlags, key]

/-- Without an enabled flag a lane instruction ends as its thread's result alone. -/
theorem fpCause_none {s : State} {k fl : Nat} (h : isSimt k = true → fpTraps (thr s k) fl = false) : fpCause s k fl = s := by
  unfold fpCause
  by_cases hk : isSimt k = true
  · simp [hk, h hk]
  · simp [hk]

/-- A fold that changes each thread by what it holds, when the extra step changes nothing. -/
theorem foldl_lane (w : Wide) (f : Thread → LaneRes) (ks : List Nat) (s : State) (hn : ks.Nodup)
    (h : ∀ k ∈ ks, isSimt k = true → fpTraps (thr s k) (f (thr s k)).flags = false) :
    ks.foldl (fun s k => fpCause (setThr s k (laneThread w (f (thr s k)) (thr s k))) k (f (thr s k)).flags) s =
      ks.foldl (fun s k => modThr s k fun t => laneThread w (f t) t) s := by
  induction ks generalizing s with
  | nil => rfl
  | cons k ks ih =>
    rw [List.nodup_cons] at hn
    have h1 : fpCause (setThr s k (laneThread w (f (thr s k)) (thr s k))) k (f (thr s k)).flags =
        modThr s k fun t => laneThread w (f t) t := by
      rw [fpCause_none]
      · rfl
      · intro hk
        rw [thr_setThr_same, fpTraps_laneThread]
        exact h k (by simp) hk
    rw [List.foldl_cons, List.foldl_cons, h1]
    apply ih _ hn.2
    intro j hj hs
    rw [thr_modThr_other _ _ (show j ≠ k from fun e => hn.1 (e ▸ hj))]
    exact h j (by simp [hj]) hs

/-- A lane instruction on a group in which no enabled flag is raised. -/
theorem laneExec_spec (w : Wide) (f : Thread → LaneRes) {s : State} (hn : s.cur.keys.Nodup)
    (h : ∀ k ∈ s.cur.keys, isSimt k = true → fpTraps (thr s k) (f (thr s k)).flags = false) :
    ∃ t, laneExec w f s = .next t ∧ t = { s with threads := t.threads } ∧
      (∀ k ∈ s.cur.keys, thr t k = laneThread w (f (thr s k)) (thr s k)) ∧
      ∀ j, j ∉ s.cur.keys → mget? t.threads j = mget? s.threads j :=
  ⟨_, rfl, by
    rw [show forKeys s _ = s.cur.keys.foldl _ s from rfl, foldl_lane w f _ s hn h]
    exact foldl_threads (fun _ t => laneThread w (f t) t) s.cur.keys s hn⟩

/-- A gang instruction on a group. -/
theorem gangExec_spec (w : Wide) (f : Gang → Nat → Word) {s : State} (hn : s.cur.keys.Nodup) :
    ∃ t, gangExec w f s = .next t ∧ t = { s with threads := t.threads } ∧
      (∀ k ∈ s.cur.keys, thr t k = endWord w (f (gangOf s k) (gangPos (thr s k))) (thr s k)) ∧
      ∀ j, j ∉ s.cur.keys → mget? t.threads j = mget? s.threads j :=
  ⟨_, rfl, forKeys_threads (fun k => endWord w (f (gangOf s k) (gangPos (thr s k)))) hn⟩

end Sys2Proof.Machine
end

