-- ==== Sys2Proof/Laws/Ends.lean ====
section
/-! SUPPORT. The ends of words, in the terms of Safety. -/

namespace Sys2Proof

open Machine

theorem latch_chainNext (t : Thread) (c : Chain) (h : Bool) (n : Nat) :
    getLatch { t with chain := chainNext c h } n = getLatch { t with chain := c } n := by
  cases h <;> (match n with | 0 | 1 | 2 => rfl | _ + 3 => rfl)

theorem latch_putLatch_other (t : Thread) (c : Chain) {m n : Nat} (v : Word) (hm : m < 4) (hn : n < 4) (h : n ≠ m) :
    getLatch { t with chain := putLatch c m v } n = getLatch { t with chain := c } n := by
  interval_cases m <;> interval_cases n <;> first | exact absurd rfl h | rfl

theorem chainNext_live (c : Chain) (h : Bool) : (chainNext c h).live = h := by cases h <;> rfl

/-- A word with a scalar result ends as R86 says. -/
theorem endsWith_endWord (w : Wide) (v : Word) (t : Thread) : EndsWith w v t (endWord w v t) := by
  have hl : ∀ n, getLatch (endWord w v t) n = getLatch { t with chain := putLatch t.chain w.lt.toNat v } n := by
    intro n
    rw [← latch_chainNext t (putLatch t.chain w.lt.toNat v) w.h n]
    unfold getLatch
    rw [endWord_chain]
  refine ⟨?_, ?_, endWord_latch w v t, ?_, ?_, endWord_pc w v t⟩
  · intro hw hd
    exact endWord_reg w v t hw (by intro e; exact hd (BitVec.eq_of_toNat_eq e))
  · intro n hn
    exact endWord_reg_other w v t hn
  · intro n hn hne
    rw [hl, latch_putLatch_other t t.chain v w.lt.isLt hn hne]
  · rw [endWord_chain, chainNext_live]

/-- A word without one ends as R86 says. -/
theorem endsZero_endWord0 (w : Wide) (t : Thread) : EndsZero w t (endWord0 w t) := by
  have hl : ∀ n, getLatch (endWord0 w t) n = getLatch { t with chain := putLatch t.chain w.lt.toNat 0 } n := by
    intro n
    rw [← latch_chainNext t (putLatch t.chain w.lt.toNat 0) w.h n]
    rfl
  refine ⟨fun n _ => getReg_congr rfl rfl n, ?_, ?_, chainNext_live _ _, rfl⟩
  · rw [hl]; exact getLatch_putLatch_same t t.chain _ 0
  · intro n hn hne
    rw [hl, latch_putLatch_other t t.chain 0 w.lt.isLt hn hne]

theorem keepsRest_endWord (w : Wide) (v : Word) (t : Thread) : KeepsRest t (endWord w v t) := by
  unfold KeepsRest
  rw [endWord_pc]
  exact endWord_rest w v t

theorem keepsRest_endWord0 (w : Wide) (t : Thread) : KeepsRest t (endWord0 w t) := rfl

/-- The end of a word after flags were raised. -/
theorem endsWith_raised (w : Wide) (v : Word) (t t' : Thread) (hx : t'.x = t.x) (hf : t'.f = t.f) (hc : t'.chain = t.chain)
    (hp : t'.pc = t.pc) : EndsWith w v t (endWord w v t') := by
  obtain ⟨h1, h2, h3, h4, h5, h6⟩ := endsWith_endWord w v t'
  refine ⟨h1, fun n hn => (h2 n hn).trans (getReg_congr hx hf n), h3, fun n hn hne => (h4 n hn hne).trans ?_, h5, h6.trans (by rw [hp])⟩
  unfold getLatch; rw [hc]

/-- What a lane instruction leaves of its thread. -/
theorem laneThread_ends (w : Wide) (r : LaneRes) (t : Thread) :
    EndsWith w (w64 r.val) t (laneThread w r t) ∧
      RaisesOnly r.flags r.sticky (if r.adv then advance32 t.lfsr else t.lfsr) t (laneThread w r t) := by
  have he := endsWith_raised w (w64 r.val) t (addSticky (addFlags t r.flags) r.sticky) rfl rfl rfl rfl
  have hr := keepsRest_endWord w (w64 r.val) (addSticky (addFlags t r.flags) r.sticky)
  unfold laneThread
  unfold KeepsRest at hr
  cases r.adv
  · simp only [Bool.false_eq_true, if_false]
    exact ⟨he, hr.trans (by simp [addSticky, addFlags])⟩
  · simp only [if_true]
    refine ⟨⟨he.1, fun n hn => (getReg_congr rfl rfl n).trans (he.2.1 n hn), he.2.2.1, he.2.2.2.1, he.2.2.2.2.1, he.2.2.2.2.2⟩, ?_⟩
    unfold RaisesOnly
    generalize endWord w (w64 r.val) (addSticky (addFlags t r.flags) r.sticky) = u at hr
    rw [hr]
    simp [addSticky, addFlags]

/-- What only threads change leaves memory. -/
theorem keepsMemory_of_only {ks : List Nat} {s t : State} (h : OnlyThreads ks s t) : KeepsMemory s t := by
  intro a
  rw [h.1]

end Sys2Proof
end

