-- ==== Sys2Proof/Tests/Slice0.lean ====
section
/-! SUPPORT. The author's tests: words of the spec decode to what they stand for, ill-formed terms are refused, worked
examples of the spec, and for every statement with premises a state and operands that meet them all, clause by clause. -/

set_option maxRecDepth 20000
set_option Elab.async false
set_option linter.unusedVariables false

namespace Sys2Proof.Tests

open Sys2Proof.Machine

/-! Words that the spec writes out, with their fields by R84. -/

theorem test_word_mig : decodeTableWord 64 0x0B14_603F = some (.mig ⟨0, 0, 0, 0, 0, 11, false, 10, false⟩) := by decide +kernel

theorem test_word_pfmul : decodeTableWord 64 0x0008_0011_2148_053F = some (.pfmul ⟨0, 1, 0, 0, 34, 33, false, 36, true⟩) := by decide +kernel

theorem test_word_pfadd : decodeTableWord 64 0x0000_0011_C14A_003F = some (.pfadd ⟨0, 0, 0, 0, 35, 65, false, 37, false⟩) := by decide +kernel

theorem test_word_teamnew : decodeTableWord 64 0x0C14_703F = some (.teamnew ⟨0, 0, 0, 0, 0, 12, false, 10, false⟩) := by decide +kernel

theorem test_word_syinit : decodeTableWord 64 0x123A_903F = some (.syinit ⟨0, 0, 0, 0, 0, 18, false, 29, false⟩) := by decide +kernel

theorem test_word_barw : decodeTableWord 64 0x003A_9E3F = some (.barw ⟨0, 0, 0, 0, 0, 0, false, 29, false⟩) := by decide +kernel

theorem test_word_gred : decodeTableWord 64 0x0A16_463F = some (.gred ⟨0, 0, 0, 0, 0, 10, false, 11, false⟩) := by decide +kernel

theorem test_word_gvote : decodeTableWord 64 0x0000_4000_0D18_443F = some (.gvote ⟨0, 0, 2, 0, 0, 13, false, 12, false⟩) := by decide +kernel

theorem test_word_gshfl : decodeTableWord 64 0x0020_4000_0A1C_403F = some (.gshfl ⟨1, 0, 2, 0, 0, 10, false, 14, false⟩) := by decide +kernel

theorem test_word_qpush : decodeTableWord 64 0x0000_0006_0B14_803F = some (.qpush ⟨0, 0, 0, 0, 12, 11, false, 10, false⟩) := by decide +kernel

theorem test_word_tend : decodeTableWord 64 0x0B00_863F = some (.tend ⟨0, 0, 0, 0, 0, 11, false, 0, false⟩) := by decide +kernel

theorem test_word_strel : decodeTableWord 64 0x0140_6006_0A01_263F = some (.strel ⟨10, 0, 3, 0, 12, 10, false, 0, false⟩) := by decide +kernel

theorem test_word_ldacq : decodeTableWord 64 0x0140_6000_0B1B_243F = some (.ldacq ⟨10, 0, 3, 0, 0, 11, false, 13, false⟩) := by decide +kernel

theorem test_word_fencesc : decodeTableWord 64 0x0140_0000_0001_223F = some (.fencesc ⟨10, 0, 0, 0, 0, 0, false, 0, false⟩) := by decide +kernel

theorem test_word_tlbip : decodeTableWord 64 0x0000_0006_0B15_463F = some (.tlbip ⟨0, 0, 0, 0, 12, 11, false, 10, false⟩) := by decide +kernel

theorem test_word_cbind : decodeTableWord 64 0x0B15_123F = some (.cbind ⟨0, 0, 0, 0, 0, 11, false, 10, false⟩) := by decide +kernel

theorem test_word_cmsg : decodeTableWord 64 0x00A0_0182_8815_103F = some (.cmsg ⟨5, 0, 0, 6, 5, 8, false, 10, false⟩) := by decide +kernel

theorem test_word_cdone : decodeTableWord 64 0x0501_143F = some (.cdone ⟨0, 0, 0, 0, 0, 5, false, 0, false⟩) := by decide +kernel

theorem test_word_tresume : decodeTableWord 64 0x0E15_4A3F = some (.tresume ⟨0, 0, 0, 0, 0, 14, false, 10, false⟩) := by decide +kernel

theorem test_word_tspawn : decodeTableWord 64 0x0000_02CA_133A_643F = some (.tspawn ⟨0, 0, 0, 11, 20, 19, false, 29, false⟩) := by decide +kernel

theorem test_word_texit : decodeTableWord 64 0x0000_623F = some (.texit ⟨0, 0, 0, 0, 0, 0, false, 0, false⟩) := by decide +kernel

theorem test_word_tres : decodeTableWord 64 0x0000_CC3F = some (.tres ⟨0, 0, 0, 0, 0, 0, false, 0, false⟩) := by decide +kernel

theorem test_word_tld : decodeTableWord 64 0x0000_0006_0B00_C03F = some (.tld ⟨0, 0, 0, 0, 12, 11, false, 0, false⟩) := by decide +kernel

theorem test_word_mma : decodeTableWord 64 0x0061_8000_8000_D03F = some (.mma ⟨3, 0, 12, 0, 1, 0, false, 0, false⟩) := by decide +kernel

theorem test_word_mwait : decodeTableWord 64 0x0014_E03F = some (.mwait ⟨0, 0, 0, 0, 0, 0, false, 10, false⟩) := by decide +kernel

theorem test_word_tdrm : decodeTableWord 64 0x0003_0386_8000_DC3F = some (.tdrm ⟨0, 0, 24, 14, 13, 0, false, 0, false⟩) := by decide +kernel

theorem test_word_mmac : decodeTableWord 64 0x0006_C000_0000_D23F = some (.mmac ⟨0, 0, 54, 0, 0, 0, false, 0, false⟩) := by decide +kernel

theorem test_word_cpim : decodeTableWord 64 0x0000_0340_0C1E_BA3F = some (.cpim ⟨0, 0, 0, 13, 0, 12, false, 15, false⟩) := by decide +kernel

theorem test_word_teamsave : decodeTableWord 64 0x0000_0006_0B14_743F = some (.teamsave ⟨0, 0, 0, 0, 12, 11, false, 10, false⟩) := by decide +kernel

theorem test_word_teamload : decodeTableWord 64 0x0000_0006_8C14_763F = some (.teamload ⟨0, 0, 0, 0, 13, 12, false, 10, false⟩) := by decide +kernel

theorem test_word_teaminfo : decodeTableWord 64 0x0000_2000_0B1A_783F = some (.teaminfo ⟨0, 0, 1, 0, 0, 11, false, 13, false⟩) := by decide +kernel

theorem test_word_rfil : decodeTableWord 64 0x121C_F23F = some (.rfil ⟨0, 0, 0, 0, 0, 18, false, 14, false⟩) := by decide +kernel

theorem test_word_rcpy : decodeTableWord 64 0x0020_000A_131E_F03F = some (.rcpy ⟨1, 0, 0, 0, 20, 19, false, 15, false⟩) := by decide +kernel

theorem test_word_rq : decodeTableWord 64 0x0000_000B_1520_F63F = some (.rq ⟨0, 0, 0, 0, 22, 21, false, 16, false⟩) := by decide +kernel

/-- The query of the example of 16_row: page 215 of region A beside page 0 of region B. -/
theorem test_rq_example :
    rqValue { State.reset with granules := [(136, 0x8000_0000_0000_8200#64)] } (some 0x22_000D_7000) (some 0x22_0020_0000) =
      0x8000_0022_000D_7100#64 := by decide +kernel

theorem test_word_rbop : decodeTableWord 64 0x0040_46CD_193A_F43F = some (.rbop ⟨2, 0, 2, 27, 26, 25, false, 29, false⟩) := by decide +kernel

theorem test_word_ljoin : decodeTableWord 64 0x0B15_083F = some (.ljoin ⟨0, 0, 0, 0, 0, 11, false, 10, false⟩) := by decide +kernel

theorem test_word_lamo : decodeTableWord 64 0x0000_0300_0B15_023F = some (.lamo ⟨0, 0, 0, 12, 0, 11, false, 10, false⟩) := by decide +kernel

theorem test_word_lst : decodeTableWord 64 0x0000_03C2_8E1B_003F = some (.lst ⟨0, 0, 0, 15, 5, 14, false, 13, false⟩) := by decide +kernel

theorem test_word_lwait : decodeTableWord 64 0x0000_0008_8B21_063F = some (.lwait ⟨0, 0, 0, 0, 17, 11, false, 16, false⟩) := by decide +kernel

theorem test_word_lseq : decodeTableWord 64 0x0B15_043F = some (.lseq ⟨0, 0, 0, 0, 0, 11, false, 10, false⟩) := by decide +kernel

theorem test_word_pgrind : decodeTableWord 64 0x004F_2000_0514_393F = some (.pgrind ⟨2, 1, 57, 0, 0, 5, false, 10, true⟩) := by decide +kernel

theorem test_word_pidot : decodeTableWord 64 0x0003_8244_4116_223F = some (.pidot ⟨0, 0, 28, 9, 8, 65, false, 11, false⟩) := by decide +kernel

/-- The pair word of R87: add2 in slot 0, addi2 in slot 1. -/
theorem test_word_pair :
    decodeTableWord 64 0x0140_6890_016A_02BF = some (.pairWord false ⟨0, 11, 10, .add2⟩ ⟨5, 0, 13, .addi2⟩) := by decide +kernel

/-- `add x10, x10, x11`, `jalr x0, 0(x1)` compressed, and `csrrw x0, 0x340, x11`. -/
theorem test_word_standard :
    decodeTableWord 32 0x00B5_0533 = some (.standardInstruction (.alu .add 10 10 11)) ∧
    decodeTableWord 16 0x8082 = some (.standardInstruction (.jalr 0 1 0)) := by decide +kernel

/-! Ill-formed terms, one for each check. -/

/-- D, S1, S2 and S3 of a full-form word with no other field. -/
def wd (d s1 s2 s3 : Nat) : Wide :=
  { imm11 := 0, lt := 0, fn := 0, s3 := BitVec.ofNat 7 s3, s2 := BitVec.ofNat 7 s2, s1 := BitVec.ofNat 7 s1, w := false
    d := BitVec.ofNat 6 d, h := false }

/-- R85: a field that the instruction does not use is nonzero (S3 of `mig`). -/
theorem test_wf_unused_field : (Instr.mig (wd 10 11 0 1)).wf = false := by decide +kernel

/-- R85: so is D of an instruction without a result (`cdone`). -/
theorem test_wf_unused_d : (Instr.cdone (wd 3 5 0 0)).wf = false := by decide +kernel

/-- R108: a value that a field does not admit (S1 of `rbop` names f1). -/
theorem test_wf_field_value : (Instr.rbop { wd 29 33 26 27 with fn := 2, imm11 := 2 }).wf = false := by decide +kernel

/-- R108: a reserved function (`gred` of no operation). -/
theorem test_wf_reserved_function : (Instr.gred { wd 11 10 0 0 with fn := 0x3F }).wf = false := by decide +kernel

/-- R108: `pgrind` reads no latch. -/
theorem test_wf_latch : (Instr.pgrind { wd 10 65 0 0 with fn := 0x39, imm11 := 2 }).wf = false := by decide +kernel

/-- R93: `mig` runs on to no successor. -/
theorem test_wf_chain : (Instr.mig { wd 10 11 0 0 with h := true }).wf = false := by decide +kernel

/-- R87: a slot's unused field is nonzero (IMM9 of `add2`), in either slot. -/
theorem test_wf_slot_field :
    (Instr.pairWord false ⟨1, 11, 10, .add2⟩ ⟨0, 0, 0, .nop2⟩).wf = false ∧
    (Instr.pairWord false ⟨0, 0, 0, .nop2⟩ ⟨1, 11, 11, .add2⟩).wf = false := by decide +kernel

/-- R88: D of slot 0 is odd, or D of slot 1 even. -/
theorem test_wf_slot_parity :
    (Instr.pairWord false ⟨0, 10, 11, .add2⟩ ⟨0, 0, 0, .nop2⟩).wf = false ∧
    (Instr.pairWord false ⟨0, 0, 0, .nop2⟩ ⟨0, 10, 10, .add2⟩).wf = false := by decide +kernel

/-- R9: a reserved rounding mode, a shift amount past the width, and an operation with a second operand that it has not. -/
theorem test_wf_standard :
    (Instr.standardInstruction (.fp2 .fadd false 5 1 2 3)).wf = false ∧
    (Instr.standardInstruction (.alui .slliw 1 2 32)).wf = false ∧
    (Instr.standardInstruction (.alui .clz 1 2 1)).wf = false ∧
    (Instr.standardInstruction (.alu .zexth 1 2 3)).wf = false := by decide +kernel

/-- A well-formed word of each kind. -/
theorem test_wf_holds :
    (Instr.mig (wd 10 11 0 0)).wf = true ∧ (Instr.pairWord false ⟨0, 11, 10, .add2⟩ ⟨5, 0, 13, .addi2⟩).wf = true ∧
    (Instr.standardInstruction (.alu .add 10 10 11)).wf = true := by decide +kernel

/-! States on which the premises of the statements are met. -/

/-- Partition 1: one latency core, cluster 0 of die 0, eyelets 0-63, handler slots, port 0. -/
def p1 : Partition := { state := 2, cl := 1, lc0 := 2, bc := 1, io := 0x101, eye := 1, cs := 0xFFFF, mbox := 0x20000, open_ := [1] }

/-- Its context 1 translates by a cached page that maps the low gigabyte to itself, on core 0. -/
def satp1 : Word := 0xA000_1000_0000_0000

def tlb1 : TlbEntry := { cache := 0, part := 1, asid := 1, vpn := 0, pages := 0x40000, ppn := 0, pte := 0xDF, pat := 1, pteAt := 0 }

def base : State := { parts := [(1, p1)], granules := [(0, 0x8000_0000_0002_0000)], tlb := [tlb1], cycle := 1000 }

/-- A solo thread of the context. -/
def th0 : Thread := { part := 1, satp := satp1, st := .ready, pc := 0x400, tid := 7, frame := 0x8000, trap := { hvec := 0x600 } }

/-- The thread in slot 0 of lane 0 of core 0 issues. -/
def onSimt (t : Thread) : State := { base with threads := [(0, t)], cur := { keys := [0], pc := t.pc, bits := 0x3F, len := 8 } }

/-- The hart of the partition issues. -/
def hk : Nat := 0x10_0001

def h1 : Hart := { running := true, mode := .supervisor, part := 1 }

def onHart (h : Hart) (t : Thread) : State :=
  { base with threads := [(hk, t)], harts := [(hk, h)], cur := { keys := [hk], pc := t.pc, bits := 0x13, len := 4 } }


/-- A read or a translation that succeeds answers a value and a state. -/
theorem exists_ok {α : Type} {e : Except Flt α × State} (h : e.1.isOk = true) : ∃ a s, e = (.ok a, s) := by
  obtain ⟨e | a, s⟩ := e
  · cases h
  · exact ⟨a, s, rfl⟩

/-- A core of the partition that a descriptor of at most four threads fits gives an unhinted request its place. -/
theorem place_of_fit {s : State} {p c : Nat} {d : Desc} {away : Nat → Nat} (hc : c ∈ coresOf s p) (hh : d.hint = 0) (h4 : d.l4 ≤ 4)
    (hl : ∀ l < 4, ((List.range d.l4).filter fun i => i % 64 = l).length ≤ (laneFree (idleSlots s c) l).length)
    (hs : ∀ t ∈ s.teams, placed t = false) (hq : d.scrpg ≤ 192 ∧ d.tiles ≤ 32 ∧ d.syncs ≤ 64 ∧ d.accs ≤ 32)
    (hr : (Machine.core s c).rlocks = []) (ha : away c = 0) : ∃ c, hintPlace s p d away = some c := by
  have hn : ∀ f : Team → Bool, (s.teams.filter fun t => placed t && f t) = [] := fun f =>
    List.filter_eq_nil_iff.2 fun t ht => by simp [hs t ht]
  have hf : fits s d (away c) c = true := by
    simp only [fits, hn, hr, ha, List.filter_nil, List.map_nil, List.sum_nil, List.length_nil, Bool.and_eq_true, List.all_eq_true,
      decide_eq_true_eq, List.mem_range]
    refine ⟨⟨⟨⟨⟨⟨fun l _ => ?_, by omega⟩, by omega⟩, by omega⟩, by omega⟩, by omega⟩, by omega⟩
    by_cases h : l < 4
    · exact hl l h
    · rw [List.filter_eq_nil_iff.2 (by intro i hi; have := List.mem_range.1 hi; simp; omega)]
      exact Nat.zero_le _
  have key : ∀ L : List Nat, c ∈ L → ∃ c', mostFree s (L.filter fun c => fits s d (away c) c) = some c' := by
    intro L hL
    cases e : L.filter (fun c => fits s d (away c) c) with
    | nil =>
      have m : c ∈ L.filter (fun c => fits s d (away c) c) := List.mem_filter.2 ⟨hL, hf⟩
      rw [e] at m
      cases m
    | cons a l =>
      simp only [mostFree]
      split
      · exact ⟨_, rfl⟩
      · split <;> exact ⟨_, rfl⟩
  obtain ⟨c', h'⟩ := key _ hc
  exact ⟨c', by simp [hintPlace, hh, h']⟩

/-- An image that its team's frame holds loads where its team finds a place. -/
theorem load_of_place {s : State} {p asid : Nat} {f h : Word} {t : Team} (h0 : h = 0)
    (h1 : (f.toNat % 4096 ≠ 0 || !inRanges s p f.toNat 64 || !bit (rdWord s f.toNat) 63 || bits (rdWord s (f.toNat + 16)) 18 16 ≠ p ||
      bits (rdWord s (f.toNat + 16)) 15 0 ≠ asid) = false)
    (h2 : team? s p asid (bits (rdWord s f.toNat) 11 0) = some t)
    (h3 : t.st = .saved ∧ t.serial = bits (rdWord s (f.toNat + 8)) 47 16 ∧ t.frame = f.toNat)
    (h4 : ∃ c, hintPlace s p t.desc (fun c => (foreignCopies s t c).length) = some c) :
    ∃ c, loadCheck s p asid f h = .ok (t, c) := by
  subst h0
  obtain ⟨c, hc⟩ := h4
  refine ⟨c, ?_⟩
  simp only [loadCheck, h1, h2, h3]
  simp [loadPlace, hc]


theorem all_mem {L : List Word} {P : Word → Prop} [DecidablePred P] (h : (L.all fun a => P a) = true) : ∀ a ∈ L, P a :=
  fun a ha => of_decide_eq_true (List.all_eq_true.1 h a ha)

theorem stands_of {s : State} (h : (s.threads.all fun x => match x.2.wait with
    | .lace e _ j => (eyelet s e).st ≠ 0 && (eyelet s e).st ≠ 3 && (eyelet s e).joins = j
    | .lamo e _ => (eyelet s e).st ≠ 0 && (eyelet s e).st ≠ 3 | _ => true) = true) : LaceWaitsStand s := by
  intro x hx e n
  have := List.all_eq_true.1 h x hx
  exact ⟨fun j hw => by simpa [hw, and_assoc] using this, fun hw => by simpa [hw] using this⟩

theorem reads_of {s : State} {c : Copy} {a : Word} {bs : List Byte}
    (h : (let r := copyReach s c a (copyEs c.maj c.fn c.layout) false
          a.toNat % copyEs c.maj c.fn c.layout = 0 ∧ (match r.1 with
            | .ok (.mem p q) => !managed q && bs = rdBytes r.2 p (copyEs c.maj c.fn c.layout) | _ => false) = true)) :
    ReadsSource s c (some a) bs (copyReach s c a (copyEs c.maj c.fn c.layout) false).2 := by
  obtain ⟨h1, h2⟩ := h
  refine ⟨h1, ?_⟩
  generalize copyReach s c a (copyEs c.maj c.fn c.layout) false = r at h2 ⊢
  obtain ⟨(e | l), t⟩ := r
  · simp at h2
  · cases l with
    | mem p q => exact ⟨p, q, rfl, by simpa using h2⟩
    | _ => simp at h2

theorem noRoom_of {l : List (Nat × Thread)} (h : (l.all fun x => match x.2.wait with | .room _ => false | _ => true) = true) :
    ∀ x ∈ l, ∀ r : Room, x.2.wait ≠ .room r := by
  intro x hx r e
  have := List.all_eq_true.1 h x hx
  rw [e] at this
  cases this

theorem mailbox_of {l : List (Nat × Thread)} {j : Nat}
    (h : (l.all fun x => match x.2.wait with | .none => true | .mailbox _ _ => x.1 = j | _ => false) = true) :
    ∀ x ∈ l, x.2.wait = .none ∨ x.1 = j ∧ ∃ c n, x.2.wait = .mailbox c n := by
  intro x hx
  have := List.all_eq_true.1 h x hx
  split at this
  · exact .inl ‹_›
  · exact .inr ⟨by simpa using this, _, _, ‹_›⟩
  · cases this

theorem unmanaged_of {ls : List (Loc × Nat)}
    (h : (ls.all fun x => match x.1 with | .mem _ pat => !managed pat | _ => true) = true) : Unmanaged ls := by
  intro x hx pa pat e
  have := List.all_eq_true.1 h x hx
  rw [e] at this
  simpa using this

/-! Worked examples of the spec. -/

/-- Register `d` of key `k` after the instruction, 0 where it gives no next state. -/
def regAfter (i : Instr) (s : State) (k d : Nat) : Word :=
  match exec i s with
  | .next t => getReg (thr t k) d
  | _ => 0

/-- spec/10_lane.md: three planes, centred at grind 3, are stored as i8. -/
theorem test_pgrind :
    regAfter (.pgrind ⟨2, 1, 0x39, 0, 0, 5, false, 10, true⟩) (onSimt { th0 with x := [(5, 2), (6, 1)] }) 0 10
      = 0x0101_0101_0101_F905 := by decide +kernel

/-- spec/10_lane.md: their dot product with the activations 2, 1, 3 and an accumulator of 100, through latch l1. -/
theorem test_pidot :
    regAfter (.pidot ⟨0, 0, 0x1C, 9, 8, 65, false, 11, false⟩)
      (onSimt { th0 with x := [(8, 0x0003_0102), (9, 100)], chain := { l1 := 0x0101_0101_0101_F905, lv := 2 } }) 0 11 = 106 := by
  decide +kernel

/-- spec/06_gang.md: a gang of 14 threads and two helpers, 3i in x10 and the lowest bit of i in x13. -/
def gang16 : State :=
  { base with
    threads := (List.range 16).map fun i =>
      (16 * i, { th0 with x := [(10, w64 (3 * i)), (13, w64 (i % 2))], team := 3, gangw := 16, tidx := i, helper := 14 ≤ i })
    teams := [{ part := 1, asid := 1, num := 3, st := .resident, count := 14
                desc := { limit := 4, gw := 16, syncs := 2, tiles := 4, accs := 2, scrpg := 1, frames := 0x9000 }
                members := (List.range 16).map fun i => (i, { loc := .here, helper := 14 ≤ i, frame := 0x9000 + 1024 * i }) }]
    cur := { keys := (List.range 16).map (16 * ·), pc := 0x400, bits := 0x3F, len := 8 } }

/-- The sum leaves the helpers out, and every member has it. -/
theorem test_gred : ∀ i < 16, regAfter (.gred (wd 11 10 0 0)) gang16 (16 * i) 11 = 0x111 := by decide +kernel

/-- The ballot of the odd threads leaves helper 15 out. -/
theorem test_gvote : ∀ i < 16, regAfter (.gvote { wd 12 13 0 0 with fn := 2 }) gang16 (16 * i) 12 = 0x2AAA := by decide +kernel

/-- Position 13 reads helper 14, and position 15 keeps its own value. -/
theorem test_gshfl :
    [0, 1, 13, 14, 15].map (fun i => regAfter (.gshfl { wd 14 10 0 0 with fn := 2, imm11 := 1 }) gang16 (16 * i) 14)
      = [3, 6, 0x2A, 0x2D, 0x2D] := by decide +kernel

/-! `Obligations.StepRunsDecoded`: a hart, a cobbler core and a SIMT core that fetch a `nop`. -/

def nop : Instr := .standardInstruction (.alui .addi 0 0 0)

def nopAt (a : Word) : RawWord := ⟨a, 0x13, 4⟩

def hartReady : State := { wrWord (onHart h1 th0) 0x400 0x13 with focus := hk, cur := {} }

def simtReady : State := { wrWord (onSimt th0) 0x400 0x13 with focus := 0, cur := {} }

def cobReady : State :=
  { base with
    threads := [(0x20_0000, { th0 with pc := 0 })]
    focus := cobKey 0
    slices := [(0, { sets := [(0, { (default : CobBind) with slen := 1, budget := 9 })], region := [(0, 0x13)]
                     run := some default })] }

theorem test_premises_StepRunsDecoded_hart :
    (hartReady.turns = [] ∧ hartReady.boot.powered = true ∧ hartReady.focus = hk ∧ isHart hk = true ∧ hartIrq hartReady hk = none ∧
      (hart hartReady hk).running = true ∧ (thr hartReady hk).wait = .none ∧ asyncTrap hartReady hk = none) ∧
    ∃ s1, Fetches hartReady [hk] (nopAt 0x400) nop [] false s1 :=
  ⟨by decide +kernel,
   ⟨_, [nopAt 0x400], .done, false, Prod.ext (by decide +kernel) rfl, by decide +kernel⟩⟩

theorem test_premises_StepRunsDecoded_cobbler :
    (cobReady.turns = [] ∧ cobReady.boot.powered = true ∧ cobReady.focus = cobKey 0 ∧ 0 < 0x20_0000 ∧ (slice cobReady 0).run ≠ none) ∧
    ∃ s1 s2, Fetches cobReady [cobKey 0] (nopAt 0) nop [] false s1 ∧
      payCycle (issueAt s1 [cobKey 0] (nopAt 0) [] false) 0 nop = (true, s2) :=
  ⟨by decide +kernel,
   ⟨_, _, ⟨[nopAt 0], .done, false, Prod.ext (by decide +kernel) rfl, by decide +kernel⟩,
    Prod.ext (by decide +kernel) rfl⟩⟩

theorem test_premises_StepRunsDecoded_simt :
    (simtReady.turns = [] ∧ simtReady.boot.powered = true ∧ simtReady.focus = 0 ∧ isSimt 0 = true ∧ coreOf 0 = 0 ∧
      (onCore simtReady 0).findSome? (asyncTrap simtReady) = none ∧ (onCore simtReady 0).filter (canIssue simtReady) ≠ []) ∧
    ∃ ks s1 s2 s3,
      chooseGroup (formerUpdate simtReady 0 ((onCore simtReady 0).filter (canIssue simtReady))) 0
        ((onCore simtReady 0).filter (canIssue simtReady)) = (0 :: ks, s1) ∧
      experiment s1 0 (0 :: ks) = (true, s2) ∧ Fetches s2 (0 :: ks) (nopAt 0x400) nop [] false s3 :=
  ⟨by decide +kernel,
   ⟨[], _, _, _, Prod.ext (by decide +kernel) rfl, Prod.ext (by decide +kernel) rfl, [nopAt 0x400], .done, false,
    Prod.ext (by decide +kernel) rfl, by decide +kernel⟩⟩

end Sys2Proof.Tests

/-! Encodings, lane and gang instructions. -/

namespace Sys2Proof.Tests.Enc

open Sys2Proof.Machine

def wMul : Wide := ⟨0, 1, 0, 0, 34, 33, false, 36, true⟩

def wMig : Wide := ⟨0, 0, 0, 0, 0, 11, false, 10, false⟩

def slotA : PairSlot := ⟨0, 11, 10, .add2⟩

def slotB : PairSlot := ⟨5, 0, 13, .addi2⟩

def w1 : Wide := wd 10 11 12 13

def sEv : State := { base with turns := [.event (.thermalThrottle 0)] }

def sTm : State := { base with turns := [.time 4096] }

def v1 := { State.reset with boot := { State.reset.boot with powered := false } }

def sH0 : State := { wrWord (onHart h1 { th0 with pc := 0x400 }) 0x400 0x13 with focus := hk, cur := {} }

def word13 : RawWord := ⟨0x400, 0x13, 4⟩

def v2 := { sH0 with cur := { keys := [hk], pc := 0x400, bits := 0, len := 8 } }

def sL : State :=
  { base with threads := [(0, {th0 with x := [(11, 5), (12, 0xFFFF_FFFF)], lfsr := 9})], cur := { keys := [0], pc := 0x400, bits := 0x3F, len := 8 } }

def v3 := { w1 with fn := 0x18 }

def v4 := intLanes v3 fun a b => a + b

def wf1 : Wide := { wd 36 33 34 0 with fn := 0 }

def sLT : State := onSimt { th0 with f := [(1, 0x7F80_0000_7F80_0000), (2, 0)], qflags := 0x1000 }

def v5 := floatLanes wf1 fun a b _ => fmul a b

def v6 := {th0 with x := [(11, 5), (12, 6)]}

def v7 := {th0 with x := [(11, 0x7FFF_FFFF), (12, 6)]}

def v8 := { w1 with fn := 0x19 }

def v9 := {th0 with x := [(11, 0x8000_0000), (12, 0xFFFF_FFFF)]}

def v10 := {th0 with x := [(11, 5), (12, 33), (13, 1)]}

def v11 := {th0 with x := [(11, 0x8000_0005), (12, 33), (13, 1)]}

def v12 := { w1 with fn := 0 }

def v13 := {th0 with x := [(11, 0x0102030405060708), (12, 0x1112131415161718), (13, 0x80FF0F080701007F)]}

def sG : State :=
  { onSimt { th0 with x := [(11, 5), (12, 1)], team := 3, gangw := 16, tidx := 0 } with teams := [{ part := 1, asid := 1, num := 3, st := .resident, desc := { limit := 4, gw := 16, syncs := 2, tiles := 4, accs := 2, scrpg := 1, frames := 0x9000 }, count := 1, members := [(0, { loc := .here, frame := 0x8000 })] }] }

def wgv : Wide := { wd 12 13 0 0 with fn := 2 }

def tcv (i : Nat) (pc : Word) : Thread :=
  { th0 with pc := pc, team := 3, gangw := 16, tidx := i, x := [(12, 7), (13, 1)] }

def mcv (l : List Nat) : Machine.Team :=
  { part := 1, asid := 1, num := 3, st := .resident, count := 2
    desc := { limit := 4, gw := 16, syncs := 2, tiles := 4, accs := 2, scrpg := 1, frames := 0x9000 }
    members := l.map fun i => (i, { loc := .here, frame := 0x9000 + 1024 * i }) }

/-- A core whose threads may reach a `gvote` at 0x400. -/

def sCv (ts : List (Nat × Thread)) (l : List Nat) : State :=
  { wrWord base 0x400 (wideWord 0x22 wgv) with threads := ts, teams := [mcv l], focus := 0, cur := {} }

def grp (s : State) : List Nat × State :=
  chooseGroup (formerUpdate s 0 ((onCore s 0).filter (canIssue s))) 0 ((onCore s 0).filter (canIssue s))

def fet (s : State) (l : List Nat) : State := (gatherFor (fetchAt (grp s).2 l) l).2

def wcv : RawWord := ⟨0x400, wideWord 0x22 wgv, 8⟩

def sWhole : State := sCv [(0, tcv 0 0x400), (16, tcv 1 0x400)] [0, 1]

def sApart : State := sCv [(0, tcv 0 0x400), (16, { tcv 1 0x700 with age := 5 })] [0, 1]

def sLast : State := sCv [(0, tcv 0 0x400), (16, { tcv 1 0x400 with st := .blocked, wait := .converge 0x400 })] [0,
  1]

def sElse : State := sCv [(0, tcv 0 0x400), (16, { tcv 1 0x700 with st := .blocked, wait := .converge 0x700 })] [0,
  1]

def sAlone : State := sCv [(0, { tcv 0 0x400 with team := 0 })] []

def wmw : Wide := wd 0 0 0 0

def sStr : State :=
  { sCv [(0, tcv 0 0x400), (16, tcv 1 0x400)] [0, 1] with mem := (wrWord base 0x400 (wideWord 0x67 wmw)).mem }

def tfl : Thread :=
  { th0 with x := [(11, 0x7F80_3C00_BF80_7FC1), (12, 0x3F80_7E01_FF80_0001), (13, 0x7FFF_FFF0_8000_0005)] }

/-- States and operands that meet the premises of `Obligations.FullFormFields`, each of its cases in turn. -/
theorem test_premises_FullFormFields :
    ((bits (BitVec.ofNat 64 2251873386497343) 7 0 = 63) ∧ (decode (BitVec.ofNat 64 2251873386497343) = Except.ok
      (Instr.pfmul wMul, 8))) := by decide +kernel

/-- States and operands that meet the premises of `Obligations.WideRoundTrip`, each of its cases in turn. -/
theorem test_premises_WideRoundTrip :
    (((Instr.mig wMig).wf = true) ∧ (wideOf? (Instr.mig wMig) = some ((48 : BitVec 8), wMig))) ∧
    ((Instr.pairWord false slotA slotB).wf = true) :=
  by decide +kernel

/-- States and operands that meet the premises of `Obligations.StandardRoundTrip`, each of its cases in turn. -/
theorem test_premises_StandardRoundTrip :
    (((Instr.standardInstruction (Std.alu AluOp.add (10 : BitVec 5) (10 : BitVec 5) (11 : BitVec 5))).wf = true) ∧
      (wideOf? (Instr.standardInstruction (Std.alu AluOp.add (10 : BitVec 5) (10 : BitVec 5) (11 : BitVec 5))) =
      none) ∧ (∀ (h : Bool) (p0 p1 : PairSlot), Instr.standardInstruction (Std.alu AluOp.add (10 : BitVec 5) (10 :
      BitVec 5) (11 : BitVec 5)) ≠ Instr.pairWord h p0 p1) ∧ (encode (Instr.standardInstruction (Std.alu AluOp.add
      (10 : BitVec 5) (10 : BitVec 5) (11 : BitVec 5))) = some (BitVec.ofNat 64 11863347, 4))) := by
  refine ⟨?_, ?_, (fun _ _ _ e => nomatch e), ?_⟩ <;> decide +kernel

/-- States and operands that meet the premises of `Obligations.ReservedEncodingsRefused`, each of its cases in turn. -/
theorem test_premises_ReservedEncodingsRefused :
    (bits (BitVec.ofNat 64 31) 5 0 = 31 ∨ bits (BitVec.ofNat 64 31) 6 0 = 127) ∧
    (bits (BitVec.ofNat 64 127) 5 0 = 31 ∨ bits (BitVec.ofNat 64 127) 6 0 = 127) ∧
    ((bits (BitVec.ofNat 64 130623) 7 0 = 63) ∧ (major? (BitVec.extractLsb' 9 8 (BitVec.ofNat 64 130623)) = none)) ∧
    ((bits (BitVec.ofNat 64 65215) 7 0 = 191) ∧ (pairOp? (bits (BitVec.ofNat 64 65215) 15 9) = none)) ∧
    ((bits (BitVec.ofNat 64 8727373545663) 7 0 = 191) ∧ (pairOp? (bits (BitVec.ofNat 64 8727373545663) 15 9) ≠ none)
      ∧ (pairOp? (bits (BitVec.ofNat 64 8727373545663) 42 36) = none)) :=
  by decide +kernel

/-- States and operands that meet the premises of `Obligations.TurnsRunAndStops`, each of its cases in turn. -/
theorem test_premises_TurnsRunAndStops :
    ((sEv.boot.powered = true) ∧ (sEv.turns = [Turn.event (Instr.thermalThrottle 0)])) ∧
    ((sTm.boot.powered = true) ∧ (sTm.turns = [Turn.time 4096])) ∧
    (step v1 = Host.Outcome.fault Fault.noPower) ∧
    (step base = Host.Outcome.fault Fault.idle) :=
  ⟨by decide +kernel,
   by decide +kernel,
   rfl,
   rfl⟩

/-- States and operands that meet the premises of `Obligations.LegalWordFetches`, each of its cases in turn. -/
theorem test_premises_LegalWordFetches :
    ((∀ j ∈ [hk], (thr sH0 j).chain.words = []) ∧ (fetchOne (fetchAt sH0 [hk]) hk (thr sH0 hk).pc = (Except.ok
      (word13.bits, word13.len), v2)) ∧ (word13.addr = (thr sH0 hk).pc) ∧ (lengthOf word13.bits = some 8 → bit
      word13.bits 8 = false) ∧ (decode word13.bits = Except.ok (Instr.standardInstruction (Std.alui AluImmOp.addi (0
      : BitVec 5) (0 : BitVec 5) (0 : BitVec 12)), word13.len)) ∧ (∀ j ∈ [hk], jctx v2 j = jctx v2 hk) ∧ (∀ j ∈
      [hk], (thr v2 j).chain.words = []) ∧ (wordReason (jctx v2 hk) (jctx v2 hk).lv false word13 = none) ∧
      (wrongSide (coreType hk) (Instr.standardInstruction (Std.alui AluImmOp.addi (0 : BitVec 5) (0 : BitVec 5) (0 :
      BitVec 12))) = false)) ∧
    ((sAlone.turns = []) ∧ (sAlone.boot.powered = true) ∧ (isSimt sAlone.focus = true) ∧ (coreOf sAlone.focus =
      coreOf 0) ∧ (isSimt 0 = true) ∧ (List.findSome? (asyncTrap sAlone) (onCore sAlone (coreOf 0)) = none) ∧
      (List.filter (canIssue sAlone) (onCore sAlone (coreOf 0)) ≠ []) ∧ (chooseGroup (formerUpdate sAlone (coreOf 0)
      (List.filter (canIssue sAlone) (onCore sAlone (coreOf 0)))) (coreOf 0) (List.filter (canIssue sAlone) (onCore
      sAlone (coreOf 0))) = ([0], (grp sAlone).2)) ∧ (Fetches (grp sAlone).2 [0] wcv (Instr.gvote wgv) [] true (fet
      sAlone [0])) ∧ (∀ j ∈ [0], inChain (fet sAlone [0]) j = false) ∧ (∀ j ∈ onCore (fet sAlone [0]) (coreOf 0),
      canIssue (fet sAlone [0]) j = true → formerKey (fet sAlone [0]) j = formerKey (fet sAlone [0]) 0 → j ∈ [0]) ∧
      (([] : List RawWord) = []) ∧ ((thr (fet sAlone [0]) 0).team = 0) ∧ (isSimt 0 = true ∧ (thr (fet sAlone [0])
      0).helper = false ∧ (thr (fet sAlone [0]) 0).trap.inh = false ∧ (thr (fet sAlone [0]) 0).trap.hvec ≠ 0 ∧ (thr
      (fet sAlone [0]) 0).ops = [])) ∧
    ((sStr.turns = []) ∧ (sStr.boot.powered = true) ∧ (isSimt sStr.focus = true) ∧ (coreOf sStr.focus = coreOf 0) ∧
      (isSimt 0 = true) ∧ (List.findSome? (asyncTrap sStr) (onCore sStr (coreOf 0)) = none) ∧ (List.filter (canIssue
      sStr) (onCore sStr (coreOf 0)) ≠ []) ∧ (chooseGroup (formerUpdate sStr (coreOf 0) (List.filter (canIssue sStr)
      (onCore sStr (coreOf 0)))) (coreOf 0) (List.filter (canIssue sStr) (onCore sStr (coreOf 0))) = ([0, 16], (grp
      sStr).2)) ∧ (Fetches (grp sStr).2 [0, 16]
      { addr := 1024, bits := wideWord (103 : BitVec 8) wmw, len := 8 : RawWord } (Instr.trel wmw) [] true (fet sStr
      [0, 16])) ∧ (∀ j ∈ [0, 16], inChain (fet sStr [0, 16]) j = false) ∧ (∀ j ∈ onCore (fet sStr [0, 16]) (coreOf
      0), canIssue (fet sStr [0, 16]) j = true → formerKey (fet sStr [0, 16]) j = formerKey (fet sStr [0, 16]) 0 → j
      ∈ [0, 16]) ∧ (teamK? (fet sStr [0, 16]) 0 = some (mcv [0, 1])) ∧ (∀ j ∈ [0, 16], (thr (fet sStr [0, 16])
      j).team = (thr (fet sStr [0, 16]) 0).team ∧ gangNo (thr (fet sStr [0, 16]) j) = 0 ∧ ∃ n ∈ List.filter (posLive
      (mcv [0, 1])) (gangIdx (mcv [0, 1]) 0), (member (mcv [0, 1]) n).loc = MWhere.here ∧ memberKey (mcv [0, 1]) n =
      j) ∧ (([] : List RawWord) = []) ∧ (isStrict (Instr.trel wmw) = true) ∧ (strictBad (mcv [0, 1]) 0 = true) ∧
      ([0, 16].Nodup) ∧ (∀ j ∈ [0, 16], isSimt j = true ∧ (thr (fet sStr [0, 16]) j).helper = false ∧ (thr (fet sStr
      [0, 16]) j).trap.inh = false ∧ (thr (fet sStr [0, 16]) j).trap.hvec ≠ 0 ∧ (thr (fet sStr [0, 16]) j).ops =
      [])) ∧
    ((sWhole.turns = []) ∧ (sWhole.boot.powered = true) ∧ (isSimt sWhole.focus = true) ∧ (coreOf sWhole.focus =
      coreOf 0) ∧ (isSimt 0 = true) ∧ (List.findSome? (asyncTrap sWhole) (onCore sWhole (coreOf 0)) = none) ∧
      (List.filter (canIssue sWhole) (onCore sWhole (coreOf 0)) ≠ []) ∧ (chooseGroup (formerUpdate sWhole (coreOf 0)
      (List.filter (canIssue sWhole) (onCore sWhole (coreOf 0)))) (coreOf 0) (List.filter (canIssue sWhole) (onCore
      sWhole (coreOf 0))) = ([0, 16], (grp sWhole).2)) ∧ (Fetches (grp sWhole).2 [0, 16] wcv (Instr.gvote wgv) []
      true (fet sWhole [0, 16])) ∧ (∀ j ∈ [0, 16], inChain (fet sWhole [0, 16]) j = false) ∧ (∀ j ∈ onCore (fet
      sWhole [0, 16]) (coreOf 0), canIssue (fet sWhole [0, 16]) j = true → formerKey (fet sWhole [0, 16]) j =
      formerKey (fet sWhole [0, 16]) 0 → j ∈ [0, 16]) ∧ (teamK? (fet sWhole [0, 16]) 0 = some (mcv [0, 1])) ∧ (∀ j ∈
      [0, 16], (thr (fet sWhole [0, 16]) j).team = (thr (fet sWhole [0, 16]) 0).team ∧ gangNo (thr (fet sWhole [0,
      16]) j) = 0 ∧ ∃ n ∈ List.filter (posLive (mcv [0, 1])) (gangIdx (mcv [0, 1]) 0), (member (mcv [0, 1]) n).loc =
      MWhere.here ∧ memberKey (mcv [0, 1]) n = j) ∧ (strictBad (mcv [0, 1]) 0 = false ∨ ([] : List RawWord) = [] ∧
      isStrict (Instr.gvote wgv) = false) ∧ (gangWhole (mcv [0, 1]) 0 [0, 16] = true) ∧ (byLane (liveKeys (mcv [0,
      1]) 0) = [0, 16]) ∧ (oldestGroup (fet sWhole [0, 16]) [liveKeys (mcv [0, 1]) 0] = (liveKeys (mcv [0, 1]) 0,
      (oldestGroup (fet sWhole [0, 16]) [[0, 16]]).2)) ∧ (∀ j ∈ [0, 16], j ∈ onCore (fet sWhole [0, 16]) (coreOf 0)
      ∧ canIssue (fet sWhole [0, 16]) j = true ∧ formerKey (fet sWhole [0, 16]) j = formerKey (fet sWhole [0, 16])
      0) ∧ (experiment (issueAt (oldestGroup (fet sWhole [0, 16]) [[0, 16]]).2 [0, 16] wcv [] true) (coreOf 0) [0,
      16] = (true, (experiment (issueAt (oldestGroup (fet sWhole [0, 16]) [[0, 16]]).2 [0, 16] wcv [] true) 0 [0,
      16]).2))) ∧
    ((sApart.turns = []) ∧ (sApart.boot.powered = true) ∧ (isSimt sApart.focus = true) ∧ (coreOf sApart.focus =
      coreOf 0) ∧ (isSimt 0 = true) ∧ (List.findSome? (asyncTrap sApart) (onCore sApart (coreOf 0)) = none) ∧
      (List.filter (canIssue sApart) (onCore sApart (coreOf 0)) ≠ []) ∧ (chooseGroup (formerUpdate sApart (coreOf 0)
      (List.filter (canIssue sApart) (onCore sApart (coreOf 0)))) (coreOf 0) (List.filter (canIssue sApart) (onCore
      sApart (coreOf 0))) = ([0], (grp sApart).2)) ∧ (Fetches (grp sApart).2 [0] wcv (Instr.gvote wgv) [] true (fet
      sApart [0])) ∧ (∀ j ∈ [0], inChain (fet sApart [0]) j = false) ∧ (∀ j ∈ onCore (fet sApart [0]) (coreOf 0),
      canIssue (fet sApart [0]) j = true → formerKey (fet sApart [0]) j = formerKey (fet sApart [0]) 0 → j ∈ [0]) ∧
      (teamK? (fet sApart [0]) 0 = some (mcv [0, 1])) ∧ (∀ j ∈ [0], (thr (fet sApart [0]) j).team = (thr (fet sApart
      [0]) 0).team ∧ gangNo (thr (fet sApart [0]) j) = 0 ∧ ∃ n ∈ List.filter (posLive (mcv [0, 1])) (gangIdx (mcv
      [0, 1]) 0), (member (mcv [0, 1]) n).loc = MWhere.here ∧ memberKey (mcv [0, 1]) n = j) ∧ (strictBad (mcv [0,
      1]) 0 = false ∨ ([] : List RawWord) = [] ∧ isStrict (Instr.gvote wgv) = false) ∧ (∃ n ∈ List.filter (posLive
      (mcv [0, 1])) (gangIdx (mcv [0, 1]) 0), canIssue (fet sApart [0]) (memberKey (mcv [0, 1]) n) = false ∨
      formerKey (fet sApart [0]) (memberKey (mcv [0, 1]) n) ≠ formerKey (fet sApart [0]) 0) ∧ (∀ y ∈ convWaiters
      (fet sApart [0]) (mcv [0, 1]) 0, y.2 = wcv.addr) ∧ (∃ n ∈ List.filter (posLive (mcv [0, 1])) (gangIdx (mcv [0,
      1]) 0), memberKey (mcv [0, 1]) n ∉ [0] ∧ ∀ (x : Word), (thr (fet sApart [0]) (memberKey (mcv [0, 1]) n)).wait
      ≠ Wait.converge x)) ∧
    ((sLast.turns = []) ∧ (sLast.boot.powered = true) ∧ (isSimt sLast.focus = true) ∧ (coreOf sLast.focus = coreOf
      0) ∧ (isSimt 0 = true) ∧ (List.findSome? (asyncTrap sLast) (onCore sLast (coreOf 0)) = none) ∧ (List.filter
      (canIssue sLast) (onCore sLast (coreOf 0)) ≠ []) ∧ (chooseGroup (formerUpdate sLast (coreOf 0) (List.filter
      (canIssue sLast) (onCore sLast (coreOf 0)))) (coreOf 0) (List.filter (canIssue sLast) (onCore sLast (coreOf
      0))) = ([0], (grp sLast).2)) ∧ (Fetches (grp sLast).2 [0] wcv (Instr.gvote wgv) [] true (fet sLast [0])) ∧ (∀
      j ∈ [0], inChain (fet sLast [0]) j = false) ∧ (∀ j ∈ onCore (fet sLast [0]) (coreOf 0), canIssue (fet sLast
      [0]) j = true → formerKey (fet sLast [0]) j = formerKey (fet sLast [0]) 0 → j ∈ [0]) ∧ (teamK? (fet sLast [0])
      0 = some (mcv [0, 1])) ∧ (∀ j ∈ [0], (thr (fet sLast [0]) j).team = (thr (fet sLast [0]) 0).team ∧ gangNo (thr
      (fet sLast [0]) j) = 0 ∧ ∃ n ∈ List.filter (posLive (mcv [0, 1])) (gangIdx (mcv [0, 1]) 0), (member (mcv [0,
      1]) n).loc = MWhere.here ∧ memberKey (mcv [0, 1]) n = j) ∧ (strictBad (mcv [0, 1]) 0 = false ∨ ([] : List
      RawWord) = [] ∧ isStrict (Instr.gvote wgv) = false) ∧ (∃ n ∈ List.filter (posLive (mcv [0, 1])) (gangIdx (mcv
      [0, 1]) 0), canIssue (fet sLast [0]) (memberKey (mcv [0, 1]) n) = false ∨ formerKey (fet sLast [0]) (memberKey
      (mcv [0, 1]) n) ≠ formerKey (fet sLast [0]) 0) ∧ (∀ y ∈ convWaiters (fet sLast [0]) (mcv [0, 1]) 0, y.2 =
      wcv.addr ∧ (thr (fet sLast [0]) y.1).st = TState.blocked) ∧ (∀ n ∈ List.filter (posLive (mcv [0, 1])) (gangIdx
      (mcv [0, 1]) 0), (member (mcv [0, 1]) n).loc = MWhere.here ∧ (memberKey (mcv [0, 1]) n ∈ [0] ∨ ∃ y ∈
      convWaiters (fet sLast [0]) (mcv [0, 1]) 0, y.1 = memberKey (mcv [0, 1]) n))) ∧
    ((sElse.turns = []) ∧ (sElse.boot.powered = true) ∧ (isSimt sElse.focus = true) ∧ (coreOf sElse.focus = coreOf
      0) ∧ (isSimt 0 = true) ∧ (List.findSome? (asyncTrap sElse) (onCore sElse (coreOf 0)) = none) ∧ (List.filter
      (canIssue sElse) (onCore sElse (coreOf 0)) ≠ []) ∧ (chooseGroup (formerUpdate sElse (coreOf 0) (List.filter
      (canIssue sElse) (onCore sElse (coreOf 0)))) (coreOf 0) (List.filter (canIssue sElse) (onCore sElse (coreOf
      0))) = ([0], (grp sElse).2)) ∧ (Fetches (grp sElse).2 [0] wcv (Instr.gvote wgv) [] true (fet sElse [0])) ∧ (∀
      j ∈ [0], inChain (fet sElse [0]) j = false) ∧ (∀ j ∈ onCore (fet sElse [0]) (coreOf 0), canIssue (fet sElse
      [0]) j = true → formerKey (fet sElse [0]) j = formerKey (fet sElse [0]) 0 → j ∈ [0]) ∧ (teamK? (fet sElse [0])
      0 = some (mcv [0, 1])) ∧ (∀ j ∈ [0], (thr (fet sElse [0]) j).team = (thr (fet sElse [0]) 0).team ∧ gangNo (thr
      (fet sElse [0]) j) = 0 ∧ ∃ n ∈ List.filter (posLive (mcv [0, 1])) (gangIdx (mcv [0, 1]) 0), (member (mcv [0,
      1]) n).loc = MWhere.here ∧ memberKey (mcv [0, 1]) n = j) ∧ (strictBad (mcv [0, 1]) 0 = false ∨ ([] : List
      RawWord) = [] ∧ isStrict (Instr.gvote wgv) = false) ∧ (∃ n ∈ List.filter (posLive (mcv [0, 1])) (gangIdx (mcv
      [0, 1]) 0), canIssue (fet sElse [0]) (memberKey (mcv [0, 1]) n) = false ∨ formerKey (fet sElse [0]) (memberKey
      (mcv [0, 1]) n) ≠ formerKey (fet sElse [0]) 0) ∧ (∃ y ∈ convWaiters (fet sElse [0]) (mcv [0, 1]) 0, y.2 ≠
      wcv.addr) ∧ (((convWaiters (fet sElse [0]) (mcv [0, 1]) 0).map Prod.fst ++ [0]).Nodup) ∧ (∀ j ∈ (convWaiters
      (fet sElse [0]) (mcv [0, 1]) 0).map Prod.fst ++ [0], isSimt j = true ∧ (thr (fet sElse [0]) j).helper = false
      ∧ (thr (fet sElse [0]) j).trap.inh = false ∧ (thr (fet sElse [0]) j).trap.hvec ≠ 0 ∧ (thr (fet sElse [0])
      j).ops = [])) :=
  ⟨by decide +kernel,
   ⟨by decide +kernel, by decide +kernel, by decide +kernel, by decide +kernel, by decide +kernel, by decide +kernel, by decide +kernel, by decide +kernel, ⟨[wcv], .done, false, Prod.ext (by decide +kernel) rfl, by decide +kernel⟩, by decide +kernel, by decide +kernel, by decide +kernel, by decide +kernel, by decide +kernel⟩,
   ⟨by decide +kernel, by decide +kernel, by decide +kernel, by decide +kernel, by decide +kernel, by decide +kernel, by decide +kernel, by decide +kernel, ⟨[⟨0x400, wideWord 0x67 wmw, 8⟩], .done, true, Prod.ext (by decide +kernel) rfl, by decide +kernel⟩, by decide +kernel, by decide +kernel, by decide +kernel, by decide +kernel, by decide +kernel, by decide +kernel, by decide +kernel, by decide +kernel, by decide +kernel⟩,
   ⟨by decide +kernel, by decide +kernel, by decide +kernel, by decide +kernel, by decide +kernel, by decide +kernel, by decide +kernel, by decide +kernel, ⟨[wcv], .done, false, Prod.ext (by decide +kernel) rfl, by decide +kernel⟩, by decide +kernel, by decide +kernel, by decide +kernel, by decide +kernel, by decide +kernel, by decide +kernel, by decide +kernel, by decide +kernel, by decide +kernel, by decide +kernel⟩,
   ⟨by decide +kernel, by decide +kernel, by decide +kernel, by decide +kernel, by decide +kernel, by decide +kernel, by decide +kernel, Prod.ext (by decide +kernel) rfl, ⟨[wcv], .done, false, Prod.ext (by decide +kernel) rfl, by decide +kernel⟩, by decide +kernel, by decide +kernel, by decide +kernel, by decide +kernel, by decide +kernel, by decide +kernel, by decide +kernel, ⟨1, by decide +kernel, by decide +kernel, fun x e => nomatch (show Wait.none = Wait.converge x from e)⟩⟩,
   ⟨by decide +kernel, by decide +kernel, by decide +kernel, by decide +kernel, by decide +kernel, by decide +kernel, by decide +kernel, by decide +kernel, ⟨[wcv], .done, false, Prod.ext (by decide +kernel) rfl, by decide +kernel⟩, by decide +kernel, by decide +kernel, by decide +kernel, by decide +kernel, by decide +kernel, by decide +kernel, by decide +kernel, by decide +kernel⟩,
   ⟨by decide +kernel, by decide +kernel, by decide +kernel, by decide +kernel, by decide +kernel, by decide +kernel, by decide +kernel, by decide +kernel, ⟨[wcv], .done, false, Prod.ext (by decide +kernel) rfl, by decide +kernel⟩, by decide +kernel, by decide +kernel, by decide +kernel, by decide +kernel, by decide +kernel, by decide +kernel, by decide +kernel, by decide +kernel, by decide +kernel⟩⟩

/-- States and operands that meet the premises of `Obligations.StepKeepsInv`, each of its cases in turn. -/
theorem test_premises_StepKeepsInv :
    ((Canonical sTm) ∧ (∃ t, step sTm = .next t)) :=
  ⟨by unfold Canonical; decide +kernel, ⟨_, rfl⟩⟩

/-- States and operands that meet the premises of `Obligations.LaneResults`, each of its cases in turn. -/
theorem test_premises_LaneResults :
    ((laneInstr? (Instr.padd v3) = some (v3, v4)) ∧ (sL.cur.keys.Nodup) ∧ (∀ k ∈ sL.cur.keys, isSimt k = true →
      fpTraps (thr sL k) (v4 (thr sL k)).flags = false)) :=
  ⟨rfl, by decide +kernel⟩

/-- States and operands that meet the premises of `Obligations.LaneTrapFollowsResult`, each of its cases in turn. -/
theorem test_premises_LaneTrapFollowsResult :
    ((laneInstr? (Instr.pfmul wf1) = some (wf1, v5)) ∧ (sLT.cur.keys = [0]) ∧ (isSimt 0 = true) ∧ ((thr sLT
      0).helper = false) ∧ ((thr sLT 0).chain.coll = false) ∧ (wf1.h = false) ∧ (fpTraps (thr sLT 0) (v5 (thr sLT
      0)).flags = true) ∧ ((thr sLT 0).trap.hvec ≠ 0) ∧ ((thr sLT 0).trap.inh = false) ∧ ((thr sLT 0).ops = [])) :=
  ⟨rfl, by decide +kernel⟩

/-- States and operands that meet the premises of `Obligations.LaneElements`, each of its cases in turn. -/
theorem test_premises_LaneElements :
    ((0 < fcount v3.fmt) ∧ ((irange v3.fmt).1 ≤ ival v3.fmt (elt (src v6 v3.s1) v3.fmt 0) + ival v3.fmt (elt (src v6
      v3.s2) v3.fmt 0)) ∧ (ival v3.fmt (elt (src v6 v3.s1) v3.fmt 0) + ival v3.fmt (elt (src v6 v3.s2) v3.fmt 0) ≤
      (irange v3.fmt).2)) ∧
    ((0 < fcount v3.fmt) ∧ (v3.md ≠ 1)) ∧
    ((0 < fcount v8.fmt) ∧ (v8.md = 1) ∧ (ival v8.fmt (elt (src v9 v8.s1) v8.fmt 0) + ival v8.fmt (elt (src v9
      v8.s2) v8.fmt 0) < (irange v8.fmt).1)) ∧
    ((0 < fcount v8.fmt) ∧ (v8.md = 1) ∧ ((irange v8.fmt).2 < ival v8.fmt (elt (src v7 v8.s1) v8.fmt 0) + ival
      v8.fmt (elt (src v7 v8.s2) v8.fmt 0))) ∧
    (1 < fcount v3.fmt) ∧
    ((0 < fcount
      { imm11 := w1.imm11, lt := w1.lt, fn := 26, s3 := w1.s3, s2 := w1.s2, s1 := w1.s1, w := w1.w, d := w1.d, h := w1.h : Wide }.fmt)
      ∧
      ({ imm11 := w1.imm11, lt := w1.lt, fn := 26, s3 := w1.s3, s2 := w1.s2, s1 := w1.s1, w := w1.w, d := w1.d, h := w1.h : Wide }.md
      = 2)) ∧
    ((0 < fcount
      { imm11 := w1.imm11, lt := w1.lt, fn := 27, s3 := w1.s3, s2 := w1.s2, s1 := w1.s1, w := w1.w, d := w1.d, h := w1.h : Wide }.fmt)
      ∧
      ({ imm11 := w1.imm11, lt := w1.lt, fn := 27, s3 := w1.s3, s2 := w1.s2, s1 := w1.s1, w := w1.w, d := w1.d, h := w1.h : Wide }.md
      = 3)) ∧
    ((0 < fcount v3.fmt) ∧ (v3.md = 0)) ∧
    ((0 < fcount v8.fmt) ∧ (v8.md = 1)) ∧
    (0 < fcount v3.fmt) ∧
    (2 < 8) ∧
    ({ imm11 := w1.imm11, lt := w1.lt, fn := 0, s3 := w1.s3, s2 := w1.s2, s1 := w1.s1, w := w1.w, d := w1.d, h := w1.h : Wide }.fmt
      < 6) ∧
    ({ imm11 := w1.imm11, lt := w1.lt, fn := 1, s3 := w1.s3, s2 := w1.s2, s1 := w1.s1, w := w1.w, d := w1.d, h := w1.h : Wide }.fmt
      < 6) ∧
    ({ imm11 := w1.imm11, lt := w1.lt, fn := 2, s3 := w1.s3, s2 := w1.s2, s1 := w1.s1, w := w1.w, d := w1.d, h := w1.h : Wide }.fmt
      < 6) ∧
    ({ imm11 := w1.imm11, lt := w1.lt, fn := 3, s3 := w1.s3, s2 := w1.s2, s1 := w1.s1, w := w1.w, d := w1.d, h := w1.h : Wide }.fmt
      < 6) ∧
    ({ imm11 := w1.imm11, lt := w1.lt, fn := 4, s3 := w1.s3, s2 := w1.s2, s1 := w1.s1, w := w1.w, d := w1.d, h := w1.h : Wide }.fmt
      < 6) ∧
    ({ imm11 := w1.imm11, lt := w1.lt, fn := 5, s3 := w1.s3, s2 := w1.s2, s1 := w1.s1, w := w1.w, d := w1.d, h := w1.h : Wide }.fmt
      < 6) ∧
    ({ imm11 := w1.imm11, lt := w1.lt, fn := 6, s3 := w1.s3, s2 := w1.s2, s1 := w1.s1, w := w1.w, d := w1.d, h := w1.h : Wide }.fmt
      < 6) ∧
    ({ imm11 := w1.imm11, lt := w1.lt, fn := 7, s3 := w1.s3, s2 := w1.s2, s1 := w1.s1, w := w1.w, d := w1.d, h := w1.h : Wide }.fmt
      < 6) ∧
    ({ imm11 := w1.imm11, lt := w1.lt, fn := 8, s3 := w1.s3, s2 := w1.s2, s1 := w1.s1, w := w1.w, d := w1.d, h := w1.h : Wide }.fmt
      < 6) ∧
    ({ imm11 := w1.imm11, lt := w1.lt, fn := 9, s3 := w1.s3, s2 := w1.s2, s1 := w1.s1, w := w1.w, d := w1.d, h := w1.h : Wide }.fmt
      < 6) ∧
    ({ imm11 := w1.imm11, lt := w1.lt, fn := 10, s3 := w1.s3, s2 := w1.s2, s1 := w1.s1, w := w1.w, d := w1.d, h := w1.h : Wide }.fmt
      < 6) ∧
    ({ imm11 := w1.imm11, lt := w1.lt, fn := 11, s3 := w1.s3, s2 := w1.s2, s1 := w1.s1, w := w1.w, d := w1.d, h := w1.h : Wide }.fmt
      < 6) ∧
    ({ imm11 := w1.imm11, lt := w1.lt, fn := 12, s3 := w1.s3, s2 := w1.s2, s1 := w1.s1, w := w1.w, d := w1.d, h := w1.h : Wide }.fmt
      < 6) ∧
    ({ imm11 := w1.imm11, lt := w1.lt, fn := 13, s3 := w1.s3, s2 := w1.s2, s1 := w1.s1, w := w1.w, d := w1.d, h := w1.h : Wide }.fmt
      < 6) ∧
    ({ imm11 := w1.imm11, lt := w1.lt, fn := 14, s3 := w1.s3, s2 := w1.s2, s1 := w1.s1, w := w1.w, d := w1.d, h := w1.h : Wide }.fmt
      < 6) ∧
    ({ imm11 := w1.imm11, lt := w1.lt, fn := 15, s3 := w1.s3, s2 := w1.s2, s1 := w1.s1, w := w1.w, d := w1.d, h := w1.h : Wide }.fmt
      < 6) ∧
    ({ imm11 := w1.imm11, lt := w1.lt, fn := 16, s3 := w1.s3, s2 := w1.s2, s1 := w1.s1, w := w1.w, d := w1.d, h := w1.h : Wide }.fmt
      < 6) ∧
    ({ imm11 := w1.imm11, lt := w1.lt, fn := 17, s3 := w1.s3, s2 := w1.s2, s1 := w1.s1, w := w1.w, d := w1.d, h := w1.h : Wide }.fmt
      < 6) ∧
    ({ imm11 := w1.imm11, lt := w1.lt, fn := 18, s3 := w1.s3, s2 := w1.s2, s1 := w1.s1, w := w1.w, d := w1.d, h := w1.h : Wide }.fmt
      < 6) ∧
    ({ imm11 := w1.imm11, lt := w1.lt, fn := 19, s3 := w1.s3, s2 := w1.s2, s1 := w1.s1, w := w1.w, d := w1.d, h := w1.h : Wide }.fmt
      < 6) ∧
    ({ imm11 := w1.imm11, lt := w1.lt, fn := 20, s3 := w1.s3, s2 := w1.s2, s1 := w1.s1, w := w1.w, d := w1.d, h := w1.h : Wide }.fmt
      < 6) ∧
    ({ imm11 := w1.imm11, lt := w1.lt, fn := 21, s3 := w1.s3, s2 := w1.s2, s1 := w1.s1, w := w1.w, d := w1.d, h := w1.h : Wide }.fmt
      < 6) ∧
    ({ imm11 := w1.imm11, lt := w1.lt, fn := 22, s3 := w1.s3, s2 := w1.s2, s1 := w1.s1, w := w1.w, d := w1.d, h := w1.h : Wide }.fmt
      < 6) ∧
    ({ imm11 := w1.imm11, lt := w1.lt, fn := 23, s3 := w1.s3, s2 := w1.s2, s1 := w1.s1, w := w1.w, d := w1.d, h := w1.h : Wide }.fmt
      < 6) :=
  ⟨by decide +kernel,
   by decide +kernel,
   by decide +kernel,
   by decide +kernel,
   by decide +kernel,
   by decide +kernel,
   by decide +kernel,
   by decide +kernel,
   by decide +kernel,
   by decide +kernel,
   by decide +kernel,
   by decide +kernel,
   by decide +kernel,
   by decide +kernel,
   by decide +kernel,
   by decide +kernel,
   by decide +kernel,
   by decide +kernel,
   by decide +kernel,
   by decide +kernel,
   by decide +kernel,
   by decide +kernel,
   by decide +kernel,
   by decide +kernel,
   by decide +kernel,
   by decide +kernel,
   by decide +kernel,
   by decide +kernel,
   by decide +kernel,
   by decide +kernel,
   by decide +kernel,
   by decide +kernel,
   by decide +kernel,
   by decide +kernel,
   by decide +kernel⟩

/-- States and operands that meet the premises of `Obligations.PairResults`, each of its cases in turn. -/
theorem test_premises_PairResults :
    ((sL.cur.keys.Nodup) ∧ (pairReason slotA slotB = none) ∧ (∀ k ∈ sL.cur.keys, isSimt k = true → fpTraps (thr sL
      k) ((slotResult (thr sL k) slotA).2 ||| (slotResult (thr sL k) slotB).2) = false)) := by decide +kernel

/-- States and operands that meet the premises of `Obligations.GangMoves`, each of its cases in turn. -/
theorem test_premises_GangMoves :
    (sG.cur.keys.Nodup) := by decide +kernel

/-- States and operands that meet the premises of `Obligations.GangReductions`, each of its cases in turn. -/
theorem test_premises_GangReductions :
    (sG.cur.keys.Nodup) := by decide +kernel
end Sys2Proof.Tests.Enc

/-! Standard instructions and CSRs. -/

namespace Sys2Proof.Tests.Std

open Sys2Proof.Machine

def tr : Thread :=
  { th0 with x := [(11, 0x8008), (12, 0xFFFF_FFFF), (13, 0x8008)], f := [(1, 0x3FF0_0000_0000_0000), (2, 0x4000_0000_0000_0000)] }

def sR : State := onSimt tr

def sR2 : State :=
  { sR with threads := [(0, tr), (1, { tr with pc := 0x700 })], cur := { keys := [0, 1], pc := 0x400, bits := 0x3F, len := 4 } }

def fpo : Thread := { tr with satp := satp1 }

def sCob : State :=
  { base with threads := [(0x20_0000, { tr with part := 1 })], slices := [(0, {})], cur := { keys := [0x20_0000], pc := 0x400, bits := 0x13, len := 4 } }

def hr : Thread := { th0 with satp := 0, x := [(11, 0x8008), (12, 0xFFFF_FFFF), (13, 0x8008)] }

def hM : Hart := { h1 with mode := .machine }

def sH : State := { onHart hM hr with mem := [(0x8008, 0x81), (0x8009, 0x92)] }

def sLR : State := { sH with resvs := [(hk, 0x8008, 8)] }

def sS : State := onHart { h1 with medeleg := 0xFFFF, stvec := 0x2001, mtvec := 0x1001 } hr

def sU : State := onHart { h1 with mode := .user, medeleg := 0, stvec := 0x2001, mtvec := 0x1001 } hr

def sMr : State := onHart { hM with mstatus := 0x0880, mepc := 0x5002 } hr

def sSr : State := onHart { h1 with mstatus := 0x0122, sepc := 0x5002 } hr

def sWi : State := onHart { h1 with mip := 2, mie := 2 } hr

def po : PendOp :=
  { pc := 0x400, bits := 0x23, op1 := 0x8008, op2 := 0x1234, kind := .store 2, rd := 0, sent := false, value := 0 }

def pl : PendOp :=
  { pc := 0x400, bits := 0x23, op1 := 0x8008, op2 := 0x1234, kind := .load 2 true false, rd := 10, sent := true, value := 77 }

def sPo : State := onSimt { tr with ops := [pl, po] }

def resBytes (r : CobRes × State) : List Byte := match r.1 with | .ok bs _ => bs | _ => []

def resCyc (r : CobRes × State) : Nat := match r.1 with | .ok _ c => c | _ => 0

def sIm : State := { onHart hM { hr with x := [(11, 0x8000), (12, 77)] } with intPages := [8] }

/-- States and operands that meet the premises of `Obligations.StandardResults`, each of its cases in turn. -/
theorem test_premises_StandardResults :
    ((sR2.cur.keys.Nodup) ∧ (∀ k ∈ sR2.cur.keys, isCob k = false)) ∧
    ((sR.cur.keys = [0]) ∧ (isCob 0 = false) ∧ (fpOff sR 0 = false) ∧ ((if fp2Rounds FpOp2.fadd = true then stdRm
      (thr sR 0) (0 : BitVec 3) else some RMode.rne) = some RMode.rne) ∧ (isSimt 0 = true → fpTraps (thr sR 0)
      (stdFp2 FpOp2.fadd true RMode.rne (getF (thr sR 0) (1 : BitVec 5)) (getF (thr sR 0) (2 : BitVec 5))).2 =
      false)) ∧
    ((sR.cur.keys = [0]) ∧ (isCob 0 = false) ∧ (fpOff sR 0 = false) ∧ (stdRm (thr sR 0) (0 : BitVec 3) = some
      RMode.rne) ∧ (isSimt 0 = true → fpTraps (thr sR 0) (stdFp3 FpOp3.fmadd true RMode.rne (getF (thr sR 0) (1 :
      BitVec 5)) (getF (thr sR 0) (2 : BitVec 5)) (getF (thr sR 0) (1 : BitVec 5))).2 = false)) ∧
    ((sR.cur.keys = [0]) ∧ (isCob 0 = false) ∧ (fpOff sR 0 = false) ∧ ((if fp1Rounds FpOp1.fsqrt = true then stdRm
      (thr sR 0) (0 : BitVec 3) else some RMode.rne) = some RMode.rne) ∧ (isSimt 0 = true → fpTraps (thr sR 0)
      (stdFp1 FpOp1.fsqrt true RMode.rne (if fp1FromX FpOp1.fsqrt = true then getX (thr sR 0) (1 : BitVec 5) else
      getF (thr sR 0) (1 : BitVec 5))).2 = false)) ∧
    ((sCob.cur.keys = [2097152]) ∧ (isCob 2097152 = true) ∧ (aluCycles AluOp.add = 0 ∨ ∀ (r : Invocation) (b :
      CobBind), running? sCob (2097152 - 2097152) = some (r, b) → r.cycles + aluCycles AluOp.add < if b.budget = 0
      then 512 else b.budget)) ∧
    ((sCob.cur.keys = [2097152]) ∧ (isCob 2097152 = true)) ∧
    ((sCob.cur.keys = [2097152]) ∧ (isCob 2097152 = true) ∧ ((if branchTaken BranchOp.bne (getReg (thr sCob 2097152)
      (BitVec.toNat (0 : BitVec 5))) (getReg (thr sCob 2097152) (BitVec.toNat (0 : BitVec 5))) = true then 1 else 0)
      = 0 ∨ ∀ (r : Invocation) (b : CobBind), running? sCob (2097152 - 2097152) = some (r, b) → (r.cycles + if
      branchTaken BranchOp.bne (getReg (thr sCob 2097152) (BitVec.toNat (0 : BitVec 5))) (getReg (thr sCob 2097152)
      (BitVec.toNat (0 : BitVec 5))) = true then 1 else 0) < if b.budget = 0 then 512 else b.budget)) ∧
    ((sR.cur.keys = [0]) ∧ (isCob 0 = false) ∧ (fpOff sR 0 = false) ∧ (stdRm (thr sR 0) (5 : BitVec 3) = none)) :=
  ⟨by decide +kernel,
   by decide +kernel,
   by decide +kernel,
   by decide +kernel,
   ⟨by decide +kernel, by decide +kernel, .inl (by decide +kernel)⟩,
   by decide +kernel,
   ⟨by decide +kernel, by decide +kernel, .inl (by decide +kernel)⟩,
   by decide +kernel⟩

/-- States and operands that meet the premises of `Obligations.HartMemory`, each of its cases in turn. -/
theorem test_premises_HartMemory :
    ((sH.cur.keys = [hk]) ∧ (isHart hk = true) ∧ (loadKind LoadOp.lh = OpKind.load 2 true false) ∧ (loadFloat
      LoadOp.lh = true → fpOff sH hk = false) ∧ (BitVec.toNat (getReg (thr sH hk) (BitVec.toNat (11 : BitVec 5)) +
      BitVec.signExtend 64 (1 : BitVec 12)) % 2 ≠ 0)) ∧
    ((sH.cur.keys = [hk]) ∧ (isHart hk = true) ∧ (loadKind LoadOp.lh = OpKind.load 2 true false) ∧ (loadFloat
      LoadOp.lh = true → fpOff sH hk = false) ∧ (BitVec.toNat (getReg (thr sH hk) (BitVec.toNat (11 : BitVec 5)) +
      BitVec.signExtend 64 (0 : BitVec 12)) % 2 = 0) ∧ (reach sH hk (getReg (thr sH hk) (BitVec.toNat (11 : BitVec
      5)) + BitVec.signExtend 64 (0 : BitVec 12)) 2 Acc.load true = (Except.ok (Loc.mem 32776 (1 : Word)), sH))) ∧
    ((sH.cur.keys = [hk]) ∧ (isHart hk = true) ∧ (storeFloat StoreOp.sh = true → fpOff sH hk = false) ∧
      (BitVec.toNat (getReg (thr sH hk) (BitVec.toNat (11 : BitVec 5)) + BitVec.signExtend 64 (0 : BitVec 12)) %
      storeBytes StoreOp.sh = 0) ∧ (reach sH hk (getReg (thr sH hk) (BitVec.toNat (11 : BitVec 5)) +
      BitVec.signExtend 64 (0 : BitVec 12)) (storeBytes StoreOp.sh) Acc.store true = (Except.ok (Loc.mem 32776 (1 :
      Word)), sH))) ∧
    ((sH.cur.keys = [hk]) ∧ (isHart hk = true) ∧ (BitVec.toNat (getReg (thr sH hk) (BitVec.toNat (11 : BitVec 5))) %
      atomBytes false = 0) ∧ (reach sH hk (getReg (thr sH hk) (BitVec.toNat (11 : BitVec 5))) (atomBytes false)
      Acc.store false = (Except.ok (Loc.mem 32776 (1 : Word)), sH))) ∧
    ((sH.cur.keys = [hk]) ∧ (isHart hk = true) ∧ (BitVec.toNat (getReg (thr sH hk) (BitVec.toNat (11 : BitVec 5))) %
      atomBytes true = 0) ∧ (reach sH hk (getReg (thr sH hk) (BitVec.toNat (11 : BitVec 5))) (atomBytes true)
      Acc.load false = (Except.ok (Loc.mem 32776 (1 : Word)), sH))) ∧
    ((sLR.cur.keys = [hk]) ∧ (isHart hk = true) ∧ (BitVec.toNat (getReg (thr sLR hk) (BitVec.toNat (11 : BitVec 5)))
      % atomBytes true = 0) ∧ (reach sLR hk (getReg (thr sLR hk) (BitVec.toNat (11 : BitVec 5))) (atomBytes true)
      Acc.store false = (Except.ok (Loc.mem 32776 (1 : Word)), sLR))) ∧
    ((sH.cur.keys = [hk]) ∧ (isHart hk = true) ∧ (BitVec.toNat (getReg (thr sH hk) (BitVec.toNat (11 : BitVec 5))) %
      atomBytes true = 0) ∧ (reach sH hk (getReg (thr sH hk) (BitVec.toNat (11 : BitVec 5))) (atomBytes true)
      Acc.store false = (Except.ok (Loc.mem 32776 (1 : Word)), sH))) ∧
    ((sH.cur.keys = [hk]) ∧ (isHart hk = true) ∧ (storeFloat StoreOp.sh = true → fpOff sH hk = false) ∧
      (BitVec.toNat (getReg (thr sH hk) (BitVec.toNat (11 : BitVec 5)) + BitVec.signExtend 64 (1 : BitVec 12)) %
      storeBytes StoreOp.sh ≠ 0)) ∧
    ((sH.cur.keys = [hk]) ∧ (isHart hk = true) ∧ (BitVec.toNat (getReg (thr sH hk) (BitVec.toNat (12 : BitVec 5))) %
      atomBytes false ≠ 0)) ∧
    ((sIm.cur.keys = [hk]) ∧ (isHart hk = true) ∧ (storeFloat StoreOp.sw = true → fpOff sIm hk = false) ∧
      (BitVec.toNat (getReg (thr sIm hk) (BitVec.toNat (11 : BitVec 5)) + BitVec.signExtend 64 (0 : BitVec 12)) %
      storeBytes StoreOp.sw = 0) ∧ (reach sIm hk (getReg (thr sIm hk) (BitVec.toNat (11 : BitVec 5)) +
      BitVec.signExtend 64 (0 : BitVec 12)) (storeBytes StoreOp.sw) Acc.store true = (Except.ok (Loc.mem 32768 (1 :
      Word)), (reach sIm hk (32768 : Word) 4 Acc.store true).2))) :=
  ⟨by decide +kernel,
   by decide +kernel,
   by decide +kernel,
   by decide +kernel,
   by decide +kernel,
   by decide +kernel,
   by decide +kernel,
   by decide +kernel,
   by decide +kernel,
   by decide +kernel⟩

/-- States and operands that meet the premises of `Obligations.HartExceptionsAndReturns`, each of its cases in turn. -/
theorem test_premises_HartExceptionsAndReturns :
    ((sH.cur.keys = [hk]) ∧ (isHart hk = true)) ∧
    ((sS.cur.keys = [hk]) ∧ (isHart hk = true)) ∧
    ((sU.cur.keys = [hk]) ∧ (isHart hk = true)) ∧
    ((sMr.cur.keys = [hk]) ∧ (isHart hk = true)) ∧
    ((sSr.cur.keys = [hk]) ∧ (isHart hk = true)) ∧
    ((sSr.cur.keys = [hk]) ∧ (isHart hk = true) ∧ ((hart sSr hk).mode ≠ Mode.user)) ∧
    ((sWi.cur.keys = [hk]) ∧ (isHart hk = true) ∧ ((hart sWi hk).mode ≠ Mode.user)) ∧
    ((sR.cur.keys = [0]) ∧ (isSimt 0 = true)) :=
  ⟨by decide +kernel,
   by decide +kernel,
   by decide +kernel,
   by decide +kernel,
   by decide +kernel,
   by decide +kernel,
   by decide +kernel,
   by decide +kernel⟩

/-- States and operands that meet the premises of `Obligations.ThreadOperations`, each of its cases in turn. -/
theorem test_premises_ThreadOperations :
    ((sR.cur.keys = [0]) ∧ (isSimt 0 = true) ∧ (loadKind LoadOp.lh = OpKind.load 2 true false) ∧ (BitVec.toNat
      (getReg (thr sR 0) (BitVec.toNat (11 : BitVec 5)) + BitVec.signExtend 64 (0 : BitVec 12)) % 2 = 0)) ∧
    ((sR.cur.keys = [0]) ∧ (isSimt 0 = true) ∧ ((thr sR 0).helper = false) ∧ ((∃ op rs1 rs2 imm, Std.store
      StoreOp.sd (11 : BitVec 5) (12 : BitVec 5) (0 : BitVec 12) = Std.store op rs1 rs2 imm ∧ OpKind.store 8 =
      OpKind.store (storeBytes op) ∧ (32776 : Word) = getReg (thr sR 0) rs1.toNat + BitVec.signExtend 64 imm ∧
      (4294967295 : Word) = getReg (thr sR 0) ((if storeFloat op = true then 32 else 0) + rs2.toNat)) ∨ (∃ op d aq
      rl rd rs1 rs2, Std.store StoreOp.sd (11 : BitVec 5) (12 : BitVec 5) (0 : BitVec 12) = Std.amo op d aq rl rd
      rs1 rs2 ∧ OpKind.store 8 = OpKind.amo op (atomBytes d) ∧ (32776 : Word) = getReg (thr sR 0) rs1.toNat ∧
      (4294967295 : Word) = getReg (thr sR 0) rs2.toNat) ∨ (∃ d aq rl rd rs1, Std.store StoreOp.sd (11 : BitVec 5)
      (12 : BitVec 5) (0 : BitVec 12) = Std.lr d aq rl rd rs1 ∧ OpKind.store 8 = OpKind.lr (atomBytes d) ∧ (32776 :
      Word) = getReg (thr sR 0) rs1.toNat ∧ (4294967295 : Word) = 0) ∨ ∃ d aq rl rd rs1 rs2, Std.store StoreOp.sd
      (11 : BitVec 5) (12 : BitVec 5) (0 : BitVec 12) = Std.sc d aq rl rd rs1 rs2 ∧ OpKind.store 8 = OpKind.sc
      (atomBytes d) ∧ (32776 : Word) = getReg (thr sR 0) rs1.toNat ∧ (4294967295 : Word) = getReg (thr sR 0)
      rs2.toNat)) ∧
    ((isSimt 0 = true) ∧ (occupied sPo 0 = true) ∧ ((thr sPo 0).chain.live = false) ∧ ((thr sPo 0).st =
      TState.ready) ∧ (firstUnsent (thr sPo 0) = some (1, po)) ∧ (po.kind = OpKind.store 2) ∧ (needsWalk sPo 0
      po.op1 Acc.store = false) ∧ (raceWaits sPo 0 po = false) ∧ (reach sPo 0 po.op1 2 Acc.store true = (Except.ok
      (Loc.mem 32776 (1 : Word)), (reach sPo 0 (32776 : Word) 2 Acc.store true).2)) ∧ (managed (1 : Word) = false) ∧
      (¬(2 = 4 ∧ 32776 % 4096 < 8 ∧ (32776 / 4096 : ℕ) ∈ (reach sPo 0 (32776 : Word) 2 Acc.store true).2.intPages))) ∧
    (((thr sPo 0).ops[0]? = some pl) ∧ (pl.sent = true) ∧ (pl.kind = OpKind.load 2 true false)) ∧
    ((sR.cur.keys = [0]) ∧ (isSimt 0 = true) ∧ ((thr sR 0).helper = false) ∧ ((∃ op rs1 rs2 imm, Std.store
      StoreOp.sd (11 : BitVec 5) (12 : BitVec 5) (1 : BitVec 12) = Std.store op rs1 rs2 imm ∧ OpKind.store 8 =
      OpKind.store (storeBytes op) ∧ (32777 : Word) = getReg (thr sR 0) rs1.toNat + BitVec.signExtend 64 imm ∧
      (4294967295 : Word) = getReg (thr sR 0) ((if storeFloat op = true then 32 else 0) + rs2.toNat)) ∨ (∃ op d aq
      rl rd rs1 rs2, Std.store StoreOp.sd (11 : BitVec 5) (12 : BitVec 5) (1 : BitVec 12) = Std.amo op d aq rl rd
      rs1 rs2 ∧ OpKind.store 8 = OpKind.amo op (atomBytes d) ∧ (32777 : Word) = getReg (thr sR 0) rs1.toNat ∧
      (4294967295 : Word) = getReg (thr sR 0) rs2.toNat) ∨ (∃ d aq rl rd rs1, Std.store StoreOp.sd (11 : BitVec 5)
      (12 : BitVec 5) (1 : BitVec 12) = Std.lr d aq rl rd rs1 ∧ OpKind.store 8 = OpKind.lr (atomBytes d) ∧ (32777 :
      Word) = getReg (thr sR 0) rs1.toNat ∧ (4294967295 : Word) = 0) ∨ ∃ d aq rl rd rs1 rs2, Std.store StoreOp.sd
      (11 : BitVec 5) (12 : BitVec 5) (1 : BitVec 12) = Std.sc d aq rl rd rs1 rs2 ∧ OpKind.store 8 = OpKind.sc
      (atomBytes d) ∧ (32777 : Word) = getReg (thr sR 0) rs1.toNat ∧ (4294967295 : Word) = getReg (thr sR 0)
      rs2.toNat)) :=
  ⟨by decide +kernel,
   ⟨by decide +kernel, by decide +kernel, by decide +kernel, .inl ⟨.sd, 11, 12, 0, by decide +kernel⟩⟩,
   by decide +kernel,
   by decide +kernel,
   ⟨by decide +kernel, by decide +kernel, by decide +kernel, .inl ⟨.sd, 11, 12, 1, by decide +kernel⟩⟩⟩

/-- States and operands that meet the premises of `Obligations.CsrAccess`, each of its cases in turn. -/
theorem test_premises_CsrAccess :
    ((sH.cur.keys = [hk]) ∧ (CsrOp.rs ≠ CsrOp.rw) ∧ (csrRead sH hk (BitVec.toNat (833 : BitVec 12)) = some (0 :
      Word)) ∧ (csrShut sH hk (BitVec.toNat (833 : BitVec 12)) = false) ∧ (isMcycle (BitVec.toNat (833 : BitVec 12))
      = false)) ∧
    ((sH.cur.keys = [hk]) ∧ (isHart hk = true) ∧ ((hart sH hk).mode = Mode.machine)) ∧
    ((sS.cur.keys = [hk]) ∧ (isHart hk = true) ∧ (csrRead sS hk (BitVec.toNat (832 : BitVec 12)) = some (0 : Word))
      ∧ ((hart sS hk).mode.code < csrMode (BitVec.toNat (832 : BitVec 12)))) ∧
    ((sR.cur.keys = [0]) ∧ (isSimt 0 = true) ∧ (userCsr sR 0 (BitVec.toNat (832 : BitVec 12)) = none)) ∧
    ((sR.cur.keys = [0]) ∧ (isSimt 0 = true)) :=
  ⟨by decide +kernel,
   by decide +kernel,
   by decide +kernel,
   by decide +kernel,
   by decide +kernel⟩

/-- States and operands that meet the premises of `Obligations.CacheBlocks`, each of its cases in turn. -/
theorem test_premises_CacheBlocks :
    ((sR.cur.keys = [0]) ∧ (isSimt 0 = true) ∧ ((thr sR 0).helper = false) ∧ ((Instr.cboClean (11 : BitVec 5), 0) ∈
      [(Instr.cboClean (11 : BitVec 5), 0), (Instr.cboFlush (11 : BitVec 5), 1), (Instr.cboInval (11 : BitVec 5),
      2), (Instr.cboZero (11 : BitVec 5), 3)])) ∧
    ((sR.cur.keys = [0]) ∧ (isSimt 0 = true) ∧ ((thr sR 0).helper = false) ∧ ((Instr.cboFlush (11 : BitVec 5), 1) ∈
      [(Instr.cboClean (11 : BitVec 5), 0), (Instr.cboFlush (11 : BitVec 5), 1), (Instr.cboInval (11 : BitVec 5),
      2), (Instr.cboZero (11 : BitVec 5), 3)])) ∧
    ((sR.cur.keys = [0]) ∧ (isSimt 0 = true) ∧ ((thr sR 0).helper = false) ∧ ((Instr.cboInval (11 : BitVec 5), 2) ∈
      [(Instr.cboClean (11 : BitVec 5), 0), (Instr.cboFlush (11 : BitVec 5), 1), (Instr.cboInval (11 : BitVec 5),
      2), (Instr.cboZero (11 : BitVec 5), 3)])) ∧
    ((sR.cur.keys = [0]) ∧ (isSimt 0 = true) ∧ ((thr sR 0).helper = false) ∧ ((Instr.cboZero (11 : BitVec 5), 3) ∈
      [(Instr.cboClean (11 : BitVec 5), 0), (Instr.cboFlush (11 : BitVec 5), 1), (Instr.cboInval (11 : BitVec 5),
      2), (Instr.cboZero (11 : BitVec 5), 3)])) ∧
    ((sH.cur.keys = [hk]) ∧ (isHart hk = true) ∧ ((hart sH hk).mode = Mode.machine)) :=
  ⟨by decide +kernel,
   by decide +kernel,
   by decide +kernel,
   by decide +kernel,
   by decide +kernel⟩
end Sys2Proof.Tests.Std

/-! Threads. -/

namespace Sys2Proof.Tests.Thr

open Sys2Proof.Machine

def w1 : Wide := wd 10 11 12 13

def te : Thread := { th0 with x := [(11, 0x4000_0000_0000_0004), (12, 2), (13, 99)] }

def v1 := onSimt { te with x := [(11, 0xC000_0000_0000_0000)] }

def sMig : State :=
  { onSimt { te with x := [(11, 0x4000_0000_0000_0001)] } with parts := [(1, { p1 with cl := 0x10001 })] }

def v2 := onSimt { te with x := [(11, 0x8000_0000_0000_0000)] }

def mm (l : Nat) : Machine.Member := { loc := .here, frame := 0x9000 + 1024 * l }

def tm : Machine.Team :=
  { part := 1, asid := 1, num := 3, st := .resident, desc := { limit := 4, gw := 16, syncs := 2, tiles := 4, accs := 2, scrpg := 1, frames := 0x9000 }, count := 1, members := [(0, mm 0)], slots := [] }

def sTm (t : Thread) : State := { onSimt { t with team := 3, gangw := 16 } with teams := [tm] }

def v3 := sTm { te with x := [(11, 0x501), (12, 2)] }

def v4 := sTm { te with x := [(11, 0x500), (12, 4)] }

def v5 := sTm { te with x := [(11, 0x500), (12, 3), (13, 99)] }

def x0 : Transit :=
  { frame := 0xA000, part := 1, satp := satp1, kind := 1, target := 0, team := 0, tidx := 0, serial := 0, task := none, signal := false, tid := 9 }

def sFl : State := { wrWord (wrWord base 0xA008 0x777) 0xA058 0x33 with transits := [x0] }

def v6 := { onSimt te with cycle := 4096 }

def v7 := onSimt { te with sigpend := true }

def sRq : State := { base with parts := [(1, { p1 with retq := 0x10000, retPend := [(0x8000, 3), (0x8400, 2)] })] }

def trp : Trap := { code := 0x11, insn := 0x3F, addr := 0x400, va := 0x55 }

def v8 := onSimt { te with trap := { hvec := 0 } }

def thh : Thread :=
  { te with trap := { hvec := 0x600, inh := true, hepc := 0x444, hcause := 0x11 }, held := [default] }

def v9 := onSimt { te with x := [(11, 0x11)] }

def pM : Partition := { p1 with mbox := 0x20000 }

def tcall : Thread := { te with x := [(17, 64), (10, 1), (11, 2)] }

def sCall : State := { wrWord (onSimt tcall) 0x20008 1 with parts := [(1, pM)] }

def v10 := { onSimt tcall with parts := [(1, pM)] }

def rsv : Thread := { te with x := [(11, 0)], tid := 1 }

def sRsv : State :=
  { wrWord (wrWord (wrWord (wrWord (onSimt te) 0x20048 1) 0x20080 7) 0x20088 0x400) 0x200D8 0x99 with parts := [(1, pM)], threads := [(0, { te with st := .blocked, wait := .mailbox 0 0 }), (15, rsv)], cur := { keys := [15], pc := 0x400, bits := 0x3F, len := 8 } }

def frec : List Word := [0x1011_0000_0000_0007, 0x400, 0x55, 0, 0, 0, 0x3F, 1]

def sHm : State := onHart { h1 with tframe := 0x8000, medeleg := 0x6000000, stvec := 0x2000, mtvec := 0x1000 } te

def sHm2 : State := onHart
  { h1 with mode := .machine, tframe := 0x8000, medeleg := 0x6000000, stvec := 0x2000, mtvec := 0x1000 } te

/-- States and operands that meet the premises of `Obligations.MigrationAndExit`, each of its cases in turn. -/
theorem test_premises_MigrationAndExit :
    ((v1.cur.keys = [0]) ∧ (isSimt 0 = true) ∧ (occupied v1 0 = true) ∧ (handleCheck v1 0 (src (thr v1 0) w1.s1) ≠
      0)) ∧
    (((onSimt te).cur.keys = [0]) ∧ (isSimt 0 = true) ∧ (occupied (onSimt te) 0 = true) ∧ (handleCheck (onSimt te) 0
      (src (thr (onSimt te) 0) w1.s1) = 0) ∧ (atPlace 0 (thr (onSimt te) 0) (src (thr (onSimt te) 0) w1.s1) = true)) ∧
    ((sMig.cur.keys = [0]) ∧ (isSimt 0 = true) ∧ (occupied sMig 0 = true) ∧ (handleCheck sMig 0 (src (thr sMig 0)
      w1.s1) = 0) ∧ (atPlace 0 (thr sMig 0) (src (thr sMig 0) w1.s1) = false) ∧ ((thr sMig 0).helper = false) ∧
      (inRanges sMig (thr sMig 0).part (thr sMig 0).frame 1024 = true) ∧ (postClear sMig (agentDie 0) (thr sMig
      0).frame 1024 = true)) ∧
    ((v2.cur.keys = [0]) ∧ (isSimt 0 = true) ∧ (occupied v2 0 = true) ∧ (handleCheck v2 0 (src (thr v2 0) w1.s1) =
      0) ∧ (atPlace 0 (thr v2 0) (src (thr v2 0) w1.s1) = false) ∧ ((thr v2 0).helper = false) ∧ (inRanges v2 (thr
      v2 0).part (thr v2 0).frame 1024 = true) ∧ (postClear v2 (agentDie 0) (thr v2 0).frame 1024 = true)) ∧
    (((onSimt te).cur.keys = [0]) ∧ (isSimt 0 = true) ∧ ((thr (onSimt te) 0).helper = false) ∧ ((thr (onSimt te)
      0).task = false) ∧ ((thr (onSimt te) 0).team = 0) ∧ (occupied (onSimt te) 0 = true) ∧ (postClear (onSimt te)
      (agentDie 0) (thr (onSimt te) 0).frame 1024 = true)) ∧
    (((onSimt
      { part := te.part, satp := te.satp, st := te.st, before := te.before, x := te.x, f := te.f, pc := te.pc, fcsr := te.fcsr, lfsr := te.lfsr, qflags := te.qflags, tprio := te.tprio, trap := te.trap, chain := te.chain, hchain := te.hchain, tid := te.tid, team := te.team, tidx := te.tidx, gangw := te.gangw, helper := te.helper, stopped := te.stopped, task := true, autoRet := te.autoRet, sigpend := te.sigpend, cause := te.cause, reth := te.reth, lastPlace := te.lastPlace, frame := te.frame, ops := te.ops, held := te.held, wait := te.wait, ww := te.ww, wus := te.wus, age := te.age, promoted := te.promoted, park := te.park, pend0E := te.pend0E, pend16 := te.pend16, holdTill := te.holdTill, pushHeld := te.pushHeld, away := te.away : Thread }).cur.keys
      = [0]) ∧ (isSimt 0 = true) ∧ ((thr (onSimt
      { part := te.part, satp := te.satp, st := te.st, before := te.before, x := te.x, f := te.f, pc := te.pc, fcsr := te.fcsr, lfsr := te.lfsr, qflags := te.qflags, tprio := te.tprio, trap := te.trap, chain := te.chain, hchain := te.hchain, tid := te.tid, team := te.team, tidx := te.tidx, gangw := te.gangw, helper := te.helper, stopped := te.stopped, task := true, autoRet := te.autoRet, sigpend := te.sigpend, cause := te.cause, reth := te.reth, lastPlace := te.lastPlace, frame := te.frame, ops := te.ops, held := te.held, wait := te.wait, ww := te.ww, wus := te.wus, age := te.age, promoted := te.promoted, park := te.park, pend0E := te.pend0E, pend16 := te.pend16, holdTill := te.holdTill, pushHeld := te.pushHeld, away := te.away : Thread })
      0).helper = false) ∧ ((thr (onSimt
      { part := te.part, satp := te.satp, st := te.st, before := te.before, x := te.x, f := te.f, pc := te.pc, fcsr := te.fcsr, lfsr := te.lfsr, qflags := te.qflags, tprio := te.tprio, trap := te.trap, chain := te.chain, hchain := te.hchain, tid := te.tid, team := te.team, tidx := te.tidx, gangw := te.gangw, helper := te.helper, stopped := te.stopped, task := true, autoRet := te.autoRet, sigpend := te.sigpend, cause := te.cause, reth := te.reth, lastPlace := te.lastPlace, frame := te.frame, ops := te.ops, held := te.held, wait := te.wait, ww := te.ww, wus := te.wus, age := te.age, promoted := te.promoted, park := te.park, pend0E := te.pend0E, pend16 := te.pend16, holdTill := te.holdTill, pushHeld := te.pushHeld, away := te.away : Thread })
      0).task = true) ∧ (occupied (onSimt
      { part := te.part, satp := te.satp, st := te.st, before := te.before, x := te.x, f := te.f, pc := te.pc, fcsr := te.fcsr, lfsr := te.lfsr, qflags := te.qflags, tprio := te.tprio, trap := te.trap, chain := te.chain, hchain := te.hchain, tid := te.tid, team := te.team, tidx := te.tidx, gangw := te.gangw, helper := te.helper, stopped := te.stopped, task := true, autoRet := te.autoRet, sigpend := te.sigpend, cause := te.cause, reth := te.reth, lastPlace := te.lastPlace, frame := te.frame, ops := te.ops, held := te.held, wait := te.wait, ww := te.ww, wus := te.wus, age := te.age, promoted := te.promoted, park := te.park, pend0E := te.pend0E, pend16 := te.pend16, holdTill := te.holdTill, pushHeld := te.pushHeld, away := te.away : Thread })
      0 = true)) ∧
    ((sHm.cur.keys = [hk]) ∧ (isHart hk = true) ∧ ((thr sHm hk).helper = false) ∧ (inRanges sHm (partOf sHm hk)
      (BitVec.toNat (hart sHm hk).tframe) 1024 = true) ∧ (recordHeld sHm hk (BitVec.toNat (hart sHm hk).tframe) 8 =
      none) ∧ (postClear sHm (agentDie hk) (BitVec.toNat (hart sHm hk).tframe) 1024 = true) ∧ (occupied sHm hk =
      true) ∧ (handleCheck sHm hk (src (thr sHm hk) w1.s1) = 0) ∧ (hKind (src (thr sHm hk) w1.s1) ≠ 2)) ∧
    ((sHm2.cur.keys = [hk]) ∧ (isHart hk = true) ∧ ((thr sHm2 hk).helper = false) ∧ (inRanges sHm2 (partOf sHm2 hk)
      (BitVec.toNat (hart sHm2 hk).tframe) 1024 = true) ∧ (recordHeld sHm2 hk (BitVec.toNat (hart sHm2 hk).tframe) 8
      = none) ∧ (postClear sHm2 (agentDie hk) (BitVec.toNat (hart sHm2 hk).tframe) 1024 = true) ∧ (occupied sHm2 hk
      = true) ∧ (handleCheck sHm2 hk (src (thr sHm2 hk) w1.s1) = 0) ∧ (hKind (src (thr sHm2 hk) w1.s1) ≠ 2)) ∧
    ((sHm.cur.keys = [hk]) ∧ (isHart hk = true) ∧ ((thr sHm hk).helper = false) ∧ (inRanges sHm (partOf sHm hk)
      (BitVec.toNat (hart sHm hk).tframe) 1024 = true) ∧ (recordHeld sHm hk (BitVec.toNat (hart sHm hk).tframe) 8 =
      none) ∧ (postClear sHm (agentDie hk) (BitVec.toNat (hart sHm hk).tframe) 1024 = true) ∧ ((thr sHm hk).team =
      0)) :=
  ⟨by decide +kernel,
   by decide +kernel,
   by decide +kernel,
   by decide +kernel,
   by decide +kernel,
   by decide +kernel,
   by decide +kernel,
   by decide +kernel,
   by decide +kernel⟩

/-- States and operands that meet the premises of `Obligations.SpawnCreates`, each of its cases in turn. -/
theorem test_premises_SpawnCreates :
    ((v3.cur.keys = [0]) ∧ (isSimt 0 = true) ∧ ((thr v3 0).helper = false) ∧ (teamK? v3 0 = some tm) ∧ (bit (src
      (thr v3 0) w1.s1) 0 = true)) ∧
    ((v4.cur.keys = [0]) ∧ (isSimt 0 = true) ∧ ((thr v4 0).helper = false) ∧ (teamK? v4 0 = some tm) ∧ (bit (src
      (thr v4 0) w1.s1) 0 = false) ∧ (tm.desc.limit - tm.count < BitVec.toNat (src (thr v4 0) w1.s2))) ∧
    ((v5.cur.keys = [0]) ∧ (isSimt 0 = true) ∧ ((thr v5 0).helper = false) ∧ (teamK? v5 0 = some tm) ∧ (bit (src
      (thr v5 0) w1.s1) 0 = false) ∧ (BitVec.toNat (src (thr v5 0) w1.s2) ≤ tm.desc.limit - tm.count) ∧ ((List.map
      (memberKey tm) (List.range tm.desc.l4)).Nodup) ∧ (∀ i < tm.desc.l4, tm.count ≤ i → memberKey tm i ≠ 0)) :=
  by decide +kernel

/-- States and operands that meet the premises of `Obligations.ThreadEventsAndPostings`, each of its cases in turn. -/
theorem test_premises_ThreadEventsAndPostings :
    ((sFl.transits = [x0]) ∧ (x0.kind = 1) ∧ (x0.task = none) ∧ (x0.target = 0) ∧ (0 < 4) ∧ (poisoned sFl x0.frame
      1024 = false) ∧ (postClear sFl 0 x0.frame 1024 = true) ∧ (ownsCore sFl x0.part (64 * 0 + 0) = true) ∧ (0 < 64)
      ∧ ((idleSlots sFl (64 * 0 + 0)).contains (slotKey 0 0 63 14) = true)) ∧
    ((isSimt 0 = true) ∧ ((thr v6 0).st = TState.ready) ∧ ((thr v6 0).wait = Wait.none) ∧ ((thr v6 0).age + 4096 ≤
      v6.cycle)) ∧
    ((isSimt 0 = true) ∧ (occupied v7 0 = true) ∧ ((thr v7 0).st = TState.ready) ∧ ((thr v7 0).wait = Wait.none) ∧
      ((thr v7 0).sigpend = true) ∧ ((thr v7 0).chain.live = false) ∧ (slotOf 0 ≠ 15) ∧ ((thr v7 0).ops = []) ∧
      (nextIsMig v7 0 = false) ∧ ((thr v7 0).chain.fp = none) ∧ ((thr v7 0).pend0E = none) ∧ ((thr v7 0).pend16 =
      none) ∧ ((thr v7 0).held.length ≤ 8) ∧ (postClear v7 (agentDie 0) (thr v7 0).frame 1024 = true)) ∧
    (((part sRq 1).retPend = [(32768, 3), (33792, 2)]) ∧ (32768 % 16 = 0) ∧ (3 < 16) ∧ (inRanges sRq 1 (bits (part
      sRq 1).retq 63 12 * 4096) (64 + 8 * ringSize (part sRq 1).retq 20) = true) ∧ (poisoned sRq (bits (part sRq
      1).retq 63 12 * 4096) 64 = false) ∧ (ringClear sRq (bits (part sRq 1).retq 63 12 * 4096) 64 = true) ∧
      (ringClear sRq (bits (part sRq 1).retq 63 12 * 4096 + 64 + 8 * (BitVec.toNat (rdWord sRq (bits (part sRq
      1).retq 63 12 * 4096 + 8)) % ringSize (part sRq 1).retq 20)) 8 = true) ∧ (ringClear sRq 32768 1024 = true) ∧
      (BitVec.toNat (rdWord sRq (bits (part sRq 1).retq 63 12 * 4096 + 8) - rdWord sRq (bits (part sRq 1).retq 63 12
      * 4096)) < ringSize (part sRq 1).retq 20)) ∧
    (((part (wrWord sRq 65544 (16 : Word)) 1).retPend = [(32768, 3), (33792, 2)]) ∧ (32768 % 16 = 0) ∧ (3 < 16) ∧
      (inRanges (wrWord sRq 65544 (16 : Word)) 1 (bits (part (wrWord sRq 65544 (16 : Word)) 1).retq 63 12 * 4096)
      (64 + 8 * ringSize (part (wrWord sRq 65544 (16 : Word)) 1).retq 20) = true) ∧ (poisoned (wrWord sRq 65544 (16
      : Word)) (bits (part (wrWord sRq 65544 (16 : Word)) 1).retq 63 12 * 4096) 64 = false) ∧ (ringClear (wrWord sRq
      65544 (16 : Word)) (bits (part (wrWord sRq 65544 (16 : Word)) 1).retq 63 12 * 4096) 64 = true) ∧ (ringClear
      (wrWord sRq 65544 (16 : Word)) (bits (part (wrWord sRq 65544 (16 : Word)) 1).retq 63 12 * 4096 + 64 + 8 *
      (BitVec.toNat (rdWord (wrWord sRq 65544 (16 : Word)) (bits (part (wrWord sRq 65544 (16 : Word)) 1).retq 63 12
      * 4096 + 8)) % ringSize (part (wrWord sRq 65544 (16 : Word)) 1).retq 20)) 8 = true) ∧ (ringClear (wrWord sRq
      65544 (16 : Word)) 32768 1024 = true) ∧ (ringSize (part (wrWord sRq 65544 (16 : Word)) 1).retq 20 ≤
      BitVec.toNat (rdWord (wrWord sRq 65544 (16 : Word)) (bits (part (wrWord sRq 65544 (16 : Word)) 1).retq 63 12 *
      4096 + 8) - rdWord (wrWord sRq 65544 (16 : Word)) (bits (part (wrWord sRq 65544 (16 : Word)) 1).retq 63 12 *
      4096)))) :=
  ⟨by decide +kernel,
   by decide +kernel,
   by decide +kernel,
   by decide +kernel,
   by decide +kernel⟩

/-- States and operands that meet the premises of `Obligations.HandlerEntryAndReturn`, each of its cases in turn. -/
theorem test_premises_HandlerEntryAndReturn :
    ((isSimt 0 = true) ∧ ((thr (onSimt te) 0).helper = false) ∧ ((thr (onSimt te) 0).ops = []) ∧ (trp.dec = none) ∧
      (routesUser trp.code = true) ∧ (trp.priv = false) ∧ ((thr (onSimt te) 0).trap.hvec ≠ 0) ∧ ((thr (onSimt te)
      0).trap.inh = false)) ∧
    ((isSimt 0 = true) ∧ ((thr v8 0).helper = false) ∧ ((thr v8 0).ops = []) ∧ (trp.dec = none) ∧ (routesUser
      trp.code = false ∨ (thr v8 0).trap.hvec = 0 ∨ (thr v8 0).trap.inh = true)) ∧
    (((onSimt thh).cur.keys = [0]) ∧ (isSimt 0 = true) ∧ ((thr (onSimt thh) 0).trap.inh = true)) ∧
    (((onSimt te).cur.keys = [0]) ∧ (isSimt 0 = true) ∧ ((thr (onSimt te) 0).trap.inh = false)) ∧
    ((v9.cur.keys = [0]) ∧ (isSimt 0 = true) ∧ (htrapBad (src (thr v9 0) w1.s1) = false) ∧ (src (thr v9 0) w1.s1 ≠
      1) ∧ (routesUser (BitVec.toNat (src (thr v9 0) w1.s1)) = true) ∧ ((thr v9 0).helper = false) ∧ ((thr v9
      0).trap.inh = false) ∧ ((thr v9 0).trap.hvec ≠ 0) ∧ ((thr v9 0).ops = []) ∧ (w1.h = false)) :=
  by decide +kernel

/-- States and operands that meet the premises of `Obligations.MailboxCalls`, each of its cases in turn. -/
theorem test_premises_MailboxCalls :
    ((sCall.cur.keys = [0]) ∧ (isSimt 0 = true) ∧ ((thr sCall 0).helper = false) ∧ (mailBad sCall (thr sCall 0).part
      (coreOf 0) = false) ∧ (mailHeld sCall 0 = false) ∧ (mailRoom sCall 0 = some 0)) ∧
    ((v10.cur.keys = [0]) ∧ (isSimt 0 = true) ∧ ((thr v10 0).helper = false) ∧ (mailBad v10 (thr v10 0).part (coreOf
      0) = false) ∧ (mailHeld v10 0 = false) ∧ (mailRoom v10 0 = none) ∧ (slotOf 0 ≠ 15) ∧ ((thr v10 0).ops = []) ∧
      (postClear v10 (agentDie 0) (thr v10 0).frame 1024 = true)) ∧
    ((sRsv.cur.keys = [15]) ∧ (isSimt 15 = true) ∧ (slotOf 15 = 15) ∧ (recordHeld sRsv 15 (mailbox sRsv (thr sRsv
      15).part (coreOf 15)) 4096 = none) ∧ (inRanges sRsv (thr sRsv 15).part (mailbox sRsv (thr sRsv 15).part
      (coreOf 15)) 4096 = true) ∧ (BitVec.toNat (rdWord sRsv (mailbox sRsv (thr sRsv 15).part (coreOf 15) + 64)) ≤
      BitVec.toNat (src (thr sRsv 15) w1.s1)) ∧ (BitVec.toNat (src (thr sRsv 15) w1.s1) < BitVec.toNat (rdWord sRsv
      (mailbox sRsv (thr sRsv 15).part (coreOf 15) + 72))) ∧ (mailWaiter sRsv (thr sRsv 15).part (coreOf 15)
      (BitVec.toNat (src (thr sRsv 15) w1.s1)) (BitVec.toNat (rdWord sRsv (mailbox sRsv (thr sRsv 15).part (coreOf
      15) + 128 + 128 * (BitVec.toNat (src (thr sRsv 15) w1.s1) % 31))) % 2 ^ 32) = some 0) ∧ (0 ≠ 15) ∧ (rdWord
      sRsv (mailbox sRsv (thr sRsv 15).part (coreOf 15) + 128 + 128 * (BitVec.toNat (src (thr sRsv 15) w1.s1) % 31)
      + 80) = 0)) :=
  ⟨by decide +kernel,
   by decide +kernel,
   by decide +kernel⟩
end Sys2Proof.Tests.Thr

/-! Fault records and teams. -/

namespace Sys2Proof.Tests.Team

open Sys2Proof.Machine

def w1 : Wide := wd 10 11 12 13

def te : Thread := { th0 with x := [(11, 0x3000), (12, 0), (13, 99)] }

def par : Thread := { th0 with tid := 7, st := .parked, park := 1, held := [default], frame := 0x8400, pc := 0x500 }

def putW (s : State) (a : Nat) (l : List Word) : State := (l.zipIdx).foldl (fun s (v, i) => wrWord s (a + 8 * i) v)
  s

def frec : List Word := [0x1011_0000_0000_0007, 0x400, 0x55, 0, 0, 1, 0x3F, 1]

def sFr : State := { putW (wrWord (onSimt te) 0x8408 0x700) 0x3000 frec with threads := [(0, te), (16, par)] }

def sFq : State := { base with parts := [(1, { p1 with fq := 0x10000, fqPend := [frec] })] }

def v1 := { base with pinned := [5, 6], poison := [9] }

def desc (nowait : Nat) : List Word := [w64 (4 + nowait * 2 ^ 23 + 4 * 2 ^ 32 + 2 * 2 ^ 40 + 2 * 2 ^ 47), 1, 0x9000,
  0, 0, 0, 0, 0]

def sNew (l : List Word) : State := putW (onSimt te) 0x3000 l

def sQd : State := { sNew (desc 0) with parts := [(1, { p1 with admissions := [{ key := 99, desc := desc 0 }] })] }

def sAd : State :=
  { onSimt { te with st := .blocked, wait := .admission, ww := w1 } with parts := [(1, { p1 with admissions := [{ key := 0, desc := desc 0 }] })] }

def v2 : AdmitReq := { key := 0, desc := desc 0 }

def mm (l : Nat) : Machine.Member := { loc := .here, frame := 0x9000 + 1024 * l }

def hp (l : Nat) : Machine.Member := { loc := .here, helper := true, frame := 0x9000 + 1024 * l }

def tm : Machine.Team :=
  { part := 1, asid := 1, num := 3, st := .resident, serial := 5, desc := { limit := 4, gw := 16, syncs := 2, tiles := 4, accs := 2, scrpg := 1, frames := 0x9000 }, count := 1, members := [(0, mm 0)] }

def sSolo (x : Word) (m : List Machine.Team) : State := { onSimt { te with x := [(11, x)] } with teams := m }

def tmE : Machine.Team := { tm with members := [(1, hp 1)] }

def sTf : State :=
  { sSolo 3 [tmE] with threads := [(0, { te with x := [(11, 3)] }), (16, { te with helper := true, team := 3 })] }

def tmS : Machine.Team := { tmE with st := .saved, members := [] }

def v3 := {w1 with fn := 1}

def v4 := {w1 with fn := 2}

def v5 := {w1 with fn := 3}

def v6 := sSolo 0x4000_0000_0000_0000 [tmS]

def sSv (f : Word) : State :=
  { onHart { h1 with satp := satp1 } { te with x := [(11, 3), (12, f)] } with teams := [tm] }

def tmV : Machine.Team :=
  { tm with st := .saving, frame := 0x20000, tiles := [(3, 5)], scratch := [(9, 7)], deadline := 5 }

def sIm : State :=
  { onHart { h1 with satp := satp1 } { te with x := [(11, 3), (12, 0)], wait := .teamsave 3, ww := w1 } with us := 5, teams := [tmV], threads := [(0, { th0 with team := 3 }), (hk, { te with x := [(11, 3), (12, 0)], wait := .teamsave 3, ww := w1 })] }

def tmL : Machine.Team := { tm with st := .saved, frame := 0x20000, members := [], serial := 5 }

def sLd (f h : Word) : State :=
  { putW (onHart { h1 with satp := satp1 } { te with x := [(11, f), (12, h)] }) 0x20000 [w64 (2^63 + 3), w64 (5 * 2 ^ 16), w64 (2 ^ 16 + 1)] with teams := [tmL] }

def ldNum : Nat := match (loadCheck (sLd 0x20000 0) 1 1 0x20000 0) with | .ok r => r.2 | _ => 0

def tmG : Machine.Team := { tm with st := .loading, frame := 0x20000, members := [] }

/-- The same before the deadline of the save. -/
def sSoon : State := { sIm with us := tmV.deadline - 1 }

def sLc : State :=
  { wrWord (sLd 0 0) 0x24000 0xFFEE with teams := [tmG], threads := [(hk, { te with wait := .teamload 3, ww := w1 })] }

/-- States and operands that meet the premises of `Obligations.FaultRecords`, each of its cases in turn. -/
theorem test_premises_FaultRecords :
    (((onSimt te).cur.keys = [0]) ∧ (isCob 0 = false) ∧ (answerHeld (onSimt te) 0 (src (thr (onSimt te) 0) w1.s1) =
      none) ∧ (recordCheck (onSimt te) (partOf (onSimt te) 0) (src (thr (onSimt te) 0) w1.s1) = Except.error 2) ∧ (2
      ≠ 0)) ∧
    ((sFr.cur.keys = [0]) ∧ (isCob 0 = false) ∧ (answerHeld sFr 0 (src (thr sFr 0) w1.s1) = none) ∧ (recordCheck sFr
      (partOf sFr 0) (src (thr sFr 0) w1.s1) = Except.ok (frec, Subject.here 16)) ∧ (16 ≠ 0)) ∧
    (((part sFq 1).fqPend = [frec]) ∧ (frec.length = 8) ∧ (inRanges sFq 1 (bits (part sFq 1).fq 63 12 * 4096) (64 +
      64 * ringSize (part sFq 1).fq 16) = true) ∧ (poisoned sFq (bits (part sFq 1).fq 63 12 * 4096) 64 = false) ∧
      (ringClear sFq (bits (part sFq 1).fq 63 12 * 4096) 64 = true) ∧ (frameWritten sFq frec = true) ∧ (ringClear
      sFq (bits (part sFq 1).fq 63 12 * 4096 + 64 + 64 * (BitVec.toNat (rdWord sFq (bits (part sFq 1).fq 63 12 *
      4096 + 8)) % ringSize (part sFq 1).fq 16)) 64 = true) ∧ (BitVec.toNat (rdWord sFq (bits (part sFq 1).fq 63 12
      * 4096 + 8) - rdWord sFq (bits (part sFq 1).fq 63 12 * 4096)) < ringSize (part sFq 1).fq 16)) ∧
    (((onSimt te).threads = [(0, te)]) ∧ (isSimt 0 = true) ∧ (te.part = 1) ∧ (te.helper = false) ∧ (te.st ≠
      TState.exited) ∧ (te.away = false)) :=
  ⟨by decide +kernel,
   by decide +kernel,
   by decide +kernel,
   by decide +kernel⟩

/-- States and operands that meet the premises of `Obligations.TeamCreation`, each of its cases in turn. -/
theorem test_premises_TeamCreation :
    (((sNew [(0 : Word), (0 : Word), (0 : Word), (0 : Word), (0 : Word), (0 : Word), (0 : Word), (0 :
      Word)]).cur.keys = [0]) ∧ (isCob 0 = false) ∧ ((thr (sNew [(0 : Word), (0 : Word), (0 : Word), (0 : Word), (0
      : Word), (0 : Word), (0 : Word), (0 : Word)]) 0).helper = false) ∧ (descLoad (sNew [(0 : Word), (0 : Word), (0
      : Word), (0 : Word), (0 : Word), (0 : Word), (0 : Word), (0 : Word)]) 0 (src (thr (sNew [(0 : Word), (0 :
      Word), (0 : Word), (0 : Word), (0 : Word), (0 : Word), (0 : Word), (0 : Word)]) 0) w1.s1) = (Except.ok [(0 :
      Word), (0 : Word), (0 : Word), (0 : Word), (0 : Word), (0 : Word), (0 : Word), (0 : Word)], (descLoad (sNew
      [(0 : Word), (0 : Word), (0 : Word), (0 : Word), (0 : Word), (0 : Word), (0 : Word), (0 : Word)]) 0 (12288 :
      Word)).2)) ∧ (descBad (descLoad (sNew [(0 : Word), (0 : Word), (0 : Word), (0 : Word), (0 : Word), (0 : Word),
      (0 : Word), (0 : Word)]) 0 (12288 : Word)).2 (partOf (descLoad (sNew [(0 : Word), (0 : Word), (0 : Word), (0 :
      Word), (0 : Word), (0 : Word), (0 : Word), (0 : Word)]) 0 (12288 : Word)).2 0) [(0 : Word), (0 : Word), (0 :
      Word), (0 : Word), (0 : Word), (0 : Word), (0 : Word), (0 : Word)] = true)) ∧
    (((sNew (desc 0)).cur.keys = [0]) ∧ (isCob 0 = false) ∧ ((thr (sNew (desc 0)) 0).helper = false) ∧ (descLoad
      (sNew (desc 0)) 0 (src (thr (sNew (desc 0)) 0) w1.s1) = (Except.ok (desc 0), (descLoad (sNew (desc 0)) 0
      (12288 : Word)).2)) ∧ (descBad (descLoad (sNew (desc 0)) 0 (12288 : Word)).2 (partOf (descLoad (sNew (desc 0))
      0 (12288 : Word)).2 0) (desc 0) = false) ∧ (hintBad (descLoad (sNew (desc 0)) 0 (12288 : Word)).2 (partOf
      (descLoad (sNew (desc 0)) 0 (12288 : Word)).2 0) (descOf (desc 0)) = false) ∧ (noNumber (descLoad (sNew (desc
      0)) 0 (12288 : Word)).2 (partOf (descLoad (sNew (desc 0)) 0 (12288 : Word)).2 0) (asidK (descLoad (sNew (desc
      0)) 0 (12288 : Word)).2 0) = false) ∧ ((part (descLoad (sNew (desc 0)) 0 (12288 : Word)).2 (partOf (descLoad
      (sNew (desc 0)) 0 (12288 : Word)).2 0)).admissions = []) ∧ (∃ c, hintPlace (descLoad (sNew (desc 0)) 0 (12288
      : Word)).2 (partOf (descLoad (sNew (desc 0)) 0 (12288 : Word)).2 0) (descOf (desc 0)) (fun _ => 0) = some c) ∧
      (freeNumber (descLoad (sNew (desc 0)) 0 (12288 : Word)).2 (partOf (descLoad (sNew (desc 0)) 0 (12288 :
      Word)).2 0) (asidK (descLoad (sNew (desc 0)) 0 (12288 : Word)).2 0) = some 1)) ∧
    ((sQd.cur.keys = [0]) ∧ (isCob 0 = false) ∧ ((thr sQd 0).helper = false) ∧ (descLoad sQd 0 (src (thr sQd 0)
      w1.s1) = (Except.ok (desc 0), (descLoad sQd 0 (12288 : Word)).2)) ∧ (descBad (descLoad sQd 0 (12288 : Word)).2
      (partOf (descLoad sQd 0 (12288 : Word)).2 0) (desc 0) = false) ∧ (hintBad (descLoad sQd 0 (12288 : Word)).2
      (partOf (descLoad sQd 0 (12288 : Word)).2 0) (descOf (desc 0)) = false) ∧ (noNumber (descLoad sQd 0 (12288 :
      Word)).2 (partOf (descLoad sQd 0 (12288 : Word)).2 0) (asidK (descLoad sQd 0 (12288 : Word)).2 0) = false) ∧
      ((descOf (desc 0)).nowait = false) ∧ ((part (descLoad sQd 0 (12288 : Word)).2 (partOf (descLoad sQd 0 (12288 :
      Word)).2 0)).admissions ≠ [] ∨ (hintPlace (descLoad sQd 0 (12288 : Word)).2 (partOf (descLoad sQd 0 (12288 :
      Word)).2 0) (descOf (desc 0)) fun x => 0) = none)) :=
  ⟨by decide +kernel,
   ⟨by decide +kernel, by decide +kernel, by decide +kernel, by decide +kernel, by decide +kernel, by decide +kernel, by decide +kernel, by decide +kernel, place_of_fit (c := 0) (by decide +kernel) rfl (by decide +kernel) (by decide +kernel) (by decide +kernel) (by decide +kernel) rfl rfl, by decide +kernel⟩,
   by decide +kernel⟩

/-- States and operands that meet the premises of `Obligations.TeamAdmissionReleaseAndInfo`, each of its cases in turn. -/
theorem test_premises_TeamAdmissionReleaseAndInfo :
    (((part sAd 1).admissions = [v2]) ∧ ((thr sAd v2.key).st ≠ TState.halted) ∧ ((thr sAd v2.key).wait =
      Wait.admission) ∧ (descBad sAd 1 v2.desc = false) ∧ (hintBad sAd 1 (descOf v2.desc) = false) ∧ (noNumber sAd 1
      (asidK sAd v2.key) = false) ∧ (∃ c, hintPlace sAd 1 (descOf v2.desc) (fun _ => 0) = some c) ∧ (freeNumber sAd
      1 (asidK sAd v2.key) = some 1)) ∧
    (((sSolo (4 : Word) [tm]).cur.keys = [0]) ∧ (isCob 0 = false) ∧ ((thr (sSolo (4 : Word) [tm]) 0).helper = false)
      ∧ (handleBad (src (thr (sSolo (4 : Word) [tm]) 0) w1.s1) = false) ∧ (handleTeam (sSolo (4 : Word) [tm])
      (partOf (sSolo (4 : Word) [tm]) 0) (asidK (sSolo (4 : Word) [tm]) 0) (src (thr (sSolo (4 : Word) [tm]) 0)
      w1.s1) = none)) ∧
    (((sSolo (3 : Word) [tm]).cur.keys = [0]) ∧ (isCob 0 = false) ∧ ((thr (sSolo (3 : Word) [tm]) 0).helper = false)
      ∧ (handleBad (src (thr (sSolo (3 : Word) [tm]) 0) w1.s1) = false) ∧ (handleTeam (sSolo (3 : Word) [tm])
      (partOf (sSolo (3 : Word) [tm]) 0) (asidK (sSolo (3 : Word) [tm]) 0) (src (thr (sSolo (3 : Word) [tm]) 0)
      w1.s1) = some tm) ∧ (tm.st = TeamState.resident) ∧ (liveReal tm ≠ [])) ∧
    ((sTf.cur.keys = [0]) ∧ (isCob 0 = false) ∧ ((thr sTf 0).helper = false) ∧ (handleBad (src (thr sTf 0) w1.s1) =
      false) ∧ (handleTeam sTf (partOf sTf 0) (asidK sTf 0) (src (thr sTf 0) w1.s1) = some tmE) ∧ (tmE.part = partOf
      sTf 0) ∧ (tmE.asid = asidK sTf 0) ∧ (tmE.num = bits (src (thr sTf 0) w1.s1) 31 0) ∧ (tmE.ops = 0) ∧ (0 ∉
      residents tmE) ∧ (sTf.copies = []) ∧ (teamPasses sTf tmE = []) ∧ (tmE.st = TeamState.resident ∧ liveReal tmE =
      [] ∨ tmE.st = TeamState.saved ∨ tmE.st = TeamState.lost)) ∧
    (((sSolo (3 : Word) [tmS]).cur.keys = [0]) ∧ (isCob 0 = false) ∧ ((thr (sSolo (3 : Word) [tmS]) 0).helper =
      false) ∧ (handleBad (src (thr (sSolo (3 : Word) [tmS]) 0) w1.s1) = false) ∧ (handleTeam (sSolo (3 : Word)
      [tmS]) (partOf (sSolo (3 : Word) [tmS]) 0) (asidK (sSolo (3 : Word) [tmS]) 0) (src (thr (sSolo (3 : Word)
      [tmS]) 0) w1.s1) = some tmS) ∧ (tmS.part = partOf (sSolo (3 : Word) [tmS]) 0) ∧ (tmS.asid = asidK (sSolo (3 :
      Word) [tmS]) 0) ∧ (tmS.num = bits (src (thr (sSolo (3 : Word) [tmS]) 0) w1.s1) 31 0) ∧ (tmS.ops = 0) ∧ (0 ∉
      residents tmS) ∧ ((sSolo (3 : Word) [tmS]).copies = []) ∧ (teamPasses (sSolo (3 : Word) [tmS]) tmS = []) ∧
      (tmS.st = TeamState.resident ∧ liveReal tmS = [] ∨ tmS.st = TeamState.saved ∨ tmS.st = TeamState.lost)) ∧
    (((sSolo (3 : Word) [tm]).cur.keys = [0]) ∧ (isCob 0 = false) ∧ ((thr (sSolo (3 : Word) [tm]) 0).helper =
      false)) ∧
    (((sSolo (3 : Word) [tmS]).cur.keys = [0]) ∧ (isCob 0 = false) ∧ ((thr (sSolo (3 : Word) [tmS]) 0).helper =
      false)) ∧
    ((v6.cur.keys = [0]) ∧ (isCob 0 = false) ∧ ((thr v6 0).helper = false)) ∧
    (((sSolo (9 : Word) [tmS]).cur.keys = [0]) ∧ (isCob 0 = false) ∧ ((thr (sSolo (9 : Word) [tmS]) 0).helper =
      false)) :=
  ⟨(by refine ⟨?_, ?_, ?_, ?_, ?_, ?_, place_of_fit (c := 0) (by decide +kernel) rfl (by decide +kernel) (by decide +kernel) (by decide +kernel) (by decide +kernel) rfl rfl, ?_⟩ <;> decide +kernel),
   by and_intros <;> decide +kernel⟩

/-- States and operands that meet the premises of `Obligations.TeamSave`, each of its cases in turn. -/
theorem test_premises_TeamSave :
    (((sSv (131073 : Word)).cur.keys = [hk]) ∧ (isHart hk = true) ∧ (saveCheck (sSv (131073 : Word)) (partOf (sSv
      (131073 : Word)) hk) (asidK (sSv (131073 : Word)) hk) (src (thr (sSv (131073 : Word)) hk) w1.s1) (src (thr
      (sSv (131073 : Word)) hk) w1.s2) ≠ 0)) ∧
    (((sSv (131072 : Word)).cur.keys = [hk]) ∧ (isHart hk = true) ∧ (saveCheck (sSv (131072 : Word)) (partOf (sSv
      (131072 : Word)) hk) (asidK (sSv (131072 : Word)) hk) (src (thr (sSv (131072 : Word)) hk) w1.s1) (src (thr
      (sSv (131072 : Word)) hk) w1.s2) = 0) ∧ (team? (sSv (131072 : Word)) (partOf (sSv (131072 : Word)) hk) (asidK
      (sSv (131072 : Word)) hk) (bits (src (thr (sSv (131072 : Word)) hk) w1.s1) 31 0) = some tm)) ∧
    ((sSoon.teams = [tmV]) ∧ (tmV.part = 1) ∧ (tmV.asid = 1) ∧ (tmV.num = 3) ∧ (tmV.st = TeamState.saving) ∧
      (sSoon.us < tmV.deadline) ∧ (saveReady sSoon tmV = true) ∧ (postClear sSoon tmV.die tmV.frame (frameSize
      tmV.desc) = true) ∧ (tmV.stopping = none) ∧ ((part sSoon 1).dbgcmd = 0) ∧ (∀ e ∈ tmV.members, e.1 <
      tmV.desc.l4) ∧ (mkeys tmV.members = true)) ∧
    ((sIm.teams = [tmV]) ∧ (tmV.part = 1) ∧ (tmV.asid = 1) ∧ (tmV.num = 3) ∧ (tmV.st = TeamState.saving) ∧
      (tmV.deadline ≤ sIm.us) ∧ (3 < 4096) ∧ (postClear sIm tmV.die tmV.frame 8 = true) ∧ (∀ c ∈ sIm.copies, c.state
      ≠ 2)) :=
  ⟨by decide +kernel,
   by decide +kernel,
   by decide +kernel,
   by decide +kernel⟩

/-- States and operands that meet the premises of `Obligations.TeamLoad`, each of its cases in turn. -/
theorem test_premises_TeamLoad :
    (((sLd (131080 : Word) (0 : Word)).cur.keys = [hk]) ∧ (isHart hk = true) ∧ (BitVec.toNat (src (thr (sLd (131080
      : Word) (0 : Word)) hk) w1.s1) % 4096 = 0 → recordHeld (sLd (131080 : Word) (0 : Word)) hk (BitVec.toNat (src
      (thr (sLd (131080 : Word) (0 : Word)) hk) w1.s1)) 64 = none) ∧ (loadCheck (sLd (131080 : Word) (0 : Word))
      (partOf (sLd (131080 : Word) (0 : Word)) hk) (asidK (sLd (131080 : Word) (0 : Word)) hk) (src (thr (sLd
      (131080 : Word) (0 : Word)) hk) w1.s1) (src (thr (sLd (131080 : Word) (0 : Word)) hk) w1.s2) = Except.error
      8)) ∧
    (((sLd (131072 : Word) (0 : Word)).cur.keys = [hk]) ∧ (isHart hk = true) ∧ (BitVec.toNat (src (thr (sLd (131072
      : Word) (0 : Word)) hk) w1.s1) % 4096 = 0 → recordHeld (sLd (131072 : Word) (0 : Word)) hk (BitVec.toNat (src
      (thr (sLd (131072 : Word) (0 : Word)) hk) w1.s1)) 64 = none) ∧ (∃ c, loadCheck (sLd (131072 : Word) (0 :
      Word)) (partOf (sLd (131072 : Word) (0 : Word)) hk) (asidK (sLd (131072 : Word) (0 : Word)) hk) (src (thr (sLd
      (131072 : Word) (0 : Word)) hk) w1.s1) (src (thr (sLd (131072 : Word) (0 : Word)) hk) w1.s2) = Except.ok (tmL,
      c)) ∧ (team? (sLd (131072 : Word) (0 : Word)) tmL.part tmL.asid tmL.num = some tmL)) ∧
    ((sLc.teams = [tmG]) ∧ (tmG.part = 1) ∧ (tmG.asid = 1) ∧ (tmG.num = 3) ∧ (tmG.st = TeamState.loading) ∧
      (tmG.kept = []) ∧ (tmG.late = []) ∧ (tmG.stopping = none) ∧ ((part sLc 1).dbgcmd = 0) ∧ (poisoned sLc
      tmG.frame (frameSize tmG.desc) = false) ∧ (postClear sLc tmG.die tmG.frame (frameSize tmG.desc) = true) ∧
      (LaceWaitsStand sLc)) :=
  ⟨by decide +kernel,
   ⟨by decide +kernel, by decide +kernel, by decide +kernel, load_of_place (by decide +kernel) (by decide +kernel) (by decide +kernel) (by decide +kernel) (place_of_fit (c := 0) (by decide +kernel) rfl (by decide +kernel) (by decide +kernel) (by decide +kernel) (by decide +kernel) rfl rfl), by decide +kernel⟩,
   ⟨by decide +kernel, by decide +kernel, by decide +kernel, by decide +kernel, by decide +kernel, by decide +kernel, by decide +kernel, by decide +kernel, by decide +kernel, by decide +kernel, by decide +kernel, stands_of (by decide +kernel)⟩⟩
end Sys2Proof.Tests.Team

/-! Queues, tasks and joins. -/

namespace Sys2Proof.Tests.Queue

open Sys2Proof.Machine

def w1 : Wide := wd 10 11 12 13

def putW (s : State) (a : Nat) (l : List Word) : State := (l.zipIdx).foldl (fun s (v, i) => wrWord s (a + 8 * i) v)
  s

def te : Thread := { th0 with x := [(11, 0x3000), (12, 0x3100), (13, 99)] }

def rec0 : List Word := [0x500, 1, 2, 0x30]

def sQ (res head : Word) (ready : Bool) : State := putW (putW (putW (onSimt te) 0x3000 [0x4004, res, head, 9, 0, 0,
  0, 0]) 0x3100 rec0) 0x4000 (if ready then [0x700, 3, 4, 1] else [0, 0, 0, 0])

def v1 := putW (sQ 0 0 false) 0x3000 [1]

def v2 := putW (sQ 0 0 false) 0x3100 [1]

def sP : State := sQ 15 0 false

def sO : State := sQ 1 0 true

def sHq : State := { onHart h1 { te with satp := 0 } with mem := sP.mem }

def qb (m tf : Word) : State := putW (onHart h1 te) 0x3000 [0x3040, satp1, 4, m, tf, 0, 0, 0]

def bnd : QBinding := { qva := 0x3000, satp := satp1, tmax := 4, tfr := 0x10000, suspended := false, part := 1 }

def sD (s : State) : State :=
  { s with threads := [(3, te)], cores := [(0, { binding := some bnd })], cycle := 1000 }

def sDb : State := sD (putW sO 0x3000 [1])

def tj : Thread := { te with x := [(11, 0x5000), (12, 5), (13, 0x3000)] }

def v3 := onSimt { tj with x := [(11, 0x5000), (12, 0)] }

def sE (n : Word) (x : Word) : State :=
  { putW (sQ 0 0 false) 0x5000 [n, 0x3000, 0x900, 5, 6, 0] with threads := [(0, { tj with x := [(11, x)], task := true })] }

def v4 := (pushOne (modThr (joinCount (sE 1 0x5000) 0 0x5000).2 0 fun t => { t with wus := 0 }) 0 0x5000).2

def sEf : State := putW (sE 1 0x5000) 0x3008 [16]

def v5 := (pushOne (modThr (joinCount sEf 0 0x5000).2 0 fun t => { t with wus := 0 }) 0 0x5000).2

def sRt (s : State) : State :=
  { s with threads := [(0, { tj with task := true, wait := .pushRetry 0x5000, st := .blocked, holdTill := some 1000 })] }

/-- States and operands that meet the premises of `Obligations.QueuePushPop`, each of its cases in turn. -/
theorem test_premises_QueuePushPop :
    ((mkeys v1.threads = true) ∧ (v1.cur.keys = [0]) ∧ (isCob 0 = false) ∧ ((thr v1 0).helper = false) ∧ ((thr v1
      0).wait = Wait.none) ∧ (qOperand v1 0 (src (thr v1 0) w1.s1) 64 64 Acc.store = (Except.ok 12288, v1)) ∧
      (qOperand v1 0 (src (thr v1 0) w1.s2) 32 32 Acc.load = (Except.ok 12544, v1)) ∧ (headerBad (headerAt v1 12288)
      = true)) ∧
    ((mkeys v2.threads = true) ∧ (v2.cur.keys = [0]) ∧ (isCob 0 = false) ∧ ((thr v2 0).helper = false) ∧ ((thr v2
      0).wait = Wait.none) ∧ (qOperand v2 0 (src (thr v2 0) w1.s1) 64 64 Acc.store = (Except.ok 12288, v2)) ∧
      (qOperand v2 0 (src (thr v2 0) w1.s2) 32 32 Acc.load = (Except.ok 12544, v2)) ∧ (headerBad (headerAt v2 12288)
      = false) ∧ (recordBad (rdWords v2 12544 4) = true)) ∧
    ((mkeys (sQ (16 : Word) (0 : Word) false).threads = true) ∧ ((sQ (16 : Word) (0 : Word) false).cur.keys = [0]) ∧
      (isCob 0 = false) ∧ ((thr (sQ (16 : Word) (0 : Word) false) 0).helper = false) ∧ ((thr (sQ (16 : Word) (0 :
      Word) false) 0).wait = Wait.none) ∧ (qOperand (sQ (16 : Word) (0 : Word) false) 0 (src (thr (sQ (16 : Word) (0
      : Word) false) 0) w1.s1) 64 64 Acc.store = (Except.ok 12288, sQ (16 : Word) (0 : Word) false)) ∧ (qOperand (sQ
      (16 : Word) (0 : Word) false) 0 (src (thr (sQ (16 : Word) (0 : Word) false) 0) w1.s2) 32 32 Acc.load =
      (Except.ok 12544, sQ (16 : Word) (0 : Word) false)) ∧ (headerBad (headerAt (sQ (16 : Word) (0 : Word) false)
      12288) = false) ∧ (recordBad (rdWords (sQ (16 : Word) (0 : Word) false) 12544 4) = false) ∧ (isHart 0 = true →
      ∀ x ∈ (thr (sQ (16 : Word) (0 : Word) false) 0).pushHeld, x.1 ≠ (thr (sQ (16 : Word) (0 : Word) false) 0).pc)
      ∧ (ringFull (headerAt (sQ (16 : Word) (0 : Word) false) 12288) 1 = true)) ∧
    ((mkeys sP.threads = true) ∧ (sP.cur.keys = [0]) ∧ (isCob 0 = false) ∧ ((thr sP 0).helper = false) ∧ ((thr sP
      0).wait = Wait.none) ∧ (qOperand sP 0 (src (thr sP 0) w1.s1) 64 64 Acc.store = (Except.ok 12288, sP)) ∧
      (qOperand sP 0 (src (thr sP 0) w1.s2) 32 32 Acc.load = (Except.ok 12544, sP)) ∧ (headerBad (headerAt sP 12288)
      = false) ∧ (recordBad (rdWords sP 12544 4) = false) ∧ (isHart 0 = true → ∀ x ∈ (thr sP 0).pushHeld, x.1 ≠ (thr
      sP 0).pc) ∧ (ringFull (headerAt sP 12288) 1 = false) ∧ (coherentReach (reserve sP 0 12288 1).2 0 (ringAddr
      (headerAt sP 12288) (qRes (headerAt sP 12288))) 32 Acc.store = (Except.ok (Loc.mem 16864 (1 : Word)),
      (coherentReach (reserve sP 0 12288 1).2 0 (ringAddr (headerAt sP 12288) (15 : Word)) 32 Acc.store).2))) ∧
    ((mkeys v1.threads = true) ∧ (v1.cur.keys = [0]) ∧ (isCob 0 = false) ∧ ((thr v1 0).helper = false) ∧ ((thr v1
      0).wait = Wait.none) ∧ (qOperand v1 0 (src (thr v1 0) w1.s1) 64 64 Acc.store = (Except.ok 12288, v1)) ∧
      (qOperand v1 0 (src (thr v1 0) w1.s2) 32 32 Acc.store = (Except.ok 12544, v1)) ∧ (headerBad (headerAt v1
      12288) = true)) ∧
    ((mkeys (sQ (0 : Word) (0 : Word) false).threads = true) ∧ ((sQ (0 : Word) (0 : Word) false).cur.keys = [0]) ∧
      (isCob 0 = false) ∧ ((thr (sQ (0 : Word) (0 : Word) false) 0).helper = false) ∧ ((thr (sQ (0 : Word) (0 :
      Word) false) 0).wait = Wait.none) ∧ (qOperand (sQ (0 : Word) (0 : Word) false) 0 (src (thr (sQ (0 : Word) (0 :
      Word) false) 0) w1.s1) 64 64 Acc.store = (Except.ok 12288, sQ (0 : Word) (0 : Word) false)) ∧ (qOperand (sQ (0
      : Word) (0 : Word) false) 0 (src (thr (sQ (0 : Word) (0 : Word) false) 0) w1.s2) 32 32 Acc.store = (Except.ok
      12544, sQ (0 : Word) (0 : Word) false)) ∧ (headerBad (headerAt (sQ (0 : Word) (0 : Word) false) 12288) =
      false) ∧ (readyRecord (sQ (0 : Word) (0 : Word) false) 0 12288 = (Except.ok none, sQ (0 : Word) (0 : Word)
      false))) ∧
    ((mkeys sO.threads = true) ∧ (sO.cur.keys = [0]) ∧ (isCob 0 = false) ∧ ((thr sO 0).helper = false) ∧ ((thr sO
      0).wait = Wait.none) ∧ (qOperand sO 0 (src (thr sO 0) w1.s1) 64 64 Acc.store = (Except.ok 12288, sO)) ∧
      (qOperand sO 0 (src (thr sO 0) w1.s2) 32 32 Acc.store = (Except.ok 12544, sO)) ∧ (headerBad (headerAt sO
      12288) = false) ∧ (readyRecord sO 0 12288 = (Except.ok (some (16384, [(1792 : Word), (3 : Word), (4 : Word),
      (1 : Word)])), sO))) ∧
    ((mkeys v1.threads = true) ∧ (v1.cur.keys = [0]) ∧ (isCob 0 = false) ∧ ((thr v1 0).helper = false) ∧ ((thr v1
      0).wait = Wait.none) ∧ (qOperand v1 0 (src (thr v1 0) w1.s1) 64 64 Acc.load = (Except.ok 12288, v1)) ∧
      (headerBad (headerAt v1 12288) = true)) ∧
    ((mkeys sO.threads = true) ∧ (sO.cur.keys = [0]) ∧ (isCob 0 = false) ∧ ((thr sO 0).helper = false) ∧ ((thr sO
      0).wait = Wait.none) ∧ (qOperand sO 0 (src (thr sO 0) w1.s1) 64 64 Acc.load = (Except.ok 12288, sO)) ∧
      (headerBad (headerAt sO 12288) = false) ∧ (qCount (headerAt sO 12288) ≠ 0)) ∧
    ((mkeys (sQ (0 : Word) (0 : Word) false).threads = true) ∧ ((sQ (0 : Word) (0 : Word) false).cur.keys = [0]) ∧
      (isCob 0 = false) ∧ ((thr (sQ (0 : Word) (0 : Word) false) 0).helper = false) ∧ ((thr (sQ (0 : Word) (0 :
      Word) false) 0).wait = Wait.none) ∧ (qOperand (sQ (0 : Word) (0 : Word) false) 0 (src (thr (sQ (0 : Word) (0 :
      Word) false) 0) w1.s1) 64 64 Acc.load = (Except.ok 12288, sQ (0 : Word) (0 : Word) false)) ∧ (headerBad
      (headerAt (sQ (0 : Word) (0 : Word) false) 12288) = false) ∧ (qCount (headerAt (sQ (0 : Word) (0 : Word)
      false) 12288) = 0)) ∧
    ((mkeys sHq.threads = true) ∧ (sHq.cur.keys = [hk]) ∧ (isCob hk = false) ∧ ((thr sHq hk).helper = false) ∧ ((thr
      sHq hk).wait = Wait.none) ∧ (qOperand sHq hk (src (thr sHq hk) w1.s1) 64 64 Acc.store = (Except.ok 12288,
      sHq)) ∧ (qOperand sHq hk (src (thr sHq hk) w1.s2) 32 32 Acc.load = (Except.ok 12544, sHq)) ∧ (headerBad
      (headerAt sHq 12288) = false) ∧ (recordBad (rdWords sHq 12544 4) = false) ∧ (isHart hk = true → ∀ x ∈ (thr sHq
      hk).pushHeld, x.1 ≠ (thr sHq hk).pc) ∧ (ringFull (headerAt sHq 12288) 1 = false) ∧ (coherentReach (reserve sHq
      hk 12288 1).2 hk (ringAddr (headerAt sHq 12288) (qRes (headerAt sHq 12288))) 32 Acc.store = (Except.ok
      (Loc.mem 16864 (1 : Word)), (coherentReach (reserve sHq hk 12288 1).2 hk (ringAddr (headerAt sHq 12288) (15 :
      Word)) 32 Acc.store).2))) :=
  ⟨by decide +kernel,
   by decide +kernel,
   by decide +kernel,
   by decide +kernel,
   by decide +kernel,
   by decide +kernel,
   by decide +kernel,
   by decide +kernel,
   by decide +kernel,
   by decide +kernel,
   by decide +kernel⟩

/-- States and operands that meet the premises of `Obligations.TasksStart`, each of its cases in turn. -/
theorem test_premises_TasksStart :
    (((qb (16 : Word) (1048576 : Word)).cur.keys = [hk]) ∧ (isHart hk = true) ∧ (BitVec.toNat (src (thr (qb (16 :
      Word) (1048576 : Word)) hk) w1.s1) % 64 = 0 → recordHeld (qb (16 : Word) (1048576 : Word)) hk (BitVec.toNat
      (src (thr (qb (16 : Word) (1048576 : Word)) hk) w1.s1)) 64 = none) ∧ (bindCheck (qb (16 : Word) (1048576 :
      Word)) (partOf (qb (16 : Word) (1048576 : Word)) hk) (src (thr (qb (16 : Word) (1048576 : Word)) hk) w1.s1) ≠
      0)) ∧
    (((qb (3 : Word) (1048576 : Word)).cur.keys = [hk]) ∧ (isHart hk = true) ∧ (BitVec.toNat (src (thr (qb (3 :
      Word) (1048576 : Word)) hk) w1.s1) % 64 = 0 → recordHeld (qb (3 : Word) (1048576 : Word)) hk (BitVec.toNat
      (src (thr (qb (3 : Word) (1048576 : Word)) hk) w1.s1)) 64 = none) ∧ (bindCheck (qb (3 : Word) (1048576 :
      Word)) (partOf (qb (3 : Word) (1048576 : Word)) hk) (src (thr (qb (3 : Word) (1048576 : Word)) hk) w1.s1) =
      0)) ∧
    (((Machine.core (sD sO) 0).binding = some bnd) ∧ (idleSlots (sD sO) 0 = 0 :: (idleSlots (sD sO) 0).tail) ∧
      (bnd.suspended = false) ∧ ((Machine.core (sD sO) 0).nextDispatch ≤ (sD sO).cycle) ∧ (tasksOf (sD sO) 0 <
      bnd.tmax) ∧ (examine (sD sO) (dispatchCtx (sD sO) 0 bnd) bnd.qva = (Found.record 12288 16384 [(1792 : Word),
      (3 : Word), (4 : Word), (1 : Word)], (examine (sD sO) (dispatchCtx (sD sO) 0 bnd) (12288 : Word)).2))) ∧
    (((Machine.core sDb 0).binding = some bnd) ∧ (idleSlots sDb 0 = 0 :: (idleSlots sDb 0).tail) ∧ (bnd.suspended =
      false) ∧ ((Machine.core sDb 0).nextDispatch ≤ sDb.cycle) ∧ (tasksOf sDb 0 < bnd.tmax) ∧ (examine sDb
      (dispatchCtx sDb 0 bnd) bnd.qva = (Found.stop 0 (0 : Word), (examine sDb (dispatchCtx sDb 0 bnd) (12288 :
      Word)).2)) ∧ (0 < 256)) :=
  ⟨by decide +kernel,
   by decide +kernel,
   by decide +kernel,
   by decide +kernel⟩

/-- States and operands that meet the premises of `Obligations.JoinBlocks`, each of its cases in turn. -/
theorem test_premises_JoinBlocks :
    ((v3.cur.keys = [0]) ∧ (isCob 0 = false) ∧ ((thr v3 0).helper = false) ∧ (qOperand v3 0 (src (thr v3 0) w1.s1)
      64 64 Acc.store = (Except.ok 20480, v3)) ∧ (src (thr v3 0) w1.s2 = 0 ∨ bit (src (thr v3 0) w1.s2) 63 = true)) ∧
    (((onSimt tj).cur.keys = [0]) ∧ (isCob 0 = false) ∧ ((thr (onSimt tj) 0).helper = false) ∧ (qOperand (onSimt tj)
      0 (src (thr (onSimt tj) 0) w1.s1) 64 64 Acc.store = (Except.ok 20480, onSimt tj)) ∧ (src (thr (onSimt tj) 0)
      w1.s2 ≠ 0) ∧ (bit (src (thr (onSimt tj) 0) w1.s2) 63 = false)) ∧
    (((sE (0 : Word) (0 : Word)).cur.keys = [0]) ∧ (isSimt 0 = true) ∧ ((thr (sE (0 : Word) (0 : Word)) 0).helper =
      false) ∧ ((thr (sE (0 : Word) (0 : Word)) 0).task = true) ∧ ((thr (sE (0 : Word) (0 : Word)) 0).team = 0) ∧
      (src (thr (sE (0 : Word) (0 : Word)) 0) w1.s1 = 0)) ∧
    (((sE (0 : Word) (20480 : Word)).cur.keys = [0]) ∧ (isSimt 0 = true) ∧ ((thr (sE (0 : Word) (20480 : Word))
      0).helper = false) ∧ ((thr (sE (0 : Word) (20480 : Word)) 0).task = true) ∧ ((thr (sE (0 : Word) (20480 :
      Word)) 0).team = 0) ∧ (src (thr (sE (0 : Word) (20480 : Word)) 0) w1.s1 ≠ 0) ∧ (qOperand (sE (0 : Word) (20480
      : Word)) 0 (src (thr (sE (0 : Word) (20480 : Word)) 0) w1.s1) 64 64 Acc.store = (Except.ok 20480, sE (0 :
      Word) (20480 : Word))) ∧ (rdWord (sE (0 : Word) (20480 : Word)) 20480 = 0)) ∧
    (((sE (2 : Word) (20480 : Word)).cur.keys = [0]) ∧ (isSimt 0 = true) ∧ ((thr (sE (2 : Word) (20480 : Word))
      0).helper = false) ∧ ((thr (sE (2 : Word) (20480 : Word)) 0).task = true) ∧ ((thr (sE (2 : Word) (20480 :
      Word)) 0).team = 0) ∧ (src (thr (sE (2 : Word) (20480 : Word)) 0) w1.s1 ≠ 0) ∧ (qOperand (sE (2 : Word) (20480
      : Word)) 0 (src (thr (sE (2 : Word) (20480 : Word)) 0) w1.s1) 64 64 Acc.store = (Except.ok 20480, sE (2 :
      Word) (20480 : Word))) ∧ (rdWord (sE (2 : Word) (20480 : Word)) 20480 ≠ 0) ∧ (rdWord (sE (2 : Word) (20480 :
      Word)) 20480 ≠ 1)) ∧
    (((sE (1 : Word) (20480 : Word)).cur.keys = [0]) ∧ (isSimt 0 = true) ∧ ((thr (sE (1 : Word) (20480 : Word))
      0).helper = false) ∧ ((thr (sE (1 : Word) (20480 : Word)) 0).task = true) ∧ ((thr (sE (1 : Word) (20480 :
      Word)) 0).team = 0) ∧ (src (thr (sE (1 : Word) (20480 : Word)) 0) w1.s1 ≠ 0) ∧ (qOperand (sE (1 : Word) (20480
      : Word)) 0 (src (thr (sE (1 : Word) (20480 : Word)) 0) w1.s1) 64 64 Acc.store = (Except.ok 20480, sE (1 :
      Word) (20480 : Word))) ∧ (rdWord (sE (1 : Word) (20480 : Word)) 20480 = 1) ∧ (pushOne (modThr (joinCount (sE
      (1 : Word) (20480 : Word)) 0 20480).2 0 fun t =>
      { part := t.part, satp := t.satp, st := t.st, before := t.before, x := t.x, f := t.f, pc := t.pc, fcsr := t.fcsr, lfsr := t.lfsr, qflags := t.qflags, tprio := t.tprio, trap := t.trap, chain := t.chain, hchain := t.hchain, tid := t.tid, team := t.team, tidx := t.tidx, gangw := t.gangw, helper := t.helper, stopped := t.stopped, task := t.task, autoRet := t.autoRet, sigpend := t.sigpend, cause := t.cause, reth := t.reth, lastPlace := t.lastPlace, frame := t.frame, ops := t.ops, held := t.held, wait := t.wait, ww := t.ww, age := t.age, promoted := t.promoted, park := t.park, pend0E := t.pend0E, pend16 := t.pend16, holdTill := t.holdTill, pushHeld := t.pushHeld, away := t.away : Thread })
      0 20480 = (true, v4))) ∧
    ((sEf.cur.keys = [0]) ∧ (isSimt 0 = true) ∧ ((thr sEf 0).helper = false) ∧ ((thr sEf 0).task = true) ∧ ((thr sEf
      0).team = 0) ∧ (src (thr sEf 0) w1.s1 ≠ 0) ∧ (qOperand sEf 0 (src (thr sEf 0) w1.s1) 64 64 Acc.store =
      (Except.ok 20480, sEf)) ∧ (rdWord sEf 20480 = 1) ∧ (pushOne (modThr (joinCount sEf 0 20480).2 0 fun t =>
      { part := t.part, satp := t.satp, st := t.st, before := t.before, x := t.x, f := t.f, pc := t.pc, fcsr := t.fcsr, lfsr := t.lfsr, qflags := t.qflags, tprio := t.tprio, trap := t.trap, chain := t.chain, hchain := t.hchain, tid := t.tid, team := t.team, tidx := t.tidx, gangw := t.gangw, helper := t.helper, stopped := t.stopped, task := t.task, autoRet := t.autoRet, sigpend := t.sigpend, cause := t.cause, reth := t.reth, lastPlace := t.lastPlace, frame := t.frame, ops := t.ops, held := t.held, wait := t.wait, ww := t.ww, age := t.age, promoted := t.promoted, park := t.park, pend0E := t.pend0E, pend16 := t.pend16, holdTill := t.holdTill, pushHeld := t.pushHeld, away := t.away : Thread })
      0 20480 = (false, v5))) ∧
    ((isSimt 0 = true) ∧ ((thr (sRt (sE (0 : Word) (0 : Word))) 0).helper = false) ∧ ((thr (sRt (sE (0 : Word) (0 :
      Word))) 0).task = true) ∧ ((thr (sRt (sE (0 : Word) (0 : Word))) 0).team = 0) ∧ ((thr (sRt (sE (0 : Word) (0 :
      Word))) 0).wait = Wait.pushRetry (20480 : Word)) ∧ ((thr (sRt (sE (0 : Word) (0 : Word))) 0).st =
      TState.blocked) ∧ ((thr (sRt (sE (0 : Word) (0 : Word))) 0).holdTill = some (sRt (sE (0 : Word) (0 :
      Word))).cycle) ∧ (pushOne (sRt (sE (0 : Word) (0 : Word))) 0 (BitVec.toNat (20480 : Word)) = (true, (pushOne
      (sRt (sE (0 : Word) (0 : Word))) 0 20480).2))) ∧
    ((isSimt 0 = true) ∧ ((thr (sRt sEf) 0).helper = false) ∧ ((thr (sRt sEf) 0).task = true) ∧ ((thr (sRt sEf)
      0).team = 0) ∧ ((thr (sRt sEf) 0).wait = Wait.pushRetry (20480 : Word)) ∧ ((thr (sRt sEf) 0).st =
      TState.blocked) ∧ ((thr (sRt sEf) 0).holdTill = some (sRt sEf).cycle) ∧ (pushOne (sRt sEf) 0 (BitVec.toNat
      (20480 : Word)) = (false, (pushOne (sRt sEf) 0 20480).2))) :=
  ⟨by decide +kernel,
   by decide +kernel,
   by decide +kernel,
   by decide +kernel,
   by decide +kernel,
   by decide +kernel,
   by decide +kernel,
   by decide +kernel,
   by decide +kernel⟩
end Sys2Proof.Tests.Queue

/-! Sync entries. -/

namespace Sys2Proof.Tests.Sync

open Sys2Proof.Machine

def w1 : Wide := wd 10 11 12 13

def mm (l : Nat) : Machine.Member := { loc := .here, frame := 0x9000 + 1024 * l }

def tm0 : Machine.Team :=
  { part := 1, asid := 1, num := 3, st := .resident, serial := 5, desc := { limit := 4, gw := 16, syncs := 2, tiles := 4, accs := 2, scrpg := 1, frames := 0x9000 }, count := 2, members := [(0, mm 0), (1, mm 1)] }

def tmE (e : SyncEntry) : Machine.Team := { tm0 with syncs := [(0, e)] }

def te (a b : Word) : Thread := { th0 with x := [(11, a), (12, b)], team := 3, gangw := 16 }

def st (t : Thread) (m : Machine.Team) : State := { onSimt t with teams := [m] }

def st2 (t u : Thread) (m : Machine.Team) : State :=
  { onSimt t with teams := [m], threads := [(0, t), (16, { u with team := 3, gangw := 16, tidx := 1 })] }

def v1 := { w1 with imm11 := 2 }

def e1 : SyncEntry := { kind := 1, value := 5 }

def sIni (c v : Word) : State := st (te c v) (tmE e1)

def eW : SyncEntry := { e1 with waiters := [(1, 9)] }

def u1 : Thread := { th0 with st := .blocked, wait := .sem 0 9, ww := { w1 with d := 9 } }

def v2 := st2 (te 0x1000 5) u1 (tmE eW)

def v3 := sIni 0x1_0000_0000_0000 5

def b0 (ex arr : Nat) (p : Int) : SyncEntry :=
  { kind := 2, expect := ex, arrived := arr, pend := p, phase := 65535 }

def v4 := st (te 0 0) (tmE (b0 3 1 0))

def v5 := st (te 0 0) (tmE (b0 1 0 8))

def u2 : Thread := { th0 with st := .blocked, wait := .barrier 0 65535 1, ww := { w1 with d := 9 } }

def sB : State := st2 (te 0 0) u2 (tmE (b0 2 1 0))

def bt (arr : List (Nat × Bool)) : Machine.Team :=
  { tmE { b0 0 0 0 with tb := true } with arr := arr, phase := 65535 }

def v6 := st (te 0 0) (bt [(0, true)])

def v7 := st (te 0 0) (bt [(1, true)])

def v8 := st (te 0x10000 0) (tmE (b0 3 1 0))

def v9 := st (te 0xFFFE 0) (tmE (b0 3 1 0))

def v10 := st (te 0xFFFF 0) (tmE (b0 3 1 0))

def v11 := st (te 0x8_0000_0000 0) (tmE (b0 3 1 0))

def v12 := st (te 0x7_FFFF_FFFF 0) (tmE (b0 3 1 0))

def v13 := st (te 5 0) (tmE (b0 3 3 (-9)))

/-- States and operands that meet the premises of `Obligations.Semaphores`, each of its cases in turn. -/
theorem test_premises_Semaphores :
    (((onSimt th0).cur.keys = [0]) ∧ ((thr (onSimt th0) 0).helper = false) ∧ (isSimt 0 = true) ∧ (∀ (m : Team),
      teamK? (onSimt th0) 0 = some m → m.desc.syncs ≤ entryNo w1)) ∧
    (((st (te (1 : Word) (2 : Word)) tm0).cur.keys = [0]) ∧ ((thr (st (te (1 : Word) (2 : Word)) tm0) 0).helper =
      false) ∧ (isSimt 0 = true) ∧ (∀ (m : Team), teamK? (st (te (1 : Word) (2 : Word)) tm0) 0 = some m →
      m.desc.syncs ≤ entryNo v1)) ∧
    (((sIni (32768 : Word) (0 : Word)).cur.keys = [0]) ∧ ((thr (sIni (32768 : Word) (0 : Word)) 0).helper = false) ∧
      (isSimt 0 = true) ∧ (teamK? (sIni (32768 : Word) (0 : Word)) 0 = some (tmE e1)) ∧ (entryNo w1 < (tmE
      e1).desc.syncs) ∧ (memberKey (tmE e1) (thr (sIni (32768 : Word) (0 : Word)) 0).tidx = 0) ∧ (liveReal (tmE e1)
      ≠ []) ∧ (configBad (tmE e1) (entryNo w1) (src (thr (sIni (32768 : Word) (0 : Word)) 0) w1.s1) (src (thr (sIni
      (32768 : Word) (0 : Word)) 0) w1.s2) = true)) ∧
    ((v2.cur.keys = [0]) ∧ ((thr v2 0).helper = false) ∧ (isSimt 0 = true) ∧ (teamK? v2 0 = some (tmE eW)) ∧
      (entryNo w1 < (tmE eW).desc.syncs) ∧ (memberKey (tmE eW) (thr v2 0).tidx = 0) ∧ (liveReal (tmE eW) ≠ []) ∧
      (configBad (tmE eW) (entryNo w1) (src (thr v2 0) w1.s1) (src (thr v2 0) w1.s2) = false) ∧ (entryWaited v2 (tmE
      eW) (entryNo w1) = true)) ∧
    (((sIni (4096 : Word) (5 : Word)).cur.keys = [0]) ∧ ((thr (sIni (4096 : Word) (5 : Word)) 0).helper = false) ∧
      (isSimt 0 = true) ∧ (teamK? (sIni (4096 : Word) (5 : Word)) 0 = some (tmE e1)) ∧ (entryNo w1 < (tmE
      e1).desc.syncs) ∧ (memberKey (tmE e1) (thr (sIni (4096 : Word) (5 : Word)) 0).tidx = 0) ∧ (liveReal (tmE e1) ≠
      []) ∧ (configBad (tmE e1) (entryNo w1) (src (thr (sIni (4096 : Word) (5 : Word)) 0) w1.s1) (src (thr (sIni
      (4096 : Word) (5 : Word)) 0) w1.s2) = false) ∧ (entryWaited (sIni (4096 : Word) (5 : Word)) (tmE e1) (entryNo
      w1) = false)) ∧
    (((sIni (10240 : Word) (5 : Word)).cur.keys = [0]) ∧ ((thr (sIni (10240 : Word) (5 : Word)) 0).helper = false) ∧
      (isSimt 0 = true) ∧ (teamK? (sIni (10240 : Word) (5 : Word)) 0 = some (tmE e1)) ∧ (entryNo w1 < (tmE
      e1).desc.syncs) ∧ (memberKey (tmE e1) (thr (sIni (10240 : Word) (5 : Word)) 0).tidx = 0) ∧ (liveReal (tmE e1)
      ≠ []) ∧ (configBad (tmE e1) (entryNo w1) (src (thr (sIni (10240 : Word) (5 : Word)) 0) w1.s1) (src (thr (sIni
      (10240 : Word) (5 : Word)) 0) w1.s2) = false) ∧ (entryWaited (sIni (10240 : Word) (5 : Word)) (tmE e1)
      (entryNo w1) = false)) ∧
    (((st (te (5 : Word) (0 : Word)) tm0).cur.keys = [0]) ∧ ((thr (st (te (5 : Word) (0 : Word)) tm0) 0).helper =
      false) ∧ (isSimt 0 = true) ∧ (teamK? (st (te (5 : Word) (0 : Word)) tm0) 0 = some tm0) ∧ (entryNo w1 <
      tm0.desc.syncs) ∧ (memberKey tm0 (thr (st (te (5 : Word) (0 : Word)) tm0) 0).tidx = 0) ∧ (liveReal tm0 ≠ []) ∧
      ((syncOf tm0 (entryNo w1)).kind ≠ 1)) ∧
    ((v3.cur.keys = [0]) ∧ ((thr v3 0).helper = false) ∧ (isSimt 0 = true) ∧ (teamK? v3 0 = some (tmE e1)) ∧
      (entryNo w1 < (tmE e1).desc.syncs) ∧ (memberKey (tmE e1) (thr v3 0).tidx = 0) ∧ (liveReal (tmE e1) ≠ []) ∧
      ((syncOf (tmE e1) (entryNo w1)).kind = 1) ∧ (2 ^ 48 ≤ BitVec.toNat (src (thr v3 0) w1.s1))) ∧
    (((sIni (5 : Word) (5 : Word)).cur.keys = [0]) ∧ ((thr (sIni (5 : Word) (5 : Word)) 0).helper = false) ∧ (isSimt
      0 = true) ∧ (teamK? (sIni (5 : Word) (5 : Word)) 0 = some (tmE e1)) ∧ (entryNo w1 < (tmE e1).desc.syncs) ∧
      (memberKey (tmE e1) (thr (sIni (5 : Word) (5 : Word)) 0).tidx = 0) ∧ (liveReal (tmE e1) ≠ []) ∧ ((syncOf (tmE
      e1) (entryNo w1)).kind = 1) ∧ (BitVec.toNat (src (thr (sIni (5 : Word) (5 : Word)) 0) w1.s1) < 2 ^ 48) ∧
      (BitVec.toNat (src (thr (sIni (5 : Word) (5 : Word)) 0) w1.s1) ≠ 0) ∧ ((syncOf (tmE e1) (entryNo w1)).waiters
      = []) ∧ (BitVec.toNat (src (thr (sIni (5 : Word) (5 : Word)) 0) w1.s1) ≤ (syncOf (tmE e1) (entryNo
      w1)).value)) ∧
    (((sIni (6 : Word) (5 : Word)).cur.keys = [0]) ∧ ((thr (sIni (6 : Word) (5 : Word)) 0).helper = false) ∧ (isSimt
      0 = true) ∧ (teamK? (sIni (6 : Word) (5 : Word)) 0 = some (tmE e1)) ∧ (entryNo w1 < (tmE e1).desc.syncs) ∧
      (memberKey (tmE e1) (thr (sIni (6 : Word) (5 : Word)) 0).tidx = 0) ∧ (liveReal (tmE e1) ≠ []) ∧ ((syncOf (tmE
      e1) (entryNo w1)).kind = 1) ∧ (BitVec.toNat (src (thr (sIni (6 : Word) (5 : Word)) 0) w1.s1) < 2 ^ 48) ∧
      (BitVec.toNat (src (thr (sIni (6 : Word) (5 : Word)) 0) w1.s1) ≠ 0) ∧ ((syncOf (tmE e1) (entryNo w1)).waiters
      ≠ [] ∨ (syncOf (tmE e1) (entryNo w1)).value < BitVec.toNat (src (thr (sIni (6 : Word) (5 : Word)) 0) w1.s1))) ∧
    (((sIni (6 : Word) (5 : Word)).cur.keys = [0]) ∧ ((thr (sIni (6 : Word) (5 : Word)) 0).helper = false) ∧ (isSimt
      0 = true) ∧ (teamK? (sIni (6 : Word) (5 : Word)) 0 = some (tmE e1)) ∧ (entryNo w1 < (tmE e1).desc.syncs) ∧
      (memberKey (tmE e1) (thr (sIni (6 : Word) (5 : Word)) 0).tidx = 0) ∧ (liveReal (tmE e1) ≠ []) ∧ ((syncOf (tmE
      e1) (entryNo w1)).kind = 1) ∧ (BitVec.toNat (src (thr (sIni (6 : Word) (5 : Word)) 0) w1.s1) < 2 ^ 48) ∧ (∀ x
      ∈ ((syncOf (tmE e1) (entryNo w1)).waiters ++ [((thr (sIni (6 : Word) (5 : Word)) 0).tidx, BitVec.toNat (src
      (thr (sIni (6 : Word) (5 : Word)) 0) w1.s1))]).head?, (syncOf (tmE e1) (entryNo w1)).value < x.2)) ∧
    (((st2 (te (1 : Word) (5 : Word)) u1 (tmE eW)).cur.keys = [0]) ∧ ((thr (st2 (te (1 : Word) (5 : Word)) u1 (tmE
      eW)) 0).helper = false) ∧ (isSimt 0 = true) ∧ (teamK? (st2 (te (1 : Word) (5 : Word)) u1 (tmE eW)) 0 = some
      (tmE eW)) ∧ (entryNo w1 < (tmE eW).desc.syncs) ∧ (memberKey (tmE eW) (thr (st2 (te (1 : Word) (5 : Word)) u1
      (tmE eW)) 0).tidx = 0) ∧ (liveReal (tmE eW) ≠ []) ∧ ((syncOf (tmE eW) (entryNo w1)).kind = 1) ∧ (BitVec.toNat
      (src (thr (st2 (te (1 : Word) (5 : Word)) u1 (tmE eW)) 0) w1.s1) < 2 ^ 48) ∧ (∀ x ∈ ((syncOf (tmE eW) (entryNo
      w1)).waiters ++ [((thr (st2 (te (1 : Word) (5 : Word)) u1 (tmE eW)) 0).tidx, BitVec.toNat (src (thr (st2 (te
      (1 : Word) (5 : Word)) u1 (tmE eW)) 0) w1.s1))]).head?, (syncOf (tmE eW) (entryNo w1)).value < x.2)) ∧
    (((sIni (64 : Word) (5 : Word)).cur.keys = [0]) ∧ ((thr (sIni (64 : Word) (5 : Word)) 0).helper = false) ∧
      (semaddHeld (sIni (64 : Word) (5 : Word)) 0 (src (thr (sIni (64 : Word) (5 : Word)) 0) w1.s1) (src (thr (sIni
      (64 : Word) (5 : Word)) 0) w1.s2) = none) ∧ (semaddCheck (sIni (64 : Word) (5 : Word)) 0 (src (thr (sIni (64 :
      Word) (5 : Word)) 0) w1.s1) (src (thr (sIni (64 : Word) (5 : Word)) 0) w1.s2) = Except.error 4)) ∧
    (((sIni (0 : Word) (5 : Word)).cur.keys = [0]) ∧ ((thr (sIni (0 : Word) (5 : Word)) 0).helper = false) ∧
      (semaddCheck (sIni (0 : Word) (5 : Word)) 0 (src (thr (sIni (0 : Word) (5 : Word)) 0) w1.s1) (src (thr (sIni
      (0 : Word) (5 : Word)) 0) w1.s2) = Except.ok (tmE e1)) ∧ (team? (sIni (0 : Word) (5 : Word)) (tmE e1).part
      (tmE e1).asid (tmE e1).num = some (tmE e1)) ∧ ((tmE e1).st = TeamState.resident) ∧ ((syncOf (tmE e1) (bits
      (src (thr (sIni (0 : Word) (5 : Word)) 0) w1.s1) 5 0)).kind = 1) ∧ ((syncOf (tmE e1) (bits (src (thr (sIni (0
      : Word) (5 : Word)) 0) w1.s1) 5 0)).value + BitVec.toNat (src (thr (sIni (0 : Word) (5 : Word)) 0) w1.s2) ≤ 2
      ^ 48 - 1) ∧ ((syncOf (tmE e1) (bits (src (thr (sIni (0 : Word) (5 : Word)) 0) w1.s1) 5 0)).waiters = [])) ∧
    (((sIni (0 : Word) (281474976710650 : Word)).cur.keys = [0]) ∧ ((thr (sIni (0 : Word) (281474976710650 : Word))
      0).helper = false) ∧ (semaddCheck (sIni (0 : Word) (281474976710650 : Word)) 0 (src (thr (sIni (0 : Word)
      (281474976710650 : Word)) 0) w1.s1) (src (thr (sIni (0 : Word) (281474976710650 : Word)) 0) w1.s2) = Except.ok
      (tmE e1)) ∧ (team? (sIni (0 : Word) (281474976710650 : Word)) (tmE e1).part (tmE e1).asid (tmE e1).num = some
      (tmE e1)) ∧ ((tmE e1).st = TeamState.resident) ∧ ((syncOf (tmE e1) (bits (src (thr (sIni (0 : Word)
      (281474976710650 : Word)) 0) w1.s1) 5 0)).kind = 1) ∧ ((syncOf (tmE e1) (bits (src (thr (sIni (0 : Word)
      (281474976710650 : Word)) 0) w1.s1) 5 0)).value + BitVec.toNat (src (thr (sIni (0 : Word) (281474976710650 :
      Word)) 0) w1.s2) ≤ 2 ^ 48 - 1) ∧ ((syncOf (tmE e1) (bits (src (thr (sIni (0 : Word) (281474976710650 : Word))
      0) w1.s1) 5 0)).waiters = [])) ∧
    (((st2 (te (0 : Word) (5 : Word)) u1 (tmE eW)).cur.keys = [0]) ∧ ((thr (st2 (te (0 : Word) (5 : Word)) u1 (tmE
      eW)) 0).helper = false) ∧ (semaddCheck (st2 (te (0 : Word) (5 : Word)) u1 (tmE eW)) 0 (src (thr (st2 (te (0 :
      Word) (5 : Word)) u1 (tmE eW)) 0) w1.s1) (src (thr (st2 (te (0 : Word) (5 : Word)) u1 (tmE eW)) 0) w1.s2) =
      Except.ok (tmE eW)) ∧ (team? (st2 (te (0 : Word) (5 : Word)) u1 (tmE eW)) (tmE eW).part (tmE eW).asid (tmE
      eW).num = some (tmE eW)) ∧ ((tmE eW).st = TeamState.resident) ∧ ((syncOf (tmE eW) (bits (src (thr (st2 (te (0
      : Word) (5 : Word)) u1 (tmE eW)) 0) w1.s1) 5 0)).kind = 1) ∧ ((syncOf (tmE eW) (bits (src (thr (st2 (te (0 :
      Word) (5 : Word)) u1 (tmE eW)) 0) w1.s1) 5 0)).value + BitVec.toNat (src (thr (st2 (te (0 : Word) (5 : Word))
      u1 (tmE eW)) 0) w1.s2) ≤ 2 ^ 48 - 1) ∧ ((syncOf (tmE eW) (bits (src (thr (st2 (te (0 : Word) (5 : Word)) u1
      (tmE eW)) 0) w1.s1) 5 0)).waiters = [(1, 9)]) ∧ ((thr (st2 (te (0 : Word) (5 : Word)) u1 (tmE eW)) (memberKey
      (tmE eW) 1)).st = TState.blocked) ∧ (∃ q, (thr (st2 (te (0 : Word) (5 : Word)) u1 (tmE eW)) (memberKey (tmE
      eW) 1)).wait = Wait.sem (bits (src (thr (st2 (te (0 : Word) (5 : Word)) u1 (tmE eW)) 0) w1.s1) 5 0) q) ∧
      (memberKey (tmE eW) 1 ≠ 0) ∧ (9 ≤ (syncOf (tmE eW) (bits (src (thr (st2 (te (0 : Word) (5 : Word)) u1 (tmE
      eW)) 0) w1.s1) 5 0)).value + BitVec.toNat (src (thr (st2 (te (0 : Word) (5 : Word)) u1 (tmE eW)) 0) w1.s2))) :=
  ⟨by decide +kernel,
   by decide +kernel,
   by decide +kernel,
   by decide +kernel,
   by decide +kernel,
   by decide +kernel,
   by decide +kernel,
   by decide +kernel,
   by decide +kernel,
   by decide +kernel,
   by decide +kernel,
   by decide +kernel,
   by decide +kernel,
   by decide +kernel,
   by decide +kernel,
   ⟨by decide +kernel, by decide +kernel, by decide +kernel, by decide +kernel, by decide +kernel, by decide +kernel, by decide +kernel, by decide +kernel, by decide +kernel, ⟨_, rfl⟩, by decide +kernel, by decide +kernel⟩⟩

/-- States and operands that meet the premises of `Obligations.Barriers`, each of its cases in turn. -/
theorem test_premises_Barriers :
    (((sIni (0 : Word) (0 : Word)).cur.keys = [0]) ∧ (isSimt 0 = true) ∧ ((thr (sIni (0 : Word) (0 : Word))
      0).helper = false) ∧ (teamK? (sIni (0 : Word) (0 : Word)) 0 = some (tmE e1)) ∧ (entryNo w1 < (tmE
      e1).desc.syncs) ∧ ((thr (sIni (0 : Word) (0 : Word)) 0).wait = Wait.none) ∧ ((syncOf (tmE e1) (entryNo
      w1)).kind ≠ 2)) ∧
    ((v4.cur.keys = [0]) ∧ (isSimt 0 = true) ∧ ((thr v4 0).helper = false) ∧ (teamK? v4 0 = some (tmE (b0 3 1 (0 :
      ℤ)))) ∧ (entryNo w1 < (tmE (b0 3 1 (0 : ℤ))).desc.syncs) ∧ ((thr v4 0).wait = Wait.none) ∧ ((syncOf (tmE (b0 3
      1 (0 : ℤ))) (entryNo w1)).kind = 2) ∧ ((syncOf (tmE (b0 3 1 (0 : ℤ))) (entryNo w1)).tb = false) ∧ ((syncOf
      (tmE (b0 3 1 (0 : ℤ))) (entryNo w1)).arrived < (syncOf (tmE (b0 3 1 (0 : ℤ))) (entryNo w1)).expect) ∧ ((syncOf
      (tmE (b0 3 1 (0 : ℤ))) (entryNo w1)).phase < 65536) ∧ ((syncOf (tmE (b0 3 1 (0 : ℤ))) (entryNo w1)).arrived +
      1 < (syncOf (tmE (b0 3 1 (0 : ℤ))) (entryNo w1)).expect ∨ (syncOf (tmE (b0 3 1 (0 : ℤ))) (entryNo w1)).pend ≠
      (0 : ℤ))) ∧
    ((v5.cur.keys = [0]) ∧ (isSimt 0 = true) ∧ ((thr v5 0).helper = false) ∧ (teamK? v5 0 = some (tmE (b0 1 0 (8 :
      ℤ)))) ∧ (entryNo w1 < (tmE (b0 1 0 (8 : ℤ))).desc.syncs) ∧ ((thr v5 0).wait = Wait.none) ∧ ((syncOf (tmE (b0 1
      0 (8 : ℤ))) (entryNo w1)).kind = 2) ∧ ((syncOf (tmE (b0 1 0 (8 : ℤ))) (entryNo w1)).tb = false) ∧ ((syncOf
      (tmE (b0 1 0 (8 : ℤ))) (entryNo w1)).arrived < (syncOf (tmE (b0 1 0 (8 : ℤ))) (entryNo w1)).expect) ∧ ((syncOf
      (tmE (b0 1 0 (8 : ℤ))) (entryNo w1)).phase < 65536) ∧ ((syncOf (tmE (b0 1 0 (8 : ℤ))) (entryNo w1)).arrived +
      1 < (syncOf (tmE (b0 1 0 (8 : ℤ))) (entryNo w1)).expect ∨ (syncOf (tmE (b0 1 0 (8 : ℤ))) (entryNo w1)).pend ≠
      (0 : ℤ))) ∧
    ((sB.cur.keys = [0]) ∧ (isSimt 0 = true) ∧ ((thr sB 0).helper = false) ∧ (teamK? sB 0 = some (tmE (b0 2 1 (0 :
      ℤ)))) ∧ (entryNo w1 < (tmE (b0 2 1 (0 : ℤ))).desc.syncs) ∧ ((thr sB 0).wait = Wait.none) ∧ ((syncOf (tmE (b0 2
      1 (0 : ℤ))) (entryNo w1)).kind = 2) ∧ ((syncOf (tmE (b0 2 1 (0 : ℤ))) (entryNo w1)).tb = false) ∧ ((syncOf
      (tmE (b0 2 1 (0 : ℤ))) (entryNo w1)).arrived < (syncOf (tmE (b0 2 1 (0 : ℤ))) (entryNo w1)).expect) ∧ ((syncOf
      (tmE (b0 2 1 (0 : ℤ))) (entryNo w1)).phase < 65536) ∧ ((syncOf (tmE (b0 2 1 (0 : ℤ))) (entryNo w1)).arrived +
      1 = (syncOf (tmE (b0 2 1 (0 : ℤ))) (entryNo w1)).expect) ∧ ((syncOf (tmE (b0 2 1 (0 : ℤ))) (entryNo w1)).pend
      = (0 : ℤ)) ∧ ((Instr.barrive w1, 65535) ∈ [(Instr.barrive w1, (syncOf (tmE (b0 2 1 (0 : ℤ))) (entryNo
      w1)).phase), (Instr.barw w1, ((syncOf (tmE (b0 2 1 (0 : ℤ))) (entryNo w1)).phase + 1) % 65536)])) ∧
    ((sB.cur.keys = [0]) ∧ (isSimt 0 = true) ∧ ((thr sB 0).helper = false) ∧ (teamK? sB 0 = some (tmE (b0 2 1 (0 :
      ℤ)))) ∧ (entryNo w1 < (tmE (b0 2 1 (0 : ℤ))).desc.syncs) ∧ ((thr sB 0).wait = Wait.none) ∧ ((syncOf (tmE (b0 2
      1 (0 : ℤ))) (entryNo w1)).kind = 2) ∧ ((syncOf (tmE (b0 2 1 (0 : ℤ))) (entryNo w1)).tb = false) ∧ ((syncOf
      (tmE (b0 2 1 (0 : ℤ))) (entryNo w1)).arrived < (syncOf (tmE (b0 2 1 (0 : ℤ))) (entryNo w1)).expect) ∧ ((syncOf
      (tmE (b0 2 1 (0 : ℤ))) (entryNo w1)).phase < 65536) ∧ ((syncOf (tmE (b0 2 1 (0 : ℤ))) (entryNo w1)).arrived +
      1 = (syncOf (tmE (b0 2 1 (0 : ℤ))) (entryNo w1)).expect) ∧ ((syncOf (tmE (b0 2 1 (0 : ℤ))) (entryNo w1)).pend
      = (0 : ℤ)) ∧ ((Instr.barw w1, 0) ∈ [(Instr.barrive w1, (syncOf (tmE (b0 2 1 (0 : ℤ))) (entryNo w1)).phase),
      (Instr.barw w1, ((syncOf (tmE (b0 2 1 (0 : ℤ))) (entryNo w1)).phase + 1) % 65536)])) ∧
    ((v6.cur.keys = [0]) ∧ (isSimt 0 = true) ∧ ((thr v6 0).helper = false) ∧ (teamK? v6 0 = some (bt [(0, true)])) ∧
      (entryNo w1 < (bt [(0, true)]).desc.syncs) ∧ ((thr v6 0).wait = Wait.none) ∧ ((syncOf (bt [(0, true)])
      (entryNo w1)).kind = 2) ∧ ((syncOf (bt [(0, true)]) (entryNo w1)).tb = true) ∧ (mget false (bt [(0,
      true)]).arr (thr v6 0).tidx = true) ∧ (phaseDone (bt [(0, true)]) (syncOf (bt [(0, true)]) (entryNo w1)) =
      false)) ∧
    ((v7.cur.keys = [0]) ∧ (isSimt 0 = true) ∧ ((thr v7 0).helper = false) ∧ (teamK? v7 0 = some (bt [(1, true)])) ∧
      (entryNo w1 < (bt [(1, true)]).desc.syncs) ∧ ((thr v7 0).wait = Wait.none) ∧ ((syncOf (bt [(1, true)])
      (entryNo w1)).kind = 2) ∧ ((syncOf (bt [(1, true)]) (entryNo w1)).tb = true) ∧ (mget false (bt [(1,
      true)]).arr (thr v7 0).tidx = false) ∧ ((syncOf (bt [(1, true)]) (entryNo w1)).expect = 0) ∧ ((syncOf (bt [(1,
      true)]) (entryNo w1)).pend = (0 : ℤ)) ∧ ((bt [(1, true)]).sweep = false) ∧ (∀ i ∈ liveReal (bt [(1, true)]), i
      ≠ (thr v7 0).tidx → mget false (bt [(1, true)]).arr i = true)) ∧
    ((v8.cur.keys = [0]) ∧ (isSimt 0 = true) ∧ ((thr v8 0).helper = false) ∧ (teamK? v8 0 = some (tmE (b0 3 1 (0 :
      ℤ)))) ∧ (entryNo w1 < (tmE (b0 3 1 (0 : ℤ))).desc.syncs) ∧ ((thr v8 0).wait = Wait.none) ∧ ((syncOf (tmE (b0 3
      1 (0 : ℤ))) (entryNo w1)).kind = 2) ∧ (bits (src (thr v8 0) w1.s1) 62 16 ≠ 0)) ∧
    ((v9.cur.keys = [0]) ∧ (isSimt 0 = true) ∧ ((thr v9 0).helper = false) ∧ (teamK? v9 0 = some (tmE (b0 3 1 (0 :
      ℤ)))) ∧ (entryNo w1 < (tmE (b0 3 1 (0 : ℤ))).desc.syncs) ∧ ((thr v9 0).wait = Wait.none) ∧ ((syncOf (tmE (b0 3
      1 (0 : ℤ))) (entryNo w1)).kind = 2) ∧ (bits (src (thr v9 0) w1.s1) 62 16 = 0) ∧ ((syncOf (tmE (b0 3 1 (0 :
      ℤ))) (entryNo w1)).phase ≠ bits (src (thr v9 0) w1.s1) 15 0)) ∧
    ((v10.cur.keys = [0]) ∧ (isSimt 0 = true) ∧ ((thr v10 0).helper = false) ∧ (teamK? v10 0 = some (tmE (b0 3 1 (0
      : ℤ)))) ∧ (entryNo w1 < (tmE (b0 3 1 (0 : ℤ))).desc.syncs) ∧ ((thr v10 0).wait = Wait.none) ∧ ((syncOf (tmE
      (b0 3 1 (0 : ℤ))) (entryNo w1)).kind = 2) ∧ (bits (src (thr v10 0) w1.s1) 62 16 = 0) ∧ ((syncOf (tmE (b0 3 1
      (0 : ℤ))) (entryNo w1)).phase = bits (src (thr v10 0) w1.s1) 15 0)) ∧
    ((v11.cur.keys = [0]) ∧ (isSimt 0 = true) ∧ ((thr v11 0).helper = false) ∧ (teamK? v11 0 = some (tmE (b0 3 1 (0
      : ℤ)))) ∧ (entryNo w1 < (tmE (b0 3 1 (0 : ℤ))).desc.syncs) ∧ ((thr v11 0).wait = Wait.none) ∧ ((syncOf (tmE
      (b0 3 1 (0 : ℤ))) (entryNo w1)).kind = 2) ∧ (2 ^ 35 ≤ BitVec.toNat (src (thr v11 0) w1.s1))) ∧
    ((v12.cur.keys = [0]) ∧ (isSimt 0 = true) ∧ ((thr v12 0).helper = false) ∧ (teamK? v12 0 = some (tmE (b0 3 1 (0
      : ℤ)))) ∧ (entryNo w1 < (tmE (b0 3 1 (0 : ℤ))).desc.syncs) ∧ ((thr v12 0).wait = Wait.none) ∧ ((syncOf (tmE
      (b0 3 1 (0 : ℤ))) (entryNo w1)).kind = 2) ∧ (BitVec.toNat (src (thr v12 0) w1.s1) < 2 ^ 35) ∧ ((syncOf (tmE
      (b0 3 1 (0 : ℤ))) (entryNo w1)).waiters = []) ∧ ((syncOf (tmE (b0 3 1 (0 : ℤ))) (entryNo w1)).pend +
      ↑(BitVec.toNat (src (thr v12 0) w1.s1)) ≤ (2 : ℤ) ^ 35 - (1 : ℤ)) ∧ (phaseDone (tmE (b0 3 1 (0 : ℤ))) (syncOf
      (tmE (b0 3 1 (0 : ℤ))) (entryNo w1)) = false ∨ (syncOf (tmE (b0 3 1 (0 : ℤ))) (entryNo w1)).pend +
      ↑(BitVec.toNat (src (thr v12 0) w1.s1)) ≠ (0 : ℤ))) ∧
    ((v13.cur.keys = [0]) ∧ (isSimt 0 = true) ∧ ((thr v13 0).helper = false) ∧ (teamK? v13 0 = some (tmE (b0 3 3 (-9
      : ℤ)))) ∧ (entryNo w1 < (tmE (b0 3 3 (-9 : ℤ))).desc.syncs) ∧ ((thr v13 0).wait = Wait.none) ∧ ((syncOf (tmE
      (b0 3 3 (-9 : ℤ))) (entryNo w1)).kind = 2) ∧ (BitVec.toNat (src (thr v13 0) w1.s1) < 2 ^ 35) ∧ ((syncOf (tmE
      (b0 3 3 (-9 : ℤ))) (entryNo w1)).waiters = []) ∧ ((syncOf (tmE (b0 3 3 (-9 : ℤ))) (entryNo w1)).pend +
      ↑(BitVec.toNat (src (thr v13 0) w1.s1)) ≤ (2 : ℤ) ^ 35 - (1 : ℤ)) ∧ (phaseDone (tmE (b0 3 3 (-9 : ℤ))) (syncOf
      (tmE (b0 3 3 (-9 : ℤ))) (entryNo w1)) = false ∨ (syncOf (tmE (b0 3 3 (-9 : ℤ))) (entryNo w1)).pend +
      ↑(BitVec.toNat (src (thr v13 0) w1.s1)) ≠ (0 : ℤ))) :=
  by and_intros <;> decide +kernel

end Sys2Proof.Tests.Sync

/-! Drains, tiles and the matrix engine. -/

namespace Sys2Proof.Tests.Tile

open Sys2Proof.Machine

def w1 : Wide := wd 10 11 12 13

def putW (s : State) (a : Nat) (l : List Word) : State := (l.zipIdx).foldl (fun s (v, i) => wrWord s (a + 8 * i) v)
  s

def mm (l : Nat) : Machine.Member := { loc := .here, frame := 0x9000 + 1024 * l }

def cfg (fmt rows cols : Nat) : Word := w64 (fmt + 16 * rows + 4096 * cols)

def tm : Machine.Team :=
  { part := 1, asid := 1, num := 3, st := .resident, serial := 5, desc := { limit := 4, gw := 16, syncs := 2, tiles := 4, accs := 3, scrpg := 1, frames := 0x9000 }, count := 2, members := [(0, mm 0), (1, mm 1)], tlcfg := [(0, cfg 7 2 16), (1, cfg 7 2 16), (2, cfg 7 16 2), (3, cfg 6 2 2)], tiles := [(0, 3), (1, 5), (8192 + 64, 7), (8192, 0xFF)], seeds := [7], accInfo := [(0, { st := 1, gang := 0, int := true }), (1, { st := 1, gang := 4, int := true })], accs := [(0, 9), (1, 4), (128, 6)] }

def te : Thread := { th0 with x := [(11, 0x3000), (12, 64), (13, 0x3800)], team := 3, gangw := 16 }

def sT (m : Machine.Team) (t : Thread) : State :=
  { putW (onSimt t) 0x3000 [0x1122334455667788, 0x99, 0x77] with teams := [m], threads := [(0, t), (16, { t with tidx := 1, tid := 8 })], cur := { keys := [0, 16], pc := 0x400, bits := 0x3F, len := 8 } }

def cp (id : Nat) : Copy :=
  { id := id, part := 1, satp := satp1, solo := true, die := 0, core := 0, team := 0, serial := 0, saves := 0, seq := 0, maj := 0x59, fn := 0, dir := true, s1 := 0x3000, s2 := 0x5000, s3 := 16, layout := [], entry := 0, nosync := true, state := 1, done := 0, nominal := 16, home := none, touches := [], touchAll := false, key := 0, tid := 7, tidx := 0, flags := 0, index := none, orig := [] }

def v1 := { w1 with fn := 5 }

def sDr : State := { onSimt th0 with copies := [cp 3] }

def tw (us : Nat) : Thread := { th0 with st := .blocked, wait := .queue 0x3000, wus := us }

def sWd : State := { onSimt (tw 100000) with parts := [(1, { p1 with wdog := 0x8000_0000_0001_86A0 })] }

def wt (d s1 s2 s3 : Nat) : Wide := wd d s1 s2 s3

def s0 : State := sT tm te

def ls1 (s : State) (acc : Acc) : List (Loc × Nat) := match (reachAll s 0 acc ((rowAddrs 0x3000 64 2).flatMap fun x => lineCuts x 16)).1 with | .ok l => l | _ => []

def ss1 (s : State) (acc : Acc) : State := (reachAll s 0 acc ((rowAddrs 0x3000 64 2).flatMap fun x => lineCuts x
  16)).2

def s1k : State := { s0 with cur := { s0.cur with keys := [0] } }

def rws : List (List Byte) := match (readRows s0 0 ((rowAddrs 0x3000 64 128).map fun x => (x, 512))).1 with | .ok l => l | _ => []

def wm : Wide := { wt 0 0 1 0 with fn := 28, imm11 := 7 }

def wdr : Wide := { wt 3 0 12 0 with fn := 24 }

def tdrT : Thread := { te with x := [(12, w64 (127 * 2 ^ 30 + 2 * 2 ^ 22 + 2 * 2 ^ 14)), (11, 0x3000), (13, 0)] }

def sDrn (v : Word) : State := sT tm { te with x := [(12, v), (11, 0x3000)] }

def pass0 : Pass :=
  { id := 4, part := 1, asid := 1, team := 3, serial := 5, saves := 0, core := 0, gang := 0, maj := 0x68, w := wm, ca := cfg 7 2 16, cb := cfg 7 2 16, cs := 0, ctrl := 0, addr := 0, seed := 0, pages := [], cls := 0, posted := 5, promoted := false, leader := 0, granted := none, retries := 0, flags := 0x21 }

def sMw : State := { s0 with engines := [(0, { queue := [pass0] })] }

def pg : Pass := { pass0 with granted := some 10 }

def sPc : State :=
  { s0 with engines := [(0, { running := [pg] })], threads := [(0, te), (16, { te with tidx := 1, tid := 8, st := .blocked, wait := .passes [4], ww := w1 })] }

def pd : Pass := { pg with maj := 0x6D, w := wdr, ca := cfg 6 2 2, ctrl := w64 (127 * 2 ^ 30) }

def sDc : State :=
  { s0 with engines := [(0, { running := [pd] })], threads := [(0, { te with wait := .drainStall 4, ww := wdr }), (16, { te with tidx := 1, tid := 8, wait := .drainStall 4, ww := wdr })] }

def v2 := { sPc with cycle := 65546 }

def sEr (v : Word) : State := { onHart h1 { te with x := [(11, v)] } with engines := sPc.engines, teams := [tm] }

def v3 := { wt 0 11 12 13 with fn := 24 }

def v4 := sDrn (w64 (127 * 2 ^ 30))

def v5 := { sMw with cycle := 4101 }

/-- States and operands that meet the premises of `Obligations.DrainAndWatchdog`, each of its cases in turn. -/
theorem test_premises_DrainAndWatchdog :
    (((onSimt th0).cur.keys = [0]) ∧ (isSimt 0 = true) ∧ ((thr (onSimt th0) 0).helper = false) ∧ (drainSet (onSimt
      th0) 0 v1.fn.toNat = ([], [], []))) ∧
    ((sDr.cur.keys = [0]) ∧ (isSimt 0 = true) ∧ ((thr sDr 0).helper = false) ∧ (drainSet sDr 0 v1.fn.toNat = ([3],
      [], [])) ∧ ((([3], [], []) : List Nat × List Nat × List Nat) ≠ ([], [], []))) ∧
    ((isSimt 0 = true) ∧ (watched (onSimt (tw 99999)) (thr (onSimt (tw 99999)) 0) = true) ∧ ((thr (onSimt (tw
      99999)) 0).wus < max 1 (bits (part (onSimt (tw 99999)) (thr (onSimt (tw 99999)) 0).part).wdog 31 0))) ∧
    ((isSimt 0 = true) ∧ (watched sWd (thr sWd 0) = true) ∧ (max 1 (bits (part sWd (thr sWd 0).part).wdog 31 0) ≤
      (thr sWd 0).wus) ∧ (bit (part sWd (thr sWd 0).part).wdog 63 = true) ∧ (∃ pa, (thr sWd 0).wait = Wait.queue pa)
      ∧ ((thr sWd 0).helper = false) ∧ ((thr sWd 0).chain.words = []) ∧ ((thr sWd 0).trap.hvec ≠ 0) ∧ ((thr sWd 0).trap.inh = false) ∧ ((thr sWd 0).ops = [])) := by
  refine ⟨?_, ?_, ?_, (by refine ⟨?_, ?_, ?_, ?_, ⟨_, rfl⟩, ?_⟩ <;> decide +kernel)⟩ <;> decide +kernel

/-- States and operands that meet the premises of `Obligations.TileMoves`, each of its cases in turn. -/
theorem test_premises_TileMoves :
    ((GangIssues s0 [0, 16] 0 tm) ∧ ((wt 0 11 12 13).d.toNat < tm.desc.tiles) ∧ (claimed s0 tm (wt 0 11 12
      13).d.toNat false = false)) ∧
    ((GangIssues s0 [0, 16] 0 tm) ∧ (badTile tm (wt 0 11 12 13).d.toNat = false) ∧ (claimed s0 tm (wt 0 11 12
      13).d.toNat false = false)) ∧
    ((GangIssues s0 [0, 16] 0 tm) ∧ ((wt 1 0 12 13).d.toNat < tm.desc.tiles) ∧ ((wt 1 0 12 13).s1.toNat <
      tm.desc.tiles) ∧ (claimed s0 tm (wt 1 0 12 13).d.toNat false = false) ∧ (claimed s0 tm (wt 1 0 12 13).s1.toNat
      true = false)) ∧
    ((GangIssues s0 [0, 16] 0 tm) ∧ (badTile tm (wt 2 1 12 13).d.toNat = false) ∧ (badTile tm (wt 2 1 12
      13).s1.toNat = false) ∧ (claimed s0 tm (wt 2 1 12 13).d.toNat false = false) ∧ (claimed s0 tm (wt 2 1 12
      13).s1.toNat true = false) ∧ ((tlcfg tm (wt 2 1 12 13).d.toNat).fmt = (tlcfg tm (wt 2 1 12 13).s1.toNat).fmt)
      ∧ ((tlcfg tm (wt 2 1 12 13).s1.toNat).fmt ≠ 14) ∧ (8 ≤ fwidth (tlcfg tm (wt 2 1 12 13).s1.toNat).fmt) ∧
      ((tlcfg tm (wt 2 1 12 13).d.toNat).rows = (tlcfg tm (wt 2 1 12 13).s1.toNat).cols) ∧ ((tlcfg tm (wt 2 1 12
      13).d.toNat).cols = (tlcfg tm (wt 2 1 12 13).s1.toNat).rows)) ∧
    ((GangIssues s0 [0, 16] 0 tm) ∧ ((Instr.tld (wt 0 11 12 13), false, 8, List.map (fun x => (x, 16)) (rowAddrs
      (12288 : Word) (64 : Word) 2)) ∈ [(Instr.tld (wt 0 11 12 13), false, 8, List.map (fun x => (x, (tlcfg tm (wt 0
      11 12 13).d.toNat).rowBytes)) (rowAddrs (src (thr s0 0) (wt 0 11 12 13).s1) (src (thr s0 0) (wt 0 11 12
      13).s2) (tlcfg tm (wt 0 11 12 13).d.toNat).rows)), (Instr.tldbp (wt 0 11 12 13), true, 64, List.flatMap (fun x
      => List.map (fun b => (x + w64 (64 * b), 8 * ((tlcfg tm (wt 0 11 12 13).d.toNat).grind + 1))) (List.range
      ((tlcfg tm (wt 0 11 12 13).d.toNat).cols / 64))) (rowAddrs (src (thr s0 0) (wt 0 11 12 13).s1) (src (thr s0 0)
      (wt 0 11 12 13).s2) (tlcfg tm (wt 0 11 12 13).d.toNat).rows))]) ∧ (badTile tm (wt 0 11 12 13).d.toNat = false)
      ∧ (false = true → (tlcfg tm (wt 0 11 12 13).d.toNat).fmt = 14) ∧ (BitVec.toNat (src (thr s0 0) (wt 0 11 12
      13).s1) % 8 = 0) ∧ (BitVec.toNat (src (thr s0 0) (wt 0 11 12 13).s2) % 8 = 0) ∧ (claimed s0 tm (wt 0 11 12
      13).d.toNat false = false) ∧ (reachAll s0 0 Acc.load (List.flatMap (fun x => lineCuts x.1 x.2) (List.map (fun
      x => (x, 16)) (rowAddrs (12288 : Word) (64 : Word) 2))) = (Except.ok (ls1 s0 Acc.load), ss1 s0 Acc.load)) ∧
      (Unmanaged (ls1 s0 Acc.load))) ∧
    ((GangIssues s0 [0, 16] 0 tm) ∧ (badTile tm (wt 0 11 12 13).d.toNat = false) ∧ (BitVec.toNat (src (thr s0 0) (wt
      0 11 12 13).s1) % 8 = 0) ∧ (BitVec.toNat (src (thr s0 0) (wt 0 11 12 13).s2) % 8 = 0) ∧ (claimed s0 tm (wt 0
      11 12 13).d.toNat true = false) ∧ (reachAll s0 0 Acc.store (List.flatMap (fun x => lineCuts x (tlcfg tm (wt 0
      11 12 13).d.toNat).rowBytes) (rowAddrs (src (thr s0 0) (wt 0 11 12 13).s1) (src (thr s0 0) (wt 0 11 12 13).s2)
      (tlcfg tm (wt 0 11 12 13).d.toNat).rows)) = (Except.ok (ls1 s0 Acc.store), ss1 s0 Acc.store)) ∧ (Unmanaged
      (ls1 s0 Acc.store))) ∧
    ((GangIssues s1k [0] 0 tm) ∧ ([0] = [0]) ∧ (badTile tm (wt 4 11 12 13).d.toNat = true)) :=
  ⟨⟨by unfold GangIssues; decide +kernel, by decide +kernel⟩,
   ⟨by unfold GangIssues; decide +kernel, by decide +kernel⟩,
   ⟨by unfold GangIssues; decide +kernel, by decide +kernel⟩,
   ⟨by unfold GangIssues; decide +kernel, by decide +kernel⟩,
   (by refine ⟨by unfold GangIssues; decide +kernel, ?_, ?_, ?_, ?_, ?_, ?_, ?_, unmanaged_of (by decide +kernel)⟩ <;> decide +kernel),
   (by refine ⟨by unfold GangIssues; decide +kernel, ?_, ?_, ?_, ?_, ?_, unmanaged_of (by decide +kernel)⟩ <;> decide +kernel),
   ⟨by unfold GangIssues; decide +kernel, by decide +kernel⟩⟩

/-- States and operands that meet the premises of `Obligations.Accumulators`, each of its cases in turn. -/
theorem test_premises_Accumulators :
    ((GangIssues s0 [0, 16] 0 tm) ∧ (∀ k ∈ [0, 16], isSimt k = true) ∧ ((wt 2 11 12 13).d.toNat < tm.desc.accs) ∧
      (lostAccs tm (gangNo (thr s0 0)) = []) ∧ ((accOf tm (wt 2 11 12 13).d.toNat).st = 0)) ∧
    ((GangIssues s0 [0, 16] 0 tm) ∧ (∀ k ∈ [0, 16], isSimt k = true) ∧ ((wt 1 11 12 13).d.toNat < tm.desc.accs) ∧
      (lostAccs tm (gangNo (thr s0 0)) = []) ∧ ((accOf tm (wt 1 11 12 13).d.toNat).st ≠ 0) ∧ ((accOf tm (wt 1 11 12 13).d.toNat).gang ≠ gangNo (thr s0 0))) ∧
    ((GangIssues s0 [0, 16] 0 tm) ∧ (∀ k ∈ [0, 16], isSimt k = true) ∧ (accCheck tm (gangNo (thr s0 0)) none [(wt 0
      11 12 13).d.toNat] = none) ∧ (accPending s0 tm (wt 0 11 12 13).d.toNat = false)) ∧
    ((GangIssues s0 [0, 16] 0 tm) ∧ (∀ k ∈ [0, 16], isSimt k = true) ∧ (accCheck tm (gangNo (thr s0 0)) (some
      (decide (v3.fmt = 6))) [v3.d.toNat] = none) ∧ (accPending s0 tm v3.d.toNat = false) ∧ (BitVec.toNat (src (thr
      s0 0) v3.s1) % 64 = 0) ∧ (BitVec.toNat (src (thr s0 0) v3.s2) % 64 = 0) ∧ (∃ rows s1, readRows s0 0 (List.map
      (fun x => (x, 512)) (rowAddrs (src (thr s0 0) v3.s1) (src (thr s0 0) v3.s2) 128)) = (Except.ok rows, s1))) :=
  ⟨⟨by unfold GangIssues; decide +kernel, by decide +kernel⟩,
   ⟨by unfold GangIssues; decide +kernel, by decide +kernel⟩,
   ⟨by unfold GangIssues; decide +kernel, by decide +kernel⟩,
   ⟨by unfold GangIssues; decide +kernel, by decide +kernel, by decide +kernel, by decide +kernel, by decide +kernel, by decide +kernel, exists_ok (by decide +kernel)⟩⟩

/-- States and operands that meet the premises of `Obligations.PassesPosted`, each of its cases in turn. -/
theorem test_premises_PassesPosted :
    ((GangIssues s0 [0, 16] 0 tm) ∧ ([0, 16] = [0, 16]) ∧ (teamK? s0 0 = some tm) ∧ (gangNo (thr s0 0) = gangNo (thr
      s0 0)) ∧ (∀ n < tm.desc.accs, (accOf tm n).st = 2 → (accOf tm n).gang ≠ gangNo (thr s0 0)) ∧ (List.map (fun x
      => x.id) (List.filter (fun p => !isDrain p && decide (p.gang = gangNo (thr s0 0))) (teamPasses s0 tm)) = [])) ∧
    ((GangIssues s0 [0, 16] 0 tm) ∧ ((Instr.mma wm, 104, [0]) ∈ [(Instr.mma wm, 104, [wm.d.toNat]), (Instr.mmac wm,
      105, [wm.d.toNat, wm.d.toNat + 1]), (Instr.mmabs wm, 106, [wm.d.toNat])]) ∧ (badTile tm wm.s1.toNat = false) ∧
      (badTile tm wm.s2.toNat = false) ∧ (104 = 106 → badTile tm wm.s3.toNat = false) ∧ (mmaShapeBad 104 wm tm
      (tlcfg tm wm.s1.toNat) (tlcfg tm wm.s2.toNat) = false) ∧ (accCheck tm (gangNo (thr s0 0)) (some (decide (6 ≤
      wm.fmt))) [0] = none) ∧ (claimed s0 tm wm.s1.toNat true = false) ∧ (claimed s0 tm wm.s2.toNat true = false) ∧
      (104 = 106 → claimed s0 tm wm.s3.toNat true = false) ∧ (passRoom s0 tm = true)) ∧
    ((GangIssues v4 [0, 16] 0 tm) ∧ ((Instr.tdr wdr, 109, [3]) ∈ [(Instr.tdr wdr, 109, wdr.d.toNat :: if blockFmt
      wdr.fmt = true then [wdr.s3.toNat] else []), (Instr.tdrm wdr, 110, []), (Instr.tdrt wdr, 111, wdr.d.toNat ::
      if blockFmt wdr.fmt = true then [wdr.imm11.toNat / 16 % 32] else [])]) ∧ (drainBad 109 wdr tm (ctrlOf (src
      (thr v4 0) wdr.s2)) (tlcfg tm wdr.d.toNat) = false) ∧ (accCheck tm (gangNo (thr v4 0)) (some (decide (6 ≤
      wdr.fmt))) (if (decide (wdr.fmt = 12) || decide (wdr.fmt = 13)) = true then [wdr.s1.toNat, wdr.s1.toNat + 1]
      else [wdr.s1.toNat]) = none) ∧ (109 = 109 ∨ BitVec.toNat (src (thr v4 0) wdr.s3) % 8 = 0) ∧ (∀ n ∈ [3],
      claimed v4 tm n false = false) ∧ (passRoom v4 tm = true) ∧ (reachAll v4 0 Acc.store (List.flatMap (fun x =>
      lineCuts x.1 x.2) (drainSpots 109 wdr (ctrlOf (src (thr v4 0) wdr.s2)) (tlcfg tm wdr.d.toNat) (src (thr v4 0)
      wdr.s3))) = (Except.ok [], v4))) ∧
    ((GangIssues sMw [0, 16] 0 tm) ∧ ([0, 16] = [0, 16]) ∧ (teamK? sMw 0 = some tm) ∧ (gangNo (thr sMw 0) = gangNo
      (thr sMw 0)) ∧ (∀ n < tm.desc.accs, (accOf tm n).st = 2 → (accOf tm n).gang ≠ gangNo (thr sMw 0)) ∧ (List.map
      (fun x => x.id) (List.filter (fun p => !isDrain p && decide (p.gang = gangNo (thr sMw 0))) (teamPasses sMw
      tm)) ≠ [])) :=
  ⟨⟨by unfold GangIssues; decide +kernel, by decide +kernel⟩,
   ⟨by unfold GangIssues; decide +kernel, by decide +kernel⟩,
   ⟨by unfold GangIssues; decide +kernel, by decide +kernel⟩,
   ⟨by unfold GangIssues; decide +kernel, by decide +kernel⟩⟩

/-- States and operands that meet the premises of `Obligations.EngineSteps`, each of its cases in turn. -/
theorem test_premises_EngineSteps :
    (((engine v2 0).hung = false) ∧ (pg ∈ (engine v2 0).running) ∧ (pg.granted = some 10) ∧ (10 + 65536 ≤ v2.cycle)
      ∧ (coreOwner v2 ((0 / 16 : ℕ) * 64 + 0 % 16 * 4) = some 1)) ∧
    (((sEr (64 : Word)).cur.keys = [hk]) ∧ (isHart hk = true) ∧ ((thr (sEr (64 : Word)) hk).wait = Wait.none) ∧
      (bits (src (thr (sEr (64 : Word)) hk) w1.s1) 63 6 ≠ 0)) ∧
    (((sEr (1 : Word)).cur.keys = [hk]) ∧ (isHart hk = true) ∧ ((thr (sEr (1 : Word)) hk).wait = Wait.none) ∧ (bits
      (src (thr (sEr (1 : Word)) hk) w1.s1) 63 6 = 0) ∧ (ownsCore (sEr (1 : Word)) (partOf (sEr (1 : Word)) hk)
      (bits (src (thr (sEr (1 : Word)) hk) w1.s1) 5 4 * 64 + bits (src (thr (sEr (1 : Word)) hk) w1.s1) 3 0 * 4) =
      false)) ∧
    (((sEr (0 : Word)).cur.keys = [hk]) ∧ (isHart hk = true) ∧ ((thr (sEr (0 : Word)) hk).wait = Wait.none) ∧ (bits
      (src (thr (sEr (0 : Word)) hk) w1.s1) 63 6 = 0) ∧ (ownsCore (sEr (0 : Word)) (partOf (sEr (0 : Word)) hk)
      (bits (src (thr (sEr (0 : Word)) hk) w1.s1) 5 4 * 64 + bits (src (thr (sEr (0 : Word)) hk) w1.s1) 3 0 * 4) =
      true) ∧ (∀ p ∈ (engine (sEr (0 : Word)) (bits (src (thr (sEr (0 : Word)) hk) w1.s1) 5 0)).running, isDrain p =
      false)) ∧
    (((engine sMw 0).hung = false) ∧ ((engine sMw 0).freeAt ≤ sMw.cycle) ∧ ((engine sMw 0).queue = [pass0]) ∧
      (pass0.posted < sMw.cycle) ∧ (isDrain pass0 = false) ∧ (team? sMw pass0.part pass0.asid pass0.team = some tm)) ∧
    (((engine v5 0).queue[0]? = some pass0) ∧ (pass0.posted + 4096 ≤ v5.cycle)) ∧
    ((sPc.engines = [(0, engine sPc 0)]) ∧ ((engine sPc 0).hung = false) ∧ ((engine sPc 0).queue = []) ∧ ((engine
      sPc 0).running = [pg]) ∧ (isDrain pg = false) ∧ (pg.granted = some 10) ∧ (10 + 20 ≤ sPc.cycle) ∧ (team? sPc
      pg.part pg.asid pg.team = some tm) ∧ (tm.serial = pg.serial) ∧ (tm.st = TeamState.resident) ∧ ((member tm
      pg.leader).loc = MWhere.here)) ∧
    (((engine sDc 0).hung = false) ∧ ((engine sDc 0).running = [pd]) ∧ (pd.maj = 109) ∧ (pd.w.fmt = 6) ∧ (pd.granted
      = some 10) ∧ (10 + 20 + pd.retries ≤ sDc.cycle) ∧ (team? sDc pd.part pd.asid pd.team = some tm) ∧ (tm.st ≠
      TeamState.held) ∧ (∀ x ∈ sDc.teams, x.stopping = none) ∧ ((cfgOf pd.ca).rows ≤ 128) ∧ ((cfgOf pd.ca).cols ≤
      16) ∧ ((ctrlOf pd.ctrl).scale = 127) ∧ ((List.map (memberKey tm) (gangIdx tm pd.gang)).Nodup) ∧ (∀ k ∈
      List.map (memberKey tm) (gangIdx tm pd.gang), (thr sDc k).chain.fp = none)) :=
  ⟨by decide +kernel,
   by decide +kernel,
   by decide +kernel,
   by decide +kernel,
   by decide +kernel,
   by decide +kernel,
   by decide +kernel,
   by decide +kernel⟩
end Sys2Proof.Tests.Tile

/-! The copy engine. -/

namespace Sys2Proof.Tests.Copy

open Sys2Proof.Machine

def w1 : Wide := wd 10 11 12 13

def putW (s : State) (a : Nat) (l : List Word) : State := (l.zipIdx).foldl (fun s (v, i) => wrWord s (a + 8 * i) v)
  s

def mm (l : Nat) : Machine.Member := { loc := .here, frame := 0x9000 + 1024 * l }

def tm (k : Nat) : Machine.Team :=
  { part := 1, asid := 1, num := 3, st := .resident, serial := 5, desc := { limit := 4, gw := 16, syncs := 2, tiles := 4, accs := 3, scrpg := 1, frames := 0x9000 }, count := 2, members := [(0, mm 0), (1, mm 1)], syncs := [(0, { kind := k, value := 4 })], copySeq := 0xFFFF_FFFF }

def te : Thread := { th0 with x := [(11, 0x3000), (12, 0x5000), (13, 16)] }

def sS : State := onSimt te

def sM (k : Nat) : State := { onSimt { te with team := 3, gangw := 16 } with teams := [tm k] }

def wn : Wide := { w1 with imm11 := 64 }

def cp (id : Nat) : Copy :=
  { id := id, part := 1, satp := satp1, solo := true, die := 0, core := 0, team := 0, serial := 0, saves := 0, seq := 0, maj := 0x59, fn := 0, dir := true, s1 := 0x3000, s2 := 0x5000, s3 := 16, layout := [], entry := 0, nosync := true, state := 1, done := 0, nominal := 16, home := none, touches := [], touchAll := false, key := 0, tid := 7, tidx := 0, flags := 0, index := none, orig := [] }

def v1 := { w1 with imm11 := 2 }

def sRg : State := onSimt { te with x := [(11, 0x3000), (12, 0x5000), (13, 0)] }

def wr4 : Wide := { wn with fn := 0x18 }

def sAl : State := onSimt { te with x := [(11, 0x3002), (12, 0x5000), (13, 16)] }

def sFu : State := { sS with copies := (List.range 16).map cp }

def lay : List Word := [0x6000, w64 (2 ^ 58 + 2 ^ 56), w64 (4 + 4 * 2 ^ 32), w64 (1 + 2 ^ 32), w64 (2 + 2 * 65536 +
  2 ^ 32 + 2 ^ 48), 64, 64, 64]

def sLy (l : List Word) (b c : Word) : State := putW (onSimt { te with x := [(11, 0x3000), (12, b), (13, c)] })
  0x3000 l

def v2 := sLy [0,0,0,0,0,0,0,0] 0 0

def im : List Word := [0x6000, w64 (2 ^ 60 + 2 ^ 58), w64 (4 + 4 * 65536 + 4 * 2 ^ 32 + 4 * 2 ^ 48), w64 (2 ^ 52 + 2
  ^ 40 + 2 ^ 36 + 2 ^ 32 + 2 ^ 28 + 2 ^ 24), w64 (2 + 2 * 65536 + 2 ^ 32 + 2 ^ 48), 64, 64, 64]

def sCq : State :=
  { onSimt { te with x := [(11, 0x4000_0000_0000_0000)] } with cores := [(0, { seq := 2 })], copies := [{ cp 3 with done := 5, state := 2 }] }

def sCq1 : State := { sCq with copies := [] }

def sSt : State := { base with copies := [cp 3, { cp 4 with s1 := 0x300F, s2 := 0x7000 }] }

def cm : Copy := { cp 3 with solo := false, nosync := false, team := 3, serial := 5, state := 2, done := 15 }

def sCd : State :=
  { wrWord base 0x5008 0xAB00_0000_0000_0000 with copies := [cm, { cp 9 with s1 := 0x100 }], teams := [tm 1], threads := [(16, { te with st := .blocked, wait := .drain 5 [3] [] [], ww := w1 })], cores := [(0, { rlocks := [{ asid := 1, part := 1, write := true, lo := 0x3000, hi := 0x3010, copy := 3, own := true }] })] }

def cx : Copy := { cp 3 with s1 := 0x7_0000_0000, state := 2, done := 0 }

def sCx : State := { base with copies := [cx] }

def rX := copyRun sCx cx (cx.total - cx.done)

def cf : Copy := { cp 3 with s1 := 0x4000_0000, state := 2, done := 0 }

def sCf : State := { base with copies := [cf], tlb := [tlb1, { tlb1 with vpn := 0x40000, ppn := 0x40000 }] }

def rF := copyRun sCf cf (cf.total - cf.done)

def v3 := { cp 4 with s1 := 0x300F, s2 := 0x7000 }

def cqs := 1

def cm2 (maj fn : Nat) (dir : Bool) (a b c : Word) (ly : List Word) (nominal done : Nat) (ix : Option (Nat × Nat)) : Copy :=
  { cp 3 with solo := false, nosync := true, team := 3, serial := 5, state := 2, maj := maj, fn := fn, dir := dir, s1 := a, s2 := b, s3 := c, layout := ly, nominal := nominal, done := done, index := ix }

def sMv (c : Copy) : State :=
  { putW (putW (putW (putW (putW (putW base 0x6040 [0xABCD_EF01_2345_6789]) 0x6080 [0x1357_9BDF_0246_8ACE]) 0x60C0 [0x0F1E_2D3C_4B5A_6978]) 0x3000 [0x11, 0x4000_0000_0000_0005]) 0x5000 [1, 0x3F80_0000_0000_0003]) 0x6000 [0x1111_2222_3333_4444, 0x5555_6666_7777_8888] with copies := [c], teams := [tm 1] }

def cR1 := cm2 0x5C 0x18 true 0x3000 0x5000 16 [] 16 3 none

def cR2 := cm2 0x5C 0x00 true 0x3000 0x5000 16 [] 16 3 none

def cT1 := cm2 0x58 0 false 0x7777 0 0x5000 lay 8 3 none

def cT2 := cm2 0x58 0 false 0x7777 (0x0003_0003) 0x5000 lay 8 3 none

def cT3 := cm2 0x58 0 true 0x7777 0 0x5000 lay 8 3 none

def cG1 := cm2 0x5A 0 true 0x7777 0x5800 0x5000 lay 8 3 (some (1, 2))

def cG2 := cm2 0x5A 0 true 0x7777 0x5800 0x5000 lay 8 3 (some (1, 9))

def cS1 := cm2 0x5B 0 true 0x7777 0x5800 0x5000 lay 8 3 (some (1, 2))

def cI1 := cm2 0x5D 0 true 0x7777 0 0x5000 im 8 3 none

def cI2 := cm2 0x5D 0 true 0x7777 4 0x5000 im 8 3 none

def locA (r : Except Flt Loc × State) : Nat := match r.1 with | .ok (.mem a _) => a | _ => 0

def mvS1 (c : Copy) (org : Option Word) : State := match org with | some a => (copyReach (sMv c) c a (copyEs c.maj c.fn c.layout) false).2 | none => sMv c

def mvS2 (c : Copy) (org : Option Word) (d : Word) : State := (copyReach (mvS1 c org) c d (copyEs c.maj c.fn
  c.layout) true).2

/-- States and operands that meet the premises of `Obligations.CopyIssue`, each of its cases in turn. -/
theorem test_premises_CopyIssue :
    (((sM 1).cur.keys = [0]) ∧ (isSimt 0 = true) ∧ ((thr (sM 1) 0).helper = false) ∧ ((Instr.cpl v1, 89) ∈
      [(Instr.cpl v1, 89), (Instr.cpr v1, 92), (Instr.cpt v1, 88), (Instr.cpg v1, 90), (Instr.cps v1, 91),
      (Instr.cpim v1, 93)]) ∧ (layoutLoad (sM 1) 0 89 (src (thr (sM 1) 0) v1.s1) = (Except.ok [], sM 1)) ∧ (([] :
      List Word) = [] ∨ layBad 89 [] = false) ∧ (v1.imm11.getLsbD 6 = false) ∧ (∀ (m : Team), teamK? (sM 1) 0 = some
      m → m.desc.syncs ≤ v1.imm11.toNat % 64)) ∧
    ((sS.cur.keys = [0]) ∧ (isSimt 0 = true) ∧ ((thr sS 0).helper = false) ∧ ((Instr.cpl w1, 89) ∈ [(Instr.cpl w1,
      89), (Instr.cpr w1, 92), (Instr.cpt w1, 88), (Instr.cpg w1, 90), (Instr.cps w1, 91), (Instr.cpim w1, 93)]) ∧
      (layoutLoad sS 0 89 (src (thr sS 0) w1.s1) = (Except.ok [], sS)) ∧ (([] : List Word) = [] ∨ layBad 89 [] =
      false) ∧ (w1.imm11.getLsbD 6 = false) ∧ (∀ (m : Team), teamK? sS 0 = some m → m.desc.syncs ≤ w1.imm11.toNat %
      64)) ∧
    (((sM 0).cur.keys = [0]) ∧ (isSimt 0 = true) ∧ ((thr (sM 0) 0).helper = false) ∧ ((Instr.cpl w1, 89) ∈
      [(Instr.cpl w1, 89), (Instr.cpr w1, 92), (Instr.cpt w1, 88), (Instr.cpg w1, 90), (Instr.cps w1, 91),
      (Instr.cpim w1, 93)]) ∧ (layoutLoad (sM 0) 0 89 (src (thr (sM 0) 0) w1.s1) = (Except.ok [], sM 0)) ∧ (([] :
      List Word) = [] ∨ layBad 89 [] = false) ∧ (w1.imm11.getLsbD 6 = false) ∧ (∃ m, teamK? (sM 0) 0 = some m ∧
      w1.imm11.toNat % 64 < m.desc.syncs ∧ (syncOf m (w1.imm11.toNat % 64)).kind = 0)) ∧
    ((sRg.cur.keys = [0]) ∧ (isSimt 0 = true) ∧ ((thr sRg 0).helper = false) ∧ ((Instr.cpl wn, 89) ∈ [(Instr.cpl wn,
      89), (Instr.cpr wn, 92), (Instr.cpt wn, 88), (Instr.cpg wn, 90), (Instr.cps wn, 91), (Instr.cpim wn, 93)]) ∧
      (layoutLoad sRg 0 89 (src (thr sRg 0) wn.s1) = (Except.ok [], sRg)) ∧ (([] : List Word) = [] ∨ layBad 89 [] =
      false) ∧ (wn.imm11.getLsbD 6 = true ∨ ∃ m, teamK? sRg 0 = some m ∧ wn.imm11.toNat % 64 < m.desc.syncs ∧
      (syncOf m (wn.imm11.toNat % 64)).kind ≠ 0) ∧ (rangeBad 89 (layOf []) (copyEs 89 wn.fn.toNat []) (src (thr sRg
      0) wn.s1) (src (thr sRg 0) wn.s2) (src (thr sRg 0) wn.s3) = true)) ∧
    ((sAl.cur.keys = [0]) ∧ (isSimt 0 = true) ∧ ((thr sAl 0).helper = false) ∧ ((Instr.cpr wr4, 92) ∈ [(Instr.cpl
      wr4, 89), (Instr.cpr wr4, 92), (Instr.cpt wr4, 88), (Instr.cpg wr4, 90), (Instr.cps wr4, 91), (Instr.cpim wr4,
      93)]) ∧ (layoutLoad sAl 0 92 (src (thr sAl 0) wr4.s1) = (Except.ok [], sAl)) ∧ (([] : List Word) = [] ∨ layBad
      92 [] = false) ∧ (wr4.imm11.getLsbD 6 = true ∨ ∃ m, teamK? sAl 0 = some m ∧ wr4.imm11.toNat % 64 <
      m.desc.syncs ∧ (syncOf m (wr4.imm11.toNat % 64)).kind ≠ 0) ∧ (rangeBad 92 (layOf []) (copyEs 92 wr4.fn.toNat
      []) (src (thr sAl 0) wr4.s1) (src (thr sAl 0) wr4.s2) (src (thr sAl 0) wr4.s3) = false) ∧ (alignBad 92 (layOf
      []) (copyEs 92 wr4.fn.toNat []) (src (thr sAl 0) wr4.s1) (src (thr sAl 0) wr4.s2) (src (thr sAl 0) wr4.s3) =
      some (12290 : Word))) ∧
    ((sFu.cur.keys = [0]) ∧ (isSimt 0 = true) ∧ ((thr sFu 0).helper = false) ∧ ((Instr.cpl wn, 89) ∈ [(Instr.cpl wn,
      89), (Instr.cpr wn, 92), (Instr.cpt wn, 88), (Instr.cpg wn, 90), (Instr.cps wn, 91), (Instr.cpim wn, 93)]) ∧
      (layoutLoad sFu 0 89 (src (thr sFu 0) wn.s1) = (Except.ok [], sFu)) ∧ (([] : List Word) = [] ∨ layBad 89 [] =
      false) ∧ (wn.imm11.getLsbD 6 = true ∨ ∃ m, teamK? sFu 0 = some m ∧ wn.imm11.toNat % 64 < m.desc.syncs ∧
      (syncOf m (wn.imm11.toNat % 64)).kind ≠ 0) ∧ (rangeBad 89 (layOf []) (copyEs 89 wn.fn.toNat []) (src (thr sFu
      0) wn.s1) (src (thr sFu 0) wn.s2) (src (thr sFu 0) wn.s3) = false) ∧ (alignBad 89 (layOf []) (copyEs 89
      wn.fn.toNat []) (src (thr sFu 0) wn.s1) (src (thr sFu 0) wn.s2) (src (thr sFu 0) wn.s3) = none) ∧ (16 ≤
      (List.filter (fun x => decide (64 * x.die + x.core = coreOf 0)) sFu.copies).length)) ∧
    ((sS.cur.keys = [0]) ∧ (isSimt 0 = true) ∧ ((thr sS 0).helper = false) ∧ ((Instr.cpl wn, 89) ∈ [(Instr.cpl wn,
      89), (Instr.cpr wn, 92), (Instr.cpt wn, 88), (Instr.cpg wn, 90), (Instr.cps wn, 91), (Instr.cpim wn, 93)]) ∧
      (layoutLoad sS 0 89 (src (thr sS 0) wn.s1) = (Except.ok [], sS)) ∧ (([] : List Word) = [] ∨ layBad 89 [] =
      false) ∧ (wn.imm11.getLsbD 6 = true ∨ ∃ m, teamK? sS 0 = some m ∧ wn.imm11.toNat % 64 < m.desc.syncs ∧ (syncOf
      m (wn.imm11.toNat % 64)).kind ≠ 0) ∧ (rangeBad 89 (layOf []) (copyEs 89 wn.fn.toNat []) (src (thr sS 0) wn.s1)
      (src (thr sS 0) wn.s2) (src (thr sS 0) wn.s3) = false) ∧ (alignBad 89 (layOf []) (copyEs 89 wn.fn.toNat [])
      (src (thr sS 0) wn.s1) (src (thr sS 0) wn.s2) (src (thr sS 0) wn.s3) = none) ∧ ((List.filter (fun x => decide
      (64 * x.die + x.core = coreOf 0)) sS.copies).length < 16) ∧ (classWaits sS (newCopy sS 0 89 wn []) = false)) ∧
    (((sM 1).cur.keys = [0]) ∧ (isSimt 0 = true) ∧ ((thr (sM 1) 0).helper = false) ∧ ((Instr.cpl w1, 89) ∈
      [(Instr.cpl w1, 89), (Instr.cpr w1, 92), (Instr.cpt w1, 88), (Instr.cpg w1, 90), (Instr.cps w1, 91),
      (Instr.cpim w1, 93)]) ∧ (layoutLoad (sM 1) 0 89 (src (thr (sM 1) 0) w1.s1) = (Except.ok [], sM 1)) ∧ (([] :
      List Word) = [] ∨ layBad 89 [] = false) ∧ (w1.imm11.getLsbD 6 = true ∨ ∃ m, teamK? (sM 1) 0 = some m ∧
      w1.imm11.toNat % 64 < m.desc.syncs ∧ (syncOf m (w1.imm11.toNat % 64)).kind ≠ 0) ∧ (rangeBad 89 (layOf [])
      (copyEs 89 w1.fn.toNat []) (src (thr (sM 1) 0) w1.s1) (src (thr (sM 1) 0) w1.s2) (src (thr (sM 1) 0) w1.s3) =
      false) ∧ (alignBad 89 (layOf []) (copyEs 89 w1.fn.toNat []) (src (thr (sM 1) 0) w1.s1) (src (thr (sM 1) 0)
      w1.s2) (src (thr (sM 1) 0) w1.s3) = none) ∧ ((List.filter (fun x => decide (64 * x.die + x.core = coreOf 0))
      (sM 1).copies).length < 16) ∧ (classWaits (sM 1) (newCopy (sM 1) 0 89 w1 []) = false)) ∧
    ((sS.cur.keys = [0]) ∧ (isSimt 0 = true) ∧ ((thr sS 0).helper = false) ∧ ((Instr.cpr wr4, 92) ∈ [(Instr.cpl wr4,
      89), (Instr.cpr wr4, 92), (Instr.cpt wr4, 88), (Instr.cpg wr4, 90), (Instr.cps wr4, 91), (Instr.cpim wr4,
      93)]) ∧ (layoutLoad sS 0 92 (src (thr sS 0) wr4.s1) = (Except.ok [], sS)) ∧ (([] : List Word) = [] ∨ layBad 92
      [] = false) ∧ (wr4.imm11.getLsbD 6 = true ∨ ∃ m, teamK? sS 0 = some m ∧ wr4.imm11.toNat % 64 < m.desc.syncs ∧
      (syncOf m (wr4.imm11.toNat % 64)).kind ≠ 0) ∧ (rangeBad 92 (layOf []) (copyEs 92 wr4.fn.toNat []) (src (thr sS
      0) wr4.s1) (src (thr sS 0) wr4.s2) (src (thr sS 0) wr4.s3) = false) ∧ (alignBad 92 (layOf []) (copyEs 92
      wr4.fn.toNat []) (src (thr sS 0) wr4.s1) (src (thr sS 0) wr4.s2) (src (thr sS 0) wr4.s3) = none) ∧
      ((List.filter (fun x => decide (64 * x.die + x.core = coreOf 0)) sS.copies).length < 16) ∧ (classWaits sS
      (newCopy sS 0 92 wr4 []) = false)) ∧
    ((v2.cur.keys = [0]) ∧ (isSimt 0 = true) ∧ ((thr v2 0).helper = false) ∧ ((Instr.cpt wn, 88) ∈ [(Instr.cpl wn,
      89), (Instr.cpr wn, 92), (Instr.cpt wn, 88), (Instr.cpg wn, 90), (Instr.cps wn, 91), (Instr.cpim wn, 93)]) ∧
      (layoutLoad v2 0 88 (src (thr v2 0) wn.s1) = (Except.ok [(0 : Word), (0 : Word), (0 : Word), (0 : Word), (0 :
      Word), (0 : Word), (0 : Word), (0 : Word)], (layoutLoad (sLy [(0 : Word), (0 : Word), (0 : Word), (0 : Word),
      (0 : Word), (0 : Word), (0 : Word), (0 : Word)] (0 : Word) (0 : Word)) 0 88 (12288 : Word)).2)) ∧ ([(0 :
      Word), (0 : Word), (0 : Word), (0 : Word), (0 : Word), (0 : Word), (0 : Word), (0 : Word)] ≠ []) ∧ (layBad 88
      [(0 : Word), (0 : Word), (0 : Word), (0 : Word), (0 : Word), (0 : Word), (0 : Word), (0 : Word)] = true)) ∧
    (((sLy lay (0 : Word) (20480 : Word)).cur.keys = [0]) ∧ (isSimt 0 = true) ∧ ((thr (sLy lay (0 : Word) (20480 :
      Word)) 0).helper = false) ∧ ((Instr.cpt wn, 88) ∈ [(Instr.cpl wn, 89), (Instr.cpr wn, 92), (Instr.cpt wn, 88),
      (Instr.cpg wn, 90), (Instr.cps wn, 91), (Instr.cpim wn, 93)]) ∧ (layoutLoad (sLy lay (0 : Word) (20480 :
      Word)) 0 88 (src (thr (sLy lay (0 : Word) (20480 : Word)) 0) wn.s1) = (Except.ok lay, (layoutLoad (sLy lay (0
      : Word) (20480 : Word)) 0 88 (12288 : Word)).2)) ∧ (lay = [] ∨ layBad 88 lay = false) ∧ (wn.imm11.getLsbD 6 =
      true ∨ ∃ m, teamK? (layoutLoad (sLy lay (0 : Word) (20480 : Word)) 0 88 (12288 : Word)).2 0 = some m ∧
      wn.imm11.toNat % 64 < m.desc.syncs ∧ (syncOf m (wn.imm11.toNat % 64)).kind ≠ 0) ∧ (rangeBad 88 (layOf lay)
      (copyEs 88 wn.fn.toNat lay) (src (thr (sLy lay (0 : Word) (20480 : Word)) 0) wn.s1) (src (thr (sLy lay (0 :
      Word) (20480 : Word)) 0) wn.s2) (src (thr (sLy lay (0 : Word) (20480 : Word)) 0) wn.s3) = false) ∧ (alignBad
      88 (layOf lay) (copyEs 88 wn.fn.toNat lay) (src (thr (sLy lay (0 : Word) (20480 : Word)) 0) wn.s1) (src (thr
      (sLy lay (0 : Word) (20480 : Word)) 0) wn.s2) (src (thr (sLy lay (0 : Word) (20480 : Word)) 0) wn.s3) = none)
      ∧ ((List.filter (fun x => decide (64 * x.die + x.core = coreOf 0)) (layoutLoad (sLy lay (0 : Word) (20480 :
      Word)) 0 88 (12288 : Word)).2.copies).length < 16) ∧ (classWaits (layoutLoad (sLy lay (0 : Word) (20480 :
      Word)) 0 88 (12288 : Word)).2 (newCopy (layoutLoad (sLy lay (0 : Word) (20480 : Word)) 0 88 (12288 : Word)).2
      0 88 wn lay) = false)) ∧
    (((sLy lay (0 : Word) (20480 : Word)).cur.keys = [0]) ∧ (isSimt 0 = true) ∧ ((thr (sLy lay (0 : Word) (20480 :
      Word)) 0).helper = false) ∧ ((Instr.cpg wn, 90) ∈ [(Instr.cpl wn, 89), (Instr.cpr wn, 92), (Instr.cpt wn, 88),
      (Instr.cpg wn, 90), (Instr.cps wn, 91), (Instr.cpim wn, 93)]) ∧ (layoutLoad (sLy lay (0 : Word) (20480 :
      Word)) 0 90 (src (thr (sLy lay (0 : Word) (20480 : Word)) 0) wn.s1) = (Except.ok lay, (layoutLoad (sLy lay (0
      : Word) (20480 : Word)) 0 90 (12288 : Word)).2)) ∧ (lay = [] ∨ layBad 90 lay = false) ∧ (wn.imm11.getLsbD 6 =
      true ∨ ∃ m, teamK? (layoutLoad (sLy lay (0 : Word) (20480 : Word)) 0 90 (12288 : Word)).2 0 = some m ∧
      wn.imm11.toNat % 64 < m.desc.syncs ∧ (syncOf m (wn.imm11.toNat % 64)).kind ≠ 0) ∧ (rangeBad 90 (layOf lay)
      (copyEs 90 wn.fn.toNat lay) (src (thr (sLy lay (0 : Word) (20480 : Word)) 0) wn.s1) (src (thr (sLy lay (0 :
      Word) (20480 : Word)) 0) wn.s2) (src (thr (sLy lay (0 : Word) (20480 : Word)) 0) wn.s3) = false) ∧ (alignBad
      90 (layOf lay) (copyEs 90 wn.fn.toNat lay) (src (thr (sLy lay (0 : Word) (20480 : Word)) 0) wn.s1) (src (thr
      (sLy lay (0 : Word) (20480 : Word)) 0) wn.s2) (src (thr (sLy lay (0 : Word) (20480 : Word)) 0) wn.s3) = none)
      ∧ ((List.filter (fun x => decide (64 * x.die + x.core = coreOf 0)) (layoutLoad (sLy lay (0 : Word) (20480 :
      Word)) 0 90 (12288 : Word)).2.copies).length < 16) ∧ (classWaits (layoutLoad (sLy lay (0 : Word) (20480 :
      Word)) 0 90 (12288 : Word)).2 (newCopy (layoutLoad (sLy lay (0 : Word) (20480 : Word)) 0 90 (12288 : Word)).2
      0 90 wn lay) = false)) ∧
    (((sLy lay (0 : Word) (20480 : Word)).cur.keys = [0]) ∧ (isSimt 0 = true) ∧ ((thr (sLy lay (0 : Word) (20480 :
      Word)) 0).helper = false) ∧ ((Instr.cps wn, 91) ∈ [(Instr.cpl wn, 89), (Instr.cpr wn, 92), (Instr.cpt wn, 88),
      (Instr.cpg wn, 90), (Instr.cps wn, 91), (Instr.cpim wn, 93)]) ∧ (layoutLoad (sLy lay (0 : Word) (20480 :
      Word)) 0 91 (src (thr (sLy lay (0 : Word) (20480 : Word)) 0) wn.s1) = (Except.ok lay, (layoutLoad (sLy lay (0
      : Word) (20480 : Word)) 0 91 (12288 : Word)).2)) ∧ (lay = [] ∨ layBad 91 lay = false) ∧ (wn.imm11.getLsbD 6 =
      true ∨ ∃ m, teamK? (layoutLoad (sLy lay (0 : Word) (20480 : Word)) 0 91 (12288 : Word)).2 0 = some m ∧
      wn.imm11.toNat % 64 < m.desc.syncs ∧ (syncOf m (wn.imm11.toNat % 64)).kind ≠ 0) ∧ (rangeBad 91 (layOf lay)
      (copyEs 91 wn.fn.toNat lay) (src (thr (sLy lay (0 : Word) (20480 : Word)) 0) wn.s1) (src (thr (sLy lay (0 :
      Word) (20480 : Word)) 0) wn.s2) (src (thr (sLy lay (0 : Word) (20480 : Word)) 0) wn.s3) = false) ∧ (alignBad
      91 (layOf lay) (copyEs 91 wn.fn.toNat lay) (src (thr (sLy lay (0 : Word) (20480 : Word)) 0) wn.s1) (src (thr
      (sLy lay (0 : Word) (20480 : Word)) 0) wn.s2) (src (thr (sLy lay (0 : Word) (20480 : Word)) 0) wn.s3) = none)
      ∧ ((List.filter (fun x => decide (64 * x.die + x.core = coreOf 0)) (layoutLoad (sLy lay (0 : Word) (20480 :
      Word)) 0 91 (12288 : Word)).2.copies).length < 16) ∧ (classWaits (layoutLoad (sLy lay (0 : Word) (20480 :
      Word)) 0 91 (12288 : Word)).2 (newCopy (layoutLoad (sLy lay (0 : Word) (20480 : Word)) 0 91 (12288 : Word)).2
      0 91 wn lay) = false)) ∧
    (((sLy im (0 : Word) (20480 : Word)).cur.keys = [0]) ∧ (isSimt 0 = true) ∧ ((thr (sLy im (0 : Word) (20480 :
      Word)) 0).helper = false) ∧ ((Instr.cpim wn, 93) ∈ [(Instr.cpl wn, 89), (Instr.cpr wn, 92), (Instr.cpt wn,
      88), (Instr.cpg wn, 90), (Instr.cps wn, 91), (Instr.cpim wn, 93)]) ∧ (layoutLoad (sLy im (0 : Word) (20480 :
      Word)) 0 93 (src (thr (sLy im (0 : Word) (20480 : Word)) 0) wn.s1) = (Except.ok im, (layoutLoad (sLy im (0 :
      Word) (20480 : Word)) 0 93 (12288 : Word)).2)) ∧ (im = [] ∨ layBad 93 im = false) ∧ (wn.imm11.getLsbD 6 = true
      ∨ ∃ m, teamK? (layoutLoad (sLy im (0 : Word) (20480 : Word)) 0 93 (12288 : Word)).2 0 = some m ∧
      wn.imm11.toNat % 64 < m.desc.syncs ∧ (syncOf m (wn.imm11.toNat % 64)).kind ≠ 0) ∧ (rangeBad 93 (layOf im)
      (copyEs 93 wn.fn.toNat im) (src (thr (sLy im (0 : Word) (20480 : Word)) 0) wn.s1) (src (thr (sLy im (0 : Word)
      (20480 : Word)) 0) wn.s2) (src (thr (sLy im (0 : Word) (20480 : Word)) 0) wn.s3) = false) ∧ (alignBad 93
      (layOf im) (copyEs 93 wn.fn.toNat im) (src (thr (sLy im (0 : Word) (20480 : Word)) 0) wn.s1) (src (thr (sLy im
      (0 : Word) (20480 : Word)) 0) wn.s2) (src (thr (sLy im (0 : Word) (20480 : Word)) 0) wn.s3) = none) ∧
      ((List.filter (fun x => decide (64 * x.die + x.core = coreOf 0)) (layoutLoad (sLy im (0 : Word) (20480 :
      Word)) 0 93 (12288 : Word)).2.copies).length < 16) ∧ (classWaits (layoutLoad (sLy im (0 : Word) (20480 :
      Word)) 0 93 (12288 : Word)).2 (newCopy (layoutLoad (sLy im (0 : Word) (20480 : Word)) 0 93 (12288 : Word)).2 0
      93 wn im) = false)) :=
  ⟨by decide +kernel,
   by decide +kernel,
   by decide +kernel,
   by decide +kernel,
   by decide +kernel,
   by decide +kernel,
   by decide +kernel,
   by decide +kernel,
   by decide +kernel,
   by decide +kernel,
   by decide +kernel,
   by decide +kernel,
   by decide +kernel,
   by decide +kernel⟩

/-- More of them. -/
theorem test_premises_CopyIssue_2 :
    ((sS.cur.keys = [0]) ∧ (isSimt 0 = true) ∧ ((thr sS 0).helper = false)) ∧
    ((sCq.cur.keys = [0]) ∧ (isSimt 0 = true) ∧ ((thr sCq 0).helper = false)) ∧
    ((sCq1.cur.keys = [0]) ∧ (isSimt 0 = true) ∧ ((thr sCq1 0).helper = false)) :=
  ⟨by decide +kernel,
   by decide +kernel,
   by decide +kernel⟩

/-- States and operands that meet the premises of `Obligations.CopySteps`, each of its cases in turn. -/
theorem test_premises_CopySteps :
    ((sSt.copies[0]? = some (cp 3)) ∧ ((cp 3).state = 1) ∧ (∀ x ∈ List.take 0 sSt.copies, x.die = (cp 3).die →
      x.core = (cp 3).core → copiesConflict x (cp 3) = false)) ∧
    ((sSt.copies[1]? = some v3) ∧ (v3.state = 1) ∧ (∃ x ∈ List.take 1 sSt.copies, x.die = v3.die ∧ x.core = v3.core
      ∧ copiesConflict x v3 = true)) ∧
    ((mkeys sCd.threads = true) ∧ (sCd.copies[0]? = some cm) ∧ (cm.state = 2) ∧ (cm.maj = 89) ∧ (cm.done + 1 =
      cm.nominal) ∧ (cm.orig = []) ∧ (cm.copied = []) ∧ (cm.flags = 0) ∧ (BitVec.toNat cm.s1 ≤ BitVec.toNat cm.s2 ∨
      BitVec.toNat cm.s2 + cm.nominal ≤ BitVec.toNat cm.s1) ∧ (cm.solo = false) ∧ (cm.nosync = false) ∧ (copyReach
      sCd cm (cm.s2 + w64 cm.done) 1 false = (Except.ok (Loc.mem 20495 (1 : Word)), (copyReach sCd cm (20495 : Word)
      1 false).2)) ∧ (copyReach (copyReach sCd cm (20495 : Word) 1 false).2 cm (cm.s1 + w64 cm.done) 1 true =
      (Except.ok (Loc.mem 12303 (1 : Word)), (copyReach (copyReach sCd cm (20495 : Word) 1 false).2 cm (12303 :
      Word) 1 true).2)) ∧ (managed (1 : Word) = false) ∧ (managed (1 : Word) = false) ∧ (team? sCd cm.part (asidOf
      cm.satp) cm.team = some (tm 1)) ∧ ((tm 1).serial = cm.serial) ∧ ((tm 1).st = TeamState.resident) ∧ ((syncOf
      (tm 1) cm.entry).kind = 1) ∧ ((syncOf (tm 1) cm.entry).waiters = []) ∧ ((syncOf (tm 1) cm.entry).value +
      cm.nominal ≤ 2 ^ 48 - 1)) ∧
    ((sCx.copies[0]? = some cx) ∧ (cx.state = 2) ∧ ((match rX.1.2 with | some (CFlt.xlat c v w) => c | x => 0) <
      256) ∧ (copyRun sCx cx (cx.total - cx.done) = ((rX.1.1, some (CFlt.xlat
      (match rX.1.2 with | some (CFlt.xlat c v w) => c | x => 0) (30064771072 : Word) true)), rX.2))) ∧
    ((sCf.copies[0]? = some cf) ∧ (cf.state = 2) ∧ (copyRun sCf cf (cf.total - cf.done) = ((rF.1.1, some (CFlt.fault
      (1073741824 : Word) true)), rF.2))) ∧
    ((mkeys (sMv cR1).threads = true) ∧ ((sMv cR1).copies[0]? = some cR1) ∧ (cR1.state = 2) ∧ (cR1.done + 1 =
      cR1.total) ∧ (cR1.orig = []) ∧ (cR1.copied = []) ∧ (cR1.nosync = true) ∧ (cR1.solo = false) ∧ (team? (sMv cR1)
      cR1.part (asidOf cR1.satp) cR1.team = some (tm 1)) ∧ ((tm 1).serial = cR1.serial) ∧ ((tm 1).st =
      TeamState.resident) ∧ ((member (tm 1) cR1.tidx).loc = MWhere.here) ∧ (MovesElement cR1 0 (some (20492 : Word))
      (12300 : Word)) ∧ (copyEs cR1.maj cR1.fn cR1.layout ∈ [1, 2, 4, 8]) ∧ (BitVec.toNat (12300 : Word) % copyEs
      cR1.maj cR1.fn cR1.layout = 0) ∧ (ReadsSource (sMv cR1) cR1 (some (20492 : Word)) (toBytes 4 1065353216) (mvS1
      cR1 (some (20492 : Word)))) ∧ (copyReach (mvS1 cR1 (some (20492 : Word))) cR1 (12300 : Word) (copyEs cR1.maj
      cR1.fn cR1.layout) true = (Except.ok (Loc.mem 12300 (1 : Word)), mvS2 cR1 (some (20492 : Word)) (12300 :
      Word))) ∧ (managed (1 : Word) = false)) ∧
    ((mkeys (sMv cR2).threads = true) ∧ ((sMv cR2).copies[0]? = some cR2) ∧ (cR2.state = 2) ∧ (cR2.done + 1 =
      cR2.total) ∧ (cR2.orig = []) ∧ (cR2.copied = []) ∧ (cR2.nosync = true) ∧ (cR2.solo = false) ∧ (team? (sMv cR2)
      cR2.part (asidOf cR2.satp) cR2.team = some (tm 1)) ∧ ((tm 1).serial = cR2.serial) ∧ ((tm 1).st =
      TeamState.resident) ∧ ((member (tm 1) cR2.tidx).loc = MWhere.here) ∧ (MovesElement cR2 0 (some (20492 : Word))
      (12300 : Word)) ∧ (copyEs cR2.maj cR2.fn cR2.layout ∈ [1, 2, 4, 8]) ∧ (BitVec.toNat (12300 : Word) % copyEs
      cR2.maj cR2.fn cR2.layout = 0) ∧ (ReadsSource (sMv cR2) cR2 (some (20492 : Word)) (toBytes 4 1065353216) (mvS1
      cR2 (some (20492 : Word)))) ∧ (copyReach (mvS1 cR2 (some (20492 : Word))) cR2 (12300 : Word) (copyEs cR2.maj
      cR2.fn cR2.layout) true = (Except.ok (Loc.mem 12300 (1 : Word)), mvS2 cR2 (some (20492 : Word)) (12300 :
      Word))) ∧ (managed (1 : Word) = false)) ∧
    ((mkeys (sMv cT1).threads = true) ∧ ((sMv cT1).copies[0]? = some cT1) ∧ (cT1.state = 2) ∧ (cT1.done + 1 =
      cT1.total) ∧ (cT1.orig = []) ∧ (cT1.copied = []) ∧ (cT1.nosync = true) ∧ (cT1.solo = false) ∧ (team? (sMv cT1)
      cT1.part (asidOf cT1.satp) cT1.team = some (tm 1)) ∧ ((tm 1).serial = cT1.serial) ∧ ((tm 1).st =
      TeamState.resident) ∧ ((member (tm 1) cT1.tidx).loc = MWhere.here) ∧ (MovesElement cT1 0 (some (24642 : Word))
      (20486 : Word)) ∧ (copyEs cT1.maj cT1.fn cT1.layout ∈ [1, 2, 4, 8]) ∧ (BitVec.toNat (20486 : Word) % copyEs
      cT1.maj cT1.fn cT1.layout = 0) ∧ (ReadsSource (sMv cT1) cT1 (some (24642 : Word)) (toBytes 2 9029) (mvS1 cT1
      (some (24642 : Word)))) ∧ (copyReach (mvS1 cT1 (some (24642 : Word))) cT1 (20486 : Word) (copyEs cT1.maj
      cT1.fn cT1.layout) true = (Except.ok (Loc.mem 20486 (1 : Word)), mvS2 cT1 (some (24642 : Word)) (20486 :
      Word))) ∧ (managed (1 : Word) = false)) ∧
    ((mkeys (sMv cT2).threads = true) ∧ ((sMv cT2).copies[0]? = some cT2) ∧ (cT2.state = 2) ∧ (cT2.done + 1 =
      cT2.total) ∧ (cT2.orig = []) ∧ (cT2.copied = []) ∧ (cT2.nosync = true) ∧ (cT2.solo = false) ∧ (team? (sMv cT2)
      cT2.part (asidOf cT2.satp) cT2.team = some (tm 1)) ∧ ((tm 1).serial = cT2.serial) ∧ ((tm 1).st =
      TeamState.resident) ∧ ((member (tm 1) cT2.tidx).loc = MWhere.here) ∧ (MovesElement cT2 0 none (20486 : Word))
      ∧ (copyEs cT2.maj cT2.fn cT2.layout ∈ [1, 2, 4, 8]) ∧ (BitVec.toNat (20486 : Word) % copyEs cT2.maj cT2.fn
      cT2.layout = 0) ∧ (ReadsSource (sMv cT2) cT2 none (toBytes 2 0) (mvS1 cT2 none)) ∧ (copyReach (mvS1 cT2 none)
      cT2 (20486 : Word) (copyEs cT2.maj cT2.fn cT2.layout) true = (Except.ok (Loc.mem 20486 (1 : Word)), mvS2 cT2
      none (20486 : Word))) ∧ (managed (1 : Word) = false)) ∧
    ((mkeys (sMv cT3).threads = true) ∧ ((sMv cT3).copies[0]? = some cT3) ∧ (cT3.state = 2) ∧ (cT3.done + 1 =
      cT3.total) ∧ (cT3.orig = []) ∧ (cT3.copied = []) ∧ (cT3.nosync = true) ∧ (cT3.solo = false) ∧ (team? (sMv cT3)
      cT3.part (asidOf cT3.satp) cT3.team = some (tm 1)) ∧ ((tm 1).serial = cT3.serial) ∧ ((tm 1).st =
      TeamState.resident) ∧ ((member (tm 1) cT3.tidx).loc = MWhere.here) ∧ (MovesElement cT3 0 (some (20486 : Word))
      (24642 : Word)) ∧ (copyEs cT3.maj cT3.fn cT3.layout ∈ [1, 2, 4, 8]) ∧ (BitVec.toNat (24642 : Word) % copyEs
      cT3.maj cT3.fn cT3.layout = 0) ∧ (ReadsSource (sMv cT3) cT3 (some (20486 : Word)) (toBytes 2 0) (mvS1 cT3
      (some (20486 : Word)))) ∧ (copyReach (mvS1 cT3 (some (20486 : Word))) cT3 (24642 : Word) (copyEs cT3.maj
      cT3.fn cT3.layout) true = (Except.ok (Loc.mem 24642 (1 : Word)), mvS2 cT3 (some (20486 : Word)) (24642 :
      Word))) ∧ (managed (1 : Word) = false)) ∧
    ((mkeys (sMv cG1).threads = true) ∧ ((sMv cG1).copies[0]? = some cG1) ∧ (cG1.state = 2) ∧ (cG1.done + 1 =
      cG1.total) ∧ (cG1.orig = []) ∧ (cG1.copied = []) ∧ (cG1.nosync = true) ∧ (cG1.solo = false) ∧ (team? (sMv cG1)
      cG1.part (asidOf cG1.satp) cG1.team = some (tm 1)) ∧ ((tm 1).serial = cG1.serial) ∧ ((tm 1).st =
      TeamState.resident) ∧ ((member (tm 1) cG1.tidx).loc = MWhere.here) ∧ (MovesElement cG1 2 (some (24706 : Word))
      (20486 : Word)) ∧ (copyEs cG1.maj cG1.fn cG1.layout ∈ [1, 2, 4, 8]) ∧ (BitVec.toNat (20486 : Word) % copyEs
      cG1.maj cG1.fn cG1.layout = 0) ∧ (ReadsSource (sMv cG1) cG1 (some (24706 : Word)) (toBytes 2 582) (mvS1 cG1
      (some (24706 : Word)))) ∧ (copyReach (mvS1 cG1 (some (24706 : Word))) cG1 (20486 : Word) (copyEs cG1.maj
      cG1.fn cG1.layout) true = (Except.ok (Loc.mem 20486 (1 : Word)), mvS2 cG1 (some (24706 : Word)) (20486 :
      Word))) ∧ (managed (1 : Word) = false)) ∧
    ((mkeys (sMv cG2).threads = true) ∧ ((sMv cG2).copies[0]? = some cG2) ∧ (cG2.state = 2) ∧ (cG2.done + 1 =
      cG2.total) ∧ (cG2.orig = []) ∧ (cG2.copied = []) ∧ (cG2.nosync = true) ∧ (cG2.solo = false) ∧ (team? (sMv cG2)
      cG2.part (asidOf cG2.satp) cG2.team = some (tm 1)) ∧ ((tm 1).serial = cG2.serial) ∧ ((tm 1).st =
      TeamState.resident) ∧ ((member (tm 1) cG2.tidx).loc = MWhere.here) ∧ (MovesElement cG2 9 none (20486 : Word))
      ∧ (copyEs cG2.maj cG2.fn cG2.layout ∈ [1, 2, 4, 8]) ∧ (BitVec.toNat (20486 : Word) % copyEs cG2.maj cG2.fn
      cG2.layout = 0) ∧ (ReadsSource (sMv cG2) cG2 none (toBytes 2 0) (mvS1 cG2 none)) ∧ (copyReach (mvS1 cG2 none)
      cG2 (20486 : Word) (copyEs cG2.maj cG2.fn cG2.layout) true = (Except.ok (Loc.mem 20486 (1 : Word)), mvS2 cG2
      none (20486 : Word))) ∧ (managed (1 : Word) = false)) ∧
    ((mkeys (sMv cS1).threads = true) ∧ ((sMv cS1).copies[0]? = some cS1) ∧ (cS1.state = 2) ∧ (cS1.done + 1 =
      cS1.total) ∧ (cS1.orig = []) ∧ (cS1.copied = []) ∧ (cS1.nosync = true) ∧ (cS1.solo = false) ∧ (team? (sMv cS1)
      cS1.part (asidOf cS1.satp) cS1.team = some (tm 1)) ∧ ((tm 1).serial = cS1.serial) ∧ ((tm 1).st =
      TeamState.resident) ∧ ((member (tm 1) cS1.tidx).loc = MWhere.here) ∧ (MovesElement cS1 2 (some (20486 : Word))
      (24706 : Word)) ∧ (copyEs cS1.maj cS1.fn cS1.layout ∈ [1, 2, 4, 8]) ∧ (BitVec.toNat (24706 : Word) % copyEs
      cS1.maj cS1.fn cS1.layout = 0) ∧ (ReadsSource (sMv cS1) cS1 (some (20486 : Word)) (toBytes 2 0) (mvS1 cS1
      (some (20486 : Word)))) ∧ (copyReach (mvS1 cS1 (some (20486 : Word))) cS1 (24706 : Word) (copyEs cS1.maj
      cS1.fn cS1.layout) true = (Except.ok (Loc.mem 24706 (1 : Word)), mvS2 cS1 (some (20486 : Word)) (24706 :
      Word))) ∧ (managed (1 : Word) = false)) ∧
    ((mkeys (sMv cI1).threads = true) ∧ ((sMv cI1).copies[0]? = some cI1) ∧ (cI1.state = 2) ∧ (cI1.done + 1 =
      cI1.total) ∧ (cI1.orig = []) ∧ (cI1.copied = []) ∧ (cI1.nosync = true) ∧ (cI1.solo = false) ∧ (team? (sMv cI1)
      cI1.part (asidOf cI1.satp) cI1.team = some (tm 1)) ∧ ((tm 1).serial = cI1.serial) ∧ ((tm 1).st =
      TeamState.resident) ∧ ((member (tm 1) cI1.tidx).loc = MWhere.here) ∧ (MovesElement cI1 0 (some (24642 : Word))
      (20486 : Word)) ∧ (copyEs cI1.maj cI1.fn cI1.layout ∈ [1, 2, 4, 8]) ∧ (BitVec.toNat (20486 : Word) % copyEs
      cI1.maj cI1.fn cI1.layout = 0) ∧ (ReadsSource (sMv cI1) cI1 (some (24642 : Word)) (toBytes 2 9029) (mvS1 cI1
      (some (24642 : Word)))) ∧ (copyReach (mvS1 cI1 (some (24642 : Word))) cI1 (20486 : Word) (copyEs cI1.maj
      cI1.fn cI1.layout) true = (Except.ok (Loc.mem 20486 (1 : Word)), mvS2 cI1 (some (24642 : Word)) (20486 :
      Word))) ∧ (managed (1 : Word) = false)) ∧
    ((mkeys (sMv cI2).threads = true) ∧ ((sMv cI2).copies[0]? = some cI2) ∧ (cI2.state = 2) ∧ (cI2.done + 1 =
      cI2.total) ∧ (cI2.orig = []) ∧ (cI2.copied = []) ∧ (cI2.nosync = true) ∧ (cI2.solo = false) ∧ (team? (sMv cI2)
      cI2.part (asidOf cI2.satp) cI2.team = some (tm 1)) ∧ ((tm 1).serial = cI2.serial) ∧ ((tm 1).st =
      TeamState.resident) ∧ ((member (tm 1) cI2.tidx).loc = MWhere.here) ∧ (MovesElement cI2 0 none (20486 : Word))
      ∧ (copyEs cI2.maj cI2.fn cI2.layout ∈ [1, 2, 4, 8]) ∧ (BitVec.toNat (20486 : Word) % copyEs cI2.maj cI2.fn
      cI2.layout = 0) ∧ (ReadsSource (sMv cI2) cI2 none (toBytes 2 0) (mvS1 cI2 none)) ∧ (copyReach (mvS1 cI2 none)
      cI2 (20486 : Word) (copyEs cI2.maj cI2.fn cI2.layout) true = (Except.ok (Loc.mem 20486 (1 : Word)), mvS2 cI2
      none (20486 : Word))) ∧ (managed (1 : Word) = false)) :=
  ⟨by decide +kernel,
   by decide +kernel,
   by decide +kernel,
   by decide +kernel,
   ⟨by decide +kernel, by decide +kernel, Prod.ext (by decide +kernel) rfl⟩,
   ⟨by decide +kernel, by decide +kernel, by decide +kernel, by decide +kernel, by decide +kernel, by decide +kernel, by decide +kernel, by decide +kernel, by decide +kernel, by decide +kernel, by decide +kernel, by decide +kernel, .inl ⟨by decide +kernel, by decide +kernel, by decide +kernel⟩, by decide +kernel, by decide +kernel, reads_of (by decide +kernel), by decide +kernel, by decide +kernel⟩,
   ⟨by decide +kernel, by decide +kernel, by decide +kernel, by decide +kernel, by decide +kernel, by decide +kernel, by decide +kernel, by decide +kernel, by decide +kernel, by decide +kernel, by decide +kernel, by decide +kernel, .inl ⟨by decide +kernel, by decide +kernel, by decide +kernel⟩, by decide +kernel, by decide +kernel, reads_of (by decide +kernel), by decide +kernel, by decide +kernel⟩,
   ⟨by decide +kernel, by decide +kernel, by decide +kernel, by decide +kernel, by decide +kernel, by decide +kernel, by decide +kernel, by decide +kernel, by decide +kernel, by decide +kernel, by decide +kernel, by decide +kernel, .inr (.inl ⟨by decide +kernel, by decide +kernel, by decide +kernel, fun _ => by decide +kernel, fun h => absurd (by decide +kernel) h⟩), by decide +kernel, by decide +kernel, reads_of (by decide +kernel), by decide +kernel, by decide +kernel⟩,
   ⟨by decide +kernel, by decide +kernel, by decide +kernel, by decide +kernel, by decide +kernel, by decide +kernel, by decide +kernel, by decide +kernel, by decide +kernel, by decide +kernel, by decide +kernel, by decide +kernel, .inr (.inl ⟨by decide +kernel, by decide +kernel, by decide +kernel, fun h => absurd h (by decide +kernel), fun _ => rfl⟩), by decide +kernel, by decide +kernel, ⟨rfl, by decide +kernel⟩, by decide +kernel, by decide +kernel⟩,
   ⟨by decide +kernel, by decide +kernel, by decide +kernel, by decide +kernel, by decide +kernel, by decide +kernel, by decide +kernel, by decide +kernel, by decide +kernel, by decide +kernel, by decide +kernel, by decide +kernel, .inr (.inr (.inl ⟨by decide +kernel, by decide +kernel, by decide +kernel, by decide +kernel, by decide +kernel⟩)), by decide +kernel, by decide +kernel, reads_of (by decide +kernel), by decide +kernel, by decide +kernel⟩,
   ⟨by decide +kernel, by decide +kernel, by decide +kernel, by decide +kernel, by decide +kernel, by decide +kernel, by decide +kernel, by decide +kernel, by decide +kernel, by decide +kernel, by decide +kernel, by decide +kernel, .inr (.inr (.inr (.inl ⟨by decide +kernel, by decide +kernel, by decide +kernel, by decide +kernel, fun _ => by decide +kernel, fun h => absurd (by decide +kernel) h⟩))), by decide +kernel, by decide +kernel, reads_of (by decide +kernel), by decide +kernel, by decide +kernel⟩,
   ⟨by decide +kernel, by decide +kernel, by decide +kernel, by decide +kernel, by decide +kernel, by decide +kernel, by decide +kernel, by decide +kernel, by decide +kernel, by decide +kernel, by decide +kernel, by decide +kernel, .inr (.inr (.inr (.inl ⟨by decide +kernel, by decide +kernel, by decide +kernel, by decide +kernel, fun h => absurd h (by decide +kernel), fun _ => rfl⟩))), by decide +kernel, by decide +kernel, ⟨rfl, by decide +kernel⟩, by decide +kernel, by decide +kernel⟩,
   ⟨by decide +kernel, by decide +kernel, by decide +kernel, by decide +kernel, by decide +kernel, by decide +kernel, by decide +kernel, by decide +kernel, by decide +kernel, by decide +kernel, by decide +kernel, by decide +kernel, .inr (.inr (.inr (.inr (.inl ⟨by decide +kernel, by decide +kernel, by decide +kernel, by decide +kernel, by decide +kernel, by decide +kernel⟩)))), by decide +kernel, by decide +kernel, reads_of (by decide +kernel), by decide +kernel, by decide +kernel⟩,
   ⟨by decide +kernel, by decide +kernel, by decide +kernel, by decide +kernel, by decide +kernel, by decide +kernel, by decide +kernel, by decide +kernel, by decide +kernel, by decide +kernel, by decide +kernel, by decide +kernel, .inr (.inr (.inr (.inr (.inr (⟨by decide +kernel, by decide +kernel, fun _ => by decide +kernel, fun h => absurd (by decide +kernel) h⟩))))), by decide +kernel, by decide +kernel, reads_of (by decide +kernel), by decide +kernel, by decide +kernel⟩,
   ⟨by decide +kernel, by decide +kernel, by decide +kernel, by decide +kernel, by decide +kernel, by decide +kernel, by decide +kernel, by decide +kernel, by decide +kernel, by decide +kernel, by decide +kernel, by decide +kernel, .inr (.inr (.inr (.inr (.inr (⟨by decide +kernel, by decide +kernel, fun h => absurd h (by decide +kernel), fun _ => rfl⟩))))), by decide +kernel, by decide +kernel, ⟨rfl, by decide +kernel⟩, by decide +kernel, by decide +kernel⟩⟩
end Sys2Proof.Tests.Copy

/-! Ordering. -/

namespace Sys2Proof.Tests.Order

open Sys2Proof.Machine

def w1 : Wide := wd 10 11 12 13

def putW (s : State) (a : Nat) (l : List Word) : State := (l.zipIdx).foldl (fun s (v, i) => wrWord s (a + 8 * i) v)
  s

def mm (l : Nat) : Machine.Member := { loc := .here, frame := 0x9000 + 1024 * l }

def te : Thread :=
  { th0 with x := [(11, 0x3000), (12, 0xFFFF_FFFF_8122_3344), (13, 0x77), (14, 0x0123), (15, 0x4567), (16, 1), (17, 2), (18, 3), (19, 4)] }

def sO : State := putW (onSimt te) 0x3000 [0xFFFF_FFFF_8122_3344, 0x99]

def rS (s : State) (n : Nat) (a : Acc) := (reach s 0 0x3000 n a false).2

def wf (n : Nat) : Wide := { w1 with fn := BitVec.ofNat 6 n }

def sO2 : State := putW sO 0x3000 [5]

def wq : Wide := { wd 20 11 16 18 with fn := 1 }

def sO3 : State := putW sO 0x3000 [1, 2]

def v1 := { wd 0 11 16 18 with fn := 1 }

def sMis : State := onSimt { te with x := [(11, 0x3001)] }

def sTl (x : Word) : State := onHart h1 { te with x := [(11, 0x3000), (12, x)] }

def sTn : State := { sTl 1 with parts := [(1, { p1 with cl := 0, lc0 := 0 })] }

def sh (ws : List Nat) : Shootdown :=
  { part := 1, key := hk, av := false, aa := false, va := 0x3000, asid := 1, waits := ws }

def sA (ws : List Nat) : State :=
  { sTl 1 with shoots := [sh ws], threads := [(hk, { te with wait := .tlbip, ww := w1 })], tlb := [tlb1, { tlb1 with cache := 0x1001 }, { tlb1 with vpn := 9, pages := 1 }] }

def wk (p : Nat) : Walk := { key := 0, part := 1, satp := satp1, va := 0x3000, write := false, phase := p }

def v2 := { base with walks := [wk 0] }

def sWk : State := { onSimt te with walks := [wk 1] }

def tsw (h : Option Nat) : Machine.Team :=
  { part := 1, asid := 1, num := 3, st := .resident, desc := { limit := 4, gw := 16, syncs := 2 }, count := 1, members := [(0, mm 0)], sweep := true, heldPhase := h, phase := 4, tags := [(1, { par := true, st := 1 }), (2, { par := false, st := 1 })], syncs := [(0, { kind := 2, tb := true, phase := 4 })], arr := [(0, true)] }

def v3 := { base with teams := [tsw none] }

def v4 := { base with teams := [tsw (some 0)] }

def sRo : State := { sO with tlb := [{ tlb1 with pte := 0xDB }] }

/-- States and operands that meet the premises of `Obligations.OrderedAccesses`, each of its cases in turn. -/
theorem test_premises_OrderedAccesses :
    ((sO.cur.keys.Nodup) ∧ (Instr.fences w1 ∈ [Instr.fences w1, Instr.fencesc w1])) ∧
    ((sO.cur.keys.Nodup) ∧ (Instr.fencesc w1 ∈ [Instr.fences w1, Instr.fencesc w1])) ∧
    ((sO.cur.keys = [0]) ∧ ((thr sO 0).helper = false) ∧ (BitVec.toNat (src (thr sO 0) (wf 2).s1) % 2 ^ ((wf
      2).fn.toNat % 4) = 0) ∧ (managed (1 : Word) = false ∨ isSimt 0 = false) ∧ (reach sO 0 (src (thr sO 0) (wf
      2).s1) (2 ^ ((wf 2).fn.toNat % 4)) Acc.load false = (Except.ok (Loc.mem 12288 (1 : Word)), rS sO 4 Acc.load))) ∧
    ((sO.cur.keys = [0]) ∧ ((thr sO 0).helper = false) ∧ (BitVec.toNat (src (thr sO 0) (wf 2).s1) % 2 ^ ((wf
      2).fn.toNat % 4) = 0) ∧ (managed (1 : Word) = false ∨ isSimt 0 = false) ∧ (reach sO 0 (src (thr sO 0) (wf
      2).s1) (2 ^ ((wf 2).fn.toNat % 4)) Acc.store false = (Except.ok (Loc.mem 12288 (1 : Word)), rS sO 4
      Acc.store)) ∧ (¬(2 ^ ((wf 2).fn.toNat % 4) = 4 ∧ 12288 % 4096 < 8 ∧ (12288 / 4096 : ℕ) ∈ (rS sO 4
      Acc.store).intPages))) ∧
    ((sO.cur.keys = [0]) ∧ ((thr sO 0).helper = false) ∧ ((BitVec.toNat (src (thr sO 0) (wf 16).s1) % if (wf
      16).fn.getLsbD 4 = true then 8 else 4) = 0) ∧ (managed (1 : Word) = false ∨ isSimt 0 = false) ∧ (reach sO 0
      (src (thr sO 0) (wf 16).s1) (if (wf 16).fn.getLsbD 4 = true then 8 else 4) Acc.store false = (Except.ok
      (Loc.mem 12288 (1 : Word)), rS sO 8 Acc.store))) ∧
    ((sO.cur.keys = [0]) ∧ ((thr sO 0).helper = false) ∧ ((BitVec.toNat (src (thr sO 0) (wf 1).s1) % if (wf
      1).fn.getLsbD 4 = true then 8 else 4) = 0) ∧ (managed (1 : Word) = false ∨ isSimt 0 = false) ∧ (reach sO 0
      (src (thr sO 0) (wf 1).s1) (if (wf 1).fn.getLsbD 4 = true then 8 else 4) Acc.store false = (Except.ok (Loc.mem
      12288 (1 : Word)), rS sO 4 Acc.store))) ∧
    ((sO.cur.keys = [0]) ∧ ((thr sO 0).helper = false) ∧ ((wf 0).fn ≠ 1) ∧ (BitVec.toNat (src (thr sO 0) (wf 0).s1)
      % 8 = 0) ∧ (managed (1 : Word) = false ∨ isSimt 0 = false) ∧ (reach sO 0 (src (thr sO 0) (wf 0).s1) 8
      Acc.store false = (Except.ok (Loc.mem 12288 (1 : Word)), rS sO 8 Acc.store))) ∧
    ((sO2.cur.keys = [0]) ∧ ((thr sO2 0).helper = false) ∧ ((wf 0).fn ≠ 1) ∧ (BitVec.toNat (src (thr sO2 0) (wf
      0).s1) % 8 = 0) ∧ (managed (1 : Word) = false ∨ isSimt 0 = false) ∧ (reach sO2 0 (src (thr sO2 0) (wf 0).s1) 8
      Acc.store false = (Except.ok (Loc.mem 12288 (1 : Word)), rS sO2 8 Acc.store))) ∧
    ((sO3.cur.keys = [0]) ∧ ((thr sO3 0).helper = false) ∧ (wq.fn = 1) ∧ (BitVec.toNat (src (thr sO3 0) wq.s1) % 16
      = 0) ∧ (managed (1 : Word) = false ∨ isSimt 0 = false) ∧ (reach sO3 0 (src (thr sO3 0) wq.s1) 16 Acc.store
      false = (Except.ok (Loc.mem 12288 (1 : Word)), rS sO3 16 Acc.store))) ∧
    ((sO.cur.keys = [0]) ∧ ((thr sO 0).helper = false) ∧ (wq.fn = 1) ∧ (BitVec.toNat (src (thr sO 0) wq.s1) % 16 =
      0) ∧ (managed (1 : Word) = false ∨ isSimt 0 = false) ∧ (reach sO 0 (src (thr sO 0) wq.s1) 16 Acc.store false =
      (Except.ok (Loc.mem 12288 (1 : Word)), rS sO 16 Acc.store))) ∧
    ((sO3.cur.keys = [0]) ∧ ((thr sO3 0).helper = false) ∧ (v1.fn = 1) ∧ (BitVec.toNat (src (thr sO3 0) v1.s1) % 16
      = 0) ∧ (managed (1 : Word) = false ∨ isSimt 0 = false) ∧ (reach sO3 0 (src (thr sO3 0) v1.s1) 16 Acc.store
      false = (Except.ok (Loc.mem 12288 (1 : Word)), rS sO3 16 Acc.store))) ∧
    ((sMis.cur.keys = [0]) ∧ ((thr sMis 0).helper = false) ∧ ((Instr.ldacq (wf 1), 2, Acc.load) ∈ [(Instr.ldacq (wf
      1), 2 ^ ((wf 1).fn.toNat % 4), Acc.load), (Instr.strel (wf 1), 2 ^ ((wf 1).fn.toNat % 4), Acc.store),
      (Instr.amos (wf 1), if (wf 1).fn.getLsbD 4 = true then 8 else 4, Acc.store), (Instr.casx (wf 1), if (wf 1).fn
      = 1 then 16 else 8, Acc.store)]) ∧ (BitVec.toNat (src (thr sMis 0) (wf 1).s1) % 2 ≠ 0)) ∧
    ((sMis.cur.keys = [0]) ∧ ((thr sMis 0).helper = false) ∧ ((Instr.casx (wf 1), 16, Acc.store) ∈ [(Instr.ldacq (wf
      1), 2 ^ ((wf 1).fn.toNat % 4), Acc.load), (Instr.strel (wf 1), 2 ^ ((wf 1).fn.toNat % 4), Acc.store),
      (Instr.amos (wf 1), if (wf 1).fn.getLsbD 4 = true then 8 else 4, Acc.store), (Instr.casx (wf 1), if (wf 1).fn
      = 1 then 16 else 8, Acc.store)]) ∧ (BitVec.toNat (src (thr sMis 0) (wf 1).s1) % 16 ≠ 0)) ∧
    ((sRo.cur.keys = [0]) ∧ ((thr sRo 0).helper = false) ∧ ((BitVec.toNat (src (thr sRo 0) (wf 0).s1) % if (wf 0).fn
      = 1 then 16 else 8) = 0) ∧ (xlatWaits sRo (ctxOf sRo 0 Acc.store) (src (thr sRo 0) (wf 0).s1) Acc.store =
      false) ∧ (Machine.translate sRo (ctxOf sRo 0 Acc.store) (src (thr sRo 0) (wf 0).s1) Acc.store = (Except.error
      10, (Machine.translate sRo (ctxOf sRo 0 Acc.store) (12288 : Word) Acc.store).2))) ∧
    ((sRo.cur.keys = [0]) ∧ ((thr sRo 0).helper = false) ∧ ((BitVec.toNat (src (thr sRo 0) wq.s1) % if wq.fn = 1
      then 16 else 8) = 0) ∧ (xlatWaits sRo (ctxOf sRo 0 Acc.store) (src (thr sRo 0) wq.s1) Acc.store = false) ∧
      (Machine.translate sRo (ctxOf sRo 0 Acc.store) (src (thr sRo 0) wq.s1) Acc.store = (Except.error 10,
      (Machine.translate sRo (ctxOf sRo 0 Acc.store) (12288 : Word) Acc.store).2))) :=
  ⟨by decide +kernel,
   by decide +kernel,
   by decide +kernel,
   by decide +kernel,
   by decide +kernel,
   by decide +kernel,
   by decide +kernel,
   by decide +kernel,
   by decide +kernel,
   by decide +kernel,
   by decide +kernel,
   by decide +kernel,
   by decide +kernel,
   by decide +kernel,
   by decide +kernel⟩

/-- States and operands that meet the premises of `Obligations.TranslationCaches`, each of its cases in turn. -/
theorem test_premises_TranslationCaches :
    (((sTl (65536 : Word)).cur.keys = [hk]) ∧ (isHart hk = true) ∧ (w1.imm11.getLsbD 1 = false ∧ bits (src (thr (sTl
      (65536 : Word)) hk) w1.s2) 63 16 ≠ 0)) ∧
    ((sTn.cur.keys = [hk]) ∧ (isHart hk = true) ∧ (¬(w1.imm11.getLsbD 1 = false ∧ bits (src (thr sTn hk) w1.s2) 63
      16 ≠ 0)) ∧ (shootAgents sTn (partOf sTn hk) = [])) ∧
    (((sTl (1 : Word)).cur.keys = [hk]) ∧ (isHart hk = true) ∧ (¬(w1.imm11.getLsbD 1 = false ∧ bits (src (thr (sTl
      (1 : Word)) hk) w1.s2) 63 16 ≠ 0)) ∧ (shootAgents (sTl (1 : Word)) (partOf (sTl (1 : Word)) hk) ≠ [])) ∧
    (((sA [0]).shoots = [sh [0]]) ∧ ((sh [0]).part = 1) ∧ (0 ∈ (sh [0]).waits) ∧ (shootReady (sA [0]) (sh [0]) 0 =
      true)) ∧
    (((sA [0, 1]).shoots = [sh [0, 1]]) ∧ ((sh [0, 1]).part = 1) ∧ (0 ∈ (sh [0, 1]).waits) ∧ (shootReady (sA [0, 1])
      (sh [0, 1]) 0 = true)) ∧
    ((v2.walks = [wk 0]) ∧ (dieOf (wk 0).key = 0) ∧ ((wk 0).phase = 0)) ∧
    ((sWk.walks = [wk 1]) ∧ (dieOf (wk 1).key = 0) ∧ ((wk 1).phase = 1) ∧ (isSimt (wk 1).key = true) ∧ (bits (ctxOf
      sWk (wk 1).key (if (wk 1).write = true then Acc.store else Acc.load)).satp 63 60 = 10) ∧ (walkWaits sWk (ctxOf
      sWk (wk 1).key (if (wk 1).write = true then Acc.store else Acc.load)) (wk 1).va (if (wk 1).write = true then
      Acc.store else Acc.load) = false) ∧ (Machine.translate sWk (ctxOf sWk (wk 1).key (if (wk 1).write = true then
      Acc.store else Acc.load)) (wk 1).va (if (wk 1).write = true then Acc.store else Acc.load) = (Except.ok (12288,
      (1 : Word)), (Machine.translate sWk (ctxOf sWk 0 Acc.load) (12288 : Word) Acc.load).2))) ∧
    ((team? v3 1 1 3 = some (tsw none)) ∧ ((tsw none).sweep = true) ∧ ((tsw none).heldPhase = none)) ∧
    ((team? v4 1 1 3 = some (tsw (some 0))) ∧ ((tsw (some 0)).sweep = true) ∧ ((tsw (some 0)).heldPhase = some 0) ∧
      ((syncOf (tsw (some 0)) 0).kind = 2) ∧ ((syncOf (tsw (some 0)) 0).tb = true) ∧ (phaseDone (tsw (some 0))
      (syncOf (tsw (some 0)) 0) = true) ∧ ((syncOf (tsw (some 0)) 0).pend = (0 : ℤ))) :=
  ⟨by decide +kernel,
   by decide +kernel,
   by decide +kernel,
   by decide +kernel,
   by decide +kernel,
   by decide +kernel,
   by decide +kernel,
   by decide +kernel,
   by decide +kernel⟩
end Sys2Proof.Tests.Order

/-! Row operations. -/

namespace Sys2Proof.Tests.Row

open Sys2Proof.Machine

def w1 : Wide := wd 10 11 12 13

def putW (s : State) (a : Nat) (l : List Word) : State := (l.zipIdx).foldl (fun s (v, i) => wrWord s (a + 8 * i) v)
  s

def mm (l : Nat) : Machine.Member := { loc := .here, frame := 0x9000 + 1024 * l }

def tm (k : Nat) : Machine.Team :=
  { part := 1, asid := 1, num := 3, st := .resident, serial := 5, desc := { limit := 4, gw := 16, syncs := 2, tiles := 4, accs := 3, scrpg := 1, frames := 0x9000 }, count := 2, members := [(0, mm 0), (1, mm 1)], syncs := [(0, { kind := k, value := 4 })], copySeq := 0xFFFF_FFFF }

def te (a b c : Word) : Thread := { th0 with x := [(11, a), (12, b), (13, c)] }

def rowBase (t : Thread) : State :=
  { onSimt t with granules := [(0, 0x8000_0000_0002_8000)], tlb := [{ tlb1 with pat := 0x41 }], teams := [tm 1] }

def wn : Wide := { w1 with imm11 := 64 }

def sR : State := rowBase (te 0x20001 0x30000 0x40000)

def sR8 : State := rowBase (te 0x20201 0x30000 0x40000)

def dpOf (s : State) (d : Word) (n : Nat) := match (rowPages s 0 .store (pageVas d n)).1 with | .ok l => l | _ => []

def s1Of (s : State) (d : Word) (n : Nat) := (rowPages s 0 .store (pageVas d n)).2

def spOf (s : State) (n : Nat) (l : List Word) := match (rowSrcPages s 0 n l).1 with | .ok l => l | _ => []

def s2Of (s : State) (n : Nat) (l : List Word) := (rowSrcPages s 0 n l).2

def sR5 : State := { sR with tlb := [tlb1], granules := base.granules }

def sR4 : State := rowBase (te 0x20001 0x21000 0x40000)

def sRl : State :=
  { sR with cores := [(0, { rlocks := [{ asid := 1, part := 1, write := true, lo := 0x21000, hi := 0x21010, copy := 3, own := true }] })] }

def noSrc : List (List (Nat × Word)) := []

def wb : Wide := { wn with fn := 4 }

def v1 := spOf sR 2 [0x30000, 0x40000]

def v2 := s2Of sR 2 [0x30000, 0x40000]

def sRt : State := { sR with threads := [(0, { te 0x20001 0x30000 0x40000 with team := 3, gangw := 16 })] }

def noPa : Option Nat := none

def ro (id : Nat) (dst : Nat) : RowOp :=
  { id := id, part := 1, asid := 1, team := 3, serial := 5, saves := 0, key := 0, tid := 7, pc := 0x400, maj := 0x78, fn := 0, va := w64 dst, dst := [dst], homes := [0], srcA := [0x30000], srcB := [], pattern := 0, entry := 0, nosync := false, path := 0, active := false, next := 0 }

def sS : State := { sR with rowOps := [ro 1 0x20000, ro 2 0x20000] }

def ra : RowOp := { ro 1 0x20000 with active := true }

def sDn : State := { putW sR 0x30008 [0x1122] with rowOps := [ra, ro 2 0x20000] }

def rb : RowOp :=
  { ro 1 0x20000 with active := true, key := hk, nosync := true, path := 2, team := 0, maj := 0x7A, fn := 4, srcB := [0x40000] }

def sDh : State :=
  { putW (putW (putW sR 0x30008 [0x11F2]) 0x40008 [0xFF0F]) 0x20008 [0x8421] with rowOps := [rb], threads := [(hk, { te 0 0 0 with wait := .rowOp 1, ww := w1 })] }

def sFullRow : State := { sR with rowOps := List.replicate 16 (ro 1 0x20000) }

/-- A hart of the same context, which issues a row operation without an entry. -/
def sRh : State :=
  { onHart { h1 with satp := satp1, mode := .user } (te 0x20001 0x30000 0x40000) with
    granules := sR.granules, tlb := [{ tlb1 with cache := 0x1001, pat := 0x41 }] }

def sPz : State := { sDn with poison := [0x30000 / 64 + 3] }

def v3 := { base with actThresh := 300, rowCnt := [(5, 255)] }

def v4 := { base with actThresh := 0, rowCnt := [(5, 255)] }

def v5 := { base with actThresh := 5000, rowCnt := [(5, 4094)] }

def v6 := { base with actThresh := 5000, rowCnt := [(5, 4094)], rowDue := [5] }

def gS (s : State) (k : Nat) (w : Wide) (m : Nat) : State := match rowOperands s k w m with | some (t, _, _) => t | none => {}

def gD (s : State) (k : Nat) (w : Wide) (m : Nat) : List Nat := match rowOperands s k w m with | some (_, d, _) => d | none => []

def gP (s : State) (k : Nat) (w : Wide) (m : Nat) : List (List Nat) := match rowOperands s k w m with | some (_, _, p) => p | none => []

def sRx : State :=
  { rowBase (te 0x20001 0x40000000 0x40000) with tlb := [{ tlb1 with pat := 0x41, pages := 0x80000 }] }

/-- States and operands that meet the premises of `Obligations.RowIssue`, each of its cases in turn. -/
theorem test_premises_RowIssue :
    ((sR.cur.keys = [0]) ∧ (isCob 0 = false) ∧ ((thr sR 0).helper = false) ∧ ((Instr.rcpy w1, 120) ∈ [(Instr.rcpy
      w1, 120), (Instr.rfil w1, 121), (Instr.rbop w1, 122)]) ∧ (w1.imm11.getLsbD 6 = false) ∧ (rowEntry sR 0
      (w1.imm11.toNat % 64) ≠ 0)) ∧
    ((sR8.cur.keys = [0]) ∧ (isCob 0 = false) ∧ ((thr sR8 0).helper = false) ∧ ((Instr.rcpy wn, 120) ∈ [(Instr.rcpy
      wn, 120), (Instr.rfil wn, 121), (Instr.rbop wn, 122)]) ∧ (wn.imm11.getLsbD 6 = true ∨ rowEntry sR8 0
      (wn.imm11.toNat % 64) = 0) ∧ (bits (src (thr sR8 0) wn.s1) 11 9 ≠ 0)) ∧
    ((sR5.cur.keys = [0]) ∧ (isCob 0 = false) ∧ ((thr sR5 0).helper = false) ∧ ((Instr.rcpy wn, 120) ∈ [(Instr.rcpy
      wn, 120), (Instr.rfil wn, 121), (Instr.rbop wn, 122)]) ∧ (wn.imm11.getLsbD 6 = true ∨ rowEntry sR5 0
      (wn.imm11.toNat % 64) = 0) ∧ (bits (src (thr sR5 0) wn.s1) 11 9 = 0) ∧ (∀ a ∈ rowSources 120 wn.fn.toNat (src
      (thr sR5 0) wn.s2) (src (thr sR5 0) wn.s3), bits a 11 0 = 0) ∧ (rowPages sR5 0 Acc.store (pageVas (w64 (bits
      (src (thr sR5 0) wn.s1) 63 12 * 4096)) (bits (src (thr sR5 0) wn.s1) 8 0 + 1)) = (Except.ok (dpOf sR5 (131072
      : Word) 2), s1Of sR5 (131072 : Word) 2)) ∧ (rowSrcPages (s1Of sR5 (131072 : Word) 2) 0 (bits (src (thr sR5 0)
      wn.s1) 8 0 + 1) (rowSources 120 wn.fn.toNat (src (thr sR5 0) wn.s2) (src (thr sR5 0) wn.s3)) = (Except.ok
      (spOf sR5 2 [(196608 : Word)]), s2Of sR5 2 [(196608 : Word)])) ∧ (∃ l ∈ dpOf sR5 (131072 : Word) 2 :: spOf sR5
      2 [(196608 : Word)], ∃ x ∈ l, rowPage (s2Of sR5 2 [(196608 : Word)]) x.1 x.2 = false ∧ rowShut (s2Of sR5 2
      [(196608 : Word)]) 0 x.1 x.2 = false)) ∧
    ((sR4.cur.keys = [0]) ∧ (isCob 0 = false) ∧ ((thr sR4 0).helper = false) ∧ ((Instr.rcpy wn, 120) ∈ [(Instr.rcpy
      wn, 120), (Instr.rfil wn, 121), (Instr.rbop wn, 122)]) ∧ (wn.imm11.getLsbD 6 = true ∨ rowEntry sR4 0
      (wn.imm11.toNat % 64) = 0) ∧ (bits (src (thr sR4 0) wn.s1) 11 9 = 0) ∧ (∀ a ∈ rowSources 120 wn.fn.toNat (src
      (thr sR4 0) wn.s2) (src (thr sR4 0) wn.s3), bits a 11 0 = 0) ∧ (rowPages sR4 0 Acc.store (pageVas (w64 (bits
      (src (thr sR4 0) wn.s1) 63 12 * 4096)) (bits (src (thr sR4 0) wn.s1) 8 0 + 1)) = (Except.ok (dpOf sR4 (131072
      : Word) 2), s1Of sR4 (131072 : Word) 2)) ∧ (rowSrcPages (s1Of sR4 (131072 : Word) 2) 0 (bits (src (thr sR4 0)
      wn.s1) 8 0 + 1) (rowSources 120 wn.fn.toNat (src (thr sR4 0) wn.s2) (src (thr sR4 0) wn.s3)) = (Except.ok
      (spOf sR4 2 [(135168 : Word)]), s2Of sR4 2 [(135168 : Word)])) ∧ (∀ l ∈ dpOf sR4 (131072 : Word) 2 :: spOf sR4
      2 [(135168 : Word)], ∀ x ∈ l, rowPage (s2Of sR4 2 [(135168 : Word)]) x.1 x.2 = true ∨ rowShut (s2Of sR4 2
      [(135168 : Word)]) 0 x.1 x.2 = true) ∧ (rowClash (List.map (fun x => x.1) (dpOf sR4 (131072 : Word) 2))
      (List.map (fun l => List.map (fun x => x.1) l) (spOf sR4 2 [(135168 : Word)])) = true)) ∧
    ((sRl.cur.keys = [0]) ∧ (isCob 0 = false) ∧ ((thr sRl 0).helper = false) ∧ ((Instr.rcpy wn, 120) ∈ [(Instr.rcpy
      wn, 120), (Instr.rfil wn, 121), (Instr.rbop wn, 122)]) ∧ (wn.imm11.getLsbD 6 = true ∨ rowEntry sRl 0
      (wn.imm11.toNat % 64) = 0) ∧ (bits (src (thr sRl 0) wn.s1) 11 9 = 0) ∧ (∀ a ∈ rowSources 120 wn.fn.toNat (src
      (thr sRl 0) wn.s2) (src (thr sRl 0) wn.s3), bits a 11 0 = 0) ∧ (rowPages sRl 0 Acc.store (pageVas (w64 (bits
      (src (thr sRl 0) wn.s1) 63 12 * 4096)) (bits (src (thr sRl 0) wn.s1) 8 0 + 1)) = (Except.ok (dpOf sRl (131072
      : Word) 2), s1Of sRl (131072 : Word) 2)) ∧ (rowSrcPages (s1Of sRl (131072 : Word) 2) 0 (bits (src (thr sRl 0)
      wn.s1) 8 0 + 1) (rowSources 120 wn.fn.toNat (src (thr sRl 0) wn.s2) (src (thr sRl 0) wn.s3)) = (Except.ok
      (spOf sRl 2 [(196608 : Word)]), s2Of sRl 2 [(196608 : Word)])) ∧ (∀ l ∈ dpOf sRl (131072 : Word) 2 :: spOf sRl
      2 [(196608 : Word)], ∀ x ∈ l, rowPage (s2Of sRl 2 [(196608 : Word)]) x.1 x.2 = true ∨ rowShut (s2Of sRl 2
      [(196608 : Word)]) 0 x.1 x.2 = true) ∧ (rowClash (List.map (fun x => x.1) (dpOf sRl (131072 : Word) 2))
      (List.map (fun l => List.map (fun x => x.1) l) (spOf sRl 2 [(196608 : Word)])) = false) ∧ (rowLocked (s2Of sRl
      2 [(196608 : Word)]) 0 (bits (src (thr sRl 0) wn.s1) 8 0 + 1) (w64 (bits (src (thr sRl 0) wn.s1) 63 12 *
      4096)) (rowSources 120 wn.fn.toNat (src (thr sRl 0) wn.s2) (src (thr sRl 0) wn.s3)) = some ((135168 : Word),
      Acc.store))) ∧
    ((sR.cur.keys = [0]) ∧ (isCob 0 = false) ∧ ((thr sR 0).helper = false) ∧ (rqOperands sR 0 w1 = some ((rqLook
      (rqLook sR 0 (131073 : Word)).2 0 (196608 : Word)).2, some 131073, some 196608))) ∧
    (((rowBase (te (131072 : Word) (0 : Word) (0 : Word))).cur.keys = [0]) ∧ (isCob 0 = false) ∧ ((thr (rowBase (te
      (131072 : Word) (0 : Word) (0 : Word))) 0).helper = false) ∧ (rqOperands (rowBase (te (131072 : Word) (0 :
      Word) (0 : Word))) 0 w1 = some ((rqLook (rowBase (te (131072 : Word) (0 : Word) (0 : Word))) 0 (131072 :
      Word)).2, some 131072, some 131072))) ∧
    ((sR5.cur.keys = [0]) ∧ (isCob 0 = false) ∧ ((thr sR5 0).helper = false) ∧ (rqOperands sR5 0 w1 = some ((rqLook
      (rqLook sR5 0 (131073 : Word)).2 0 (196608 : Word)).2, noPa, noPa))) ∧
    ((sR.cur.keys = [0]) ∧ (isCob 0 = false) ∧ ((thr sR 0).helper = false) ∧ (rowOperands sR 0 wn 120 = some (gS sR
      0 wn 120, gD sR 0 wn 120, gP sR 0 wn 120))) ∧
    ((sR.cur.keys = [0]) ∧ (isCob 0 = false) ∧ ((thr sR 0).helper = false) ∧ (rowOperands sR 0 wn 121 = some (gS sR
      0 wn 121, gD sR 0 wn 121, gP sR 0 wn 121))) ∧
    ((sR.cur.keys = [0]) ∧ (isCob 0 = false) ∧ ((thr sR 0).helper = false) ∧ (rowOperands sR 0 wb 122 = some (gS sR
      0 wb 122, gD sR 0 wb 122, gP sR 0 wb 122))) ∧
    ((sRt.cur.keys = [0]) ∧ (isCob 0 = false) ∧ ((thr sRt 0).helper = false) ∧ (rowOperands sRt 0 w1 120 = some (gS
      sRt 0 w1 120, gD sRt 0 w1 120, gP sRt 0 w1 120))) ∧
    ((sRh.cur.keys = [hk]) ∧ (isCob hk = false) ∧ ((thr sRh hk).helper = false) ∧ (rowOperands sRh hk wn 120 = some
      (gS sRh hk wn 120, gD sRh hk wn 120, gP sRh hk wn 120))) ∧
    ((sRx.cur.keys = [0]) ∧ (isCob 0 = false) ∧ ((thr sRx 0).helper = false) ∧ ((Instr.rcpy wn, 120) ∈ [(Instr.rcpy
      wn, 120), (Instr.rfil wn, 121), (Instr.rbop wn, 122)]) ∧ (wn.imm11.getLsbD 6 = true ∨ rowEntry sRx 0
      (wn.imm11.toNat % 64) = 0) ∧ (bits (src (thr sRx 0) wn.s1) 11 9 = 0) ∧ (∀ a ∈ rowSources 120 wn.fn.toNat (src
      (thr sRx 0) wn.s2) (src (thr sRx 0) wn.s3), bits a 11 0 = 0) ∧ (rowPages sRx 0 Acc.store (pageVas (w64 (bits
      (src (thr sRx 0) wn.s1) 63 12 * 4096)) (bits (src (thr sRx 0) wn.s1) 8 0 + 1)) = (Except.ok (dpOf sRx (131072
      : Word) 2), s1Of sRx (131072 : Word) 2)) ∧ (rowSrcPages (s1Of sRx (131072 : Word) 2) 0 (bits (src (thr sRx 0)
      wn.s1) 8 0 + 1) (rowSources 120 wn.fn.toNat (src (thr sRx 0) wn.s2) (src (thr sRx 0) wn.s3)) = (Except.ok
      (spOf sRx 2 [(1073741824 : Word)]), s2Of sRx 2 [(1073741824 : Word)])) ∧ (∀ l ∈ dpOf sRx (131072 : Word) 2 ::
      spOf sRx 2 [(1073741824 : Word)], ∀ x ∈ l, rowPage (s2Of sRx 2 [(1073741824 : Word)]) x.1 x.2 = true ∨ rowShut
      (s2Of sRx 2 [(1073741824 : Word)]) 0 x.1 x.2 = true) ∧ (rowClash (List.map (fun x => x.1) (dpOf sRx (131072 :
      Word) 2)) (List.map (fun l => List.map (fun x => x.1) l) (spOf sRx 2 [(1073741824 : Word)])) = false) ∧
      (rowLocked (s2Of sRx 2 [(1073741824 : Word)]) 0 (bits (src (thr sRx 0) wn.s1) 8 0 + 1) (w64 (bits (src (thr
      sRx 0) wn.s1) 63 12 * 4096)) (rowSources 120 wn.fn.toNat (src (thr sRx 0) wn.s2) (src (thr sRx 0) wn.s3)) =
      none) ∧ (rowRefused (s2Of sRx 2 [(1073741824 : Word)]) 0 (bits (src (thr sRx 0) wn.s1) 8 0 + 1) (w64 (bits
      (src (thr sRx 0) wn.s1) 63 12 * 4096)) (rowSources 120 wn.fn.toNat (src (thr sRx 0) wn.s2) (src (thr sRx 0)
      wn.s3)) (dpOf sRx (131072 : Word) 2) (spOf sRx 2 [(1073741824 : Word)]) = some ((1073741824 : Word),
      Acc.load))) ∧
    ((sFullRow.cur.keys = [0]) ∧ (isCob 0 = false) ∧ ((thr sFullRow 0).helper = false) ∧ ((Instr.rcpy wn, 120) ∈
      [(Instr.rcpy wn, 120), (Instr.rfil wn, 121), (Instr.rbop wn, 122)]) ∧ (wn.imm11.getLsbD 6 = true ∨ rowEntry
      sFullRow 0 (wn.imm11.toNat % 64) = 0) ∧ (bits (src (thr sFullRow 0) wn.s1) 11 9 = 0) ∧ (∀ a ∈ rowSources 120
      wn.fn.toNat (src (thr sFullRow 0) wn.s2) (src (thr sFullRow 0) wn.s3), bits a 11 0 = 0) ∧ (rowPages sFullRow 0
      Acc.store (pageVas (w64 (bits (src (thr sFullRow 0) wn.s1) 63 12 * 4096)) (bits (src (thr sFullRow 0) wn.s1) 8
      0 + 1)) = (Except.ok (dpOf sFullRow (131072 : Word) 2), s1Of sFullRow (131072 : Word) 2)) ∧ (rowSrcPages (s1Of
      sFullRow (131072 : Word) 2) 0 (bits (src (thr sFullRow 0) wn.s1) 8 0 + 1) (rowSources 120 wn.fn.toNat (src
      (thr sFullRow 0) wn.s2) (src (thr sFullRow 0) wn.s3)) = (Except.ok (spOf sFullRow 2 [(196608 : Word)]), s2Of
      sFullRow 2 [(196608 : Word)])) ∧ (∀ l ∈ dpOf sFullRow (131072 : Word) 2 :: spOf sFullRow 2 [(196608 : Word)],
      ∀ x ∈ l, rowPage (s2Of sFullRow 2 [(196608 : Word)]) x.1 x.2 = true ∨ rowShut (s2Of sFullRow 2 [(196608 :
      Word)]) 0 x.1 x.2 = true) ∧ (rowClash (List.map (fun x => x.1) (dpOf sFullRow (131072 : Word) 2)) (List.map
      (fun l => List.map (fun x => x.1) l) (spOf sFullRow 2 [(196608 : Word)])) = false) ∧ (rowLocked (s2Of sFullRow
      2 [(196608 : Word)]) 0 (bits (src (thr sFullRow 0) wn.s1) 8 0 + 1) (w64 (bits (src (thr sFullRow 0) wn.s1) 63
      12 * 4096)) (rowSources 120 wn.fn.toNat (src (thr sFullRow 0) wn.s2) (src (thr sFullRow 0) wn.s3)) = none) ∧
      (rowRefused (s2Of sFullRow 2 [(196608 : Word)]) 0 (bits (src (thr sFullRow 0) wn.s1) 8 0 + 1) (w64 (bits (src
      (thr sFullRow 0) wn.s1) 63 12 * 4096)) (rowSources 120 wn.fn.toNat (src (thr sFullRow 0) wn.s2) (src (thr
      sFullRow 0) wn.s3)) (dpOf sFullRow (131072 : Word) 2) (spOf sFullRow 2 [(196608 : Word)]) = none) ∧ (rowsHeld
      (s2Of sFullRow 2 [(196608 : Word)]) 0 ≥ if isSimt 0 = true then 16 else 4) ∧ (isSimt 0 = true)) :=
  ⟨by decide +kernel,
   by decide +kernel,
   ⟨by decide +kernel, by decide +kernel, by decide +kernel, by decide +kernel, by decide +kernel, by decide +kernel, all_mem (by decide +kernel), by decide +kernel, by decide +kernel, by decide +kernel⟩,
   ⟨by decide +kernel, by decide +kernel, by decide +kernel, by decide +kernel, by decide +kernel, by decide +kernel, all_mem (by decide +kernel), by decide +kernel, by decide +kernel, by decide +kernel, by decide +kernel⟩,
   ⟨by decide +kernel, by decide +kernel, by decide +kernel, by decide +kernel, by decide +kernel, by decide +kernel, all_mem (by decide +kernel), by decide +kernel, by decide +kernel, by decide +kernel, by decide +kernel, by decide +kernel⟩,
   by decide +kernel,
   by decide +kernel,
   by decide +kernel,
   by decide +kernel,
   by decide +kernel,
   by decide +kernel,
   by decide +kernel,
   by decide +kernel,
   ⟨by decide +kernel, by decide +kernel, by decide +kernel, by decide +kernel, by decide +kernel, by decide +kernel, all_mem (by decide +kernel), by decide +kernel, by decide +kernel, by decide +kernel, by decide +kernel, by decide +kernel, by decide +kernel⟩,
   ⟨by decide +kernel, by decide +kernel, by decide +kernel, by decide +kernel, by decide +kernel, by decide +kernel, all_mem (by decide +kernel), by decide +kernel, by decide +kernel, by decide +kernel, by decide +kernel, by decide +kernel, by decide +kernel, by decide +kernel, by decide +kernel⟩⟩

/-- States and operands that meet the premises of `Obligations.RowSteps`, each of its cases in turn. -/
theorem test_premises_RowSteps :
    ((sS.rowOps[0]? = some (ro 1 131072)) ∧ ((ro 1 131072).active = false) ∧ (∀ x ∈ List.take 0 sS.rowOps,
      rowsConflict x (ro 1 131072) = false)) ∧
    ((sS.rowOps[1]? = some (ro 2 131072)) ∧ ((ro 2 131072).active = false) ∧ (∃ x ∈ List.take 1 sS.rowOps,
      rowsConflict x (ro 2 131072) = true)) ∧
    ((sPz.rowOps[0]? = some ra) ∧ (ra.active = true) ∧ (0 < ra.dst.length) ∧ (∀ n ∈ ra.rest, (n / 64 ≤ 0 → rowHeld
      sPz ra n = false) ∧ (n / 64 < 0 → rowPoison sPz ra n = false)) ∧ (∃ n ∈ ra.rest, n / 64 = 0 ∧ rowPoison sPz ra
      n = true)) ∧
    (mget 0 v3.rowCnt 5 + 1 < min 4095 (max 256 v3.actThresh)) ∧
    ((max 256 v4.actThresh ≤ mget 0 v4.rowCnt 5 + 1) ∧ (mget 0 v4.rowCnt 5 + 1 < 4095)) ∧
    (4095 ≤ mget 0 v5.rowCnt 5 + 1) ∧
    ((mkeys sDn.threads = true) ∧ (sDn.rowOps[0]? = some ra) ∧ (ra.active = true) ∧ (ra.next = 0) ∧ (∀ (m : Team),
      team? sDn ra.part ra.asid ra.team = some m → m.st = TeamState.resident) ∧ (ra.maj = 120 ∨ ra.maj = 121 ∨
      ra.maj = 122) ∧ (ra.fn < 6) ∧ (∀ n ∈ ra.rest, rowHeld sDn ra n = false ∧ rowPoison sDn ra n = false) ∧ (∀ x ∈
      sDn.l1, ∀ p ∈ ra.dst ++ ra.srcA ++ ra.srcB, x.line / 64 ≠ p / 4096) ∧ (ra.dst.Nodup) ∧ (∀ p ∈ ra.dst ++
      ra.srcA ++ ra.srcB, p % 4096 = 0) ∧ (ra.maj ≠ 121 → ra.srcA.length = ra.dst.length) ∧ (ra.maj = 122 → ra.fn ≠
      3 → ra.srcB.length = ra.dst.length) ∧ (∀ (x y : ℕ), x < ra.dst.length → y < ra.dst.length → ra.srcA[x]? =
      ra.dst[y]? ∨ ra.srcB[x]? = ra.dst[y]? → x = y)) ∧
    ((mkeys sDh.threads = true) ∧ (sDh.rowOps[0]? = some rb) ∧ (rb.active = true) ∧ (rb.next = 0) ∧ (∀ (m : Team),
      team? sDh rb.part rb.asid rb.team = some m → m.st = TeamState.resident) ∧ (rb.maj = 120 ∨ rb.maj = 121 ∨
      rb.maj = 122) ∧ (rb.fn < 6) ∧ (∀ n ∈ rb.rest, rowHeld sDh rb n = false ∧ rowPoison sDh rb n = false) ∧ (∀ x ∈
      sDh.l1, ∀ p ∈ rb.dst ++ rb.srcA ++ rb.srcB, x.line / 64 ≠ p / 4096) ∧ (rb.dst.Nodup) ∧ (∀ p ∈ rb.dst ++
      rb.srcA ++ rb.srcB, p % 4096 = 0) ∧ (rb.maj ≠ 121 → rb.srcA.length = rb.dst.length) ∧ (rb.maj = 122 → rb.fn ≠
      3 → rb.srcB.length = rb.dst.length) ∧ (∀ (x y : ℕ), x < rb.dst.length → y < rb.dst.length → rb.srcA[x]? =
      rb.dst[y]? ∨ rb.srcB[x]? = rb.dst[y]? → x = y)) :=
  ⟨by decide +kernel,
   by decide +kernel,
   by decide +kernel,
   by decide +kernel,
   by decide +kernel,
   by decide +kernel,
   ⟨by decide +kernel, by decide +kernel, by decide +kernel, by decide +kernel, by decide +kernel, by decide +kernel, by decide +kernel, by decide +kernel, by decide +kernel, by decide +kernel, by decide +kernel, by decide +kernel, by decide +kernel, fun _ _ hx hy _ => (Nat.lt_one_iff.1 hx).trans (Nat.lt_one_iff.1 hy).symm⟩,
   ⟨by decide +kernel, by decide +kernel, by decide +kernel, by decide +kernel, by decide +kernel, by decide +kernel, by decide +kernel, by decide +kernel, by decide +kernel, by decide +kernel, by decide +kernel, by decide +kernel, by decide +kernel, fun _ _ hx hy _ => (Nat.lt_one_iff.1 hx).trans (Nat.lt_one_iff.1 hy).symm⟩⟩
end Sys2Proof.Tests.Row

/-! Laces. -/

namespace Sys2Proof.Tests.Lace

open Sys2Proof.Machine

def w1 : Wide := wd 10 11 12 13

def putW (s : State) (a : Nat) (l : List Word) : State := (l.zipIdx).foldl (fun s (v, i) => wrWord s (a + 8 * i) v)
  s

def te (a b c : Word) : Thread := { th0 with x := [(11, a), (12, b), (13, c)] }

def ey (st : Nat) : Eyelet :=
  { st := st, lace := 2, part := 1, satp := satp1, win := 0x10000, wsize := 12, pages := [0x10000], applied := 9 }

def sL (a b c : Word) (st : Nat) : State :=
  { putW (onSimt (te a b c)) 0x3000 [0x1234, 0x5678] with eyelets := [(5, ey st)], laces := [(2, { open_ := true, next := 10 })] }

def hd : Word := 0x0005_0002

def sLs : State := sL (hd + 0x1_0000_0000) 0x40 0x3000 2

def v1 := sL 0x0006_0002 0x40 0x3000 2

def lo (k : Nat) (st : List Byte) : LacedOp :=
  { id := 3, lace := 2, key := 0, tid := 7, part := 1, asid := 1, team := 0, serial := 0, kind := k, off := 0x40, data := st, eye := 5 }

def sLf : State := { sL hd 10 0x3000 2 with laced := [lo 0 [1, 2, 3, 4, 5, 6, 7, 8]] }

def sJ (l : List Word) : State :=
  { putW (onHart h1 (te 0x3000 0 0)) 0x3000 l with tlb := [{ tlb1 with cache := 0x1001 }] }

def v2 := onHart h1 (te 0x3001 0 0)

def jr (e nx : Word) : List Word := [2 ^ 63 + e * 65536 + 2, satp1, 0x10000 + 12, nx]

def jx : Ctx := { part := 1, satp := satp1, user := true, cache := 0x1001, adue := false }

def jw := windowPages (sJ (jr 5 0)) jx [0x10000]

def v3 := sJ (jr 5 0xFFFF_FFFF_FFFF)

def sLv : State :=
  { onHart h1 (te hd 0 0) with eyelets := [(5, ey 2)], laces := [(2, { open_ := true, next := 10 })] }

def v4 := lo 0 [1, 2, 3, 4, 5, 6, 7, 8]

def v5 := { sLf with laces := [] }

def d8 : List Byte := [1, 2, 3, 4, 5, 6, 7, 8]

def sEy (n k : Nat) : State :=
  { putW (sL hd 10 0 2) 0x10040 [0xFFFF_FFFF_FFFF_FFFF] with laces := [(2, { open_ := true, next := 10, history := [(n, lo k d8)] })], threads := [(0, { te 0 0 0 with wait := .lamo 5 3, ww := w1 }), (16, { te 0 0 0 with st := .blocked, wait := .lace 5 10 0, ww := w1 })] }

def sGp (us : Nat) : State := { base with us := us, eyelets := [(5, { ey 2 with gapUs := some 4, asked := 1 })] }

def v6 := { sEy 9 2 with poison := [0x400] }

def sSw : State :=
  { base with eyelets := [(5, { ey 2 with lace := 0x4002 }), (6, { ey 2 with lace := 0x4002 })], laces := [(0x4002, { open_ := true })] }

def sSwOp : State := { sSw with laced := [{ v4 with lace := 0x4002 }] }

def sJ5 : State := { sJ (jr 5 0) with tlb := [{ tlb1 with cache := 0x1001, pages := 8 }] }

def jr0 (e nx : Word) : List Word := [e * 65536 + 2, satp1, 0x10000 + 12, nx]

def sJ3 : State := { sJ (jr 5 0) with eyelets := [(5, ey 3)], laces := [(2, { open_ := true, next := 10 })] }

def sLvE (y : Eyelet) : State := { sLv with eyelets := [(5, y)] }

def eyA (n : Nat) : Eyelet := { ey n with applied := 5, upTo := 9 }

def sSwC : State := { sSw with laced := [{ v4 with lace := 0x4002 }] }

/-- States and operands that meet the premises of `Obligations.LaceInstructions`, each of its cases in turn. -/
theorem test_premises_LaceInstructions :
    ((mkeys (sL hd (4 : Word) (12288 : Word) 2).threads = true) ∧ ((sL hd (4 : Word) (12288 : Word) 2).cur.keys =
      [0]) ∧ (isCob 0 = false) ∧ ((thr (sL hd (4 : Word) (12288 : Word) 2) 0).helper = false) ∧ (laceCheck (sL hd (4
      : Word) (12288 : Word) 2) 0 (src (thr (sL hd (4 : Word) (12288 : Word) 2) 0) w1.s1) (src (thr (sL hd (4 :
      Word) (12288 : Word) 2) 0) w1.s2) (hLen (src (thr (sL hd (4 : Word) (12288 : Word) 2) 0) w1.s1)) true = some
      4)) ∧
    ((mkeys (sL hd (4 : Word) (12288 : Word) 2).threads = true) ∧ ((sL hd (4 : Word) (12288 : Word) 2).cur.keys =
      [0]) ∧ (isCob 0 = false) ∧ ((thr (sL hd (4 : Word) (12288 : Word) 2) 0).helper = false) ∧ (laceCheck (sL hd (4
      : Word) (12288 : Word) 2) 0 (src (thr (sL hd (4 : Word) (12288 : Word) 2) 0) w1.s1) (src (thr (sL hd (4 :
      Word) (12288 : Word) 2) 0) w1.s2) 8 false = some 4)) ∧
    ((mkeys sLs.threads = true) ∧ (sLs.cur.keys = [0]) ∧ (isCob 0 = false) ∧ ((thr sLs 0).helper = false) ∧
      (laceCheck sLs 0 (src (thr sLs 0) w1.s1) (src (thr sLs 0) w1.s2) (hLen (src (thr sLs 0) w1.s1)) true = none) ∧
      (BitVec.toNat (src (thr sLs 0) w1.s3) % 8 = 0) ∧ (lstRead sLs 0 (src (thr sLs 0) w1.s3) (hLen (src (thr sLs 0)
      w1.s1)) = (Except.ok (match (lstRead sLs 0 (12288 : Word) 16).1 with | Except.ok b => b | x => []), (lstRead
      sLs 0 (12288 : Word) 16).2)) ∧ (lacedHeld (lstRead sLs 0 (12288 : Word) 16).2 0 < 32)) ∧
    ((mkeys (sL hd (64 : Word) (12288 : Word) 2).threads = true) ∧ ((sL hd (64 : Word) (12288 : Word) 2).cur.keys =
      [0]) ∧ (isCob 0 = false) ∧ ((thr (sL hd (64 : Word) (12288 : Word) 2) 0).helper = false) ∧ (laceCheck (sL hd
      (64 : Word) (12288 : Word) 2) 0 (src (thr (sL hd (64 : Word) (12288 : Word) 2) 0) w1.s1) (src (thr (sL hd (64
      : Word) (12288 : Word) 2) 0) w1.s2) 8 false = none) ∧ (lacedHeld (sL hd (64 : Word) (12288 : Word) 2) 0 < 32)) ∧
    ((mkeys v1.threads = true) ∧ (v1.cur.keys = [0]) ∧ (isCob 0 = false) ∧ ((thr v1 0).helper = false) ∧
      (handleWrong v1 0 (src (thr v1 0) w1.s1) false = true) ∧ (Instr.lseq w1 ∈ [Instr.lseq w1, Instr.lwait w1])) ∧
    ((mkeys v1.threads = true) ∧ (v1.cur.keys = [0]) ∧ (isCob 0 = false) ∧ ((thr v1 0).helper = false) ∧
      (handleWrong v1 0 (src (thr v1 0) w1.s1) false = true) ∧ (Instr.lwait w1 ∈ [Instr.lseq w1, Instr.lwait w1])) ∧
    ((mkeys (sL hd (9 : Word) (12288 : Word) 2).threads = true) ∧ ((sL hd (9 : Word) (12288 : Word) 2).cur.keys =
      [0]) ∧ (isCob 0 = false) ∧ ((thr (sL hd (9 : Word) (12288 : Word) 2) 0).helper = false) ∧ (handleWrong (sL hd
      (9 : Word) (12288 : Word) 2) 0 (src (thr (sL hd (9 : Word) (12288 : Word) 2) 0) w1.s1) false = false)) ∧
    ((mkeys (sL hd (10 : Word) (12288 : Word) 2).threads = true) ∧ ((sL hd (10 : Word) (12288 : Word) 2).cur.keys =
      [0]) ∧ (isCob 0 = false) ∧ ((thr (sL hd (10 : Word) (12288 : Word) 2) 0).helper = false) ∧ (handleWrong (sL hd
      (10 : Word) (12288 : Word) 2) 0 (src (thr (sL hd (10 : Word) (12288 : Word) 2) 0) w1.s1) false = false)) ∧
    ((mkeys (sL hd (10 : Word) (12288 : Word) 2).threads = true) ∧ ((sL hd (10 : Word) (12288 : Word) 2).cur.keys =
      [0]) ∧ (isCob 0 = false) ∧ ((thr (sL hd (10 : Word) (12288 : Word) 2) 0).helper = false) ∧ (∀ o ∈ (sL hd (10 :
      Word) (12288 : Word) 2).laced, ¬(o.tid = (thr (sL hd (10 : Word) (12288 : Word) 2) 0).tid ∧ o.part = partOf
      (sL hd (10 : Word) (12288 : Word) 2) 0))) ∧
    ((mkeys sLf.threads = true) ∧ (sLf.cur.keys = [0]) ∧ (isCob 0 = false) ∧ ((thr sLf 0).helper = false) ∧ (∃ o ∈
      sLf.laced, o.tid = (thr sLf 0).tid ∧ o.part = partOf sLf 0)) ∧
    ((mkeys v2.threads = true) ∧ (v2.cur.keys = [hk]) ∧ (isCob hk = false) ∧ ((thr v2 hk).helper = false) ∧ (isHart
      hk = true) ∧ (BitVec.toNat (src (thr v2 hk) w1.s1) % 64 = 0 → recordHeld v2 hk (BitVec.toNat (src (thr v2 hk)
      w1.s1)) 64 = none) ∧ (¬(BitVec.toNat (src (thr v2 hk) w1.s1) % 64 = 0 ∧ inRanges v2 (partOf v2 hk)
      (BitVec.toNat (src (thr v2 hk) w1.s1)) 64 = true))) ∧
    ((mkeys (sJ [(2 : Word) ^ 61]).threads = true) ∧ ((sJ [(2 : Word) ^ 61]).cur.keys = [hk]) ∧ (isCob hk = false) ∧
      ((thr (sJ [(2 : Word) ^ 61]) hk).helper = false) ∧ (isHart hk = true) ∧ (0x3000 % 64 = 0 → recordHeld (sJ [(2
      : Word) ^ 61]) hk (0x3000) 64 = none) ∧ (0x3000 % 64 = 0 ∧ inRanges (sJ [(2 : Word) ^ 61]) (partOf (sJ [(2 :
      Word) ^ 61]) hk) (0x3000) 64 = true) ∧ (joinBad (rdWords (sJ [(2 : Word) ^ 61]) (0x3000) 8) = true)) ∧
    ((mkeys (sJ (jr (64 : Word) (0 : Word))).threads = true) ∧ ((sJ (jr (64 : Word) (0 : Word))).cur.keys = [hk]) ∧
      (isCob hk = false) ∧ ((thr (sJ (jr (64 : Word) (0 : Word))) hk).helper = false) ∧ (isHart hk = true) ∧
      (BitVec.toNat (src (thr (sJ (jr (64 : Word) (0 : Word))) hk) w1.s1) % 64 = 0 → recordHeld (sJ (jr (64 : Word)
      (0 : Word))) hk (BitVec.toNat (src (thr (sJ (jr (64 : Word) (0 : Word))) hk) w1.s1)) 64 = none) ∧
      (BitVec.toNat (src (thr (sJ (jr (64 : Word) (0 : Word))) hk) w1.s1) % 64 = 0 ∧ inRanges (sJ (jr (64 : Word) (0
      : Word))) (partOf (sJ (jr (64 : Word) (0 : Word))) hk) (BitVec.toNat (src (thr (sJ (jr (64 : Word) (0 :
      Word))) hk) w1.s1)) 64 = true) ∧ (joinBad (rdWords (sJ (jr (64 : Word) (0 : Word))) (BitVec.toNat (src (thr
      (sJ (jr (64 : Word) (0 : Word))) hk) w1.s1)) 8) = false) ∧ (¬((part (sJ (jr (64 : Word) (0 : Word))) (partOf
      (sJ (jr (64 : Word) (0 : Word))) hk)).eye.testBit (bits (dw (rdWords (sJ (jr (64 : Word) (0 : Word)))
      (BitVec.toNat (src (thr (sJ (jr (64 : Word) (0 : Word))) hk) w1.s1)) 8) 0) 27 16 / 64) = true ∧ ((eyelet (sJ
      (jr (64 : Word) (0 : Word))) (bits (dw (rdWords (sJ (jr (64 : Word) (0 : Word))) (BitVec.toNat (src (thr (sJ
      (jr (64 : Word) (0 : Word))) hk) w1.s1)) 8) 0) 27 16)).st = 0 ∨ (eyelet (sJ (jr (64 : Word) (0 : Word))) (bits
      (dw (rdWords (sJ (jr (64 : Word) (0 : Word))) (BitVec.toNat (src (thr (sJ (jr (64 : Word) (0 : Word))) hk)
      w1.s1)) 8) 0) 27 16)).st = 3 ∧ (eyelet (sJ (jr (64 : Word) (0 : Word))) (bits (dw (rdWords (sJ (jr (64 : Word)
      (0 : Word))) (BitVec.toNat (src (thr (sJ (jr (64 : Word) (0 : Word))) hk) w1.s1)) 8) 0) 27 16)).lace = bits
      (dw (rdWords (sJ (jr (64 : Word) (0 : Word))) (BitVec.toNat (src (thr (sJ (jr (64 : Word) (0 : Word))) hk)
      w1.s1)) 8) 0) 15 0)))) ∧
    ((mkeys sJ5.threads = true) ∧ (sJ5.cur.keys = [hk]) ∧ (isCob hk = false) ∧ ((thr sJ5 hk).helper = false) ∧
      (isHart hk = true) ∧ (0x3000 % 64 = 0 → recordHeld sJ5 hk (0x3000) 64 = none) ∧ (0x3000 % 64 = 0 ∧ inRanges
      sJ5 (partOf sJ5 hk) (0x3000) 64 = true) ∧ (joinBad (rdWords sJ5 (0x3000) 8) = false) ∧ ((part sJ5 (partOf sJ5
      hk)).eye.testBit (bits (dw (rdWords sJ5 (0x3000) 8) 0) 27 16 / 64) = true ∧ ((eyelet sJ5 (bits (dw (rdWords
      sJ5 (0x3000) 8) 0) 27 16)).st = 0 ∨ (eyelet sJ5 (bits (dw (rdWords sJ5 (0x3000) 8) 0) 27 16)).st = 3 ∧ (eyelet
      sJ5 (bits (dw (rdWords sJ5 (0x3000) 8) 0) 27 16)).lace = bits (dw (rdWords sJ5 (0x3000) 8) 0) 15 0)) ∧
      (laceReach (bits (dw (rdWords sJ5 (0x3000) 8) 0) 15 0) = 0) ∧ (∀ va ∈ List.map (fun i => w64 (bits (dw
      (rdWords sJ5 (0x3000) 8) 2) 63 12 * 4096) + w64 (4096 * i)) (List.range (2 ^ (bits (dw (rdWords sJ5 (0x3000)
      8) 2) 4 0 - 12))), xlatWaits sJ5
      { part := partOf sJ5 hk, satp := dw (rdWords sJ5 (0x3000) 8) 1, user := true, cache := 4096 + (hk - 1048576), adue := (part sJ5 (partOf sJ5 hk)).adue : Ctx }
      va Acc.load = false ∧ xlatWaits sJ5
      { part := partOf sJ5 hk, satp := dw (rdWords sJ5 (0x3000) 8) 1, user := true, cache := 4096 + (hk - 1048576), adue := (part sJ5 (partOf sJ5 hk)).adue : Ctx }
      va Acc.store = false) ∧ ((windowPages sJ5
      { part := partOf sJ5 hk, satp := dw (rdWords sJ5 (0x3000) 8) 1, user := true, cache := 4096 + (hk - 1048576), adue := (part sJ5 (partOf sJ5 hk)).adue : Ctx }
      (List.map (fun i => w64 (bits (dw (rdWords sJ5 (0x3000) 8) 2) 63 12 * 4096) + w64 (4096 * i)) (List.range (2 ^
      (bits (dw (rdWords sJ5 (0x3000) 8) 2) 4 0 - 12))))).1 = none)) ∧
    ((mkeys (sJ (jr0 (5 : Word) (0 : Word))).threads = true) ∧ ((sJ (jr0 (5 : Word) (0 : Word))).cur.keys = [hk]) ∧
      (isCob hk = false) ∧ ((thr (sJ (jr0 (5 : Word) (0 : Word))) hk).helper = false) ∧ (isHart hk = true) ∧
      (BitVec.toNat (src (thr (sJ (jr0 (5 : Word) (0 : Word))) hk) w1.s1) % 64 = 0 → recordHeld (sJ (jr0 (5 : Word)
      (0 : Word))) hk (BitVec.toNat (src (thr (sJ (jr0 (5 : Word) (0 : Word))) hk) w1.s1)) 64 = none) ∧
      (BitVec.toNat (src (thr (sJ (jr0 (5 : Word) (0 : Word))) hk) w1.s1) % 64 = 0 ∧ inRanges (sJ (jr0 (5 : Word) (0
      : Word))) (partOf (sJ (jr0 (5 : Word) (0 : Word))) hk) (BitVec.toNat (src (thr (sJ (jr0 (5 : Word) (0 :
      Word))) hk) w1.s1)) 64 = true) ∧ (joinBad (rdWords (sJ (jr0 (5 : Word) (0 : Word))) (BitVec.toNat (src (thr
      (sJ (jr0 (5 : Word) (0 : Word))) hk) w1.s1)) 8) = false) ∧ ((part (sJ (jr0 (5 : Word) (0 : Word))) (partOf (sJ
      (jr0 (5 : Word) (0 : Word))) hk)).eye.testBit (bits (dw (rdWords (sJ (jr0 (5 : Word) (0 : Word)))
      (BitVec.toNat (src (thr (sJ (jr0 (5 : Word) (0 : Word))) hk) w1.s1)) 8) 0) 27 16 / 64) = true ∧ ((eyelet (sJ
      (jr0 (5 : Word) (0 : Word))) (bits (dw (rdWords (sJ (jr0 (5 : Word) (0 : Word))) (BitVec.toNat (src (thr (sJ
      (jr0 (5 : Word) (0 : Word))) hk) w1.s1)) 8) 0) 27 16)).st = 0 ∨ (eyelet (sJ (jr0 (5 : Word) (0 : Word))) (bits
      (dw (rdWords (sJ (jr0 (5 : Word) (0 : Word))) (BitVec.toNat (src (thr (sJ (jr0 (5 : Word) (0 : Word))) hk)
      w1.s1)) 8) 0) 27 16)).st = 3 ∧ (eyelet (sJ (jr0 (5 : Word) (0 : Word))) (bits (dw (rdWords (sJ (jr0 (5 : Word)
      (0 : Word))) (BitVec.toNat (src (thr (sJ (jr0 (5 : Word) (0 : Word))) hk) w1.s1)) 8) 0) 27 16)).lace = bits
      (dw (rdWords (sJ (jr0 (5 : Word) (0 : Word))) (BitVec.toNat (src (thr (sJ (jr0 (5 : Word) (0 : Word))) hk)
      w1.s1)) 8) 0) 15 0)) ∧ (laceReach (bits (dw (rdWords (sJ (jr0 (5 : Word) (0 : Word))) (BitVec.toNat (src (thr
      (sJ (jr0 (5 : Word) (0 : Word))) hk) w1.s1)) 8) 0) 15 0) = 0) ∧ (∀ va ∈ List.map (fun i => w64 (bits (dw
      (rdWords (sJ (jr0 (5 : Word) (0 : Word))) (BitVec.toNat (src (thr (sJ (jr0 (5 : Word) (0 : Word))) hk) w1.s1))
      8) 2) 63 12 * 4096) + w64 (4096 * i)) (List.range (2 ^ (bits (dw (rdWords (sJ (jr0 (5 : Word) (0 : Word)))
      (BitVec.toNat (src (thr (sJ (jr0 (5 : Word) (0 : Word))) hk) w1.s1)) 8) 2) 4 0 - 12))), xlatWaits (sJ (jr0 (5
      : Word) (0 : Word)))
      { part := partOf (sJ (jr0 (5 : Word) (0 : Word))) hk, satp := dw (rdWords (sJ (jr0 (5 : Word) (0 : Word))) (BitVec.toNat (src (thr (sJ (jr0 (5 : Word) (0 : Word))) hk) w1.s1)) 8) 1, user := true, cache := 4096 + (hk - 1048576), adue := (part (sJ (jr0 (5 : Word) (0 : Word))) (partOf (sJ (jr0 (5 : Word) (0 : Word))) hk)).adue : Ctx }
      va Acc.load = false ∧ xlatWaits (sJ (jr0 (5 : Word) (0 : Word)))
      { part := partOf (sJ (jr0 (5 : Word) (0 : Word))) hk, satp := dw (rdWords (sJ (jr0 (5 : Word) (0 : Word))) (BitVec.toNat (src (thr (sJ (jr0 (5 : Word) (0 : Word))) hk) w1.s1)) 8) 1, user := true, cache := 4096 + (hk - 1048576), adue := (part (sJ (jr0 (5 : Word) (0 : Word))) (partOf (sJ (jr0 (5 : Word) (0 : Word))) hk)).adue : Ctx }
      va Acc.store = false) ∧ ((windowPages (sJ (jr0 (5 : Word) (0 : Word)))
      { part := partOf (sJ (jr0 (5 : Word) (0 : Word))) hk, satp := dw (rdWords (sJ (jr0 (5 : Word) (0 : Word))) (BitVec.toNat (src (thr (sJ (jr0 (5 : Word) (0 : Word))) hk) w1.s1)) 8) 1, user := true, cache := 4096 + (hk - 1048576), adue := (part (sJ (jr0 (5 : Word) (0 : Word))) (partOf (sJ (jr0 (5 : Word) (0 : Word))) hk)).adue : Ctx }
      (List.map (fun i => w64 (bits (dw (rdWords (sJ (jr0 (5 : Word) (0 : Word))) (BitVec.toNat (src (thr (sJ (jr0
      (5 : Word) (0 : Word))) hk) w1.s1)) 8) 2) 63 12 * 4096) + w64 (4096 * i)) (List.range (2 ^ (bits (dw (rdWords
      (sJ (jr0 (5 : Word) (0 : Word))) (BitVec.toNat (src (thr (sJ (jr0 (5 : Word) (0 : Word))) hk) w1.s1)) 8) 2) 4
      0 - 12))))).1 ≠ none) ∧ ((lace (sJ (jr0 (5 : Word) (0 : Word))) (bits (dw (rdWords (sJ (jr0 (5 : Word) (0 :
      Word))) (BitVec.toNat (src (thr (sJ (jr0 (5 : Word) (0 : Word))) hk) w1.s1)) 8) 0) 15 0)).open_ = false ∧ bit
      (dw (rdWords (sJ (jr0 (5 : Word) (0 : Word))) (BitVec.toNat (src (thr (sJ (jr0 (5 : Word) (0 : Word))) hk)
      w1.s1)) 8) 0) 63 = false)) :=
  ⟨by decide +kernel,
   by decide +kernel,
   by decide +kernel,
   by decide +kernel,
   by decide +kernel,
   by decide +kernel,
   by decide +kernel,
   by decide +kernel,
   by decide +kernel,
   by decide +kernel,
   by decide +kernel,
   by decide +kernel,
   by decide +kernel,
   ⟨by decide +kernel, by decide +kernel, by decide +kernel, by decide +kernel, by decide +kernel, by decide +kernel, by decide +kernel, by decide +kernel, by decide +kernel, by decide +kernel, all_mem (by decide +kernel), by decide +kernel⟩,
   ⟨by decide +kernel, by decide +kernel, by decide +kernel, by decide +kernel, by decide +kernel, by decide +kernel, by decide +kernel, by decide +kernel, by decide +kernel, by decide +kernel, all_mem (by decide +kernel), by decide +kernel, by decide +kernel⟩⟩

/-- More of them. -/
theorem test_premises_LaceInstructions_2 :
    ((mkeys (sJ (jr (5 : Word) (7 : Word))).threads = true) ∧ ((sJ (jr (5 : Word) (7 : Word))).cur.keys = [hk]) ∧
      (isCob hk = false) ∧ ((thr (sJ (jr (5 : Word) (7 : Word))) hk).helper = false) ∧ (isHart hk = true) ∧
      (BitVec.toNat (src (thr (sJ (jr (5 : Word) (7 : Word))) hk) w1.s1) % 64 = 0 → recordHeld (sJ (jr (5 : Word) (7
      : Word))) hk (BitVec.toNat (src (thr (sJ (jr (5 : Word) (7 : Word))) hk) w1.s1)) 64 = none) ∧ (BitVec.toNat
      (src (thr (sJ (jr (5 : Word) (7 : Word))) hk) w1.s1) % 64 = 0 ∧ inRanges (sJ (jr (5 : Word) (7 : Word)))
      (partOf (sJ (jr (5 : Word) (7 : Word))) hk) (BitVec.toNat (src (thr (sJ (jr (5 : Word) (7 : Word))) hk)
      w1.s1)) 64 = true) ∧ (joinBad (rdWords (sJ (jr (5 : Word) (7 : Word))) (BitVec.toNat (src (thr (sJ (jr (5 :
      Word) (7 : Word))) hk) w1.s1)) 8) = false) ∧ ((part (sJ (jr (5 : Word) (7 : Word))) (partOf (sJ (jr (5 : Word)
      (7 : Word))) hk)).eye.testBit (bits (dw (rdWords (sJ (jr (5 : Word) (7 : Word))) (BitVec.toNat (src (thr (sJ
      (jr (5 : Word) (7 : Word))) hk) w1.s1)) 8) 0) 27 16 / 64) = true ∧ ((eyelet (sJ (jr (5 : Word) (7 : Word)))
      (bits (dw (rdWords (sJ (jr (5 : Word) (7 : Word))) (BitVec.toNat (src (thr (sJ (jr (5 : Word) (7 : Word))) hk)
      w1.s1)) 8) 0) 27 16)).st = 0 ∨ (eyelet (sJ (jr (5 : Word) (7 : Word))) (bits (dw (rdWords (sJ (jr (5 : Word)
      (7 : Word))) (BitVec.toNat (src (thr (sJ (jr (5 : Word) (7 : Word))) hk) w1.s1)) 8) 0) 27 16)).st = 3 ∧
      (eyelet (sJ (jr (5 : Word) (7 : Word))) (bits (dw (rdWords (sJ (jr (5 : Word) (7 : Word))) (BitVec.toNat (src
      (thr (sJ (jr (5 : Word) (7 : Word))) hk) w1.s1)) 8) 0) 27 16)).lace = bits (dw (rdWords (sJ (jr (5 : Word) (7
      : Word))) (BitVec.toNat (src (thr (sJ (jr (5 : Word) (7 : Word))) hk) w1.s1)) 8) 0) 15 0)) ∧ (laceReach (bits
      (dw (rdWords (sJ (jr (5 : Word) (7 : Word))) (BitVec.toNat (src (thr (sJ (jr (5 : Word) (7 : Word))) hk)
      w1.s1)) 8) 0) 15 0) = 0) ∧ (∀ va ∈ List.map (fun i => w64 (bits (dw (rdWords (sJ (jr (5 : Word) (7 : Word)))
      (BitVec.toNat (src (thr (sJ (jr (5 : Word) (7 : Word))) hk) w1.s1)) 8) 2) 63 12 * 4096) + w64 (4096 * i))
      (List.range (2 ^ (bits (dw (rdWords (sJ (jr (5 : Word) (7 : Word))) (BitVec.toNat (src (thr (sJ (jr (5 : Word)
      (7 : Word))) hk) w1.s1)) 8) 2) 4 0 - 12))), xlatWaits (sJ (jr (5 : Word) (7 : Word)))
      { part := partOf (sJ (jr (5 : Word) (7 : Word))) hk, satp := dw (rdWords (sJ (jr (5 : Word) (7 : Word))) (BitVec.toNat (src (thr (sJ (jr (5 : Word) (7 : Word))) hk) w1.s1)) 8) 1, user := true, cache := 4096 + (hk - 1048576), adue := (part (sJ (jr (5 : Word) (7 : Word))) (partOf (sJ (jr (5 : Word) (7 : Word))) hk)).adue : Ctx }
      va Acc.load = false ∧ xlatWaits (sJ (jr (5 : Word) (7 : Word)))
      { part := partOf (sJ (jr (5 : Word) (7 : Word))) hk, satp := dw (rdWords (sJ (jr (5 : Word) (7 : Word))) (BitVec.toNat (src (thr (sJ (jr (5 : Word) (7 : Word))) hk) w1.s1)) 8) 1, user := true, cache := 4096 + (hk - 1048576), adue := (part (sJ (jr (5 : Word) (7 : Word))) (partOf (sJ (jr (5 : Word) (7 : Word))) hk)).adue : Ctx }
      va Acc.store = false) ∧ ((windowPages (sJ (jr (5 : Word) (7 : Word)))
      { part := partOf (sJ (jr (5 : Word) (7 : Word))) hk, satp := dw (rdWords (sJ (jr (5 : Word) (7 : Word))) (BitVec.toNat (src (thr (sJ (jr (5 : Word) (7 : Word))) hk) w1.s1)) 8) 1, user := true, cache := 4096 + (hk - 1048576), adue := (part (sJ (jr (5 : Word) (7 : Word))) (partOf (sJ (jr (5 : Word) (7 : Word))) hk)).adue : Ctx }
      (List.map (fun i => w64 (bits (dw (rdWords (sJ (jr (5 : Word) (7 : Word))) (BitVec.toNat (src (thr (sJ (jr (5
      : Word) (7 : Word))) hk) w1.s1)) 8) 2) 63 12 * 4096) + w64 (4096 * i)) (List.range (2 ^ (bits (dw (rdWords (sJ
      (jr (5 : Word) (7 : Word))) (BitVec.toNat (src (thr (sJ (jr (5 : Word) (7 : Word))) hk) w1.s1)) 8) 2) 4 0 -
      12))))).1 ≠ none) ∧ ((lace (sJ (jr (5 : Word) (7 : Word))) (bits (dw (rdWords (sJ (jr (5 : Word) (7 : Word)))
      (BitVec.toNat (src (thr (sJ (jr (5 : Word) (7 : Word))) hk) w1.s1)) 8) 0) 15 0)).open_ = true ∨ bit (dw
      (rdWords (sJ (jr (5 : Word) (7 : Word))) (BitVec.toNat (src (thr (sJ (jr (5 : Word) (7 : Word))) hk) w1.s1))
      8) 0) 63 = true) ∧ (¬(bits (dw (rdWords (sJ (jr (5 : Word) (7 : Word))) (BitVec.toNat (src (thr (sJ (jr (5 :
      Word) (7 : Word))) hk) w1.s1)) 8) 3) 47 0 = 0 ∨ ((lace (sJ (jr (5 : Word) (7 : Word))) (bits (dw (rdWords (sJ
      (jr (5 : Word) (7 : Word))) (BitVec.toNat (src (thr (sJ (jr (5 : Word) (7 : Word))) hk) w1.s1)) 8) 0) 15
      0)).next + 2 ^ 48 - bits (dw (rdWords (sJ (jr (5 : Word) (7 : Word))) (BitVec.toNat (src (thr (sJ (jr (5 :
      Word) (7 : Word))) hk) w1.s1)) 8) 3) 47 0) % 2 ^ 48 ≤ 4096))) ∧
    ((mkeys (sJ (jr (5 : Word) (0 : Word))).threads = true) ∧ ((sJ (jr (5 : Word) (0 : Word))).cur.keys = [hk]) ∧
      (isCob hk = false) ∧ ((thr (sJ (jr (5 : Word) (0 : Word))) hk).helper = false) ∧ (isHart hk = true) ∧
      (BitVec.toNat (src (thr (sJ (jr (5 : Word) (0 : Word))) hk) w1.s1) % 64 = 0 → recordHeld (sJ (jr (5 : Word) (0
      : Word))) hk (BitVec.toNat (src (thr (sJ (jr (5 : Word) (0 : Word))) hk) w1.s1)) 64 = none) ∧ (BitVec.toNat
      (src (thr (sJ (jr (5 : Word) (0 : Word))) hk) w1.s1) % 64 = 0 ∧ inRanges (sJ (jr (5 : Word) (0 : Word)))
      (partOf (sJ (jr (5 : Word) (0 : Word))) hk) (BitVec.toNat (src (thr (sJ (jr (5 : Word) (0 : Word))) hk)
      w1.s1)) 64 = true) ∧ (joinBad (rdWords (sJ (jr (5 : Word) (0 : Word))) (BitVec.toNat (src (thr (sJ (jr (5 :
      Word) (0 : Word))) hk) w1.s1)) 8) = false) ∧ ((part (sJ (jr (5 : Word) (0 : Word))) (partOf (sJ (jr (5 : Word)
      (0 : Word))) hk)).eye.testBit (bits (dw (rdWords (sJ (jr (5 : Word) (0 : Word))) (BitVec.toNat (src (thr (sJ
      (jr (5 : Word) (0 : Word))) hk) w1.s1)) 8) 0) 27 16 / 64) = true ∧ ((eyelet (sJ (jr (5 : Word) (0 : Word)))
      (bits (dw (rdWords (sJ (jr (5 : Word) (0 : Word))) (BitVec.toNat (src (thr (sJ (jr (5 : Word) (0 : Word))) hk)
      w1.s1)) 8) 0) 27 16)).st = 0 ∨ (eyelet (sJ (jr (5 : Word) (0 : Word))) (bits (dw (rdWords (sJ (jr (5 : Word)
      (0 : Word))) (BitVec.toNat (src (thr (sJ (jr (5 : Word) (0 : Word))) hk) w1.s1)) 8) 0) 27 16)).st = 3 ∧
      (eyelet (sJ (jr (5 : Word) (0 : Word))) (bits (dw (rdWords (sJ (jr (5 : Word) (0 : Word))) (BitVec.toNat (src
      (thr (sJ (jr (5 : Word) (0 : Word))) hk) w1.s1)) 8) 0) 27 16)).lace = bits (dw (rdWords (sJ (jr (5 : Word) (0
      : Word))) (BitVec.toNat (src (thr (sJ (jr (5 : Word) (0 : Word))) hk) w1.s1)) 8) 0) 15 0)) ∧ (laceReach (bits
      (dw (rdWords (sJ (jr (5 : Word) (0 : Word))) (BitVec.toNat (src (thr (sJ (jr (5 : Word) (0 : Word))) hk)
      w1.s1)) 8) 0) 15 0) = 0) ∧ (∀ va ∈ List.map (fun i => w64 (bits (dw (rdWords (sJ (jr (5 : Word) (0 : Word)))
      (BitVec.toNat (src (thr (sJ (jr (5 : Word) (0 : Word))) hk) w1.s1)) 8) 2) 63 12 * 4096) + w64 (4096 * i))
      (List.range (2 ^ (bits (dw (rdWords (sJ (jr (5 : Word) (0 : Word))) (BitVec.toNat (src (thr (sJ (jr (5 : Word)
      (0 : Word))) hk) w1.s1)) 8) 2) 4 0 - 12))), xlatWaits (sJ (jr (5 : Word) (0 : Word)))
      { part := partOf (sJ (jr (5 : Word) (0 : Word))) hk, satp := dw (rdWords (sJ (jr (5 : Word) (0 : Word))) (BitVec.toNat (src (thr (sJ (jr (5 : Word) (0 : Word))) hk) w1.s1)) 8) 1, user := true, cache := 4096 + (hk - 1048576), adue := (part (sJ (jr (5 : Word) (0 : Word))) (partOf (sJ (jr (5 : Word) (0 : Word))) hk)).adue : Ctx }
      va Acc.load = false ∧ xlatWaits (sJ (jr (5 : Word) (0 : Word)))
      { part := partOf (sJ (jr (5 : Word) (0 : Word))) hk, satp := dw (rdWords (sJ (jr (5 : Word) (0 : Word))) (BitVec.toNat (src (thr (sJ (jr (5 : Word) (0 : Word))) hk) w1.s1)) 8) 1, user := true, cache := 4096 + (hk - 1048576), adue := (part (sJ (jr (5 : Word) (0 : Word))) (partOf (sJ (jr (5 : Word) (0 : Word))) hk)).adue : Ctx }
      va Acc.store = false) ∧ (windowPages (sJ (jr (5 : Word) (0 : Word)))
      { part := partOf (sJ (jr (5 : Word) (0 : Word))) hk, satp := dw (rdWords (sJ (jr (5 : Word) (0 : Word))) (BitVec.toNat (src (thr (sJ (jr (5 : Word) (0 : Word))) hk) w1.s1)) 8) 1, user := true, cache := 4096 + (hk - 1048576), adue := (part (sJ (jr (5 : Word) (0 : Word))) (partOf (sJ (jr (5 : Word) (0 : Word))) hk)).adue : Ctx }
      (List.map (fun i => w64 (bits (dw (rdWords (sJ (jr (5 : Word) (0 : Word))) (BitVec.toNat (src (thr (sJ (jr (5
      : Word) (0 : Word))) hk) w1.s1)) 8) 2) 63 12 * 4096) + w64 (4096 * i)) (List.range (2 ^ (bits (dw (rdWords (sJ
      (jr (5 : Word) (0 : Word))) (BitVec.toNat (src (thr (sJ (jr (5 : Word) (0 : Word))) hk) w1.s1)) 8) 2) 4 0 -
      12)))) = (some [65536], jw.2)) ∧ ((lace (sJ (jr (5 : Word) (0 : Word))) (bits (dw (rdWords (sJ (jr (5 : Word)
      (0 : Word))) (BitVec.toNat (src (thr (sJ (jr (5 : Word) (0 : Word))) hk) w1.s1)) 8) 0) 15 0)).open_ = true ∨
      bit (dw (rdWords (sJ (jr (5 : Word) (0 : Word))) (BitVec.toNat (src (thr (sJ (jr (5 : Word) (0 : Word))) hk)
      w1.s1)) 8) 0) 63 = true) ∧ (bits (dw (rdWords (sJ (jr (5 : Word) (0 : Word))) (BitVec.toNat (src (thr (sJ (jr
      (5 : Word) (0 : Word))) hk) w1.s1)) 8) 3) 47 0 = 0 ∨ ((lace (sJ (jr (5 : Word) (0 : Word))) (bits (dw (rdWords
      (sJ (jr (5 : Word) (0 : Word))) (BitVec.toNat (src (thr (sJ (jr (5 : Word) (0 : Word))) hk) w1.s1)) 8) 0) 15
      0)).next + 2 ^ 48 - bits (dw (rdWords (sJ (jr (5 : Word) (0 : Word))) (BitVec.toNat (src (thr (sJ (jr (5 :
      Word) (0 : Word))) hk) w1.s1)) 8) 3) 47 0) % 2 ^ 48 ≤ 4096) ∧ ((thr (sJ (jr (5 : Word) (0 : Word))) hk).wait =
      Wait.none)) ∧
    ((mkeys v3.threads = true) ∧ (v3.cur.keys = [hk]) ∧ (isCob hk = false) ∧ ((thr v3 hk).helper = false) ∧ (isHart
      hk = true) ∧ (0x3000 % 64 = 0 → recordHeld v3 hk (0x3000) 64 = none) ∧ (0x3000 % 64 = 0 ∧ inRanges v3 (partOf
      v3 hk) (0x3000) 64 = true) ∧ (joinBad (rdWords v3 (0x3000) 8) = false) ∧ ((part v3 (partOf v3 hk)).eye.testBit
      (bits (dw (rdWords v3 (0x3000) 8) 0) 27 16 / 64) = true ∧ ((eyelet v3 (bits (dw (rdWords v3 (0x3000) 8) 0) 27
      16)).st = 0 ∨ (eyelet v3 (bits (dw (rdWords v3 (0x3000) 8) 0) 27 16)).st = 3 ∧ (eyelet v3 (bits (dw (rdWords
      v3 (0x3000) 8) 0) 27 16)).lace = bits (dw (rdWords v3 (0x3000) 8) 0) 15 0)) ∧ (laceReach (bits (dw (rdWords v3
      (0x3000) 8) 0) 15 0) = 0) ∧ (∀ va ∈ List.map (fun i => w64 (bits (dw (rdWords v3 (0x3000) 8) 2) 63 12 * 4096)
      + w64 (4096 * i)) (List.range (2 ^ (bits (dw (rdWords v3 (0x3000) 8) 2) 4 0 - 12))), xlatWaits v3
      { part := partOf v3 hk, satp := dw (rdWords v3 (0x3000) 8) 1, user := true, cache := 4096 + (hk - 1048576), adue := (part v3 (partOf v3 hk)).adue : Ctx }
      va Acc.load = false ∧ xlatWaits v3
      { part := partOf v3 hk, satp := dw (rdWords v3 (0x3000) 8) 1, user := true, cache := 4096 + (hk - 1048576), adue := (part v3 (partOf v3 hk)).adue : Ctx }
      va Acc.store = false) ∧ (windowPages v3
      { part := partOf v3 hk, satp := dw (rdWords v3 (0x3000) 8) 1, user := true, cache := 4096 + (hk - 1048576), adue := (part v3 (partOf v3 hk)).adue : Ctx }
      (List.map (fun i => w64 (bits (dw (rdWords v3 (0x3000) 8) 2) 63 12 * 4096) + w64 (4096 * i)) (List.range (2 ^
      (bits (dw (rdWords v3 (0x3000) 8) 2) 4 0 - 12)))) = (some [65536], (windowPages v3 jx [(65536 : Word)]).2)) ∧
      ((lace v3 (bits (dw (rdWords v3 (0x3000) 8) 0) 15 0)).open_ = true ∨ bit (dw (rdWords v3 (0x3000) 8) 0) 63 =
      true) ∧ (bits (dw (rdWords v3 (0x3000) 8) 3) 47 0 = 0 ∨ ((lace v3 (bits (dw (rdWords v3 (0x3000) 8) 0) 15
      0)).next + 2 ^ 48 - bits (dw (rdWords v3 (0x3000) 8) 3) 47 0) % 2 ^ 48 ≤ 4096) ∧ ((thr v3 hk).wait =
      Wait.none)) ∧
    ((mkeys sJ3.threads = true) ∧ (sJ3.cur.keys = [hk]) ∧ (isCob hk = false) ∧ ((thr sJ3 hk).helper = false) ∧
      (isHart hk = true) ∧ (0x3000 % 64 = 0 → recordHeld sJ3 hk (0x3000) 64 = none) ∧ (0x3000 % 64 = 0 ∧ inRanges
      sJ3 (partOf sJ3 hk) (0x3000) 64 = true) ∧ (joinBad (rdWords sJ3 (0x3000) 8) = false) ∧ ((part sJ3 (partOf sJ3
      hk)).eye.testBit (bits (dw (rdWords sJ3 (0x3000) 8) 0) 27 16 / 64) = true ∧ ((eyelet sJ3 (bits (dw (rdWords
      sJ3 (0x3000) 8) 0) 27 16)).st = 0 ∨ (eyelet sJ3 (bits (dw (rdWords sJ3 (0x3000) 8) 0) 27 16)).st = 3 ∧ (eyelet
      sJ3 (bits (dw (rdWords sJ3 (0x3000) 8) 0) 27 16)).lace = bits (dw (rdWords sJ3 (0x3000) 8) 0) 15 0)) ∧
      (laceReach (bits (dw (rdWords sJ3 (0x3000) 8) 0) 15 0) = 0) ∧ (∀ va ∈ List.map (fun i => w64 (bits (dw
      (rdWords sJ3 (0x3000) 8) 2) 63 12 * 4096) + w64 (4096 * i)) (List.range (2 ^ (bits (dw (rdWords sJ3 (0x3000)
      8) 2) 4 0 - 12))), xlatWaits sJ3
      { part := partOf sJ3 hk, satp := dw (rdWords sJ3 (0x3000) 8) 1, user := true, cache := 4096 + (hk - 1048576), adue := (part sJ3 (partOf sJ3 hk)).adue : Ctx }
      va Acc.load = false ∧ xlatWaits sJ3
      { part := partOf sJ3 hk, satp := dw (rdWords sJ3 (0x3000) 8) 1, user := true, cache := 4096 + (hk - 1048576), adue := (part sJ3 (partOf sJ3 hk)).adue : Ctx }
      va Acc.store = false) ∧ (windowPages sJ3
      { part := partOf sJ3 hk, satp := dw (rdWords sJ3 (0x3000) 8) 1, user := true, cache := 4096 + (hk - 1048576), adue := (part sJ3 (partOf sJ3 hk)).adue : Ctx }
      (List.map (fun i => w64 (bits (dw (rdWords sJ3 (0x3000) 8) 2) 63 12 * 4096) + w64 (4096 * i)) (List.range (2 ^
      (bits (dw (rdWords sJ3 (0x3000) 8) 2) 4 0 - 12)))) = (some [65536], (windowPages sJ3 jx [(65536 : Word)]).2))
      ∧ ((lace sJ3 (bits (dw (rdWords sJ3 (0x3000) 8) 0) 15 0)).open_ = true ∨ bit (dw (rdWords sJ3 (0x3000) 8) 0)
      63 = true) ∧ (bits (dw (rdWords sJ3 (0x3000) 8) 3) 47 0 = 0 ∨ ((lace sJ3 (bits (dw (rdWords sJ3 (0x3000) 8) 0)
      15 0)).next + 2 ^ 48 - bits (dw (rdWords sJ3 (0x3000) 8) 3) 47 0) % 2 ^ 48 ≤ 4096) ∧ ((thr sJ3 hk).wait =
      Wait.none)) :=
  ⟨⟨by decide +kernel, by decide +kernel, by decide +kernel, by decide +kernel, by decide +kernel, by decide +kernel, by decide +kernel, by decide +kernel, by decide +kernel, by decide +kernel, all_mem (by decide +kernel), by decide +kernel, by decide +kernel, by decide +kernel⟩,
   ⟨by decide +kernel, by decide +kernel, by decide +kernel, by decide +kernel, by decide +kernel, by decide +kernel, by decide +kernel, by decide +kernel, by decide +kernel, by decide +kernel, all_mem (by decide +kernel), by decide +kernel, by decide +kernel, by decide +kernel, by decide +kernel⟩,
   ⟨by decide +kernel, by decide +kernel, by decide +kernel, by decide +kernel, by decide +kernel, by decide +kernel, by decide +kernel, by decide +kernel, by decide +kernel, by decide +kernel, all_mem (by decide +kernel), by decide +kernel, by decide +kernel, by decide +kernel, by decide +kernel⟩,
   ⟨by decide +kernel, by decide +kernel, by decide +kernel, by decide +kernel, by decide +kernel, by decide +kernel, by decide +kernel, by decide +kernel, by decide +kernel, by decide +kernel, all_mem (by decide +kernel), by decide +kernel, by decide +kernel, by decide +kernel, by decide +kernel⟩⟩

/-- More of them. -/
theorem test_premises_LaceInstructions_3 :
    ((mkeys (onHart h1 (te hd (0 : Word) (0 : Word))).threads = true) ∧ ((onHart h1 (te hd (0 : Word) (0 :
      Word))).cur.keys = [hk]) ∧ (isCob hk = false) ∧ ((thr (onHart h1 (te hd (0 : Word) (0 : Word))) hk).helper =
      false) ∧ (isHart hk = true) ∧ (BitVec.toNat (src (thr (onHart h1 (te hd (0 : Word) (0 : Word))) hk) w1.s1) %
      64 = 0 → recordHeld (onHart h1 (te hd (0 : Word) (0 : Word))) hk (BitVec.toNat (src (thr (onHart h1 (te hd (0
      : Word) (0 : Word))) hk) w1.s1)) 64 = none) ∧ (bits (src (thr (onHart h1 (te hd (0 : Word) (0 : Word))) hk)
      w1.s1) 63 28 ≠ 0 ∨ (eyelet (onHart h1 (te hd (0 : Word) (0 : Word))) (hEye (src (thr (onHart h1 (te hd (0 :
      Word) (0 : Word))) hk) w1.s1))).st = 0 ∨ (eyelet (onHart h1 (te hd (0 : Word) (0 : Word))) (hEye (src (thr
      (onHart h1 (te hd (0 : Word) (0 : Word))) hk) w1.s1))).lace ≠ hLace (src (thr (onHart h1 (te hd (0 : Word) (0
      : Word))) hk) w1.s1) ∨ (eyelet (onHart h1 (te hd (0 : Word) (0 : Word))) (hEye (src (thr (onHart h1 (te hd (0
      : Word) (0 : Word))) hk) w1.s1))).part ≠ partOf (onHart h1 (te hd (0 : Word) (0 : Word))) hk)) ∧
    ((mkeys sLv.threads = true) ∧ (sLv.cur.keys = [hk]) ∧ (isCob hk = false) ∧ ((thr sLv hk).helper = false) ∧
      (isHart hk = true) ∧ (0x3000 % 64 = 0 → recordHeld sLv hk (0x3000) 64 = none) ∧ (bits (src (thr sLv hk) w1.s1)
      63 28 = 0) ∧ ((eyelet sLv (hEye (src (thr sLv hk) w1.s1))).lace = hLace (src (thr sLv hk) w1.s1)) ∧ ((eyelet
      sLv (hEye (src (thr sLv hk) w1.s1))).part = partOf sLv hk) ∧ (∀ x ∈ sLv.threads, x.2.wait ≠ Wait.lleave (hEye
      (src (thr sLv hk) w1.s1))) ∧ ((eyelet sLv (hEye (src (thr sLv hk) w1.s1))).st = 3 ∨ ((eyelet sLv (hEye (src
      (thr sLv hk) w1.s1))).st = 1 ∨ (eyelet sLv (hEye (src (thr sLv hk) w1.s1))).st = 2) ∧ reached (eyelet sLv
      (hEye (src (thr sLv hk) w1.s1))).applied (((lace sLv (eyelet sLv (hEye (src (thr sLv hk) w1.s1))).lace).next +
      2 ^ 48 - 1) % 2 ^ 48) = true)) ∧
    ((mkeys (sLvE (ey 3)).threads = true) ∧ ((sLvE (ey 3)).cur.keys = [hk]) ∧ (isCob hk = false) ∧ ((thr (sLvE (ey
      3)) hk).helper = false) ∧ (isHart hk = true) ∧ (0x3000 % 64 = 0 → recordHeld (sLvE (ey 3)) hk (0x3000) 64 =
      none) ∧ (bits (src (thr (sLvE (ey 3)) hk) w1.s1) 63 28 = 0) ∧ ((eyelet (sLvE (ey 3)) (hEye (src (thr (sLvE (ey
      3)) hk) w1.s1))).lace = hLace (src (thr (sLvE (ey 3)) hk) w1.s1)) ∧ ((eyelet (sLvE (ey 3)) (hEye (src (thr
      (sLvE (ey 3)) hk) w1.s1))).part = partOf (sLvE (ey 3)) hk) ∧ (∀ x ∈ (sLvE (ey 3)).threads, x.2.wait ≠
      Wait.lleave (hEye (src (thr (sLvE (ey 3)) hk) w1.s1))) ∧ ((eyelet (sLvE (ey 3)) (hEye (src (thr (sLvE (ey 3))
      hk) w1.s1))).st = 3 ∨ ((eyelet (sLvE (ey 3)) (hEye (src (thr (sLvE (ey 3)) hk) w1.s1))).st = 1 ∨ (eyelet (sLvE
      (ey 3)) (hEye (src (thr (sLvE (ey 3)) hk) w1.s1))).st = 2) ∧ reached (eyelet (sLvE (ey 3)) (hEye (src (thr
      (sLvE (ey 3)) hk) w1.s1))).applied (((lace (sLvE (ey 3)) (eyelet (sLvE (ey 3)) (hEye (src (thr (sLvE (ey 3))
      hk) w1.s1))).lace).next + 2 ^ 48 - 1) % 2 ^ 48) = true)) ∧
    ((mkeys (sLvE (eyA 2)).threads = true) ∧ ((sLvE (eyA 2)).cur.keys = [hk]) ∧ (isCob hk = false) ∧ ((thr (sLvE
      (eyA 2)) hk).helper = false) ∧ (isHart hk = true) ∧ (0x3000 % 64 = 0 → recordHeld (sLvE (eyA 2)) hk (0x3000)
      64 = none) ∧ (bits (src (thr (sLvE (eyA 2)) hk) w1.s1) 63 28 = 0) ∧ ((eyelet (sLvE (eyA 2)) (hEye (src (thr
      (sLvE (eyA 2)) hk) w1.s1))).lace = hLace (src (thr (sLvE (eyA 2)) hk) w1.s1)) ∧ ((eyelet (sLvE (eyA 2)) (hEye
      (src (thr (sLvE (eyA 2)) hk) w1.s1))).part = partOf (sLvE (eyA 2)) hk) ∧ (∀ x ∈ (sLvE (eyA 2)).threads,
      x.2.wait ≠ Wait.lleave (hEye (src (thr (sLvE (eyA 2)) hk) w1.s1))) ∧ ((eyelet (sLvE (eyA 2)) (hEye (src (thr
      (sLvE (eyA 2)) hk) w1.s1))).st = 1 ∨ (eyelet (sLvE (eyA 2)) (hEye (src (thr (sLvE (eyA 2)) hk) w1.s1))).st =
      2) ∧ (reached (eyelet (sLvE (eyA 2)) (hEye (src (thr (sLvE (eyA 2)) hk) w1.s1))).applied (((lace (sLvE (eyA
      2)) (eyelet (sLvE (eyA 2)) (hEye (src (thr (sLvE (eyA 2)) hk) w1.s1))).lace).next + 2 ^ 48 - 1) % 2 ^ 48) =
      false)) ∧
    ((mkeys (sLvE (eyA 1)).threads = true) ∧ ((sLvE (eyA 1)).cur.keys = [hk]) ∧ (isCob hk = false) ∧ ((thr (sLvE
      (eyA 1)) hk).helper = false) ∧ (isHart hk = true) ∧ (0x3000 % 64 = 0 → recordHeld (sLvE (eyA 1)) hk (0x3000)
      64 = none) ∧ (bits (src (thr (sLvE (eyA 1)) hk) w1.s1) 63 28 = 0) ∧ ((eyelet (sLvE (eyA 1)) (hEye (src (thr
      (sLvE (eyA 1)) hk) w1.s1))).lace = hLace (src (thr (sLvE (eyA 1)) hk) w1.s1)) ∧ ((eyelet (sLvE (eyA 1)) (hEye
      (src (thr (sLvE (eyA 1)) hk) w1.s1))).part = partOf (sLvE (eyA 1)) hk) ∧ (∀ x ∈ (sLvE (eyA 1)).threads,
      x.2.wait ≠ Wait.lleave (hEye (src (thr (sLvE (eyA 1)) hk) w1.s1))) ∧ ((eyelet (sLvE (eyA 1)) (hEye (src (thr
      (sLvE (eyA 1)) hk) w1.s1))).st = 1 ∨ (eyelet (sLvE (eyA 1)) (hEye (src (thr (sLvE (eyA 1)) hk) w1.s1))).st =
      2) ∧ (reached (eyelet (sLvE (eyA 1)) (hEye (src (thr (sLvE (eyA 1)) hk) w1.s1))).applied (((lace (sLvE (eyA
      1)) (eyelet (sLvE (eyA 1)) (hEye (src (thr (sLvE (eyA 1)) hk) w1.s1))).lace).next + 2 ^ 48 - 1) % 2 ^ 48) =
      false)) ∧
    ((mkeys (sLvE (eyA 4)).threads = true) ∧ ((sLvE (eyA 4)).cur.keys = [hk]) ∧ (isCob hk = false) ∧ ((thr (sLvE
      (eyA 4)) hk).helper = false) ∧ (isHart hk = true) ∧ (0x3000 % 64 = 0 → recordHeld (sLvE (eyA 4)) hk (0x3000)
      64 = none) ∧ (bits (src (thr (sLvE (eyA 4)) hk) w1.s1) 63 28 = 0) ∧ ((eyelet (sLvE (eyA 4)) (hEye (src (thr
      (sLvE (eyA 4)) hk) w1.s1))).lace = hLace (src (thr (sLvE (eyA 4)) hk) w1.s1)) ∧ ((eyelet (sLvE (eyA 4)) (hEye
      (src (thr (sLvE (eyA 4)) hk) w1.s1))).part = partOf (sLvE (eyA 4)) hk) ∧ (∀ x ∈ (sLvE (eyA 4)).threads,
      x.2.wait ≠ Wait.lleave (hEye (src (thr (sLvE (eyA 4)) hk) w1.s1))) ∧ ((eyelet (sLvE (eyA 4)) (hEye (src (thr
      (sLvE (eyA 4)) hk) w1.s1))).st = 4) ∧ (reached (eyelet (sLvE (eyA 4)) (hEye (src (thr (sLvE (eyA 4)) hk)
      w1.s1))).applied (eyelet (sLvE (eyA 4)) (hEye (src (thr (sLvE (eyA 4)) hk) w1.s1))).upTo = false)) :=
  ⟨by decide +kernel,
   by decide +kernel,
   by decide +kernel,
   by decide +kernel,
   by decide +kernel,
   by decide +kernel⟩

/-- States and operands that meet the premises of `Obligations.LaceSteps`, each of its cases in turn. -/
theorem test_premises_LaceSteps :
    ((sLf.laced = [v4]) ∧ (v4.lace = 2) ∧ (laceReach 2 = 0 ∨ (lace sLf 2).open_ = false)) ∧
    ((v5.laced = [v4]) ∧ (v4.lace = 2) ∧ (laceReach 2 = 0 ∨ (lace v5 2).open_ = false)) ∧
    (({ turns := sSwC.turns, focus := sSwC.focus, cur := sSwC.cur, cycle := sSwC.cycle, us := sSwC.us, freeIdx := sSwC.freeIdx, nextId := sSwC.nextId, mem := sSwC.mem, stale := sSwC.stale, posted := sSwC.posted, resvs := sSwC.resvs, poison := sSwC.poison, pinned := sSwC.pinned, zeroTags := sSwC.zeroTags, l1 := sSwC.l1, rtbase := sSwC.rtbase, granules := sSwC.granules, partctl := sSwC.partctl, parts := sSwC.parts, harts := sSwC.harts, threads := sSwC.threads, held := sSwC.held, teams := sSwC.teams, cores := sSwC.cores, engines := sSwC.engines, copies := sSwC.copies, rowOps := sSwC.rowOps, transits := sSwC.transits, laced := sSwC.laced, eyelets := sSwC.eyelets, slices := sSwC.slices, tlb := sSwC.tlb, walkCache := sSwC.walkCache, walks := sSwC.walks, shoots := sSwC.shoots, msis := sSwC.msis, intPages := sSwC.intPages, mirqs := sSwC.mirqs, errLog := sSwC.errLog, invals := sSwC.invals, actCorr := sSwC.actCorr, actSatn := sSwC.actSatn, actThresh := sSwC.actThresh, rowCnt := sSwC.rowCnt, rowDue := sSwC.rowDue, weltsel := sSwC.weltsel, welts := sSwC.welts, windowUs := sSwC.windowUs, ports := sSwC.ports, eth := sSwC.eth, boot := sSwC.boot : State }.laced
      =
      [{ id := v4.id, lace := 16386, key := v4.key, tid := v4.tid, part := v4.part, asid := v4.asid, team := v4.team, serial := v4.serial, saves := v4.saves, kind := v4.kind, off := v4.off, data := v4.data, eye := v4.eye : LacedOp }])
      ∧
      ({ id := v4.id, lace := 16386, key := v4.key, tid := v4.tid, part := v4.part, asid := v4.asid, team := v4.team, serial := v4.serial, saves := v4.saves, kind := v4.kind, off := v4.off, data := v4.data, eye := v4.eye : LacedOp }.lace
      = 16386) ∧ (laceReach 16386 = 0 ∨ (lace
      { turns := sSwC.turns, focus := sSwC.focus, cur := sSwC.cur, cycle := sSwC.cycle, us := sSwC.us, freeIdx := sSwC.freeIdx, nextId := sSwC.nextId, mem := sSwC.mem, stale := sSwC.stale, posted := sSwC.posted, resvs := sSwC.resvs, poison := sSwC.poison, pinned := sSwC.pinned, zeroTags := sSwC.zeroTags, l1 := sSwC.l1, rtbase := sSwC.rtbase, granules := sSwC.granules, partctl := sSwC.partctl, parts := sSwC.parts, harts := sSwC.harts, threads := sSwC.threads, held := sSwC.held, teams := sSwC.teams, cores := sSwC.cores, engines := sSwC.engines, copies := sSwC.copies, rowOps := sSwC.rowOps, transits := sSwC.transits, laced := sSwC.laced, eyelets := sSwC.eyelets, slices := sSwC.slices, tlb := sSwC.tlb, walkCache := sSwC.walkCache, walks := sSwC.walks, shoots := sSwC.shoots, msis := sSwC.msis, intPages := sSwC.intPages, mirqs := sSwC.mirqs, errLog := sSwC.errLog, invals := sSwC.invals, actCorr := sSwC.actCorr, actSatn := sSwC.actSatn, actThresh := sSwC.actThresh, rowCnt := sSwC.rowCnt, rowDue := sSwC.rowDue, weltsel := sSwC.weltsel, welts := sSwC.welts, windowUs := sSwC.windowUs, ports := sSwC.ports, eth := sSwC.eth, boot := sSwC.boot : State }
      16386).open_ = false)) ∧
    ((sSwC.laced =
      [{ id := v4.id, lace := 16386, key := v4.key, tid := v4.tid, part := v4.part, asid := v4.asid, team := v4.team, serial := v4.serial, saves := v4.saves, kind := v4.kind, off := v4.off, data := v4.data, eye := v4.eye : LacedOp }])
      ∧
      ({ id := v4.id, lace := 16386, key := v4.key, tid := v4.tid, part := v4.part, asid := v4.asid, team := v4.team, serial := v4.serial, saves := v4.saves, kind := v4.kind, off := v4.off, data := v4.data, eye := v4.eye : LacedOp }.lace
      = 16386) ∧ (laceReach 16386 ≠ 0) ∧ ((lace sSwC 16386).open_ = true)) ∧
    ((mkeys (sEy 10 0).threads = true) ∧ (LaceWaitsStand (sEy 10 0)) ∧ (windowPa (eyelet (sEy 10 0) 5) (lo 0 d8).off
      = some 65600) ∧ (List.find? (fun x => match x with | (st, snd) => decide (st = 10)) (lace (sEy 10 0) (eyelet
      (sEy 10 0) 5).lace).history = some (10, lo 0 d8)) ∧ ((eyelet (sEy 10 0) 5).st = 2) ∧ ((eyelet (sEy 10 0)
      5).buf = []) ∧ ((eyelet (sEy 10 0) 5).drop = none) ∧ ((eyelet (sEy 10 0) 5).applied < 2 ^ 48) ∧ (10 < 2 ^ 48)
      ∧ ((lo 0 d8).kind = 1 → (lo 0 d8).data.length = 8) ∧ (10 = ((eyelet (sEy 10 0) 5).applied + 1) % 2 ^ 48) ∧
      (postClear (sEy 10 0) (bolcelDie (eyelet (sEy 10 0) 5).port) 65600 (lo 0 d8).data.length = true) ∧ (poisoned
      (sEy 10 0) 65600 (lo 0 d8).data.length = false)) ∧
    ((mkeys (sEy 10 1).threads = true) ∧ (LaceWaitsStand (sEy 10 1)) ∧ (windowPa (eyelet (sEy 10 1) 5) (lo 1 d8).off
      = some 65600) ∧ (List.find? (fun x => match x with | (st, snd) => decide (st = 10)) (lace (sEy 10 1) (eyelet
      (sEy 10 1) 5).lace).history = some (10, lo 1 d8)) ∧ ((eyelet (sEy 10 1) 5).st = 2) ∧ ((eyelet (sEy 10 1)
      5).buf = []) ∧ ((eyelet (sEy 10 1) 5).drop = none) ∧ ((eyelet (sEy 10 1) 5).applied < 2 ^ 48) ∧ (10 < 2 ^ 48)
      ∧ ((lo 1 d8).kind = 1 → (lo 1 d8).data.length = 8) ∧ (10 = ((eyelet (sEy 10 1) 5).applied + 1) % 2 ^ 48) ∧
      (postClear (sEy 10 1) (bolcelDie (eyelet (sEy 10 1) 5).port) 65600 (lo 1 d8).data.length = true) ∧ (poisoned
      (sEy 10 1) 65600 (lo 1 d8).data.length = false)) ∧
    ((mkeys (sEy 10 2).threads = true) ∧ (LaceWaitsStand (sEy 10 2)) ∧ (windowPa (eyelet (sEy 10 2) 5) (lo 2 d8).off
      = some 65600) ∧ (List.find? (fun x => match x with | (st, snd) => decide (st = 10)) (lace (sEy 10 2) (eyelet
      (sEy 10 2) 5).lace).history = some (10, lo 2 d8)) ∧ ((eyelet (sEy 10 2) 5).st = 2) ∧ ((eyelet (sEy 10 2)
      5).buf = []) ∧ ((eyelet (sEy 10 2) 5).drop = none) ∧ ((eyelet (sEy 10 2) 5).applied < 2 ^ 48) ∧ (10 < 2 ^ 48)
      ∧ ((lo 2 d8).kind = 1 → (lo 2 d8).data.length = 8) ∧ (10 = ((eyelet (sEy 10 2) 5).applied + 1) % 2 ^ 48) ∧
      (postClear (sEy 10 2) (bolcelDie (eyelet (sEy 10 2) 5).port) 65600 (lo 2 d8).data.length = true) ∧ (poisoned
      (sEy 10 2) 65600 (lo 2 d8).data.length = false)) ∧
    ((mkeys (sEy 73 2).threads = true) ∧ (LaceWaitsStand (sEy 73 2)) ∧ (windowPa (eyelet (sEy 73 2) 5) (lo 2 d8).off
      = some 65600) ∧ (List.find? (fun x => match x with | (st, snd) => decide (st = 73)) (lace (sEy 73 2) (eyelet
      (sEy 73 2) 5).lace).history = some (73, lo 2 d8)) ∧ ((eyelet (sEy 73 2) 5).st = 2) ∧ ((eyelet (sEy 73 2)
      5).buf = []) ∧ ((eyelet (sEy 73 2) 5).drop = none) ∧ ((eyelet (sEy 73 2) 5).applied < 2 ^ 48) ∧ (73 < 2 ^ 48)
      ∧ ((lo 2 d8).kind = 1 → (lo 2 d8).data.length = 8) ∧ (0 < (73 + 2 ^ 48 - ((eyelet (sEy 73 2) 5).applied + 1) %
      2 ^ 48) % 2 ^ 48) ∧ ((73 + 2 ^ 48 - ((eyelet (sEy 73 2) 5).applied + 1) % 2 ^ 48) % 2 ^ 48 < 64)) ∧
    ((mkeys (sEy 9 2).threads = true) ∧ (LaceWaitsStand (sEy 9 2)) ∧ (windowPa (eyelet (sEy 9 2) 5) (lo 2 d8).off =
      some 65600) ∧ (List.find? (fun x => match x with | (st, snd) => decide (st = 9)) (lace (sEy 9 2) (eyelet (sEy
      9 2) 5).lace).history = some (9, lo 2 d8)) ∧ ((eyelet (sEy 9 2) 5).st = 2) ∧ ((eyelet (sEy 9 2) 5).buf = []) ∧
      ((eyelet (sEy 9 2) 5).drop = none) ∧ ((eyelet (sEy 9 2) 5).applied < 2 ^ 48) ∧ (9 < 2 ^ 48) ∧ ((lo 2 d8).kind
      = 1 → (lo 2 d8).data.length = 8) ∧ (2 ^ 47 ≤ (9 + 2 ^ 48 - ((eyelet (sEy 9 2) 5).applied + 1) % 2 ^ 48) % 2 ^
      48)) ∧
    (((eyelet (sGp 10) 5).gapUs = some 4) ∧ (4 + 2 + 4 * (eyelet (sGp 10) 5).asked ≤ (sGp 10).us)) ∧
    (((eyelet (sGp 9) 5).gapUs = some 4) ∧ ((sGp 9).us < 4 + 2 + 4 * (eyelet (sGp 9) 5).asked)) ∧
    (((eyelet (sGp 24) 5).gapUs = some 4) ∧ (4 + 20 ≤ (sGp 24).us) ∧ ((eyelet (sGp 24) 5).st = 2)) ∧
    (((eyelet (sGp 23) 5).gapUs = some 4) ∧ ((sGp 23).us < 4 + 20)) ∧
    (((eyelet v6 5).st = 2) ∧ (∃ a ∈ (eyelet v6 5).pages, poisoned v6 a 4096 = true)) ∧
    ((mkeys sSw.eyelets = true) ∧ (laceReach 16386 = 1 ∨ laceReach 16386 = 2) ∧ ((lace sSw 16386).open_ = true) ∧ (∀
      x ∈ sSw.eyelets, x.2.lace = 16386 → ∀ a ∈ x.2.pages, lineHeld sSw hwKey a 4096 = false)) :=
  ⟨by decide +kernel,
   by decide +kernel,
   by decide +kernel,
   by decide +kernel,
   ⟨by decide +kernel, stands_of (by decide +kernel), by decide +kernel, by decide +kernel, by decide +kernel, by decide +kernel, by decide +kernel, by decide +kernel, by decide +kernel, by decide +kernel, by decide +kernel, by decide +kernel, by decide +kernel⟩,
   ⟨by decide +kernel, stands_of (by decide +kernel), by decide +kernel, by decide +kernel, by decide +kernel, by decide +kernel, by decide +kernel, by decide +kernel, by decide +kernel, by decide +kernel, by decide +kernel, by decide +kernel, by decide +kernel⟩,
   ⟨by decide +kernel, stands_of (by decide +kernel), by decide +kernel, by decide +kernel, by decide +kernel, by decide +kernel, by decide +kernel, by decide +kernel, by decide +kernel, by decide +kernel, by decide +kernel, by decide +kernel, by decide +kernel⟩,
   ⟨by decide +kernel, stands_of (by decide +kernel), by decide +kernel, by decide +kernel, by decide +kernel, by decide +kernel, by decide +kernel, by decide +kernel, by decide +kernel, by decide +kernel, by decide +kernel, by decide +kernel⟩,
   ⟨by decide +kernel, stands_of (by decide +kernel), by decide +kernel, by decide +kernel, by decide +kernel, by decide +kernel, by decide +kernel, by decide +kernel, by decide +kernel, by decide +kernel, by decide +kernel⟩,
   by decide +kernel,
   by decide +kernel,
   by decide +kernel,
   by decide +kernel,
   by decide +kernel,
   by decide +kernel⟩
end Sys2Proof.Tests.Lace

/-! Cobbler cores. -/

namespace Sys2Proof.Tests.Cob

open Sys2Proof.Machine

def w1 : Wide := wd 10 11 12 13

def putW (s : State) (a : Nat) (l : List Word) : State := (l.zipIdx).foldl (fun s (v, i) => wrWord s (a + 8 * i) v)
  s

def te (a b c : Word) : Thread := { th0 with x := [(11, a), (12, b), (13, c)] }

def pC : Partition := { p1 with cs := 1 }

def sH (l : List Word) : State :=
  { putW (putW (onHart h1 (te 0x3000 0 0)) 0x4000 [64-0x18, 0, 0, 2]) 0x3000 l with parts := [(1, pC)], tlb := [{ tlb1 with cache := 0x1001 }] }

def crec (fl : Word) : List Word := [0x4000, 64 + 512 * 2 ^ 32, satp1, 0x40_0000 + 21, 0x40_0000, 1, fl, 0x6000 + 4]

def fl0 : Word := w64 (8 * 2 ^ 28 + 1 * 2 ^ 6)

def v1 := onHart h1 (te 0x3001 0 0)

def sUn : State :=
  { sH (crec (fl0 + w64 (2 ^ 26))) with slices := [(0, { sets := [(0, cobRecordOf (sH (crec fl0)) 1 (crec fl0))] })] }

def cx1 : Ctx := { part := 1, satp := satp1, user := true, cache := 0x1001, adue := false }

def cb : CobBind := { cobRecordOf (sH (crec fl0)) 1 (crec fl0) with even := 15 }

def sEv (q : List CobEvent) : State :=
  { onSimt (te 0x40_0000 7 8) with slices := [(0, { sets := [(0, cb)], queue := q })] }

def e0 (c : Nat) : CobEvent := { set := 0, code := c, pa := 0x40_0000, a1 := 0x40_0000, a2 := 1, a3 := 2, a4 := 3 }

def tU := (cbindRecord sUn hk 0x3000).2

def tB := (cbindRecord (sH (crec fl0)) hk 0x3000).2

def v2 := sEv (List.replicate 64 (e0 0))

def sPl : State := onSimt (te 0x40_0000 7 8)

def sFl := sEv (List.replicate 64 (e0 0))

def iv (c : Nat) (h : List (Nat × SMap Byte)) (cy : Nat) : Invocation :=
  { ev := e0 c, cycles := cy, held := h, lines := h.map (·.1), fwd := false, entry := 0 }

def sRn (c : Nat) (h : List (Nat × SMap Byte)) (cy : Nat) (a : Word) : State :=
  { base with threads := [(0x20_0000, te a 0 0)], slices := [(0, { sets := [(0, cb)], run := some (iv c h cy) })], cur := { keys := [0x20_0000], pc := 0x400, bits := 0x3F, len := 8 } }

def v3 := sRn 1 [(0x40_0000 / 64, [(3, 0x77)])] 5 0x40_0000

def v4 := iv 1 [(0x40_0000 / 64, [(3, 0x77)])] 5

def v5 := sRn 1 [(0x40_0000 / 64, [(3, 0x77)])] 512 0

def v6 := iv 1 [(0x40_0000 / 64, [(3, 0x77)])] 512

def sBf := putW (sRn 1 [(0x40_0000 / 64, [(3, 0x77)])] 512 0) 0x6008 [16]

def sCs : State := { sRn 1 [] 5 0x40 with threads := [(0x20_0000, te 0x40 0x1234 0)] }

def hl2 : List (Nat × SMap Byte) := [(0x40_0000 / 64, [(3, 0x77), (4, 0x78)]), (0x40_0040 / 64, [(0, 0x79)])]

/-- States and operands that meet the premises of `Obligations.Cobblers`, each of its cases in turn. -/
theorem test_premises_Cobblers :
    ((v1.cur.keys = [hk]) ∧ (isHart hk = true) ∧ (BitVec.toNat (src (thr v1 hk) w1.s1) % 64 = 0 → cbindHeld v1 hk
      (BitVec.toNat (src (thr v1 hk) w1.s1)) = none) ∧ (cbindRecord v1 hk (BitVec.toNat (src (thr v1 hk) w1.s1)) =
      (8, v1)) ∧ (v1.threads = v1.threads)) ∧
    ((isHart hk = true) ∧ (∀ x ∈ v1.threads, ∀ (r : Room), x.2.wait ≠ Wait.room r) ∧ (¬(12289 % 64 = 0 ∧ inRanges v1
      (partOf v1 hk) 12289 64 = true))) ∧
    ((isHart hk = true) ∧ (∀ x ∈ sUn.threads, ∀ (r : Room), x.2.wait ≠ Wait.room r) ∧ (12288 % 64 = 0 ∧ inRanges sUn
      (partOf sUn hk) 12288 64 = true) ∧ (bit (dw (rdWords sUn 12288 8) 6) 26 = true) ∧ (cobSlices (rdWords sUn
      12288 8) ≠ []) ∧ ((part sUn (partOf sUn hk)).cs.testBit (16 * bits (dw (rdWords sUn 12288 8) 6) 37 36 + bits
      (dw (rdWords sUn 12288 8) 6) 35 32) = true)) ∧
    ((isHart hk = true) ∧ (∀ x ∈ (sH (crec fl0)).threads, ∀ (r : Room), x.2.wait ≠ Wait.room r) ∧ (12288 % 64 = 0 ∧
      inRanges (sH (crec fl0)) (partOf (sH (crec fl0)) hk) 12288 64 = true) ∧ (bit (dw (rdWords (sH (crec fl0))
      12288 8) 6) 26 = false) ∧ (inRanges (sH (crec fl0)) (partOf (sH (crec fl0)) hk) (bits (dw (rdWords (sH (crec
      fl0)) 12288 8) 0) 63 6 * 64) (bits (dw (rdWords (sH (crec fl0)) 12288 8) 1) 15 0) = true) ∧ (inRanges (sH
      (crec fl0)) (partOf (sH (crec fl0)) hk) (cobRecordOf (sH (crec fl0)) (partOf (sH (crec fl0)) hk) (rdWords (sH
      (crec fl0)) 12288 8)).fq (64 + 32 * 2 ^ (cobRecordOf (sH (crec fl0)) (partOf (sH (crec fl0)) hk) (rdWords (sH
      (crec fl0)) 12288 8)).fqsize) = true) ∧ (cobBad (rdWords (sH (crec fl0)) 12288 8) (cobRecordOf (sH (crec fl0))
      (partOf (sH (crec fl0)) hk) (rdWords (sH (crec fl0)) 12288 8)) = false) ∧ (cobSlices (rdWords (sH (crec fl0))
      12288 8) ≠ []) ∧ ((part (sH (crec fl0)) (partOf (sH (crec fl0)) hk)).cs.testBit (16 * bits (dw (rdWords (sH
      (crec fl0)) 12288 8) 6) 37 36 + bits (dw (rdWords (sH (crec fl0)) 12288 8) 6) 35 32) = true) ∧ (∀ x ∈
      cobSlices (rdWords (sH (crec fl0)) 12288 8), ∀ (o : CobBind), binding? (slice (sH (crec fl0)) x) (bits (dw
      (rdWords (sH (crec fl0)) 12288 8) 6) 35 32) = some o → o.satp = (cobRecordOf (sH (crec fl0)) (partOf (sH (crec
      fl0)) hk) (rdWords (sH (crec fl0)) 12288 8)).satp) ∧ (imageBad (cobRecordOf (sH (crec fl0)) (partOf (sH (crec
      fl0)) hk) (rdWords (sH (crec fl0)) 12288 8)) = false) ∧ (pairedPages
      { part := partOf (sH (crec fl0)) hk, satp := (cobRecordOf (sH (crec fl0)) (partOf (sH (crec fl0)) hk) (rdWords (sH (crec fl0)) 12288 8)).satp, user := true, cache := 4096 + (hk - 1048576), adue := (part (sH (crec fl0)) (partOf (sH (crec fl0)) hk)).adue : Ctx }
      (cobRecordOf (sH (crec fl0)) (partOf (sH (crec fl0)) hk) (rdWords (sH (crec fl0)) 12288 8)) (List.range (2 ^
      ((cobRecordOf (sH (crec fl0)) (partOf (sH (crec fl0)) hk) (rdWords (sH (crec fl0)) 12288 8)).wsize - 12))) (sH
      (crec fl0)) = (true, (pairedPages cx1 (cobRecordOf (sH (crec fl0)) 1 (crec fl0)) (List.range 512) (sH (crec
      fl0))).2)) ∧ (∀ x ∈ cobSlices (rdWords (sH (crec fl0)) 12288 8), regionClash (pairedPages cx1 (cobRecordOf (sH
      (crec fl0)) 1 (crec fl0)) (List.range 512) (sH (crec fl0))).2 (bits (dw (rdWords (sH (crec fl0)) 12288 8) 6)
      35 32) x (cobRecordOf (sH (crec fl0)) (partOf (sH (crec fl0)) hk) (rdWords (sH (crec fl0)) 12288 8)) = false)) ∧
    (((Instr.missEvent 4194304, 0, (0 : Word)) ∈ [(Instr.missEvent 4194304, 0, (0 : Word)), (Instr.fillEvent
      4194304, 1, (0 : Word)), (Instr.evictionEvent 4194304 false, 2, w64 (b2n false))]) ∧ (0 ≠ 2 → mayBeAbsent base
      4194304 = true) ∧ (0 = 2 → lineHeld base hwKey ((4194304 / 64 : ℕ) * 64) 64 = false ∧ (4194304 / 64 : ℕ) ∉
      base.pinned) ∧ (raising (slice base (homeSlice base 4194304)) 0 ((4194304 / 64 : ℕ) * 64) = [])) ∧
    (((Instr.missEvent 4194312, 0, (0 : Word)) ∈ [(Instr.missEvent 4194312, 0, (0 : Word)), (Instr.fillEvent
      4194312, 1, (0 : Word)), (Instr.evictionEvent 4194312 false, 2, w64 (b2n false))]) ∧ (0 ≠ 2 → mayBeAbsent (sEv
      []) 4194312 = true) ∧ (0 = 2 → lineHeld (sEv []) hwKey ((4194312 / 64 : ℕ) * 64) 64 = false ∧ (4194312 / 64 :
      ℕ) ∉ (sEv []).pinned) ∧ (raising (slice (sEv []) (homeSlice (sEv []) 4194312)) 0 ((4194312 / 64 : ℕ) * 64) =
      [(0, cb)]) ∧ ((slice (sEv []) (homeSlice (sEv []) 4194312)).queue.length < 64)) ∧
    (((Instr.fillEvent 4194312, 1, (0 : Word)) ∈ [(Instr.missEvent 4194312, 0, (0 : Word)), (Instr.fillEvent
      4194312, 1, (0 : Word)), (Instr.evictionEvent 4194312 false, 2, w64 (b2n false))]) ∧ (1 ≠ 2 → mayBeAbsent (sEv
      []) 4194312 = true) ∧ (1 = 2 → lineHeld (sEv []) hwKey ((4194312 / 64 : ℕ) * 64) 64 = false ∧ (4194312 / 64 :
      ℕ) ∉ (sEv []).pinned) ∧ (raising (slice (sEv []) (homeSlice (sEv []) 4194312)) 1 ((4194312 / 64 : ℕ) * 64) =
      [(0, cb)]) ∧ ((slice (sEv []) (homeSlice (sEv []) 4194312)).queue.length < 64)) ∧
    (((Instr.evictionEvent 4194312 true, 2, (1 : Word)) ∈ [(Instr.missEvent 4194312, 0, (0 : Word)),
      (Instr.fillEvent 4194312, 1, (0 : Word)), (Instr.evictionEvent 4194312 true, 2, w64 (b2n true))]) ∧ (2 ≠ 2 →
      mayBeAbsent (sEv []) 4194312 = true) ∧ (2 = 2 → lineHeld (sEv []) hwKey ((4194312 / 64 : ℕ) * 64) 64 = false ∧
      (4194312 / 64 : ℕ) ∉ (sEv []).pinned) ∧ (raising (slice (sEv []) (homeSlice (sEv []) 4194312)) 2 ((4194312 /
      64 : ℕ) * 64) = [(0, cb)]) ∧ ((slice (sEv []) (homeSlice (sEv []) 4194312)).queue.length < 64)) ∧
    (((Instr.evictionEvent 4194312 true, 2, (1 : Word)) ∈ [(Instr.missEvent 4194312, 0, (0 : Word)),
      (Instr.fillEvent 4194312, 1, (0 : Word)), (Instr.evictionEvent 4194312 true, 2, w64 (b2n true))]) ∧ (2 ≠ 2 →
      mayBeAbsent v2 4194312 = true) ∧ (2 = 2 → lineHeld v2 hwKey ((4194312 / 64 : ℕ) * 64) 64 = false ∧ (4194312 /
      64 : ℕ) ∉ v2.pinned) ∧ (raising (slice v2 (homeSlice v2 4194312)) 2 ((4194312 / 64 : ℕ) * 64) = [(0, cb)]) ∧
      (64 ≤ (slice v2 (homeSlice v2 4194312)).queue.length) ∧ (postClear v2 (homeSlice v2 4194312 / 64) (cb.fq + 24)
      8 = true) ∧ (poisoned v2 (cb.fq + 24) 8 = false)) ∧
    ((sPl.cur.keys = [0]) ∧ (isCob 0 = false) ∧ ((thr sPl 0).helper = false) ∧ (BitVec.toNat (src (thr sPl 0) w1.s1)
      % 8 = 0) ∧ (xlatWaits sPl (ctxOf sPl 0 Acc.load) (src (thr sPl 0) w1.s1) Acc.load = false) ∧
      (Machine.translate sPl (ctxOf sPl 0 Acc.load) (src (thr sPl 0) w1.s1) Acc.load = (Except.ok (4194304, (1 :
      Word)), (Machine.translate sPl (ctxOf sPl 0 Acc.load) (4194304 : Word) Acc.load).2)) ∧ (bits (1 : Word) 3 2 ≠
      3) ∧ (inRanges (Machine.translate sPl (ctxOf sPl 0 Acc.load) (4194304 : Word) Acc.load).2 (partOf sPl 0)
      4194304 8 = true) ∧ (homeOpen (Machine.translate sPl (ctxOf sPl 0 Acc.load) (4194304 : Word) Acc.load).2
      (agentDie 0) 4194304 = true) ∧ (List.find?
      (fun x => match x with | (i, b) => decide (i = w1.imm11.toNat % 16) && decide (b.satp = satpOf sPl 0) && decide (b.part = partOf sPl 0))
      (raising (slice (Machine.translate sPl (ctxOf sPl 0 Acc.load) (4194304 : Word) Acc.load).2 (homeSlice
      (Machine.translate sPl (ctxOf sPl 0 Acc.load) (4194304 : Word) Acc.load).2 4194304)) 3 4194304) = none)) ∧
    (((sEv []).cur.keys = [0]) ∧ (isCob 0 = false) ∧ ((thr (sEv []) 0).helper = false) ∧ (BitVec.toNat (src (thr
      (sEv []) 0) w1.s1) % 8 = 0) ∧ (xlatWaits (sEv []) (ctxOf (sEv []) 0 Acc.load) (src (thr (sEv []) 0) w1.s1)
      Acc.load = false) ∧ (Machine.translate (sEv []) (ctxOf (sEv []) 0 Acc.load) (src (thr (sEv []) 0) w1.s1)
      Acc.load = (Except.ok (4194304, (1 : Word)), (Machine.translate (sEv []) (ctxOf (sEv []) 0 Acc.load) (4194304
      : Word) Acc.load).2)) ∧ (bits (1 : Word) 3 2 ≠ 3) ∧ (inRanges (Machine.translate (sEv []) (ctxOf (sEv []) 0
      Acc.load) (4194304 : Word) Acc.load).2 (partOf (sEv []) 0) 4194304 8 = true) ∧ (homeOpen (Machine.translate
      (sEv []) (ctxOf (sEv []) 0 Acc.load) (4194304 : Word) Acc.load).2 (agentDie 0) 4194304 = true) ∧ (List.find?
      (fun x => match x with | (i, b) => decide (i = w1.imm11.toNat % 16) && decide (b.satp = satpOf (sEv []) 0) && decide (b.part = partOf (sEv []) 0))
      (raising (slice (Machine.translate (sEv []) (ctxOf (sEv []) 0 Acc.load) (4194304 : Word) Acc.load).2
      (homeSlice (Machine.translate (sEv []) (ctxOf (sEv []) 0 Acc.load) (4194304 : Word) Acc.load).2 4194304)) 3
      4194304) = some (0, cb)) ∧ ((slice (Machine.translate (sEv []) (ctxOf (sEv []) 0 Acc.load) (4194304 : Word)
      Acc.load).2 (homeSlice (Machine.translate (sEv []) (ctxOf (sEv []) 0 Acc.load) (4194304 : Word) Acc.load).2
      4194304)).queue.length < 64)) ∧
    ((sFl.cur.keys = [0]) ∧ (isCob 0 = false) ∧ ((thr sFl 0).helper = false) ∧ (BitVec.toNat (src (thr sFl 0) w1.s1)
      % 8 = 0) ∧ (xlatWaits sFl (ctxOf sFl 0 Acc.load) (src (thr sFl 0) w1.s1) Acc.load = false) ∧
      (Machine.translate sFl (ctxOf sFl 0 Acc.load) (src (thr sFl 0) w1.s1) Acc.load = (Except.ok (4194304, (1 :
      Word)), (Machine.translate sFl (ctxOf sFl 0 Acc.load) (4194304 : Word) Acc.load).2)) ∧ (bits (1 : Word) 3 2 ≠
      3) ∧ (inRanges (Machine.translate sFl (ctxOf sFl 0 Acc.load) (4194304 : Word) Acc.load).2 (partOf sFl 0)
      4194304 8 = true) ∧ (homeOpen (Machine.translate sFl (ctxOf sFl 0 Acc.load) (4194304 : Word) Acc.load).2
      (agentDie 0) 4194304 = true) ∧ (List.find?
      (fun x => match x with | (i, b) => decide (i = w1.imm11.toNat % 16) && decide (b.satp = satpOf sFl 0) && decide (b.part = partOf sFl 0))
      (raising (slice (Machine.translate sFl (ctxOf sFl 0 Acc.load) (4194304 : Word) Acc.load).2 (homeSlice
      (Machine.translate sFl (ctxOf sFl 0 Acc.load) (4194304 : Word) Acc.load).2 4194304)) 3 4194304) = some (0,
      cb)) ∧ (64 ≤ (slice (Machine.translate sFl (ctxOf sFl 0 Acc.load) (4194304 : Word) Acc.load).2 (homeSlice
      (Machine.translate sFl (ctxOf sFl 0 Acc.load) (4194304 : Word) Acc.load).2 4194304)).queue.length) ∧ (isSimt 0
      = true)) ∧
    (((slice (sEv [e0 2, e0 1]) 0).run = none) ∧ ((slice (sEv [e0 2, e0 1]) 0).queue = [e0 2, e0 1]) ∧ (binding?
      (slice (sEv [e0 2, e0 1]) 0) (e0 2).set = some cb)) ∧
    ((v3.cur.keys = [cobKey 0]) ∧ (cobKey 0 - 2097152 = 0) ∧ (running? v3 0 = some (v4, cb)) ∧ (BitVec.toNat (src
      (thr v3 (cobKey 0)) w1.s1) = 0 ∨ cb.vabase ≤ BitVec.toNat (src (thr v3 (cobKey 0)) w1.s1) ∧ BitVec.toNat (src
      (thr v3 (cobKey 0)) w1.s1) < cb.vabase + 2 ^ cb.wsize)) ∧
    (((sRn 1 [] 5 (0 : Word)).cur.keys = [cobKey 0]) ∧ (cobKey 0 - 2097152 = 0) ∧ (running? (sRn 1 [] 5 (0 : Word))
      0 = some (iv 1 [] 5, cb)) ∧ (BitVec.toNat (src (thr (sRn 1 [] 5 (0 : Word)) (cobKey 0)) w1.s1) = 0 ∨ cb.vabase
      ≤ BitVec.toNat (src (thr (sRn 1 [] 5 (0 : Word)) (cobKey 0)) w1.s1) ∧ BitVec.toNat (src (thr (sRn 1 [] 5 (0 :
      Word)) (cobKey 0)) w1.s1) < cb.vabase + 2 ^ cb.wsize)) ∧
    ((v3.cur.keys = [cobKey 0]) ∧ (cobKey 0 - 2097152 = 0) ∧ (running? v3 0 = some (v4, cb)) ∧ (v4.ev.code = 1) ∧
      (v4.fwd = false)) ∧
    (((sRn 0 [] 5 (0 : Word)).cur.keys = [cobKey 0]) ∧ (cobKey 0 - 2097152 = 0) ∧ (running? (sRn 0 [] 5 (0 : Word))
      0 = some (iv 0 [] 5, cb)) ∧ ((iv 0 [] 5).ev.code ≠ 1 ∨ (iv 0 [] 5).fwd = true)) ∧
    ((running? v5 0 = some (v6, cb)) ∧ ((if cb.budget = 0 then 512 else cb.budget) ≤ v6.cycles) ∧ (v6.ev.code < 4) ∧
      (v6.ev.set < 16) ∧ (0 < 256) ∧ (postClear v5 (0 / 64 : ℕ) cb.fq 64 = true) ∧ (poisoned v5 cb.fq 64 = false) ∧
      (postClear v5 (0 / 64 : ℕ) (cb.fq + 64 + 32 * (BitVec.toNat (rdWord v5 (cb.fq + 8)) % 2 ^ cb.fqsize)) 32 =
      true) ∧ (poisoned v5 (cb.fq + 64 + 32 * (BitVec.toNat (rdWord v5 (cb.fq + 8)) % 2 ^ cb.fqsize)) 32 = false)) ∧
    ((running? sBf 0 = some (v6, cb)) ∧ ((if cb.budget = 0 then 512 else cb.budget) ≤ v6.cycles) ∧ (v6.ev.code < 4)
      ∧ (v6.ev.set < 16) ∧ (0 < 256) ∧ (postClear sBf (0 / 64 : ℕ) cb.fq 64 = true) ∧ (poisoned sBf cb.fq 64 =
      false) ∧ (postClear sBf (0 / 64 : ℕ) (cb.fq + 64 + 32 * (BitVec.toNat (rdWord sBf (cb.fq + 8)) % 2 ^
      cb.fqsize)) 32 = true) ∧ (poisoned sBf (cb.fq + 64 + 32 * (BitVec.toNat (rdWord sBf (cb.fq + 8)) % 2 ^
      cb.fqsize)) 32 = false)) ∧
    (((sRn 1 hl2 5 (7340032 : Word)).cur.keys = [cobKey 0]) ∧ (cobKey 0 - 2097152 = 0) ∧ (running? (sRn 1 hl2 5
      (7340032 : Word)) 0 = some (iv 1 hl2 5, cb)) ∧ (¬(BitVec.toNat (src (thr (sRn 1 hl2 5 (7340032 : Word))
      (cobKey 0)) w1.s1) = 0 ∨ cb.vabase ≤ BitVec.toNat (src (thr (sRn 1 hl2 5 (7340032 : Word)) (cobKey 0)) w1.s1)
      ∧ BitVec.toNat (src (thr (sRn 1 hl2 5 (7340032 : Word)) (cobKey 0)) w1.s1) < cb.vabase + 2 ^ cb.wsize))) ∧
    (((sRn 1 hl2 5 (0 : Word)).cur.keys = [cobKey 0]) ∧ (cobKey 0 - 2097152 = 0) ∧ (running? (sRn 1 hl2 5 (0 :
      Word)) 0 = some (iv 1 hl2 5, cb)) ∧ (BitVec.toNat (src (thr (sRn 1 hl2 5 (0 : Word)) (cobKey 0)) w1.s1) = 0 ∨
      cb.vabase ≤ BitVec.toNat (src (thr (sRn 1 hl2 5 (0 : Word)) (cobKey 0)) w1.s1) ∧ BitVec.toNat (src (thr (sRn 1
      hl2 5 (0 : Word)) (cobKey 0)) w1.s1) < cb.vabase + 2 ^ cb.wsize)) ∧
    (((sRn 1 hl2 5 (0 : Word)).cur.keys = [cobKey 0]) ∧ (cobKey 0 - 2097152 = 0) ∧ (running? (sRn 1 hl2 5 (0 :
      Word)) 0 = some (iv 1 hl2 5, cb)) ∧ ((iv 1 hl2 5).ev.code = 1) ∧ ((iv 1 hl2 5).fwd = false)) :=
  ⟨by decide +kernel,
   ⟨by decide +kernel, noRoom_of (by decide +kernel), by decide +kernel⟩,
   ⟨by decide +kernel, noRoom_of (by decide +kernel), by decide +kernel, by decide +kernel, by decide +kernel, by decide +kernel⟩,
   ⟨by decide +kernel, noRoom_of (by decide +kernel), by decide +kernel, by decide +kernel, by decide +kernel, by decide +kernel, by decide +kernel, by decide +kernel, by decide +kernel, by decide +kernel, by decide +kernel, by decide +kernel, by decide +kernel⟩,
   by decide +kernel,
   by decide +kernel,
   by decide +kernel,
   by decide +kernel,
   by decide +kernel,
   by decide +kernel,
   by decide +kernel,
   by decide +kernel,
   by decide +kernel,
   by decide +kernel,
   by decide +kernel,
   by decide +kernel,
   by decide +kernel,
   by decide +kernel,
   by decide +kernel,
   by decide +kernel,
   by decide +kernel,
   by decide +kernel⟩

/-- States and operands that meet the premises of `Obligations.StandardResults`, each of its cases in turn. -/
theorem test_premises_StandardResults_cobbler :
    ((sCs.cur.keys = [2097152]) ∧ (isCob 2097152 = true) ∧ (loadKind LoadOp.lh = OpKind.load 2 true false) ∧
      (loadFloat LoadOp.lh = false) ∧ (cobAccess sCs (2097152 - 2097152) (getReg (thr sCs 2097152) (BitVec.toNat (11
      : BitVec 5)) + BitVec.signExtend 64 (0 : BitVec 12)) 2 false [] = (CobRes.ok
      (match (cobAccess sCs 0 (64 : Word) 2 false []).1 with | CobRes.ok b cyc => b | x => [])
      (match (cobAccess sCs 0 (64 : Word) 2 false []).1 with | CobRes.ok bs b => b | x => 0), (cobAccess sCs 0 (64 :
      Word) 2 false []).2)) ∧
      ((match (cobAccess sCs 0 (64 : Word) 2 false []).1 with | CobRes.ok bs b => b | x => 0) = 0 ∨ ∀ (r :
      Invocation) (b : CobBind), running? (cobAccess sCs 0 (64 : Word) 2 false []).2 (2097152 - 2097152) = some (r,
      b) → (r.cycles + match (cobAccess sCs 0 (64 : Word) 2 false []).1 with | CobRes.ok bs b => b | x => 0) < if
      b.budget = 0 then 512 else b.budget)) ∧
    ((sCs.cur.keys = [2097152]) ∧ (isCob 2097152 = true) ∧ (storeFloat StoreOp.sh = false) ∧ (cobAccess sCs (2097152
      - 2097152) (getReg (thr sCs 2097152) (BitVec.toNat (11 : BitVec 5)) + BitVec.signExtend 64 (0 : BitVec 12))
      (storeBytes StoreOp.sh) true (toBytes (storeBytes StoreOp.sh) (BitVec.toNat (getReg (thr sCs 2097152)
      (BitVec.toNat (12 : BitVec 5))))) = (CobRes.ok
      (match (cobAccess sCs 0 (64 : Word) 2 true [(52 : Byte), (18 : Byte)]).1 with | CobRes.ok b cyc => b | x => [])
      (match (cobAccess sCs 0 (64 : Word) 2 true [(52 : Byte), (18 : Byte)]).1 with | CobRes.ok bs b => b | x => 0),
      (cobAccess sCs 0 (64 : Word) 2 true [(52 : Byte), (18 : Byte)]).2)) ∧
      ((match (cobAccess sCs 0 (64 : Word) 2 true [(52 : Byte), (18 : Byte)]).1 with | CobRes.ok bs b => b | x => 0)
      = 0 ∨ ∀ (r : Invocation) (b : CobBind), running? (cobAccess sCs 0 (64 : Word) 2 true [(52 : Byte), (18 :
      Byte)]).2 (2097152 - 2097152) = some (r, b) → (r.cycles + match (cobAccess sCs 0 (64 : Word) 2 true [(52 :
      Byte), (18 : Byte)]).1 with | CobRes.ok bs b => b | x => 0) < if b.budget = 0 then 512 else b.budget)) :=
  ⟨⟨by decide +kernel, by decide +kernel, by decide +kernel, by decide +kernel, by decide +kernel, .inl (by decide +kernel)⟩,
   ⟨by decide +kernel, by decide +kernel, by decide +kernel, by decide +kernel, .inl (by decide +kernel)⟩⟩
end Sys2Proof.Tests.Cob

/-! Debug and trace. -/

namespace Sys2Proof.Tests.Trace

open Sys2Proof.Machine

def w1 : Wide := wd 10 11 12 13

def putW (s : State) (a : Nat) (l : List Word) : State := (l.zipIdx).foldl (fun s (v, i) => wrWord s (a + 8 * i) v)
  s

def te (a b c : Word) : Thread := { th0 with x := [(11, a), (12, b), (13, c)] }

def mk (c : Word) : List (Nat × Word) := [(0, c)]

def cEn : Word := w64 (2 ^ 48 + 2 ^ 47 + 2 ^ 40 - 1)

def sT (q : Partition) (a : Word) : State := { onSimt (te a 0 0) with parts := [(1, q)] }

def v1 := sT { p1 with mkcnt := mk cEn } 3

def trOn : Word := w64 (2 ^ 63 + 2 ^ 61)

def v2 := sT { p1 with trctl := trOn } 3

def v3 := sT { p1 with tbrkcfg := 3 } 3

def sHb : State := { onHart h1 (te 5 0 0) with parts := [(1, { p1 with tbrkcfg := 1 })] }

def v4 := sT { p1 with tbrkcfg := 1 } 3

def v5 := sT { p1 with tbrkcfg := 2 } 3

def mm (l : Nat) : Machine.Member := { loc := .here, frame := 0x9000 + 1024 * l }

def tm (st : TeamState) (halt : Bool) : Machine.Team :=
  { part := 1, asid := 1, num := 3, st := st, serial := 5, halt := halt, desc := { limit := 4, gw := 16, syncs := 2, frames := 0x9000 }, count := 1, members := [(0, mm 0)] }

def sTm : State :=
  { sT { p1 with tbrkcfg := 2 } 3 with teams := [tm .resident false], threads := [(0, { te 3 0 0 with team := 3, gangw := 16, frame := 0x9000 })] }

def sSy : State := { sT { p1 with trctl := trOn } 3 with cycle := 4096 }

def sLo : State := { sT { p1 with trctl := trOn } 3 with cores := [(0, { drops := 4, dropAt := 900 })] }

def sDb (v : Word) (ts : List Machine.Team) (t : Thread) : State :=
  { onHart h1 (te v 0 0) with teams := ts, threads := [(0, t), (hk, te v 0 0)] }

def cmd (n : Nat) : Word := w64 (2 ^ 32 + 3 * 256 + n)

def tmem : Thread := { te 1 2 3 with team := 3, gangw := 16, frame := 0x9000 }

def v6 := sDb (cmd 1) [tm .resident false] tmem

def sRs (n : Nat) : State := putW (sDb (cmd n) [tm .resident true] { tmem with st := .halted, before := .ready })
  0x9008 [0x444, 1, 2, 3]

def trl : Trial :=
  { recAt := 0x3000, lo := 1, hi := 2, asid := 1, delay := 3, endUs := 7, cmask := 3, start := [5, 6], inrange := 8, held := 9 }

def sX (a : Word) (l : List Word) (tr : Option Trial) : State :=
  { putW (onHart h1 (te a 0 0)) 0x3000 l with parts := [(1, { p1 with trial := tr, mkcnt := [(0, 9)] })] }

def xr : List Word := [0x400, 0x500, w64 (2 ^ 32 + 3 * 65536 + 10), 3]

def v7 := { sX 0 [] (some trl) with us := 6 }

def v8 := { sX 0 [] (some trl) with us := 7 }

def v1c : State := sT { p1 with mkcnt := mk cEn, mkWrite := [(0, (1000, hk))] } 3

def v2d : State := { v2 with cycle := 4096 }

def sRm (n : Nat) : State := sDb (cmd n) [tm .resident true]
  { tmem with st := .halted, before := .blocked, wait := .mailbox 0 2 }

/-- States and operands that meet the premises of `Obligations.MarksAndPackets`, each of its cases in turn. -/
theorem test_premises_MarksAndPackets :
    (((sT p1 (3 : Word)).cur.keys = [0]) ∧ ((thr (sT p1 (3 : Word)) 0).helper = false) ∧ (isCob 0 = false) ∧ (bit
      (part (sT p1 (3 : Word)) (partOf (sT p1 (3 : Word)) 0)).trctl 61 = false ∨ isHart 0 = true)) ∧
    ((v1.cur.keys = [0]) ∧ ((thr v1 0).helper = false) ∧ (isCob 0 = false) ∧ (bit (part v1 (partOf v1 0)).trctl 61 =
      false ∨ isHart 0 = true)) ∧
    ((v2.cur.keys = [0]) ∧ ((thr v2 0).helper = false) ∧ (isCob 0 = false) ∧ (isSimt 0 = true) ∧ (coreOf 0 < 256) ∧
      (bit (part v2 (partOf v2 0)).trctl 61 = true) ∧ (traced v2 (partOf v2 0) (asidK v2 0) = true) ∧ (bit (mget (0
      : Word) (part v2 (partOf v2 0)).mkcnt (w1.imm11.toNat % 16)) 47 = false) ∧ ((Machine.core v2 (coreOf 0)).drops
      = 0) ∧ (((Machine.core v2 (coreOf 0)).buffer.length + if v2.cycle % 4096 = 0 ∧ (Machine.core v2 (coreOf
      0)).syncAt ≠ v2.cycle ∧ (Machine.core v2 (coreOf 0)).lastPkt ≠ v2.cycle then 2 else 1) ≤ 128)) ∧
    (((sT p1 (3 : Word)).cur.keys = [0]) ∧ ((thr (sT p1 (3 : Word)) 0).helper = false) ∧ (isCob 0 = false) ∧ (bits
      (part (sT p1 (3 : Word)) (partOf (sT p1 (3 : Word)) 0)).tbrkcfg (2 * (w1.imm11.toNat % 16) + 1) (2 *
      (w1.imm11.toNat % 16)) = 0)) ∧
    ((v3.cur.keys = [0]) ∧ ((thr v3 0).helper = false) ∧ (isCob 0 = false) ∧ (bit (part v3 (partOf v3 0)).trctl 61 =
      false ∨ isHart 0 = true) ∧ (bits (part v3 (partOf v3 0)).tbrkcfg (2 * (w1.imm11.toNat % 16) + 1) (2 *
      (w1.imm11.toNat % 16)) = 3)) ∧
    ((sHb.cur.keys = [hk]) ∧ ((thr sHb hk).helper = false) ∧ (isCob hk = false) ∧ (isHart hk = true) ∧ (bits (part
      sHb (partOf sHb hk)).tbrkcfg (2 * (w1.imm11.toNat % 16) + 1) (2 * (w1.imm11.toNat % 16)) ≠ 0) ∧ (bits (part
      sHb (partOf sHb hk)).tbrkcfg (2 * (w1.imm11.toNat % 16) + 1) (2 * (w1.imm11.toNat % 16)) ≠ 3)) ∧
    ((v4.cur.keys = [0]) ∧ ((thr v4 0).helper = false) ∧ (isCob 0 = false) ∧ (bit (part v4 (partOf v4 0)).trctl 61 =
      false ∨ isHart 0 = true) ∧ (isSimt 0 = true) ∧ (bits (part v4 (partOf v4 0)).tbrkcfg (2 * (w1.imm11.toNat %
      16) + 1) (2 * (w1.imm11.toNat % 16)) = 1 ∨ bits (part v4 (partOf v4 0)).tbrkcfg (2 * (w1.imm11.toNat % 16) +
      1) (2 * (w1.imm11.toNat % 16)) = 2 ∧ teamK? v4 0 = none)) ∧
    ((v5.cur.keys = [0]) ∧ ((thr v5 0).helper = false) ∧ (isCob 0 = false) ∧ (bit (part v5 (partOf v5 0)).trctl 61 =
      false ∨ isHart 0 = true) ∧ (isSimt 0 = true) ∧ (bits (part v5 (partOf v5 0)).tbrkcfg (2 * (w1.imm11.toNat %
      16) + 1) (2 * (w1.imm11.toNat % 16)) = 1 ∨ bits (part v5 (partOf v5 0)).tbrkcfg (2 * (w1.imm11.toNat % 16) +
      1) (2 * (w1.imm11.toNat % 16)) = 2 ∧ teamK? v5 0 = none)) ∧
    ((sTm.cur.keys = [0]) ∧ ((thr sTm 0).helper = false) ∧ (isCob 0 = false) ∧ (bit (part sTm (partOf sTm 0)).trctl
      61 = false ∨ isHart 0 = true) ∧ (isSimt 0 = true) ∧ (bits (part sTm (partOf sTm 0)).tbrkcfg (2 *
      (w1.imm11.toNat % 16) + 1) (2 * (w1.imm11.toNat % 16)) = 2) ∧ (teamK? sTm 0 = some (tm TeamState.resident
      false))) ∧
    ((coreOwner sSy 0 = some 1) ∧ (bit (part sSy 1).trctl 63 = true) ∧ (sSy.cycle % 4096 = 0) ∧ ((Machine.core sSy
      0).syncAt ≠ sSy.cycle) ∧ ((Machine.core sSy 0).lastPkt ≠ sSy.cycle) ∧ ((Machine.core sSy 0).drops = 0) ∧
      ((Machine.core sSy 0).buffer.length < 128) ∧ (0 < 256) ∧ (sSy.cycle < 2 ^ 64)) ∧
    (((Machine.core sLo 0).drops ≠ 0) ∧ (((Machine.core sLo 0).buffer.length + if 4095 < sLo.cycle - (Machine.core
      sLo 0).lastPkt then 2 else 1) ≤ 128) ∧ (0 < 256)) ∧
    ((v1c.cur.keys = [0]) ∧ ((thr v1c 0).helper = false) ∧ (isCob 0 = false) ∧ (bit (part v1c (partOf v1c 0)).trctl
      61 = false ∨ isHart 0 = true)) ∧
    ((v2d.cur.keys = [0]) ∧ ((thr v2d 0).helper = false) ∧ (isCob 0 = false) ∧ (isSimt 0 = true) ∧ (coreOf 0 < 256)
      ∧ (bit (part v2d (partOf v2d 0)).trctl 61 = true) ∧ (traced v2d (partOf v2d 0) (asidK v2d 0) = true) ∧ (bit
      (mget (0 : Word) (part v2d (partOf v2d 0)).mkcnt (w1.imm11.toNat % 16)) 47 = false) ∧ ((Machine.core v2d
      (coreOf 0)).drops = 0) ∧ (((Machine.core v2d (coreOf 0)).buffer.length + if v2d.cycle % 4096 = 0 ∧
      (Machine.core v2d (coreOf 0)).syncAt ≠ v2d.cycle ∧ (Machine.core v2d (coreOf 0)).lastPkt ≠ v2d.cycle then 2
      else 1) ≤ 128)) :=
  ⟨by decide +kernel,
   by decide +kernel,
   by decide +kernel,
   by decide +kernel,
   by decide +kernel,
   by decide +kernel,
   by decide +kernel,
   by decide +kernel,
   by decide +kernel,
   by decide +kernel,
   by decide +kernel,
   by decide +kernel,
   by decide +kernel⟩

/-- States and operands that meet the premises of `Obligations.DebugAndTrials`, each of its cases in turn. -/
theorem test_premises_DebugAndTrials :
    ((supHart (sDb (cmd 1) [] tmem) hk = true) ∧ (bit (part (sDb (cmd 1) [] tmem) (partOf (sDb (cmd 1) [] tmem)
      hk)).dbgctl 63 = false) ∧ ((Instr.dbgctlStop hk (cmd 1), 1) ∈ [(Instr.dbgctlStop hk (cmd 1), 1),
      (Instr.dbgctlResume hk (cmd 1), 2), (Instr.dbgctlReload hk (cmd 1), 3)]) ∧ (bits (cmd 1) 2 0 = 1) ∧ (team?
      (sDb (cmd 1) [] tmem) (partOf (sDb (cmd 1) [] tmem) hk) (bits (cmd 1) 47 32) (bits (cmd 1) 19 8) = none)) ∧
    ((supHart v6 hk = true) ∧ (bit (part v6 (partOf v6 hk)).dbgctl 63 = false) ∧ (bits (cmd 1) 2 0 = 1) ∧ (v6.teams
      = [tm TeamState.resident false]) ∧ ((tm TeamState.resident false).part = partOf v6 hk) ∧ ((tm
      TeamState.resident false).asid = bits (cmd 1) 47 32) ∧ ((tm TeamState.resident false).num = bits (cmd 1) 19 8)
      ∧ ((tm TeamState.resident false).st = TeamState.resident) ∧ (residents (tm TeamState.resident false) = [0]) ∧
      ((thr v6 0).st = TState.ready) ∧ ((thr v6 0).wait = Wait.none) ∧ ((thr v6 0).chain.live = false) ∧ ((thr v6
      0).ops = []) ∧ ((thr v6 0).trap.inh = false) ∧ ((thr v6 0).held.length ≤ 8) ∧ (postClear v6 (agentDie 0) (thr
      v6 0).frame 1024 = true)) ∧
    ((supHart (sRs 2) hk = true) ∧ (bit (part (sRs 2) (partOf (sRs 2) hk)).dbgctl 63 = false) ∧ ((Instr.dbgctlResume
      hk (cmd 2), 2) ∈ [(Instr.dbgctlResume hk (cmd 2), 2), (Instr.dbgctlReload hk (cmd 2), 3)]) ∧ (bits (cmd 2) 2 0
      = 2) ∧ ((sRs 2).teams = [tm TeamState.resident true]) ∧ ((tm TeamState.resident true).part = partOf (sRs 2)
      hk) ∧ ((tm TeamState.resident true).asid = bits (cmd 2) 47 32) ∧ ((tm TeamState.resident true).num = bits (cmd
      2) 19 8) ∧ ((tm TeamState.resident true).st = TeamState.resident) ∧ ((tm TeamState.resident true).halt = true)
      ∧ (residents (tm TeamState.resident true) = [0]) ∧ ((thr (sRs 2) 0).st = TState.halted) ∧ (∀ x ∈ (sRs
      2).threads, x.2.wait = Wait.none ∨ x.1 = 0 ∧ ∃ c n, x.2.wait = Wait.mailbox c n) ∧ ((tm TeamState.resident
      true).syncs = []) ∧ ((tm TeamState.resident true).accInfo = []) ∧ (∀ x ∈ (tm TeamState.resident true).members,
      x.2.helper = false)) ∧
    ((supHart (sRs 3) hk = true) ∧ (bit (part (sRs 3) (partOf (sRs 3) hk)).dbgctl 63 = false) ∧ ((Instr.dbgctlReload
      hk (cmd 3), 3) ∈ [(Instr.dbgctlResume hk (cmd 3), 2), (Instr.dbgctlReload hk (cmd 3), 3)]) ∧ (bits (cmd 3) 2 0
      = 3) ∧ ((sRs 3).teams = [tm TeamState.resident true]) ∧ ((tm TeamState.resident true).part = partOf (sRs 3)
      hk) ∧ ((tm TeamState.resident true).asid = bits (cmd 3) 47 32) ∧ ((tm TeamState.resident true).num = bits (cmd
      3) 19 8) ∧ ((tm TeamState.resident true).st = TeamState.resident) ∧ ((tm TeamState.resident true).halt = true)
      ∧ (residents (tm TeamState.resident true) = [0]) ∧ ((thr (sRs 3) 0).st = TState.halted) ∧ (∀ x ∈ (sRs
      3).threads, x.2.wait = Wait.none ∨ x.1 = 0 ∧ ∃ c n, x.2.wait = Wait.mailbox c n) ∧ ((tm TeamState.resident
      true).syncs = []) ∧ ((tm TeamState.resident true).accInfo = []) ∧ (∀ x ∈ (tm TeamState.resident true).members,
      x.2.helper = false)) ∧
    (((sX (0 : Word) [] none).cur.keys = [hk]) ∧ (isHart hk = true) ∧ (src (thr (sX (0 : Word) [] none) hk) w1.s1 =
      0) ∧ ((part (sX (0 : Word) [] none) (partOf (sX (0 : Word) [] none) hk)).trial = none)) ∧
    (((sX (12289 : Word) [] none).cur.keys = [hk]) ∧ (isHart hk = true) ∧ (src (thr (sX (12289 : Word) [] none) hk)
      w1.s1 ≠ 0) ∧ (cexpHeld (sX (12289 : Word) [] none) hk (src (thr (sX (12289 : Word) [] none) hk) w1.s1) = none)
      ∧ (¬(BitVec.toNat (src (thr (sX (12289 : Word) [] none) hk) w1.s1) % 64 = 0 ∧ inRanges (sX (12289 : Word) []
      none) (partOf (sX (12289 : Word) [] none) hk) (BitVec.toNat (src (thr (sX (12289 : Word) [] none) hk) w1.s1))
      192 = true))) ∧
    (((sX (12288 : Word) [] none).cur.keys = [hk]) ∧ (isHart hk = true) ∧ (src (thr (sX (12288 : Word) [] none) hk)
      w1.s1 ≠ 0) ∧ (cexpHeld (sX (12288 : Word) [] none) hk (src (thr (sX (12288 : Word) [] none) hk) w1.s1) = none)
      ∧ (BitVec.toNat (src (thr (sX (12288 : Word) [] none) hk) w1.s1) % 64 = 0 ∧ inRanges (sX (12288 : Word) []
      none) (partOf (sX (12288 : Word) [] none) hk) (BitVec.toNat (src (thr (sX (12288 : Word) [] none) hk) w1.s1))
      192 = true) ∧ (trialBad (rdWords (sX (12288 : Word) [] none) (BitVec.toNat (src (thr (sX (12288 : Word) []
      none) hk) w1.s1)) 24) = true)) ∧
    (((sX (12288 : Word) xr (some trl)).cur.keys = [hk]) ∧ (isHart hk = true) ∧ (src (thr (sX (12288 : Word) xr
      (some trl)) hk) w1.s1 ≠ 0) ∧ (cexpHeld (sX (12288 : Word) xr (some trl)) hk (src (thr (sX (12288 : Word) xr
      (some trl)) hk) w1.s1) = none) ∧ (BitVec.toNat (src (thr (sX (12288 : Word) xr (some trl)) hk) w1.s1) % 64 = 0
      ∧ inRanges (sX (12288 : Word) xr (some trl)) (partOf (sX (12288 : Word) xr (some trl)) hk) (BitVec.toNat (src
      (thr (sX (12288 : Word) xr (some trl)) hk) w1.s1)) 192 = true) ∧ (trialBad (rdWords (sX (12288 : Word) xr
      (some trl)) (BitVec.toNat (src (thr (sX (12288 : Word) xr (some trl)) hk) w1.s1)) 24) = false) ∧ ((part (sX
      (12288 : Word) xr (some trl)) (partOf (sX (12288 : Word) xr (some trl)) hk)).trial = some trl)) ∧
    (((sX (12288 : Word) xr none).cur.keys = [hk]) ∧ (isHart hk = true) ∧ (src (thr (sX (12288 : Word) xr none) hk)
      w1.s1 ≠ 0) ∧ (cexpHeld (sX (12288 : Word) xr none) hk (src (thr (sX (12288 : Word) xr none) hk) w1.s1) = none)
      ∧ (BitVec.toNat (src (thr (sX (12288 : Word) xr none) hk) w1.s1) % 64 = 0 ∧ inRanges (sX (12288 : Word) xr
      none) (partOf (sX (12288 : Word) xr none) hk) (BitVec.toNat (src (thr (sX (12288 : Word) xr none) hk) w1.s1))
      192 = true) ∧ (trialBad (rdWords (sX (12288 : Word) xr none) (BitVec.toNat (src (thr (sX (12288 : Word) xr
      none) hk) w1.s1)) 24) = false) ∧ ((part (sX (12288 : Word) xr none) (partOf (sX (12288 : Word) xr none)
      hk)).trial = none)) ∧
    (((sX (0 : Word) xr (some trl)).cur.keys = [hk]) ∧ (isHart hk = true) ∧ (src (thr (sX (0 : Word) xr (some trl))
      hk) w1.s1 = 0) ∧ ((part (sX (0 : Word) xr (some trl)) (partOf (sX (0 : Word) xr (some trl)) hk)).trial = some
      trl) ∧ (trialClear (sX (0 : Word) xr (some trl)) trl = true)) ∧
    (((part v7 1).trial = some trl) ∧ (v7.us < trl.endUs)) ∧
    (((part v8 1).trial = some trl) ∧ (trl.endUs ≤ v8.us) ∧ (trialClear v8 trl = true)) ∧
    ((supHart (sRm 2) hk = true) ∧ (bit (part (sRm 2) (partOf (sRm 2) hk)).dbgctl 63 = false) ∧ ((Instr.dbgctlResume
      hk (cmd 2), 2) ∈ [(Instr.dbgctlResume hk (cmd 2), 2), (Instr.dbgctlReload hk (cmd 2), 3)]) ∧ (bits (cmd 2) 2 0
      = 2) ∧ ((sRm 2).teams = [tm TeamState.resident true]) ∧ ((tm TeamState.resident true).part = partOf (sRm 2)
      hk) ∧ ((tm TeamState.resident true).asid = bits (cmd 2) 47 32) ∧ ((tm TeamState.resident true).num = bits (cmd
      2) 19 8) ∧ ((tm TeamState.resident true).st = TeamState.resident) ∧ ((tm TeamState.resident true).halt = true)
      ∧ (residents (tm TeamState.resident true) = [0]) ∧ ((thr (sRm 2) 0).st = TState.halted) ∧ (∀ x ∈ (sRm
      2).threads, x.2.wait = Wait.none ∨ x.1 = 0 ∧ ∃ c n, x.2.wait = Wait.mailbox c n) ∧ ((tm TeamState.resident
      true).syncs = []) ∧ ((tm TeamState.resident true).accInfo = []) ∧ (∀ x ∈ (tm TeamState.resident true).members,
      x.2.helper = false)) ∧
    ((supHart (sRm 3) hk = true) ∧ (bit (part (sRm 3) (partOf (sRm 3) hk)).dbgctl 63 = false) ∧ ((Instr.dbgctlReload
      hk (cmd 3), 3) ∈ [(Instr.dbgctlResume hk (cmd 3), 2), (Instr.dbgctlReload hk (cmd 3), 3)]) ∧ (bits (cmd 3) 2 0
      = 3) ∧ ((sRm 3).teams = [tm TeamState.resident true]) ∧ ((tm TeamState.resident true).part = partOf (sRm 3)
      hk) ∧ ((tm TeamState.resident true).asid = bits (cmd 3) 47 32) ∧ ((tm TeamState.resident true).num = bits (cmd
      3) 19 8) ∧ ((tm TeamState.resident true).st = TeamState.resident) ∧ ((tm TeamState.resident true).halt = true)
      ∧ (residents (tm TeamState.resident true) = [0]) ∧ ((thr (sRm 3) 0).st = TState.halted) ∧ (∀ x ∈ (sRm
      3).threads, x.2.wait = Wait.none ∨ x.1 = 0 ∧ ∃ c n, x.2.wait = Wait.mailbox c n) ∧ ((tm TeamState.resident
      true).syncs = []) ∧ ((tm TeamState.resident true).accInfo = []) ∧ (∀ x ∈ (tm TeamState.resident true).members,
      x.2.helper = false)) :=
  ⟨by decide +kernel,
   by decide +kernel,
   ⟨by decide +kernel, by decide +kernel, by decide +kernel, by decide +kernel, by decide +kernel, by decide +kernel, by decide +kernel, by decide +kernel, by decide +kernel, by decide +kernel, by decide +kernel, by decide +kernel, mailbox_of (by decide +kernel), by decide +kernel, by decide +kernel, by decide +kernel⟩,
   ⟨by decide +kernel, by decide +kernel, by decide +kernel, by decide +kernel, by decide +kernel, by decide +kernel, by decide +kernel, by decide +kernel, by decide +kernel, by decide +kernel, by decide +kernel, by decide +kernel, mailbox_of (by decide +kernel), by decide +kernel, by decide +kernel, by decide +kernel⟩,
   by decide +kernel,
   by decide +kernel,
   by decide +kernel,
   by decide +kernel,
   by decide +kernel,
   by decide +kernel,
   by decide +kernel,
   by decide +kernel,
   ⟨by decide +kernel, by decide +kernel, by decide +kernel, by decide +kernel, by decide +kernel, by decide +kernel, by decide +kernel, by decide +kernel, by decide +kernel, by decide +kernel, by decide +kernel, by decide +kernel, mailbox_of (by decide +kernel), by decide +kernel, by decide +kernel, by decide +kernel⟩,
   ⟨by decide +kernel, by decide +kernel, by decide +kernel, by decide +kernel, by decide +kernel, by decide +kernel, by decide +kernel, by decide +kernel, by decide +kernel, by decide +kernel, by decide +kernel, by decide +kernel, mailbox_of (by decide +kernel), by decide +kernel, by decide +kernel, by decide +kernel⟩⟩
end Sys2Proof.Tests.Trace

/-! Partitions and CSR commands. -/

namespace Sys2Proof.Tests.Part

open Sys2Proof.Machine

def w1 : Wide := wd 10 11 12 13

def putW (s : State) (a : Nat) (l : List Word) : State := (l.zipIdx).foldl (fun s (v, i) => wrWord s (a + 8 * i) v)
  s

def te (a b c : Word) : Thread := { th0 with x := [(11, a), (12, b), (13, c)] }

def sC : State := onHart h1 (te 1 2 3)

def v1 := putW sC 0x8290 [9, 3, 4, 16]

def sSg (t : Thread) : State := { sC with threads := [(0, t), (hk, { te 1 2 3 with tid := 1 })] }

def sRs : State := putW (putW (putW (putW sC 0x8000 [w64 (2 ^ 20 + 1), 0x445, 1, 2]) 0x8290 [9]) 0x82C0 [0x20])
  0x82B8 [satp1]

def cpx : Copy :=
  { id := 3, part := 1, satp := satp1, solo := true, die := 0, core := 0, team := 0, serial := 0, saves := 0, seq := 0, maj := 0x59, fn := 0, dir := true, s1 := 0x3000, s2 := 0x5000, s3 := 16, layout := [], entry := 0, nosync := true, state := 1, done := 0, nominal := 16, home := none, touches := [], touchAll := true, key := 0, tid := 7, tidx := 0, flags := 0, index := none, orig := [] }

def tmx : Machine.Team := { part := 1, asid := 1, num := 3, st := .resident, desc := { limit := 4 } }

def v2 := { sC with copies := [cpx], teams := [tmx] }

def sCf : State :=
  { sC with teams := [{ tmx with ops := 2 }, { tmx with asid := 2 }], parts := [(1, { p1 with keys := [(3, { loaded := true, asid := 1 })] })], cores := [(0, { binding := some { qva := 0, satp := satp1, tmax := 1, tfr := 0, suspended := false, part := 1 } })] }

def sTk : State := { base with boot := { State.reset.boot with lc := 2 } }

def v3 := onHart { h1 with mode := .machine } (te 1 2 3)

def mk : Nat := 0x10_0000

def hm : Hart := { running := true, mode := .machine, part := 8, mgr := true }

def sect : List Word := [2, 0, 2, 2, 2, 2 ^ 16 + 2, 2, 2, 0x4000_0000]

def sP (ps : List (Nat × Partition)) : State :=
  { putW (putW (putW base 0x10_0000 [1]) 0x10_1200 sect) 0x10_2008 [w64 (2 ^ 63 + 2 * 2 ^ 17)] with rtbase := 0x10_0000, parts := ps, harts := [(mk, hm)], threads := [(mk, te 1 2 3)] }

def cmd (n p : Nat) : Word := w64 (16 * n + p)

def entsOf (s : State) (p : Nat) := (mapEntries s (tableBase s)).filter fun (_, e) => bit e 63 && !bit e 20 && bits
  e 19 17 = p

def v4 := sP [(1, { p1 with state := 4, boot := 0x900 })]

def sRst : State :=
  { sP [(1, p1)] with threads := [(0, te 1 2 3), (mk, te 1 2 3), (hk, te 4 5 6)], harts := [(mk, hm), (hk, h1)], copies := [cpx], teams := [tmx], cycle := 1000 }

def v5 := sP [(1, { p1 with state := 4 })]

def pr (d : Bool) : State :=
  { sP [(1, { p1 with state := 3, drained := d, resetUs := 5, keys := [(1, { loaded := true })] })] with us := 1005 }

def lop : LacedOp :=
  { id := 3, lace := 2, key := 0, tid := 7, part := 1, asid := 1, team := 0, serial := 0, kind := 0, off := 0x40, data := [1], eye := 5 }

def v6 := { pr false with laced := [lop] }

def v7 := { pr false with us := 1004 }

def v8 := putW (pr true) 0x3000 [5]

def v9 := putW (pr false) 0x3000 [5]

def rq (k : Requester) (w : Bool) (pa : Nat) : HomeReq :=
  { tag := 1, kind := k, tid := 7, key := hk, write := w, pa := pa, va := 0x5000, data := [1, 2, 3], len := 3 }

def v10 := rq .thread true 0x4000_0000

def v11 := sSg { te 4 5 6 with st := .blocked, wait := .queue 0x3000 }

def v12 := rq .copyEngine true 0x4000_0000

def v13 := rq .copyEngine false 0x3000

def v14 := rq .copyEngine true 0x3000

/-- States and operands that meet the premises of `Obligations.ThreadCsrCommands`, each of its cases in turn. -/
theorem test_premises_ThreadCsrCommands :
    ((mkeys sC.threads = true) ∧ (supHart sC hk = true) ∧ (inRanges sC (partOf sC hk) (bits (1073741824 : Word) 63
      10 * 1024) 1024 = false)) ∧
    ((mkeys v1.threads = true) ∧ (supHart v1 hk = true) ∧ (inRanges v1 (partOf v1 hk) (bits (32768 : Word) 63 10 *
      1024) 1024 = true) ∧ (frameHeld v1 hk (32768 : Word) = none)) ∧
    ((mkeys (sSg (te (4 : Word) (5 : Word) (6 : Word))).threads = true) ∧ (supHart (sSg (te (4 : Word) (5 : Word) (6
      : Word))) hk = true) ∧ (∀ x ∈ (sSg (te (4 : Word) (5 : Word) (6 : Word))).threads, isSimt x.1 = true → x.2.tid
      ≠ bits (8 : Word) 31 0) ∧ ((sSg (te (4 : Word) (5 : Word) (6 : Word))).transits = []) ∧ ((part (sSg (te (4 :
      Word) (5 : Word) (6 : Word))) (partOf (sSg (te (4 : Word) (5 : Word) (6 : Word))) hk)).retPend = []) ∧ ((sSg
      (te (4 : Word) (5 : Word) (6 : Word))).teams = [])) ∧
    ((mkeys sC.threads = true) ∧ (supHart sC hk = true) ∧ (frameHeld sC hk (32768 : Word) = none) ∧ (inRanges sC
      (partOf sC hk) (bits (32768 : Word) 63 10 * 1024) 1024 = false ∨ ¬(bits (rdWord sC (bits (32768 : Word) 63 10
      * 1024)) 3 0 = 1 ∧ bit (rdWord sC (bits (32768 : Word) 63 10 * 1024)) 20 = true ∧ bit (rdWord sC (bits (32768
      : Word) 63 10 * 1024 + 704)) 63 = false ∧ ownsCore sC (partOf sC hk) (bits (rdWord sC (bits (32768 : Word) 63
      10 * 1024 + 704)) 21 20 * 64 + bits (rdWord sC (bits (32768 : Word) 63 10 * 1024 + 704)) 19 14) = true ∧
      occupied sC (slotKey (bits (rdWord sC (bits (32768 : Word) 63 10 * 1024 + 704)) 21 20) (bits (rdWord sC (bits
      (32768 : Word) 63 10 * 1024 + 704)) 19 14) (bits (rdWord sC (bits (32768 : Word) 63 10 * 1024 + 704)) 9 4) 15)
      = false))) ∧
    ((mkeys sRs.threads = true) ∧ (supHart sRs hk = true) ∧ (frameHeld sRs hk (32768 : Word) = none) ∧ (inRanges sRs
      (partOf sRs hk) (bits (32768 : Word) 63 10 * 1024) 1024 = true) ∧ (bits (rdWord sRs (bits (32768 : Word) 63 10
      * 1024)) 3 0 = 1 ∧ bit (rdWord sRs (bits (32768 : Word) 63 10 * 1024)) 20 = true ∧ bit (rdWord sRs (bits
      (32768 : Word) 63 10 * 1024 + 704)) 63 = false ∧ ownsCore sRs (partOf sRs hk) (bits (rdWord sRs (bits (32768 :
      Word) 63 10 * 1024 + 704)) 21 20 * 64 + bits (rdWord sRs (bits (32768 : Word) 63 10 * 1024 + 704)) 19 14) =
      true ∧ occupied sRs (slotKey (bits (rdWord sRs (bits (32768 : Word) 63 10 * 1024 + 704)) 21 20) (bits (rdWord
      sRs (bits (32768 : Word) 63 10 * 1024 + 704)) 19 14) (bits (rdWord sRs (bits (32768 : Word) 63 10 * 1024 +
      704)) 9 4) 15) = false)) ∧
    ((mkeys sC.threads = true) ∧ (supHart sC hk = true) ∧ ((part sC (partOf sC hk)).open_.contains (bits (5 : Word)
      15 0) = false ∨ contextBusy sC (partOf sC hk) (bits (5 : Word) 15 0) = true)) ∧
    ((mkeys (sSg (te (4 : Word) (5 : Word) (6 : Word))).threads = true) ∧ (supHart (sSg (te (4 : Word) (5 : Word) (6
      : Word))) hk = true) ∧ ((part (sSg (te (4 : Word) (5 : Word) (6 : Word))) (partOf (sSg (te (4 : Word) (5 :
      Word) (6 : Word))) hk)).open_.contains (bits (1 : Word) 15 0) = false ∨ contextBusy (sSg (te (4 : Word) (5 :
      Word) (6 : Word))) (partOf (sSg (te (4 : Word) (5 : Word) (6 : Word))) hk) (bits (1 : Word) 15 0) = true)) ∧
    ((mkeys v2.threads = true) ∧ (supHart v2 hk = true) ∧ ((part v2 (partOf v2 hk)).open_.contains (bits (1 : Word)
      15 0) = true) ∧ (contextBusy v2 (partOf v2 hk) (bits (1 : Word) 15 0) = false) ∧ (contextCopies v2 (partOf v2
      hk) (bits (1 : Word) 15 0) = true)) ∧
    ((mkeys sCf.threads = true) ∧ (supHart sCf hk = true) ∧ ((part sCf (partOf sCf hk)).open_.contains (bits (1 :
      Word) 15 0) = true) ∧ (contextBusy sCf (partOf sCf hk) (bits (1 : Word) 15 0) = false) ∧ (contextCopies sCf
      (partOf sCf hk) (bits (1 : Word) 15 0) = false) ∧ (sCf.eyelets = [])) ∧
    ((mkeys sC.threads = true) ∧ (supHart sC hk = true) ∧ (trapsVm sC hk = false) ∧ ((part sC (partOf sC
      hk)).open_.contains (asidOf (8070485716620017664 : Word)) = false) ∧ (bits (8070485716620017664 : Word) 63 60
      ≠ 0) ∧ (levels (bits (8070485716620017664 : Word) 63 60) = none)) ∧
    ((mkeys sC.threads = true) ∧ (supHart sC hk = true) ∧ (trapsVm sC hk = false) ∧ ((part sC (partOf sC
      hk)).open_.contains (asidOf (11529250230440558592 : Word)) = false) ∧ (bits (11529250230440558592 : Word) 63
      60 = 0 ∨ (levels (bits (11529250230440558592 : Word) 63 60)).isSome = true) ∧ ((hart sC hk).mgr = false)) ∧
    (¬(base.boot.lc = 2 ∧ 1 < 8 ∧ (part base 1).state ≠ 0 ∧ 16 < 16 ∧ (part base 1).open_.contains 1 = true ∧ mget?
      (part base 1).keys 16 = none ∧ ∀ x ∈ (part base 1).keys, x.2.asid ≠ 1)) ∧
    (sTk.boot.lc = 2 ∧ 1 < 8 ∧ (part sTk 1).state ≠ 0 ∧ 15 < 16 ∧ (part sTk 1).open_.contains 1 = true ∧ mget? (part
      sTk 1).keys 15 = none ∧ ∀ x ∈ (part sTk 1).keys, x.2.asid ≠ 1) ∧
    ((isHart hk = true) ∧ ((hart sC hk).running = true) ∧ (csrRead sC hk 832 = none ∨ csrShut sC hk 832 = true ∨
      csrRead sC hk 832 ≠ none ∧ csrWrite sC hk 832 (5 : Word) = CsrRes.illegal)) ∧
    ((isHart hk = true) ∧ ((hart v3 hk).running = true) ∧ ((hart v3 hk).mode = Mode.machine) ∧ (832 = 832)) ∧
    ((isHart hk = true) ∧ ((hart sC hk).running = true) ∧ ((hart sC hk).mode ≠ Mode.user) ∧ (1481 = 1481)) ∧
    ((isHart hk = true) ∧ ((hart v3 hk).running = true) ∧ ((hart v3 hk).mode = Mode.machine) ∧ ((hart v3 hk).mgr =
      false) ∧ (1987 = 1987)) ∧
    ((mkeys (sSg (te (4 : Word) (5 : Word) (6 : Word))).threads = true) ∧ (supHart (sSg (te (4 : Word) (5 : Word) (6
      : Word))) hk = true) ∧ (isSimt 0 = true) ∧ (occupied (sSg (te (4 : Word) (5 : Word) (6 : Word))) 0 = true) ∧
      ((thr (sSg (te (4 : Word) (5 : Word) (6 : Word))) 0).part = partOf (sSg (te (4 : Word) (5 : Word) (6 : Word)))
      hk) ∧ ((thr (sSg (te (4 : Word) (5 : Word) (6 : Word))) 0).tid = bits (7 : Word) 31 0) ∧ ((thr (sSg (te (4 :
      Word) (5 : Word) (6 : Word))) 0).helper = false) ∧ ((thr (sSg (te (4 : Word) (5 : Word) (6 : Word))) 0).st ≠
      TState.exited) ∧ (∀ x ∈ (sSg (te (4 : Word) (5 : Word) (6 : Word))).threads, x.2.tid = bits (7 : Word) 31 0 →
      x.1 = 0) ∧ ((thr (sSg (te (4 : Word) (5 : Word) (6 : Word))) 0).st ≠ TState.blocked ∨ isRsv 0 = true)) ∧
    ((mkeys v11.threads = true) ∧ (supHart v11 hk = true) ∧ (isSimt 0 = true) ∧ (occupied v11 0 = true) ∧ ((thr v11
      0).part = partOf v11 hk) ∧ ((thr v11 0).tid = bits (7 : Word) 31 0) ∧ ((thr v11 0).helper = false) ∧ ((thr v11
      0).st ≠ TState.exited) ∧ (∀ x ∈ v11.threads, x.2.tid = bits (7 : Word) 31 0 → x.1 = 0) ∧ ((thr v11 0).st =
      TState.blocked) ∧ ((thr v11 0).wait = Wait.queue 12288) ∧ (isRsv 0 = false) ∧ ((thr v11 0).ops = []) ∧ ((thr
      v11 0).held.length ≤ 8) ∧ ((thr v11 0).chain.fp = none) ∧ ((thr v11 0).pend0E = none) ∧ ((thr v11 0).pend16 =
      none) ∧ (postClear v11 (agentDie 0) (thr v11 0).frame 1024 = true)) :=
  ⟨by decide +kernel,
   by decide +kernel,
   by decide +kernel,
   by decide +kernel,
   by decide +kernel,
   by decide +kernel,
   by decide +kernel,
   by decide +kernel,
   by decide +kernel,
   by decide +kernel,
   by decide +kernel,
   by decide +kernel,
   by decide +kernel,
   ⟨by decide +kernel, by decide +kernel, .inr (.inl (by decide +kernel))⟩,
   by decide +kernel,
   by decide +kernel,
   by decide +kernel,
   by decide +kernel,
   by decide +kernel⟩

/-- The granule map of the table of `sP []` has one entry. -/
theorem map_of_sP : mapEntries (sP []) 0x10_0000 = (List.range 4096).map fun g => (g, if g = 1 then w64 (2 ^ 63 + 2 * 2 ^ 17) else 0) := by
  refine List.map_congr_left fun g _ => Prod.ext rfl ?_
  split
  · next h => subst h; decide +kernel
  · next h =>
    refine rdWord_absent fun c hc => ?_
    have : c.1 < 0x10_2000 ∨ (0x10_2008 ≤ c.1 ∧ c.1 < 0x10_2010) :=
      (by decide +kernel : ∀ c ∈ (sP []).mem, c.1 < 0x10_2000 ∨ (0x10_2008 ≤ c.1 ∧ c.1 < 0x10_2010)) c hc
    omega

theorem test_configure_accepted :
    configureBad (sP []) 2 (rdWords (sP []) (tableBase (sP []) + 4096 + 256 * 2) 32) (entsOf (sP []) 2) = false := by
  have h : entsOf (sP []) 2 = [(1, w64 (2 ^ 63 + 2 * 2 ^ 17))] := by
    rw [entsOf, show tableBase (sP []) = 0x10_0000 by decide +kernel, map_of_sP]
    decide +kernel
  rw [h]
  decide +kernel

theorem test_table_accepted : tableBad (sP []) 0x10_0000 = false := by
  rw [tableBad, map_of_sP]
  decide +kernel

/-- States and operands that meet the premises of `Obligations.Partitions`, each of its cases in turn. -/
theorem test_premises_Partitions :
    ((mgrHart (sP [(2, p1)]) mk = true) ∧ (bit (cmd 4 2) 16 = false) ∧ (bit (cmd 4 2) 11 = false) ∧
      ((Instr.partctlConfigure mk (cmd 4 2), 4) ∈ [(Instr.partctlConfigure mk (cmd 4 2), 4), (Instr.partctlStart mk
      (cmd 4 2), 1), (Instr.partctlReset mk (cmd 4 2), 2), (Instr.partctlRelease mk (cmd 4 2), 3)]) ∧ (bits (cmd 4
      2) 6 4 = 4) ∧ (configureHeld (sP [(2, p1)]) mk (cmd 4 2) = none) ∧ (4 = 4 ∧ ((part (sP [(2, p1)]) (bits (cmd 4
      2) 2 0)).state ≠ 0 ∨ configureBad (sP [(2, p1)]) (bits (cmd 4 2) 2 0) (rdWords (sP [(2, p1)]) (tableBase (sP
      [(2, p1)]) + 4096 + 256 * bits (cmd 4 2) 2 0) 32) (List.filter
      (fun x => match x with | (fst, e) => bit e 63 && !bit e 20 && decide (bits e 19 17 = bits (cmd 4 2) 2 0))
      (mapEntries (sP [(2, p1)]) (tableBase (sP [(2, p1)])))) = true) ∨ 4 = 1 ∧ (part (sP [(2, p1)]) (bits (cmd 4 2)
      2 0)).state ≠ 1 ∧ (part (sP [(2, p1)]) (bits (cmd 4 2) 2 0)).state ≠ 4 ∨ 4 = 2 ∧ (part (sP [(2, p1)]) (bits
      (cmd 4 2) 2 0)).state ≠ 2 ∨ 4 = 3 ∧ (part (sP [(2, p1)]) (bits (cmd 4 2) 2 0)).state ≠ 4)) ∧
    ((mgrHart (sP [(2, p1)]) mk = true) ∧ (bit (cmd 1 2) 16 = false) ∧ (bit (cmd 1 2) 11 = false) ∧
      ((Instr.partctlStart mk (cmd 1 2), 1) ∈ [(Instr.partctlConfigure mk (cmd 1 2), 4), (Instr.partctlStart mk (cmd
      1 2), 1), (Instr.partctlReset mk (cmd 1 2), 2), (Instr.partctlRelease mk (cmd 1 2), 3)]) ∧ (bits (cmd 1 2) 6 4
      = 1) ∧ (configureHeld (sP [(2, p1)]) mk (cmd 1 2) = none) ∧ (1 = 4 ∧ ((part (sP [(2, p1)]) (bits (cmd 1 2) 2
      0)).state ≠ 0 ∨ configureBad (sP [(2, p1)]) (bits (cmd 1 2) 2 0) (rdWords (sP [(2, p1)]) (tableBase (sP [(2,
      p1)]) + 4096 + 256 * bits (cmd 1 2) 2 0) 32) (List.filter
      (fun x => match x with | (fst, e) => bit e 63 && !bit e 20 && decide (bits e 19 17 = bits (cmd 1 2) 2 0))
      (mapEntries (sP [(2, p1)]) (tableBase (sP [(2, p1)])))) = true) ∨ 1 = 1 ∧ (part (sP [(2, p1)]) (bits (cmd 1 2)
      2 0)).state ≠ 1 ∧ (part (sP [(2, p1)]) (bits (cmd 1 2) 2 0)).state ≠ 4 ∨ 1 = 2 ∧ (part (sP [(2, p1)]) (bits
      (cmd 1 2) 2 0)).state ≠ 2 ∨ 1 = 3 ∧ (part (sP [(2, p1)]) (bits (cmd 1 2) 2 0)).state ≠ 4)) ∧
    ((mgrHart (sP []) mk = true) ∧ (bit (cmd 2 2) 16 = false) ∧ (bit (cmd 2 2) 11 = false) ∧ ((Instr.partctlReset mk
      (cmd 2 2), 2) ∈ [(Instr.partctlConfigure mk (cmd 2 2), 4), (Instr.partctlStart mk (cmd 2 2), 1),
      (Instr.partctlReset mk (cmd 2 2), 2), (Instr.partctlRelease mk (cmd 2 2), 3)]) ∧ (bits (cmd 2 2) 6 4 = 2) ∧
      (configureHeld (sP []) mk (cmd 2 2) = none) ∧ (2 = 4 ∧ ((part (sP []) (bits (cmd 2 2) 2 0)).state ≠ 0 ∨
      configureBad (sP []) (bits (cmd 2 2) 2 0) (rdWords (sP []) (tableBase (sP []) + 4096 + 256 * bits (cmd 2 2) 2
      0) 32) (List.filter
      (fun x => match x with | (fst, e) => bit e 63 && !bit e 20 && decide (bits e 19 17 = bits (cmd 2 2) 2 0))
      (mapEntries (sP []) (tableBase (sP [])))) = true) ∨ 2 = 1 ∧ (part (sP []) (bits (cmd 2 2) 2 0)).state ≠ 1 ∧
      (part (sP []) (bits (cmd 2 2) 2 0)).state ≠ 4 ∨ 2 = 2 ∧ (part (sP []) (bits (cmd 2 2) 2 0)).state ≠ 2 ∨ 2 = 3
      ∧ (part (sP []) (bits (cmd 2 2) 2 0)).state ≠ 4)) ∧
    ((mgrHart (sP []) mk = true) ∧ (bit (cmd 3 2) 16 = false) ∧ (bit (cmd 3 2) 11 = false) ∧ ((Instr.partctlRelease
      mk (cmd 3 2), 3) ∈ [(Instr.partctlConfigure mk (cmd 3 2), 4), (Instr.partctlStart mk (cmd 3 2), 1),
      (Instr.partctlReset mk (cmd 3 2), 2), (Instr.partctlRelease mk (cmd 3 2), 3)]) ∧ (bits (cmd 3 2) 6 4 = 3) ∧
      (configureHeld (sP []) mk (cmd 3 2) = none) ∧ (3 = 4 ∧ ((part (sP []) (bits (cmd 3 2) 2 0)).state ≠ 0 ∨
      configureBad (sP []) (bits (cmd 3 2) 2 0) (rdWords (sP []) (tableBase (sP []) + 4096 + 256 * bits (cmd 3 2) 2
      0) 32) (List.filter
      (fun x => match x with | (fst, e) => bit e 63 && !bit e 20 && decide (bits e 19 17 = bits (cmd 3 2) 2 0))
      (mapEntries (sP []) (tableBase (sP [])))) = true) ∨ 3 = 1 ∧ (part (sP []) (bits (cmd 3 2) 2 0)).state ≠ 1 ∧
      (part (sP []) (bits (cmd 3 2) 2 0)).state ≠ 4 ∨ 3 = 2 ∧ (part (sP []) (bits (cmd 3 2) 2 0)).state ≠ 2 ∨ 3 = 3
      ∧ (part (sP []) (bits (cmd 3 2) 2 0)).state ≠ 4)) ∧
    ((mgrHart v4 mk = true) ∧ (bit (cmd 1 1) 16 = false) ∧ (bit (cmd 1 1) 11 = false) ∧ (bits (cmd 1 1) 6 4 = 1) ∧
      ((part v4 (bits (cmd 1 1) 2 0)).state = 1 ∨ (part v4 (bits (cmd 1 1) 2 0)).state = 4) ∧ (hartsOf (part v4
      (bits (cmd 1 1) 2 0)) = [hartKey 0 1])) ∧
    ((mgrHart sRst mk = true) ∧ (bit (cmd 2 1) 16 = false) ∧ (bit (cmd 2 1) 11 = false) ∧ (bits (cmd 2 1) 6 4 = 2) ∧
      ((part sRst (bits (cmd 2 1) 2 0)).state = 2) ∧ (mkeys sRst.threads = true) ∧ (mkeys sRst.harts = true) ∧ (∀ e
      ∈ sRst.eyelets, e.2.part = bits (cmd 2 1) 2 0 → e.2.st = 0)) ∧
    ((mgrHart v5 mk = true) ∧ (bit (cmd 3 1) 16 = false) ∧ (bit (cmd 3 1) 11 = false) ∧ (bits (cmd 3 1) 6 4 = 3) ∧
      ((part v5 (bits (cmd 3 1) 2 0)).state = 4)) ∧
    (((part (pr false) 1).state = 3) ∧ ((part (pr false) 1).drained = false) ∧ (inFlight (pr false) 1 = false)) ∧
    ((part (pr true) 1).state ≠ 3 ∨ (part (pr true) 1).drained = true ∨ inFlight (pr true) 1 = true) ∧
    (((part v6 1).state = 3) ∧ ((part v6 1).drained = false) ∧ (inFlight v6 1 = true) ∧ ((part v6 1).resetUs + 1000
      ≤ v6.us)) ∧
    ((part v7 1).state ≠ 3 ∨ v7.us < (part v7 1).resetUs + 1000) :=
  ⟨by decide +kernel,
   by decide +kernel,
   by decide +kernel,
   by decide +kernel,
   by decide +kernel,
   by decide +kernel,
   by decide +kernel,
   by decide +kernel,
   by decide +kernel,
   by decide +kernel,
   by decide +kernel⟩

/-- More of them. -/
theorem test_premises_Partitions_2 :
    (((part v8 1).state = 3) ∧ ((part v8 1).drained = true)) ∧
    ((part v9 1).state ≠ 3 ∨ (part v9 1).drained = false) ∧
    ((inRanges base v10.tag v10.pa (if v10.write = true then v10.data.length else v10.len) = false) ∧ (v10.kind =
      Requester.thread) ∧ (occupied base v10.key = false)) ∧
    ((inRanges sC v10.tag v10.pa (if v10.write = true then v10.data.length else v10.len) = false) ∧ (v10.kind =
      Requester.thread) ∧ (isHart v10.key = true) ∧ (occupied sC v10.key = true)) ∧
    ((inRanges sC v12.tag v12.pa (if v12.write = true then v12.data.length else v12.len) = false) ∧ (v12.kind ≠
      Requester.thread) ∧ (v12.kind ≠ Requester.eyelet)) ∧
    ((inRanges sC v13.tag v13.pa (if v13.write = true then v13.data.length else v13.len) = true) ∧ (lineHeld sC
      v13.key v13.pa (if v13.write = true then v13.data.length else v13.len) = true ∨ v13.write = false ∧ ∀ x ∈
      sC.l1, x.line ≠ v13.pa / 64)) ∧
    ((inRanges sC v14.tag v14.pa (if v14.write = true then v14.data.length else v14.len) = true) ∧ (lineHeld sC
      v14.key v14.pa (if v14.write = true then v14.data.length else v14.len) = false) ∧ (v14.write = true)) ∧
    ((mgrHart (sP []) mk = true) ∧ (bit (cmd 4 2) 16 = false) ∧ (bit (cmd 4 2) 11 = false) ∧ (bits (cmd 4 2) 6 4 =
      4) ∧ (configureHeld (sP []) mk (cmd 4 2) = none) ∧ ((part (sP []) (bits (cmd 4 2) 2 0)).state = 0) ∧
      (configureBad (sP []) (bits (cmd 4 2) 2 0) (rdWords (sP []) (tableBase (sP []) + 4096 + 256 * bits (cmd 4 2) 2
      0) 32) (List.filter
      (fun x => match x with | (fst, e) => bit e 63 && !bit e 20 && decide (bits e 19 17 = bits (cmd 4 2) 2 0))
      (mapEntries (sP []) (tableBase (sP [])))) = false)) ∧
    ((mgrHart (sP [(2, p1)]) mk = true) ∧ (bit (1048576 : Word) 16 = false) ∧ (bit (1048576 : Word) 11 = false) ∧
      (rtbaseHeld (sP [(2, p1)]) mk (1048576 : Word) = none) ∧ ((∃ x ∈ (sP [(2, p1)]).parts, x.2.state ≠ 0) ∨
      tableBad (sP [(2, p1)]) (bits (1048576 : Word) 63 16 * 65536) = true)) ∧
    ((mgrHart (sP []) mk = true) ∧ (bit (2097152 : Word) 16 = false) ∧ (bit (2097152 : Word) 11 = false) ∧
      (rtbaseHeld (sP []) mk (2097152 : Word) = none) ∧ ((∃ x ∈ (sP []).parts, x.2.state ≠ 0) ∨ tableBad (sP [])
      (bits (2097152 : Word) 63 16 * 65536) = true)) ∧
    ((mgrHart (sP []) mk = true) ∧ (bit (1048576 : Word) 16 = false) ∧ (bit (1048576 : Word) 11 = false) ∧
      (rtbaseHeld (sP []) mk (1048576 : Word) = none) ∧ (∀ x ∈ (sP []).parts, x.2.state = 0) ∧ (tableBad (sP [])
      (bits (1048576 : Word) 63 16 * 65536) = false)) :=
  ⟨by decide +kernel,
   by decide +kernel,
   by decide +kernel,
   by decide +kernel,
   by decide +kernel,
   by decide +kernel,
   by decide +kernel,
   ⟨by decide +kernel, by decide +kernel, by decide +kernel, by decide +kernel, by decide +kernel, by decide +kernel, (show bits (cmd 4 2) 2 0 = 2 from by decide +kernel) ▸ test_configure_accepted⟩,
   by decide +kernel,
   by decide +kernel,
   ⟨by decide +kernel, by decide +kernel, by decide +kernel, by decide +kernel, by decide +kernel, (show bits (1048576 : Word) 63 16 * 65536 = 0x10_0000 from by decide +kernel) ▸ test_table_accepted⟩⟩

/-- The package totals of R25's table. -/
theorem test_resources_of_the_package :
    ([.coreSram, .tileFile, .registerFile, .syncEntries, .rangeLocks, .copies, .accumulators, .handlerSram, .latencyL2, .latencyL3,
      .capacityTier].map fun r : Config.Resource => r.perUnit * r.units) =
    [256 * 2 ^ 20, 64 * 2 ^ 20, 128 * 2 ^ 20, 16384, 16384, 4096, 128 * 2 ^ 20, 16 * 2 ^ 20, 144 * 2 ^ 20, 192 * 2 ^ 20, 2 * 2 ^ 40] := by
  decide +kernel

end Sys2Proof.Tests.Part

/-! Welt modules. -/

namespace Sys2Proof.Tests.Welt

open Sys2Proof.Machine

def mk : Nat := 0x10_0000

def hm : Hart := { running := true, mode := .machine, part := 8, mgr := true }

def sW (x : Welt) : State :=
  { base with harts := [(mk, hm)], threads := [(mk, th0)], welts := [(2, x)], weltsel := 2 }

def v (n : Nat) : Word := w64 (2 ^ 62 + 2 ^ 49 + 0x234 * 2 ^ 32 + 2 ^ 31 + n)

def v1 := sW { busy := 1 }

def v2 := sW { st := 3 }

def v3 := sW { st := 1, err := true, hi := true }

def v4 := sW { st := 3, width := 32 }

def v5 := sW { st := 3, map := 0x8080_8080 }

def v6 := sW { st := 0 }

def v7 := sW { st := 2 }

def v8 := sW { st := 0, map := 0x0101_0101 }

def v9 := sW { st := 1 }

def v10 := sW { st := 4, busy := 4 }

def v11 := sW { st := 3, busy := 4 }

def v12 := sW { st := 2, busy := 8 }

def v13 := sW { st := 3, busy := 8 }

def v14 := sW { st := 2, rcur := 0xFFFF, rtot := 0xFFFF_FFFF, replays := 15 }

def v15 := sW { st := 3, rcur := 0xFFFF, rtot := 0xFFFF_FFFF, replays := 15 }

def v16 := { sW {} with us := 999 }

def v17 := { sW { rcur := 0x100 } with us := 1000 }

/-- States and operands that meet the premises of `Obligations.WeltModules`, each of its cases in turn. -/
theorem test_premises_WeltModules :
    ((mgrHart v1 mk = true) ∧ ((Instr.weltctlPause mk (v 1), 1) ∈ [(Instr.weltctlPause mk (v 1), 1),
      (Instr.weltctlResume mk (v 1), 2), (Instr.weltctlRetrainX64 mk (v 1), 3), (Instr.weltctlRetrainX32 mk (v 1),
      4), (Instr.weltctlDown mk (v 1), 5)]) ∧ (bits (v 1) 2 0 = 1) ∧ ((welt v1 (weltNo v1)).isBusy = true)) ∧
    ((mgrHart v2 mk = true) ∧ ((Instr.weltctlPause mk (v 1), 1) ∈ [(Instr.weltctlPause mk (v 1), 1),
      (Instr.weltctlResume mk (v 1), 2), (Instr.weltctlRetrainX64 mk (v 1), 3), (Instr.weltctlRetrainX32 mk (v 1),
      4), (Instr.weltctlDown mk (v 1), 5)]) ∧ (bits (v 1) 2 0 = 1) ∧ ((welt v2 (weltNo v2)).isBusy = false) ∧ (¬if 1
      = 1 then (welt v2 (weltNo v2)).st = 1 ∨ (welt v2 (weltNo v2)).st = 2 else if 1 = 2 then (welt v2 (weltNo
      v2)).st = 3 else if 1 = 5 then (welt v2 (weltNo v2)).st = 1 ∨ (welt v2 (weltNo v2)).st = 2 ∨ (welt v2 (weltNo
      v2)).st = 3 else ((welt v2 (weltNo v2)).st = 0 ∨ (welt v2 (weltNo v2)).st = 3) ∧ sparesClash (welt v2 (weltNo
      v2)).map = false)) ∧
    ((mgrHart v3 mk = true) ∧ ((Instr.weltctlPause mk (v 1), 1) ∈ [(Instr.weltctlPause mk (v 1), 1),
      (Instr.weltctlResume mk (v 1), 2), (Instr.weltctlRetrainX64 mk (v 1), 3), (Instr.weltctlRetrainX32 mk (v 1),
      4), (Instr.weltctlDown mk (v 1), 5)]) ∧ (bits (v 1) 2 0 = 1) ∧ ((welt v3 (weltNo v3)).isBusy = false) ∧ (if 1
      = 1 then (welt v3 (weltNo v3)).st = 1 ∨ (welt v3 (weltNo v3)).st = 2 else if 1 = 2 then (welt v3 (weltNo
      v3)).st = 3 else if 1 = 5 then (welt v3 (weltNo v3)).st = 1 ∨ (welt v3 (weltNo v3)).st = 2 ∨ (welt v3 (weltNo
      v3)).st = 3 else ((welt v3 (weltNo v3)).st = 0 ∨ (welt v3 (weltNo v3)).st = 3) ∧ sparesClash (welt v3 (weltNo
      v3)).map = false)) ∧
    ((mgrHart v4 mk = true) ∧ ((Instr.weltctlResume mk (v 2), 2) ∈ [(Instr.weltctlPause mk (v 2), 1),
      (Instr.weltctlResume mk (v 2), 2), (Instr.weltctlRetrainX64 mk (v 2), 3), (Instr.weltctlRetrainX32 mk (v 2),
      4), (Instr.weltctlDown mk (v 2), 5)]) ∧ (bits (v 2) 2 0 = 2) ∧ ((welt v4 (weltNo v4)).isBusy = false) ∧ (if 2
      = 1 then (welt v4 (weltNo v4)).st = 1 ∨ (welt v4 (weltNo v4)).st = 2 else if 2 = 2 then (welt v4 (weltNo
      v4)).st = 3 else if 2 = 5 then (welt v4 (weltNo v4)).st = 1 ∨ (welt v4 (weltNo v4)).st = 2 ∨ (welt v4 (weltNo
      v4)).st = 3 else ((welt v4 (weltNo v4)).st = 0 ∨ (welt v4 (weltNo v4)).st = 3) ∧ sparesClash (welt v4 (weltNo
      v4)).map = false)) ∧
    ((mgrHart v5 mk = true) ∧ ((Instr.weltctlRetrainX64 mk (v 3), 3) ∈ [(Instr.weltctlPause mk (v 3), 1),
      (Instr.weltctlResume mk (v 3), 2), (Instr.weltctlRetrainX64 mk (v 3), 3), (Instr.weltctlRetrainX32 mk (v 3),
      4), (Instr.weltctlDown mk (v 3), 5)]) ∧ (bits (v 3) 2 0 = 3) ∧ ((welt v5 (weltNo v5)).isBusy = false) ∧ (if 3
      = 1 then (welt v5 (weltNo v5)).st = 1 ∨ (welt v5 (weltNo v5)).st = 2 else if 3 = 2 then (welt v5 (weltNo
      v5)).st = 3 else if 3 = 5 then (welt v5 (weltNo v5)).st = 1 ∨ (welt v5 (weltNo v5)).st = 2 ∨ (welt v5 (weltNo
      v5)).st = 3 else ((welt v5 (weltNo v5)).st = 0 ∨ (welt v5 (weltNo v5)).st = 3) ∧ sparesClash (welt v5 (weltNo
      v5)).map = false)) ∧
    ((mgrHart v6 mk = true) ∧ ((Instr.weltctlRetrainX32 mk (v 4), 4) ∈ [(Instr.weltctlPause mk (v 4), 1),
      (Instr.weltctlResume mk (v 4), 2), (Instr.weltctlRetrainX64 mk (v 4), 3), (Instr.weltctlRetrainX32 mk (v 4),
      4), (Instr.weltctlDown mk (v 4), 5)]) ∧ (bits (v 4) 2 0 = 4) ∧ ((welt v6 (weltNo v6)).isBusy = false) ∧ (if 4
      = 1 then (welt v6 (weltNo v6)).st = 1 ∨ (welt v6 (weltNo v6)).st = 2 else if 4 = 2 then (welt v6 (weltNo
      v6)).st = 3 else if 4 = 5 then (welt v6 (weltNo v6)).st = 1 ∨ (welt v6 (weltNo v6)).st = 2 ∨ (welt v6 (weltNo
      v6)).st = 3 else ((welt v6 (weltNo v6)).st = 0 ∨ (welt v6 (weltNo v6)).st = 3) ∧ sparesClash (welt v6 (weltNo
      v6)).map = false)) ∧
    ((mgrHart v7 mk = true) ∧ ((Instr.weltctlDown mk (v 5), 5) ∈ [(Instr.weltctlPause mk (v 5), 1),
      (Instr.weltctlResume mk (v 5), 2), (Instr.weltctlRetrainX64 mk (v 5), 3), (Instr.weltctlRetrainX32 mk (v 5),
      4), (Instr.weltctlDown mk (v 5), 5)]) ∧ (bits (v 5) 2 0 = 5) ∧ ((welt v7 (weltNo v7)).isBusy = false) ∧ (if 5
      = 1 then (welt v7 (weltNo v7)).st = 1 ∨ (welt v7 (weltNo v7)).st = 2 else if 5 = 2 then (welt v7 (weltNo
      v7)).st = 3 else if 5 = 5 then (welt v7 (weltNo v7)).st = 1 ∨ (welt v7 (weltNo v7)).st = 2 ∨ (welt v7 (weltNo
      v7)).st = 3 else ((welt v7 (weltNo v7)).st = 0 ∨ (welt v7 (weltNo v7)).st = 3) ∧ sparesClash (welt v7 (weltNo
      v7)).map = false)) ∧
    ((mgrHart v8 mk = true) ∧ ((Instr.weltctlRetrainX32 mk (v 4), 4) ∈ [(Instr.weltctlPause mk (v 4), 1),
      (Instr.weltctlResume mk (v 4), 2), (Instr.weltctlRetrainX64 mk (v 4), 3), (Instr.weltctlRetrainX32 mk (v 4),
      4), (Instr.weltctlDown mk (v 4), 5)]) ∧ (bits (v 4) 2 0 = 4) ∧ ((welt v8 (weltNo v8)).isBusy = false) ∧ (¬if 4
      = 1 then (welt v8 (weltNo v8)).st = 1 ∨ (welt v8 (weltNo v8)).st = 2 else if 4 = 2 then (welt v8 (weltNo
      v8)).st = 3 else if 4 = 5 then (welt v8 (weltNo v8)).st = 1 ∨ (welt v8 (weltNo v8)).st = 2 ∨ (welt v8 (weltNo
      v8)).st = 3 else ((welt v8 (weltNo v8)).st = 0 ∨ (welt v8 (weltNo v8)).st = 3) ∧ sparesClash (welt v8 (weltNo
      v8)).map = false)) ∧
    ((mgrHart v2 mk = true) ∧ ((welt v2 (weltNo v2)).st = 0 ∨ (welt v2 (weltNo v2)).st = 3)) ∧
    ((mgrHart v9 mk = true) ∧ (¬((welt v9 (weltNo v9)).st = 0 ∨ (welt v9 (weltNo v9)).st = 3))) ∧
    (((welt v12 2).busy = 1 ∨ (welt v12 2).busy = 8) ∧ ((welt v12 2).st = 1 ∨ (welt v12 2).st = 2)) ∧
    ((welt v13 2).busy = 0 ∨ (welt v13 2).st = 3) ∧
    (v16.us < v16.windowUs + 1000) ∧
    (v17.windowUs + 1000 ≤ v17.us) :=
  by and_intros <;> decide +kernel

end Sys2Proof.Tests.Welt

/-! Ports. -/

namespace Sys2Proof.Tests.Link

open Sys2Proof.Machine

def putW (s : State) (a : Nat) (l : List Word) : State := (l.zipIdx).foldl (fun s (v, i) => wrWord s (a + 8 * i) v)
  s

def te (a b c : Word) : Thread := { th0 with x := [(11, a), (12, b), (13, c)] }

def bv (n x : Nat) : Word := w64 (64 * n + x + 256)

def sB : State :=
  { onHart h1 (te 1 2 3) with parts := [(1, { p1 with bcport := 0x100 })], ports := [(0, { st := 2, lanes := 0xF }), (1, { st := 1 })] }

def rq (w : Bool) (pa : Nat) : HomeReq :=
  { tag := 1, kind := .pcie, tid := 7, key := hk, write := w, pa := pa, va := 0x5000, data := [1, 2, 3], len := 3 }

def pl : PendOp :=
  { pc := 0x400, bits := 0x23, op1 := 0x8008, op2 := 0x1234, kind := .load 2 true false, rd := 10, sent := true, value := 77 }

def sFl : State := onSimt { te 1 2 3 with ops := [pl] }

def cpx : Copy :=
  { id := 3, part := 1, satp := satp1, solo := true, die := 0, core := 0, team := 0, serial := 0, saves := 0, seq := 0, maj := 0x59, fn := 0, dir := true, s1 := 0x3000, s2 := 0x5000, s3 := 16, layout := [], entry := 0, nosync := true, state := 2, done := 0, nominal := 16, home := none, touches := [], touchAll := true, key := 0, tid := 7, tidx := 0, flags := 0, index := none, orig := [] }

def v1 := { sFl with copies := [cpx] }

def sSn : State :=
  { base with l1 := [{ core := 0, line := 0x3000 / 64, data := [(3, 0x55), (4, 0x66)], dirty := [(3, true)] }, { core := 0, line := 7, data := [], dirty := [] }], resvs := [(hk, 0x3008, 8), (hk, 0x4000, 8)] }

def pE : Partition := { p1 with ethrq := 0x50_0000 }

def qrec (d0 d1 d2 posted done : Word) : List Word := [d0, d1, d2, posted, done, 0, 0, 0]

def sE (q : List Word) (len : Word) : State :=
  { putW (putW (putW base 0x50_0000 q) 0x6000 [0x7000, len]) 0x7000 [0x1122334455667788] with parts := [(1, pE)] }

def on : Word := w64 (2 ^ 63)

def bs : List Byte := [1, 2, 3, 4, 5]

def v2 := sE (qrec 0x6004 0 0 1 0) 100

def v3 := { sE (qrec 0x6004 0 on 1 0) 100 with parts := [(1, { pE with state := 3 })] }

def v4 := sE (qrec 0x6004 0 (on + w64 (2 ^ 62)) 1 1) 100

def v5 := sE (qrec 0x6004 0 on 1 0) 4

def v6 := sE (qrec 0x6004 0 on 1 0) 5

def v7 := sE (qrec 0x6004 0 on 1 1) 5

def sPf : State := { sE (qrec 0x6004 0 on 1 1) 5 with us := 9, eth := [(0, { paused := [(8, 0, 7), (3, 24, 8)] })] }

def sPf2 : State := { sPf with mem := (putW sPf (0x50_0000 + 64 * 24) (qrec 0x6004 0 on 1 1)).mem }

def sTx (q : List Word) (len : Word) : State := { putW (sE [] len) (0x50_0000 + 64 * 64) q with parts := [(1, pE)] }

def v8 := sTx (qrec 0x6004 0 on 1 1) 60

def v9 := sTx (qrec 0x6004 0 on 1 0) 59

def v10 := sTx (qrec 0x6004 0 on 1 0) 9217

def v11 := sTx (qrec 0x6004 0 on 1 0) 60

def v12 := { base with parts := [(1, { p1 with state := 3 })] }

/-- The frame at queue 0 of port 0, and a handler that holds the line of the queue's record. -/
def fr : EthFrame := { queue := 0, tagged := false, bytes := bs }

def vHeld : State :=
  { v6 with slices := [(0, { run := some { (default : Invocation) with held := [(0x50_0000 / 64, [])], lines := [0x50_0000 / 64] } })] }

def noneN : Option Nat := none

def holds (s : State) (a : Nat) : State :=
  { s with slices := [(0, { run := some { (default : Invocation) with held := [(a / 64, [])], lines := [a / 64] } })] }

def vHeldS : State := holds v6 0x7000

def vHeldT : State := holds v11 0x7000

/-- States and operands that meet the premises of `Obligations.BolcelPorts`, each of its cases in turn. -/
theorem test_premises_BolcelPorts :
    ((supHart sB hk = true) ∧ ((Instr.bcportRetrain hk (bv 1 0), 1) ∈ [(Instr.bcportRetrain hk (bv 1 0), 1),
      (Instr.bcportDown hk (bv 1 0), 2)]) ∧ (bits (bv 1 0) 7 6 = 1)) ∧
    ((supHart sB hk = true) ∧ ((Instr.bcportDown hk (bv 2 0), 2) ∈ [(Instr.bcportRetrain hk (bv 2 0), 1),
      (Instr.bcportDown hk (bv 2 0), 2)]) ∧ (bits (bv 2 0) 7 6 = 2)) ∧
    ((supHart sB hk = true) ∧ ((Instr.bcportDown hk (bv 2 1), 2) ∈ [(Instr.bcportRetrain hk (bv 2 1), 1),
      (Instr.bcportDown hk (bv 2 1), 2)]) ∧ (bits (bv 2 1) 7 6 = 2)) ∧
    ((port sB 1).st = 1) ∧
    ((port sB 0).st ≠ 1) ∧
    (portUp sB 0 = false ∨ bit (granule sB (rq true 1073741824).pa) 63 = false ∨ bit (granule sB (rq true
      1073741824).pa) 20 = true ∨ (part sB (bits (granule sB (rq true 1073741824).pa) 19 17)).state = 3 ∨ inRanges
      sB (bits (granule sB (rq true 1073741824).pa) 19 17) (rq true 1073741824).pa (if (rq true 1073741824).write =
      true then (rq true 1073741824).data.length else (rq true 1073741824).len) = false ∨ postClear sB (bolcelDie 0)
      (rq true 1073741824).pa (if (rq true 1073741824).write = true then (rq true 1073741824).data.length else (rq
      true 1073741824).len) = false ∨ (rq true 1073741824).write = false ∧ ∀ x ∈ sB.l1, x.line ≠ (rq true
      1073741824).pa / 64) ∧
    (portUp sB 1 = false ∨ bit (granule sB (rq true 12288).pa) 63 = false ∨ bit (granule sB (rq true 12288).pa) 20 =
      true ∨ (part sB (bits (granule sB (rq true 12288).pa) 19 17)).state = 3 ∨ inRanges sB (bits (granule sB (rq
      true 12288).pa) 19 17) (rq true 12288).pa (if (rq true 12288).write = true then (rq true 12288).data.length
      else (rq true 12288).len) = false ∨ postClear sB (bolcelDie 1) (rq true 12288).pa (if (rq true 12288).write =
      true then (rq true 12288).data.length else (rq true 12288).len) = false ∨ (rq true 12288).write = false ∧ ∀ x
      ∈ sB.l1, x.line ≠ (rq true 12288).pa / 64) ∧
    ((portUp sB 0 = true) ∧ (bit (granule sB (rq true 12288).pa) 63 = true) ∧ (bit (granule sB (rq true 12288).pa)
      20 = false) ∧ ((part sB (bits (granule sB (rq true 12288).pa) 19 17)).state ≠ 3) ∧ (inRanges sB (bits (granule
      sB (rq true 12288).pa) 19 17) (rq true 12288).pa (if (rq true 12288).write = true then (rq true
      12288).data.length else (rq true 12288).len) = true) ∧ (postClear sB (bolcelDie 0) (rq true 12288).pa (if (rq
      true 12288).write = true then (rq true 12288).data.length else (rq true 12288).len) = true) ∧ ((rq true
      12288).write = true)) ∧
    ((some 0 = some 0) ∧ ((port sB 0).st ≠ 0) ∧ ((port sB 0).st ≠ 4)) ∧
    (1999 < 2000) ∧
    (2000 ≤ 2000) ∧
    ((∀ (x : ℕ), noneN = some x → (port sFl x).st = 0 ∨ (port sFl x).st = 4) ∧ (isSimt 0 = true) ∧ (occupied sFl 0 =
      true) ∧ ((thr sFl 0).helper = false) ∧ ((thr sFl 0).trap.inh = false) ∧ ((thr sFl 0).trap.hvec ≠ 0) ∧ ((thr
      sFl 0).st ≠ TState.blocked) ∧ ((thr sFl 0).ops = [pl]) ∧ (pl.sent = true) ∧ (pl.kind = OpKind.load 2 true
      false) ∧ (opAddr pl.kind pl.op1 = w64 32776) ∧ (∀ x ∈ sFl.walks, x.key = 0 → x.phase ≠ 2)) ∧
    ((∀ (x : ℕ), noneN = some x → (port sFl x).st = 0 ∨ (port sFl x).st = 4) ∧ (mkeys sFl.threads = true) ∧ (isCob 0
      = false) ∧ (occupied sFl 0 = true) ∧ (partOf sFl 0 = 1) ∧ ((thr sFl 0).tid = 7) ∧ ((thr sFl 0).helper = false)
      ∧ ((thr sFl 0).away = false) ∧ ((thr sFl 0).st ≠ TState.exited) ∧ (∀ x ∈ sFl.threads, x.2.tid = 7 → x.1 = 0)) ∧
    ((∀ (x : ℕ), noneN = some x → (port v1 x).st = 0 ∨ (port v1 x).st = 4) ∧ (v1.copies = [cpx]) ∧ (cpx.state = 2) ∧
      (cpx.solo = true) ∧ (∀ x ∈ v1.threads, x.2.wait = Wait.none)) ∧
    ((∀ (x : ℕ), some 5 = some x → (port sFl x).st = 0 ∨ (port sFl x).st = 4) ∧ (isSimt 0 = true) ∧ (occupied sFl 0
      = true) ∧ ((thr sFl 0).helper = false) ∧ ((thr sFl 0).trap.inh = false) ∧ ((thr sFl 0).trap.hvec ≠ 0) ∧ ((thr
      sFl 0).st ≠ TState.blocked) ∧ ((thr sFl 0).ops = [pl]) ∧ (pl.sent = true) ∧ (pl.kind = OpKind.load 2 true
      false) ∧ (opAddr pl.kind pl.op1 = w64 32776) ∧ (∀ x ∈ sFl.walks, x.key = 0 → x.phase ≠ 2)) ∧
    ((∀ (x : ℕ), some 5 = some x → (port sFl x).st = 0 ∨ (port sFl x).st = 4) ∧ (mkeys sFl.threads = true) ∧ (isCob
      0 = false) ∧ (occupied sFl 0 = true) ∧ (partOf sFl 0 = 1) ∧ ((thr sFl 0).tid = 7) ∧ ((thr sFl 0).helper =
      false) ∧ ((thr sFl 0).away = false) ∧ ((thr sFl 0).st ≠ TState.exited) ∧ (∀ x ∈ sFl.threads, x.2.tid = 7 → x.1
      = 0)) ∧
    ((∀ (x : ℕ), some 5 = some x → (port v1 x).st = 0 ∨ (port v1 x).st = 4) ∧ (v1.copies = [cpx]) ∧ (cpx.state = 2)
      ∧ (cpx.solo = true) ∧ (∀ x ∈ v1.threads, x.2.wait = Wait.none)) :=
  ⟨by decide +kernel,
   by decide +kernel,
   by decide +kernel,
   by decide +kernel,
   by decide +kernel,
   by decide +kernel,
   by decide +kernel,
   by decide +kernel,
   by decide +kernel,
   by decide +kernel,
   by decide +kernel,
   by decide +kernel,
   by decide +kernel,
   by decide +kernel,
   by decide +kernel,
   by decide +kernel,
   by decide +kernel⟩

/-- States and operands that meet the premises of `Obligations.EthernetAndDma`, each of its cases in turn. -/
theorem test_premises_EthernetAndDma :
    ((∀ y ∈ (ethPort sPf2 0).paused, ethFree sPf2 0 y.2.1 = false) ∧ (∀ f ∈ (ethPort sPf2 0).buffer, ∃ y ∈ (ethPort
      sPf2 0).paused, y.2.1 = f.queue)) ∧
    (ethOwner base 0 = none ∨ 63 < 64 ∨ 128 ≤ 63) ∧
    ((ethOwner v8 0 = some 1) ∧ (64 ≤ 64) ∧ (64 < 128) ∧ ((part v8 1).state ≠ 3) ∧ (inRanges v8 1 (ethRec v8 1 0 64)
      64 = true) ∧ (poisoned v8 (ethRec v8 1 0 64) 64 = false) ∧ (ethOn (rdWords v8 (ethRec v8 1 0 64) 8) = false ∨
      ethSlot (rdWords v8 (ethRec v8 1 0 64) 8) = false)) ∧
    (2 ≤ 2 ∨ 8 ≤ 0 ∨ List.find? (fun p => decide ((part base p).state ≠ 0) && (part base p).io.testBit (8 + 8 * 2 +
      0)) (List.range 8) = none) ∧
    ((0 < 2) ∧ (0 < 8) ∧ (List.find? (fun p => decide ((part v12 p).state ≠ 0) && (part v12 p).io.testBit (8 + 8 * 0
      + 0)) (List.range 8) = some 1) ∧ ((part v12 1).state = 3 ∨ ¬homeOpen v12 (pcieDie 0) 12288 = true)) ∧
    ((0 < 2) ∧ (0 < 8) ∧ (List.find? (fun p => decide ((part base p).state ≠ 0) && (part base p).io.testBit (8 + 8 *
      0 + 0)) (List.range 8) = some 1) ∧ (homeOpen base (pcieDie 0) 1073741824 = true) ∧ ((part base 1).state ≠ 3) ∧
      (inRanges base 1 1073741824 bs.length = false)) ∧
    ((0 < 2) ∧ (0 < 8) ∧ (List.find? (fun p => decide ((part base p).state ≠ 0) && (part base p).io.testBit (8 + 8 *
      0 + 0)) (List.range 8) = some 1) ∧ (homeOpen base (pcieDie 0) 12288 = true) ∧ ((part base 1).state ≠ 3) ∧
      (inRanges base 1 12288 bs.length = true) ∧ (lineHeld base hwKey 12288 bs.length = true ∨ false = false ∧ ∀ x ∈
      base.l1, x.line ≠ (12288 / 64 : ℕ))) ∧
    ((0 < 2) ∧ (0 < 8) ∧ (List.find? (fun p => decide ((part base p).state ≠ 0) && (part base p).io.testBit (8 + 8 *
      0 + 0)) (List.range 8) = some 1) ∧ (homeOpen base (pcieDie 0) 12288 = true) ∧ ((part base 1).state ≠ 3) ∧
      (inRanges base 1 12288 bs.length = true) ∧ (lineHeld base hwKey 12288 bs.length = false) ∧ (true = true)) ∧
    (((ethPort (sE [] (0 : Word)) 1).paused = []) ∧ ((ethPort (sE [] (0 : Word)) 1).buffer = []) ∧ (9216 < bs.length
      ∨ ethOwner (sE [] (0 : Word)) 1 = none)) ∧
    (((ethPort v3 0).paused = []) ∧ ((ethPort v3 0).buffer = []) ∧ (bs.length ≤ 9216) ∧ (ethOwner v3 0 = some 1) ∧
      (inRanges v3 1 (ethRec v3 1 0 (0 : Nat)) 64 = true) ∧ ((part v3 1).state = 3) ∧ (postClear v3 (ethDie 0)
      (ethRec v3 1 0 (0 : Nat) + 40) 8 = true) ∧ (poisoned v3 (ethRec v3 1 0 (0 : Nat)) 64 = false)) ∧
    (((ethPort
      { turns := v6.turns, focus := v6.focus, cur := v6.cur, cycle := v6.cycle, us := v6.us, freeIdx := v6.freeIdx, nextId := v6.nextId, mem := v6.mem, stale := v6.stale, posted := v6.posted, resvs := v6.resvs, poison := [(5242880 / 64 : ℕ)], pinned := v6.pinned, zeroTags := v6.zeroTags, l1 := v6.l1, rtbase := v6.rtbase, granules := v6.granules, partctl := v6.partctl, parts := v6.parts, harts := v6.harts, threads := v6.threads, held := v6.held, teams := v6.teams, cores := v6.cores, engines := v6.engines, copies := v6.copies, rowOps := v6.rowOps, transits := v6.transits, laces := v6.laces, laced := v6.laced, eyelets := v6.eyelets, slices := v6.slices, tlb := v6.tlb, walkCache := v6.walkCache, walks := v6.walks, shoots := v6.shoots, msis := v6.msis, intPages := v6.intPages, mirqs := v6.mirqs, errLog := v6.errLog, invals := v6.invals, actCorr := v6.actCorr, actSatn := v6.actSatn, actThresh := v6.actThresh, rowCnt := v6.rowCnt, rowDue := v6.rowDue, weltsel := v6.weltsel, welts := v6.welts, windowUs := v6.windowUs, ports := v6.ports, eth := v6.eth, boot := v6.boot : State }
      0).paused = []) ∧ ((ethPort
      { turns := v6.turns, focus := v6.focus, cur := v6.cur, cycle := v6.cycle, us := v6.us, freeIdx := v6.freeIdx, nextId := v6.nextId, mem := v6.mem, stale := v6.stale, posted := v6.posted, resvs := v6.resvs, poison := [(5242880 / 64 : ℕ)], pinned := v6.pinned, zeroTags := v6.zeroTags, l1 := v6.l1, rtbase := v6.rtbase, granules := v6.granules, partctl := v6.partctl, parts := v6.parts, harts := v6.harts, threads := v6.threads, held := v6.held, teams := v6.teams, cores := v6.cores, engines := v6.engines, copies := v6.copies, rowOps := v6.rowOps, transits := v6.transits, laces := v6.laces, laced := v6.laced, eyelets := v6.eyelets, slices := v6.slices, tlb := v6.tlb, walkCache := v6.walkCache, walks := v6.walks, shoots := v6.shoots, msis := v6.msis, intPages := v6.intPages, mirqs := v6.mirqs, errLog := v6.errLog, invals := v6.invals, actCorr := v6.actCorr, actSatn := v6.actSatn, actThresh := v6.actThresh, rowCnt := v6.rowCnt, rowDue := v6.rowDue, weltsel := v6.weltsel, welts := v6.welts, windowUs := v6.windowUs, ports := v6.ports, eth := v6.eth, boot := v6.boot : State }
      0).buffer = []) ∧ (bs.length ≤ 9216) ∧ (ethOwner
      { turns := v6.turns, focus := v6.focus, cur := v6.cur, cycle := v6.cycle, us := v6.us, freeIdx := v6.freeIdx, nextId := v6.nextId, mem := v6.mem, stale := v6.stale, posted := v6.posted, resvs := v6.resvs, poison := [(5242880 / 64 : ℕ)], pinned := v6.pinned, zeroTags := v6.zeroTags, l1 := v6.l1, rtbase := v6.rtbase, granules := v6.granules, partctl := v6.partctl, parts := v6.parts, harts := v6.harts, threads := v6.threads, held := v6.held, teams := v6.teams, cores := v6.cores, engines := v6.engines, copies := v6.copies, rowOps := v6.rowOps, transits := v6.transits, laces := v6.laces, laced := v6.laced, eyelets := v6.eyelets, slices := v6.slices, tlb := v6.tlb, walkCache := v6.walkCache, walks := v6.walks, shoots := v6.shoots, msis := v6.msis, intPages := v6.intPages, mirqs := v6.mirqs, errLog := v6.errLog, invals := v6.invals, actCorr := v6.actCorr, actSatn := v6.actSatn, actThresh := v6.actThresh, rowCnt := v6.rowCnt, rowDue := v6.rowDue, weltsel := v6.weltsel, welts := v6.welts, windowUs := v6.windowUs, ports := v6.ports, eth := v6.eth, boot := v6.boot : State }
      0 = some 1) ∧ (inRanges
      { turns := v6.turns, focus := v6.focus, cur := v6.cur, cycle := v6.cycle, us := v6.us, freeIdx := v6.freeIdx, nextId := v6.nextId, mem := v6.mem, stale := v6.stale, posted := v6.posted, resvs := v6.resvs, poison := [(5242880 / 64 : ℕ)], pinned := v6.pinned, zeroTags := v6.zeroTags, l1 := v6.l1, rtbase := v6.rtbase, granules := v6.granules, partctl := v6.partctl, parts := v6.parts, harts := v6.harts, threads := v6.threads, held := v6.held, teams := v6.teams, cores := v6.cores, engines := v6.engines, copies := v6.copies, rowOps := v6.rowOps, transits := v6.transits, laces := v6.laces, laced := v6.laced, eyelets := v6.eyelets, slices := v6.slices, tlb := v6.tlb, walkCache := v6.walkCache, walks := v6.walks, shoots := v6.shoots, msis := v6.msis, intPages := v6.intPages, mirqs := v6.mirqs, errLog := v6.errLog, invals := v6.invals, actCorr := v6.actCorr, actSatn := v6.actSatn, actThresh := v6.actThresh, rowCnt := v6.rowCnt, rowDue := v6.rowDue, weltsel := v6.weltsel, welts := v6.welts, windowUs := v6.windowUs, ports := v6.ports, eth := v6.eth, boot := v6.boot : State }
      1 (ethRec
      { turns := v6.turns, focus := v6.focus, cur := v6.cur, cycle := v6.cycle, us := v6.us, freeIdx := v6.freeIdx, nextId := v6.nextId, mem := v6.mem, stale := v6.stale, posted := v6.posted, resvs := v6.resvs, poison := [(5242880 / 64 : ℕ)], pinned := v6.pinned, zeroTags := v6.zeroTags, l1 := v6.l1, rtbase := v6.rtbase, granules := v6.granules, partctl := v6.partctl, parts := v6.parts, harts := v6.harts, threads := v6.threads, held := v6.held, teams := v6.teams, cores := v6.cores, engines := v6.engines, copies := v6.copies, rowOps := v6.rowOps, transits := v6.transits, laces := v6.laces, laced := v6.laced, eyelets := v6.eyelets, slices := v6.slices, tlb := v6.tlb, walkCache := v6.walkCache, walks := v6.walks, shoots := v6.shoots, msis := v6.msis, intPages := v6.intPages, mirqs := v6.mirqs, errLog := v6.errLog, invals := v6.invals, actCorr := v6.actCorr, actSatn := v6.actSatn, actThresh := v6.actThresh, rowCnt := v6.rowCnt, rowDue := v6.rowDue, weltsel := v6.weltsel, welts := v6.welts, windowUs := v6.windowUs, ports := v6.ports, eth := v6.eth, boot := v6.boot : State }
      1 0 (0 : Nat)) 64 = true) ∧ ((part
      { turns := v6.turns, focus := v6.focus, cur := v6.cur, cycle := v6.cycle, us := v6.us, freeIdx := v6.freeIdx, nextId := v6.nextId, mem := v6.mem, stale := v6.stale, posted := v6.posted, resvs := v6.resvs, poison := [(5242880 / 64 : ℕ)], pinned := v6.pinned, zeroTags := v6.zeroTags, l1 := v6.l1, rtbase := v6.rtbase, granules := v6.granules, partctl := v6.partctl, parts := v6.parts, harts := v6.harts, threads := v6.threads, held := v6.held, teams := v6.teams, cores := v6.cores, engines := v6.engines, copies := v6.copies, rowOps := v6.rowOps, transits := v6.transits, laces := v6.laces, laced := v6.laced, eyelets := v6.eyelets, slices := v6.slices, tlb := v6.tlb, walkCache := v6.walkCache, walks := v6.walks, shoots := v6.shoots, msis := v6.msis, intPages := v6.intPages, mirqs := v6.mirqs, errLog := v6.errLog, invals := v6.invals, actCorr := v6.actCorr, actSatn := v6.actSatn, actThresh := v6.actThresh, rowCnt := v6.rowCnt, rowDue := v6.rowDue, weltsel := v6.weltsel, welts := v6.welts, windowUs := v6.windowUs, ports := v6.ports, eth := v6.eth, boot := v6.boot : State }
      1).state ≠ 3) ∧ (poisoned
      { turns := v6.turns, focus := v6.focus, cur := v6.cur, cycle := v6.cycle, us := v6.us, freeIdx := v6.freeIdx, nextId := v6.nextId, mem := v6.mem, stale := v6.stale, posted := v6.posted, resvs := v6.resvs, poison := [(5242880 / 64 : ℕ)], pinned := v6.pinned, zeroTags := v6.zeroTags, l1 := v6.l1, rtbase := v6.rtbase, granules := v6.granules, partctl := v6.partctl, parts := v6.parts, harts := v6.harts, threads := v6.threads, held := v6.held, teams := v6.teams, cores := v6.cores, engines := v6.engines, copies := v6.copies, rowOps := v6.rowOps, transits := v6.transits, laces := v6.laces, laced := v6.laced, eyelets := v6.eyelets, slices := v6.slices, tlb := v6.tlb, walkCache := v6.walkCache, walks := v6.walks, shoots := v6.shoots, msis := v6.msis, intPages := v6.intPages, mirqs := v6.mirqs, errLog := v6.errLog, invals := v6.invals, actCorr := v6.actCorr, actSatn := v6.actSatn, actThresh := v6.actThresh, rowCnt := v6.rowCnt, rowDue := v6.rowDue, weltsel := v6.weltsel, welts := v6.welts, windowUs := v6.windowUs, ports := v6.ports, eth := v6.eth, boot := v6.boot : State }
      (ethRec
      { turns := v6.turns, focus := v6.focus, cur := v6.cur, cycle := v6.cycle, us := v6.us, freeIdx := v6.freeIdx, nextId := v6.nextId, mem := v6.mem, stale := v6.stale, posted := v6.posted, resvs := v6.resvs, poison := [(5242880 / 64 : ℕ)], pinned := v6.pinned, zeroTags := v6.zeroTags, l1 := v6.l1, rtbase := v6.rtbase, granules := v6.granules, partctl := v6.partctl, parts := v6.parts, harts := v6.harts, threads := v6.threads, held := v6.held, teams := v6.teams, cores := v6.cores, engines := v6.engines, copies := v6.copies, rowOps := v6.rowOps, transits := v6.transits, laces := v6.laces, laced := v6.laced, eyelets := v6.eyelets, slices := v6.slices, tlb := v6.tlb, walkCache := v6.walkCache, walks := v6.walks, shoots := v6.shoots, msis := v6.msis, intPages := v6.intPages, mirqs := v6.mirqs, errLog := v6.errLog, invals := v6.invals, actCorr := v6.actCorr, actSatn := v6.actSatn, actThresh := v6.actThresh, rowCnt := v6.rowCnt, rowDue := v6.rowDue, weltsel := v6.weltsel, welts := v6.welts, windowUs := v6.windowUs, ports := v6.ports, eth := v6.eth, boot := v6.boot : State }
      1 0 (0 : Nat)) 64 = true ∨ ethOpen
      { turns := v6.turns, focus := v6.focus, cur := v6.cur, cycle := v6.cycle, us := v6.us, freeIdx := v6.freeIdx, nextId := v6.nextId, mem := v6.mem, stale := v6.stale, posted := v6.posted, resvs := v6.resvs, poison := [(5242880 / 64 : ℕ)], pinned := v6.pinned, zeroTags := v6.zeroTags, l1 := v6.l1, rtbase := v6.rtbase, granules := v6.granules, partctl := v6.partctl, parts := v6.parts, harts := v6.harts, threads := v6.threads, held := v6.held, teams := v6.teams, cores := v6.cores, engines := v6.engines, copies := v6.copies, rowOps := v6.rowOps, transits := v6.transits, laces := v6.laces, laced := v6.laced, eyelets := v6.eyelets, slices := v6.slices, tlb := v6.tlb, walkCache := v6.walkCache, walks := v6.walks, shoots := v6.shoots, msis := v6.msis, intPages := v6.intPages, mirqs := v6.mirqs, errLog := v6.errLog, invals := v6.invals, actCorr := v6.actCorr, actSatn := v6.actSatn, actThresh := v6.actThresh, rowCnt := v6.rowCnt, rowDue := v6.rowDue, weltsel := v6.weltsel, welts := v6.welts, windowUs := v6.windowUs, ports := v6.ports, eth := v6.eth, boot := v6.boot : State }
      0 (ethRec
      { turns := v6.turns, focus := v6.focus, cur := v6.cur, cycle := v6.cycle, us := v6.us, freeIdx := v6.freeIdx, nextId := v6.nextId, mem := v6.mem, stale := v6.stale, posted := v6.posted, resvs := v6.resvs, poison := [(5242880 / 64 : ℕ)], pinned := v6.pinned, zeroTags := v6.zeroTags, l1 := v6.l1, rtbase := v6.rtbase, granules := v6.granules, partctl := v6.partctl, parts := v6.parts, harts := v6.harts, threads := v6.threads, held := v6.held, teams := v6.teams, cores := v6.cores, engines := v6.engines, copies := v6.copies, rowOps := v6.rowOps, transits := v6.transits, laces := v6.laces, laced := v6.laced, eyelets := v6.eyelets, slices := v6.slices, tlb := v6.tlb, walkCache := v6.walkCache, walks := v6.walks, shoots := v6.shoots, msis := v6.msis, intPages := v6.intPages, mirqs := v6.mirqs, errLog := v6.errLog, invals := v6.invals, actCorr := v6.actCorr, actSatn := v6.actSatn, actThresh := v6.actThresh, rowCnt := v6.rowCnt, rowDue := v6.rowDue, weltsel := v6.weltsel, welts := v6.welts, windowUs := v6.windowUs, ports := v6.ports, eth := v6.eth, boot := v6.boot : State }
      1 0 (0 : Nat)) 64 = false)) ∧
    (((ethPort vHeld 0).paused = []) ∧ ((ethPort vHeld 0).buffer = []) ∧ (bs.length ≤ 9216) ∧ (ethOwner vHeld 0 =
      some 1) ∧ (inRanges vHeld 1 (ethRec vHeld 1 0 (0 : Nat)) 64 = true) ∧ ((part vHeld 1).state ≠ 3) ∧ (poisoned
      vHeld (ethRec vHeld 1 0 (0 : Nat)) 64 = true ∨ ethOpen vHeld 0 (ethRec vHeld 1 0 (0 : Nat)) 64 = false)) :=
  ⟨by decide +kernel,
   by decide +kernel,
   by decide +kernel,
   by decide +kernel,
   by decide +kernel,
   by decide +kernel,
   by decide +kernel,
   by decide +kernel,
   by decide +kernel,
   by decide +kernel,
   by decide +kernel,
   by decide +kernel⟩

/-- More of them. -/
theorem test_premises_EthernetAndDma_2 :
    (((ethPort v2 0).paused = []) ∧ ((ethPort v2 0).buffer = []) ∧ (bs.length ≤ 9216) ∧ (ethOwner v2 0 = some 1) ∧
      (inRanges v2 1 (ethRec v2 1 0 (0 : Nat)) 64 = true) ∧ ((part v2 1).state ≠ 3 ∧ poisoned v2 (ethRec v2 1 0 (0 :
      Nat)) 64 = false ∧ ethOpen v2 0 (ethRec v2 1 0 (0 : Nat)) 64 = true) ∧ (ethOn (rdWords v2 (ethRec v2 1 0 (0 :
      Nat)) 8) = false) ∧ (postClear v2 (ethDie 0) (ethRec v2 1 0 (0 : Nat) + 40) 8 = true) ∧ (poisoned v2 (ethRec
      v2 1 0 (0 : Nat)) 64 = false)) ∧
    (((ethPort v4 0).paused = []) ∧ ((ethPort v4 0).buffer = []) ∧ (bs.length ≤ 9216) ∧ (ethOwner v4 0 = some 1) ∧
      (inRanges v4 1 (ethRec v4 1 0 (0 : Nat)) 64 = true) ∧ ((part v4 1).state ≠ 3 ∧ poisoned v4 (ethRec v4 1 0 (0 :
      Nat)) 64 = false ∧ ethOpen v4 0 (ethRec v4 1 0 (0 : Nat)) 64 = true) ∧ (ethOn (rdWords v4 (ethRec v4 1 0 (0 :
      Nat)) 8) = true) ∧ (ethSlot (rdWords v4 (ethRec v4 1 0 (0 : Nat)) 8) = false) ∧ (bit (dw (rdWords v4 (ethRec
      v4 1 0 (0 : Nat)) 8) 2) 62 = true) ∧ (postClear v4 (ethDie 0) (ethRec v4 1 0 (0 : Nat) + 40) 8 = true) ∧
      (poisoned v4 (ethRec v4 1 0 (0 : Nat)) 64 = false)) :=
  ⟨by decide +kernel,
   by decide +kernel⟩

/-- More of them. -/
theorem test_premises_EthernetAndDma_3 :
    (((ethPort
      { turns := v6.turns, focus := v6.focus, cur := v6.cur, cycle := v6.cycle, us := v6.us, freeIdx := v6.freeIdx, nextId := v6.nextId, mem := v6.mem, stale := v6.stale, posted := v6.posted, resvs := v6.resvs, poison := [(24576 / 64 : ℕ)], pinned := v6.pinned, zeroTags := v6.zeroTags, l1 := v6.l1, rtbase := v6.rtbase, granules := v6.granules, partctl := v6.partctl, parts := v6.parts, harts := v6.harts, threads := v6.threads, held := v6.held, teams := v6.teams, cores := v6.cores, engines := v6.engines, copies := v6.copies, rowOps := v6.rowOps, transits := v6.transits, laces := v6.laces, laced := v6.laced, eyelets := v6.eyelets, slices := v6.slices, tlb := v6.tlb, walkCache := v6.walkCache, walks := v6.walks, shoots := v6.shoots, msis := v6.msis, intPages := v6.intPages, mirqs := v6.mirqs, errLog := v6.errLog, invals := v6.invals, actCorr := v6.actCorr, actSatn := v6.actSatn, actThresh := v6.actThresh, rowCnt := v6.rowCnt, rowDue := v6.rowDue, weltsel := v6.weltsel, welts := v6.welts, windowUs := v6.windowUs, ports := v6.ports, eth := v6.eth, boot := v6.boot : State }
      0).paused = []) ∧ ((ethPort
      { turns := v6.turns, focus := v6.focus, cur := v6.cur, cycle := v6.cycle, us := v6.us, freeIdx := v6.freeIdx, nextId := v6.nextId, mem := v6.mem, stale := v6.stale, posted := v6.posted, resvs := v6.resvs, poison := [(24576 / 64 : ℕ)], pinned := v6.pinned, zeroTags := v6.zeroTags, l1 := v6.l1, rtbase := v6.rtbase, granules := v6.granules, partctl := v6.partctl, parts := v6.parts, harts := v6.harts, threads := v6.threads, held := v6.held, teams := v6.teams, cores := v6.cores, engines := v6.engines, copies := v6.copies, rowOps := v6.rowOps, transits := v6.transits, laces := v6.laces, laced := v6.laced, eyelets := v6.eyelets, slices := v6.slices, tlb := v6.tlb, walkCache := v6.walkCache, walks := v6.walks, shoots := v6.shoots, msis := v6.msis, intPages := v6.intPages, mirqs := v6.mirqs, errLog := v6.errLog, invals := v6.invals, actCorr := v6.actCorr, actSatn := v6.actSatn, actThresh := v6.actThresh, rowCnt := v6.rowCnt, rowDue := v6.rowDue, weltsel := v6.weltsel, welts := v6.welts, windowUs := v6.windowUs, ports := v6.ports, eth := v6.eth, boot := v6.boot : State }
      0).buffer = []) ∧ (bs.length ≤ 9216) ∧ (ethOwner
      { turns := v6.turns, focus := v6.focus, cur := v6.cur, cycle := v6.cycle, us := v6.us, freeIdx := v6.freeIdx, nextId := v6.nextId, mem := v6.mem, stale := v6.stale, posted := v6.posted, resvs := v6.resvs, poison := [(24576 / 64 : ℕ)], pinned := v6.pinned, zeroTags := v6.zeroTags, l1 := v6.l1, rtbase := v6.rtbase, granules := v6.granules, partctl := v6.partctl, parts := v6.parts, harts := v6.harts, threads := v6.threads, held := v6.held, teams := v6.teams, cores := v6.cores, engines := v6.engines, copies := v6.copies, rowOps := v6.rowOps, transits := v6.transits, laces := v6.laces, laced := v6.laced, eyelets := v6.eyelets, slices := v6.slices, tlb := v6.tlb, walkCache := v6.walkCache, walks := v6.walks, shoots := v6.shoots, msis := v6.msis, intPages := v6.intPages, mirqs := v6.mirqs, errLog := v6.errLog, invals := v6.invals, actCorr := v6.actCorr, actSatn := v6.actSatn, actThresh := v6.actThresh, rowCnt := v6.rowCnt, rowDue := v6.rowDue, weltsel := v6.weltsel, welts := v6.welts, windowUs := v6.windowUs, ports := v6.ports, eth := v6.eth, boot := v6.boot : State }
      0 = some 1) ∧ (inRanges
      { turns := v6.turns, focus := v6.focus, cur := v6.cur, cycle := v6.cycle, us := v6.us, freeIdx := v6.freeIdx, nextId := v6.nextId, mem := v6.mem, stale := v6.stale, posted := v6.posted, resvs := v6.resvs, poison := [(24576 / 64 : ℕ)], pinned := v6.pinned, zeroTags := v6.zeroTags, l1 := v6.l1, rtbase := v6.rtbase, granules := v6.granules, partctl := v6.partctl, parts := v6.parts, harts := v6.harts, threads := v6.threads, held := v6.held, teams := v6.teams, cores := v6.cores, engines := v6.engines, copies := v6.copies, rowOps := v6.rowOps, transits := v6.transits, laces := v6.laces, laced := v6.laced, eyelets := v6.eyelets, slices := v6.slices, tlb := v6.tlb, walkCache := v6.walkCache, walks := v6.walks, shoots := v6.shoots, msis := v6.msis, intPages := v6.intPages, mirqs := v6.mirqs, errLog := v6.errLog, invals := v6.invals, actCorr := v6.actCorr, actSatn := v6.actSatn, actThresh := v6.actThresh, rowCnt := v6.rowCnt, rowDue := v6.rowDue, weltsel := v6.weltsel, welts := v6.welts, windowUs := v6.windowUs, ports := v6.ports, eth := v6.eth, boot := v6.boot : State }
      1 (ethRec
      { turns := v6.turns, focus := v6.focus, cur := v6.cur, cycle := v6.cycle, us := v6.us, freeIdx := v6.freeIdx, nextId := v6.nextId, mem := v6.mem, stale := v6.stale, posted := v6.posted, resvs := v6.resvs, poison := [(24576 / 64 : ℕ)], pinned := v6.pinned, zeroTags := v6.zeroTags, l1 := v6.l1, rtbase := v6.rtbase, granules := v6.granules, partctl := v6.partctl, parts := v6.parts, harts := v6.harts, threads := v6.threads, held := v6.held, teams := v6.teams, cores := v6.cores, engines := v6.engines, copies := v6.copies, rowOps := v6.rowOps, transits := v6.transits, laces := v6.laces, laced := v6.laced, eyelets := v6.eyelets, slices := v6.slices, tlb := v6.tlb, walkCache := v6.walkCache, walks := v6.walks, shoots := v6.shoots, msis := v6.msis, intPages := v6.intPages, mirqs := v6.mirqs, errLog := v6.errLog, invals := v6.invals, actCorr := v6.actCorr, actSatn := v6.actSatn, actThresh := v6.actThresh, rowCnt := v6.rowCnt, rowDue := v6.rowDue, weltsel := v6.weltsel, welts := v6.welts, windowUs := v6.windowUs, ports := v6.ports, eth := v6.eth, boot := v6.boot : State }
      1 0 (0 : Nat)) 64 = true) ∧ ((part
      { turns := v6.turns, focus := v6.focus, cur := v6.cur, cycle := v6.cycle, us := v6.us, freeIdx := v6.freeIdx, nextId := v6.nextId, mem := v6.mem, stale := v6.stale, posted := v6.posted, resvs := v6.resvs, poison := [(24576 / 64 : ℕ)], pinned := v6.pinned, zeroTags := v6.zeroTags, l1 := v6.l1, rtbase := v6.rtbase, granules := v6.granules, partctl := v6.partctl, parts := v6.parts, harts := v6.harts, threads := v6.threads, held := v6.held, teams := v6.teams, cores := v6.cores, engines := v6.engines, copies := v6.copies, rowOps := v6.rowOps, transits := v6.transits, laces := v6.laces, laced := v6.laced, eyelets := v6.eyelets, slices := v6.slices, tlb := v6.tlb, walkCache := v6.walkCache, walks := v6.walks, shoots := v6.shoots, msis := v6.msis, intPages := v6.intPages, mirqs := v6.mirqs, errLog := v6.errLog, invals := v6.invals, actCorr := v6.actCorr, actSatn := v6.actSatn, actThresh := v6.actThresh, rowCnt := v6.rowCnt, rowDue := v6.rowDue, weltsel := v6.weltsel, welts := v6.welts, windowUs := v6.windowUs, ports := v6.ports, eth := v6.eth, boot := v6.boot : State }
      1).state ≠ 3 ∧ poisoned
      { turns := v6.turns, focus := v6.focus, cur := v6.cur, cycle := v6.cycle, us := v6.us, freeIdx := v6.freeIdx, nextId := v6.nextId, mem := v6.mem, stale := v6.stale, posted := v6.posted, resvs := v6.resvs, poison := [(24576 / 64 : ℕ)], pinned := v6.pinned, zeroTags := v6.zeroTags, l1 := v6.l1, rtbase := v6.rtbase, granules := v6.granules, partctl := v6.partctl, parts := v6.parts, harts := v6.harts, threads := v6.threads, held := v6.held, teams := v6.teams, cores := v6.cores, engines := v6.engines, copies := v6.copies, rowOps := v6.rowOps, transits := v6.transits, laces := v6.laces, laced := v6.laced, eyelets := v6.eyelets, slices := v6.slices, tlb := v6.tlb, walkCache := v6.walkCache, walks := v6.walks, shoots := v6.shoots, msis := v6.msis, intPages := v6.intPages, mirqs := v6.mirqs, errLog := v6.errLog, invals := v6.invals, actCorr := v6.actCorr, actSatn := v6.actSatn, actThresh := v6.actThresh, rowCnt := v6.rowCnt, rowDue := v6.rowDue, weltsel := v6.weltsel, welts := v6.welts, windowUs := v6.windowUs, ports := v6.ports, eth := v6.eth, boot := v6.boot : State }
      (ethRec
      { turns := v6.turns, focus := v6.focus, cur := v6.cur, cycle := v6.cycle, us := v6.us, freeIdx := v6.freeIdx, nextId := v6.nextId, mem := v6.mem, stale := v6.stale, posted := v6.posted, resvs := v6.resvs, poison := [(24576 / 64 : ℕ)], pinned := v6.pinned, zeroTags := v6.zeroTags, l1 := v6.l1, rtbase := v6.rtbase, granules := v6.granules, partctl := v6.partctl, parts := v6.parts, harts := v6.harts, threads := v6.threads, held := v6.held, teams := v6.teams, cores := v6.cores, engines := v6.engines, copies := v6.copies, rowOps := v6.rowOps, transits := v6.transits, laces := v6.laces, laced := v6.laced, eyelets := v6.eyelets, slices := v6.slices, tlb := v6.tlb, walkCache := v6.walkCache, walks := v6.walks, shoots := v6.shoots, msis := v6.msis, intPages := v6.intPages, mirqs := v6.mirqs, errLog := v6.errLog, invals := v6.invals, actCorr := v6.actCorr, actSatn := v6.actSatn, actThresh := v6.actThresh, rowCnt := v6.rowCnt, rowDue := v6.rowDue, weltsel := v6.weltsel, welts := v6.welts, windowUs := v6.windowUs, ports := v6.ports, eth := v6.eth, boot := v6.boot : State }
      1 0 (0 : Nat)) 64 = false ∧ ethOpen
      { turns := v6.turns, focus := v6.focus, cur := v6.cur, cycle := v6.cycle, us := v6.us, freeIdx := v6.freeIdx, nextId := v6.nextId, mem := v6.mem, stale := v6.stale, posted := v6.posted, resvs := v6.resvs, poison := [(24576 / 64 : ℕ)], pinned := v6.pinned, zeroTags := v6.zeroTags, l1 := v6.l1, rtbase := v6.rtbase, granules := v6.granules, partctl := v6.partctl, parts := v6.parts, harts := v6.harts, threads := v6.threads, held := v6.held, teams := v6.teams, cores := v6.cores, engines := v6.engines, copies := v6.copies, rowOps := v6.rowOps, transits := v6.transits, laces := v6.laces, laced := v6.laced, eyelets := v6.eyelets, slices := v6.slices, tlb := v6.tlb, walkCache := v6.walkCache, walks := v6.walks, shoots := v6.shoots, msis := v6.msis, intPages := v6.intPages, mirqs := v6.mirqs, errLog := v6.errLog, invals := v6.invals, actCorr := v6.actCorr, actSatn := v6.actSatn, actThresh := v6.actThresh, rowCnt := v6.rowCnt, rowDue := v6.rowDue, weltsel := v6.weltsel, welts := v6.welts, windowUs := v6.windowUs, ports := v6.ports, eth := v6.eth, boot := v6.boot : State }
      0 (ethRec
      { turns := v6.turns, focus := v6.focus, cur := v6.cur, cycle := v6.cycle, us := v6.us, freeIdx := v6.freeIdx, nextId := v6.nextId, mem := v6.mem, stale := v6.stale, posted := v6.posted, resvs := v6.resvs, poison := [(24576 / 64 : ℕ)], pinned := v6.pinned, zeroTags := v6.zeroTags, l1 := v6.l1, rtbase := v6.rtbase, granules := v6.granules, partctl := v6.partctl, parts := v6.parts, harts := v6.harts, threads := v6.threads, held := v6.held, teams := v6.teams, cores := v6.cores, engines := v6.engines, copies := v6.copies, rowOps := v6.rowOps, transits := v6.transits, laces := v6.laces, laced := v6.laced, eyelets := v6.eyelets, slices := v6.slices, tlb := v6.tlb, walkCache := v6.walkCache, walks := v6.walks, shoots := v6.shoots, msis := v6.msis, intPages := v6.intPages, mirqs := v6.mirqs, errLog := v6.errLog, invals := v6.invals, actCorr := v6.actCorr, actSatn := v6.actSatn, actThresh := v6.actThresh, rowCnt := v6.rowCnt, rowDue := v6.rowDue, weltsel := v6.weltsel, welts := v6.welts, windowUs := v6.windowUs, ports := v6.ports, eth := v6.eth, boot := v6.boot : State }
      1 0 (0 : Nat)) 64 = true) ∧ (ethOn (rdWords
      { turns := v6.turns, focus := v6.focus, cur := v6.cur, cycle := v6.cycle, us := v6.us, freeIdx := v6.freeIdx, nextId := v6.nextId, mem := v6.mem, stale := v6.stale, posted := v6.posted, resvs := v6.resvs, poison := [(24576 / 64 : ℕ)], pinned := v6.pinned, zeroTags := v6.zeroTags, l1 := v6.l1, rtbase := v6.rtbase, granules := v6.granules, partctl := v6.partctl, parts := v6.parts, harts := v6.harts, threads := v6.threads, held := v6.held, teams := v6.teams, cores := v6.cores, engines := v6.engines, copies := v6.copies, rowOps := v6.rowOps, transits := v6.transits, laces := v6.laces, laced := v6.laced, eyelets := v6.eyelets, slices := v6.slices, tlb := v6.tlb, walkCache := v6.walkCache, walks := v6.walks, shoots := v6.shoots, msis := v6.msis, intPages := v6.intPages, mirqs := v6.mirqs, errLog := v6.errLog, invals := v6.invals, actCorr := v6.actCorr, actSatn := v6.actSatn, actThresh := v6.actThresh, rowCnt := v6.rowCnt, rowDue := v6.rowDue, weltsel := v6.weltsel, welts := v6.welts, windowUs := v6.windowUs, ports := v6.ports, eth := v6.eth, boot := v6.boot : State }
      (ethRec
      { turns := v6.turns, focus := v6.focus, cur := v6.cur, cycle := v6.cycle, us := v6.us, freeIdx := v6.freeIdx, nextId := v6.nextId, mem := v6.mem, stale := v6.stale, posted := v6.posted, resvs := v6.resvs, poison := [(24576 / 64 : ℕ)], pinned := v6.pinned, zeroTags := v6.zeroTags, l1 := v6.l1, rtbase := v6.rtbase, granules := v6.granules, partctl := v6.partctl, parts := v6.parts, harts := v6.harts, threads := v6.threads, held := v6.held, teams := v6.teams, cores := v6.cores, engines := v6.engines, copies := v6.copies, rowOps := v6.rowOps, transits := v6.transits, laces := v6.laces, laced := v6.laced, eyelets := v6.eyelets, slices := v6.slices, tlb := v6.tlb, walkCache := v6.walkCache, walks := v6.walks, shoots := v6.shoots, msis := v6.msis, intPages := v6.intPages, mirqs := v6.mirqs, errLog := v6.errLog, invals := v6.invals, actCorr := v6.actCorr, actSatn := v6.actSatn, actThresh := v6.actThresh, rowCnt := v6.rowCnt, rowDue := v6.rowDue, weltsel := v6.weltsel, welts := v6.welts, windowUs := v6.windowUs, ports := v6.ports, eth := v6.eth, boot := v6.boot : State }
      1 0 (0 : Nat)) 8) = true) ∧ (ethSlot (rdWords
      { turns := v6.turns, focus := v6.focus, cur := v6.cur, cycle := v6.cycle, us := v6.us, freeIdx := v6.freeIdx, nextId := v6.nextId, mem := v6.mem, stale := v6.stale, posted := v6.posted, resvs := v6.resvs, poison := [(24576 / 64 : ℕ)], pinned := v6.pinned, zeroTags := v6.zeroTags, l1 := v6.l1, rtbase := v6.rtbase, granules := v6.granules, partctl := v6.partctl, parts := v6.parts, harts := v6.harts, threads := v6.threads, held := v6.held, teams := v6.teams, cores := v6.cores, engines := v6.engines, copies := v6.copies, rowOps := v6.rowOps, transits := v6.transits, laces := v6.laces, laced := v6.laced, eyelets := v6.eyelets, slices := v6.slices, tlb := v6.tlb, walkCache := v6.walkCache, walks := v6.walks, shoots := v6.shoots, msis := v6.msis, intPages := v6.intPages, mirqs := v6.mirqs, errLog := v6.errLog, invals := v6.invals, actCorr := v6.actCorr, actSatn := v6.actSatn, actThresh := v6.actThresh, rowCnt := v6.rowCnt, rowDue := v6.rowDue, weltsel := v6.weltsel, welts := v6.welts, windowUs := v6.windowUs, ports := v6.ports, eth := v6.eth, boot := v6.boot : State }
      (ethRec
      { turns := v6.turns, focus := v6.focus, cur := v6.cur, cycle := v6.cycle, us := v6.us, freeIdx := v6.freeIdx, nextId := v6.nextId, mem := v6.mem, stale := v6.stale, posted := v6.posted, resvs := v6.resvs, poison := [(24576 / 64 : ℕ)], pinned := v6.pinned, zeroTags := v6.zeroTags, l1 := v6.l1, rtbase := v6.rtbase, granules := v6.granules, partctl := v6.partctl, parts := v6.parts, harts := v6.harts, threads := v6.threads, held := v6.held, teams := v6.teams, cores := v6.cores, engines := v6.engines, copies := v6.copies, rowOps := v6.rowOps, transits := v6.transits, laces := v6.laces, laced := v6.laced, eyelets := v6.eyelets, slices := v6.slices, tlb := v6.tlb, walkCache := v6.walkCache, walks := v6.walks, shoots := v6.shoots, msis := v6.msis, intPages := v6.intPages, mirqs := v6.mirqs, errLog := v6.errLog, invals := v6.invals, actCorr := v6.actCorr, actSatn := v6.actSatn, actThresh := v6.actThresh, rowCnt := v6.rowCnt, rowDue := v6.rowDue, weltsel := v6.weltsel, welts := v6.welts, windowUs := v6.windowUs, ports := v6.ports, eth := v6.eth, boot := v6.boot : State }
      1 0 (0 : Nat)) 8) = true) ∧ (¬(ethOpen
      { turns := v6.turns, focus := v6.focus, cur := v6.cur, cycle := v6.cycle, us := v6.us, freeIdx := v6.freeIdx, nextId := v6.nextId, mem := v6.mem, stale := v6.stale, posted := v6.posted, resvs := v6.resvs, poison := [(24576 / 64 : ℕ)], pinned := v6.pinned, zeroTags := v6.zeroTags, l1 := v6.l1, rtbase := v6.rtbase, granules := v6.granules, partctl := v6.partctl, parts := v6.parts, harts := v6.harts, threads := v6.threads, held := v6.held, teams := v6.teams, cores := v6.cores, engines := v6.engines, copies := v6.copies, rowOps := v6.rowOps, transits := v6.transits, laces := v6.laces, laced := v6.laced, eyelets := v6.eyelets, slices := v6.slices, tlb := v6.tlb, walkCache := v6.walkCache, walks := v6.walks, shoots := v6.shoots, msis := v6.msis, intPages := v6.intPages, mirqs := v6.mirqs, errLog := v6.errLog, invals := v6.invals, actCorr := v6.actCorr, actSatn := v6.actSatn, actThresh := v6.actThresh, rowCnt := v6.rowCnt, rowDue := v6.rowDue, weltsel := v6.weltsel, welts := v6.welts, windowUs := v6.windowUs, ports := v6.ports, eth := v6.eth, boot := v6.boot : State }
      0 (slotAddr (rdWords
      { turns := v6.turns, focus := v6.focus, cur := v6.cur, cycle := v6.cycle, us := v6.us, freeIdx := v6.freeIdx, nextId := v6.nextId, mem := v6.mem, stale := v6.stale, posted := v6.posted, resvs := v6.resvs, poison := [(24576 / 64 : ℕ)], pinned := v6.pinned, zeroTags := v6.zeroTags, l1 := v6.l1, rtbase := v6.rtbase, granules := v6.granules, partctl := v6.partctl, parts := v6.parts, harts := v6.harts, threads := v6.threads, held := v6.held, teams := v6.teams, cores := v6.cores, engines := v6.engines, copies := v6.copies, rowOps := v6.rowOps, transits := v6.transits, laces := v6.laces, laced := v6.laced, eyelets := v6.eyelets, slices := v6.slices, tlb := v6.tlb, walkCache := v6.walkCache, walks := v6.walks, shoots := v6.shoots, msis := v6.msis, intPages := v6.intPages, mirqs := v6.mirqs, errLog := v6.errLog, invals := v6.invals, actCorr := v6.actCorr, actSatn := v6.actSatn, actThresh := v6.actThresh, rowCnt := v6.rowCnt, rowDue := v6.rowDue, weltsel := v6.weltsel, welts := v6.welts, windowUs := v6.windowUs, ports := v6.ports, eth := v6.eth, boot := v6.boot : State }
      (ethRec
      { turns := v6.turns, focus := v6.focus, cur := v6.cur, cycle := v6.cycle, us := v6.us, freeIdx := v6.freeIdx, nextId := v6.nextId, mem := v6.mem, stale := v6.stale, posted := v6.posted, resvs := v6.resvs, poison := [(24576 / 64 : ℕ)], pinned := v6.pinned, zeroTags := v6.zeroTags, l1 := v6.l1, rtbase := v6.rtbase, granules := v6.granules, partctl := v6.partctl, parts := v6.parts, harts := v6.harts, threads := v6.threads, held := v6.held, teams := v6.teams, cores := v6.cores, engines := v6.engines, copies := v6.copies, rowOps := v6.rowOps, transits := v6.transits, laces := v6.laces, laced := v6.laced, eyelets := v6.eyelets, slices := v6.slices, tlb := v6.tlb, walkCache := v6.walkCache, walks := v6.walks, shoots := v6.shoots, msis := v6.msis, intPages := v6.intPages, mirqs := v6.mirqs, errLog := v6.errLog, invals := v6.invals, actCorr := v6.actCorr, actSatn := v6.actSatn, actThresh := v6.actThresh, rowCnt := v6.rowCnt, rowDue := v6.rowDue, weltsel := v6.weltsel, welts := v6.welts, windowUs := v6.windowUs, ports := v6.ports, eth := v6.eth, boot := v6.boot : State }
      1 0 (0 : Nat)) 8)) 16 = true ∧ ethOpen
      { turns := v6.turns, focus := v6.focus, cur := v6.cur, cycle := v6.cycle, us := v6.us, freeIdx := v6.freeIdx, nextId := v6.nextId, mem := v6.mem, stale := v6.stale, posted := v6.posted, resvs := v6.resvs, poison := [(24576 / 64 : ℕ)], pinned := v6.pinned, zeroTags := v6.zeroTags, l1 := v6.l1, rtbase := v6.rtbase, granules := v6.granules, partctl := v6.partctl, parts := v6.parts, harts := v6.harts, threads := v6.threads, held := v6.held, teams := v6.teams, cores := v6.cores, engines := v6.engines, copies := v6.copies, rowOps := v6.rowOps, transits := v6.transits, laces := v6.laces, laced := v6.laced, eyelets := v6.eyelets, slices := v6.slices, tlb := v6.tlb, walkCache := v6.walkCache, walks := v6.walks, shoots := v6.shoots, msis := v6.msis, intPages := v6.intPages, mirqs := v6.mirqs, errLog := v6.errLog, invals := v6.invals, actCorr := v6.actCorr, actSatn := v6.actSatn, actThresh := v6.actThresh, rowCnt := v6.rowCnt, rowDue := v6.rowDue, weltsel := v6.weltsel, welts := v6.welts, windowUs := v6.windowUs, ports := v6.ports, eth := v6.eth, boot := v6.boot : State }
      0 (BitVec.toNat (rdWord
      { turns := v6.turns, focus := v6.focus, cur := v6.cur, cycle := v6.cycle, us := v6.us, freeIdx := v6.freeIdx, nextId := v6.nextId, mem := v6.mem, stale := v6.stale, posted := v6.posted, resvs := v6.resvs, poison := [(24576 / 64 : ℕ)], pinned := v6.pinned, zeroTags := v6.zeroTags, l1 := v6.l1, rtbase := v6.rtbase, granules := v6.granules, partctl := v6.partctl, parts := v6.parts, harts := v6.harts, threads := v6.threads, held := v6.held, teams := v6.teams, cores := v6.cores, engines := v6.engines, copies := v6.copies, rowOps := v6.rowOps, transits := v6.transits, laces := v6.laces, laced := v6.laced, eyelets := v6.eyelets, slices := v6.slices, tlb := v6.tlb, walkCache := v6.walkCache, walks := v6.walks, shoots := v6.shoots, msis := v6.msis, intPages := v6.intPages, mirqs := v6.mirqs, errLog := v6.errLog, invals := v6.invals, actCorr := v6.actCorr, actSatn := v6.actSatn, actThresh := v6.actThresh, rowCnt := v6.rowCnt, rowDue := v6.rowDue, weltsel := v6.weltsel, welts := v6.welts, windowUs := v6.windowUs, ports := v6.ports, eth := v6.eth, boot := v6.boot : State }
      (slotAddr (rdWords
      { turns := v6.turns, focus := v6.focus, cur := v6.cur, cycle := v6.cycle, us := v6.us, freeIdx := v6.freeIdx, nextId := v6.nextId, mem := v6.mem, stale := v6.stale, posted := v6.posted, resvs := v6.resvs, poison := [(24576 / 64 : ℕ)], pinned := v6.pinned, zeroTags := v6.zeroTags, l1 := v6.l1, rtbase := v6.rtbase, granules := v6.granules, partctl := v6.partctl, parts := v6.parts, harts := v6.harts, threads := v6.threads, held := v6.held, teams := v6.teams, cores := v6.cores, engines := v6.engines, copies := v6.copies, rowOps := v6.rowOps, transits := v6.transits, laces := v6.laces, laced := v6.laced, eyelets := v6.eyelets, slices := v6.slices, tlb := v6.tlb, walkCache := v6.walkCache, walks := v6.walks, shoots := v6.shoots, msis := v6.msis, intPages := v6.intPages, mirqs := v6.mirqs, errLog := v6.errLog, invals := v6.invals, actCorr := v6.actCorr, actSatn := v6.actSatn, actThresh := v6.actThresh, rowCnt := v6.rowCnt, rowDue := v6.rowDue, weltsel := v6.weltsel, welts := v6.welts, windowUs := v6.windowUs, ports := v6.ports, eth := v6.eth, boot := v6.boot : State }
      (ethRec
      { turns := v6.turns, focus := v6.focus, cur := v6.cur, cycle := v6.cycle, us := v6.us, freeIdx := v6.freeIdx, nextId := v6.nextId, mem := v6.mem, stale := v6.stale, posted := v6.posted, resvs := v6.resvs, poison := [(24576 / 64 : ℕ)], pinned := v6.pinned, zeroTags := v6.zeroTags, l1 := v6.l1, rtbase := v6.rtbase, granules := v6.granules, partctl := v6.partctl, parts := v6.parts, harts := v6.harts, threads := v6.threads, held := v6.held, teams := v6.teams, cores := v6.cores, engines := v6.engines, copies := v6.copies, rowOps := v6.rowOps, transits := v6.transits, laces := v6.laces, laced := v6.laced, eyelets := v6.eyelets, slices := v6.slices, tlb := v6.tlb, walkCache := v6.walkCache, walks := v6.walks, shoots := v6.shoots, msis := v6.msis, intPages := v6.intPages, mirqs := v6.mirqs, errLog := v6.errLog, invals := v6.invals, actCorr := v6.actCorr, actSatn := v6.actSatn, actThresh := v6.actThresh, rowCnt := v6.rowCnt, rowDue := v6.rowDue, weltsel := v6.weltsel, welts := v6.welts, windowUs := v6.windowUs, ports := v6.ports, eth := v6.eth, boot := v6.boot : State }
      1 0 (0 : Nat)) 8)))) bs.length = true) ∨ inRanges
      { turns := v6.turns, focus := v6.focus, cur := v6.cur, cycle := v6.cycle, us := v6.us, freeIdx := v6.freeIdx, nextId := v6.nextId, mem := v6.mem, stale := v6.stale, posted := v6.posted, resvs := v6.resvs, poison := [(24576 / 64 : ℕ)], pinned := v6.pinned, zeroTags := v6.zeroTags, l1 := v6.l1, rtbase := v6.rtbase, granules := v6.granules, partctl := v6.partctl, parts := v6.parts, harts := v6.harts, threads := v6.threads, held := v6.held, teams := v6.teams, cores := v6.cores, engines := v6.engines, copies := v6.copies, rowOps := v6.rowOps, transits := v6.transits, laces := v6.laces, laced := v6.laced, eyelets := v6.eyelets, slices := v6.slices, tlb := v6.tlb, walkCache := v6.walkCache, walks := v6.walks, shoots := v6.shoots, msis := v6.msis, intPages := v6.intPages, mirqs := v6.mirqs, errLog := v6.errLog, invals := v6.invals, actCorr := v6.actCorr, actSatn := v6.actSatn, actThresh := v6.actThresh, rowCnt := v6.rowCnt, rowDue := v6.rowDue, weltsel := v6.weltsel, welts := v6.welts, windowUs := v6.windowUs, ports := v6.ports, eth := v6.eth, boot := v6.boot : State }
      1 (slotAddr (rdWords
      { turns := v6.turns, focus := v6.focus, cur := v6.cur, cycle := v6.cycle, us := v6.us, freeIdx := v6.freeIdx, nextId := v6.nextId, mem := v6.mem, stale := v6.stale, posted := v6.posted, resvs := v6.resvs, poison := [(24576 / 64 : ℕ)], pinned := v6.pinned, zeroTags := v6.zeroTags, l1 := v6.l1, rtbase := v6.rtbase, granules := v6.granules, partctl := v6.partctl, parts := v6.parts, harts := v6.harts, threads := v6.threads, held := v6.held, teams := v6.teams, cores := v6.cores, engines := v6.engines, copies := v6.copies, rowOps := v6.rowOps, transits := v6.transits, laces := v6.laces, laced := v6.laced, eyelets := v6.eyelets, slices := v6.slices, tlb := v6.tlb, walkCache := v6.walkCache, walks := v6.walks, shoots := v6.shoots, msis := v6.msis, intPages := v6.intPages, mirqs := v6.mirqs, errLog := v6.errLog, invals := v6.invals, actCorr := v6.actCorr, actSatn := v6.actSatn, actThresh := v6.actThresh, rowCnt := v6.rowCnt, rowDue := v6.rowDue, weltsel := v6.weltsel, welts := v6.welts, windowUs := v6.windowUs, ports := v6.ports, eth := v6.eth, boot := v6.boot : State }
      (ethRec
      { turns := v6.turns, focus := v6.focus, cur := v6.cur, cycle := v6.cycle, us := v6.us, freeIdx := v6.freeIdx, nextId := v6.nextId, mem := v6.mem, stale := v6.stale, posted := v6.posted, resvs := v6.resvs, poison := [(24576 / 64 : ℕ)], pinned := v6.pinned, zeroTags := v6.zeroTags, l1 := v6.l1, rtbase := v6.rtbase, granules := v6.granules, partctl := v6.partctl, parts := v6.parts, harts := v6.harts, threads := v6.threads, held := v6.held, teams := v6.teams, cores := v6.cores, engines := v6.engines, copies := v6.copies, rowOps := v6.rowOps, transits := v6.transits, laces := v6.laces, laced := v6.laced, eyelets := v6.eyelets, slices := v6.slices, tlb := v6.tlb, walkCache := v6.walkCache, walks := v6.walks, shoots := v6.shoots, msis := v6.msis, intPages := v6.intPages, mirqs := v6.mirqs, errLog := v6.errLog, invals := v6.invals, actCorr := v6.actCorr, actSatn := v6.actSatn, actThresh := v6.actThresh, rowCnt := v6.rowCnt, rowDue := v6.rowDue, weltsel := v6.weltsel, welts := v6.welts, windowUs := v6.windowUs, ports := v6.ports, eth := v6.eth, boot := v6.boot : State }
      1 0 (0 : Nat)) 8)) 16 = true ∧ poisoned
      { turns := v6.turns, focus := v6.focus, cur := v6.cur, cycle := v6.cycle, us := v6.us, freeIdx := v6.freeIdx, nextId := v6.nextId, mem := v6.mem, stale := v6.stale, posted := v6.posted, resvs := v6.resvs, poison := [(24576 / 64 : ℕ)], pinned := v6.pinned, zeroTags := v6.zeroTags, l1 := v6.l1, rtbase := v6.rtbase, granules := v6.granules, partctl := v6.partctl, parts := v6.parts, harts := v6.harts, threads := v6.threads, held := v6.held, teams := v6.teams, cores := v6.cores, engines := v6.engines, copies := v6.copies, rowOps := v6.rowOps, transits := v6.transits, laces := v6.laces, laced := v6.laced, eyelets := v6.eyelets, slices := v6.slices, tlb := v6.tlb, walkCache := v6.walkCache, walks := v6.walks, shoots := v6.shoots, msis := v6.msis, intPages := v6.intPages, mirqs := v6.mirqs, errLog := v6.errLog, invals := v6.invals, actCorr := v6.actCorr, actSatn := v6.actSatn, actThresh := v6.actThresh, rowCnt := v6.rowCnt, rowDue := v6.rowDue, weltsel := v6.weltsel, welts := v6.welts, windowUs := v6.windowUs, ports := v6.ports, eth := v6.eth, boot := v6.boot : State }
      (slotAddr (rdWords
      { turns := v6.turns, focus := v6.focus, cur := v6.cur, cycle := v6.cycle, us := v6.us, freeIdx := v6.freeIdx, nextId := v6.nextId, mem := v6.mem, stale := v6.stale, posted := v6.posted, resvs := v6.resvs, poison := [(24576 / 64 : ℕ)], pinned := v6.pinned, zeroTags := v6.zeroTags, l1 := v6.l1, rtbase := v6.rtbase, granules := v6.granules, partctl := v6.partctl, parts := v6.parts, harts := v6.harts, threads := v6.threads, held := v6.held, teams := v6.teams, cores := v6.cores, engines := v6.engines, copies := v6.copies, rowOps := v6.rowOps, transits := v6.transits, laces := v6.laces, laced := v6.laced, eyelets := v6.eyelets, slices := v6.slices, tlb := v6.tlb, walkCache := v6.walkCache, walks := v6.walks, shoots := v6.shoots, msis := v6.msis, intPages := v6.intPages, mirqs := v6.mirqs, errLog := v6.errLog, invals := v6.invals, actCorr := v6.actCorr, actSatn := v6.actSatn, actThresh := v6.actThresh, rowCnt := v6.rowCnt, rowDue := v6.rowDue, weltsel := v6.weltsel, welts := v6.welts, windowUs := v6.windowUs, ports := v6.ports, eth := v6.eth, boot := v6.boot : State }
      (ethRec
      { turns := v6.turns, focus := v6.focus, cur := v6.cur, cycle := v6.cycle, us := v6.us, freeIdx := v6.freeIdx, nextId := v6.nextId, mem := v6.mem, stale := v6.stale, posted := v6.posted, resvs := v6.resvs, poison := [(24576 / 64 : ℕ)], pinned := v6.pinned, zeroTags := v6.zeroTags, l1 := v6.l1, rtbase := v6.rtbase, granules := v6.granules, partctl := v6.partctl, parts := v6.parts, harts := v6.harts, threads := v6.threads, held := v6.held, teams := v6.teams, cores := v6.cores, engines := v6.engines, copies := v6.copies, rowOps := v6.rowOps, transits := v6.transits, laces := v6.laces, laced := v6.laced, eyelets := v6.eyelets, slices := v6.slices, tlb := v6.tlb, walkCache := v6.walkCache, walks := v6.walks, shoots := v6.shoots, msis := v6.msis, intPages := v6.intPages, mirqs := v6.mirqs, errLog := v6.errLog, invals := v6.invals, actCorr := v6.actCorr, actSatn := v6.actSatn, actThresh := v6.actThresh, rowCnt := v6.rowCnt, rowDue := v6.rowDue, weltsel := v6.weltsel, welts := v6.welts, windowUs := v6.windowUs, ports := v6.ports, eth := v6.eth, boot := v6.boot : State }
      1 0 (0 : Nat)) 8)) 16 = true)) := by decide +kernel

/-- More of them. -/
theorem test_premises_EthernetAndDma_4 :
    (((ethPort vHeldS 0).paused = []) ∧ ((ethPort vHeldS 0).buffer = []) ∧ (bs.length ≤ 9216) ∧ (ethOwner vHeldS 0 =
      some 1) ∧ (inRanges vHeldS 1 (ethRec vHeldS 1 0 (0 : Nat)) 64 = true) ∧ ((part vHeldS 1).state ≠ 3 ∧ poisoned
      vHeldS (ethRec vHeldS 1 0 (0 : Nat)) 64 = false ∧ ethOpen vHeldS 0 (ethRec vHeldS 1 0 (0 : Nat)) 64 = true) ∧
      (ethOn (rdWords vHeldS (ethRec vHeldS 1 0 (0 : Nat)) 8) = true) ∧ (ethSlot (rdWords vHeldS (ethRec vHeldS 1 0
      (0 : Nat)) 8) = true) ∧ (¬(ethOpen vHeldS 0 (slotAddr (rdWords vHeldS (ethRec vHeldS 1 0 (0 : Nat)) 8)) 16 =
      true ∧ ethOpen vHeldS 0 (BitVec.toNat (rdWord vHeldS (slotAddr (rdWords vHeldS (ethRec vHeldS 1 0 (0 : Nat))
      8)))) bs.length = true) ∨ inRanges vHeldS 1 (slotAddr (rdWords vHeldS (ethRec vHeldS 1 0 (0 : Nat)) 8)) 16 =
      true ∧ poisoned vHeldS (slotAddr (rdWords vHeldS (ethRec vHeldS 1 0 (0 : Nat)) 8)) 16 = true)) ∧
    (((ethPort v5 0).paused = []) ∧ ((ethPort v5 0).buffer = []) ∧ (bs.length ≤ 9216) ∧ (ethOwner v5 0 = some 1) ∧
      (inRanges v5 1 (ethRec v5 1 0 (0 : Nat)) 64 = true) ∧ ((part v5 1).state ≠ 3 ∧ poisoned v5 (ethRec v5 1 0 (0 :
      Nat)) 64 = false ∧ ethOpen v5 0 (ethRec v5 1 0 (0 : Nat)) 64 = true) ∧ (ethOn (rdWords v5 (ethRec v5 1 0 (0 :
      Nat)) 8) = true) ∧ (ethSlot (rdWords v5 (ethRec v5 1 0 (0 : Nat)) 8) = true) ∧ (ethOpen v5 0 (slotAddr
      (rdWords v5 (ethRec v5 1 0 (0 : Nat)) 8)) 16 = true ∧ ethOpen v5 0 (BitVec.toNat (rdWord v5 (slotAddr (rdWords
      v5 (ethRec v5 1 0 (0 : Nat)) 8)))) bs.length = true) ∧ (inRanges v5 1 (slotAddr (rdWords v5 (ethRec v5 1 0 (0
      : Nat)) 8)) 16 = true) ∧ (poisoned v5 (slotAddr (rdWords v5 (ethRec v5 1 0 (0 : Nat)) 8)) 16 = false) ∧ (bits
      (rdWord v5 (slotAddr (rdWords v5 (ethRec v5 1 0 (0 : Nat)) 8) + 8)) 13 0 < bs.length) ∧ (postClear v5 (ethDie
      0) (ethRec v5 1 0 (0 : Nat) + 40) 8 = true) ∧ (poisoned v5 (ethRec v5 1 0 (0 : Nat)) 64 = false)) ∧
    (((ethPort v6 0).paused = []) ∧ ((ethPort v6 0).buffer = []) ∧ (bs.length ≤ 9216) ∧ (ethOwner v6 0 = some 1) ∧
      (inRanges v6 1 (ethRec v6 1 0 (0 : Nat)) 64 = true) ∧ ((part v6 1).state ≠ 3 ∧ poisoned v6 (ethRec v6 1 0 (0 :
      Nat)) 64 = false ∧ ethOpen v6 0 (ethRec v6 1 0 (0 : Nat)) 64 = true) ∧ (ethOn (rdWords v6 (ethRec v6 1 0 (0 :
      Nat)) 8) = true) ∧ (ethSlot (rdWords v6 (ethRec v6 1 0 (0 : Nat)) 8) = true) ∧ (ethOpen v6 0 (slotAddr
      (rdWords v6 (ethRec v6 1 0 (0 : Nat)) 8)) 16 = true ∧ ethOpen v6 0 (BitVec.toNat (rdWord v6 (slotAddr (rdWords
      v6 (ethRec v6 1 0 (0 : Nat)) 8)))) bs.length = true) ∧ (inRanges v6 1 (slotAddr (rdWords v6 (ethRec v6 1 0 (0
      : Nat)) 8)) 16 = true) ∧ (poisoned v6 (slotAddr (rdWords v6 (ethRec v6 1 0 (0 : Nat)) 8)) 16 = false) ∧
      (bs.length ≤ bits (rdWord v6 (slotAddr (rdWords v6 (ethRec v6 1 0 (0 : Nat)) 8) + 8)) 13 0) ∧ (inRanges v6 1
      (BitVec.toNat (rdWord v6 (slotAddr (rdWords v6 (ethRec v6 1 0 (0 : Nat)) 8)))) bs.length = true) ∧ (dw
      (rdWords v6 (ethRec v6 1 0 (0 : Nat)) 8) 1 = 0) ∧ (overlaps (slotAddr (rdWords v6 (ethRec v6 1 0 (0 : Nat))
      8)) 16 (ethRec v6 1 0 (0 : Nat)) 64 = false) ∧ (overlaps (BitVec.toNat (rdWord v6 (slotAddr (rdWords v6
      (ethRec v6 1 0 (0 : Nat)) 8)))) bs.length (ethRec v6 1 0 (0 : Nat)) 64 = false) ∧ (overlaps (BitVec.toNat
      (rdWord v6 (slotAddr (rdWords v6 (ethRec v6 1 0 (0 : Nat)) 8)))) bs.length (slotAddr (rdWords v6 (ethRec v6 1
      0 (0 : Nat)) 8)) 16 = false)) ∧
    (((ethPort v7 0).paused = []) ∧ ((ethPort v7 0).buffer = []) ∧ (bs.length ≤ 9216) ∧ (ethOwner v7 0 = some 1) ∧
      (inRanges v7 1 (ethRec v7 1 0 (0 : Nat)) 64 = true) ∧ ((part v7 1).state ≠ 3 ∧ poisoned v7 (ethRec v7 1 0 (0 :
      Nat)) 64 = false ∧ ethOpen v7 0 (ethRec v7 1 0 (0 : Nat)) 64 = true) ∧ (ethOn (rdWords v7 (ethRec v7 1 0 (0 :
      Nat)) 8) = true) ∧ (ethSlot (rdWords v7 (ethRec v7 1 0 (0 : Nat)) 8) = false) ∧ (bit (dw (rdWords v7 (ethRec
      v7 1 0 (0 : Nat)) 8) 2) 62 = false)) ∧
    ((ethOwner vHeldT 0 = some 1) ∧ (64 ≤ 64) ∧ (64 < 128) ∧ ((part vHeldT 1).state ≠ 3) ∧ (inRanges vHeldT 1
      (ethRec vHeldT 1 0 64) 64 = true) ∧ (poisoned vHeldT (ethRec vHeldT 1 0 64) 64 = false) ∧ (¬(ethOpen vHeldT 0
      (ethRec vHeldT 1 0 64) 64 = true ∧ ethOpen vHeldT 0 (slotAddr (rdWords vHeldT (ethRec vHeldT 1 0 64) 8)) 16 =
      true ∧ ethOpen vHeldT 0 (BitVec.toNat (rdWord vHeldT (slotAddr (rdWords vHeldT (ethRec vHeldT 1 0 64) 8))))
      (bits (rdWord vHeldT (slotAddr (rdWords vHeldT (ethRec vHeldT 1 0 64) 8) + 8)) 13 0) = true)) ∧ (inRanges
      vHeldT 1 (slotAddr (rdWords vHeldT (ethRec vHeldT 1 0 64) 8)) 16 = true) ∧ (poisoned vHeldT (slotAddr (rdWords
      vHeldT (ethRec vHeldT 1 0 64) 8)) 16 = false)) ∧
    ((ethOwner v9 0 = some 1) ∧ (64 ≤ 64) ∧ (64 < 128) ∧ ((part v9 1).state ≠ 3) ∧ (inRanges v9 1 (ethRec v9 1 0 64)
      64 = true) ∧ (poisoned v9 (ethRec v9 1 0 64) 64 = false) ∧ (ethOpen v9 0 (ethRec v9 1 0 64) 64 = true ∧
      ethOpen v9 0 (slotAddr (rdWords v9 (ethRec v9 1 0 64) 8)) 16 = true ∧ ethOpen v9 0 (BitVec.toNat (rdWord v9
      (slotAddr (rdWords v9 (ethRec v9 1 0 64) 8)))) (bits (rdWord v9 (slotAddr (rdWords v9 (ethRec v9 1 0 64) 8) +
      8)) 13 0) = true) ∧ (ethOn (rdWords v9 (ethRec v9 1 0 64) 8) = true) ∧ (ethSlot (rdWords v9 (ethRec v9 1 0 64)
      8) = true) ∧ (inRanges v9 1 (slotAddr (rdWords v9 (ethRec v9 1 0 64) 8)) 16 = true) ∧ (poisoned v9 (slotAddr
      (rdWords v9 (ethRec v9 1 0 64) 8)) 16 = false) ∧ (bits (rdWord v9 (slotAddr (rdWords v9 (ethRec v9 1 0 64) 8)
      + 8)) 13 0 < 60 ∨ 9216 < bits (rdWord v9 (slotAddr (rdWords v9 (ethRec v9 1 0 64) 8) + 8)) 13 0) ∧ (overlaps
      (slotAddr (rdWords v9 (ethRec v9 1 0 64) 8)) 16 (ethRec v9 1 0 64) 64 = false)) ∧
    ((ethOwner v10 0 = some 1) ∧ (64 ≤ 64) ∧ (64 < 128) ∧ ((part v10 1).state ≠ 3) ∧ (inRanges v10 1 (ethRec v10 1 0
      64) 64 = true) ∧ (poisoned v10 (ethRec v10 1 0 64) 64 = false) ∧ (ethOpen v10 0 (ethRec v10 1 0 64) 64 = true
      ∧ ethOpen v10 0 (slotAddr (rdWords v10 (ethRec v10 1 0 64) 8)) 16 = true ∧ ethOpen v10 0 (BitVec.toNat (rdWord
      v10 (slotAddr (rdWords v10 (ethRec v10 1 0 64) 8)))) (bits (rdWord v10 (slotAddr (rdWords v10 (ethRec v10 1 0
      64) 8) + 8)) 13 0) = true) ∧ (ethOn (rdWords v10 (ethRec v10 1 0 64) 8) = true) ∧ (ethSlot (rdWords v10
      (ethRec v10 1 0 64) 8) = true) ∧ (inRanges v10 1 (slotAddr (rdWords v10 (ethRec v10 1 0 64) 8)) 16 = true) ∧
      (poisoned v10 (slotAddr (rdWords v10 (ethRec v10 1 0 64) 8)) 16 = false) ∧ (bits (rdWord v10 (slotAddr
      (rdWords v10 (ethRec v10 1 0 64) 8) + 8)) 13 0 < 60 ∨ 9216 < bits (rdWord v10 (slotAddr (rdWords v10 (ethRec
      v10 1 0 64) 8) + 8)) 13 0) ∧ (overlaps (slotAddr (rdWords v10 (ethRec v10 1 0 64) 8)) 16 (ethRec v10 1 0 64)
      64 = false)) ∧
    ((ethOwner v11 0 = some 1) ∧ (64 ≤ 64) ∧ (64 < 128) ∧ ((part v11 1).state ≠ 3) ∧ (inRanges v11 1 (ethRec v11 1 0
      64) 64 = true) ∧ (poisoned v11 (ethRec v11 1 0 64) 64 = false) ∧ (ethOpen v11 0 (ethRec v11 1 0 64) 64 = true
      ∧ ethOpen v11 0 (slotAddr (rdWords v11 (ethRec v11 1 0 64) 8)) 16 = true ∧ ethOpen v11 0 (BitVec.toNat (rdWord
      v11 (slotAddr (rdWords v11 (ethRec v11 1 0 64) 8)))) (bits (rdWord v11 (slotAddr (rdWords v11 (ethRec v11 1 0
      64) 8) + 8)) 13 0) = true) ∧ (ethOn (rdWords v11 (ethRec v11 1 0 64) 8) = true) ∧ (ethSlot (rdWords v11
      (ethRec v11 1 0 64) 8) = true) ∧ (inRanges v11 1 (slotAddr (rdWords v11 (ethRec v11 1 0 64) 8)) 16 = true) ∧
      (poisoned v11 (slotAddr (rdWords v11 (ethRec v11 1 0 64) 8)) 16 = false) ∧ (60 ≤ bits (rdWord v11 (slotAddr
      (rdWords v11 (ethRec v11 1 0 64) 8) + 8)) 13 0) ∧ (bits (rdWord v11 (slotAddr (rdWords v11 (ethRec v11 1 0 64)
      8) + 8)) 13 0 ≤ 9216) ∧ (inRanges v11 1 (BitVec.toNat (rdWord v11 (slotAddr (rdWords v11 (ethRec v11 1 0 64)
      8)))) (bits (rdWord v11 (slotAddr (rdWords v11 (ethRec v11 1 0 64) 8) + 8)) 13 0) = true) ∧ (poisoned v11
      (BitVec.toNat (rdWord v11 (slotAddr (rdWords v11 (ethRec v11 1 0 64) 8)))) (bits (rdWord v11 (slotAddr
      (rdWords v11 (ethRec v11 1 0 64) 8) + 8)) 13 0) = false) ∧ (dw (rdWords v11 (ethRec v11 1 0 64) 8) 1 = 0) ∧
      (overlaps (slotAddr (rdWords v11 (ethRec v11 1 0 64) 8)) 16 (ethRec v11 1 0 64) 64 = false)) :=
  ⟨by decide +kernel,
   by decide +kernel,
   by decide +kernel,
   by decide +kernel,
   by decide +kernel,
   by decide +kernel,
   by decide +kernel,
   by decide +kernel⟩
end Sys2Proof.Tests.Link

/-! Boot and power. -/

namespace Sys2Proof.Tests.Boot

open Sys2Proof.Machine

def im (ok : Bool) (ver fl : Nat) : BootImage :=
  { rsaOk := ok, slhOk := true, bytes := toBytes 8 0 ++ toBytes 8 ver ++ toBytes 8 fl ++ List.replicate 40 0x13, at_ := 0x1000 }

def bb (t : Option BootToken) (i : BootImage) : BootBlock :=
  { token := t, bands := [], bytes := [9, 8, 7], copyAt := 0x8000, image := i, entry := 0x1040 }

def tok : BootToken := { rsaOk := true, slhOk := true, bound := true, src := 0, dst := 1 }

def v1 := bb (some { tok with src := 1 }) (im true 1 1)

def v2 := bb (some { tok with bound := false }) (im true 1 1)

def v3 := { tok with bound := false }

def v4 := { onSimt th0 with boot := { State.reset.boot with hot := [1, 2] } }

def hI (m : Mode) (md : Word) : Hart :=
  { h1 with mode := m, mie := 0x222, mideleg := md, mstatus := 0xA, stvec := 0x2001, mtvec := 0x1000 }

def v5 := onHart (hI .machine 0x222) th0

def v6 := onHart (hI .user 0x222) th0

def v7 := onHart (hI .supervisor 0) th0

/-- States and operands that meet the premises of `Obligations.BootAndPower`, each of its cases in turn. -/
theorem test_premises_BootAndPower :
    (afterToken base.boot.lc v1.token = none) ∧
    ((afterToken base.boot.lc (bb none (im true 1 2)).token = some 0) ∧ (imageFailure 0 base.boot.floor (bb none (im
      true 1 2)).image ≠ 0)) ∧
    ((afterToken base.boot.lc (bb none (im true 1 1)).token = some 0) ∧ (imageFailure 0 base.boot.floor (bb none (im
      true 1 1)).image = 0)) ∧
    ((v2.token = some v3) ∧ (v3.rsaOk = false ∨ v3.slhOk = false ∨ v3.bound = false ∨ v3.src ≠ base.boot.lc)) ∧
    (((bb none (im false 1 1)).token = none) ∧ ((bb none (im false 1 1)).image.rsaOk = false ∨ (bb none (im false 1
      1)).image.slhOk = false)) ∧
    ((isHart hk = true) ∧ ((hart v5 hk).running = true) ∧ (5 < 64) ∧ ((thr v5 hk).wait = Wait.none) ∧ ((thr v5
      hk).chain.live = true ∨ irqOpen (hart v5 hk) 5 = false ∨ (hart v5 hk).shut = true)) ∧
    ((isHart hk = true) ∧ ((hart v6 hk).running = true) ∧ (5 < 64) ∧ ((thr v6 hk).wait = Wait.none) ∧ ((thr v6
      hk).chain.live = false) ∧ (irqOpen (hart v6 hk) 5 = true) ∧ ((hart v6 hk).shut = false)) ∧
    ((isHart hk = true) ∧ ((hart v7 hk).running = true) ∧ (5 < 64) ∧ ((thr v7 hk).wait = Wait.none) ∧ ((thr v7
      hk).chain.live = false) ∧ (irqOpen (hart v7 hk) 5 = true) ∧ ((hart v7 hk).shut = false)) :=
  ⟨by decide +kernel,
   by decide +kernel,
   by decide +kernel,
   by decide +kernel,
   by decide +kernel,
   by decide +kernel,
   by decide +kernel,
   by decide +kernel⟩
end Sys2Proof.Tests.Boot
end

section
/-! Bolcel ports: commands, training and reports (R482). -/

namespace Sys2Proof.Machine

theorem bcport_number {n : Nat} (h : n < 64) (e : Bool) : bits (setBit (w64 n) 8 e) 5 0 = n := by
  have : ∀ n < 64, ∀ e : Bool, bits (setBit (w64 n) 8 e) 5 0 = n := by decide
  exact this n h e

theorem bcport_err {n : Nat} (h : n < 64) (e : Bool) : bit (setBit (w64 n) 8 e) 8 = e := by
  have : ∀ n < 64, ∀ e : Bool, bit (setBit (w64 n) 8 e) 8 = e := by decide
  exact this n h e

theorem bits_5_0_lt (v : Word) : bits v 5 0 < 64 := Nat.mod_lt _ (by decide)

/-- The partition owns the port that a value of `bcport` names (R482). -/
def bcOwns (s : State) (p : Nat) (v : Word) : Bool := bits v 5 0 < 36 && (part s p).bc.testBit (bits v 5 0)

/-- ERR after a write of `bcport` (R482). -/
def bcErr (s : State) (p : Nat) (v : Word) : Bool :=
  (bit (part s p).bcport 8 && !bit v 8) || !bcOwns s p v || bits v 7 6 = 3

/-- The partition's register after a write of `bcport`, before the command acts on the port. -/
def bcMarked (s : State) (p : Nat) (v : Word) : State :=
  modPart s p fun q => { q with bcport := setBit (w64 (bits v 5 0)) 8 (bcErr s p v) }

theorem bcportStore_owned {s : State} {p : Nat} {v : Word} (ho : bcOwns s p v = true)
    (hc : bits v 7 6 = 1 ∨ bits v 7 6 = 2) :
    bcportStore s p v = modPort (bcMarked s p v) (bits v 5 0) fun _ => { st := if bits v 7 6 = 1 then 1 else 0, lanes := 0 } := by
  unfold bcOwns at ho
  rcases hc with hc | hc <;> simp [bcportStore, bcMarked, bcErr, bcOwns, ho, hc]

theorem bcportStore_foreign {s : State} {p : Nat} {v : Word} (ho : bcOwns s p v = false) : bcportStore s p v = bcMarked s p v := by
  unfold bcOwns at ho
  simp [bcportStore, bcMarked, bcErr, bcOwns, ho]

theorem part_bcMarked_same (s : State) (p : Nat) (v : Word) :
    part (bcMarked s p v) p = { part s p with bcport := setBit (w64 (bits v 5 0)) 8 (bcErr s p v) } := part_modPart_same ..

theorem part_bcMarked_other (s : State) {p q : Nat} (v : Word) (h : q ≠ p) : part (bcMarked s p v) q = part s q :=
  part_modPart_other _ _ h

/-- A `bcport` command's register and port, and what else it leaves alone (R482). -/
theorem bcportStore_spec (s : State) (p : Nat) (v : Word) (hc : bits v 7 6 = 1 ∨ bits v 7 6 = 2) :
    let t := bcportStore s p v
    let x := bits v 5 0
    t = { s with parts := t.parts, ports := t.ports } ∧ part t p = { part s p with bcport := setBit (w64 x) 8 (bcErr s p v) } ∧
      (∀ q, q ≠ p → part t q = part s q) ∧
      (bcOwns s p v = true → port t x = { st := if bits v 7 6 = 1 then 1 else 0, lanes := 0 } ∧ ∀ j, j ≠ x → port t j = port s j) ∧
      (bcOwns s p v = false → t.ports = s.ports) := by
  cases ho : bcOwns s p v with
  | true =>
    rw [bcportStore_owned ho hc]
    exact ⟨rfl, part_bcMarked_same s p v, fun q hq => part_bcMarked_other s v hq,
      fun _ => ⟨port_modPort_same .., fun j hj => port_modPort_other _ _ hj⟩, by simp⟩
  | false =>
    rw [bcportStore_foreign ho]
    exact ⟨rfl, part_bcMarked_same s p v, fun q hq => part_bcMarked_other s v hq, by simp, fun _ => rfl⟩

theorem exec_bcport {s : State} {k n : Nat} {v : Word} {i : Instr} (hk : supHart s k = true)
    (hi : (i, n) ∈ [(Instr.bcportRetrain k v, 1), (.bcportDown k v, 2)]) (hn : bits v 7 6 = n) :
    (n = 1 ∨ n = 2) ∧ exec i s = .next (bcportStore s (partOf s k) v) := by
  simp only [List.mem_cons, List.not_mem_nil, or_false, Prod.mk.injEq] at hi
  rcases hi with ⟨rfl, rfl⟩ | ⟨rfl, rfl⟩
  · exact ⟨.inl rfl, by simp [exec, execBcportRetrain, hk, hn]⟩
  · exact ⟨.inr rfl, by simp [exec, execBcportDown, hk, hn]⟩

/-- R482: retrain and down reach the ports of the caller's partition alone. -/
theorem bcport_command (s : State) (k : Nat) (v : Word) (i : Instr) (n : Nat) (hk : supHart s k = true)
    (hi : (i, n) ∈ [(Instr.bcportRetrain k v, 1), (.bcportDown k v, 2)]) (hn : bits v 7 6 = n) :
    let p := partOf s k
    let x := bits v 5 0
    let own := x < 36 ∧ (part s p).bc.testBit x = true
    ∃ t, exec i s = .next t ∧ t = { s with parts := t.parts, ports := t.ports } ∧ bits (part t p).bcport 5 0 = x ∧
      (own → bit (part t p).bcport 8 = (bit (part s p).bcport 8 && !bit v 8) ∧
        port t x = { st := if n = 1 then 1 else 0, lanes := 0 } ∧ ∀ j, j ≠ x → port t j = port s j) ∧
      (¬ own → bit (part t p).bcport 8 = true ∧ t.ports = s.ports) ∧ ∀ q, q ≠ p → part t q = part s q := by
  intro p x own
  obtain ⟨hc, hx⟩ := exec_bcport hk hi hn
  obtain ⟨hs, hp, hq, ho, hf⟩ := bcportStore_spec s p v (hn ▸ hc)
  have hown : own ↔ bcOwns s p v = true := by simp [own, x, bcOwns]
  have hlt := bits_5_0_lt v
  have hcmd : bits v 7 6 ≠ 3 := by omega
  refine ⟨_, hx, hs, ?_, fun h => ⟨?_, ?_⟩, fun h => ⟨?_, ?_⟩, hq⟩
  · rw [hp]; exact bcport_number hlt _
  · rw [hp, bcport_err hlt]; simp [bcErr, hown.1 h, hcmd]
  · exact hn ▸ ho (hown.1 h)
  · rw [hp, bcport_err hlt]; simp [bcErr, Bool.eq_false_iff.2 fun e => h (hown.2 e)]
  · exact hf (Bool.eq_false_iff.2 fun e => h (hown.2 e))

/-- A port alone changes. -/
theorem modPort_only (s : State) (n : Nat) (f : BPort → BPort) :
    modPort s n f = { s with ports := (modPort s n f).ports } ∧ port (modPort s n f) n = f (port s n) ∧
      ∀ j, j ≠ n → port (modPort s n f) j = port s j :=
  ⟨rfl, port_modPort_same s n f, fun _ h => port_modPort_other s f h⟩

/-- R482: training leaves the state that the trained lanes call for; a port that does not train keeps its own. -/
theorem bolcelTraining_state (s : State) (n : Nat) (lanes : BitVec 4) :
    ((port s n).st = 1 → ∃ t, exec (.bolcelTrainingComplete n lanes) s = .next t ∧ t = { s with ports := t.ports } ∧
      port t n = { st := if lanes = 0 then 0 else if lanes = 0xF#4 then 2 else 3, lanes := lanes } ∧
      ∀ j, j ≠ n → port t j = port s j) ∧
    ((port s n).st ≠ 1 → exec (.bolcelTrainingComplete n lanes) s = .next s) := by
  refine ⟨fun h => ⟨_, ?_, modPort_only s n fun _ => { st := portState lanes, lanes := lanes }⟩, fun h => ?_⟩
  · simp [exec, execBolcelTrainingComplete, h]
  · simp [exec, execBolcelTrainingComplete, h]

/-- What a report makes of a trained port (R482). -/
def reportedPort (ok : Bool) (lanes : BitVec 4) (x : BPort) : BPort :=
  let l := x.lanes &&& lanes
  { st := if l = 0 then 0 else if ok = false then 4 else if l = 0xF#4 then 2 else 3, lanes := l }

theorem execBolcelPortReport_trained {s : State} {n : Nat} (ok : Bool) (lanes : BitVec 4) (h : 2 ≤ (port s n).st) :
    exec (.bolcelPortReport n ok lanes) s = .next (modPort s n (reportedPort ok lanes)) := by
  have hst : ∀ l : BitVec 4, (if ok || l = 0 then portState l else 4) =
      if l = 0 then 0 else if ok = false then 4 else if l = 0xF#4 then 2 else 3 := by
    intro l
    by_cases hl : l = 0
    · simp [portState, hl]
    · cases ok <;> simp only [portState, hl] <;> rfl
  simp only [exec, execBolcelPortReport, h, if_true, hst]
  rfl

/-- R482: a report takes lanes from a trained port, or makes it unreachable. -/
theorem bolcelReport_state (s : State) (n : Nat) (lanes : BitVec 4) :
    (∀ ok, 2 ≤ (port s n).st → let l := (port s n).lanes &&& lanes
      ∃ t, exec (.bolcelPortReport n ok lanes) s = .next t ∧ t = { s with ports := t.ports } ∧
      port t n = { st := if l = 0 then 0 else if ok = false then 4 else if l = 0xF#4 then 2 else 3, lanes := l } ∧
      ∀ j, j ≠ n → port t j = port s j) ∧
    (∀ ok, (port s n).st < 2 → exec (.bolcelPortReport n ok lanes) s = .next s) :=
  ⟨fun ok h => ⟨_, execBolcelPortReport_trained ok lanes h, modPort_only s n (reportedPort ok lanes)⟩,
    fun ok h => by simp [exec, execBolcelPortReport, Nat.not_le.2 h]⟩

end Sys2Proof.Machine
end

section
/-! Writing back the L1 copies of a line (R358, R485). -/

namespace Sys2Proof.Machine

/-- One byte of a copy is written back. -/
def writeBackByte (l : L1Line) (s : State) (o : Nat) (d : Bool) : State :=
  if d then wrBytes s hwKey (64 * l.line + o) [mget 0 l.data o] else s

theorem writeBackLine_eq (s : State) (l : L1Line) :
    writeBackLine s l = l.dirty.foldl (fun s e => writeBackByte l s e.1 e.2) s := rfl

/-- What every byte written back keeps, writing back a copy keeps. -/
theorem writeBackLine_keeps {P : State → Prop} (l : L1Line)
    (hw : ∀ s o, (o, true) ∈ l.dirty → P s → P (wrBytes s hwKey (64 * l.line + o) [mget 0 l.data o])) {s : State} (hs : P s) :
    P (writeBackLine s l) := by
  rw [writeBackLine_eq]
  refine List.foldlRecOn l.dirty _ hs fun s hs e he => ?_
  obtain ⟨o, d⟩ := e
  cases d with
  | false => exact hs
  | true => exact hw s o he hs

/-- Writing back a copy leaves threads, copies and acknowledged invalidations. -/
theorem writeBackLine_rest (s : State) (l : L1Line) :
    (writeBackLine s l).threads = s.threads ∧ (writeBackLine s l).l1 = s.l1 ∧ (writeBackLine s l).invals = s.invals :=
  writeBackLine_keeps (P := fun t => t.threads = s.threads ∧ t.l1 = s.l1 ∧ t.invals = s.invals) l (fun _ _ _ h => h) ⟨rfl, rfl, rfl⟩

/-- A byte that no dirty byte of the copy names is left. -/
theorem byte_writeBackLine_clean (s : State) (l : L1Line) {a : Nat} (ha : ∀ o, (o, true) ∈ l.dirty → a ≠ 64 * l.line + o) :
    Memory.byte (writeBackLine s l).mem a = Memory.byte s.mem a := by
  refine writeBackLine_keeps (P := fun t => Memory.byte t.mem a = Memory.byte s.mem a) l (fun t o ho ht => ?_) rfl
  have := ha o ho
  rw [byte_wrBytes_outside t hwKey _ _ (by simp only [List.length_singleton]; omega), ht]

theorem byte_wrBytes_single (s : State) (k a : Nat) (b : Byte) : Memory.byte (wrBytes s k a [b]).mem a = b :=
  Memory.byte_write_inside s.mem a [b] (i := 0) (by simp)

/-- Once a dirty byte has been written back, it stays so: what comes after writes the same value or another byte. -/
theorem byte_writeBackByte_stays (l : L1Line) (s : State) (o : Nat) (e : Nat × Bool)
    (h : Memory.byte s.mem (64 * l.line + o) = mget 0 l.data o) :
    Memory.byte (writeBackByte l s e.1 e.2).mem (64 * l.line + o) = mget 0 l.data o := by
  obtain ⟨o', d⟩ := e
  cases d with
  | false => exact h
  | true =>
    by_cases ho : o = o'
    · subst ho; exact byte_wrBytes_single ..
    · exact (byte_wrBytes_outside s hwKey _ _ (by simp only [List.length_singleton]; omega)).trans h

/-- Every dirty byte of the copy replaces the home's (R358). -/
theorem byte_writeBackLine_dirty (s : State) (l : L1Line) {o : Nat} (ho : (o, true) ∈ l.dirty) :
    Memory.byte (writeBackLine s l).mem (64 * l.line + o) = mget 0 l.data o := by
  rw [writeBackLine_eq]
  obtain ⟨d, e, hd⟩ := List.append_of_mem ho
  rw [hd, List.foldl_append, List.foldl_cons]
  exact List.foldlRecOn (motive := fun t : State => Memory.byte t.mem (64 * l.line + o) = mget 0 l.data o) e _
    (byte_wrBytes_single ..) fun t ht x _ => byte_writeBackByte_stays l t o x ht

/-! Copies that may have been evicted before an access (R358, log 10). -/

/-- One copy of a line has been evicted, or not. -/
def freeEvictOne (line : Nat) (s : State) (l : L1Line) : State :=
  if (freshBool s).1 then dropL1 (writeBackLine (freshBool s).2 l) l.core line else (freshBool s).2

theorem freeEvict_eq (s : State) (line : Nat) : freeEvict s line = (s.l1.filter (·.line = line)).foldl (freeEvictOne line) s := rfl

theorem freeEvict_uncopied {s : State} {line : Nat} (h : ∀ x ∈ s.l1, x.line ≠ line) : freeEvict s line = s := by
  rw [freeEvict_eq, List.filter_eq_nil_iff.2 (by simpa using h), List.foldl_nil]

/-- What a free choice, a dropped copy and each byte written back keep, the evictions of a line's copies keep. -/
theorem freeEvict_keeps {P : State → Prop} {s : State} (line : Nat) (hi : ∀ t n, P t → P { t with freeIdx := n })
    (hl : ∀ t l1, P t → P { t with l1 := l1 })
    (hw : ∀ t l o, l ∈ s.l1 → l.line = line → (o, true) ∈ l.dirty → P t → P (wrBytes t hwKey (64 * line + o) [mget 0 l.data o]))
    (hs : P s) : P (freeEvict s line) := by
  rw [freeEvict_eq]
  refine List.foldlRecOn _ _ hs fun t ht l hmem => ?_
  obtain ⟨hm, hline⟩ : l ∈ s.l1 ∧ l.line = line := by simpa using List.mem_filter.1 hmem
  unfold freeEvictOne
  split
  · refine hl _ _ (writeBackLine_keeps l (fun u o ho hu => ?_) (hi _ _ ht))
    exact hline ▸ hw u l o hm hline ho hu
  · exact hi _ _ ht

theorem freeEvict_rest (s : State) (line : Nat) :
    (freeEvict s line).threads = s.threads ∧ (freeEvict s line).invals = s.invals :=
  freeEvict_keeps (P := fun t => t.threads = s.threads ∧ t.invals = s.invals) line (fun _ _ h => h) (fun _ _ h => h)
    (fun _ _ _ _ _ _ h => h) ⟨rfl, rfl⟩

/-- Every dirty byte of the copies of a line is a byte of the line. -/
def DirtyInLine (s : State) (line : Nat) : Prop := ∀ x ∈ s.l1, x.line = line → ∀ o, (o, true) ∈ x.dirty → o < 64

/-- The evictions of a line's copies write that line alone. -/
def EvictsInLine (s : State) (line : Nat) : Prop :=
  ∀ a, a / 64 ≠ line → Memory.byte (freeEvict s line).mem a = Memory.byte s.mem a

theorem evictsInLine_of_dirtyInLine {s : State} {line : Nat} (hd : DirtyInLine s line) : EvictsInLine s line := by
  intro a ha
  refine freeEvict_keeps (P := fun t => Memory.byte t.mem a = Memory.byte s.mem a) line (fun _ _ h => h) (fun _ _ h => h) ?_ rfl
  intro t l o hl hline ho ht
  have := hd l hl hline o ho
  rw [byte_wrBytes_outside t hwKey _ _ (by simp only [List.length_singleton]; omega), ht]

/-- Without an eviction memory is as it was. -/
theorem freeEvict_mem_of_never (h : ∀ i, Config.freeBool i = false) (s : State) (line : Nat) : (freeEvict s line).mem = s.mem := by
  rw [freeEvict_eq]
  refine List.foldlRecOn (motive := fun t : State => t.mem = s.mem) _ _ rfl fun t ht l _ => ?_
  rw [freeEvictOne, show (freshBool t).1 = false from h _]
  exact ht

end Sys2Proof.Machine
end

section
/-! Requests that a Bolcel port brings in (R27, R40, R485). -/

namespace Sys2Proof.Machine

/-- The bytes that a request reads or writes. -/
def requestSize (r : HomeReq) : Nat := if r.write then r.data.length else r.len

/-- A request of a port is served now: the port is up, the granule is a partition's that is not RESETTING, and the way to the line's
home is free. -/
def Served (s : State) (n : Nat) (r : HomeReq) : Prop :=
  portUp s n = true ∧ bit (granule s r.pa) 63 = true ∧ bit (granule s r.pa) 20 = false ∧
    (part s (bits (granule s r.pa) 19 17)).state ≠ 3 ∧ inRanges s (bits (granule s r.pa) 19 17) r.pa (requestSize r) = true ∧
    postClear s (bolcelDie n) r.pa (requestSize r) = true

theorem bolcelRequest_served {s : State} {n : Nat} {r : HomeReq} (h : Served s n r) :
    exec (.bolcelRequest ⟨n, r⟩) s = .next (if r.write then wrBytes (invalidate (freeEvict s (r.pa / 64)) (w64 256) r.pa) hwKey r.pa r.data
      else freeEvict s (r.pa / 64)) := by
  obtain ⟨hup, hin, hman, hst, hran, hclear⟩ := h
  rw [requestSize] at hran hclear
  simp [exec, execBolcelRequest, hup, hin, hman, hst, hran, hclear]

theorem bolcelRequest_unserved {s : State} {n : Nat} {r : HomeReq} (h : ¬ Served s n r) :
    exec (.bolcelRequest ⟨n, r⟩) s = .next s := by
  have hx : exec (.bolcelRequest ⟨n, r⟩) s = .next (
      if !portUp s n || !bit (granule s r.pa) 63 || bit (granule s r.pa) 20 || (part s (bits (granule s r.pa) 19 17)).state = 3 ||
          !inRanges s (bits (granule s r.pa) 19 17) r.pa (requestSize r) then s
      else if !postClear s (bolcelDie n) r.pa (requestSize r) then s
      else if r.write then wrBytes (invalidate (freeEvict s (r.pa / 64)) (w64 256) r.pa) hwKey r.pa r.data
      else freeEvict s (r.pa / 64)) := rfl
  rw [hx]
  split
  · rfl
  · next hgo =>
    simp only [Bool.or_eq_true, Bool.not_eq_true', decide_eq_true_eq, not_or, Bool.not_eq_false, Bool.not_eq_true] at hgo
    obtain ⟨⟨⟨⟨hup, hin⟩, hman⟩, hst⟩, hran⟩ := hgo
    rw [if_pos]
    simpa using fun hc => h ⟨hup, hin, hman, hst, hran, hc⟩

/-- R40, R481, R485: a request changes nothing while it waits or is refused, nor where it reads a line without copies. -/
theorem bolcelRequest_idle (s : State) (n : Nat) (r : HomeReq)
    (h : ¬ Served s n r ∨ (r.write = false ∧ ∀ x ∈ s.l1, x.line ≠ r.pa / 64)) : exec (.bolcelRequest ⟨n, r⟩) s = .next s := by
  by_cases hs : Served s n r
  · obtain ⟨hw, hu⟩ := h.resolve_left (not_not_intro hs)
    rw [bolcelRequest_served hs, hw, freeEvict_uncopied hu]
    rfl
  · exact bolcelRequest_unserved hs

/-- R27, R485: a write that is served stands at its home, its line's invalidation is acknowledged, and no thread changes. Bytes of the
line may differ too where a copy of it was written back before. -/
theorem bolcelRequest_write {s : State} {n : Nat} {r : HomeReq} (hs : Served s n r) (hw : r.write = true)
    (he : EvictsInLine s (r.pa / 64)) :
    ∃ t, exec (.bolcelRequest ⟨n, r⟩) s = .next t ∧ (∀ i < requestSize r, Memory.byte t.mem (r.pa + i) = r.data.getD i 0) ∧
      (∀ a, a < r.pa ∨ r.pa + requestSize r ≤ a → a / 64 ≠ r.pa / 64 ∨ (∀ x ∈ s.l1, x.line ≠ r.pa / 64) →
        Memory.byte t.mem a = Memory.byte s.mem a) ∧
      t.invals = r.pa / 64 :: s.invals ∧ t.threads = s.threads := by
  have hsize : requestSize r = r.data.length := by simp [requestSize, hw]
  rw [hsize, bolcelRequest_served hs, if_pos hw]
  obtain ⟨hthr, hinv⟩ := freeEvict_rest s (r.pa / 64)
  have hd : invalidate (freeEvict s (r.pa / 64)) (w64 256) r.pa =
      { freeEvict s (r.pa / 64) with invals := r.pa / 64 :: (freeEvict s (r.pa / 64)).invals } := rfl
  rw [hd]
  refine ⟨_, rfl, fun i hi => ?_, fun a ha hx => ?_, congrArg _ hinv, hthr⟩
  · rw [List.getD_eq_getElem _ _ hi]
    exact Memory.byte_write_inside _ _ _ hi
  · rw [byte_wrBytes_outside _ _ _ _ ha]
    rcases hx with hx | hx
    · exact he a hx
    · rw [freeEvict_uncopied hx]

end Sys2Proof.Machine
end

section
/-! Snoops and invalidations of the directory (R485). -/

namespace Sys2Proof.Machine

/-- Writing back all copies of a line leaves threads and copies. -/
theorem foldl_writeBackLine_rest (ls : List L1Line) (s : State) :
    (ls.foldl writeBackLine s).threads = s.threads ∧ (ls.foldl writeBackLine s).l1 = s.l1 := by
  refine List.foldlRecOn (motive := fun t : State => t.threads = s.threads ∧ t.l1 = s.l1) ls _ ⟨rfl, rfl⟩ fun t ht l _ => ?_
  obtain ⟨hthr, hl1, -⟩ := writeBackLine_rest t l
  exact ⟨hthr.trans ht.1, hl1.trans ht.2⟩

/-- A copy as it stands after its line has been cleaned. -/
def cleanedCopy (line : Nat) (l : L1Line) : L1Line := if l.line = line then { l with dirty := [] } else l

theorem cleanedCopy_line (line : Nat) (l : L1Line) : (cleanedCopy line l).line = l.line := by
  unfold cleanedCopy; split <;> rfl

theorem cleanLine_threads (s : State) (line : Nat) : (cleanLine s line).threads = s.threads := (foldl_writeBackLine_rest _ s).1

theorem cleanLine_l1 (s : State) (line : Nat) : (cleanLine s line).l1 = s.l1.map (cleanedCopy line) :=
  congrArg (List.map (cleanedCopy line)) (foldl_writeBackLine_rest _ s).2

/-- The one copy of a line is written back as the line is cleaned. -/
theorem cleanLine_mem_one {s : State} {line : Nat} {x : L1Line} (h : s.l1.filter (fun y => y.line = line) = [x]) :
    (cleanLine s line).mem = (writeBackLine s x).mem := by
  unfold cleanLine
  rw [h]
  rfl

theorem mem_cleanLine_dirty {s : State} {line : Nat} {y : L1Line} (hy : y ∈ (cleanLine s line).l1) (hl : y.line = line) :
    y.dirty = [] := by
  rw [cleanLine_l1] at hy
  obtain ⟨x, -, rfl⟩ := List.mem_map.1 hy
  rw [cleanedCopy_line] at hl
  rw [cleanedCopy, if_pos hl]

theorem mem_cleanLine_other {s : State} {line : Nat} {y : L1Line} (hl : y.line ≠ line) : y ∈ (cleanLine s line).l1 ↔ y ∈ s.l1 := by
  rw [cleanLine_l1, List.mem_map]
  constructor
  · rintro ⟨x, hx, rfl⟩
    rw [cleanedCopy_line] at hl
    rwa [cleanedCopy, if_neg hl]
  · exact fun hy => ⟨y, hy, if_neg hl⟩

/-- An invalidation's end (R485, log 8): the copies and the reservations on the line are gone. -/
def dropCopies (s : State) (l : Nat) : State :=
  { s with l1 := s.l1.filter (·.line ≠ l), resvs := s.resvs.filter fun r => !overlaps (64 * l) 64 r.2.1 r.2.2 }

theorem mem_dropCopies_other {s : State} {l : Nat} {y : L1Line} (hl : y.line ≠ l) : y ∈ (dropCopies s l).l1 ↔ y ∈ s.l1 := by
  simp [dropCopies, hl]

theorem exec_directorySnoop (s : State) (pa : Nat) (inval : Bool) :
    exec (.directorySnoop pa inval) s =
      .next (if inval then dropCopies (cleanLine s (pa / 64)) (pa / 64) else cleanLine s (pa / 64)) := rfl

/-- What cleaning a line writes, where the line has one copy (R358, R485). -/
theorem byte_cleanLine_one {s : State} {l : Nat} {x : L1Line} (h : s.l1.filter (fun y => y.line = l) = [x]) :
    (∀ o, (o, true) ∈ x.dirty → Memory.byte (cleanLine s l).mem (64 * l + o) = mget 0 x.data o) ∧
      ∀ a, (∀ o, (o, true) ∈ x.dirty → a ≠ 64 * l + o) → Memory.byte (cleanLine s l).mem a = Memory.byte s.mem a := by
  have hx : x.line = l := by
    have : x ∈ s.l1.filter fun y => y.line = l := by rw [h]; exact List.mem_singleton_self x
    simpa using (List.mem_filter.1 this).2
  rw [cleanLine_mem_one h, ← hx]
  exact ⟨fun o ho => byte_writeBackLine_dirty s x ho, fun a ha => byte_writeBackLine_clean s x ha⟩

/-- R485: a snoop writes back what the line's copies hold, and an invalidation drops them, with the reservations on the line. -/
theorem directorySnoop_spec (s : State) (pa : Nat) (inval : Bool) :
    let l := pa / 64
    ∃ t, exec (.directorySnoop pa inval) s = .next t ∧ t.threads = s.threads ∧
      (∀ x, s.l1.filter (fun y => y.line = l) = [x] →
        (∀ o, (o, true) ∈ x.dirty → Memory.byte t.mem (64 * l + o) = mget 0 x.data o) ∧
        ∀ a, (∀ o, (o, true) ∈ x.dirty → a ≠ 64 * l + o) → Memory.byte t.mem a = Memory.byte s.mem a) ∧
      (∀ y ∈ t.l1, y.line = l → y.dirty = []) ∧ (∀ y, y.line ≠ l → (y ∈ t.l1 ↔ y ∈ s.l1)) ∧
      (inval = true → (∀ y ∈ t.l1, y.line ≠ l) ∧ ∀ r ∈ t.resvs, overlaps (64 * l) 64 r.2.1 r.2.2 = false) := by
  intro l
  rw [exec_directorySnoop]
  cases inval with
  | false =>
    exact ⟨_, rfl, cleanLine_threads s l, fun _ => byte_cleanLine_one, fun _ => mem_cleanLine_dirty, fun _ => mem_cleanLine_other, by simp⟩
  | true =>
    refine ⟨_, rfl, cleanLine_threads s l, fun _ => byte_cleanLine_one, fun y hy => ?_, fun y hl => ?_, fun _ => ⟨fun y hy => ?_, fun r hr => ?_⟩⟩
    · exact mem_cleanLine_dirty (List.mem_of_mem_filter hy)
    · exact (mem_dropCopies_other hl).trans (mem_cleanLine_other hl)
    · simpa using (List.mem_filter.1 hy).2
    · simpa using (List.mem_filter.1 hr).2

end Sys2Proof.Machine
end

section
/-! Failing completions (R40, R395, R486). -/

namespace Sys2Proof.Machine

/-- A completion fails its request where the port it names is DOWN or ISOLATED, or where it names none. -/
theorem exec_failingCompletion {s : State} {o : Option Nat} (r : RemoteReq)
    (ho : ∀ x, o = some x → (port s x).st = 0 ∨ (port s x).st = 4) :
    exec (.failingCompletion ⟨o, r⟩) s = .next (failRequest s r) := by
  cases o with
  | none => rfl
  | some x => simp [exec, execFailingCompletion, ho x rfl]

theorem exec_failingCompletion_up {s : State} {x : Nat} (r : RemoteReq) (h0 : (port s x).st ≠ 0) (h4 : (port s x).st ≠ 4) :
    exec (.failingCompletion ⟨some x, r⟩) s = .next s := by
  simp [exec, execFailingCompletion, h0, h4]

theorem exec_failingCompletion_keeps {s : State} (o : Option Nat) {r : RemoteReq} (h : failRequest s r = s) :
    exec (.failingCompletion ⟨o, r⟩) s = .next s := by
  simp [exec, execFailingCompletion, h]

theorem exec_bolcelTimeout_late {us : Nat} (s : State) (r : RemoteReq) (h : 2000 ≤ us) :
    exec (.bolcelTimeout r us) s = exec (.failingCompletion ⟨none, r⟩) s := by
  simp [exec, execBolcelTimeout, execFailingCompletion, h]

theorem exec_bolcelTimeout_early {us : Nat} (s : State) (r : RemoteReq) (h : us < 2000) :
    exec (.bolcelTimeout r us) s = .next s := by
  simp [exec, execBolcelTimeout, Nat.not_le.2 h]

/-! A load of a thread. -/

theorem isHart_of_isSimt {k : Nat} (h : isSimt k = true) : isHart k = false := by
  simp only [isSimt, isHart, decide_eq_true_eq, Bool.and_eq_false_iff, decide_eq_false_iff_not] at *
  omega

theorem isCob_of_isSimt {k : Nat} (h : isSimt k = true) : isCob k = false := by
  simp only [isSimt, isCob, decide_eq_true_eq, Bool.and_eq_false_iff, decide_eq_false_iff_not] at *
  omega

theorem useWalks_none {s : State} {k : Nat} (h : ∀ x ∈ s.walks, x.key = k → x.phase ≠ 2) : useWalks s k = s := by
  have : s.walks.filter (fun x => !(x.key = k && x.phase = 2)) = s.walks := by
    refine List.filter_eq_self.2 fun x hx => ?_
    have := h x hx
    simp only [Bool.not_eq_true', Bool.and_eq_false_iff, decide_eq_false_iff_not]
    tauto
  rw [useWalks, this]

/-- A cause goes to the user handler of a SIMT thread that is no helper and has one that it is not in (R431, R433). -/
theorem raiseTrap_user {s : State} {k : Nat} {tr : Trap} (a : Acc) (hk : isSimt k = true) (hh : (thr s k).helper = false)
    (hi : (thr s k).trap.inh = false) (hv : (thr s k).trap.hvec ≠ 0) (hr : routesUser tr.code = true) (hp : tr.priv = false) :
    raiseTrap s k tr a = setThr s k { enterHandler tr (thr s k) with age := s.cycle } := by
  have hu : (routesUser tr.code && !tr.priv && (thr s k).trap.hvec ≠ 0 && !(thr s k).trap.inh) = true := by simpa [hr, hp, hi] using hv
  simp only [raiseTrap, isHart_of_isSimt hk, isCob_of_isSimt hk, hh, Bool.false_eq_true, if_false, deliver, hu, if_true]

/-- An operation's cause as it is sent, for a thread that is no helper, is in no handler and does not wait (R435). -/
theorem sendFault_cause {s : State} {k : Nat} (i : Nat) (p : PendOp) (code : Nat) (va : Word) (hh : (thr s k).helper = false)
    (hi : (thr s k).trap.inh = false) (hb : (thr s k).st ≠ .blocked) :
    sendFault s k i p (.cause code va) =
      raiseTrap s k { code := code, insn := p.bits, addr := p.pc, va := va, flt := true } (opAcc p.kind) := by
  simp [sendFault, sendTrap, hh, hi, hb]

/-- The one issued operation of a thread, a load that has left the core, is withdrawn and meets its cause (R486). -/
theorem failLoad_sent {s : State} {k : Nat} {va : Word} {p : PendOp} {n : Nat} {sgn box : Bool} (hk : isSimt k = true)
    (ho : occupied s k = true) (hops : (thr s k).ops = [p]) (hs : p.sent = true) (hkind : p.kind = .load n sgn box)
    (hva : opAddr p.kind p.op1 = va) (hw : ∀ x ∈ s.walks, x.key = k → x.phase ≠ 2) :
    failLoad s k va =
      sendFault (modThr s k fun t => { t with ops := t.ops.modify 0 fun p => { p with sent := false } }) k 0 { p with sent := false }
        (.cause 0x0B va) := by
  rw [hkind] at hva
  simp [failLoad, hk, ho, hops, hs, hkind, hva, useWalks_none hw, List.range_succ]

/-- The one issued operation of a thread, not sent, joins the replay queue as a cause is taken (R192). -/
theorem capture_unsent {t : Thread} {p : PendOp} (ho : t.ops = [p]) (hs : p.sent = false) :
    capture t = { t with held := t.held ++ [{ p with own := t.trap.inh }], ops := [] } := by
  simp [capture, ho, hs]

/-- What a thread's handler finds where the one issued operation was not sent (R437). -/
theorem enterHandler_unsent {t : Thread} {p : PendOp} {tr : Trap} (ho : t.ops = [p]) (hs : p.sent = false) (hd : tr.dec = none)
    (hr : tr.hrace = none) (hl : tr.hlace = none) :
    let u := enterHandler tr t
    u.trap = { t.trap with
      hcause := w64 tr.code, hepc := t.pc, hdec0 := tr.insn, hdec2 := tr.addr, hfva := tr.va, flt := tr.flt, redo := false, inh := true } ∧
    u.pc = t.trap.hvec ∧ u.ops = [] ∧ u.held = t.held ++ [{ p with own := t.trap.inh }] ∧ KeepsRegs [] t u := by
  have hdet : trapDetail tr t = t := by simp [trapDetail, hd, hr, hl]
  unfold enterHandler
  rw [hdet, capture_unsent ho hs]
  exact ⟨rfl, rfl, rfl, rfl, fun n _ => getReg_congr rfl rfl n⟩

/-- The thread of one key is set, and nothing else differs. -/
theorem onlyThreads_setThr (s : State) (k : Nat) (t : Thread) : OnlyThreads [k] s (setThr s k t) :=
  ⟨rfl, fun _ hj => slot_setThr_other s t (by simpa using hj)⟩

/-- Of two changes to the thread of a key, the later one stays. -/
theorem onlyThreads_setThr_setThr (s : State) (k : Nat) (t u : Thread) : OnlyThreads [k] s (setThr (setThr s k t) k u) :=
  ⟨rfl, fun _ hj => (slot_setThr_other _ u (by simpa using hj)).trans (slot_setThr_other s t (by simpa using hj))⟩

/-- R486: a thread's load that fails at another package is withdrawn as the last held entry, and its handler is entered with cause
0x0B and FLT = 1. -/
theorem failLoad_user {s : State} {k va : Nat} {p : PendOp} {n : Nat} {sgn box : Bool} (hk : isSimt k = true)
    (ho : occupied s k = true) (hh : (thr s k).helper = false) (hi : (thr s k).trap.inh = false) (hv : (thr s k).trap.hvec ≠ 0)
    (hb : (thr s k).st ≠ .blocked) (hops : (thr s k).ops = [p]) (hs : p.sent = true) (hkind : p.kind = .load n sgn box)
    (hva : opAddr p.kind p.op1 = w64 va) (hw : ∀ x ∈ s.walks, x.key = k → x.phase ≠ 2) :
    let t := failLoad s k (w64 va)
    OnlyThreads [k] s t ∧ (thr t k).trap.hcause = 0x0B ∧
      (thr t k).trap.hfva = w64 va ∧ (thr t k).trap.flt = true ∧ (thr t k).trap.inh = true ∧ (thr t k).trap.hepc = (thr s k).pc ∧
      (thr t k).trap.hdec0 = p.bits ∧ (thr t k).pc = (thr s k).trap.hvec ∧ (thr t k).ops = [] ∧
      (thr t k).held = (thr s k).held ++ [{ p with sent := false, own := false }] ∧ KeepsRegs [] (thr s k) (thr t k) := by
  have hmod : (modThr s k fun t => { t with ops := t.ops.modify 0 fun p => { p with sent := false } }) =
      setThr s k { thr s k with ops := [{ p with sent := false }] } := by simp [modThr, hops]
  have hfail : failLoad s k (w64 va) = setThr (setThr s k { thr s k with ops := [{ p with sent := false }] }) k
      { enterHandler { code := 0x0B, insn := p.bits, addr := p.pc, va := w64 va, flt := true }
          { thr s k with ops := [{ p with sent := false }] } with age := s.cycle } := by
    rw [failLoad_sent hk ho hops hs hkind hva hw, hmod, sendFault_cause, raiseTrap_user, thr_setThr_same]
    · rfl
    all_goals simp [hk, hh, hi, hb]
    · simpa using hv
    · decide
  obtain ⟨htrap, hpc, hnil, hheld, hregs⟩ := enterHandler_unsent (t := { thr s k with ops := [{ p with sent := false }] })
    (p := { p with sent := false }) (tr := { code := 0x0B, insn := p.bits, addr := p.pc, va := w64 va, flt := true }) rfl rfl rfl rfl rfl
  intro t
  have ht : t = _ := hfail
  rw [ht]
  refine ⟨onlyThreads_setThr_setThr .., ?_⟩
  simp only [thr_setThr_same, htrap, hpc, hnil, hheld, hi]
  exact ⟨rfl, trivial, trivial, trivial, trivial, trivial, trivial, trivial, trivial, hregs⟩

/-! A store of a thread. -/

theorem mem_of_mget? {m : SMap α} {k : Nat} {v : α} (h : mget? m k = some v) : (k, v) ∈ m := by
  induction m with
  | nil => cases h
  | cons e m ih =>
    obtain ⟨j, w⟩ := e
    rw [mget?_cons] at h
    split at h
    · next hk => cases h; simp [hk]
    · exact List.mem_cons_of_mem _ (ih h)

theorem thr_mem {s : State} {k : Nat} (h : occupied s k = true) : (k, thr s k) ∈ s.threads := by
  obtain ⟨t, ht⟩ := Option.isSome_iff_exists.1 h
  have : thr s k = t := by rw [thr, ht]; rfl
  exact mem_of_mget? (this ▸ ht)

/-- A search finds the key of the one entry that satisfies it. -/
theorem map_find?_unique {l : List (Nat × Thread)} {q : Nat × Thread → Bool} {e : Nat × Thread} (he : e ∈ l) (hq : q e = true)
    (hu : ∀ x ∈ l, q x = true → x.1 = e.1) : (l.find? q).map (·.1) = some e.1 := by
  obtain ⟨x, hx⟩ := Option.isSome_iff_exists.1 (List.find?_isSome.2 ⟨e, he, hq⟩)
  rw [hx, Option.map_some, hu x (List.mem_of_find?_eq_some hx) (List.find?_some hx)]

/-- The one live thread of a tid is found where it stands (R135, R446). -/
theorem liveKey_eq {s : State} {k p tid : Nat} (hc : isCob k = false) (ho : occupied s k = true) (hp : partOf s k = p)
    (ht : (thr s k).tid = tid) (hh : (thr s k).helper = false) (ha : (thr s k).away = false) (hx : (thr s k).st ≠ .exited)
    (hu : ∀ x ∈ s.threads, x.2.tid = tid → x.1 = k) : liveKey s p tid = some k := by
  refine map_find?_unique (thr_mem ho) (by simp [hc, hp, ht, hh, ha, hx]) fun x hmem hq => hu x hmem ?_
  simp only [Bool.and_eq_true, decide_eq_true_eq] at hq
  exact hq.1.1.2

/-- R453, R486: a live thread's store that fails at another package is pending at it. -/
theorem storeFault_live {s : State} {p tid k : Nat} (pc va : Word) (h : liveKey s p tid = some k) :
    storeFault s p tid pc va = setThr s k { thr s k with pend0E := some (pc, va) } := by
  simp only [storeFault, h, modThr]

/-! A copy. -/

/-- Nobody waits. -/
def NoWaits (s : State) : Prop := ∀ x ∈ s.threads, x.2.wait = .none

theorem mapThreads_self {s : State} {f : Nat × Thread → Nat × Thread} (h : ∀ x ∈ s.threads, f x = x) :
    { s with threads := s.threads.map f } = s :=
  congrArg (fun l => { s with threads := l }) ((List.map_congr_left h).trans (List.map_id _))

theorem wakeRoom_noWaits {s : State} (h : NoWaits s) : wakeRoom s = s := mapThreads_self fun x hx => by simp only [h x hx]

theorem evalFreeing_noWaits {s : State} (h : NoWaits s) : evalFreeing s = s := mapThreads_self fun x hx => by simp only [h x hx]

theorem evalDrains_noWaits {s : State} (h : NoWaits s) : evalDrains s = s := by
  unfold evalDrains
  refine List.foldlRecOn (motive := (· = s)) _ _ rfl fun t ht x hx => ?_
  simp only [h x hx, ht]

/-- A solo thread's copy leaves its engine with its locks; nobody who waits is woken (R299). -/
theorem retireCopy_solo {s : State} {c : Copy} (hs : c.solo = true) (hw : NoWaits s) :
    retireCopy s c = { s with
      copies := s.copies.filter fun x => x.id ≠ c.id
      cores := s.cores.map fun (i, x) => (i, { x with rlocks := x.rlocks.filter fun e => e.copy ≠ c.id }) } := by
  have hw' : NoWaits { s with
      copies := s.copies.filter fun x => x.id ≠ c.id
      cores := s.cores.map fun (i, x) => (i, { x with rlocks := x.rlocks.filter fun e => e.copy ≠ c.id }) } := hw
  simp only [retireCopy, hs, if_true]
  rw [wakeRoom_noWaits hw', evalFreeing_noWaits hw', evalDrains_noWaits hw']

/-- KIND and CAUSE of a fault record (R446). -/
theorem faultRecord_head (kind : Nat) (exited nested fwd flt : Bool) (cause team tid : Nat) (pc addr place detail : Word)
    (asid pseq : Nat) (insn : Word) (hk : kind < 16) :
    bits (dw (faultRecord kind exited nested fwd flt cause team tid pc addr place detail asid pseq insn) 0) 63 60 = kind ∧
    bits (dw (faultRecord kind exited nested fwd flt cause team tid pc addr place detail asid pseq insn) 0) 55 48 = cause % 256 := by
  have hb : ∀ b : Bool, b2n b ≤ 1 := by decide
  have h1 := hb exited
  have h2 := hb nested
  have h3 := hb fwd
  have h4 := hb flt
  have h5 : team % 4096 < 4096 := Nat.mod_lt _ (by decide)
  have h6 : tid % 2 ^ 32 < 2 ^ 32 := Nat.mod_lt _ (by decide)
  simp only [dw, faultRecord, List.getD_cons_zero, bits, w64, BitVec.toNat_ofNat]
  generalize team % 4096 = a at *
  generalize tid % 2 ^ 32 = b at *
  constructor <;> omega

/-- The record of a copy that ends at an access (R316, R446): KIND 2, the address, the ticket, and the two bits of INSN. -/
theorem copyRecord_spec (s : State) (c : Copy) (va : Word) (wr : Bool) :
    ∃ r, copyRecord s c 0x0B va wr true = postFault s c.part r ∧ bits (dw r 0) 63 60 = 2 ∧ bits (dw r 0) 55 48 = 0x0B ∧ dw r 2 = va ∧
      dw r 4 = c.ticket ∧ bit (dw r 6) 8 = true ∧ bit (dw r 6) 0 = wr := by
  have hinsn : ∀ wr : Bool, bit (w64 (b2n true * 256 + b2n wr)) 8 = true ∧ bit (w64 (b2n true * 256 + b2n wr)) 0 = wr := by decide
  obtain ⟨hkind, hcause⟩ := faultRecord_head 2 (ended? s c.part c.tid).isSome false false false 0x0B c.team c.tid 0 va 0 c.ticket
    (asidOf c.satp) 0 (w64 (b2n true * 256 + b2n wr)) (by decide)
  exact ⟨_, rfl, hkind, hcause, rfl, rfl, hinsn wr⟩

/-- R486: a solo thread's copy whose access fails at another package ends with a record; memory is as it was. -/
theorem failRequest_copy {s : State} {c : Copy} (va : Word) (wr : Bool) (hc : s.copies = [c]) (hst : c.state = 2)
    (hsolo : c.solo = true) (hw : NoWaits s) :
    ∃ r, let t := failRequest s (.copy c.part c.ticket va wr)
      t.copies = [] ∧ KeepsMemory s t ∧ (part t c.part).fqPend = (part s c.part).fqPend ++ [r] ∧ bits (dw r 0) 63 60 = 2 ∧
      bits (dw r 0) 55 48 = 0x0B ∧ dw r 2 = va ∧ dw r 4 = c.ticket ∧ bit (dw r 6) 8 = true ∧ bit (dw r 6) 0 = wr := by
  obtain ⟨r, hr, hfields⟩ := copyRecord_spec (retireCopy s c) c va wr
  have ht : failRequest s (.copy c.part c.ticket va wr) = postFault (retireCopy s c) c.part r := by simp [failRequest, hc, hst, hr]
  refine ⟨r, ?_⟩
  rw [ht, retireCopy_solo hsolo hw]
  exact ⟨by simp [postFault, modPart, hc], fun _ => rfl, by simp [postFault]; rfl, hfields⟩

end Sys2Proof.Machine
end

section
/-! What `Obligations.BolcelPorts` rests on: a free choice of the hardware, of which nothing can be proved. -/

namespace Sys2Proof.Machine

/-- Where evictions write their line alone, a port's request does what R27, R40 and R485 say. -/
theorem bolcelRequest_spec (s : State) (port : Nat) (r : HomeReq) (he : EvictsInLine s (r.pa / 64)) :
    let g := granule s r.pa
    let n := if r.write then r.data.length else r.len
    let uncopied := ∀ x ∈ s.l1, x.line ≠ r.pa / 64
    (portUp s port = false ∨ bit g 63 = false ∨ bit g 20 = true ∨ (part s (bits g 19 17)).state = 3 ∨
      inRanges s (bits g 19 17) r.pa n = false ∨ postClear s (bolcelDie port) r.pa n = false ∨ (r.write = false ∧ uncopied) →
      exec (.bolcelRequest ⟨port, r⟩) s = .next s) ∧
    (portUp s port = true → bit g 63 = true → bit g 20 = false → (part s (bits g 19 17)).state ≠ 3 →
      inRanges s (bits g 19 17) r.pa n = true → postClear s (bolcelDie port) r.pa n = true → r.write = true →
      ∃ t, exec (.bolcelRequest ⟨port, r⟩) s = .next t ∧ (∀ i < n, Memory.byte t.mem (r.pa + i) = r.data.getD i 0) ∧
        (∀ a, a < r.pa ∨ r.pa + n ≤ a → a / 64 ≠ r.pa / 64 ∨ uncopied → Memory.byte t.mem a = Memory.byte s.mem a) ∧
        t.invals = r.pa / 64 :: s.invals ∧ t.threads = s.threads) := by
  refine ⟨fun h => bolcelRequest_idle s port r ?_, fun hup hin hman hst hran hclear hw =>
    bolcelRequest_write ⟨hup, hin, hman, hst, hran, hclear⟩ hw he⟩
  rw [or_iff_not_imp_left, not_not]
  rintro ⟨hup, hin, hman, hst, hran, hclear⟩
  simp only [requestSize] at hran hclear
  simpa [hup, hin, hman, hst, hran, hclear] using h

/-- R395, R486: what a failing completion, or a timeout, does to its request. -/
theorem failingCompletion_spec (s : State) (o : Option Nat) :
    (∀ e n, exec (.failingCompletion ⟨o, .laced e n⟩) s = .next s) ∧ exec (.failingCompletion ⟨o, .prefetch⟩) s = .next s ∧
    (∀ r x, o = some x → (port s x).st ≠ 0 → (port s x).st ≠ 4 → exec (.failingCompletion ⟨o, r⟩) s = .next s) ∧
    (∀ r us, us < 2000 → exec (.bolcelTimeout r us) s = .next s) ∧
    (∀ r us, 2000 ≤ us → exec (.bolcelTimeout r us) s = exec (.failingCompletion ⟨none, r⟩) s) ∧
    ((∀ x, o = some x → (port s x).st = 0 ∨ (port s x).st = 4) →
    (∀ k va p n sgn box, isSimt k = true → occupied s k = true → (thr s k).helper = false → (thr s k).trap.inh = false →
      (thr s k).trap.hvec ≠ 0 → (thr s k).st ≠ .blocked → (thr s k).ops = [p] → p.sent = true → p.kind = .load n sgn box →
      opAddr p.kind p.op1 = w64 va → (∀ x ∈ s.walks, x.key = k → x.phase ≠ 2) →
      ∃ t, exec (.failingCompletion ⟨o, .threadLoad k va⟩) s = .next t ∧ OnlyThreads [k] s t ∧ (thr t k).trap.hcause = 0x0B ∧
        (thr t k).trap.hfva = w64 va ∧ (thr t k).trap.flt = true ∧ (thr t k).trap.inh = true ∧ (thr t k).trap.hepc = (thr s k).pc ∧
        (thr t k).trap.hdec0 = p.bits ∧ (thr t k).pc = (thr s k).trap.hvec ∧ (thr t k).ops = [] ∧
        (thr t k).held = (thr s k).held ++ [{ p with sent := false, own := false }] ∧ KeepsRegs [] (thr s k) (thr t k)) ∧
    (∀ k p tid pc va, mkeys s.threads = true → isCob k = false → occupied s k = true → partOf s k = p → (thr s k).tid = tid →
      (thr s k).helper = false → (thr s k).away = false → (thr s k).st ≠ .exited → (∀ x ∈ s.threads, x.2.tid = tid → x.1 = k) →
      ∃ t, exec (.failingCompletion ⟨o, .threadStore p tid pc va⟩) s = .next t ∧ OnlyThreads [k] s t ∧
        thr t k = { thr s k with pend0E := some (w64 pc, w64 va) }) ∧
    (∀ c va wr, s.copies = [c] → c.state = 2 → c.solo = true → (∀ x ∈ s.threads, x.2.wait = .none) →
      ∃ t r, exec (.failingCompletion ⟨o, .copy c.part c.ticket va wr⟩) s = .next t ∧ t.copies = [] ∧ KeepsMemory s t ∧
        (part t c.part).fqPend = (part s c.part).fqPend ++ [r] ∧ bits (dw r 0) 63 60 = 2 ∧ bits (dw r 0) 55 48 = 0x0B ∧ dw r 2 = va ∧
        dw r 4 = c.ticket ∧ bit (dw r 6) 8 = true ∧ bit (dw r 6) 0 = wr)) := by
  refine ⟨fun e n => exec_failingCompletion_keeps o rfl, exec_failingCompletion_keeps o rfl, ?_,
    fun r us => exec_bolcelTimeout_early s r, fun r us => exec_bolcelTimeout_late s r, fun ho => ⟨?_, ?_, ?_⟩⟩
  · rintro r x rfl h0 h4
    exact exec_failingCompletion_up r h0 h4
  · intro k va p n sgn box hk hocc hh hi hv hb hops hs hkind hva hw
    exact ⟨_, exec_failingCompletion _ ho, failLoad_user hk hocc hh hi hv hb hops hs hkind hva hw⟩
  · intro k p tid pc va _ hc hocc hp ht hh ha hx hu
    have hstore := storeFault_live (w64 pc) (w64 va) (liveKey_eq hc hocc hp ht hh ha hx hu)
    exact ⟨_, (exec_failingCompletion _ ho).trans (congrArg _ hstore), onlyThreads_setThr .., thr_setThr_same ..⟩
  · intro c va wr hc hst hsolo hw
    obtain ⟨r, hr⟩ := failRequest_copy va wr hc hst hsolo hw
    exact ⟨_, r, exec_failingCompletion _ ho, hr⟩

/-- Where evictions write their line alone, all of `Obligations.BolcelPorts` holds. -/
theorem bolcelPorts_of_evictsInLine (he : ∀ s line, EvictsInLine s line) : Obligations.BolcelPorts := by
  refine ⟨bcport_command, fun s n lanes => ?_, fun s port r => bolcelRequest_spec s port r (he s _), failingCompletion_spec, directorySnoop_spec⟩
  obtain ⟨htrains, hkeeps⟩ := bolcelTraining_state s n lanes
  obtain ⟨hreport, hignored⟩ := bolcelReport_state s n lanes
  exact ⟨htrains, hkeeps, hreport, hignored⟩

/-- A copy of line 0 with a dirty byte past the line's end, at offset 64. -/
def strayCopy : L1Line := { core := 0, line := 0, data := [(64, 1)], dirty := [(64, true)] }

/-- A package in which a port is up, granule 0 is partition 0's, and the one L1 copy is `strayCopy`; its next free choice is numbered i. -/
def strayState (i : Nat) : State :=
  { freeIdx := i, granules := [(0, 0x8000_0000_0000_0000#64)], ports := [(0, { st := 2, lanes := 0xF })], l1 := [strayCopy] }

/-- A write of no bytes at address 0. -/
def emptyWrite : HomeReq :=
  { tag := 0, kind := .pcie, tid := 0, key := hwKey, write := true, pa := 0, va := 0, data := [], len := 0 }

theorem strayState_served (i : Nat) : Served (strayState i) 0 emptyWrite := by
  have hg : granule (strayState i) emptyWrite.pa = 0x8000_0000_0000_0000#64 := rfl
  have hp : ∀ p, part (strayState i) p = {} := fun _ => rfl
  rw [Served, hg, hp]
  exact ⟨rfl, by decide, by decide, by decide, rfl, rfl⟩

/-- An eviction of the stray copy writes a byte of the next line. -/
theorem byte_evict_stray {i : Nat} (h : Config.freeBool i = true) : Memory.byte (freeEvict (strayState i) 0).mem 64 = 1 := by
  have : freeEvict (strayState i) 0 = dropL1 (writeBackLine { strayState i with freeIdx := i + 1 } strayCopy) 0 0 := by
    simp [freeEvict, freshBool, strayState, strayCopy, h]
  rw [this]
  rfl

/-- The statement's frame of a served write, at a state whose copy reaches past its line, says that the free choice is no eviction. -/
theorem freeBool_false_of_bolcelPorts (h : Obligations.BolcelPorts) (i : Nat) : Config.freeBool i = false := by
  obtain ⟨-, -, hreq, -⟩ := h
  obtain ⟨hup, hin, hman, hst, hran, hclear⟩ := strayState_served i
  obtain ⟨t, ht, -, hkeep, -⟩ := (hreq (strayState i) 0 emptyWrite).2 hup hin hman hst hran hclear rfl
  have h64 : Memory.byte t.mem 64 = 0 := hkeep 64 (by decide) (.inl (by decide))
  rw [bolcelRequest_served (strayState_served i)] at ht
  cases ht
  refine Bool.eq_false_iff.2 fun hev => ?_
  have h1 : Memory.byte (freeEvict (strayState i) 0).mem 64 = 0 := h64
  rw [byte_evict_stray hev] at h1
  exact absurd h1 (by decide)

/-- The obligation O58 as stated is neither provable nor refutable: it says that the hardware never makes the optional move of
`Config.freeBool` (log 3), a constant without a body. Its clause on a request that is served bounds what an eviction of the line's
copies writes by the line, and a state may list a copy with a dirty byte outside its line; `DirtyInLine` is the hypothesis that is
missing (`evictsInLine_of_dirtyInLine`, `bolcelRequest_spec`). -/
theorem bolcelPorts_iff_never_evicts : Obligations.BolcelPorts ↔ ∀ i, Config.freeBool i = false :=
  ⟨freeBool_false_of_bolcelPorts, fun h => bolcelPorts_of_evictsInLine fun s line a _ => by rw [freeEvict_mem_of_never h]⟩

end Sys2Proof.Machine
end

section
/-! The canonical form at reset. -/

namespace Sys2Proof.Machine

/-- Settles O10: memory lists nothing at reset, and one thread stands in the package. -/
theorem resetInv : Obligations.ResetInv := ⟨rfl, rfl⟩

end Sys2Proof.Machine
end

section
/-! Fields of a word after one of them is replaced, and sparse maps whose values are mapped or filtered. -/

namespace Sys2Proof.Machine

/-- A bit of a word whose bits [hi:lo] are replaced. -/
theorem bit_setBits (v : Word) {hi lo : Nat} (x : Nat) {n : Nat} (hn : n < 64) :
    bit (setBits v hi lo x) n = if lo ≤ n ∧ n ≤ hi then x.testBit (n - lo) else bit v n := by
  have hm : (BitVec.ofNat 64 ((2 ^ (hi + 1 - lo) - 1) * 2 ^ lo)).getLsbD n = decide (lo ≤ n ∧ n ≤ hi) := by
    simp only [BitVec.getLsbD_ofNat, hn, decide_true, Bool.true_and, Nat.testBit_mul_two_pow, Nat.testBit_two_pow_sub_one]
    rw [Bool.eq_iff_iff]
    simp only [Bool.and_eq_true, decide_eq_true_eq]
    omega
  have hx : (BitVec.ofNat 64 (x * 2 ^ lo)).getLsbD n = (decide (lo ≤ n) && x.testBit (n - lo)) := by
    rw [BitVec.getLsbD_ofNat, Nat.testBit_mul_two_pow]
    simp [hn]
  simp only [bit, setBits, BitVec.getLsbD_or, BitVec.getLsbD_and, BitVec.getLsbD_not, hm, hx, hn, decide_true, Bool.true_and]
  by_cases h : lo ≤ n ∧ n ≤ hi
  · simp [h]
  · simp [h]

theorem bit_setBit (v : Word) {m n : Nat} (b : Bool) (hn : n < 64) : bit (setBit v m b) n = if n = m then b else bit v n := by
  rw [setBit, bit_setBits v _ hn]
  by_cases h : n = m
  · subst h; cases b <;> simp
  · rw [if_neg (by omega), if_neg h]

theorem testBit_bits (v : Word) (hi lo i : Nat) : (bits v hi lo).testBit i = (decide (i < hi + 1 - lo) && bit v (lo + i)) := by
  rw [bits, Nat.testBit_mod_two_pow, Nat.testBit_div_two_pow, Nat.add_comm i lo, bit, BitVec.getLsbD]

/-- A field of a word is kept where none of its bits changes. -/
theorem bits_congr {v w : Word} {hi lo : Nat} (h : ∀ n, lo ≤ n → n ≤ hi → bit v n = bit w n) : bits v hi lo = bits w hi lo := by
  refine Nat.eq_of_testBit_eq fun i => ?_
  rw [testBit_bits, testBit_bits]
  by_cases hi' : i < hi + 1 - lo
  · rw [h (lo + i) (by omega) (by omega)]
  · simp [hi']

theorem bits_setBit_apart (v : Word) {m hi lo : Nat} (b : Bool) (h64 : hi < 64) (h : m < lo ∨ hi < m) :
    bits (setBit v m b) hi lo = bits v hi lo :=
  bits_congr fun n hl hh => by rw [bit_setBit v b (by omega), if_neg (by omega)]

theorem bits_setBits_same (v : Word) {hi lo x : Nat} (h64 : hi < 64) (hx : x < 2 ^ (hi + 1 - lo)) :
    bits (setBits v hi lo x) hi lo = x := by
  refine Nat.eq_of_testBit_eq fun i => ?_
  rw [testBit_bits]
  by_cases hi' : i < hi + 1 - lo
  · rw [bit_setBits v x (by omega), if_pos (by omega)]
    simp [hi']
  · rw [Nat.testBit_lt_two_pow (hx.trans_le (Nat.pow_le_pow_right (by decide) (by omega)))]
    simp [hi']

/-- The value of a key of a map whose values are mapped, key by key. -/
theorem mget?_map (f : Nat → α → β) (m : SMap α) (x : Nat) :
    mget? (m.map fun e => (e.1, f e.1 e.2)) x = (mget? m x).map (f x) := by
  induction m with
  | nil => rfl
  | cons e m ih =>
    obtain ⟨k, v⟩ := e
    rw [List.map_cons, mget?_cons, mget?_cons, ih]
    split
    · next h => subst h; rfl
    · rfl

/-- A map filtered by its keys. -/
theorem mget?_filter_keys (q : Nat → Bool) (m : SMap α) (x : Nat) :
    mget? (m.filter fun e => q e.1) x = if q x then mget? m x else none := by
  induction m with
  | nil => simp
  | cons e m ih =>
    obtain ⟨k, v⟩ := e
    by_cases hx : x = k
    · subst hx
      by_cases hq : q x
      · simp [hq, mget?_cons]
      · simpa [hq] using ih
    · by_cases hq : q k
      · simp [hq, mget?_cons, hx, ih]
      · simp [hq, mget?_cons, hx, ih]

theorem mkeys_lt {k : Nat} {v : α} {m : SMap α} (h : mkeys ((k, v) :: m) = true) : ∀ e ∈ m, k < e.1 := by
  induction m generalizing k v with
  | nil => simp
  | cons e m ih =>
    obtain ⟨j, w⟩ := e
    have hkj : k < j := mkeys_head_lt h (j, w) rfl
    intro e he
    rcases List.mem_cons.1 he with rfl | he
    · exact hkj
    · exact hkj.trans (ih (mkeys_tail h) e he)

theorem mget?_eq_none {m : SMap α} {x : Nat} (h : ∀ e ∈ m, e.1 ≠ x) : mget? m x = none := by
  induction m with
  | nil => rfl
  | cons e m ih =>
    rw [mget?, if_neg fun he => h e (List.mem_cons_self ..) he.symm]
    exact ih fun e he => h e (List.mem_cons_of_mem _ he)

/-- A map whose keys rise, filtered. -/
theorem mget?_filter (q : Nat × α → Bool) {m : SMap α} (hm : mkeys m = true) (x : Nat) :
    mget? (m.filter q) x = (mget? m x).filter fun v => q (x, v) := by
  induction m with
  | nil => rfl
  | cons e m ih =>
    obtain ⟨k, v⟩ := e
    by_cases hx : x = k
    · subst hx
      have hnone : mget? (m.filter q) x = none :=
        mget?_eq_none fun e he => (mkeys_lt hm e (List.mem_filter.1 he).1).ne'
      by_cases hq : q (x, v)
      · simp [hq, mget?_cons, Option.filter]
      · simpa [hq, mget?_cons, Option.filter] using hnone
    · by_cases hq : q (k, v)
      · simp [hq, mget?_cons, hx, ih (mkeys_tail hm)]
      · simp [hq, mget?_cons, hx, ih (mkeys_tail hm)]

end Sys2Proof.Machine
end

section
/-! Requests at a home (R29, R30). -/

namespace Sys2Proof.Machine

theorem atHome_eq (s : State) (r : HomeReq) : atHome s r =
    if !inRanges s r.tag r.pa (requestSize r) then blocked s r
    else if lineHeld s r.key r.pa (requestSize r) then s
    else if r.write then wrBytes (freeEvict s (r.pa / 64)) r.key r.pa r.data else freeEvict s (r.pa / 64) := rfl

theorem atHome_outside {s : State} {r : HomeReq} (h : inRanges s r.tag r.pa (requestSize r) = false) : atHome s r = blocked s r := by
  rw [atHome_eq, h]
  rfl

/-- A request waits while its line is held, and a read of a line without copies leaves no trace. -/
theorem atHome_idle {s : State} {r : HomeReq} (hr : inRanges s r.tag r.pa (requestSize r) = true)
    (h : lineHeld s r.key r.pa (requestSize r) = true ∨ (r.write = false ∧ ∀ x ∈ s.l1, x.line ≠ r.pa / 64)) : atHome s r = s := by
  rw [atHome_eq, hr, Bool.not_true, if_neg Bool.false_ne_true]
  split
  · rfl
  · next hheld =>
    obtain ⟨hw, hu⟩ := h.resolve_left hheld
    rw [freeEvict_uncopied hu, hw]
    rfl

theorem freeEvict_parts (s : State) (line : Nat) : (freeEvict s line).parts = s.parts :=
  freeEvict_keeps (P := fun t => t.parts = s.parts) line (fun _ _ h => h) (fun _ _ h => h) (fun _ _ _ _ _ _ h => h) rfl

theorem atHome_served {s : State} {r : HomeReq} (hr : inRanges s r.tag r.pa (requestSize r) = true)
    (hh : lineHeld s r.key r.pa (requestSize r) = false) (hw : r.write = true) :
    atHome s r = wrBytes (freeEvict s (r.pa / 64)) r.key r.pa r.data := by
  simp [atHome_eq, hr, hh, hw]

/-- R30: a write that is served stands at its home. Bytes of the line may differ too where a copy of it was written back before. -/
theorem atHome_write {s : State} {r : HomeReq} (hr : inRanges s r.tag r.pa (requestSize r) = true)
    (hh : lineHeld s r.key r.pa (requestSize r) = false) (hw : r.write = true) (he : EvictsInLine s (r.pa / 64)) :
    (∀ i < r.data.length, Memory.byte (atHome s r).mem (r.pa + i) = r.data.getD i 0) ∧
      (∀ a, a < r.pa ∨ r.pa + r.data.length ≤ a → a / 64 ≠ r.pa / 64 ∨ (∀ x ∈ s.l1, x.line ≠ r.pa / 64) →
        Memory.byte (atHome s r).mem a = Memory.byte s.mem a) ∧
      (atHome s r).threads = s.threads ∧ (atHome s r).parts = s.parts := by
  rw [atHome_served hr hh hw]
  refine ⟨fun i hi => ?_, fun a ha hx => ?_, (freeEvict_rest s _).1, freeEvict_parts s _⟩
  · rw [List.getD_eq_getElem _ _ hi]
    exact Memory.byte_write_inside _ _ _ hi
  · rw [byte_wrBytes_outside _ _ _ _ ha]
    rcases hx with hx | hx
    · exact he a hx
    · rw [freeEvict_uncopied hx]

/-! Exceptions of a hart (R443). -/

theorem causeWord_exception (code : Nat) : causeWord false code = w64 code := by simp [causeWord, b2n]

theorem vectorPc_exception (tvec : Word) (code : Nat) : vectorPc tvec false code = tvec &&& 0xFFFF_FFFF_FFFF_FFFC := rfl

theorem modeCode_lt (m : Mode) : m.code < 4 := by cases m <;> decide

/-- A trap of a hart changes the hart and its thread alone. -/
theorem hartTrapTo_only (s : State) (k : Nat) (toS irq : Bool) (code : Nat) (tval epc : Word) :
    OnlyHart k s (hartTrapTo s k toS irq code tval epc) ∧ KeepsRegs [] (thr s k) (thr (hartTrapTo s k toS irq code tval epc) k) := by
  refine ⟨⟨rfl, fun j hj => slot_modThr_other _ _ hj, fun j hj => ?_⟩, fun n _ => ?_⟩
  · rw [hartTrapTo, hart_modThr, hart_modHart_other _ _ hj]
    rfl
  · rw [hartTrapTo, thr_modThr_same]
    exact getReg_congr rfl rfl n

theorem hartTrapTo_machine (s : State) (k code : Nat) (tval epc : Word) :
    TrapsToM k code tval epc s (hartTrapTo s k false false code tval epc) := by
  obtain ⟨honly, hregs⟩ := hartTrapTo_only s k false false code tval epc
  have hcode := modeCode_lt (hart s k).mode
  refine ⟨honly, ?_, ?_, ?_, ?_, ?_, ?_, ?_, ?_, hregs⟩
  all_goals simp only [hartTrapTo, hart_modThr, hart_modHart_same, thr_modThr_same, Bool.false_eq_true, if_false, causeWord_exception]
  · rw [bits_setBit_apart _ _ (by decide) (by decide), bits_setBit_apart _ _ (by decide) (by decide),
      bits_setBits_same _ (by decide) hcode]
  · rw [bit_setBit _ _ (by decide), if_neg (by decide), bit_setBit _ _ (by decide), if_pos rfl]
  · rw [bit_setBit _ _ (by decide), if_pos rfl]
  · exact vectorPc_exception ..

theorem hartTrapTo_supervisor (s : State) (k code : Nat) (tval epc : Word) :
    TrapsToS k code tval epc s (hartTrapTo s k true false code tval epc) := by
  obtain ⟨honly, hregs⟩ := hartTrapTo_only s k true false code tval epc
  refine ⟨honly, ?_, ?_, ?_, ?_, ?_, ?_, ?_, ?_, hregs⟩
  all_goals simp only [hartTrapTo, hart_modThr, hart_modHart_same, thr_modThr_same, if_true, causeWord_exception]
  · rw [bit_setBit _ _ (by decide), if_neg (by decide), bit_setBit _ _ (by decide), if_neg (by decide), bit_setBit _ _ (by decide),
      if_pos rfl]
  · rw [bit_setBit _ _ (by decide), if_neg (by decide), bit_setBit _ _ (by decide), if_pos rfl]
  · rw [bit_setBit _ _ (by decide), if_pos rfl]
  · exact vectorPc_exception ..

/-- An exception goes to S mode where it arises below M mode and is delegated, and to M mode else (R443). -/
theorem hartTrap_takes (s : State) (k code : Nat) (tval epc : Word) : TakesException k code tval epc s (hartTrap s k false code tval epc) := by
  refine ⟨fun hm hd => ?_, fun h => ?_⟩
  · have : hartTrap s k false code tval epc = hartTrapTo s k true false code tval epc := by simp [hartTrap, hm, hd]
    exact this ▸ hartTrapTo_supervisor s k code tval epc
  · have : hartTrap s k false code tval epc = hartTrapTo s k false false code tval epc := by
      rcases h with h | h <;> simp [hartTrap, h]
    exact this ▸ hartTrapTo_machine s k code tval epc

/-- An exception is told by what threads the package lists, not by how it lists them. -/
theorem takesException_of_threads {s t : State} {k code : Nat} {tval epc : Word} {l : List (Nat × Thread)}
    (hl : ∀ j, mget? l j = mget? s.threads j) (h : TakesException k code tval epc { s with threads := l } t) :
    TakesException k code tval epc s t := by
  have hthr : ∀ j, thr { s with threads := l } j = thr s j := fun j => congrArg (fun o : Option Thread => o.getD {}) (hl j)
  have honly : OnlyHart k { s with threads := l } t → OnlyHart k s t := fun ⟨h1, h2, h3⟩ => ⟨h1, fun j hj => (h2 j hj).trans (hl j), h3⟩
  obtain ⟨hs, hm⟩ := h
  refine ⟨fun h1 h2 => ?_, fun h1 => ?_⟩
  · obtain ⟨ho, hrest⟩ := hs h1 h2
    rw [hthr] at hrest
    exact ⟨honly ho, hrest⟩
  · obtain ⟨ho, hrest⟩ := hm h1
    rw [hthr] at hrest
    exact ⟨honly ho, hrest⟩

theorem mget?_threads {s : State} {k : Nat} (ho : occupied s k = true) : mget? s.threads k = some (thr s k) := by
  obtain ⟨t, ht⟩ := Option.isSome_iff_exists.1 ho
  rw [thr, ht]
  rfl

/-- A thread that is set to itself. -/
theorem mget?_setThr_self {s : State} {k : Nat} (ho : occupied s k = true) (j : Nat) :
    mget? (setThr s k (thr s k)).threads j = mget? s.threads j := by
  by_cases hj : j = k
  · rw [hj, setThr, mget?_mput_same, mget?_threads ho]
  · exact slot_setThr_other s _ hj

/-- R30: an access outside the ranges of a hart's partition is the access fault of its kind, at the hart's pc. -/
theorem blocked_hart {s : State} {r : HomeReq} (hk : r.kind = .thread) (hh : isHart r.key = true) (ho : occupied s r.key = true) :
    TakesException r.key (if r.write then 7 else 5) (w64 r.va) (thr s r.key).pc s (blocked s r) := by
  have hb : blocked s r = hartTrap (setThr s r.key (thr s r.key)) r.key false (if r.write then 7 else 5) (w64 r.va) (thr s r.key).pc := by
    cases hw : r.write <;> simp [blocked, hk, ho, raiseTrap, hh, hw, modThr, hartCode]
  rw [hb]
  exact takesException_of_threads (mget?_setThr_self ho) (hartTrap_takes ..)

theorem blocked_vacant {s : State} {r : HomeReq} (hk : r.kind = .thread) (ho : occupied s r.key = false) : blocked s r = s := by
  simp [blocked, hk, ho]

theorem blocked_eyelet {s : State} {r : HomeReq} (hk : r.kind = .eyelet) : blocked s r = s := by simp [blocked, hk]

/-- R30: a requester that takes no fault leaves a boundary record. -/
theorem blocked_record {s : State} {r : HomeReq} (hk : r.kind ≠ .thread) (he : r.kind ≠ .eyelet) :
    blocked s r = errRecord s { kind := 0, part := r.tag, req := requesterCode r.kind, pa := r.pa, tid := r.tid } := by
  unfold blocked
  split
  · next h => exact absurd h hk
  · next h => exact absurd h he
  · rfl

/-- R30: what a request at its home does, in its partition's ranges and outside. -/
theorem homeRequest_spec (s : State) (r : HomeReq) (he : EvictsInLine s (r.pa / 64)) :
    let n := if r.write then r.data.length else r.len
    (inRanges s r.tag r.pa n = false →
      (r.kind = .thread → occupied s r.key = false → exec (.homeRequest r) s = .next s) ∧
      (r.kind = .thread → isHart r.key = true → occupied s r.key = true →
        ∃ t, exec (.homeRequest r) s = .next t ∧
          TakesException r.key (if r.write then 7 else 5) (w64 r.va) (thr s r.key).pc s t) ∧
      (r.kind = .eyelet → exec (.homeRequest r) s = .next s) ∧
      (r.kind ≠ .thread → r.kind ≠ .eyelet → ∃ t, exec (.homeRequest r) s = .next t ∧
        t = mirq { s with
          errLog := s.errLog ++ [{ kind := 0, part := r.tag, req := requesterCode r.kind, pa := r.pa, tid := r.tid }] } ∧
        t.mirqs = s.mirqs + 1)) ∧
    let uncopied := ∀ x ∈ s.l1, x.line ≠ r.pa / 64
    (inRanges s r.tag r.pa n = true → lineHeld s r.key r.pa n = true ∨ (r.write = false ∧ uncopied) → exec (.homeRequest r) s = .next s) ∧
    (inRanges s r.tag r.pa n = true → lineHeld s r.key r.pa n = false → r.write = true →
      ∃ t, exec (.homeRequest r) s = .next t ∧ (∀ i < n, Memory.byte t.mem (r.pa + i) = r.data.getD i 0) ∧
        (∀ a, a < r.pa ∨ r.pa + n ≤ a → a / 64 ≠ r.pa / 64 ∨ uncopied → Memory.byte t.mem a = Memory.byte s.mem a) ∧
        t.threads = s.threads ∧ t.parts = s.parts) := by
  intro n
  have hexec : exec (.homeRequest r) s = .next (atHome s r) := rfl
  rw [hexec]
  refine ⟨fun hout => ?_, fun hin h => congrArg _ (atHome_idle hin h), fun hin hheld hw => ?_⟩
  · rw [atHome_outside hout]
    exact ⟨fun hk ho => congrArg _ (blocked_vacant hk ho), fun hk hh ho => ⟨_, rfl, blocked_hart hk hh ho⟩,
      fun hk => congrArg _ (blocked_eyelet hk), fun hk he => ⟨_, rfl, by rw [blocked_record hk he]; exact ⟨rfl, rfl⟩⟩⟩
  · have hn : n = r.data.length := if_pos hw
    rw [hn]
    exact ⟨_, rfl, atHome_write hin hheld hw he⟩

end Sys2Proof.Machine
end

section
/-! Commands of the partition manager that are refused, and those that configure, start and release (R32, R33, R35, R38). -/

namespace Sys2Proof.Machine

/-! Harts that are set one after the other. -/

/-- Harts set to given records: every other hart, and everything else, is as it was. -/
theorem foldl_modHart_const (g : Hart) (ks : List Nat) (s : State) :
    let t := ks.foldl (fun s k => modHart s k fun _ => g) s
    t = { s with harts := t.harts } ∧ (∀ h ∈ ks, hart t h = g) ∧ ∀ h, h ∉ ks → hart t h = hart s h := by
  induction ks generalizing s with
  | nil => exact ⟨rfl, by simp, fun _ _ => rfl⟩
  | cons k ks ih =>
    obtain ⟨hs, hin, hout⟩ := ih (modHart s k fun _ => g)
    refine ⟨hs, fun h hh => ?_, fun h hh => ?_⟩
    · by_cases hk : h ∈ ks
      · exact hin h hk
      · have hhk : h = k := (List.mem_cons.1 hh).resolve_right hk
        rw [List.foldl_cons, hout h hk, hhk, hart_modHart_same]
    · obtain ⟨hne, hk⟩ := not_or.1 (mt List.mem_cons.2 hh)
      rw [List.foldl_cons, hout h hk, hart_modHart_other _ _ hne]

/-- The manager bit of a core as a table's bitmap gives it (R35). -/
def setMgr (base d : Nat) (s : State) (c : Nat) : State :=
  modHart s (hartKey d c) fun h => { h with mgr := bit (rdWord s (base + 8 * d)) c }

theorem hartKey_inj (d : Nat) {c c' : Nat} (h : hartKey d c = hartKey d c') : c = c' := Nat.add_left_cancel h

theorem foldl_setMgr (base d : Nat) (cs : List Nat) (s : State) :
    let t := cs.foldl (setMgr base d) s
    t = { s with harts := t.harts } ∧
    (∀ c ∈ cs, hart t (hartKey d c) = { hart s (hartKey d c) with mgr := bit (rdWord s (base + 8 * d)) c }) ∧
    ∀ h, (∀ c ∈ cs, h ≠ hartKey d c) → hart t h = hart s h := by
  induction cs generalizing s with
  | nil => exact ⟨rfl, by simp, fun _ _ => rfl⟩
  | cons k cs ih =>
    obtain ⟨hs, hin, hout⟩ := ih (setMgr base d s k)
    have hsame : hart (setMgr base d s k) (hartKey d k) =
        { hart s (hartKey d k) with mgr := bit (rdWord s (base + 8 * d)) k } := hart_modHart_same ..
    refine ⟨hs, fun c hc => ?_, fun h hh => ?_⟩
    · by_cases hck : c = k
      · subst hck
        by_cases hmem : c ∈ cs
        · rw [List.foldl_cons, hin c hmem, hsame]
          rfl
        · rw [List.foldl_cons, hout _ fun c' hc' he => hmem (by rwa [hartKey_inj d he]), hsame]
      · have hother : hart (setMgr base d s k) (hartKey d c) = hart s (hartKey d c) :=
          hart_modHart_other _ _ fun he => hck (hartKey_inj d he)
        rw [List.foldl_cons, hin c ((List.mem_cons.1 hc).resolve_left hck), hother]
        rfl
    · rw [List.foldl_cons, hout h fun c hc => hh c (List.mem_cons_of_mem _ hc)]
      exact hart_modHart_other _ _ (hh k (List.mem_cons_self ..))

/-! Granules that come into force. -/

theorem mset_of_ne [DecidableEq α] {d v : α} (m : SMap α) (x : Nat) (h : v ≠ d) : mset d m x v = mput m x v := if_neg h

/-- Map entries come into force where the granule is in force for nobody (R38). -/
theorem mget?_claim (F : Nat → Word) (c : Nat → Bool) (hc : ∀ g, c g = true → F g ≠ 0) (l : List Nat) (m : SMap Word) (x : Nat) :
    mget? (l.foldl (fun m g => if c g then (if (mget? m g).isSome then m else mset 0 m g (F g)) else m) m) x =
      if (mget? m x).isSome then mget? m x else if x ∈ l ∧ c x = true then some (F x) else none := by
  induction l generalizing m with
  | nil => cases h : mget? m x <;> simp [h]
  | cons g l ih =>
    rw [List.foldl_cons, ih]
    by_cases hg : c g = true
    · by_cases hs : (mget? m g).isSome = true
      · rw [if_pos hg, if_pos hs]
        by_cases hx : x = g
        · subst hx; simp [hs]
        · simp [hx]
      · rw [if_pos hg, if_neg hs, mset_of_ne _ _ (hc g hg), mget?_mput]
        by_cases hx : x = g
        · subst hx; simp [hs, hg]
        · simp [hx]
    · rw [if_neg hg]
      by_cases hx : x = g
      · subst hx; simp [hg]
      · simp [hx]

/-- Map entries come into force in place of what was (R35). -/
theorem mget?_enforce (F : Nat → Word) (c : Nat → Bool) (hc : ∀ g, c g = true → F g ≠ 0) (l : List Nat) (m : SMap Word) (x : Nat) :
    mget? (l.foldl (fun m g => if c g then mset 0 m g (F g) else m) m) x =
      if x ∈ l ∧ c x = true then some (F x) else mget? m x := by
  induction l generalizing m with
  | nil => simp
  | cons g l ih =>
    rw [List.foldl_cons, ih]
    by_cases hg : c g = true
    · rw [if_pos hg, mset_of_ne _ _ (hc g hg), mget?_mput]
      by_cases hx : x = g
      · subst hx; simp [hg]
      · simp [hx]
    · rw [if_neg hg]
      by_cases hx : x = g
      · subst hx; simp [hg]
      · simp [hx]

theorem ne_zero_of_bit {v : Word} {n : Nat} (h : bit v n = true) : v ≠ 0 := by
  rintro rfl
  simp [bit] at h

/-! The register `partctl` (R32). -/

/-- The state in which a command of `partctl` is decided: PSEL and CERR are written. -/
def partctlMarked (s : State) (v : Word) : State :=
  { s with partctl := setBit (setBits s.partctl 2 0 (bits v 2 0)) 17 (bit s.partctl 17 && !bit v 17) }

/-- The state after a command that is refused. -/
def partctlRefused (s : State) (v : Word) : State :=
  { partctlMarked s v with partctl := setBit (partctlMarked s v).partctl 17 true }

theorem partctlRefused_spec (s : State) (v : Word) :
    partctlRefused s v = { s with partctl := (partctlRefused s v).partctl } ∧ bit (partctlRefused s v).partctl 17 = true ∧
      bits (partctlRefused s v).partctl 2 0 = bits v 2 0 := by
  refine ⟨rfl, (bit_setBit _ _ (by decide)).trans (if_pos rfl), ?_⟩
  rw [partctlRefused, bits_setBit_apart _ _ (by decide) (by decide), partctlMarked, bits_setBit_apart _ _ (by decide) (by decide)]
  exact bits_setBits_same _ (by decide) (Nat.mod_lt _ (by decide))

/-- A command without a W1C bit. -/
theorem partctlStore_command {s : State} {v : Word} (h16 : bit v 16 = false) (h11 : bit v 11 = false) (hn : bits v 6 4 ≠ 0) :
    partctlStore s v = (partCommand (partctlMarked s v) (bits v 2 0) (bits v 6 4)).getD (partctlRefused s v) := by
  simp only [partctlStore, h16, h11, Bool.or_self, Bool.false_eq_true, if_false]
  rfl

theorem partctlRow_command {s : State} {k cmd : Nat} {v : Word} (hk : mgrHart s k = true) (h16 : bit v 16 = false) (h11 : bit v 11 = false)
    (hn : bits v 6 4 = cmd) (h0 : cmd ≠ 0) (hh : configureHeld s k v = none) :
    partctlRow cmd k v s = (partCommand (partctlMarked s v) (bits v 2 0) cmd).getD (partctlRefused s v) := by
  subst hn
  rw [← partctlStore_command h16 h11 h0]
  simp [partctlRow, hk, hh]

theorem configureHeld_other (s : State) (k : Nat) {v : Word} (h : bits v 6 4 ≠ 4) : configureHeld s k v = none := by
  simp [configureHeld, h]

/-- The partition's entries of the granule map that `rtbase` names (R38). -/
def ownEntries (s : State) (p : Nat) : List (Nat × Word) :=
  (mapEntries s (tableBase s)).filter fun (_, e) => bit e 63 && !bit e 20 && bits e 19 17 = p

/-- The partition's section of the table that `rtbase` names (R37). -/
def sectionWords (s : State) (p : Nat) : List Word := rdWords s (tableBase s + 0x1000 + 256 * p) 32

theorem configure_bad {s : State} {p : Nat} (h : configureBad s p (sectionWords s p) (ownEntries s p) = true) : configure s p = none := if_pos h

/-- A command that the partition's state or the table does not allow is refused (R32, R33, R38). -/
theorem partCommand_refused {s : State} {p n : Nat} 
    (h : (n = 4 ∧ ((part s p).state ≠ 0 ∨ configureBad s p (sectionWords s p) (ownEntries s p) = true)) ∨
      (n = 1 ∧ (part s p).state ≠ 1 ∧ (part s p).state ≠ 4) ∨ (n = 2 ∧ (part s p).state ≠ 2) ∨ (n = 3 ∧ (part s p).state ≠ 4)) :
    partCommand s p n = none := by
  unfold partCommand
  split
  case h_1 hst => simp [hst] at h
  case h_2 hst => simp [hst] at h
  case h_3 hst => simp [hst] at h
  case h_4 hst => simp [hst] at h
  case h_5 hst => 
    simp only [hst] at h
    exact configure_bad (by simpa using h)
  case h_6 => rfl

/-! Configure (R38). -/

/-- The granules in force after a configure. -/
def claimedGranules (s : State) (p : Nat) : SMap Word :=
  (ownEntries s p).foldl (fun m (g, e) => if (mget? m g).isSome then m else mset 0 m g e) s.granules

theorem mget?_claimedGranules (s : State) (p : Nat) {g : Nat} (hg : g < 4096) :
    let e := rdWord s (tableBase s + 0x2000 + 8 * g)
    mget? (claimedGranules s p) g = if (mget? s.granules g).isSome then mget? s.granules g
      else if bit e 63 = true ∧ bit e 20 = false ∧ bits e 19 17 = p then some e else none := by
  intro e
  rw [claimedGranules, ownEntries, mapEntries, List.foldl_filter, List.foldl_map]
  refine (mget?_claim (fun g => rdWord s (tableBase s + 0x2000 + 8 * g)) (fun g => 
    let e := rdWord s (tableBase s + 0x2000 + 8 * g)
    bit e 63 && !bit e 20 && bits e 19 17 = p) (fun g h => ?_) _ _ _).trans ?_
  · simp only [Bool.and_eq_true] at h
    exact ne_zero_of_bit h.1.1
  · simp [hg, e, and_assoc]

/-- What a configure makes of the partition and its harts. -/
def configuredHarts (s : State) (p : Nat) : State :=
  (hartsOf (sectionOf (part s p) (sectionWords s p))).foldl (fun s k => modHart s k fun _ => { part := p })
    (modPart s p fun _ => sectionOf (part s p) (sectionWords s p))

theorem configure_good {s : State} {p : Nat} (h : configureBad s p (sectionWords s p) (ownEntries s p) = false) :
    configure s p = some { configuredHarts s p with
      granules := (ownEntries s p).foldl (fun m (g, e) => if (mget? m g).isSome then m else mset 0 m g e) (configuredHarts s p).granules } := by
  unfold configure
  exact if_neg (Bool.eq_false_iff.1 h)

theorem configuredHarts_spec (s : State) (p : Nat) :
    configuredHarts s p =
      { modPart s p (fun _ => sectionOf (part s p) (sectionWords s p)) with harts := (configuredHarts s p).harts } ∧
    (∀ h ∈ hartsOf (sectionOf (part s p) (sectionWords s p)), hart (configuredHarts s p) h = { part := p }) ∧
    ∀ h, h ∉ hartsOf (sectionOf (part s p) (sectionWords s p)) → hart (configuredHarts s p) h = hart s h :=
  foldl_modHart_const ..

theorem configure_spec {s : State} {p : Nat} (h : configureBad s p (sectionWords s p) (ownEntries s p) = false) :
    ∃ t, configure s p = some t ∧ t.mem = s.mem ∧ part t p = sectionOf (part s p) (sectionWords s p) ∧ t.threads = s.threads ∧
      (∀ r, r ≠ p → part t r = part s r) ∧ (∀ h ∈ hartsOf (sectionOf (part s p) (sectionWords s p)), hart t h = { part := p }) ∧
      (∀ h, h ∉ hartsOf (sectionOf (part s p) (sectionWords s p)) → hart t h = hart s h) ∧ t.granules = claimedGranules s p := by
  obtain ⟨hs, hin, hout⟩ := configuredHarts_spec s p
  have hpart : ∀ r, part (configuredHarts s p) r = part (modPart s p fun _ => sectionOf (part s p) (sectionWords s p)) r := by
    rw [hs]; exact fun _ => rfl
  have hmem : (configuredHarts s p).mem = s.mem := by rw [hs]; rfl
  have hthr : (configuredHarts s p).threads = s.threads := by rw [hs]; rfl
  have hgran : (configuredHarts s p).granules = s.granules := by rw [hs]; rfl
  have hgo : configure s p = some { configuredHarts s p with granules := claimedGranules s p } := by
    rw [configure_good h, hgran]; rfl
  generalize configuredHarts s p = u at *
  generalize claimedGranules s p = g at *
  refine ⟨_, hgo, hmem, (hpart p).trans (part_modPart_same ..), hthr,
    fun r hr => (hpart r).trans (part_modPart_other _ _ hr), hin, hout, rfl⟩

end Sys2Proof.Machine
end

section
/-! The commands of `partctl` and the write of `rtbase`, from the state in which they are decided (R32, R33, R35, R38). -/

namespace Sys2Proof.Machine

@[simp] theorem part_partctlMarked (s : State) (v : Word) (p : Nat) : part (partctlMarked s v) p = part s p := rfl
@[simp] theorem hart_partctlMarked (s : State) (v : Word) (k : Nat) : hart (partctlMarked s v) k = hart s k := rfl
@[simp] theorem sectionWords_partctlMarked (s : State) (v : Word) (p : Nat) : sectionWords (partctlMarked s v) p = sectionWords s p := rfl
@[simp] theorem ownEntries_partctlMarked (s : State) (v : Word) (p : Nat) : ownEntries (partctlMarked s v) p = ownEntries s p := rfl
@[simp] theorem configureBad_partctlMarked (s : State) (v : Word) (p : Nat) (l : List Word) (es : List (Nat × Word)) :
    configureBad (partctlMarked s v) p l es = configureBad s p l es := rfl
@[simp] theorem claimedGranules_partctlMarked (s : State) (v : Word) (p : Nat) :
    claimedGranules (partctlMarked s v) p = claimedGranules s p := rfl

theorem rdWord_of_mem {s t : State} (h : t.mem = s.mem) (a : Nat) : rdWord t a = rdWord s a := by rw [rdWord, rdBytes, h]; rfl

theorem keepsMemory_of_mem {s t : State} (h : t.mem = s.mem) : KeepsMemory s t := fun a => by rw [h]

/-- A manager hart writes a command of `partctl` that is not held and clears nothing. -/
def Commands (s : State) (k : Nat) (v : Word) (n : Nat) : Prop :=
  mgrHart s k = true ∧ bit v 16 = false ∧ bit v 11 = false ∧ bits v 6 4 = n ∧ configureHeld s k v = none

theorem exec_command {s : State} {k n : Nat} {v : Word} {i : Instr} (h : Commands s k v n)
    (hi : (i, n) ∈ [(Instr.partctlConfigure k v, 4), (.partctlStart k v, 1), (.partctlReset k v, 2), (.partctlRelease k v, 3)]) :
    exec i s = .next ((partCommand (partctlMarked s v) (bits v 2 0) n).getD (partctlRefused s v)) := by
  obtain ⟨hk, h16, h11, hn, hh⟩ := h
  simp only [List.mem_cons, List.not_mem_nil, or_false, Prod.mk.injEq] at hi
  rcases hi with ⟨rfl, rfl⟩ | ⟨rfl, rfl⟩ | ⟨rfl, rfl⟩ | ⟨rfl, rfl⟩
  all_goals exact congrArg _ (partctlRow_command hk h16 h11 hn (by decide) hh)

/-- R32: a command that is refused sets CERR and PSEL, and nothing else changes. -/
theorem command_refused {s : State} {k n : Nat} {v : Word} {i : Instr} (h : Commands s k v n)
    (hi : (i, n) ∈ [(Instr.partctlConfigure k v, 4), (.partctlStart k v, 1), (.partctlReset k v, 2), (.partctlRelease k v, 3)])
    (hr : (n = 4 ∧ ((part s (bits v 2 0)).state ≠ 0 ∨
        configureBad s (bits v 2 0) (sectionWords s (bits v 2 0)) (ownEntries s (bits v 2 0)) = true)) ∨
      (n = 1 ∧ (part s (bits v 2 0)).state ≠ 1 ∧ (part s (bits v 2 0)).state ≠ 4) ∨
      (n = 2 ∧ (part s (bits v 2 0)).state ≠ 2) ∨ (n = 3 ∧ (part s (bits v 2 0)).state ≠ 4)) :
    ∃ t, exec i s = .next t ∧ t = { s with partctl := t.partctl } ∧ bit t.partctl 17 = true ∧ bits t.partctl 2 0 = bits v 2 0 := by
  rw [exec_command h hi, partCommand_refused (by simpa using hr)]
  exact ⟨_, rfl, partctlRefused_spec s v⟩

theorem partCommand_configure {s : State} {p : Nat} (h : (part s p).state = 0) : partCommand s p 4 = configure s p := by
  unfold partCommand
  rw [h]
  rfl

theorem partCommand_start {s : State} {p : Nat} (h : (part s p).state = 1 ∨ (part s p).state = 4) :
    partCommand s p 1 = some (startPart s p) := by
  unfold partCommand
  rcases h with h | h <;> rw [h] <;> rfl

theorem partCommand_reset {s : State} {p : Nat} (h : (part s p).state = 2) : partCommand s p 2 = some (resetPart s p) := by
  unfold partCommand
  rw [h]
  rfl

theorem partCommand_release {s : State} {p : Nat} (h : (part s p).state = 4) : partCommand s p 3 = some (releasePart s p) := by
  unfold partCommand
  rw [h]
  rfl

/-- The state after a command that is accepted. -/
theorem exec_accepted {s t : State} {k n : Nat} {v : Word} {i : Instr} (h : Commands s k v n)
    (hi : (i, n) ∈ [(Instr.partctlConfigure k v, 4), (.partctlStart k v, 1), (.partctlReset k v, 2), (.partctlRelease k v, 3)])
    (hc : partCommand (partctlMarked s v) (bits v 2 0) n = some t) : exec i s = .next t := by
  rw [exec_command h hi, hc]
  rfl

/-- R38: a configure that is accepted. -/
theorem command_configure {s : State} {k : Nat} {v : Word} (h : Commands s k v 4) (hst : (part s (bits v 2 0)).state = 0)
    (hb : configureBad s (bits v 2 0) (sectionWords s (bits v 2 0)) (ownEntries s (bits v 2 0)) = false) :
    let p := bits v 2 0
    let q := sectionOf (part s p) (sectionWords s p)
    ∃ t, exec (.partctlConfigure k v) s = .next t ∧ KeepsMemory s t ∧ part t p = q ∧ t.threads = s.threads ∧
      (∀ r, r ≠ p → part t r = part s r) ∧ (∀ h ∈ hartsOf q, hart t h = { part := p }) ∧
      (∀ h, h ∉ hartsOf q → hart t h = hart s h) ∧
      ∀ g < 4096, let e := rdWord s (tableBase s + 0x2000 + 8 * g)
        mget? t.granules g = if (mget? s.granules g).isSome then mget? s.granules g
          else if bit e 63 = true ∧ bit e 20 = false ∧ bits e 19 17 = p then some e else none := by
  intro p q
  obtain ⟨t, ht, hmem, hp, hthr, hother, hin, hout, hgran⟩ := configure_spec (s := partctlMarked s v) (p := p) (by simpa using hb)
  simp only [part_partctlMarked, hart_partctlMarked, sectionWords_partctlMarked, claimedGranules_partctlMarked] at hp hother hin hout hgran
  refine ⟨t, exec_accepted h (by simp) ((partCommand_configure (s := partctlMarked s v) hst).trans ht), keepsMemory_of_mem hmem, hp, hthr, hother, hin, hout,
    fun g hg => ?_⟩
  rw [hgran]
  exact mget?_claimedGranules s p hg

/-- R33, R37: a start sets the partition's first hart at BOOT in M mode. -/
theorem startPart_spec (s : State) (p : Nat) {h : Nat} {hs : List Nat} (hh : hartsOf (part s p) = h :: hs) :
    let t := startPart s p
    t.mem = s.mem ∧ part t p = { part s p with state := 2 } ∧ hart t h = { running := true, mode := .machine, part := p } ∧
      thr t h = { part := p, st := .latency, pc := (part s p).boot, lfsr := 0x9E37_79B9 } ∧
      (∀ j, j ≠ h → hart t j = hart s j ∧ mget? t.threads j = mget? s.threads j) ∧ ∀ r, r ≠ p → part t r = part s r := by
  intro t
  have ht : t = setThr (modHart (modPart s p fun q => { q with state := 2 }) h
      fun _ => { running := true, mode := .machine, part := p }) h
      { part := p, st := .latency, pc := (part s p).boot, lfsr := seedOf 0 } := by
    simp only [t, startPart, hh]
  rw [ht]
  refine ⟨rfl, ?_, ?_, thr_setThr_same .., fun j hj => ⟨?_, slot_setThr_other _ _ hj⟩, fun r hr => ?_⟩
  · rw [part_setThr, part_modHart, part_modPart_same]
  · rw [hart_setThr, hart_modHart_same]
  · rw [hart_setThr, hart_modHart_other _ _ hj, hart_modPart]
  · rw [part_setThr, part_modHart, part_modPart_other _ _ hr]

theorem command_start {s : State} {k : Nat} {v : Word} (hc : Commands s k v 1)
    (hst : (part s (bits v 2 0)).state = 1 ∨ (part s (bits v 2 0)).state = 4) {h : Nat} {hs : List Nat}
    (hh : hartsOf (part s (bits v 2 0)) = h :: hs) :
    let p := bits v 2 0
    ∃ t, exec (.partctlStart k v) s = .next t ∧ KeepsMemory s t ∧ part t p = { part s p with state := 2 } ∧
      hart t h = { running := true, mode := .machine, part := p } ∧
      thr t h = { part := p, st := .latency, pc := (part s p).boot, lfsr := 0x9E37_79B9 } ∧
      (∀ j, j ≠ h → hart t j = hart s j ∧ mget? t.threads j = mget? s.threads j) ∧ ∀ r, r ≠ p → part t r = part s r := by
  intro p
  obtain ⟨hmem, hrest⟩ := startPart_spec (partctlMarked s v) p hh
  exact ⟨_, exec_accepted hc (by simp) (partCommand_start (s := partctlMarked s v) hst), keepsMemory_of_mem hmem, hrest⟩

/-- A release after the harts are in reset again (R38). -/
def releasedResources (s : State) (p : Nat) : State :=
  { modPart s p (fun q => { done := q.done, dlate := q.dlate }) with
    granules := s.granules.filter fun (_, e) => bit e 20 || bits e 19 17 ≠ p }

theorem part_releasedResources (s : State) (p r : Nat) :
    part (releasedResources s p) r = part (modPart s p fun q => { done := q.done, dlate := q.dlate }) r := rfl

theorem releasePart_eq (s : State) (p : Nat) :
    releasePart s p = releasedResources ((hartsOf (part s p)).foldl (fun s k => modHart s k fun _ => {}) s) p := rfl

/-- R33, R38: a release returns harts, resources and granules. -/
theorem releasePart_spec (s : State) (p : Nat) :
    let t := releasePart s p
    t.mem = s.mem ∧ part t p = { done := (part s p).done, dlate := (part s p).dlate } ∧ (∀ r, r ≠ p → part t r = part s r) ∧
      (∀ h ∈ hartsOf (part s p), hart t h = {}) ∧ (∀ h, h ∉ hartsOf (part s p) → hart t h = hart s h) ∧
      t.granules = s.granules.filter fun (_, e) => bit e 20 || bits e 19 17 ≠ p := by
  obtain ⟨hs, hin, hout⟩ := foldl_modHart_const {} (hartsOf (part s p)) s
  rw [releasePart_eq]
  generalize (hartsOf (part s p)).foldl (fun s k => modHart s k fun _ => {}) s = u at *
  have hpart : ∀ r, part u r = part s r := by rw [hs]; exact fun _ => rfl
  have hmem : u.mem = s.mem := by rw [hs]
  have hgran : u.granules = s.granules := by rw [hs]
  exact ⟨hmem, by rw [part_releasedResources, part_modPart_same, hpart], fun r hr => by
    rw [part_releasedResources, part_modPart_other _ _ hr, hpart], hin, hout, by rw [releasedResources, hgran]⟩

theorem command_release {s : State} {k : Nat} {v : Word} (hc : Commands s k v 3) (hst : (part s (bits v 2 0)).state = 4) :
    let p := bits v 2 0
    ∃ t, exec (.partctlRelease k v) s = .next t ∧ KeepsMemory s t ∧
      part t p = { done := (part s p).done, dlate := (part s p).dlate } ∧ (∀ r, r ≠ p → part t r = part s r) ∧
      (∀ h ∈ hartsOf (part s p), hart t h = {}) ∧ (∀ h, h ∉ hartsOf (part s p) → hart t h = hart s h) ∧
      t.granules = s.granules.filter fun (_, e) => bit e 20 || bits e 19 17 ≠ p := by
  intro p
  obtain ⟨hmem, hrest⟩ := releasePart_spec (partctlMarked s v) p
  exact ⟨_, exec_accepted hc (by simp) (partCommand_release (s := partctlMarked s v) hst), keepsMemory_of_mem hmem, hrest⟩

/-! The table's base (R35). -/

/-- The manager bits of every latency core as a table gives them (R35). -/
def withMgrs (s : State) (base : Nat) : State :=
  [0, 1].foldl (fun s d => (List.range 36).foldl (setMgr base d) s) s

theorem hartKey_die_ne {c c' : Nat} (h : c < 36) (h' : c' < 36) : hartKey 0 c ≠ hartKey 1 c' := by
  unfold hartKey
  omega

theorem withMgrs_spec (s : State) (base : Nat) :
    withMgrs s base = { s with harts := (withMgrs s base).harts } ∧
    ∀ d < 2, ∀ c < 36, hart (withMgrs s base) (hartKey d c) =
      { hart s (hartKey d c) with mgr := bit (rdWord s (base + 8 * d)) c } := by
  obtain ⟨hs0, hin0, hout0⟩ := foldl_setMgr base 0 (List.range 36) s
  obtain ⟨hs1, hin1, hout1⟩ := foldl_setMgr base 1 (List.range 36) ((List.range 36).foldl (setMgr base 0) s)
  rw [withMgrs, List.foldl_cons, List.foldl_cons, List.foldl_nil]
  generalize (List.range 36).foldl (setMgr base 0) s = u at *
  generalize (List.range 36).foldl (setMgr base 1) u = t at *
  have hmem : ∀ a, rdWord u a = rdWord s a := rdWord_of_mem (by rw [hs0])
  refine ⟨by rw [hs1, hs0], fun d hd c hc => ?_⟩
  have hc' := List.mem_range.2 hc
  have h01 : d = 0 ∨ d = 1 := by omega
  rcases h01 with rfl | rfl
  · rw [hout1 _ fun c' h' => hartKey_die_ne hc (List.mem_range.1 h'), hin0 c hc']
  · rw [hin1 c hc', hout0 _ fun c' h' => (hartKey_die_ne (List.mem_range.1 h') hc).symm, hmem]

/-- The granules in force after a write of `rtbase`: the managers' own (R35). -/
def managerGranules (s : State) (base : Nat) : SMap Word :=
  (mapEntries s base).foldl (fun m (g, e) => if bit e 20 && bit e 63 then mset 0 m g e else m) []

theorem mget?_managerGranules (s : State) (base : Nat) {g : Nat} (hg : g < 4096) :
    let e := rdWord s (base + 0x2000 + 8 * g)
    mget? (managerGranules s base) g = if bit e 20 = true ∧ bit e 63 = true then some e else none := by
  intro e
  rw [managerGranules, mapEntries, List.foldl_map]
  refine (mget?_enforce (fun g => rdWord s (base + 0x2000 + 8 * g)) (fun g =>
    let e := rdWord s (base + 0x2000 + 8 * g)
    bit e 20 && bit e 63) (fun g h => ?_) _ _ _).trans ?_
  · exact ne_zero_of_bit (Bool.and_eq_true_iff.1 h).1
  · simp [hg, e]

theorem rtbaseStore_refused {s : State} {v : Word} (h : (∃ x ∈ s.parts, x.2.state ≠ 0) ∨ tableBad s (bits v 63 16 * 65536) = true) :
    rtbaseStore s v = { s with partctl := setBit s.partctl 17 true } := by
  have hp : (∃ x ∈ s.parts, x.2.state ≠ 0) → (s.parts.any fun (_, q) => q.state ≠ 0) = true := fun ⟨x, hx, hst⟩ =>
    List.any_eq_true.2 ⟨x, hx, by simpa using hst⟩
  unfold rtbaseStore
  rcases h with h | h
  · exact if_pos (hp h)
  · split
    · rfl
    · exact if_pos h

/-- Another resource table comes into force (R35). -/
def withTable (s : State) (base : Word) (m : SMap Word) : State := { s with rtbase := base, granules := m }

@[simp] theorem withTable_mem (s : State) (base : Word) (m : SMap Word) : (withTable s base m).mem = s.mem := rfl
@[simp] theorem withTable_parts (s : State) (base : Word) (m : SMap Word) : (withTable s base m).parts = s.parts := rfl
@[simp] theorem withTable_threads (s : State) (base : Word) (m : SMap Word) : (withTable s base m).threads = s.threads := rfl
@[simp] theorem withTable_rtbase (s : State) (base : Word) (m : SMap Word) : (withTable s base m).rtbase = base := rfl
@[simp] theorem withTable_granules (s : State) (base : Word) (m : SMap Word) : (withTable s base m).granules = m := rfl
@[simp] theorem hart_withTable (s : State) (base : Word) (m : SMap Word) (j : Nat) : hart (withTable s base m) j = hart s j := rfl

/-- The state after a write of `rtbase` that is accepted (R35). -/
def rebased (s : State) (base : Nat) : State := withTable (withMgrs s base) (w64 base) (managerGranules (withMgrs s base) base)

theorem rtbaseStore_accepted {s : State} {v : Word} (hp : ∀ x ∈ s.parts, x.2.state = 0) (h : tableBad s (bits v 63 16 * 65536) = false) :
    rtbaseStore s v = rebased s (bits v 63 16 * 65536) := by
  have hany : (s.parts.any fun (_, q) => q.state ≠ 0) = false := by simpa using fun k x hx => hp (k, x) hx
  unfold rtbaseStore
  rw [if_neg (Bool.eq_false_iff.1 hany)]
  exact if_neg (Bool.eq_false_iff.1 h)

theorem withMgrs_mem (s : State) (base : Nat) : (withMgrs s base).mem = s.mem := by rw [(withMgrs_spec s base).1]

/-- R35: what a table's write makes of harts and granules. -/
theorem rebased_spec (s : State) (base : Nat) :
    (rebased s base).mem = s.mem ∧ (rebased s base).rtbase = w64 base ∧ (rebased s base).parts = s.parts ∧
    (rebased s base).threads = s.threads ∧
    (∀ d < 2, ∀ c < 36, hart (rebased s base) (hartKey d c) =
      { hart s (hartKey d c) with mgr := bit (rdWord s (base + 8 * d)) c }) ∧
    ∀ g < 4096, mget? (rebased s base).granules g =
      if bit (rdWord s (base + 0x2000 + 8 * g)) 20 = true ∧ bit (rdWord s (base + 0x2000 + 8 * g)) 63 = true
      then some (rdWord s (base + 0x2000 + 8 * g)) else none := by
  obtain ⟨hs, hmgr⟩ := withMgrs_spec s base
  have hmem := withMgrs_mem s base
  have hparts : (withMgrs s base).parts = s.parts := by rw [hs]
  have hthr : (withMgrs s base).threads = s.threads := by rw [hs]
  have hgran := fun g (hg : g < 4096) => mget?_managerGranules (withMgrs s base) base hg
  simp only [rdWord_of_mem hmem] at hgran
  rw [rebased]
  refine ⟨?_, withTable_rtbase .., ?_, ?_, fun d hd c hc => ?_, fun g hg => ?_⟩
  · rw [withTable_mem, hmem]
  · rw [withTable_parts, hparts]
  · rw [withTable_threads, hthr]
  · rw [hart_withTable, hmgr d hd c hc]
  · rw [withTable_granules, hgran g hg]

/-- R35: a write of `rtbase` that is not held. -/
theorem rtbaseWrite_spec {s : State} {k : Nat} {v : Word} (hk : mgrHart s k = true) (hh : rtbaseHeld s k v = none) :
    let b := bits v 63 16 * 65536
    ((∃ x ∈ s.parts, x.2.state ≠ 0) ∨ tableBad s b = true → ∃ t, exec (.rtbaseWrite k v) s = .next t ∧
      t = { s with partctl := t.partctl } ∧ bit t.partctl 17 = true) ∧
    ((∀ x ∈ s.parts, x.2.state = 0) → tableBad s b = false → ∃ t, exec (.rtbaseWrite k v) s = .next t ∧ KeepsMemory s t ∧
      t.rtbase = w64 b ∧ t.parts = s.parts ∧ t.threads = s.threads ∧
      (∀ d < 2, ∀ c < 36, hart t (hartKey d c) = { hart s (hartKey d c) with mgr := bit (rdWord s (b + 8 * d)) c }) ∧
      ∀ g < 4096, let e := rdWord s (b + 0x2000 + 8 * g)
        mget? t.granules g = if bit e 20 = true ∧ bit e 63 = true then some e else none) := by
  intro b
  have hexec : exec (.rtbaseWrite k v) s = .next (rtbaseStore s v) := by simp [exec, execRtbaseWrite, hk, hh]
  refine ⟨fun h => ⟨_, hexec, ?_⟩, fun hp hb => ?_⟩
  · rw [rtbaseStore_refused h]
    exact ⟨rfl, (bit_setBit _ _ (by decide)).trans (if_pos rfl)⟩
  · obtain ⟨hmem, hrest⟩ := rebased_spec s b
    exact ⟨rebased s b, hexec.trans (congrArg _ (rtbaseStore_accepted hp hb)), keepsMemory_of_mem hmem, hrest⟩

end Sys2Proof.Machine
end

section
/-! What a partition's handler sets leave behind as they are dropped from the slices (R39, R412). -/

namespace Sys2Proof.Machine

/-- A thread after room is looked for (R266, R320, R377, R399, R426). -/
def wokenThread (s : State) (k : Nat) (t : Thread) : Thread :=
  match t.wait with
  | .room r => if t.st = .blocked && roomIn s k r then { t with st := .ready, wait := .none, age := s.cycle } else t
  | _ => t

theorem wakeRoom_eq (s : State) : wakeRoom s = { s with threads := s.threads.map fun e => (e.1, wokenThread s e.1 e.2) } := by
  have : ∀ e : Nat × Thread, (match e.2.wait with
      | .room r => if e.2.st = .blocked && roomIn s e.1 r then (e.1, { e.2 with st := .ready, wait := .none, age := s.cycle }) else (e.1, e.2)
      | _ => (e.1, e.2)) = (e.1, wokenThread s e.1 e.2) := by
    intro e
    unfold wokenThread
    split
    · split <;> rfl
    · rfl
  unfold wakeRoom
  exact congrArg (fun l => { s with threads := l }) (List.map_congr_left fun e _ => this e)

theorem wokenThread_self {s : State} {k : Nat} {t : Thread} (h : ∀ r, t.wait ≠ .room r) : wokenThread s k t = t := by
  unfold wokenThread
  split
  · next hw => exact absurd hw (h _)
  · rfl

theorem mget?_wakeRoom (s : State) (j : Nat) : mget? (wakeRoom s).threads j = (mget? s.threads j).map (wokenThread s j) := by
  rw [wakeRoom_eq]
  exact mget?_map (wokenThread s) s.threads j

/-- An event of a slice's queue whose set a partition has bound. -/
def OfSets (s : State) (p x : Nat) (e : CobEvent) : Prop :=
  e ∈ (slice s x).queue ∧ ∃ b, (e.set, b) ∈ (slice s x).sets ∧ b.part = p

/-- What holds through every move by which a partition's handler sets leave the slices. -/
structure StopKeeps (s : State) (p : Nat) (P : State → Prop) : Prop where
  core : ∀ t x, P t → P (dropThr t (cobKey x))
  slice : ∀ t x f, P t → P (modSlice t x f)
  poison : ∀ t l, P t → P { t with poison := l }
  evict : ∀ t line, P t → P (evictHome t line)
  ended : ∀ t x e, OfSets s p x e → P t → P (opEnded t e.part e.asid e.team e.serial)
  wake : ∀ t, P t → P (wakeRoom t)

/-- The slices' bindings and queues are among those of an earlier state. -/
def Shrinks (s t : State) : Prop := ∀ x, (slice t x).sets ⊆ (slice s x).sets ∧ (slice t x).queue ⊆ (slice s x).queue

theorem shrinks_refl (s : State) : Shrinks s s := fun _ => ⟨fun _ h => h, fun _ h => h⟩

theorem shrinks_of_slices {s t u : State} (h : Shrinks s t) (hu : u.slices = t.slices) : Shrinks s u := by
  intro x
  have : slice u x = slice t x := by rw [slice, hu]; rfl
  rw [this]
  exact h x

theorem shrinks_modSlice {s t : State} {x : Nat} {f : Slice → Slice} (h : Shrinks s t)
    (hs : (f (slice t x)).sets ⊆ (slice t x).sets) (hq : (f (slice t x)).queue ⊆ (slice t x).queue) : Shrinks s (modSlice t x f) := by
  intro y
  by_cases hy : y = x
  · subst hy
    rw [slice_modSlice_same]
    exact ⟨List.Subset.trans hs (h y).1, List.Subset.trans hq (h y).2⟩
  · rw [slice_modSlice_other _ _ hy]
    exact h y

/-- One event has come to its end. -/
def eventGone (s : State) (e : CobEvent) : State :=
  let s := if e.code = 2 then evictHome s (e.pa / 64) else s
  if e.team = 0 then s else opEnded s e.part e.asid e.team e.serial

theorem eventsGone_eq (s : State) (l : List CobEvent) : eventsGone s l = wakeRoom (l.foldl eventGone s) := rfl

theorem eventsGone_slices (s : State) (l : List CobEvent) : (eventsGone s l).slices = s.slices := by
  rw [eventsGone_eq]
  refine List.foldlRecOn (motive := fun t : State => t.slices = s.slices) l eventGone rfl fun t ht e _ => ?_
  unfold eventGone
  dsimp only
  split <;> split <;> exact ht

variable {s : State} {p : Nat} {P : State → Prop}

theorem eventsGone_stopKeeps (hP : StopKeeps s p P) {t : State} {x : Nat} {l : List CobEvent} (hl : ∀ e ∈ l, OfSets s p x e) (ht : P t) :
    P (eventsGone t l) := by
  rw [eventsGone_eq]
  refine hP.wake _ (List.foldlRecOn l eventGone ht fun t ht e he => ?_)
  have hev : P (if e.code = 2 then evictHome t (e.pa / 64) else t) := by
    split
    · exact hP.evict _ _ ht
    · exact ht
  unfold eventGone
  dsimp only
  split
  · exact hev
  · exact hP.ended _ x e (hl e he) hev

theorem rebind_none_sets (sl : Slice) (set : Nat) : (rebind sl set none).sets ⊆ sl.sets := List.filter_subset_self ..

theorem rebind_none_queue (sl : Slice) (set : Nat) : (rebind sl set none).queue ⊆ sl.queue := List.filter_subset_self ..

theorem rebindAt_none (s : State) (x set : Nat) :
    ∃ l, rebindAt s x set none =
      eventsGone (modSlice { s with poison := l } x fun sl => rebind sl set none) ((slice s x).queue.filter fun e => e.set = set) :=
  ⟨_, rfl⟩

/-- A slot that leaves its binding keeps what such moves keep, where the binding was the partition's. -/
theorem rebindAt_stopKeeps (hP : StopKeeps s p P) {t : State} {x set : Nat} (hset : ∃ b, (set, b) ∈ (slice s x).sets ∧ b.part = p)
    (hs : Shrinks s t) (ht : P t) : Shrinks s (rebindAt t x set none) ∧ P (rebindAt t x set none) := by
  obtain ⟨l, hl⟩ := rebindAt_none t x set
  rw [hl]
  have hs' : Shrinks s { t with poison := l } := shrinks_of_slices hs rfl
  refine ⟨shrinks_of_slices (shrinks_modSlice hs' (rebind_none_sets _ set) (rebind_none_queue _ set)) (eventsGone_slices ..),
    eventsGone_stopKeeps hP (x := x) (fun e he => ?_) (hP.slice _ _ _ (hP.poison _ _ ht))⟩
  obtain ⟨hq, he⟩ := List.mem_filter.1 he
  have he : e.set = set := by simpa using he
  exact ⟨(hs x).2 hq, he ▸ hset⟩

/-- An invocation of the partition's ends with its slice's core free. -/
theorem stopRun_stopKeeps (hP : StopKeeps s p P) {t : State} (x : Nat) (hs : Shrinks s t) (ht : P t) :
    Shrinks s (dropThr (modSlice t x fun sl => { sl with run := none }) (cobKey x)) ∧
      P (dropThr (modSlice t x fun sl => { sl with run := none }) (cobKey x)) :=
  ⟨shrinks_of_slices (t := modSlice t x fun sl => { sl with run := none })
    (shrinks_modSlice hs (fun _ h => h) (fun _ h => h)) rfl, hP.core _ _ (hP.slice _ _ _ ht)⟩

theorem dropSets_stopKeeps (hP : StopKeeps s p P) {t : State} (x : Nat) (hs : Shrinks s t) (ht : P t) :
    Shrinks s (dropSets t p x) ∧ P (dropSets t p x) := by
  unfold dropSets
  dsimp only
  refine List.foldlRecOn (motive := fun u => Shrinks s u ∧ P u) _ _ ?_ fun u hu set hset => ?_
  · split
    · split
      · exact stopRun_stopKeeps hP x hs ht
      · exact ⟨hs, ht⟩
    · exact ⟨hs, ht⟩
  · obtain ⟨e, he, rfl⟩ := List.mem_map.1 hset
    obtain ⟨hmem, hp⟩ := List.mem_filter.1 he
    exact rebindAt_stopKeeps hP ⟨e.2, (hs x).1 hmem, by simpa using hp⟩ hu.1 hu.2

/-- The partition's sets leave the slices listed. -/
theorem dropAllSets_stopKeeps (hP : StopKeeps s p P) (hs : P s) (xs : List Nat) : P (xs.foldl (fun s x => dropSets s p x) s) :=
  (List.foldlRecOn (motive := fun t => Shrinks s t ∧ P t) xs _ ⟨shrinks_refl s, hs⟩ fun _ ht x _ => dropSets_stopKeeps hP x ht.1 ht.2).2

end Sys2Proof.Machine
end

section
/-! The reset of a partition (R32, R39, R40, R387). -/

namespace Sys2Proof.Machine

/-! What the handler sets leave alone as they are dropped. -/

/-- What no move of `StopKeeps` writes. -/
def StopRest (s t : State) : Prop :=
  t.mem = s.mem ∧ t.parts = s.parts ∧ t.harts = s.harts ∧ t.copies = s.copies ∧ t.rowOps = s.rowOps ∧ t.granules = s.granules ∧
    t.laced = s.laced ∧ t.eyelets = s.eyelets

theorem stopKeeps_rest (s : State) (p : Nat) : StopKeeps s p (StopRest s) where
  core _ _ h := h
  slice _ _ _ h := h
  poison _ _ h := h
  evict _ _ h := h
  ended _ _ _ _ h := h
  wake _ h := h

/-- A slot or hart holds a thread as before, and the same one where it did not wait for room. -/
def ThreadStays (s t : State) (j : Nat) : Prop :=
  occupied t j = occupied s j ∧ ((∀ r, (thr s j).wait ≠ .room r) → mget? t.threads j = mget? s.threads j)

theorem threadStays_wakeRoom {s t : State} {j : Nat} (h : ThreadStays s t j) : ThreadStays s (wakeRoom t) j := by
  obtain ⟨ho, hw⟩ := h
  refine ⟨?_, fun hr => ?_⟩
  · rw [occupied, mget?_wakeRoom, Option.isSome_map]
    exact ho
  · rw [mget?_wakeRoom, hw hr]
    cases hj : mget? s.threads j with
    | none => rfl
    | some u =>
      have hu : thr s j = u := by rw [thr, hj]; rfl
      rw [Option.map_some, wokenThread_self fun r => hu ▸ hr r]

theorem threadStays_dropCob {s t : State} {j : Nat} (hj : j < 0x20_0000) (x : Nat) (h : ThreadStays s t j) :
    ThreadStays s (dropThr t (cobKey x)) j := by
  have : mget? (dropThr t (cobKey x)).threads j = mget? t.threads j := mget?_mdel_other _ (by unfold cobKey; omega)
  obtain ⟨ho, hw⟩ := h
  exact ⟨by rw [occupied, this]; exact ho, fun hr => this.trans (hw hr)⟩

theorem stopKeeps_threads (s : State) (p : Nat) {j : Nat} (hj : j < 0x20_0000) : StopKeeps s p (ThreadStays s · j) where
  core _ x h := threadStays_dropCob hj x h
  slice _ _ _ h := h
  poison _ _ h := h
  evict _ _ h := h
  ended _ _ _ _ h := h
  wake _ h := threadStays_wakeRoom h

/-- The teams that the end of an operation leaves are those before it, one of them with an operation fewer. -/
theorem mem_opEnded {s : State} {p asid num serial : Nat} {m : Team} (h : m ∈ (opEnded s p asid num serial).teams) :
    m ∈ s.teams ∨ m.part = p ∧ ∃ m' ∈ s.teams, m'.part = p := by
  obtain ⟨m', hm', rfl⟩ := List.mem_map.1 (List.mem_filter.1 h).1
  split
  · next hit =>
    simp only [Bool.and_eq_true, decide_eq_true_eq] at hit
    exact .inr ⟨hit.1.1.1, m', hm', hit.1.1.1⟩
  · exact .inl hm'

theorem opEnded_mem_other {s : State} {p asid num serial : Nat} {m : Team} (hp : m.part ≠ p) (hst : m.st ≠ .held) (h : m ∈ s.teams) :
    m ∈ (opEnded s p asid num serial).teams :=
  List.mem_filter.2 ⟨List.mem_map.2 ⟨m, h, if_neg (by simp [hp])⟩, by simp [hst]⟩

theorem stopKeeps_team {s : State} {p : Nat} {m : Team} (hst : m.st ≠ .held) (he : ∀ x e, OfSets s p x e → e.part ≠ m.part) :
    StopKeeps s p fun t => m ∈ t.teams ↔ m ∈ s.teams where
  core _ _ h := h
  slice _ _ _ h := h
  poison _ _ h := h
  evict _ _ h := h
  ended _ x e h ht := by
    refine ⟨fun hm => ?_, fun hm => opEnded_mem_other (he x e h).symm hst (ht.2 hm)⟩
    exact (mem_opEnded hm).elim ht.1 fun hp => absurd hp.1 (he x e h).symm
  wake _ h := h

theorem stopKeeps_foreign (s : State) (p : Nat) : StopKeeps s p fun t => ∀ m ∈ t.teams, m.part ≠ p where
  core _ _ h := h
  slice _ _ _ h := h
  poison _ _ h := h
  evict _ _ h := h
  ended _ _ _ _ ht m hm := (mem_opEnded hm).elim (ht m) fun ⟨hp, m', hm', hp'⟩ => by
    have := ht m' hm'
    rw [hp', ← hp] at this
    exact this
  wake _ h := h

/-! The stages of a stop. -/

/-- The partition's handler sets leave every slice. -/
def dropAllSets (s : State) (p : Nat) : State := (s.slices.map (·.1)).foldl (fun s x => dropSets s p x) s

/-- The partition's eyelets leave their laces. -/
def unbindAll (s : State) (p : Nat) : State :=
  (s.eyelets.filter fun (e : Nat × Eyelet) => e.2.part = p && e.2.st ≠ 0).foldl (fun s (e : Nat × Eyelet) => unbind s e.1) s

/-- A stop up to the slices: what the partition's agents and engines hold is given up (R39, R387). -/
theorem stopPart_stages (s : State) (p : Nat) :
    ∃ u, stopPart s p = { unbindAll (dropAllSets u p) p with
        harts := (unbindAll (dropAllSets u p) p).harts.filter fun (e : Nat × Hart) => e.2 ≠ {} } ∧
      u.mem = s.mem ∧ u.parts = s.parts ∧ u.granules = s.granules ∧ u.laced = s.laced ∧ u.eyelets = s.eyelets ∧ u.slices = s.slices ∧
      u.threads = s.threads.filter (fun (k, t) => !partKey s p k t) ∧
      u.harts = s.harts.map (fun (e : Nat × Hart) => (e.1, if partHart s p e.1 then { part := p } else e.2)) ∧
      u.teams = s.teams.filter (fun t => t.part ≠ p) ∧ u.copies = s.copies.filter (fun c => c.part ≠ p) ∧
      u.rowOps = s.rowOps.filter (fun x => x.part ≠ p) :=
  ⟨_, rfl, rfl, rfl, rfl, rfl, rfl, rfl, rfl, rfl, rfl, rfl, rfl⟩

theorem unbindAll_none {s : State} {p : Nat} (h : ∀ e ∈ s.eyelets, e.2.part = p → e.2.st = 0) : unbindAll s p = s := by
  have : (s.eyelets.filter fun (e : Nat × Eyelet) => e.2.part = p && e.2.st ≠ 0) = [] :=
    List.filter_eq_nil_iff.2 fun e he => by simpa using h e he
  rw [unbindAll, this, List.foldl_nil]

end Sys2Proof.Machine
end

section
/-! What a reset leaves (R39), from its stages. -/

namespace Sys2Proof.Machine

theorem mkeys_map (f : Nat → α → β) {m : SMap α} (h : mkeys m = true) : mkeys (m.map fun e => (e.1, f e.1 e.2)) = true := by
  induction m with
  | nil => rfl
  | cons e m ih =>
    obtain ⟨k, v⟩ := e
    refine mkeys_cons (ih (mkeys_tail h)) fun e he => ?_
    obtain ⟨e', he', rfl⟩ := List.mem_map.1 (List.mem_of_mem_head? he)
    exact mkeys_lt h e' he'

/-- An entry that holds the default may go. -/
theorem mget_filter_default [DecidableEq α] (d : α) {m : SMap α} (h : mkeys m = true) (x : Nat) :
    mget d (m.filter fun e => e.2 ≠ d) x = mget d m x := by
  rw [mget, mget, mget?_filter _ h]
  cases mget? m x with
  | none => rfl
  | some v =>
    by_cases hv : v = d
    · simp [Option.filter, hv]
    · simp [Option.filter, hv]

theorem mem_slices {s : State} {x : Nat} (h : (slice s x).queue ≠ []) : (x, slice s x) ∈ s.slices := by
  cases hx : mget? s.slices x with
  | none => exact absurd (by rw [slice, mget, hx]; rfl) h
  | some sl =>
    have : slice s x = sl := by rw [slice, mget, hx]; rfl
    exact this ▸ mem_of_mget? hx

/-- No set that the partition has bound holds an event of another one's team. -/
def EventsApart (s : State) (p : Nat) (m : Team) : Prop :=
  ∀ x ∈ s.slices, ∀ e ∈ x.2.queue, e.part = m.part → ∀ b ∈ x.2.sets, b.1 = e.set → b.2.part ≠ p

theorem EventsApart.part_ne {s : State} {p : Nat} {m : Team} (h : EventsApart s p m) (x : Nat) (e : CobEvent) (he : OfSets s p x e) :
    e.part ≠ m.part := by
  obtain ⟨hq, b, hb, hp⟩ := he
  exact fun hm => h _ (mem_slices (List.ne_nil_of_mem hq)) e hq hm (e.set, b) hb rfl hp

/-- The harts after a stop: the partition's are in reset, and every other one is as it was. -/
theorem mget_stoppedHarts (s : State) (p : Nat) (h : mkeys s.harts = true) {j : Nat} (hj : isHart j = true) :
    mget {} ((s.harts.map fun (e : Nat × Hart) => (e.1, if partHart s p e.1 then ({ part := p } : Hart) else e.2)).filter
      fun (e : Nat × Hart) => e.2 ≠ {}) j = if partHart s p j then { part := p } else hart s j := by
  rw [mget_filter_default {} (mkeys_map (fun k v => if partHart s p k then ({ part := p } : Hart) else v) h), mget,
    mget?_map (fun k v => if partHart s p k then ({ part := p } : Hart) else v)]
  cases hx : mget? s.harts j with
  | some v =>
    have : hart s j = v := by rw [hart, mget, hx]; rfl
    rw [this]
    rfl
  | none =>
    have hh : hart s j = {} := by rw [hart, mget, hx]; rfl
    by_cases hp : partHart s p j = true
    · have h0 : (0 : Nat) = p := by simpa [partHart, hj, hh] using hp
      rw [if_pos hp, ← h0]
      rfl
    · rw [if_neg hp, hh]
      rfl

/-- The thread of a key after the partition's threads are gone. -/
theorem mget?_stoppedThreads (s : State) (p : Nat) (h : mkeys s.threads = true) (j : Nat) :
    mget? (s.threads.filter fun (k, t) => !partKey s p k t) j = if partKey s p j (thr s j) then none else mget? s.threads j := by
  rw [mget?_filter _ h, thr]
  cases mget? s.threads j with
  | none => simp
  | some t => cases ht : partKey s p j t <;> simp [Option.filter, ht]

/-- R39: what the stop of a partition leaves, where none of its eyelets is on a lace. -/
theorem stopPart_spec {s : State} {p : Nat} (hthr : mkeys s.threads = true) (hharts : mkeys s.harts = true)
    (heye : ∀ e ∈ s.eyelets, e.2.part = p → e.2.st = 0) :
    let t := stopPart s p
    t.mem = s.mem ∧ t.parts = s.parts ∧ (∀ m ∈ t.teams, m.part ≠ p) ∧
      (∀ m, m.part ≠ p → m.st ≠ .held → EventsApart s p m → (m ∈ t.teams ↔ m ∈ s.teams)) ∧
      t.copies = s.copies.filter (fun c => c.part ≠ p) ∧ t.rowOps = s.rowOps.filter (fun r => r.part ≠ p) ∧
      t.granules = s.granules ∧ t.laced = s.laced ∧
      (∀ j < 0x20_0000, partKey s p j (thr s j) = true → occupied t j = false) ∧
      (∀ j < 0x20_0000, partKey s p j (thr s j) = false → (∀ r, (thr s j).wait ≠ .room r) →
        mget? t.threads j = mget? s.threads j) ∧
      ∀ j, isHart j = true → hart t j = if partHart s p j then { part := p } else hart s j := by
  intro t
  obtain ⟨u, ht, hmem, hparts, hgran, hlaced, heyes, hslices, hthreads, hhart, hteams, hcopies, hrows⟩ := stopPart_stages s p
  obtain ⟨dmem, dparts, dharts, dcopies, drows, dgran, dlaced, deyes⟩ : StopRest u (dropAllSets u p) :=
    dropAllSets_stopKeeps (stopKeeps_rest u p) ⟨rfl, rfl, rfl, rfl, rfl, rfl, rfl, rfl⟩ _
  have hstays : ∀ j < 0x20_0000, ThreadStays u (dropAllSets u p) j := fun j hj =>
    dropAllSets_stopKeeps (stopKeeps_threads u p hj) ⟨rfl, fun _ => rfl⟩ _
  have hforeign : ∀ m ∈ (dropAllSets u p).teams, m.part ≠ p := dropAllSets_stopKeeps (stopKeeps_foreign u p)
    (fun m hm => by rw [hteams] at hm; simpa using (List.mem_filter.1 hm).2) _
  have hteam : ∀ m, m.part ≠ p → m.st ≠ .held → EventsApart s p m → (m ∈ (dropAllSets u p).teams ↔ m ∈ u.teams) :=
    fun m _ hst hap => dropAllSets_stopKeeps (stopKeeps_team hst (EventsApart.part_ne (s := u) (by rw [EventsApart, hslices]; exact hap)))
      Iff.rfl _
  rw [unbindAll_none (by rw [deyes, heyes]; exact heye)] at ht
  have hkey := mget?_stoppedThreads s p hthr
  rw [← hthreads] at hkey
  generalize dropAllSets u p = d at *
  rw [show t = _ from ht]
  refine ⟨dmem.trans hmem, dparts.trans hparts, hforeign, fun m hp hst hap => ?_, dcopies.trans hcopies, drows.trans hrows,
    dgran.trans hgran, dlaced.trans hlaced, fun j hj hk => ?_, fun j hj hk hw => ?_, fun j hj => ?_⟩
  · rw [hteam m hp hst hap, hteams, List.mem_filter]
    simp [hp]
  · have : mget? u.threads j = none := by rw [hkey, if_pos hk]
    exact (hstays j hj).1.trans (by rw [occupied, this]; rfl)
  · have hsame : mget? u.threads j = mget? s.threads j := by rw [hkey, if_neg (by simp [hk])]
    have hthr' : thr u j = thr s j := by rw [thr, hsame]; rfl
    exact ((hstays j hj).2 (by rw [hthr']; exact hw)).trans hsame
  · rw [← mget_stoppedHarts s p hharts hj, ← hhart, ← dharts]
    rfl

end Sys2Proof.Machine
end

section
/-! The reset command, the drain and the wipe (R32, R39, R40). -/

namespace Sys2Proof.Machine

theorem lt_cobbler_of_isSimt {j : Nat} (h : isSimt j = true) : j < 0x20_0000 := by
  simp only [isSimt, decide_eq_true_eq] at h
  omega

theorem lt_cobbler_of_isHart {j : Nat} (h : isHart j = true) : j < 0x20_0000 := by
  simp only [isHart, Bool.and_eq_true, decide_eq_true_eq] at h
  exact h.2

theorem partKey_simt {s : State} {p j : Nat} (t : Thread) (h : isSimt j = true) : partKey s p j t = decide (t.part = p) := by
  rw [partKey, isHart_of_isSimt h]
  rfl

theorem partKey_hart {s : State} {p j : Nat} (t : Thread) (h : isHart j = true) : partKey s p j t = partHart s p j := if_pos h

/-- The partition's record at the start of its reset. -/
def resetRecord (s : State) (q : Partition) : Partition :=
  { q.bare with state := 3, done := false, dlate := false, resetUs := s.us, drained := false, ethrq := q.ethrq }

theorem resetPart_eq (s : State) (p : Nat) : resetPart s p = stopPart (modPart s p (resetRecord s)) p := rfl

/-- R39: what a reset leaves, where none of the partition's eyelets is on a lace. -/
theorem resetPart_spec {s : State} {p : Nat} (hthr : mkeys s.threads = true) (hharts : mkeys s.harts = true)
    (heye : ∀ e ∈ s.eyelets, e.2.part = p → e.2.st = 0) :
    let t := resetPart s p
    t.mem = s.mem ∧ (part t p).state = 3 ∧ (part t p).done = false ∧
      (part t p).dlate = false ∧ (part t p).retPend = [] ∧ (part t p).open_ = [] ∧ (∀ r, r ≠ p → part t r = part s r) ∧
      (part t p).ethrq = (part s p).ethrq ∧ (∀ m ∈ t.teams, m.part ≠ p) ∧
      (∀ m, m.part ≠ p → m.st ≠ .held →
        (∀ x ∈ s.slices, ∀ e ∈ x.2.queue, e.part = m.part → ∀ b ∈ x.2.sets, b.1 = e.set → b.2.part ≠ p) →
        (m ∈ t.teams ↔ m ∈ s.teams)) ∧
      t.copies = s.copies.filter (fun c => c.part ≠ p) ∧ t.rowOps = s.rowOps.filter (fun r => r.part ≠ p) ∧
      t.granules = s.granules ∧ t.laced = s.laced ∧
      (∀ j, isSimt j = true → (thr s j).part = p → occupied t j = false) ∧
      (∀ j, isSimt j = true → (thr s j).part ≠ p → (∀ r, (thr s j).wait ≠ .room r) → mget? t.threads j = mget? s.threads j) ∧
      ∀ j, isHart j = true → if partHart s p j = true then hart t j = { part := p } ∧ occupied t j = false
        else hart t j = hart s j ∧ ((∀ r, (thr s j).wait ≠ .room r) → mget? t.threads j = mget? s.threads j) := by
  intro t
  obtain ⟨hmem, hparts, hforeign, hteam, hcopies, hrows, hgran, hlaced, hgone, hstay, hhart⟩ :=
    stopPart_spec (s := modPart s p (resetRecord s)) (p := p) hthr hharts heye
  rw [← resetPart_eq] at hmem hparts hforeign hteam hcopies hrows hgran hlaced hgone hstay hhart
  have hpart : ∀ r, part t r = part (modPart s p (resetRecord s)) r := fun r => by rw [part, show t.parts = _ from hparts]; rfl
  have hp : part t p = resetRecord s (part s p) := (hpart p).trans (part_modPart_same ..)
  rw [hp]
  refine ⟨hmem, rfl, rfl, rfl, rfl, rfl, fun r hr => (hpart r).trans (part_modPart_other _ _ hr), rfl, hforeign, hteam, hcopies, hrows,
    hgran, hlaced, fun j hj hk => hgone j (lt_cobbler_of_isSimt hj) ?_, fun j hj hk => hstay j (lt_cobbler_of_isSimt hj) ?_,
    fun j hj => ?_⟩
  · rw [partKey_simt _ hj]
    exact decide_eq_true hk
  · rw [partKey_simt _ hj]
    exact decide_eq_false hk
  · have hh : hart t j = if partHart s p j then { part := p } else hart s j := hhart j hj
    have hlt := lt_cobbler_of_isHart hj
    split
    · next hk => exact ⟨by rw [hh, if_pos hk], hgone j hlt ((partKey_hart _ hj).trans hk)⟩
    · next hk => exact ⟨by rw [hh, if_neg hk], hstay j hlt ((partKey_hart _ hj).trans (Bool.eq_false_iff.2 hk))⟩

/-! The drain (R39). -/

theorem ownedBy_other {s : State} {p r a : Nat} (hr : r ≠ p) (h : ownedBy s r a = true) : ownedBy s p a = false := by
  simp only [ownedBy, Bool.and_eq_true, decide_eq_true_eq] at h ⊢
  obtain ⟨-, h⟩ := h
  simp [h, hr]

/-- The partition's record as its drain ends. -/
def drainedRecord (q : Partition) : Partition := { q.bare with drained := true, ethrq := q.ethrq }

theorem scrub_spec (s : State) (p : Nat) :
    (scrub s p).mem = s.mem ∧ part (scrub s p) p = drainedRecord (part s p) ∧ (∀ r, r ≠ p → part (scrub s p) r = part s r) ∧
      (scrub s p).tlb = s.tlb.filter (fun e => e.part ≠ p) ∧ (scrub s p).threads = s.threads ∧ (scrub s p).harts = s.harts ∧
      (scrub s p).laced = s.laced ∧ (scrub s p).granules = s.granules ∧
      (scrub s p).posted = s.posted.filter fun x => !ownedBy s p x.at_ :=
  ⟨rfl, part_modPart_same s p drainedRecord, fun _ hr => part_modPart_other s drainedRecord hr, rfl, rfl, rfl, rfl, rfl, rfl⟩

/-- Nothing of a partition is in flight once its requests are discarded, and what is in flight for another one stays (R39). -/
theorem inFlight_discarded {s t : State} {p : Nat} (hl : t.laced = s.laced.filter fun l => l.part ≠ p)
    (hp : t.posted = s.posted.filter fun x => !ownedBy s p x.at_) (hg : t.granules = s.granules) :
    inFlight t p = false ∧ ∀ r, r ≠ p → inFlight t r = inFlight s r := by
  have hown : ∀ r a, ownedBy t r a = ownedBy s r a := fun r a => by rw [ownedBy, granule, hg]; rfl
  refine ⟨?_, fun r hr => ?_⟩
  · simp only [inFlight, hl, hp, hown, Bool.or_eq_false_iff, List.any_eq_false, List.mem_filter]
    exact ⟨fun l h => by simpa using h.2, fun x h => by simpa using h.2⟩
  · have hlace : (t.laced.any fun l => l.part = r) = s.laced.any fun l => l.part = r := by
      rw [hl, List.any_filter]
      exact congrArg (s.laced.any ·) (funext fun l => by by_cases h : l.part = r <;> simp [h, hr])
    have hpost : (t.posted.any fun x => ownedBy t r x.at_) = s.posted.any fun x => ownedBy s r x.at_ := by
      simp only [hown]
      rw [hp, List.any_filter]
      refine congrArg (s.posted.any ·) (funext fun x => ?_)
      cases h : ownedBy s r x.at_ with
      | false => simp
      | true => simp [ownedBy_other hr h]
    rw [inFlight, inFlight, hlace, hpost]

theorem exec_resetDrainEnd {s : State} {p : Nat} (h3 : (part s p).state = 3) (hd : (part s p).drained = false)
    (hf : inFlight s p = false) : exec (.resetDrainEnd p) s = .next (scrub s p) := by
  simp [exec, execResetDrainEnd, h3, hd, hf]

theorem exec_resetDrainEnd_idle {s : State} {p : Nat} (h : (part s p).state ≠ 3 ∨ (part s p).drained = true ∨ inFlight s p = true) :
    exec (.resetDrainEnd p) s = .next s := by
  rcases h with h | h | h <;> simp [exec, execResetDrainEnd, h]

/-- The state whose scrub the deadline of a drain begins (R39). -/
def deadlinePassed (s : State) (p : Nat) : State :=
  modPart { s with laced := s.laced.filter fun l => l.part ≠ p } p fun q => { q with dlate := true }

theorem exec_drainDeadline {s : State} {p : Nat} (h3 : (part s p).state = 3) (hd : (part s p).drained = false)
    (hf : inFlight s p = true) (hus : (part s p).resetUs + 1000 ≤ s.us) :
    exec (.drainDeadline p) s = .next (scrub (deadlinePassed s p) p) := by
  simp only [exec, execDrainDeadline, h3, hd, hf, hus]
  rfl

theorem exec_drainDeadline_idle {s : State} {p : Nat} (h : (part s p).state ≠ 3 ∨ s.us < (part s p).resetUs + 1000) :
    exec (.drainDeadline p) s = .next s := by
  rcases h with h | h
  · simp [exec, execDrainDeadline, h]
  · simp [exec, execDrainDeadline, Nat.not_le.2 h]

/-- R39: a drain whose deadline has passed ends, with DLATE. -/
theorem drainDeadline_spec (s : State) (p : Nat) :
    let t := scrub (deadlinePassed s p) p
    t.mem = s.mem ∧ (part t p).dlate = true ∧ (part t p).drained = true ∧ (part t p).state = (part s p).state ∧
      inFlight t p = false ∧ ∀ r, r ≠ p → part t r = part s r ∧ inFlight t r = inFlight s r := by
  intro t
  obtain ⟨hmem, hp, hother, -, -, -, hlaced, hgran, hposted⟩ := scrub_spec (deadlinePassed s p) p
  have hmine : part (deadlinePassed s p) p = { part s p with dlate := true } := part_modPart_same ..
  obtain ⟨hnone, hsame⟩ := inFlight_discarded (s := s) (t := t) hlaced hposted hgran
  rw [show part t p = _ from hp, hmine]
  exact ⟨hmem, rfl, rfl, rfl, hnone, fun r hr => ⟨(hother r hr).trans (part_modPart_other _ _ hr), hsame r hr⟩⟩

/-! The wipe (R39). -/

theorem byte_filter_keys (q : Nat → Bool) (m : List Host.Cell) (a : Nat) :
    Memory.byte (m.filter fun c => q c.1) a = if q a then Memory.byte m a else 0 := by
  rw [Memory.byte, mget, mget?_filter_keys]
  split <;> rfl

theorem exec_wipeComplete_idle {s : State} {p : Nat} (h : (part s p).state ≠ 3 ∨ (part s p).drained = false) :
    exec (.wipeComplete p) s = .next s := by
  rcases h with h | h <;> simp [exec, execWipeComplete, h]

/-- R39: a wipe leaves zero in the partition's ranges and nowhere else. -/
theorem wipeComplete_spec {s : State} {p : Nat} (h3 : (part s p).state = 3) (hd : (part s p).drained = true) :
    ∃ t, exec (.wipeComplete p) s = .next t ∧ part t p = { part s p with state := 4, done := true, ethrq := 0 } ∧
      (∀ r, r ≠ p → part t r = part s r) ∧ ∀ a, Memory.byte t.mem a = if ownedBy s p a = true then 0 else Memory.byte s.mem a := by
  have hx : ∃ u, exec (.wipeComplete p) s = .next (modPart u p fun q => { q with state := 4, done := true, ethrq := 0 }) ∧
      u.parts = s.parts ∧ u.mem = s.mem.filter fun c => !ownedBy s p c.1 := by
    simp only [exec, execWipeComplete, h3, hd]
    exact ⟨_, rfl, rfl, rfl⟩
  obtain ⟨u, hexec, hparts, hmem⟩ := hx
  have hpart : ∀ r, part u r = part s r := fun r => by rw [part, hparts]; rfl
  refine ⟨_, hexec, by rw [part_modPart_same, hpart], fun r hr => by rw [part_modPart_other _ _ hr, hpart], fun a => ?_⟩
  rw [modPart_mem, hmem, byte_filter_keys fun a => !ownedBy s p a]
  cases ownedBy s p a <;> rfl

/-- R39: the drain and the wipe of a partition that is being reset. -/
theorem drainAndWipe_spec (s : State) (p : Nat) :
    let q := part s p
    (q.state = 3 → q.drained = false → inFlight s p = false →
      ∃ t, exec (.resetDrainEnd p) s = .next t ∧ KeepsMemory s t ∧ part t p = { q.bare with drained := true, ethrq := q.ethrq } ∧
        (∀ r, r ≠ p → part t r = part s r) ∧ t.tlb = s.tlb.filter (fun e => e.part ≠ p) ∧ t.threads = s.threads ∧ t.harts = s.harts) ∧
    (q.state ≠ 3 ∨ q.drained = true ∨ inFlight s p = true → exec (.resetDrainEnd p) s = .next s) ∧
    (q.state = 3 → q.drained = false → inFlight s p = true → q.resetUs + 1000 ≤ s.us →
      ∃ t, exec (.drainDeadline p) s = .next t ∧ KeepsMemory s t ∧ (part t p).dlate = true ∧ (part t p).drained = true ∧
        (part t p).state = 3 ∧ inFlight t p = false ∧ ∀ r, r ≠ p → part t r = part s r ∧ inFlight t r = inFlight s r) ∧
    (q.state ≠ 3 ∨ s.us < q.resetUs + 1000 → exec (.drainDeadline p) s = .next s) ∧
    (q.state = 3 → q.drained = true → ∃ t, exec (.wipeComplete p) s = .next t ∧ part t p = { q with state := 4, done := true, ethrq := 0 } ∧
      (∀ r, r ≠ p → part t r = part s r) ∧
      ∀ a, Memory.byte t.mem a = if ownedBy s p a = true then 0 else Memory.byte s.mem a) ∧
    (q.state ≠ 3 ∨ q.drained = false → exec (.wipeComplete p) s = .next s) := by
  refine ⟨fun h3 hd hf => ⟨_, exec_resetDrainEnd h3 hd hf, ?_⟩, exec_resetDrainEnd_idle,
    fun h3 hd hf hus => ⟨_, exec_drainDeadline h3 hd hf hus, ?_⟩, exec_drainDeadline_idle, wipeComplete_spec, exec_wipeComplete_idle⟩
  · obtain ⟨hmem, hp, hother, htlb, hthr, hharts, -⟩ := scrub_spec s p
    exact ⟨keepsMemory_of_mem hmem, hp, hother, htlb, hthr, hharts⟩
  · obtain ⟨hmem, hlate, hdrained, hst, hrest⟩ := drainDeadline_spec s p
    exact ⟨keepsMemory_of_mem hmem, hlate, hdrained, hst.trans h3, hrest⟩

end Sys2Proof.Machine
end

section
/-! What `Obligations.Partitions` rests on: a free choice of the hardware, of which nothing can be proved. -/

namespace Sys2Proof.Machine

/-- Where evictions write their line alone, all of `Obligations.Partitions` holds. -/
theorem partitions_of_evictsInLine (he : ∀ s line, EvictsInLine s line) : Obligations.Partitions := by
  refine ⟨fun s k v hk h16 h11 => ?_, drainAndWipe_spec, fun s r => homeRequest_spec s r (he s _)⟩
  have hc : ∀ n, bits v 6 4 = n → configureHeld s k v = none → Commands s k v n := fun n hn hh => ⟨hk, h16, h11, hn, hh⟩
  have hother : ∀ n, n ≠ 4 → bits v 6 4 = n → Commands s k v n := fun n hne hn => hc n hn (configureHeld_other s k (hn ▸ hne))
  refine ⟨fun i n hi hn hh => command_refused (hc n hn hh) hi, fun hn hh => command_configure (hc 4 hn hh),
    fun hn hst h hs => command_start (hother 1 (by decide) hn) hst, fun hn hst hthr hharts heye => ?_,
    fun hn => command_release (hother 3 (by decide) hn), rtbaseWrite_spec hk⟩
  obtain ⟨hmem, hrest⟩ := resetPart_spec (s := partctlMarked s v) (p := bits v 2 0) hthr hharts heye
  exact ⟨_, exec_accepted (hother 2 (by decide) hn) (by simp) (partCommand_reset (s := partctlMarked s v) hst), keepsMemory_of_mem hmem, hrest⟩

/-- An eviction of the stray copy writes a byte of the next line, whatever else the package holds. -/
theorem byte_evict_strayCopy {s : State} (hl : s.l1 = [strayCopy]) (h : Config.freeBool s.freeIdx = true) :
    Memory.byte (freeEvict s 0).mem 64 = 1 := by
  have hev : freeEvict s 0 = dropL1 (writeBackLine (freshBool s).2 strayCopy) 0 0 := by
    rw [freeEvict_eq, hl]
    exact if_pos h
  rw [hev]
  exact byte_writeBackLine_dirty (freshBool s).2 strayCopy (o := 64) (by decide)

/-- A write of no bytes at address 0 that is served changes byte 64 where it evicts the stray copy. -/
theorem freeBool_false_of_kept {s : State} {r : HomeReq} (hl : s.l1 = [strayCopy]) (hpa : r.pa = 0) (hd : r.data = []) (hw : r.write = true)
    (hr : inRanges s r.tag r.pa (requestSize r) = true) (hh : lineHeld s r.key r.pa (requestSize r) = false)
    (hm : Memory.byte s.mem 64 = 0) (hkeep : Memory.byte (atHome s r).mem 64 = Memory.byte s.mem 64) :
    Config.freeBool s.freeIdx = false := by
  refine Bool.eq_false_iff.2 fun hev => ?_
  have h1 : Memory.byte (atHome s r).mem 64 = 1 := by
    rw [atHome_served hr hh hw, hpa, hd]
    exact byte_evict_strayCopy hl hev
  rw [hkeep, hm] at h1
  exact absurd h1 (by decide)

/-- The statement's frame of a write at its home, at a state whose copy reaches past its line, says that the free choice is no eviction. -/
theorem freeBool_false_of_partitions (h : Obligations.Partitions) (i : Nat) : Config.freeBool i = false := by
  obtain ⟨-, -, hreq⟩ := h
  obtain ⟨-, -, hwrite⟩ := hreq (strayState i) emptyWrite
  obtain ⟨t, ht, -, hkeep, -⟩ := hwrite rfl rfl rfl
  cases ht
  exact freeBool_false_of_kept (s := strayState i) (r := emptyWrite) rfl rfl rfl rfl rfl rfl rfl (hkeep 64 (by decide) (.inl (by decide)))

/-- The obligation O56 as stated is neither provable nor refutable: it says that the hardware never makes the optional move of
`Config.freeBool` (log 3), a constant without a body. Everything that it says of the partition manager holds
(`partitions_of_evictsInLine`); its clause on a request at its home bounds what an eviction of the line's copies writes by the line, and a
state may list a copy with a dirty byte outside its line. `DirtyInLine` is the hypothesis that is missing (`evictsInLine_of_dirtyInLine`,
`homeRequest_spec`). -/
theorem partitions_iff_never_evicts : Obligations.Partitions ↔ ∀ i, Config.freeBool i = false :=
  ⟨freeBool_false_of_partitions, fun h => partitions_of_evictsInLine fun s line a _ => by rw [freeEvict_mem_of_never h]⟩

end Sys2Proof.Machine
end

section
/-! Ethernet ports: a frame's way to its queue (R40, R454, R481, R487-R489). -/

namespace Sys2Proof.Machine

theorem ethPort_modEth_other (s : State) {n j : Nat} (f : EthPort → EthPort) (h : j ≠ n) : ethPort (modEth s n f) j = ethPort s j :=
  mget_mset_other ({} : EthPort) s.eth _ h

theorem overlaps_false {a n b m : Nat} : overlaps a n b m = false ↔ b + m ≤ a ∨ a + n ≤ b := by
  simp only [overlaps, Bool.and_eq_false_iff, decide_eq_false_iff_not, Nat.not_lt]

/-- Bytes among others without an uncorrectable error have none. -/
theorem poisoned_sub {s : State} {a n b m : Nat} (h : poisoned s a n = false) (hab : a ≤ b) (hbn : b + m ≤ a + n) :
    poisoned s b m = false := by
  simp only [poisoned, List.any_eq_false, Bool.not_eq_true, overlaps_false] at h ⊢
  intro l hl
  have := h l hl
  omega

/-- A number that hardware adds to a doubleword which it reaches (R420, R481). -/
theorem postAdd_ready {s : State} {die a : Nat} (n : Word) (hc : postClear s die a 8 = true) (hp : poisoned s a 8 = false) :
    postAdd s die a n = wrWord s a (rdWord s a + n) := by
  have hand : (rdWord s a &&& 0xFFFF_FFFF_FFFF_FFFF ||| 0) + n = rdWord s a + n := by
    rw [show (0xFFFF_FFFF_FFFF_FFFF : Word) = BitVec.allOnes 64 from rfl, BitVec.and_allOnes]
    exact congrArg (· + n) BitVec.or_zero
  simp only [postAdd, post, postReady, postBad, performPost, PostKind.size, hc, hp, Bool.not_false, Bool.and_self, if_true, hand]

/-! Frames that are dropped and frames that wait. -/

/-- A frame is dropped and counted at the queue's record (R488). -/
def FrameDropped (s : State) (qa : Nat) (t : State) : Prop :=
  rdWord t (qa + 0x28) = rdWord s (qa + 0x28) + 1 ∧ t.eth = s.eth ∧
    ∀ x, x < qa + 0x28 ∨ qa + 0x30 ≤ x → Memory.byte t.mem x = Memory.byte s.mem x

theorem byte_wrWord_outside (s : State) (a : Nat) (v : Word) {x : Nat} (h : x < a ∨ a + 8 ≤ x) :
    Memory.byte (wrWord s a v).mem x = Memory.byte s.mem x := byte_wrBytes_outside s hwKey a _ (by rwa [toBytes_length])

theorem ethDrop_spec {s : State} {n qa : Nat} (hc : postClear s (ethDie n) (qa + 0x28) 8 = true) (hp : poisoned s qa 64 = false) :
    FrameDropped s qa (ethDrop s n qa) := by
  rw [ethDrop, postAdd_ready 1 hc (poisoned_sub hp (by omega) (by omega))]
  exact ⟨rdWord_wrWord_same .., rfl, fun x hx => byte_wrWord_outside s _ _ (by omega)⟩

/-- A frame waits in its port's buffer (R489). -/
def FrameWaits (s : State) (n : Nat) (f : EthFrame) (t : State) : Prop :=
  KeepsMemory s t ∧ (ethPort t n).buffer = [f] ∧ ∀ j, j ≠ n → ethPort t j = ethPort s j

theorem ethHold_empty {s : State} {n : Nat} (qa : Nat) {f : EthFrame} (hb : (ethPort s n).buffer = []) (hf : f.bytes.length ≤ 9216) :
    ethHold s n qa f = modEth s n fun x => { x with buffer := x.buffer ++ [f] } := by
  rw [ethHold, hb, if_pos]
  simp only [List.map_nil, List.sum_nil]
  omega

theorem ethHold_waits {s u : State} {n : Nat} (qa : Nat) {f : EthFrame} (hm : u.mem = s.mem) (he : u.eth = s.eth)
    (hb : (ethPort s n).buffer = []) (hf : f.bytes.length ≤ 9216) : FrameWaits s n f (ethHold u n qa f) := by
  have hport : ∀ j, ethPort u j = ethPort s j := fun j => by rw [ethPort, he]; rfl
  rw [ethHold_empty qa (by rw [hport, hb]) hf]
  refine ⟨keepsMemory_of_mem hm, ?_, fun j hj => (ethPort_modEth_other _ _ hj).trans (hport j)⟩
  rw [ethPort_modEth_same, hport, hb]
  rfl

theorem eccRecord_rest (s : State) (p pa : Nat) : (eccRecord s p pa).mem = s.mem ∧ (eccRecord s p pa).eth = s.eth := by
  unfold eccRecord
  dsimp only
  split <;> exact ⟨rfl, rfl⟩

/-! The queue's record. -/

/-- The record of a queue can be read (R40, R420, R454, R481). -/
def QueueReads (s : State) (n p qa : Nat) : Prop := (part s p).state ≠ 3 ∧ poisoned s qa 64 = false ∧ ethOpen s n qa 64 = true

section
variable {s : State} {n p : Nat} {f : EthFrame}

/-- A frame at a queue whose record lies in its owner's ranges. -/
theorem ethTake_eq (ho : ethOwner s n = some p) (hr : inRanges s p (ethRec s p n f.queue) 64 = true) :
    ethTake s n f =
      let qa := ethRec s p n f.queue
      let l := rdWords s qa 8
      if (part s p).state = 3 then ethDrop s n qa
      else if poisoned s qa 64 then ethHold (eccRecord s p qa) n qa f
      else if !ethOpen s n qa 64 then ethHold s n qa f
      else if !ethOn l then ethDrop s n qa
      else if ethSlot l then ethSlotted s n p qa f else ethFull s n qa f l := by
  rw [ethTake, ho]
  dsimp only
  rw [hr, Bool.not_true, if_neg Bool.false_ne_true]

theorem ethTake_reset (ho : ethOwner s n = some p) (hr : inRanges s p (ethRec s p n f.queue) 64 = true) (h3 : (part s p).state = 3) :
    ethTake s n f = ethDrop s n (ethRec s p n f.queue) := by
  rw [ethTake_eq ho hr]
  exact if_pos h3

theorem ethTake_unread (ho : ethOwner s n = some p) (hr : inRanges s p (ethRec s p n f.queue) 64 = true) (h3 : (part s p).state ≠ 3)
    (h : poisoned s (ethRec s p n f.queue) 64 = true ∨ ethOpen s n (ethRec s p n f.queue) 64 = false)
    (hb : (ethPort s n).buffer = []) (hf : f.bytes.length ≤ 9216) : FrameWaits s n f (ethTake s n f) := by
  rw [ethTake_eq ho hr]
  dsimp only
  rw [if_neg h3]
  split
  · obtain ⟨hm, he⟩ := eccRecord_rest s p (ethRec s p n f.queue)
    exact ethHold_waits _ hm he hb hf
  · next hp =>
    rw [h.resolve_left hp, Bool.not_false, if_pos rfl]
    exact ethHold_waits _ rfl rfl hb hf

theorem ethTake_read (ho : ethOwner s n = some p) (hr : inRanges s p (ethRec s p n f.queue) 64 = true)
    (hq : QueueReads s n p (ethRec s p n f.queue)) :
    ethTake s n f =
      let qa := ethRec s p n f.queue
      let l := rdWords s qa 8
      if !ethOn l then ethDrop s n qa else if ethSlot l then ethSlotted s n p qa f else ethFull s n qa f l := by
  obtain ⟨h3, hp, hopen⟩ := hq
  rw [ethTake_eq ho hr]
  dsimp only
  rw [if_neg h3, hp, hopen, if_neg Bool.false_ne_true, Bool.not_true, if_neg Bool.false_ne_true]

theorem ethTake_off (ho : ethOwner s n = some p) (hr : inRanges s p (ethRec s p n f.queue) 64 = true)
    (hq : QueueReads s n p (ethRec s p n f.queue)) (hon : ethOn (rdWords s (ethRec s p n f.queue) 8) = false) :
    ethTake s n f = ethDrop s n (ethRec s p n f.queue) := by
  rw [ethTake_read ho hr hq]
  dsimp only
  rw [hon, Bool.not_false, if_pos rfl]

theorem ethTake_slotted (ho : ethOwner s n = some p) (hr : inRanges s p (ethRec s p n f.queue) 64 = true)
    (hq : QueueReads s n p (ethRec s p n f.queue)) (hon : ethOn (rdWords s (ethRec s p n f.queue) 8) = true)
    (hs : ethSlot (rdWords s (ethRec s p n f.queue) 8) = true) :
    ethTake s n f = ethSlotted s n p (ethRec s p n f.queue) f := by
  rw [ethTake_read ho hr hq]
  dsimp only
  rw [hon, hs, Bool.not_true, if_neg Bool.false_ne_true, if_pos rfl]

theorem ethTake_full (ho : ethOwner s n = some p) (hr : inRanges s p (ethRec s p n f.queue) 64 = true)
    (hq : QueueReads s n p (ethRec s p n f.queue)) (hon : ethOn (rdWords s (ethRec s p n f.queue) 8) = true)
    (hs : ethSlot (rdWords s (ethRec s p n f.queue) 8) = false) :
    ethTake s n f = ethFull s n (ethRec s p n f.queue) f (rdWords s (ethRec s p n f.queue) 8) := by
  rw [ethTake_read ho hr hq]
  dsimp only
  rw [hon, hs, Bool.not_true, if_neg Bool.false_ne_true, if_neg Bool.false_ne_true]

end

/-! A full queue (R489). -/

theorem ethFull_drops {s : State} {n qa : Nat} {f : EthFrame} {l : List Word} (h : bit (dw l 2) 62 = true) :
    ethFull s n qa f l = ethDrop s n qa := if_pos h

/-- A port's first frame for a full queue waits, and flow control is sent. -/
theorem ethFull_holds {s : State} {n : Nat} (qa : Nat) {f : EthFrame} {l : List Word} (h : bit (dw l 2) 62 = false)
    (hp : (ethPort s n).paused = []) (hb : (ethPort s n).buffer = []) (hf : f.bytes.length ≤ 9216) :
    FrameWaits s n f (ethFull s n qa f l) ∧
      (ethPort (ethFull s n qa f l) n).fcSent = (ethPort s n).fcSent ++ [(fcCode f, 0xFFFF)] := by
  have hx : ethFull s n qa f l = ethHold (modEth s n fun _ =>
      { ethPort s n with paused := [(fcCode f, f.queue, s.us)], fcSent := (ethPort s n).fcSent ++ [(fcCode f, 0xFFFF)] }) n qa f := by
    simp [ethFull, h, hp]
  rw [hx, ethHold_empty qa (by rw [ethPort_modEth_same]; exact hb) hf]
  refine ⟨⟨fun _ => rfl, ?_, fun j hj => ?_⟩, ?_⟩
  · rw [ethPort_modEth_same, ethPort_modEth_same]
    exact congrArg (· ++ [f]) hb
  · rw [ethPort_modEth_other _ _ hj, ethPort_modEth_other _ _ hj]
  · rw [ethPort_modEth_same, ethPort_modEth_same]

theorem fcCode_of (tagged : Bool) (pcp udp : Nat) (bs : List Byte) :
    fcCode { queue := 8 * (if tagged then pcp % 8 else 0) + udp % 8, tagged := tagged, bytes := bs } =
      if tagged then pcp % 8 else 8 := by
  cases tagged with
  | false => rfl
  | true => simp only [fcCode, if_true]; omega

end Sys2Proof.Machine
end

section
/-! Ethernet ports: slots that are completed, delivery, transmission and flow control (R487-R490). -/

namespace Sys2Proof.Machine

/-! A slot is completed (R488, R490). -/

theorem ethCredit_none (s : State) (p n : Nat) : ethCredit s p 0 n = s := by
  unfold ethCredit
  split
  · exact if_pos rfl
  · rfl

/-- The slot at `a` of the queue with the record at `qa` is completed with the doubleword `v`: the two doublewords that say so differ. -/
def SlotDone (s : State) (qa a : Nat) (v d : Word) (t : State) : Prop :=
  rdWord t (a + 8) = v ∧ rdWord t (qa + 0x20) = d + 1 ∧ t.teams = s.teams ∧
    ∀ x, (x < a + 8 ∨ a + 16 ≤ x) → (x < qa + 0x20 ∨ qa + 0x28 ≤ x) → Memory.byte t.mem x = Memory.byte s.mem x

/-- The memory that completes a slot. -/
def slotWritten (s : State) (qa a : Nat) (v d : Word) : State := wrWord (wrWord s (a + 8) v) (qa + 0x20) (d + 1)

theorem slotWritten_done (s : State) {qa a : Nat} (v d : Word) (hap : overlaps a 16 qa 64 = false) :
    SlotDone s qa a v d (slotWritten s qa a v d) := by
  rw [overlaps_false] at hap
  refine ⟨?_, rdWord_wrWord_same .., rfl, fun x hx hx' => ?_⟩
  · rw [slotWritten, rdWord_wrWord_apart _ _ _ (by omega), rdWord_wrWord_same]
  · rw [slotWritten, byte_wrWord_outside _ _ _ (by omega), byte_wrWord_outside _ _ _ (by omega)]

/-- A slot without a sync reference brings no credit. -/
theorem ethDone_eq (s : State) (p qa : Nat) {l : List Word} (valid : Bool) (n : Nat) (h1 : valid = true → dw l 1 = 0) :
    ethDone s p qa l valid n = slotWritten s qa (slotAddr l) (w64 (b2n valid * 2 ^ 63 + n)) (dw l 4) := by
  cases valid with
  | false => rfl
  | true =>
    simp only [ethDone, if_true, h1 rfl, ethCredit_none]
    rfl

/-! Delivery (R488). -/

/-- The slot of a queue can be read and written, with its buffer (R420, R454, R481). -/
def SlotReads (s : State) (n p a len : Nat) : Prop :=
  ethOpen s n a 16 = true ∧ ethOpen s n (rdWord s a).toNat len = true ∧ inRanges s p a 16 = true ∧ poisoned s a 16 = false

theorem ethSlotted_waits {s : State} {n p qa : Nat} {f : EthFrame}
    (h : ¬ (ethOpen s n (slotAddr (rdWords s qa 8)) 16 = true ∧
        ethOpen s n (rdWord s (slotAddr (rdWords s qa 8))).toNat f.bytes.length = true) ∨
      (inRanges s p (slotAddr (rdWords s qa 8)) 16 = true ∧ poisoned s (slotAddr (rdWords s qa 8)) 16 = true))
    (hb : (ethPort s n).buffer = []) (hf : f.bytes.length ≤ 9216) : FrameWaits s n f (ethSlotted s n p qa f) := by
  unfold ethSlotted
  dsimp only
  split
  · exact ethHold_waits _ rfl rfl hb hf
  · next hopen =>
    simp only [hb, List.any_nil, Bool.false_or, Bool.or_eq_true, Bool.not_eq_true', not_or, Bool.not_eq_false] at hopen
    obtain ⟨hr, hp⟩ := h.resolve_left (not_not_intro hopen)
    obtain ⟨hm, he⟩ := eccRecord_rest s p (slotAddr (rdWords s qa 8))
    rw [hr, hp, Bool.and_self, if_pos rfl]
    exact ethHold_waits _ hm he hb hf

theorem ethSlotted_delivers {s : State} {n p qa : Nat} {f : EthFrame} (hb : (ethPort s n).buffer = [])
    (h : SlotReads s n p (slotAddr (rdWords s qa 8)) f.bytes.length) : ethSlotted s n p qa f = ethDeliver s n p qa f.bytes := by
  obtain ⟨ha, hbuf, hr, hp⟩ := h
  simp [ethSlotted, hb, ha, hbuf, hr, hp]

/-- A frame that its slot's buffer cannot take is dropped. -/
theorem ethDeliver_long {s : State} {n p qa : Nat} {bs : List Byte} (hr : inRanges s p (slotAddr (rdWords s qa 8)) 16 = true)
    (hlen : bits (rdWord s (slotAddr (rdWords s qa 8) + 8)) 13 0 < bs.length) : ethDeliver s n p qa bs = ethDrop s n qa := by
  simp [ethDeliver, hr, hlen]

theorem ethDeliver_fits {s : State} {n p qa : Nat} {bs : List Byte} (hr : inRanges s p (slotAddr (rdWords s qa 8)) 16 = true)
    (hlen : bs.length ≤ bits (rdWord s (slotAddr (rdWords s qa 8) + 8)) 13 0)
    (hbuf : inRanges s p (rdWord s (slotAddr (rdWords s qa 8))).toNat bs.length = true) (h1 : dw (rdWords s qa 8) 1 = 0) :
    ethDeliver s n p qa bs = slotWritten (wrBytes s hwKey (rdWord s (slotAddr (rdWords s qa 8))).toNat bs) qa (slotAddr (rdWords s qa 8))
      (w64 (2 ^ 63 + bs.length)) (dw (rdWords s qa 8) 4) := by
  have hdone := ethDone_eq (wrBytes s hwKey (rdWord s (slotAddr (rdWords s qa 8))).toNat bs) p qa true bs.length fun _ => h1
  simp only [ethDeliver, hr, Nat.not_lt.2 hlen, hbuf, Bool.not_true, Bool.false_eq_true, if_false, hdone]
  simp [b2n]

/-- R488: a frame lies at its slot's buffer, and the slot is completed. -/
theorem frameWritten_spec (s : State) {qa a buf : Nat} {bs : List Byte} (v d : Word) (hap : overlaps a 16 qa 64 = false)
    (hbq : overlaps buf bs.length qa 64 = false) (hba : overlaps buf bs.length a 16 = false) :
    let t := slotWritten (wrBytes s hwKey buf bs) qa a v d
    (∀ i < bs.length, Memory.byte t.mem (buf + i) = bs.getD i 0) ∧
      rdWord t (a + 8) = v ∧ rdWord t (qa + 0x20) = d + 1 ∧ t.teams = s.teams ∧ t.eth = s.eth ∧
      ∀ x, (x < buf ∨ buf + bs.length ≤ x) → (x < a + 8 ∨ a + 16 ≤ x) → (x < qa + 0x20 ∨ qa + 0x28 ≤ x) →
        Memory.byte t.mem x = Memory.byte s.mem x := by
  obtain ⟨hv, hd, hteams, hrest⟩ := slotWritten_done (wrBytes s hwKey buf bs) v d hap
  rw [overlaps_false] at hbq hba
  refine ⟨fun i hi => ?_, hv, hd, hteams, rfl, fun x hx ha hq => (hrest x ha hq).trans (byte_wrBytes_outside s _ _ _ hx)⟩
  rw [hrest _ (by omega) (by omega), List.getD_eq_getElem _ _ hi]
  exact Memory.byte_write_inside _ _ _ hi

/-! Service of a port (R489). -/

/-- A port whose paused queues are still full, and whose frames all wait for them, does nothing. -/
theorem serveEth_idle {s : State} {n : Nat} (hp : ∀ y ∈ (ethPort s n).paused, ethFree s n y.2.1 = false)
    (hb : ∀ f ∈ (ethPort s n).buffer, ∃ y ∈ (ethPort s n).paused, y.2.1 = f.queue) : serveEth s n = s := by
  have hgo : (ethPort s n).paused.filter (fun y => ethFree s n y.2.1) = [] :=
    List.filter_eq_nil_iff.2 fun y hy => by simp [hp y hy]
  rw [serveEth]
  dsimp only
  rw [hgo, if_pos]
  simpa using hb

theorem exec_frameReceive {s : State} {n : Nat} (tagged : Bool) (pcp udp : Nat) {bs : List Byte} (hp : (ethPort s n).paused = [])
    (hb : (ethPort s n).buffer = []) (hlen : bs.length ≤ 9216) :
    exec (.frameReceive n tagged pcp udp bs) s =
      .next (ethTake s n { queue := 8 * (if tagged then pcp % 8 else 0) + udp % 8, tagged := tagged, bytes := bs }) := by
  have hserve : serveEth s n = s := serveEth_idle (by simp [hp]) (by simp [hb])
  simp only [exec, execFrameReceive, Nat.not_lt.2 hlen, if_false, hserve]

theorem exec_frameReceive_ignored {s : State} {n : Nat} (tagged : Bool) (pcp udp : Nat) {bs : List Byte} (hp : (ethPort s n).paused = [])
    (hb : (ethPort s n).buffer = []) (h : 9216 < bs.length ∨ ethOwner s n = none) :
    exec (.frameReceive n tagged pcp udp bs) s = .next s := by
  by_cases hlen : 9216 < bs.length
  · simp [exec, execFrameReceive, hlen]
  · rw [exec_frameReceive tagged pcp udp hp hb (Nat.not_lt.1 hlen), ethTake, h.resolve_left hlen]

/-- R489: flow control is repeated for the queues that are still full. -/
theorem pfcRepeat_spec (s : State) (n q : Nat) (hp : ∀ y ∈ (ethPort s n).paused, ethFree s n y.2.1 = false)
    (hb : ∀ f ∈ (ethPort s n).buffer, ∃ y ∈ (ethPort s n).paused, y.2.1 = f.queue) :
    ∃ t, exec (.pfcRepeat n q) s = .next t ∧ t = { s with eth := t.eth } ∧ (ethPort t n).buffer = (ethPort s n).buffer ∧
      (ethPort t n).fcSent = (ethPort s n).fcSent ++
        ((ethPort s n).paused.filter fun y => y.2.1 = q && y.2.2 + 2 ≤ s.us).map fun y => (y.1, 0xFFFF) := by
  have hx : exec (.pfcRepeat n q) s = execPfcRepeat n q s := rfl
  rw [hx, execPfcRepeat, serveEth_idle hp hb]
  exact ⟨_, rfl, rfl, by rw [ethPort_modEth_same], by rw [ethPort_modEth_same]⟩

end Sys2Proof.Machine
end

section
/-! Ethernet transmission, the requests of PCIe functions (R490, R491), and what `Obligations.EthernetAndDma` rests on. -/

namespace Sys2Proof.Machine

/-! A frame that a port sends (R490). -/

theorem exec_transmitFrame_idle {s : State} {n q : Nat} (h : ethOwner s n = none ∨ q < 64 ∨ 128 ≤ q) :
    exec (.transmitFrame n q) s = .next s := by
  show execTransmitFrame n q s = .next s
  unfold execTransmitFrame
  split
  · rfl
  · next ho =>
    rcases h with h | h | h
    · rw [ho] at h
      exact nomatch h
    · simp [h]
    · simp [h]

/-- A transmit queue whose record and slot can be read sends the slot's frame or completes the slot. -/
theorem exec_transmitFrame {s : State} {n p q : Nat} (ho : ethOwner s n = some p) (h64 : 64 ≤ q) (h128 : q < 128)
    (h3 : (part s p).state ≠ 3) (hr : inRanges s p (ethRec s p n q) 64 = true) (hp : poisoned s (ethRec s p n q) 64 = false) :
    exec (.transmitFrame n q) s =
      let qa := ethRec s p n q
      let l := rdWords s qa 8
      let a := slotAddr l
      let buf := (rdWord s a).toNat
      let len := bits (rdWord s (a + 8)) 13 0
      .next (if !ethOpen s n qa 64 then s
      else if !ethOn l || !ethSlot l then s
      else if !inRanges s p a 16 then ethBlocked s p a
      else if poisoned s a 16 then eccRecord s p a
      else if !ethOpen s n a 16 || !ethOpen s n buf len then s
      else if len < 60 || 9216 < len then ethDone s p qa l false len
      else if !inRanges s p buf len then ethDone (ethBlocked s p buf) p qa l false len
      else if poisoned s buf len then eccRecord s p buf
      else ethDone (modEth s n fun x => { x with sent := x.sent ++ [rdBytes s buf len] }) p qa l true len) := by
  show execTransmitFrame n q s = _
  simp [execTransmitFrame, ho, Nat.not_lt.2 h64, Nat.not_le.2 h128, h3, hr, hp]

section
variable {s : State} {n p q : Nat} {l : List Word} {a len : Nat}
variable (hl : l = rdWords s (ethRec s p n q) 8) (ha : a = slotAddr l) (hlen : len = bits (rdWord s (a + 8)) 13 0)
variable (ho : ethOwner s n = some p) (h64 : 64 ≤ q) (h128 : q < 128) (h3 : (part s p).state ≠ 3)
variable (hr : inRanges s p (ethRec s p n q) 64 = true) (hp : poisoned s (ethRec s p n q) 64 = false)
include hl ho h64 h128 h3 hr hp

theorem transmitFrame_off (h : ethOn l = false ∨ ethSlot l = false) : exec (.transmitFrame n q) s = .next s := by
  subst hl
  rw [exec_transmitFrame ho h64 h128 h3 hr hp]
  rcases h with h | h <;> simp [h]

include ha hlen

theorem transmitFrame_waits (h : ¬ (ethOpen s n (ethRec s p n q) 64 = true ∧ ethOpen s n a 16 = true ∧ ethOpen s n (rdWord s a).toNat len = true))
    (hra : inRanges s p a 16 = true) (hpa : poisoned s a 16 = false) : exec (.transmitFrame n q) s = .next s := by
  subst hlen ha hl
  rw [exec_transmitFrame ho h64 h128 h3 hr hp]
  dsimp only
  split
  · rfl
  · next hopen =>
    rw [Bool.not_eq_true', Bool.not_eq_false] at hopen
    split
    · rfl
    · rw [hra, hpa, Bool.not_true, if_neg Bool.false_ne_true, if_neg Bool.false_ne_true, if_pos]
      simpa only [hopen, true_and, not_and_or, Bool.not_eq_true, Bool.or_eq_true, Bool.not_eq_true'] using h

variable (hready : ethOpen s n (ethRec s p n q) 64 = true ∧ ethOpen s n a 16 = true ∧ ethOpen s n (rdWord s a).toNat len = true)
variable (hon : ethOn l = true) (hs : ethSlot l = true) (hra : inRanges s p a 16 = true) (hpa : poisoned s a 16 = false)
include hready hon hs hra hpa

/-- A slot of a length that no frame has is completed, and nothing is sent. -/
theorem transmitFrame_bad (hbad : len < 60 ∨ 9216 < len) :
    exec (.transmitFrame n q) s = .next (slotWritten s (ethRec s p n q) a (w64 len) (dw l 4)) := by
  subst hlen ha hl
  obtain ⟨h1, h2, h3'⟩ := hready
  rw [exec_transmitFrame ho h64 h128 h3 hr hp]
  simp [h1, h2, h3', hon, hs, hra, hpa, hbad, ethDone_eq, b2n]

/-- A slot's frame is sent, and the slot is completed. -/
theorem transmitFrame_good (h60 : 60 ≤ len) (h9216 : len ≤ 9216) (hrb : inRanges s p (rdWord s a).toNat len = true)
    (hpb : poisoned s (rdWord s a).toNat len = false) (hd : dw l 1 = 0) :
    exec (.transmitFrame n q) s = .next (slotWritten
      (modEth s n fun x => { x with sent := x.sent ++ [rdBytes s (rdWord s a).toNat len] }) (ethRec s p n q) a (w64 (2 ^ 63 + len)) (dw l 4)) := by
  subst hlen ha hl
  obtain ⟨h1, h2, h3'⟩ := hready
  rw [exec_transmitFrame ho h64 h128 h3 hr hp]
  simp [h1, h2, h3', hon, hs, hra, hpa, Nat.not_lt.2 h60, Nat.not_lt.2 h9216, hrb, hpb, ethDone_eq, hd, b2n]

end

/-- R490: a frame that is sent stands at its port, and its slot is completed. -/
theorem frameSent_spec (s : State) (n : Nat) {qa a : Nat} (bs : List Byte) (v d : Word) (hap : overlaps a 16 qa 64 = false) :
    let t := slotWritten (modEth s n fun x => { x with sent := x.sent ++ [bs] }) qa a v d
    SlotDone s qa a v d t ∧ (ethPort t n).sent = (ethPort s n).sent ++ [bs] := by
  obtain ⟨hv, hd, hteams, hrest⟩ := slotWritten_done (modEth s n fun x => { x with sent := x.sent ++ [bs] }) v d hap
  exact ⟨⟨hv, hd, hteams, hrest⟩, congrArg EthPort.sent (ethPort_modEth_same s n fun x => { x with sent := x.sent ++ [bs] })⟩

/-! A request of a PCIe function (R491). -/

/-- The partition that owns a function of a link. -/
def functionOwner (s : State) (link func : Nat) : Option Nat :=
  (List.range 8).find? fun p => (part s p).state ≠ 0 && (part s p).io.testBit (8 + 8 * link + func)

/-- A function's request in its owner's name. -/
def dmaRequest (p : Nat) (write : Bool) (pa : Nat) (data : List Byte) : HomeReq :=
  { tag := p, kind := .pcie, tid := 0, key := hwKey, write := write, pa := pa, va := 0, data := data, len := data.length }

theorem requestSize_dmaRequest (p : Nat) (write : Bool) (pa : Nat) (data : List Byte) :
    requestSize (dmaRequest p write pa data) = data.length := ite_self _

theorem exec_pcieDma_unowned {s : State} {link func : Nat} (write : Bool) (pa : Nat) (data : List Byte)
    (h : 2 ≤ link ∨ 8 ≤ func ∨ functionOwner s link func = none) : exec (.pcieDma link func write pa data) s = .next s := by
  show execPcieDma link func write pa data s = .next s
  unfold execPcieDma
  split
  · rfl
  · next hin =>
    rw [Bool.or_eq_true, decide_eq_true_eq, decide_eq_true_eq, not_or] at hin
    obtain ⟨hlink, hfunc⟩ := hin
    have hown := (h.resolve_left hlink).resolve_left hfunc
    rw [functionOwner] at hown
    rw [hown]

section
variable {s : State} {link func p : Nat} (write : Bool) {pa : Nat} (data : List Byte)
variable (hlink : link < 2) (hfunc : func < 8) (hown : functionOwner s link func = some p)
include hlink hfunc hown

theorem exec_pcieDma_owned : exec (.pcieDma link func write pa data) s =
    .next (if (part s p).state = 3 || !homeOpen s (pcieDie link) pa then s else atHome s (dmaRequest p write pa data)) := by
  show execPcieDma link func write pa data s = _
  rw [functionOwner] at hown
  rw [execPcieDma, if_neg (by simp [hlink, hfunc]), hown]
  rfl

theorem exec_pcieDma_waits (h : (part s p).state = 3 ∨ ¬ homeOpen s (pcieDie link) pa = true) :
    exec (.pcieDma link func write pa data) s = .next s := by
  rw [exec_pcieDma_owned write data hlink hfunc hown, if_pos]
  simpa using h

theorem exec_pcieDma_atHome (hopen : homeOpen s (pcieDie link) pa = true) (h3 : (part s p).state ≠ 3) :
    exec (.pcieDma link func write pa data) s = .next (atHome s (dmaRequest p write pa data)) := by
  rw [exec_pcieDma_owned write data hlink hfunc hown, if_neg]
  simp [h3, hopen]

end

/-- R30: a function's request outside its owner's ranges leaves a boundary record. -/
theorem dmaRequest_outside {s : State} {p : Nat} (write : Bool) {pa : Nat} (data : List Byte) (h : inRanges s p pa data.length = false) :
    atHome s (dmaRequest p write pa data) = errRecord s { kind := 0, part := p, req := 3, pa := pa, tid := 0 } := by
  rw [atHome_outside ((requestSize_dmaRequest p write pa data).symm ▸ h), blocked_record (by simp [dmaRequest]) (by simp [dmaRequest])]
  rfl

/-- R491: what a request of a function does. -/
theorem pcieDma_spec (he : ∀ s line, EvictsInLine s line) (s : State) (link func : Nat) (write : Bool) (pa : Nat) (data : List Byte) :
    let owner := functionOwner s link func
    let run := Instr.pcieDma link func write pa data
    (2 ≤ link ∨ 8 ≤ func ∨ owner = none → exec run s = .next s) ∧
    (link < 2 → func < 8 → ∀ p, owner = some p →
      let open_ := homeOpen s (pcieDie link) pa = true
      let uncopied := ∀ x ∈ s.l1, x.line ≠ pa / 64
      ((part s p).state = 3 ∨ ¬ open_ → exec run s = .next s) ∧
      (open_ → (part s p).state ≠ 3 → inRanges s p pa data.length = false → ∃ t, exec run s = .next t ∧ t.mirqs = s.mirqs + 1 ∧
        t = mirq { s with errLog := s.errLog ++ [{ kind := 0, part := p, req := 3, pa := pa, tid := 0 }] }) ∧
      (open_ → (part s p).state ≠ 3 → inRanges s p pa data.length = true →
        lineHeld s hwKey pa data.length = true ∨ (write = false ∧ uncopied) → exec run s = .next s) ∧
      (open_ → (part s p).state ≠ 3 → inRanges s p pa data.length = true → lineHeld s hwKey pa data.length = false → write = true →
        ∃ t, exec run s = .next t ∧ (∀ i < data.length, Memory.byte t.mem (pa + i) = data.getD i 0) ∧ t.threads = s.threads ∧
          ∀ a, a < pa ∨ pa + data.length ≤ a → a / 64 ≠ pa / 64 ∨ uncopied → Memory.byte t.mem a = Memory.byte s.mem a)) := by
  intro owner run
  refine ⟨exec_pcieDma_unowned write pa data, fun hlink hfunc p hown => ?_⟩
  have hx := exec_pcieDma_atHome write (pa := pa) data hlink hfunc hown
  have hsize := (requestSize_dmaRequest p write pa data).symm
  refine ⟨exec_pcieDma_waits write data hlink hfunc hown, fun hopen h3 hout => ⟨_, hx hopen h3, ?_⟩, fun hopen h3 hin h => ?_,
    fun hopen h3 hin hheld hw => ⟨_, hx hopen h3, ?_⟩⟩
  · rw [dmaRequest_outside write data hout]
    exact ⟨rfl, rfl⟩
  · exact (hx hopen h3).trans (congrArg _ (atHome_idle (hsize ▸ hin) (hsize ▸ h)))
  · obtain ⟨hdata, hkeep, hthreads, -⟩ :=
      atHome_write (r := dmaRequest p write pa data) (hsize ▸ hin) (hsize ▸ hheld) hw (he s _)
    exact ⟨hdata, hthreads, hkeep⟩

/-- Where evictions write their line alone, all of `Obligations.EthernetAndDma` holds. -/
theorem ethernetAndDma_of_evictsInLine (he : ∀ s line, EvictsInLine s line) : Obligations.EthernetAndDma := by
  refine ⟨fun s n tagged pcp udp bs hpaused hb => ?_, pfcRepeat_spec, fun s n q => ⟨exec_transmitFrame_idle, ?_⟩, pcieDma_spec he⟩
  · intro f run
    refine ⟨exec_frameReceive_ignored tagged pcp udp hpaused hb, fun hlen p ho hr => ?_⟩
    have hx : exec run s = .next (ethTake s n f) := exec_frameReceive tagged pcp udp hpaused hb hlen
    intro qa l a buf drop waits read open_
    have hdrop : ethTake s n f = ethDrop s n qa → drop := fun h hc hp => ⟨_, hx.trans (congrArg _ h), ethDrop_spec hc hp⟩
    have hwaits : FrameWaits s n f (ethTake s n f) → waits := fun h => ⟨_, hx, h⟩
    have hdelivers : read → ethOn l = true → ethSlot l = true → open_ → inRanges s p a 16 = true → poisoned s a 16 = false →
        ethTake s n f = ethDeliver s n p qa bs := fun hq hon hs ⟨ha, hbuf⟩ hra hpa =>
      (ethTake_slotted ho hr hq hon hs).trans (ethSlotted_delivers (f := f) (qa := qa) hb ⟨ha, hbuf, hra, hpa⟩)
    refine ⟨fun h3 => hdrop (ethTake_reset ho hr h3), fun h3 h => hwaits (ethTake_unread ho hr h3 h hb hlen),
      fun hq hon => hdrop (ethTake_off ho hr hq hon), fun hq hon hs hd => hdrop ((ethTake_full ho hr hq hon hs).trans (ethFull_drops hd)),
      fun hq hon hs h => hwaits ?_, fun hq hon hs hopen hra hpa hlong => hdrop ?_, fun hq hon hs hopen hra hpa hfit hrb h1 hap hbq hba => ?_,
      fun hq hon hs hd => ?_⟩
    · rw [ethTake_slotted ho hr hq hon hs]
      exact ethSlotted_waits h hb hlen
    · exact (hdelivers hq hon hs hopen hra hpa).trans (ethDeliver_long hra hlong)
    · have ht := (hdelivers hq hon hs hopen hra hpa).trans (ethDeliver_fits hra hfit hrb h1)
      exact ⟨_, hx.trans (congrArg _ ht), frameWritten_spec s (w64 (2 ^ 63 + bs.length)) (dw l 4) hap hbq hba⟩
    · obtain ⟨⟨hmem, hbuf, hother⟩, hsent⟩ := ethFull_holds (f := f) qa hd hpaused hb hlen
      rw [show fcCode f = _ from fcCode_of tagged pcp udp bs] at hsent
      exact ⟨_, hx.trans (congrArg _ (ethTake_full ho hr hq hon hs)), hmem, hbuf, hsent, hother⟩
  · intro p ho h64 h128 h3 hr hp qa l a buf len ends
    refine ⟨transmitFrame_off rfl ho h64 h128 h3 hr hp, transmitFrame_waits rfl rfl rfl ho h64 h128 h3 hr hp,
      fun hready hon hs hra hpa hbad hap => ?_, fun hready hon hs hra hpa h60 h9216 hrb hpb hd hap => ?_⟩
    · exact ⟨_, transmitFrame_bad rfl rfl rfl ho h64 h128 h3 hr hp hready hon hs hra hpa hbad, slotWritten_done s _ _ hap, rfl⟩
    · obtain ⟨hdone, hsent⟩ := frameSent_spec s n (rdBytes s buf len) (w64 (2 ^ 63 + len)) (dw l 4) hap
      exact ⟨_, transmitFrame_good rfl rfl rfl ho h64 h128 h3 hr hp hready hon hs hra hpa h60 h9216 hrb hpb hd, hdone, hsent⟩

/-- `strayState`, whose partition 0 runs and owns function 0 of link 0. -/
def strayDmaState (i : Nat) : State := { strayState i with parts := [(0, { state := 2, io := 0x100 })] }

theorem strayDmaState_served (i : Nat) : functionOwner (strayDmaState i) 0 0 = some 0 ∧
    homeOpen (strayDmaState i) (pcieDie 0) 0 = true ∧ (part (strayDmaState i) 0).state ≠ 3 := by
  have hgranule : granule (strayDmaState i) 0 = 0x8000_0000_0000_0000#64 := rfl
  have hpart : part (strayDmaState i) 0 = { state := 2, io := 0x100 } := rfl
  have hdie : homeDie (strayDmaState i) 0 = 0 := by
    rw [homeDie, capacityTier, stackOf, hgranule]
    decide
  refine ⟨List.find?_cons_of_pos ?_, ?_, ?_⟩
  · rw [hpart]
    decide
  · rw [homeOpen, hdie]
    rfl
  · rw [hpart]
    decide

/-- The statement's frame of a served write, at a state whose copy reaches past its line, says that the free choice is no eviction. -/
theorem freeBool_false_of_ethernetAndDma (h : Obligations.EthernetAndDma) (i : Nat) : Config.freeBool i = false := by
  obtain ⟨-, -, -, hdma⟩ := h
  obtain ⟨hown, hopen, h3⟩ := strayDmaState_served i
  obtain ⟨-, hserved⟩ := hdma (strayDmaState i) 0 0 true 0 []
  obtain ⟨-, -, -, hwrite⟩ := hserved (by decide) (by decide) 0 hown
  obtain ⟨t, ht, -, -, hkeep⟩ := hwrite hopen h3 rfl rfl rfl
  have hx := exec_pcieDma_atHome true [] (by decide) (by decide) hown hopen h3
  cases Host.Outcome.next.inj (hx.symm.trans ht)
  exact freeBool_false_of_kept (s := strayDmaState i) (r := dmaRequest 0 true 0 []) rfl rfl rfl rfl rfl rfl rfl
    (hkeep 64 (by decide) (.inl (by decide)))

/-- The obligation O59 as stated is neither provable nor refutable: it says that the hardware never makes the optional move of
`Config.freeBool` (log 3), a constant without a body. Everything that it says of the Ethernet ports holds
(`ethernetAndDma_of_evictsInLine`); its clause on a served write of a PCIe function bounds what an eviction of the line's copies writes by
the line, and a state may list a copy with a dirty byte outside its line. `DirtyInLine` is the hypothesis that is missing
(`evictsInLine_of_dirtyInLine`, `atHome_write`). -/
theorem ethernetAndDma_iff_never_evicts : Obligations.EthernetAndDma ↔ ∀ i, Config.freeBool i = false :=
  ⟨freeBool_false_of_ethernetAndDma, fun h => ethernetAndDma_of_evictsInLine fun s line a _ => by rw [freeEvict_mem_of_never h]⟩

end Sys2Proof.Machine
end

section
/-! Lane instructions that raise an enabled flag (R73, R437). -/

namespace Sys2Proof.Machine

/-- A lane instruction runs its element meaning on the group (R236). -/
theorem exec_of_laneInstr {i : Instr} {w : Wide} {f : Thread → LaneRes} (h : laneInstr? i = some (w, f)) (s : State) :
    exec i s = laneExec w f s := by
  unfold laneInstr? at h
  split at h
  case h_26 => cases h
  all_goals
    obtain ⟨rfl, rfl⟩ := Prod.mk.inj (Option.some.inj h)
    rfl

/-- A raised and enabled flag takes cause 0x11 in the user handler, outside a collective chain (R73, R433). -/
theorem fpCause_user {s : State} {k fl : Nat} (hk : isSimt k = true) (hf : fpTraps (thr s k) fl = true)
    (hl : (thr s k).chain.live = false) (hh : (thr s k).helper = false) (hi : (thr s k).trap.inh = false)
    (hv : (thr s k).trap.hvec ≠ 0) :
    fpCause s k fl = setThr s k
      { enterHandler { code := 0x11, insn := s.cur.bits, addr := s.cur.pc } (thr s k) with age := s.cycle } := by
  simp only [fpCause, hk, hf, hl, Bool.and_self, Bool.and_false, if_true, Bool.false_eq_true, if_false]
  exact raiseTrap_user .load hk hh hi hv rfl rfl

theorem capture_noOps {t : Thread} (ho : t.ops = []) : capture t = t := by
  obtain ⟨⟩ := t
  cases ho
  simp [capture]

/-- What a thread's handler finds where nothing was issued (R437). -/
theorem enterHandler_noOps {t : Thread} {tr : Trap} (ho : t.ops = []) (hd : tr.dec = none) (hr : tr.hrace = none)
    (hl : tr.hlace = none) :
    let u := enterHandler tr t
    u.trap = { t.trap with
      hcause := w64 tr.code, hepc := t.pc, hdec0 := tr.insn, hdec2 := tr.addr, hfva := tr.va, flt := tr.flt, redo := false, inh := true } ∧
    u.pc = t.trap.hvec ∧ u.fcsr = t.fcsr ∧ ∀ n, getReg u n = getReg t n := by
  have hdet : trapDetail tr t = t := by simp [trapDetail, hd, hr, hl]
  unfold enterHandler
  rw [hdet, capture_noOps ho]
  exact ⟨rfl, rfl, rfl, fun n => getReg_congr rfl rfl n⟩

/-- What raised flags leave of a thread's trap CSRs, operations and place, and of its FFLAGS. -/
theorem keeps_of_raisesOnly {fl st : Nat} {seed : Word} {a b : Thread} (h : RaisesOnly fl st seed a b) :
    b.trap = a.trap ∧ b.ops = a.ops ∧ b.helper = a.helper ∧ b.fcsr = a.fcsr ||| w64 (fl % 32) := by
  unfold RaisesOnly at h
  rw [h]
  exact ⟨rfl, rfl, rfl, rfl⟩

/-- Settles O13: the thread's result is written first (`laneThread_ends`), and the cause finds the thread behind the word. -/
theorem laneTrapFollowsResult : Obligations.LaneTrapFollowsResult := by
  intro i w f s k hi hkeys hk hh _ hwh hf hv hinh hops
  let u := laneThread w (f (thr s k)) (thr s k)
  let tr : Trap := { code := 0x11, insn := s.cur.bits, addr := s.cur.pc }
  obtain ⟨⟨hd, hkeep, -, -, hlive, hpc⟩, hrest⟩ := laneThread_ends w (f (thr s k)) (thr s k)
  obtain ⟨htrap, huops, huhelper, hfcsr⟩ := keeps_of_raisesOnly hrest
  obtain ⟨hut, hup, huf, hur⟩ := enterHandler_noOps (t := u) (tr := tr) (huops.trans hops) rfl rfl rfl
  have hcause : fpCause (setThr s k u) k (f (thr s k)).flags =
      setThr (setThr s k u) k { enterHandler tr u with age := s.cycle } := by
    have h := fpCause_user (s := setThr s k u) (fl := (f (thr s k)).flags) hk
    rw [thr_setThr_same] at h
    exact h ((fpTraps_laneThread ..).trans hf) (hlive.trans hwh) (huhelper.trans hh) (htrap ▸ hinh) (htrap ▸ hv)
  have hexec : exec i s = .next (setThr (setThr s k u) k { enterHandler tr u with age := s.cycle }) := by
    rw [exec_of_laneInstr hi, laneExec, forKeys_one hkeys]
    exact congrArg _ hcause
  refine ⟨_, hexec, onlyThreads_setThr_setThr .., ?_⟩
  simp only [thr_setThr_same, hut, hup, huf]
  exact ⟨fun hw h0 => (hur _).trans (hd hw h0), fun n hn => (hur n).trans (hkeep n hn), congrArg _ htrap, rfl, hpc, rfl,
    rfl, trivial, hfcsr⟩

end Sys2Proof.Machine
end

section
/-! Elements of the integer lane instructions (R62, R246). -/

namespace Sys2Proof.Machine

theorem lowBits_lt (n : Nat) (x : Int) : lowBits n x < 2 ^ n := by
  have h0 := Int.emod_nonneg x (b := 2 ^ n) (by positivity)
  have h1 := Int.emod_lt_of_pos x (b := 2 ^ n) (by positivity)
  rw [lowBits, ← Int.ofNat_lt, Int.toNat_of_nonneg h0]
  exact_mod_cast h1

theorem irange_ordered (fc : Nat) : (irange fc).1 ≤ (irange fc).2 := by
  unfold irange
  split <;> decide

/-! An integer reduced to a format (R62): in its range, wrapped, and clamped at either end. -/

theorem fitInt_of_inRange {fc : Nat} (sat : Bool) {x : Int} (hl : (irange fc).1 ≤ x) (hh : x ≤ (irange fc).2) :
    (fitInt fc sat x).bits = lowBits (fwidth fc) x := by
  simp [fitInt, hl, hh]

theorem fitInt_wraps (fc : Nat) (x : Int) : (fitInt fc false x).bits = lowBits (fwidth fc) x := by
  simp only [fitInt, Bool.false_eq_true, if_false]
  split <;> rfl

theorem fitInt_of_below {fc : Nat} {x : Int} (h : x < (irange fc).1) :
    (fitInt fc true x).bits = lowBits (fwidth fc) (irange fc).1 := by
  simp [fitInt, h, h.not_ge]

theorem fitInt_of_above {fc : Nat} {x : Int} (h : (irange fc).2 < x) :
    (fitInt fc true x).bits = lowBits (fwidth fc) (irange fc).2 := by
  have hl : ¬ x < (irange fc).1 := by have := irange_ordered fc; omega
  simp [fitInt, hl, h.not_ge]

theorem fitInt_bits_lt (fc : Nat) (sat : Bool) (x : Int) : (fitInt fc sat x).bits < 2 ^ fwidth fc := by
  unfold fitInt
  dsimp only
  split
  · exact lowBits_lt ..
  · split <;> exact lowBits_lt ..

/-- An element of `padd`, `psub` and `pmul`: the exact result, reduced (R246). -/
theorem elt_intLanes (w : Wide) (op : Int → Int → Int) (t : Thread) {j : Nat} (h : j < fcount w.fmt) :
    elt (w64 (intLanes w op t).val) w.fmt j =
      (fitInt w.fmt (w.md = 1) (op (ival w.fmt (elt (src t w.s1) w.fmt j)) (ival w.fmt (elt (src t w.s2) w.fmt j)))).bits :=
  (elt_lanes w.fmt _ h).trans (Nat.mod_eq_of_lt (fitInt_bits_lt ..))

theorem intLanes_sticky (w : Wide) (op : Int → Int → Int) (t : Thread) :
    (intLanes w op t).sticky = 0 ∨ (intLanes w op t).sticky = ISAT := by
  simp only [intLanes]
  split
  · exact .inr rfl
  · exact .inl rfl

end Sys2Proof.Machine
end

section
/-! Elements of the lane instructions that choose, move and shift (R247, R248, R257, R258). -/

namespace Sys2Proof.Machine

theorem fwidth_pos (fc : Nat) : 0 < fwidth fc := by
  unfold fwidth
  split <;> decide

/-- An element of a lane instruction without flags, where what is packed fits the format. -/
theorem elt_rawLanes_of_lt {fc : Nat} {g : Nat → Nat} {j : Nat} (h : j < fcount fc) (hg : g j < 2 ^ fwidth fc) :
    elt (w64 (rawLanes fc g).val) fc j = g j := (elt_rawLanes fc g h).trans (Nat.mod_eq_of_lt hg)

theorem elt_iminmaxLane (w : Wide) (mx : Bool) (t : Thread) {j : Nat} (h : j < fcount w.fmt) :
    elt (w64 (iminmaxLane w mx t).val) w.fmt j = iminmax w.fmt mx (elt (src t w.s1) w.fmt j) (elt (src t w.s2) w.fmt j) := by
  refine elt_rawLanes_of_lt h ?_
  unfold iminmax
  split <;> exact elt_lt ..

theorem elt_selLane (w : Wide) (t : Thread) {j : Nat} (h : j < fcount w.fmt) :
    elt (w64 (selLane w t).val) w.fmt j =
      if elt (src t w.s3) w.fmt j ≠ 0 then elt (src t w.s1) w.fmt j else elt (src t w.s2) w.fmt j := by
  refine elt_rawLanes_of_lt h ?_
  split <;> exact elt_lt ..

theorem elt_packLane (w : Wide) (t : Thread) {j : Nat} (h : j < 8) :
    elt (w64 (packLane w t).val) 8 j =
      let c := elt (src t w.s3) 8 j
      if 128 ≤ c then 0 else if c % 16 < 8 then elt (src t w.s1) 8 (c % 16) else elt (src t w.s2) 8 (c % 16 - 8) := by
  refine elt_rawLanes_of_lt (fc := 8) h ?_
  dsimp only
  split
  · decide
  · split <;> exact elt_lt ..

theorem elt_shLane (w : Wide) (t : Thread) {j : Nat} (h : j < fcount w.fmt) :
    elt (w64 (shLane w t).val) w.fmt j =
      shElt (fwidth w.fmt) w.md (elt (src t w.s1) w.fmt j) (elt (src t w.s2) w.fmt j) % 2 ^ fwidth w.fmt :=
  elt_rawLanes _ _ h

/-! The four shifts of an element of `wd` bits (R248). -/

theorem shElt_left (wd v sh : Nat) : shElt wd 0 v sh % 2 ^ wd = v * 2 ^ (sh % wd) % 2 ^ wd := Nat.mod_mod ..

theorem shElt_right {wd v : Nat} (hv : v < 2 ^ wd) (sh : Nat) : shElt wd 1 v sh % 2 ^ wd = v / 2 ^ (sh % wd) :=
  Nat.mod_eq_of_lt ((Nat.div_le_self ..).trans_lt hv)

/-- The highest bit of an element is what is left of it above the others. -/
theorem testBit_top {wd v : Nat} (hwd : 0 < wd) (hv : v < 2 ^ wd) : v.testBit (wd - 1) = decide (v / 2 ^ (wd - 1) = 1) := by
  have h2 : v / 2 ^ (wd - 1) < 2 := Nat.div_lt_of_lt_mul (by rwa [← pow_succ, Nat.sub_add_cancel hwd])
  rw [Nat.testBit_eq_decide_div_mod_eq, Nat.mod_eq_of_lt h2]

theorem testBit_shElt_arithmetic {wd v sh i : Nat} (hwd : 0 < wd) (hv : v < 2 ^ wd) (hi : i < wd) :
    (shElt wd 2 v sh % 2 ^ wd).testBit i = v.testBit (min (i + sh % wd) (wd - 1)) := by
  have hn : sh % wd < wd := Nat.mod_lt _ hwd
  generalize hne : sh % wd = n at hn
  have hlow : v / 2 ^ n < 2 ^ (wd - n) := Nat.div_lt_of_lt_mul (by rwa [← pow_add, Nat.add_sub_cancel' hn.le])
  have hsplit : shElt wd 2 v sh = 2 ^ (wd - n) * (if v.testBit (wd - 1) then 2 ^ n - 1 else 0) + v / 2 ^ n := by
    simp only [shElt, hne, testBit_top hwd hv, decide_eq_true_eq]
    split <;> ring
  rw [Nat.testBit_mod_two_pow, hsplit, Nat.testBit_two_pow_mul_add _ hlow, decide_eq_true hi, Bool.true_and]
  split
  · rw [Nat.testBit_div_two_pow, Nat.min_eq_left (by omega)]
  · rw [Nat.min_eq_right (by omega)]
    cases v.testBit (wd - 1)
    · simp
    · simpa using (by omega : i - (wd - n) < n)

theorem testBit_shElt_rotate {wd v sh i : Nat} (hwd : 0 < wd) (hv : v < 2 ^ wd) (hi : i < wd) :
    (shElt wd 3 v sh % 2 ^ wd).testBit i = v.testBit ((i + wd - sh % wd) % wd) := by
  have hn : sh % wd < wd := Nat.mod_lt _ hwd
  generalize hne : sh % wd = n at hn
  have hpow : 2 ^ wd = 2 ^ n * 2 ^ (wd - n) := by rw [← pow_add, Nat.add_sub_cancel' hn.le]
  have hlow : v / 2 ^ (wd - n) < 2 ^ n := Nat.div_lt_of_lt_mul (by rwa [Nat.mul_comm, ← hpow])
  have hsplit : shElt wd 3 v sh = 2 ^ n * (v % 2 ^ (wd - n)) + v / 2 ^ (wd - n) := by
    simp only [shElt, hne]
    rw [hpow, Nat.mul_comm v, Nat.mul_mod_mul_left]
  rw [Nat.testBit_mod_two_pow, hsplit, Nat.testBit_two_pow_mul_add _ hlow, decide_eq_true hi, Bool.true_and]
  split
  · rw [Nat.testBit_div_two_pow, Nat.mod_eq_of_lt (by omega)]
    congr 1
    omega
  · rw [Nat.testBit_mod_two_pow, decide_eq_true (by omega), Bool.true_and, show i + wd - n = i - n + wd by omega,
      Nat.add_mod_right, Nat.mod_eq_of_lt (by omega)]

end Sys2Proof.Machine
end
section
/-! Signs of floating elements (R244). -/

namespace Sys2Proof.Machine

/-- The floating format of a code fills its elements: a sign above exponent and mantissa (R46, R49). -/
theorem ffmt_width {fc : Nat} (h : fc < 6) : (ffmt fc).eb + (ffmt fc).mb = fwidth fc - 1 := by
  interval_cases fc <;> rfl

theorem ffmt_nan_lt {fc : Nat} (h : fc < 6) : (ffmt fc).nan < 2 ^ (fwidth fc - 1 + 1) := by
  interval_cases fc <;> decide

/-- An element has one bit above the place of its sign. -/
theorem elt_lt_sign (v : Word) (fc i : Nat) : elt v fc i < 2 ^ (fwidth fc - 1 + 1) := by
  rw [Nat.sub_add_cancel (fwidth_pos fc)]
  exact elt_lt ..

/-- Inverting the highest bit of a number below `2 ^ (k + 1)`. -/
theorem xor_top {a k : Nat} (h : a < 2 ^ (k + 1)) : a ^^^ 2 ^ k = if 2 ^ k ≤ a then a - 2 ^ k else a + 2 ^ k := by
  have hmod : (a ^^^ 2 ^ k) % 2 ^ k = a % 2 ^ k := by simp [Nat.xor_mod_two_pow]
  have hdiv : (a ^^^ 2 ^ k) / 2 ^ k = a / 2 ^ k ^^^ 1 := by simp [Nat.xor_div_two_pow]
  rw [← Nat.div_add_mod (a ^^^ 2 ^ k) (2 ^ k), hmod, hdiv]
  have ha := Nat.div_add_mod a (2 ^ k)
  split
  · next hk =>
    have : a / 2 ^ k = 1 := Nat.div_eq_of_lt_le (by omega) (by rw [pow_succ] at h; omega)
    rw [this] at ha ⊢
    simp; omega
  · next hk =>
    have : a / 2 ^ k = 0 := Nat.div_eq_of_lt (by omega)
    rw [this] at ha ⊢
    simp; omega

theorem sgnElt_nan {F : FFmt} {md a b : Nat} (h : isNan (fval F a) = true) : sgnElt F md a b = F.nan := by
  simp [sgnElt, h]

section
variable {F : FFmt} {k a : Nat} (hF : F.eb + F.mb = k) (hn : isNan (fval F a) = false) (b : Nat)
include hF hn

theorem sgnElt_invert (ha : a < 2 ^ (k + 1)) : sgnElt F 0 a b = a ^^^ 2 ^ k := by simp [sgnElt, hn, hF, xor_top ha]

theorem sgnElt_clear : sgnElt F 1 a b = a % 2 ^ k := by simp [sgnElt, hn, hF]

theorem sgnElt_copy (hb : b < 2 ^ (k + 1)) : sgnElt F 2 a b = a % 2 ^ k + b / 2 ^ k * 2 ^ k := by
  have : b / 2 ^ k < 2 := Nat.div_lt_of_lt_mul (by rwa [← pow_succ])
  simp [sgnElt, hn, hF, Nat.mod_eq_of_lt this]

end

theorem sgnElt_lt {F : FFmt} {k a : Nat} (hF : F.eb + F.mb = k) (hnan : F.nan < 2 ^ (k + 1)) (ha : a < 2 ^ (k + 1)) (md b : Nat) :
    sgnElt F md a b < 2 ^ (k + 1) := by
  have hm : a % 2 ^ k < 2 ^ k := Nat.mod_lt _ (by positivity)
  have hs : b / 2 ^ k % 2 * 2 ^ k ≤ 1 * 2 ^ k := Nat.mul_le_mul_right _ (by omega)
  simp only [sgnElt, hF]
  rw [pow_succ] at *
  split
  · exact hnan
  · split
    · split <;> omega
    · omega
    · omega

/-- An element of `pfsgn`. -/
theorem elt_sgnLane {w : Wide} (hw : w.fmt < 6) (t : Thread) {j : Nat} (h : j < fcount w.fmt) :
    elt (w64 (sgnLane w t).val) w.fmt j =
      sgnElt (ffmt w.fmt) w.md (elt (src t w.s1) w.fmt j) (elt (src t w.s2) w.fmt j) := by
  refine elt_rawLanes_of_lt h ?_
  rw [← Nat.sub_add_cancel (fwidth_pos w.fmt)]
  exact sgnElt_lt (ffmt_width hw) (ffmt_nan_lt hw) (elt_lt_sign ..) _ _

end Sys2Proof.Machine
end

section
/-! The order of floating values and comparisons of elements (R245). -/

namespace Sys2Proof.Machine

/-- A finite value's integer multiple of a power below its own. -/
theorem scaled_cast (n : Bool) (m : Nat) {e u : Int} (h : u ≤ e) :
    (scaled n m e u : ℚ) * 2 ^ u = (if n then -1 else 1) * m * 2 ^ e := by
  have hp : (2 : ℚ) ^ (e - u).toNat * 2 ^ u = 2 ^ e := by
    rw [← zpow_natCast, Int.toNat_of_nonneg (by omega), ← zpow_add₀ two_ne_zero]
    congr 1; omega
  cases n <;> simp [scaled, ← hp] <;> ring

theorem fltv_finite {a b : FV} {p q : ℚ} (ha : ratOf a = some p) (hb : ratOf b = some q) : fltv a b = true ↔ p < q := by
  cases a <;> cases b <;> simp only [ratOf, Option.some.injEq, reduceCtorEq] at ha hb
  next n m e n' m' e' =>
    have hu : (0 : ℚ) < 2 ^ min e e' := by positivity
    rw [← ha, ← hb, ← scaled_cast n m (min_le_left e e'), ← scaled_cast n' m' (min_le_right e e')]
    simp only [fltv, decide_eq_true_eq, mul_lt_mul_iff_left₀ hu, Int.cast_lt]

/-- An infinity lies below what it is not where it is negative. -/
theorem fltv_inf_left (n : Bool) {y : FV} (hy : isNan y = false) : fltv (.inf n) y = true ↔ n = true ∧ y ≠ .inf true := by
  cases y with
  | nan => cases hy
  | inf n' => cases n <;> cases n' <;> decide
  | fin => cases n <;> simp [fltv]

/-- An infinity lies above what it is not where it is positive. -/
theorem fltv_inf_right (n : Bool) {y : FV} (hy : isNan y = false) : fltv y (.inf n) = true ↔ n = false ∧ y ≠ .inf false := by
  cases y with
  | nan => cases hy
  | inf n' => cases n <;> cases n' <;> decide
  | fin => cases n <;> simp [fltv]

/-! A comparison's condition and flags. -/

theorem isNan_of_ratOf {a : FV} {p : ℚ} (h : ratOf a = some p) : isNan a = false := by
  cases a with
  | nan => cases h
  | inf | fin => rfl

theorem isNan_of_isSig {a : FV} (h : isSig a = true) : isNan a = true := by
  cases a with
  | nan => rfl
  | inf | fin => cases h

section
variable {md : Nat} (hmd : md < 4) {a b : FV}
include hmd

theorem cmpElt_unordered (h : (isNan a || isNan b) = true) : (cmpElt md a b).1 = true ↔ md = 3 := by
  have he : feqv a b = false := by rw [feqv, ← Bool.not_or, h]; rfl
  interval_cases md <;> simp [cmpElt, h, he]

theorem cmpElt_ordered (h : (isNan a || isNan b) = false) :
    (cmpElt md a b).1 = true ↔ (md = 0 ∧ ¬ fltv a b = true ∧ ¬ fltv b a = true) ∨ (md = 1 ∧ fltv a b = true) ∨
      (md = 2 ∧ ¬ fltv b a = true) := by
  interval_cases md <;> simp [cmpElt, feqv, h, ← Bool.not_or]

theorem cmpElt_finite {p q : ℚ} (ha : ratOf a = some p) (hb : ratOf b = some q) :
    (cmpElt md a b).1 = true ↔ (md = 0 ∧ p = q) ∨ (md = 1 ∧ p < q) ∨ (md = 2 ∧ p ≤ q) := by
  rw [cmpElt_ordered hmd (by simp [isNan_of_ratOf ha, isNan_of_ratOf hb]), fltv_finite ha hb, fltv_finite hb ha, not_lt, not_lt,
    and_comm (a := q ≤ p), ← le_antisymm_iff]

theorem cmpElt_infinite (h3 : md ≠ 3) (n : Bool) (hb : isNan b = false) :
    (cmpElt md (.inf n) b).1 = true ↔ (md ≠ 1 ∧ b = .inf n) ∨ (md ≠ 0 ∧ n = true ∧ b ≠ .inf true) := by
  rw [cmpElt_ordered (a := .inf n) hmd hb, fltv_inf_left n hb, fltv_inf_right n hb]
  interval_cases md <;> cases n <;> simp [em] at h3 ⊢

end

theorem cmpElt_flags (md : Nat) (a b : FV) :
    (cmpElt md a b).2 =
      if (isSig a || isSig b) = true ∨ ((isNan a || isNan b) = true ∧ (md = 1 ∨ md = 2)) then NV else 0 := by
  have hs : (isSig a || isSig b) = true → (isNan a || isNan b) = true := by
    rw [Bool.or_eq_true, Bool.or_eq_true]
    exact Or.imp isNan_of_isSig isNan_of_isSig
  match md with
  | 0 | n + 3 => simp [cmpElt, sigFlag]
  | 1 | 2 => simp only [cmpElt, or_true, true_or, and_true, or_iff_right_of_imp hs, OfNat.ofNat_ne_one]

/-! What `pfcmp` gives. -/

theorem elt_cmpLane (w : Wide) (t : Thread) {j : Nat} (h : j < fcount w.fmt) :
    elt (w64 (cmpLane w t).val) w.fmt j =
      if (cmpElt w.md (fval (ffmt w.fmt) (elt (src t w.s1) w.fmt j)) (fval (ffmt w.fmt) (elt (src t w.s2) w.fmt j))).1
        then 2 ^ fwidth w.fmt - 1 else 0 := by
  rw [cmpLane, elt_lanes w.fmt _ h]
  refine Nat.mod_eq_of_lt ?_
  dsimp only
  split
  · exact Nat.sub_lt (by positivity) one_pos
  · positivity

/-- Where each element raises NV or nothing, so do the lanes together: NV where one element does. -/
theorem lanes_flags_NV (wd n : Nat) (g : Nat → FR) (P : Nat → Prop) [DecidablePred P]
    (hg : ∀ j, (g j).flags = if P j then NV else 0) : (lanes wd n g).flags = if ∃ j < n, P j then NV else 0 := by
  rw [show (lanes wd n g).flags = (List.range n).foldl (fun x j => x ||| (g j).flags) 0 from List.foldl_map ..]
  induction n with
  | zero => simp
  | succ n ih =>
    rw [List.range_succ, List.foldl_append, ih]
    simp only [List.foldl_cons, List.foldl_nil, hg, Nat.lt_succ_iff_lt_or_eq, or_and_right, exists_or, exists_eq_left]
    by_cases h1 : ∃ j < n, P j
    · by_cases h2 : P n <;> simp [h1, h2]
    · by_cases h2 : P n <;> simp [h1, h2]

end Sys2Proof.Machine
end
section
/-! Integer dot products (R78, R250, R251). -/

namespace Sys2Proof.Machine

/-- A sum as it is fitted into i32 before its low bits are taken: the nearest end of the range where it saturates (R78). -/
def sumI32 (sat : Bool) (x : Int) : Int := if sat then max (-2147483648) (min x 2147483647) else x

theorem sumI32_of_inRange (sat : Bool) {x : Int} (hl : -2147483648 ≤ x) (hh : x ≤ 2147483647) : sumI32 sat x = x := by
  cases sat
  · rfl
  · rw [sumI32, if_pos rfl, min_eq_left hh, max_eq_right hl]

/-- A sum fitted into i32: the low bits of what it becomes, and whether it was clamped. -/
theorem fit32_eq (sat : Bool) (x : Int) :
    fit32 sat x = (lowBits 32 (sumI32 sat x), decide (sat = true ∧ sumI32 true x ≠ x)) := by
  by_cases h : -2147483648 ≤ x ∧ x ≤ 2147483647
  · simp [fit32, fitInt, irange, fwidth, h, sumI32_of_inRange _ h.1 h.2]
  · have hne : sumI32 true x ≠ x := by simp only [sumI32, if_true]; omega
    cases sat
    · simp [fit32, fitInt, irange, fwidth, h, sumI32]
    · have hs : sumI32 true x = if x < -2147483648 then -2147483648 else 2147483647 := by
        simp only [sumI32, if_true]; split <;> omega
      simp only [fit32, fitInt, irange, fwidth, h, if_false, if_true, ← hs, hne, ne_eq, not_false_eq_true, and_self, decide_true]

/-- The low 32 bits of an integer, sign-extended. -/
theorem sext_lowBits (x : Int) : sext 32 (lowBits 32 x) = BitVec.ofInt 64 (Int.bmod x (2 ^ 32)) := by
  have hx : BitVec.ofNat 32 (lowBits 32 x) = BitVec.ofInt 32 x := by
    apply BitVec.eq_of_toNat_eq
    rw [BitVec.toNat_ofNat, BitVec.toNat_ofInt, Nat.mod_eq_of_lt (lowBits_lt 32 x)]
    rfl
  rw [sext, hx, BitVec.signExtend, BitVec.toInt_ofInt]

/-- The i32 half of S3 that a dot product adds to (R250, R251). -/
def accHalf (v : Word) (i : Nat) : Int := ival 6 (v.toNat / 2 ^ (32 * i) % 2 ^ 32)

theorem accHalf_zero (v : Word) : accHalf v 0 = ival 6 (v.toNat % 2 ^ 32) := by
  rw [accHalf, Nat.mul_zero, pow_zero, Nat.div_one]

theorem accHalf_one (v : Word) : accHalf v 1 = ival 6 (v.toNat / 2 ^ 32) := by
  rw [accHalf, Nat.mul_one, Nat.mod_eq_of_lt (by have := v.isLt; omega)]

/-- The exact sum of `pidot` (R250). -/
def idotSum (w : Wide) (t : Thread) : Int :=
  accHalf (src t w.s3) 0 + ((List.range (fcount w.fmt)).map fun i =>
    ival w.fmt (elt (src t w.s1) w.fmt i) * ival w.fmt (elt (src t w.s2) w.fmt i)).sum

theorem idotLane_eq (w : Wide) (t : Thread) :
    w64 (idotLane w t).val = BitVec.ofInt 64 (Int.bmod (sumI32 (w.md = 1) (idotSum w t)) (2 ^ 32)) ∧
      (idotLane w t).sticky = if w.md = 1 ∧ sumI32 true (idotSum w t) ≠ idotSum w t then ISAT else 0 := by
  simp only [idotLane, ← accHalf_zero]
  change w64 (sext 32 (fit32 _ (idotSum w t)).1).toNat = _ ∧ (if (fit32 _ (idotSum w t)).2 then ISAT else 0) = _
  rw [fit32_eq]
  exact ⟨by rw [w64, BitVec.ofNat_toNat, BitVec.setWidth_eq, sext_lowBits], by simp⟩

/-- The second factor of a complex product, conjugated when asked (R53). -/
def conjIf (conj : Prop) [Decidable conj] (b : Int × Int) : Int × Int := if conj then (b.1, -b.2) else b

theorem cmul_eq (conj : Prop) [Decidable conj] (a b : Int × Int) :
    cmul (decide conj) a b = (a.1 * (conjIf conj b).1 - a.2 * (conjIf conj b).2, a.1 * (conjIf conj b).2 + a.2 * (conjIf conj b).1) := by
  by_cases h : conj <;> simp [cmul, conjIf, h]

/-- The exact real part of the sum of `pcdot` (R251). -/
def cdotRe (w : Wide) (t : Thread) : Int :=
  let a := fun i => cparts w.fmt (elt (src t w.s1) w.fmt i)
  let b := fun i => conjIf (2 ≤ w.md) (cparts w.fmt (elt (src t w.s2) w.fmt i))
  accHalf (src t w.s3) 0 + ((List.range (fcount w.fmt)).map fun i => (a i).1 * (b i).1 - (a i).2 * (b i).2).sum

/-- The exact imaginary part of the sum of `pcdot` (R251). -/
def cdotIm (w : Wide) (t : Thread) : Int :=
  let a := fun i => cparts w.fmt (elt (src t w.s1) w.fmt i)
  let b := fun i => conjIf (2 ≤ w.md) (cparts w.fmt (elt (src t w.s2) w.fmt i))
  accHalf (src t w.s3) 1 + ((List.range (fcount w.fmt)).map fun i => (a i).1 * (b i).2 + (a i).2 * (b i).1).sum

/-- Two halves of a word. -/
theorem bits_halves {a b : Nat} (ha : a < 2 ^ 32) (hb : b < 2 ^ 32) :
    bits (w64 (a + 2 ^ 32 * b)) 31 0 = a ∧ bits (w64 (a + 2 ^ 32 * b)) 63 32 = b := by
  have h : (w64 (a + 2 ^ 32 * b)).toNat = a + 2 ^ 32 * b := by
    rw [w64, BitVec.toNat_ofNat]; omega
  simp only [bits, h]
  omega

theorem cdotLane_eq (w : Wide) (t : Thread) :
    bits (w64 (cdotLane w t).val) 31 0 = lowBits 32 (sumI32 (w.md % 2 = 1) (cdotRe w t)) ∧
      bits (w64 (cdotLane w t).val) 63 32 = lowBits 32 (sumI32 (w.md % 2 = 1) (cdotIm w t)) ∧
      (cdotLane w t).sticky =
        if w.md % 2 = 1 ∧ (sumI32 true (cdotRe w t) ≠ cdotRe w t ∨ sumI32 true (cdotIm w t) ≠ cdotIm w t) then ISAT else 0 := by
  simp only [cdotLane, ← accHalf_zero, ← accHalf_one, List.map_map, ge_iff_le, cmul_eq]
  change bits (w64 ((fit32 _ (cdotRe w t)).1 + 2 ^ 32 * (fit32 _ (cdotIm w t)).1)) 31 0 = _ ∧
    bits (w64 ((fit32 _ (cdotRe w t)).1 + 2 ^ 32 * (fit32 _ (cdotIm w t)).1)) 63 32 = _ ∧
    (if (fit32 _ (cdotRe w t)).2 || (fit32 _ (cdotIm w t)).2 then ISAT else 0) = _
  obtain ⟨hre, him⟩ := bits_halves (lowBits_lt 32 (sumI32 (w.md % 2 = 1) (cdotRe w t)))
    (lowBits_lt 32 (sumI32 (w.md % 2 = 1) (cdotIm w t)))
  rw [fit32_eq, fit32_eq]
  exact ⟨hre, him, by simp [and_or_left]⟩

end Sys2Proof.Machine
end

section
/-! The elements of the lane instructions together (R62, R244-R248, R250, R251, R257, R258). -/

namespace Sys2Proof.Machine

theorem md_lt (w : Wide) : w.md < 4 := Nat.mod_lt _ (by decide)

/-- Settles O14: each clause is the equation of one element, or of one exact sum. -/
theorem laneElements : Obligations.LaneElements := by
  refine ⟨fun w t j hj op => ?_, fun w t => ⟨fun j hj => ?_, fun j hj => elt_packLane w t hj, ?_⟩,
    fun w t hw => ⟨fun j hj => ?_, ?_⟩, fun w t => ?_⟩
  case refine_1 => -- R246: `padd`, `psub`, `pmul`
    rw [elt_intLanes w op t hj]
    refine ⟨fitInt_of_inRange _, fun hm => ?_, fun hm hx => ?_, fun hm hx => ?_, intLanes_sticky w op t⟩
    · rw [decide_eq_false hm, fitInt_wraps]
    · rw [decide_eq_true hm, fitInt_of_below hx]
    · rw [decide_eq_true hm, fitInt_of_above hx]
  case refine_2 => -- R247, R248, R257: `psh`, `pmin`, `pmax`, `psel`
    have hwd := fwidth_pos w.fmt
    refine ⟨fun hm i hi => ?_, fun hm i hi => ?_, fun mx => elt_iminmaxLane w mx t hj, fun hm => ?_, fun hm => ?_, elt_selLane w t hj⟩
    all_goals rw [elt_shLane w t hj, hm]
    · exact testBit_shElt_arithmetic hwd (elt_lt ..) hi
    · exact testBit_shElt_rotate hwd (elt_lt ..) hi
    · exact shElt_left ..
    · exact shElt_right (elt_lt ..) _
  case refine_3 => -- no flags, no sticky bits, no seed
    simp [iminmaxLane, shLane, selLane, packLane, sgnLane, rawLanes]
  case refine_4 => -- R244, R245: `pfsgn`, `pfcmp`
    have hF := ffmt_width hw
    have hmd : w.md < 4 := Nat.mod_lt _ (by decide)
    have hones : 2 ^ fwidth w.fmt - 1 ≠ 0 := Nat.sub_ne_zero_of_lt (Nat.one_lt_two_pow (fwidth_pos _).ne')
    have hc : ∀ b : Bool, (if b then 2 ^ fwidth w.fmt - 1 else 0) ≠ 0 ↔ b = true := by simp [hones]
    dsimp only
    rw [elt_sgnLane hw t hj, elt_cmpLane w t hj, hc]
    refine ⟨sgnElt_nan, fun hn => ⟨fun hm => ?_, fun hm => ?_, fun hm => ?_⟩, ?_, cmpElt_unordered hmd, fun hn hm => ?_,
      fun _ _ p q => cmpElt_finite hmd, fun hn hm n hx => ?_⟩
    · rw [hm, sgnElt_invert hF hn _ (elt_lt_sign ..)]
    · rw [hm, sgnElt_clear hF hn]
    · rw [hm, sgnElt_copy hF hn _ (elt_lt_sign ..)]
    · split <;> simp
    · rw [← not_ne_iff, hc, cmpElt_ordered hmd hn]
      omega
    · rw [hx] at hn ⊢
      exact cmpElt_infinite hmd hm n hn
  case refine_5 => -- R245: the flags of `pfcmp`
    exact lanes_flags_NV _ _ _ _ fun j => cmpElt_flags ..
  case refine_6 => -- R250, R251: `pidot`, `pcdot`
    obtain ⟨hi, his⟩ := idotLane_eq w t
    obtain ⟨hre, him, hcs⟩ := cdotLane_eq w t
    exact ⟨hi, his, hre, him, hcs⟩

end Sys2Proof.Machine
end

section
/-! Wide words: their fields, and the decoding of a word that is well formed (R84, R87, R89, R100-R107). -/

namespace Sys2Proof

open Machine BitVec

/-! Fields of a word put together from fields. -/

theorem getLsbD_append_high {m n i : Nat} {x : BitVec m} {y : BitVec n} (h : n ≤ i) : (x ++ y).getLsbD i = x.getLsbD (i - n) := by
  rw [getLsbD_append, if_neg (by omega)]

theorem getLsbD_append_low {m n i : Nat} {x : BitVec m} {y : BitVec n} (h : i < n) : (x ++ y).getLsbD i = y.getLsbD i := by
  rw [getLsbD_append, if_pos h]

theorem getLsbD_ofBool_zero (b : Bool) : (BitVec.ofBool b).getLsbD 0 = b := by cases b <;> rfl

/-- A field of a word, as a vector and as a number. -/
theorem toNat_field (v : Word) (n len : Nat) : (v.extractLsb' n (len + 1)).toNat = bits v (n + len) n := by
  rw [bits, extractLsb'_toNat, Nat.shiftRight_eq_div_pow, show n + len + 1 - n = len + 1 by omega]

/-- The lowest eight bits of a word are those of its last byte. -/
theorem bits_append_byte (x : BitVec 56) (y : BitVec 8) : bits (x ++ y) 7 0 = y.toNat := by
  rw [← toNat_field (x ++ y) 0 7, extractLsb'_append_eq_of_add_le (le_refl 8), extractLsb'_eq_self]

theorem wideFields_wideWord (maj : BitVec 8) (w : Wide) : wideFields (wideWord maj w) = w := by
  obtain ⟨imm11, lt, fn, s3, s2, s1, b, d, h⟩ := w
  simp (disch := decide) only [wideFields, wideWord, extractLsb'_append_eq_of_le, extractLsb'_append_eq_of_add_le, extractLsb'_eq_self,
    getLsbD_append_high, getLsbD_append_low, getLsbD_ofBool_zero, Nat.reduceSub, -Nat.reduceAdd]

theorem major_wideWord (maj : BitVec 8) (w : Wide) : (wideWord maj w).extractLsb' 9 8 = maj := by
  simp (disch := decide) only [wideWord, extractLsb'_append_eq_of_le, extractLsb'_append_eq_of_add_le, extractLsb'_eq_self,
    Nat.reduceSub, -Nat.reduceAdd]

theorem bits_wideWord (maj : BitVec 8) (w : Wide) : bits (wideWord maj w) 7 0 = 0x3F := bits_append_byte _ _

theorem bits_pairBits (h : Bool) (p0 p1 : PairSlot) : bits (pairBits h p0 p1) 7 0 = 0xBF := bits_append_byte _ _

theorem slot0_pairBits (h : Bool) (p0 p1 : PairSlot) : (pairBits h p0 p1).extractLsb' 9 27 = slotBits p0 := by
  simp (disch := decide) only [pairBits, extractLsb'_append_eq_of_le, extractLsb'_append_eq_of_add_le, extractLsb'_eq_self,
    Nat.reduceSub, -Nat.reduceAdd]

theorem slot1_pairBits (h : Bool) (p0 p1 : PairSlot) : (pairBits h p0 p1).extractLsb' 36 27 = slotBits p1 := by
  simp (disch := decide) only [pairBits, extractLsb'_append_eq_of_le, extractLsb'_append_eq_of_add_le, extractLsb'_eq_self,
    Nat.reduceSub, -Nat.reduceAdd]

theorem h_pairBits (h : Bool) (p0 p1 : PairSlot) : (pairBits h p0 p1).getLsbD 8 = h := by
  simp (disch := decide) only [pairBits, getLsbD_append_high, getLsbD_append_low, getLsbD_ofBool_zero, Nat.reduceSub, -Nat.reduceAdd]

theorem top_pairBits (h : Bool) (p0 p1 : PairSlot) : (pairBits h p0 p1).getLsbD 63 = false := by
  simp (disch := decide) only [pairBits, getLsbD_append_high, Nat.reduceSub, -Nat.reduceAdd]
  rfl

/-! Opcodes and majors. -/

theorem pairOp?_pairCode (op : PairOp) : pairOp? (pairCode op).toNat = some op := by cases op <;> rfl

theorem slotFields_slotBits (p : PairSlot) : slotFields (slotBits p) = some p := by
  obtain ⟨imm9, s, d, op⟩ := p
  simp (disch := decide) only [slotFields, slotBits, extractLsb'_append_eq_of_le, extractLsb'_append_eq_of_add_le, extractLsb'_eq_self,
    pairOp?_pairCode, Option.map_some, Nat.reduceSub, -Nat.reduceAdd]

/-- The instruction of a major is the one whose major it is. -/
theorem wideInstr?_of_wideOf? {i : Instr} {maj : BitVec 8} {w : Wide} (h : wideOf? i = some (maj, w)) : wideInstr? maj w = some i := by
  unfold wideOf? at h
  split at h
  case h_113 => cases h
  all_goals
    obtain ⟨rfl, rfl⟩ := Prod.mk.inj (Option.some.inj h)
    rfl

theorem wideOf?_of_wideInstr? {i : Instr} {maj : BitVec 8} {w : Wide} (h : wideInstr? maj w = some i) : wideOf? i = some (maj, w) := by
  have hmaj : maj = BitVec.ofNat 8 maj.toNat := by simp
  unfold wideInstr? at h
  split at h
  case h_113 => cases h
  all_goals
    next e =>
    rw [e] at hmaj
    rw [hmaj, ← Option.some.inj h]
    rfl

/-! The decoding of a wide word. -/

theorem lengthOf_wide {v : Word} (h : bits v 7 0 % 128 = 0x3F) : lengthOf v = some 8 := by
  have : v.toNat % 128 = 0x3F := by simpa [bits, Nat.mod_mod_of_dvd] using h
  simp [lengthOf, this]

theorem bit_seven (v : Word) : v.getLsbD 7 = decide (128 ≤ bits v 7 0) := by
  rw [getLsbD, Nat.testBit_eq_decide_div_mod_eq, decide_eq_decide]
  simp only [bits]
  omega

theorem decode_wide {v : Word} (h : bits v 7 0 % 128 = 0x3F) : decode v = (decodeWide v).map fun i => (i, 8) := by
  rw [decode, lengthOf_wide h]
  cases decodeWide v <;> rfl

section
variable {v : Word} (h : bits v 7 0 = 0x3F)
include h

theorem bit_seven_full : v.getLsbD 7 = false := by rw [bit_seven, h]; rfl

theorem length_full : bits v 7 0 % 128 = 0x3F := by rw [h]

/-- A full form that breaks no rule is its major's instruction (R84). -/
theorem decode_full {i : Instr} (hr : wideReason (v.extractLsb' 9 8) (wideFields v) = none)
    (hi : wideInstr? (v.extractLsb' 9 8) (wideFields v) = some i) : decode v = .ok (i, 8) := by
  simp only [decode_wide (length_full h), decodeWide, bit_seven_full h, hr, hi, Bool.false_eq_true, if_false]
  rfl

theorem decode_full_error {r : Reason} (hr : wideReason (v.extractLsb' 9 8) (wideFields v) = some r) : decode v = .error (r, 0) := by
  simp only [decode_wide (length_full h), decodeWide, bit_seven_full h, hr, Bool.false_eq_true, if_false]
  rfl

theorem wideInstr?_of_decode {i : Instr} {n : Nat} (hd : decode v = .ok (i, n)) :
    wideInstr? (v.extractLsb' 9 8) (wideFields v) = some i ∧ n = 8 := by
  cases hr : wideReason (v.extractLsb' 9 8) (wideFields v) with
  | some r => cases (decode_full_error h hr).symm.trans hd
  | none =>
    cases hi : wideInstr? (v.extractLsb' 9 8) (wideFields v) with
    | none =>
      simp only [decode_wide (length_full h), decodeWide, bit_seven_full h, hr, hi, Bool.false_eq_true, if_false] at hd
      cases hd
    | some j =>
      obtain ⟨rfl, rfl⟩ : j = i ∧ 8 = n := by simpa using (decode_full h hr hi).symm.trans hd
      exact ⟨rfl, rfl⟩

end

section
variable {v : Word} (h : bits v 7 0 = 0xBF)
include h

theorem bit_seven_pair : v.getLsbD 7 = true := by rw [bit_seven, h]; rfl

theorem length_pair : bits v 7 0 % 128 = 0x3F := by rw [h]

/-- A pair word that breaks no rule is what its slots hold (R87, R88). -/
theorem decode_pair {p0 p1 : PairSlot} (h0 : slotFields (v.extractLsb' 9 27) = some p0) (h1 : slotFields (v.extractLsb' 36 27) = some p1)
    (h63 : v.getLsbD 63 = false) (hr : pairReason p0 p1 = none) : decode v = .ok (.pairWord (v.getLsbD 8) p0 p1, 8) := by
  simp only [decode_wide (length_pair h), decodeWide, bit_seven_pair h, h0, h1, h63, hr, if_true, Bool.false_eq_true, if_false]
  rfl

theorem decode_pair_slot0 (h0 : slotFields (v.extractLsb' 9 27) = none) : decode v = .error (.reserved, 0) := by
  simp only [decode_wide (length_pair h), decodeWide, bit_seven_pair h, h0, if_true]
  rfl

theorem decode_pair_slot1 {p0 : PairSlot} (h0 : slotFields (v.extractLsb' 9 27) = some p0)
    (h1 : slotFields (v.extractLsb' 36 27) = none) : decode v = .error (.reserved, 1) := by
  simp only [decode_wide (length_pair h), decodeWide, bit_seven_pair h, h0, h1, if_true]
  rfl

end

/-- The opcode of the slot whose 27 bits begin at `n` (R87, R89). -/
theorem slotFields_opcode (v : Word) (n : Nat) :
    (slotFields (v.extractLsb' n 27)).isSome = (pairOp? (bits v (n + 6) n)).isSome := by
  have : ((v.extractLsb' n 27).extractLsb' 0 7).toNat = bits v (n + 6) n := by
    rw [← toNat_field v n 6, extractLsb'_toNat, extractLsb'_toNat, extractLsb'_toNat, Nat.shiftRight_zero,
      Nat.mod_mod_of_dvd _ (by decide)]
  rw [slotFields, Option.isSome_map, this]

/-! The obligations. -/

/-- Settles O3: the fields of a word put together are those it was made of, and its major names its instruction. -/
theorem wideRoundTrip : Obligations.WideRoundTrip := by
  refine ⟨fun i maj w hwf hi => ⟨?_, ?_⟩, fun h p0 p1 hwf => ⟨pairBits h p0 p1, rfl, ?_⟩⟩
  · simp only [encode, hi]
  · have hr : wideReason maj w = none := by simpa [Instr.wf, hi] using hwf
    refine decode_full (bits_wideWord maj w) ?_ ?_ <;> rw [major_wideWord, wideFields_wideWord]
    · exact hr
    · exact wideInstr?_of_wideOf? hi
  · have hr : pairReason p0 p1 = none := by simpa [Instr.wf, wideOf?] using hwf
    have hd := decode_pair (bits_pairBits h p0 p1) ((congrArg slotFields (slot0_pairBits h p0 p1)).trans (slotFields_slotBits p0))
      ((congrArg slotFields (slot1_pairBits h p0 p1)).trans (slotFields_slotBits p1)) (top_pairBits h p0 p1) hr
    rwa [h_pairBits] at hd

/-- Settles O2: the decoder takes a full form's fields where R84 places them. -/
theorem fullFormFields : Obligations.FullFormFields := by
  intro v i n h hd
  obtain ⟨hi, rfl⟩ := wideInstr?_of_decode h hd
  exact ⟨_, _, wideOf?_of_wideInstr? hi, rfl, toNat_field v 53 10, toNat_field v 51 1, toNat_field v 45 5, toNat_field v 38 6,
    toNat_field v 31 6, toNat_field v 24 6, rfl, toNat_field v 17 5, toNat_field v 9 7, rfl⟩

/-- Settles O5: a length that is no instruction's, a major without a row, and a reserved opcode in either slot. -/
theorem reservedEncodingsRefused : Obligations.ReservedEncodingsRefused := by
  refine ⟨fun v h => ?_, fun v h hm => decode_full_error h ?_, fun v h h0 => decode_pair_slot0 h ?_, fun v h h0 h1 => ?_⟩
  · have : v.toNat % 4 = 3 ∧ v.toNat % 32 = 31 ∧ v.toNat % 128 ≠ 0x3F := by simp only [bits] at h; omega
    have hl : lengthOf v = none := by
      simp only [lengthOf]
      rw [if_neg (by omega), if_neg (by omega), if_neg (by omega)]
    rw [decode, hl]
  · rw [wideReason, hm]
  · have := slotFields_opcode v 9
    simpa [h0] using this
  · obtain ⟨p0, h0'⟩ : ∃ p0, slotFields (v.extractLsb' 9 27) = some p0 := by
      rw [← Option.isSome_iff_exists, slotFields_opcode, Option.isSome_iff_ne_none]
      exact h0
    refine decode_pair_slot1 h h0' ?_
    have := slotFields_opcode v 36
    simpa [h1] using this

/-- A well-formed instruction of eight bytes is what its word decodes to. -/
theorem decode_encode_wide {i : Instr} {v : Word} (hwf : i.wf = true) (he : encode i = some (v, 8)) : decode v = .ok (i, 8) := by
  cases hi : wideOf? i with
  | some x =>
    obtain ⟨hword, hd⟩ := wideRoundTrip.1 i x.1 x.2 hwf hi
    obtain rfl : wideWord x.1 x.2 = v := by simpa using hword.symm.trans he
    exact hd
  | none =>
    simp only [encode, hi] at he
    split at he
    case h_1 h p0 p1 =>
      obtain ⟨v', hword, hd⟩ := wideRoundTrip.2 h p0 p1 hwf
      obtain rfl : v' = v := by simpa [encode, wideOf?] using hword.symm.trans he
      exact hd
    all_goals cases he

/-- Settles O1: each word of eight bytes is the one that encodes its instruction. -/
theorem wordsDecode : Obligations.WordsDecode :=
  have wide {i v} := @decode_encode_wide i v
  ⟨wide (by decide) rfl, wide (by decide) rfl, wide (by decide) rfl, wide (by decide) rfl, wide (by decide) rfl, wide (by decide) rfl,
    wide (by decide) rfl, wide (by decide) rfl, wide (by decide) rfl, wide (by decide) rfl, wide (by decide) rfl,
    by decide, by decide, by decide⟩

end Sys2Proof
end

section
/-! What a group finds at its pc and prepares to issue (R92-R95, R158), and the steps of a core of each type (log 1). -/

namespace Sys2Proof.Machine

/-! Findings (R95). -/

/-- Words that a key is to issue were judged legal, and a chain is collective for a SIMT thread alone. -/
theorem judge_of_findingOf_go {s : State} {k : Nat} {ws : List RawWord} {e : ChainEnd} {i : Instr} {w : RawWord} {rest : List RawWord}
    {coll strict : Bool} (h : findingOf s k ws e = .go i w rest coll strict) :
    ws = w :: rest ∧ ∃ c, judge (jctx s k) ws e = some (.run i c strict) ∧ coll = (c && isSimt k) := by
  unfold findingOf at h
  split at h
  case h_2 => split at h <;> cases h
  case h_5 i' c strict' w' ws' _ hj =>
    cases h
    exact ⟨rfl, c, hj, rfl⟩
  all_goals cases h

theorem isSimt_of_finding_coll {s : State} {k : Nat} {ws : List RawWord} {e : ChainEnd} {i : Instr} {w : RawWord} {rest : List RawWord}
    {strict : Bool} (h : finding s k ws e = .go i w rest true strict) : isSimt k = true := by
  obtain ⟨-, c, -, hc⟩ := judge_of_findingOf_go h
  exact (Bool.and_eq_true_iff.1 hc.symm).2

/-- A legal chain is strict where one of its instructions is. -/
theorem strict_of_judge {j : JCtx} {ws : List RawWord} {e : ChainEnd} {i : Instr} {coll strict : Bool}
    (h : judge j ws e = some (.run i coll strict)) : ∃ is, instrsOf ws = i :: is ∧ strict = (i :: is).any isStrict := by
  unfold judge at h
  split at h
  · cases h
  · split at h
    · cases h
    · split at h
      · cases h
      · next i' is hi =>
        cases h
        exact ⟨is, hi, rfl⟩

/-- A word alone is strict as its instruction is. -/
theorem strict_of_finding_last {s : State} {k : Nat} {ws : List RawWord} {e : ChainEnd} {i : Instr} {w : RawWord} {coll strict : Bool}
    (h : finding s k ws e = .go i w [] coll strict) : strict = isStrict i := by
  obtain ⟨hw, c, hj, -⟩ := judge_of_findingOf_go h
  obtain ⟨is, hi, rfl⟩ := strict_of_judge hj
  have hlen : (i :: is).length ≤ 1 := by
    rw [← hi, hw]
    exact List.length_filterMap_le ..
  obtain rfl : is = [] := by simpa using hlen
  simp

/-! What a group prepares. -/

theorem foldl_takeFinding_go (s : State) (keys : List Nat) (i : Instr) (w : RawWord) (rest : List RawWord) (coll strict : Bool) :
    (keys.map fun k => (k, Finding.go i w rest coll strict)).foldl (fun s (k, f) => takeFinding s k f) s = s := by
  induction keys with
  | nil => rfl
  | cons k ks ih => exact ih

/-- What a group is about to do once its keys have converged: those that issue keep the rest of their chain (R95). -/
def issueOf (i : Instr) (w : RawWord) (rest : List RawWord) (coll : Bool) (x : List Nat × State) : Ready × State :=
  if x.1 = [] then (.over, x.2) else (.go i, issueAt x.2 x.1 w rest coll)

/-- A group whose keys all find the same word prepares it, and converges first where a collective chain begins there (R158). -/
theorem prepare_eq {s s1 : State} {keys : List Nat} {ws : List RawWord} {e : ChainEnd} {w : RawWord} {i : Instr} {rest : List RawWord}
    {coll strict : Bool} (hg : gatherFor (fetchAt s keys) keys = ((ws, e), s1))
    (hf : ∀ k ∈ keys, finding s1 k ws e = .go i w rest coll strict) (hne : keys ≠ []) :
    prepare s keys = issueOf i w rest coll
      (if coll && !keys.all (inChain s1) then convergeGroup s1 w.addr strict keys (readyThere s1 (keys.headD 0) w ws e)
        else (keys, s1)) := by
  have hmap : (keys.map fun k => (k, finding s1 k ws e)) = keys.map fun k => (k, Finding.go i w rest coll strict) :=
    List.map_congr_left fun k hk => by rw [hf k hk]
  have hkeys : (keys.map fun k => (k, Finding.go i w rest coll strict)).filterMap
      (fun x => if x.2 = .go i w rest coll strict then some x.1 else none) = keys := by
    simp [List.filterMap_map]
  have hfirst : ∀ f : Nat × Finding → Option (Instr × RawWord × List RawWord × Bool × Bool),
      (∀ k, f (k, .go i w rest coll strict) = some (i, w, rest, coll, strict)) →
      (keys.map fun k => (k, Finding.go i w rest coll strict)).findSome? f = some (i, w, rest, coll, strict) := by
    obtain ⟨k, ks, rfl⟩ := List.exists_cons_of_ne_nil hne
    intro f h
    simp [h]
  simp only [fetchAt] at hg
  simp only [prepare, hg, hmap, foldl_takeFinding_go]
  rw [hfirst]
  · simp only [hkeys]
    rfl
  · exact fun _ => rfl

/-- A group that does not converge at its word issues it. -/
theorem prepare_fetched {s s1 : State} {keys : List Nat} {w : RawWord} {i : Instr} {rest : List RawWord} {coll : Bool}
    (hf : Fetches s keys w i rest coll s1) (hne : keys ≠ []) (hc : coll = false ∨ ∀ j ∈ keys, inChain s1 j = true) :
    prepare s keys = (.go i, issueAt s1 keys w rest coll) := by
  obtain ⟨ws, e, strict, hg, hgo⟩ := hf
  have : (coll && !keys.all (inChain s1)) = false := by
    rcases hc with rfl | hin
    · rfl
    · simpa using fun _ => hin
  rw [prepare_eq hg hgo.1 hne, this, if_neg Bool.false_ne_true, issueOf, if_neg hne]

/-- A word is collective for SIMT threads alone. -/
theorem coll_eq_false {s s1 : State} {k : Nat} {w : RawWord} {i : Instr} {rest : List RawWord} {coll : Bool}
    (hf : Fetches s [k] w i rest coll s1) (hk : isSimt k = false) : coll = false := by
  obtain ⟨ws, e, strict, -, hgo⟩ := hf
  cases coll with
  | false => rfl
  | true => exact absurd (isSimt_of_finding_coll (hgo.1 k List.mem_cons_self)) (by simp [hk])

/-! The issue of each core type. -/

theorem stepHart_go {s s1 : State} {k : Nat} {i : Instr} (hirq : hartIrq s k = none) (hrun : (hart s k).running = true)
    (hw : (thr s k).wait = .none) (ha : asyncTrap s k = none) (hp : prepare s [k] = (.go i, s1)) :
    stepHart s k = some (andThen (exec i s1) fun t => retire t k i) := by
  simp [stepHart, hirq, hrun, hw, ha, hp]

theorem stepCobbler_go {s s1 s2 : State} {x : Nat} {i : Instr} (hrun : (slice s x).run ≠ none)
    (hp : prepare s [cobKey x] = (.go i, s1)) (hc : payCycle s1 x i = (true, s2)) : stepCobbler s x = some (exec i s2) := by
  simp [stepCobbler, hrun, hp, hc]

/-- The experiment of a trial leaves the instruction that is about to issue. -/
theorem experiment_cur (s : State) (c : Nat) (keys : List Nat) : (experiment s c keys).2.cur = s.cur := by
  have hfold : ∀ (f : State → Thread → Thread) (ks : List Nat) (s : State), (ks.foldl (fun s k => modThr s k (f s)) s).cur = s.cur := by
    intro f ks
    induction ks with
    | nil => exact fun _ => rfl
    | cons k ks ih => exact fun s => ih (modThr s k (f s))
  unfold experiment
  split
  · split
    · dsimp only
      split
      · rfl
      · split
        · rfl
        · split
          · exact hfold (fun _ => _) ..
          · exact hfold ..
    · rfl
  · rfl

section
variable {s s1 : State} {c : Nat} {g : List Nat} (ha : (onCore s c).findSome? (asyncTrap s) = none)
  (hcan : (onCore s c).filter (canIssue s) ≠ [])
  (hch : chooseGroup (formerUpdate s c ((onCore s c).filter (canIssue s))) c ((onCore s c).filter (canIssue s)) = (g, s1))
include ha hcan hch

/-- A core whose group has nothing more to do: causes were taken, or threads wait. -/
theorem stepCore_over {t : State} (hp : prepare s1 g = (.over, t)) : stepCore s c = some (.next t) := by
  obtain ⟨k, ks, hks⟩ := List.exists_cons_of_ne_nil hcan
  rw [hks] at hch
  simp [stepCore, ha, hks, hch, hp]

theorem stepCore_go {s2 u : State} {i : Instr} {keys : List Nat} {w : RawWord} {rest : List RawWord} {coll : Bool}
    (hp : prepare s1 g = (.go i, issueAt s2 keys w rest coll)) (he : experiment (issueAt s2 keys w rest coll) c keys = (true, u)) :
    stepCore s c = some (andThen (exec i u) fun t =>
      settleStops (afterGroup t c keys i w.addr (asidK u (keys.headD 0)) (thr u (keys.headD 0)).team)) := by
  obtain ⟨k, ks, hks⟩ := List.exists_cons_of_ne_nil hcan
  rw [hks] at hch
  have hcur : u.cur = (issueAt s2 keys w rest coll).cur := by
    rw [← experiment_cur (issueAt s2 keys w rest coll) c keys, he]
  have hkeys : (issueAt s2 keys w rest coll).cur.keys = keys := rfl
  simp [stepCore, ha, hks, hch, hp, he, hkeys, hcur]
  rfl

end

/-! A step without a turn (log 1). -/

theorem isSimt_of_isHart {k : Nat} (h : isHart k = true) : isSimt k = false := by
  simp [isHart, isSimt] at h ⊢
  exact h.1

theorem isSimt_cobKey (x : Nat) : isSimt (cobKey x) = false := decide_eq_false (by rw [cobKey]; omega)

theorem isHart_cobKey (x : Nat) : isHart (cobKey x) = false := by
  simp [isHart, cobKey]

section
variable {s : State} (ht : s.turns = []) (hp : s.boot.powered = true)
include ht hp

theorem step_hart (hk : isHart s.focus = true) : step s = (stepHart s s.focus).getD (.fault .idle) := by
  simp [step, ht, hp, hk]

theorem step_simt (hk : isSimt s.focus = true) : step s = (stepCore s (coreOf s.focus)).getD (.fault .idle) := by
  simp [step, ht, hp, isHart_of_isSimt hk, hk]

theorem step_cobbler {x : Nat} (hk : s.focus = cobKey x) : step s = (stepCobbler s x).getD (.fault .idle) := by
  simp [step, ht, hp, hk, isHart_cobKey, isSimt_cobKey]
  rw [cobKey, Nat.add_sub_cancel_left]

end

/-- Settles O6: what is fetched is prepared as it stands, since harts and cobbler cores do not converge and a group inside its chain
has. -/
theorem stepRunsDecoded : Obligations.StepRunsDecoded := by
  intro s ht hp
  refine ⟨fun k i w rest coll s1 hfoc hk hirq hrun hw ha hf => ?_, fun x i w rest coll s1 s2 hfoc hx hrun hf hpay => ?_,
    fun k0 c k ks i w rest coll s1 s2 u hfoc hk0 hc ha hcan hch hk hf hcoll he => ?_⟩
  · have hprep := prepare_fetched hf (by simp) (.inl (coll_eq_false hf (isSimt_of_isHart hk)))
    rw [step_hart ht hp (hfoc ▸ hk), hfoc, stepHart_go hirq hrun hw ha hprep]
    rfl
  · have hprep := prepare_fetched hf (by simp) (.inl (coll_eq_false hf (isSimt_cobKey x)))
    rw [step_cobbler ht hp hfoc, stepCobbler_go hrun hprep hpay]
    rfl
  · have hprep := prepare_fetched hf (by simp) hcoll
    rw [step_simt ht hp (hfoc ▸ hk0), hfoc, hc, stepCore_go ha hcan hch hprep he]
    rfl

end Sys2Proof.Machine
end

section
/-! Convergence (R158-R161): causes, waits and wakes of the members of one gang, and the group that a collective chain finds. -/

namespace Sys2Proof.Machine

/-! A meaning applied to keys, one after the other. -/

/-- What each step of a fold does to its own thread alone, the fold does to the threads of keys without repeats. -/
theorem foldl_onlyThreads {F : State → Nat → State} {P : Nat → Thread → Prop} {R : Thread → Thread → Prop}
    (hF : ∀ s j, P j (thr s j) → OnlyThreads [j] s (F s j) ∧ R (thr s j) (thr (F s j) j)) {ks : List Nat} (hn : ks.Nodup)
    (s : State) (hP : ∀ j ∈ ks, P j (thr s j)) :
    OnlyThreads ks s (ks.foldl F s) ∧ ∀ j ∈ ks, R (thr s j) (thr (ks.foldl F s) j) := by
  induction ks generalizing s with
  | nil => exact ⟨⟨rfl, fun _ _ => rfl⟩, by simp⟩
  | cons k ks ih =>
    obtain ⟨hk, hn⟩ := List.nodup_cons.1 hn
    obtain ⟨⟨hs, hslot⟩, hR⟩ := hF s k (hP k List.mem_cons_self)
    have hthr : ∀ j, j ≠ k → thr (F s k) j = thr s j := fun j hj => by
      rw [thr, hslot j (by simpa using hj), thr]
    have hne : ∀ j ∈ ks, j ≠ k := fun j hj h => hk (h ▸ hj)
    obtain ⟨⟨hs', hslot'⟩, hR'⟩ := ih hn (F s k) fun j hj => by
      rw [hthr j (hne j hj)]
      exact hP j (List.mem_cons_of_mem _ hj)
    refine ⟨⟨?_, fun j hj => ?_⟩, fun j hj => ?_⟩
    · rw [List.foldl_cons, hs', hs]
    · simp only [List.mem_cons, not_or] at hj
      exact (hslot' j hj.2).trans (hslot j (by simpa using hj.1))
    · rcases List.mem_cons.1 hj with rfl | hj
      · have : thr (ks.foldl F (F s j)) j = thr (F s j) j := by rw [thr, hslot' j hk, thr]
        rwa [List.foldl_cons, this]
      · have := hR' j hj
        rwa [hthr j (hne j hj)] at this

/-- A change that leaves a thread as it is the second time may be applied to keys with repeats. -/
theorem foldl_modThr_idem {f : Thread → Thread} (hf : ∀ t, f (f t) = f t) (ks : List Nat) (s : State) :
    let t := ks.foldl (fun s k => modThr s k f) s
    OnlyThreads ks s t ∧ ∀ j ∈ ks, thr t j = f (thr s j) := by
  induction ks generalizing s with
  | nil => exact ⟨⟨rfl, fun _ _ => rfl⟩, by simp⟩
  | cons k ks ih =>
    obtain ⟨⟨hs, hslot⟩, hthr⟩ := ih (modThr s k f)
    refine ⟨⟨hs, fun j hj => ?_⟩, fun j hj => ?_⟩
    · simp only [List.mem_cons, not_or] at hj
      exact (hslot j hj.2).trans (slot_modThr_other s f hj.1)
    · rw [List.foldl_cons]
      by_cases hjk : j = k
      · subst hjk
        by_cases hmem : j ∈ ks
        · rw [hthr j hmem, thr_modThr_same, hf]
        · rw [thr, hslot j hmem, ← thr, thr_modThr_same]
      · rw [hthr j ((List.mem_cons.1 hj).resolve_left hjk), thr_modThr_other s f hjk]

/-! Cause 0x05 (R160, R161). -/

/-- A SIMT thread that takes cause 0x05 in its user handler, with nothing issued. -/
def Trappable (j : Nat) (t : Thread) : Prop :=
  isSimt j = true ∧ t.helper = false ∧ t.trap.inh = false ∧ t.trap.hvec ≠ 0 ∧ t.ops = []

/-- The thread is in its handler with cause 0x05, and its own pc is the resume point. -/
def ConvergeTrapped (t u : Thread) : Prop :=
  u.st = .ready ∧ u.wait = .none ∧ u.pc = t.trap.hvec ∧ u.trap.hcause = 5 ∧ u.trap.hepc = t.pc ∧ KeepsRegs [] t u

/-- A handler is entered by a ready thread that waits for nothing. -/
theorem enterHandler_ready {t : Thread} {tr : Trap} (ho : t.ops = []) (hd : tr.dec = none) (hr : tr.hrace = none)
    (hl : tr.hlace = none) : (enterHandler tr t).st = .ready ∧ (enterHandler tr t).wait = .none ∧ (enterHandler tr t).team = t.team := by
  have hdet : trapDetail tr t = t := by simp [trapDetail, hd, hr, hl]
  unfold enterHandler
  rw [hdet, capture_noOps ho]
  exact ⟨rfl, rfl, rfl⟩

theorem trapConverge_spec (s : State) (j : Nat) (h : Trappable j (thr s j)) :
    OnlyThreads [j] s (trapConverge s j) ∧ ConvergeTrapped (thr s j) (thr (trapConverge s j) j) ∧
      (thr (trapConverge s j) j).team = (thr s j).team := by
  obtain ⟨hk, hh, hi, hv, ho⟩ := h
  let u : Thread := { thr s j with st := .ready, wait := .none, wus := 0 }
  let w := (chainAt (setThr s j u) j).1.1.headD ⟨(thr (setThr s j u) j).pc, 0, 8⟩
  let tr : Trap := { code := 5, insn := w.bits, addr := w.addr }
  have heq : trapConverge s j = raiseTrap (setThr s j u) j tr .load := if_neg (by simpa [modThr] using hh)
  have hraise := raiseTrap_user (s := setThr s j u) (tr := tr) .load hk (by simpa using hh) (by simpa using hi) (by simpa using hv) rfl rfl
  rw [thr_setThr_same] at hraise
  obtain ⟨htrap, hpc, -, hregs⟩ := enterHandler_noOps (t := u) (tr := tr) ho rfl rfl rfl
  obtain ⟨hst, hwait, hteam⟩ := enterHandler_ready (t := u) (tr := tr) ho rfl rfl rfl
  rw [heq, hraise, thr_setThr_same]
  exact ⟨onlyThreads_setThr_setThr .., ⟨hst, hwait, hpc, congrArg TrapState.hcause htrap, congrArg TrapState.hepc htrap,
    fun n _ => hregs n⟩, hteam⟩

theorem foldl_trapConverge {ks : List Nat} (hn : ks.Nodup) (s : State) (h : ∀ j ∈ ks, Trappable j (thr s j)) :
    OnlyThreads ks s (ks.foldl trapConverge s) ∧ ∀ j ∈ ks, ConvergeTrapped (thr s j) (thr (ks.foldl trapConverge s) j) :=
  foldl_onlyThreads (fun s j hj => ⟨(trapConverge_spec s j hj).1, (trapConverge_spec s j hj).2.1⟩) hn s h

/-! Waits and wakes (R159). -/

/-- A thread as it starts to wait. -/
def blockedAt (w : Wait) (t : Thread) : Thread := { t with st := .blocked, wait := w, wus := 0 }

theorem foldl_block (w : Wait) (ks : List Nat) (s : State) :
    OnlyThreads ks s (ks.foldl (fun s k => block s k w) s) ∧
      ∀ j ∈ ks, thr (ks.foldl (fun s k => block s k w) s) j = blockedAt w (thr s j) :=
  foldl_modThr_idem (f := blockedAt w) (fun _ => rfl) ks s

/-- A thread as it leaves its wait at a cycle. -/
def wokenAt (n : Nat) (t : Thread) : Thread :=
  if t.st = .halted then { t with before := .ready, wait := .none, wus := 0 } else { t with st := .ready, wait := .none, wus := 0, age := n }

theorem wokenAt_idem (n : Nat) (t : Thread) : wokenAt n (wokenAt n t) = wokenAt n t := by
  by_cases h : t.st = .halted <;> simp [wokenAt, h]

theorem foldl_wake (ks : List Nat) (s : State) : ks.foldl wake s = ks.foldl (fun t k => modThr t k (wokenAt s.cycle)) s := by
  induction ks generalizing s with
  | nil => rfl
  | cons k ks ih => exact ih (wake s k)

/-- The member of an index that waits to converge, with where. -/
def waiterAt (s : State) (m : Team) (n : Nat) : Option (Nat × Word) :=
  if (member m n).loc = .here then
    match (thr s (memberKey m n)).wait with | .converge x => some (memberKey m n, x) | _ => none
  else none

theorem waiterAt_eq_some {s : State} {m : Team} {n : Nat} {y : Nat × Word} :
    waiterAt s m n = some y ↔ (member m n).loc = .here ∧ y.1 = memberKey m n ∧ (thr s y.1).wait = .converge y.2 := by
  obtain ⟨j, x⟩ := y
  unfold waiterAt
  by_cases hl : (member m n).loc = .here
  · rw [if_pos hl]
    cases hw : (thr s (memberKey m n)).wait
    case converge x' =>
      simp only [Option.some.injEq, Prod.mk.injEq, hl, true_and]
      constructor
      · rintro ⟨rfl, rfl⟩
        exact ⟨rfl, hw⟩
      · rintro ⟨rfl, h⟩
        rw [hw] at h
        cases h
        exact ⟨rfl, rfl⟩
    all_goals
      simp only [reduceCtorEq, false_iff, not_and]
      rintro - rfl h
      cases hw.symm.trans h
  · simp [hl]

/-- The live positions of a gang. -/
def livePositions (m : Team) (g : Nat) : List Nat := (gangIdx m g).filter (posLive m)

theorem convWaiters_eq (s : State) (m : Team) (g : Nat) : convWaiters s m g = (livePositions m g).filterMap (waiterAt s m) := by
  rw [livePositions, List.filterMap_filter, convWaiters]
  refine List.filterMap_congr fun n _ => ?_
  unfold waiterAt
  by_cases hp : posLive m n = true <;> by_cases hl : (member m n).loc = .here <;> simp [hp, hl] <;> rfl

section
variable {s : State} {p asid num : Nat} {m : Team} (hm : team? s p asid num = some m)
include hm

/-- A gang stays as it is while a live member does not wait. -/
theorem gangEval_stays {g n : Nat} (hn : n ∈ livePositions m g) (hw : waiterAt s m n = none) : gangEval s p asid num g = s := by
  have hlen : (convWaiters s m g).length < (livePositions m g).length := by
    rw [convWaiters_eq]
    exact List.length_filterMap_lt_length_iff_exists.2 ⟨n, hn, hw⟩
  unfold gangEval
  simp only [hm]
  split
  · rfl
  · next k x ws hws =>
    rw [hws] at hlen
    have : (ws.length + 1 = ((gangIdx m g).filter (posLive m)).length) = False := by
      rw [eq_iff_iff, iff_false]
      exact ne_of_lt hlen
    simp [this]

/-- A gang whose live members all wait at one place becomes ready there. -/
theorem gangEval_wakes {g : Nat} {x : Word} (hne : livePositions m g ≠ [])
    (hw : ∀ n ∈ livePositions m g, waiterAt s m n = some (memberKey m n, x))
    (hb : ∀ n ∈ livePositions m g, (thr s (memberKey m n)).st = .blocked) :
    gangEval s p asid num g = (liveKeys m g).foldl wake s := by
  have hws : convWaiters s m g = (livePositions m g).map fun n => (memberKey m n, x) := by
    rw [convWaiters_eq, List.filterMap_congr hw, List.filterMap_eq_map']
  obtain ⟨n, ns, hns⟩ := List.exists_cons_of_ne_nil hne
  have hlive : liveKeys m g = (livePositions m g).map (memberKey m) := rfl
  have hfilter : (gangIdx m g).filter (posLive m) = n :: ns := hns
  unfold gangEval
  rw [hns] at hws hlive hb
  simp only [hm, hws, hfilter, hlive, List.map_cons]
  rw [if_pos]
  · simp [List.foldl_map]
  · simpa using hb

end

/-! The threads of one gang at the first word of a collective chain (R158). -/

theorem uniq_const [DecidableEq α] {y : α} {l : List α} (h : ∀ x ∈ l, x = y) (hne : l ≠ []) : uniq l = [y] := by
  obtain ⟨x, xs, rfl⟩ := List.exists_cons_of_ne_nil hne
  obtain ⟨rfl, hxs⟩ := List.forall_mem_cons.1 h
  have hu : ∀ z ∈ uniq xs, z = x := by
    clear h hne
    induction xs with
    | nil => simp [uniq]
    | cons z zs ih =>
      obtain ⟨rfl, hzs⟩ := List.forall_mem_cons.1 hxs
      refine List.forall_mem_cons.2 ⟨rfl, fun a ha => ih hzs a (List.mem_of_mem_filter ha)⟩
  simp only [uniq, List.cons.injEq, true_and, List.filter_eq_nil_iff]
  intro z hz
  simp [hu z hz]

theorem teamK?_eq_some {s : State} {k : Nat} {m : Team} :
    teamK? s k = some m ↔ (thr s k).team ≠ 0 ∧ team? s (partOf s k) (asidK s k) (thr s k).team = some m := by
  unfold teamK?
  split <;> simp [*]

/-- A gang that is alone is picked first. -/
theorem pickGangs_one {s s' : State} {l : List Nat} (h : oldestGroup s [l] = (l, s')) : pickGangs s [] [l] 1 = (l, s') := by
  simp [pickGangs, h]

theorem byLane_nil : byLane [] = [] := by simp [byLane]

section
variable {s : State} {k : Nat} {ks cand : List Nat} {x : Word} {strict : Bool} (hcand : ∀ j ∈ cand, j ∈ k :: ks)
include hcand

/-- A thread of no team takes cause 0x05 (R160). -/
theorem convergeGroup_solo (hks : ks = []) (h0 : (thr s k).team = 0) (h1 : (thr (trapConverge s k) k).team = 0) :
    convergeGroup s x strict (k :: ks) cand = ([], trapConverge s k) := by
  subst hks
  have hall : ((cand ++ [k]).filter fun j => (thr (trapConverge s k) j).team ≠ 0) = [] := by
    rw [List.filter_eq_nil_iff]
    intro j hj
    obtain rfl : j = k := by
      rcases List.mem_append.1 hj with hj | hj
      · simpa using hcand j hj
      · simpa using hj
    simp [h1]
  have hsolo : ([k].filter fun j => (thr s j).team = 0) = [k] := by simp [h0]
  unfold convergeGroup
  simp only [hsolo, List.foldl_cons, List.foldl_nil, hall, List.map_nil]
  simp [uniq, pickGangs, byLane_nil]

variable {m : Team} {g : Nat} (hm : teamK? s k = some m)
  (hgang : ∀ j ∈ k :: ks, (thr s j).team = (thr s k).team ∧ gangNo (thr s j) = g)
include hm hgang

/-- The threads of one gang, none of another being ready there: the gang issues, or its members take a cause or wait. -/
theorem convergeGroup_gang :
    convergeGroup s x strict (k :: ks) cand =
      if (gangWhole m g cand && !(strict && strictBad m g)) = true then
        (byLane (pickGangs s [] [liveKeys m g] 1).1, (pickGangs s [] [liveKeys m g] 1).2)
      else ([], convergeGang s x (strict && strictBad m g) (partOf s k) (asidK s k) (thr s k).team g (k :: ks)) := by
  obtain ⟨h0, ht⟩ := teamK?_eq_some.1 hm
  have hsolo : ((k :: ks).filter fun j => (thr s j).team = 0) = [] := by
    rw [List.filter_eq_nil_iff]
    intro j hj
    simpa [(hgang j hj).1] using h0
  have hmem : ∀ j ∈ cand ++ k :: ks, j ∈ k :: ks := fun j hj => (List.mem_append.1 hj).elim (hcand j) id
  have hgangs : uniq (((cand ++ k :: ks).filter fun j => (thr s j).team ≠ 0).map fun j => ((thr s j).team, gangNo (thr s j))) =
      [((thr s k).team, g)] := by
    refine uniq_const (fun y hy => ?_) ?_
    · obtain ⟨j, hj, rfl⟩ := List.mem_map.1 hy
      obtain ⟨h1, h2⟩ := hgang j (hmem j (List.mem_of_mem_filter hj))
      rw [h1, h2]
    · simp [h0]
  have hin : ((k :: ks).filter fun j => ((thr s j).team, gangNo (thr s j)) = ((thr s k).team, g)) = k :: ks := by
    rw [List.filter_eq_self]
    intro j hj
    obtain ⟨h1, h2⟩ := hgang j hj
    simp [h1, h2]
  have hany : ((k :: ks).any fun j => (thr s j).team ≠ 0 && ((thr s j).team, gangNo (thr s j)) = ((thr s k).team, g)) = true := by
    have := (hgang k List.mem_cons_self).2
    simp [h0, this]
  unfold convergeGroup
  simp only [hsolo, List.foldl_nil, hgangs, List.headD_cons]
  by_cases hwhole : (gangWhole m g cand && !(strict && strictBad m g)) = true
  · rw [if_pos hwhole]
    simp only [List.filter_singleton, ht, hwhole, cond_true, cond_false, List.contains_cons, beq_self_eq_true, Bool.true_or, Bool.not_true,
      Bool.false_and, List.foldl_nil, List.map_cons, List.map_nil, List.length_cons, List.length_nil, Nat.zero_add]
  · rw [if_neg hwhole]
    rw [Bool.not_eq_true] at hwhole
    simp only [List.filter_singleton, ht, hwhole, cond_true, cond_false, List.contains_nil, Bool.not_false, Bool.true_and, hany,
      List.foldl_cons, List.foldl_nil, hin, List.map_nil, List.length_nil, pickGangs, byLane_nil]

end

end Sys2Proof.Machine
end

section
/-! Legal words (R92-R95), and what a gang does that reaches the first word of a collective chain (R158-R161). -/

namespace Sys2Proof.Machine

/-! Words that are fetched, and words that were decoded before (R92-R95). -/

theorem coreType_simt (k : Nat) : isSimt k = decide (coreType k = .simt) := by
  unfold coreType
  split
  · next h => simp [h]
  · next h =>
    rw [Bool.not_eq_true] at h
    split <;> simp [h]

/-- A legal word that ends its chain is judged as its instruction alone. -/
theorem judge_one {j : JCtx} {w : RawWord} {i : Instr} {n : Nat} (hd : decode w.bits = .ok (i, n))
    (hh : lengthOf w.bits = some 8 → bit w.bits 8 = false) (hr : wordReason j j.lv false w = none) (hs : wrongSide j.core i = false) :
    judge j [w] .done = some (.run i (isCollective i) (isStrict i)) := by
  have hlast : (decide (lengthOf w.bits = some 8) && bit w.bits 8) = false := by
    by_cases hl : lengthOf w.bits = some 8
    · simp [hh hl]
    · simp [hl]
  have hfrom : judgeFrom j .done 0 j.lv [w] = none := by simp [judgeFrom, hlast, hr]
  simp [judge, hfrom, hd, hs, instrsOf]

/-- A fetched word that ends its chain is gathered alone. -/
theorem gather_last {s s1 : State} {k : Nat} {pc v : Word} {len n : Nat} (hn : n ≠ 0) (hf : fetchOne s k pc = (.ok (v, len), s1))
    (hh : lengthOf v = some 8 → bit v 8 = false) : gather s k pc true n = (([⟨pc, v, len⟩], .done), s1) := by
  obtain ⟨n, rfl⟩ := Nat.exists_eq_succ_of_ne_zero hn
  have hlast : (lengthOf v = some 8 && pc.toNat % 8 = 0 && bit v 8 && n ≠ 0) = false := by
    by_cases hl : lengthOf v = some 8
    · simp [hh hl]
    · simp [hl]
  simp only [gather, hf, hlast]
  simp

theorem le_foldl_max (f : Nat → Nat) (l : List Nat) (n : Nat) : n ≤ l.foldl (fun n k => max n (f k)) n := by
  induction l generalizing n with
  | nil => exact le_rfl
  | cons x l ih => exact (le_max_left ..).trans (ih _)

/-- R92-R95: keys outside a chain issue the legal word at their pc. -/
theorem fetches_fetched {s s1 : State} {k : Nat} {ks : List Nat} {w : RawWord} {i : Instr}
    (hw : ∀ j ∈ k :: ks, (thr s j).chain.words = [])
    (hf : fetchOne (fetchAt s (k :: ks)) k (thr s k).pc = (.ok (w.bits, w.len), s1)) (ha : w.addr = (thr s k).pc)
    (hh : lengthOf w.bits = some 8 → bit w.bits 8 = false) (hd : decode w.bits = .ok (i, w.len))
    (hj : ∀ j ∈ k :: ks, jctx s1 j = jctx s1 k) (hw1 : ∀ j ∈ k :: ks, (thr s1 j).chain.words = [])
    (hr : wordReason (jctx s1 k) (jctx s1 k).lv false w = none) (hs : wrongSide (coreType k) i = false) :
    Fetches s (k :: ks) w i [] (isCollective i && isSimt k) s1 := by
  have hkeys : ((k :: ks).filter fun j => (thr (fetchAt s (k :: ks)) j).chain.words = []) = k :: ks := by
    rw [List.filter_eq_self]
    exact fun j hj => decide_eq_true (hw j hj)
  refine ⟨[w], .done, isStrict i, ?_, fun j hjk => ?_, hd⟩
  · obtain ⟨addr, v, len⟩ := w
    obtain rfl : addr = (thr s k).pc := ha
    rw [gatherFor, hkeys]
    exact gather_last (Nat.one_le_iff_ne_zero.1 (le_foldl_max ..)) hf hh
  · have hwords : wordsOf (thr s1 j) [w] .done = ([w], .done) := by
      simp only [wordsOf, hw1 j hjk]
      split
      · rw [List.take_of_length_le]
        simp
        omega
      · rfl
    have hsimt : isSimt j = isSimt k := by
      rw [coreType_simt, coreType_simt, show coreType j = coreType k from congrArg JCtx.core (hj j hjk)]
    simp only [finding, hwords, findingOf, hj j hjk, judge_one hd hh hr hs, hsimt]

/-- R95: keys inside a chain issue the next of its decoded words. -/
theorem fetches_kept {s : State} {keys : List Nat} {w : RawWord} {rest : List RawWord} {i : Instr} {coll strict : Bool}
    (hw : ∀ j ∈ keys, (thr s j).chain.words = w :: rest ∧ judge (jctx s j) (w :: rest) .done = some (.run i coll strict))
    (hk : ∀ j ∈ keys, isSimt j = true) (hd : decode w.bits = .ok (i, w.len)) : Fetches s keys w i rest coll (fetchAt s keys) := by
  have hkeys : (keys.filter fun j => (thr (fetchAt s keys) j).chain.words = []) = [] := by
    rw [List.filter_eq_nil_iff]
    intro j hj
    rw [show thr (fetchAt s keys) j = thr s j from rfl, (hw j hj).1]
    simp
  refine ⟨[], .done, strict, ?_, fun j hj => ?_, hd⟩
  · rw [gatherFor, hkeys]
  · obtain ⟨hwords, hjudge⟩ := hw j hj
    have hwords : wordsOf (thr (fetchAt s keys) j) [] .done = (w :: rest, .done) := by
      rw [show thr (fetchAt s keys) j = thr s j from rfl, wordsOf, hwords]
    have hjudge : judge (jctx (fetchAt s keys) j) (w :: rest) .done = some (.run i coll strict) := hjudge
    simp only [finding, hwords, findingOf, hjudge, hk j hj, Bool.and_true]

/-! What the members of a gang do that does not issue (R159-R161). -/

theorem onlyThreads_trans {ks ls : List Nat} {s t u : State} (h : OnlyThreads ks s t) (h' : OnlyThreads ls t u)
    (hsub : ∀ j ∈ ks, j ∈ ls) : OnlyThreads ls s u :=
  ⟨by rw [h'.1, h.1], fun j hj => (h'.2 j hj).trans (h.2 j fun hk => hj (hsub j hk))⟩

theorem teamOpt_of_onlyThreads {ks : List Nat} {s t : State} (h : OnlyThreads ks s t) (p asid num : Nat) :
    team? t p asid num = team? s p asid num := by rw [h.1]; rfl

section
variable {s : State} {p asid num : Nat} {m : Team} (hm : team? s p asid num = some m) {x : Word} {g : Nat} (keys : List Nat)
include hm

theorem convergeGang_bad : convergeGang s x true p asid num g keys = keys.foldl trapConverge s := by
  simp [convergeGang, hm]

theorem convergeGang_elsewhere (h : ∃ y ∈ convWaiters s m g, y.2 ≠ x) :
    convergeGang s x false p asid num g keys = ((convWaiters s m g).map (·.1) ++ keys).foldl trapConverge s := by
  have hany : ((convWaiters s m g).any fun y => y.2 ≠ x) = true := by
    obtain ⟨y, hy, hyx⟩ := h
    exact List.any_eq_true.2 ⟨y, hy, decide_eq_true hyx⟩
  simp only [convergeGang, hm, hany, Bool.false_eq_true, if_false, if_true]

theorem convergeGang_waits (h : ∀ y ∈ convWaiters s m g, y.2 = x) :
    convergeGang s x false p asid num g keys = gangEval (keys.foldl (fun s k => block s k (.converge x)) s) p asid num g := by
  have hany : ((convWaiters s m g).any fun y => y.2 ≠ x) = false := by
    rw [List.any_eq_false]
    intro y hy
    simpa using h y hy
  simp only [convergeGang, hm, hany, Bool.false_eq_true, if_false]

end

section
variable {s : State} {p asid num : Nat} {m : Team} (hm : team? s p asid num = some m) {x : Word} {g : Nat} {keys : List Nat}
  (hx : ∀ y ∈ convWaiters s m g, y.2 = x)
include hm hx

/-- While a live member neither arrives nor waits, those that arrive wait. -/
theorem convergeGang_blocks {n : Nat} (hn : n ∈ livePositions m g) (hk : memberKey m n ∉ keys)
    (hw : ∀ y, (thr s (memberKey m n)).wait ≠ .converge y) :
    let t := convergeGang s x false p asid num g keys
    OnlyThreads keys s t ∧ ∀ j ∈ keys, thr t j = blockedAt (.converge x) (thr s j) := by
  obtain ⟨hout, hthr⟩ := foldl_block (.converge x) keys s
  have hstay : thr (keys.foldl (fun s k => block s k (.converge x)) s) (memberKey m n) = thr s (memberKey m n) := by
    rw [thr, hout.2 _ hk, thr]
  have hnone : waiterAt (keys.foldl (fun s k => block s k (.converge x)) s) m n = none := by
    rw [Option.eq_none_iff_forall_ne_some]
    intro y hy
    obtain ⟨-, hyk, hyw⟩ := waiterAt_eq_some.1 hy
    rw [hyk, hstay] at hyw
    exact hw _ hyw
  have hm' : team? (keys.foldl (fun s k => block s k (.converge x)) s) p asid num = some m := by
    rw [teamOpt_of_onlyThreads hout, hm]
  rw [convergeGang_waits hm keys hx, gangEval_stays hm' hn hnone]
  exact ⟨hout, hthr⟩

/-- When every live member arrives or waits, all become ready. -/
theorem convergeGang_joins (hkeys : ∀ j ∈ keys, j ∈ liveKeys m g) (hne : keys ≠ [])
    (hb : ∀ y ∈ convWaiters s m g, (thr s y.1).st = .blocked)
    (hall : ∀ n ∈ livePositions m g, (member m n).loc = .here ∧ (memberKey m n ∈ keys ∨ ∃ y ∈ convWaiters s m g, y.1 = memberKey m n)) :
    let t := convergeGang s x false p asid num g keys
    OnlyThreads (liveKeys m g) s t ∧
      ∀ j ∈ liveKeys m g, thr t j = { thr s j with st := .ready, wait := .none, wus := 0, age := s.cycle } := by
  let b := keys.foldl (fun s k => block s k (.converge x)) s
  obtain ⟨hout, hthr⟩ := foldl_block (.converge x) keys s
  have hm' : team? b p asid num = some m := by rw [teamOpt_of_onlyThreads hout, hm]
  have hcycle : b.cycle = s.cycle := by rw [show b = _ from hout.1]
  have hblocked : ∀ n ∈ livePositions m g, ∃ u, thr b (memberKey m n) = { thr s (memberKey m n) with
      st := .blocked, wait := .converge x, wus := u } := by
    intro n hn
    by_cases hk : memberKey m n ∈ keys
    · exact ⟨0, hthr _ hk⟩
    · obtain ⟨y, hy, hyk⟩ := (hall n hn).2.resolve_left hk
      have hstay : thr b (memberKey m n) = thr s (memberKey m n) := by rw [thr, hout.2 _ hk, thr]
      have hyb := hb y hy
      have hyx := hx y hy
      rw [convWaiters_eq] at hy
      obtain ⟨n', -, hn'⟩ := List.mem_filterMap.1 hy
      have hyw := (waiterAt_eq_some.1 hn').2.2
      rw [hyk] at hyb hyw
      rw [hyx] at hyw
      exact ⟨(thr s (memberKey m n)).wus, by rw [hstay, ← hyb, ← hyw]⟩
  have hw : ∀ n ∈ livePositions m g, waiterAt b m n = some (memberKey m n, x) := by
    intro n hn
    obtain ⟨u, hu⟩ := hblocked n hn
    exact waiterAt_eq_some.2 ⟨(hall n hn).1, rfl, by rw [hu]⟩
  have hst : ∀ n ∈ livePositions m g, (thr b (memberKey m n)).st = .blocked := by
    intro n hn
    obtain ⟨u, hu⟩ := hblocked n hn
    rw [hu]
  have hlive : livePositions m g ≠ [] := by
    obtain ⟨j, js, rfl⟩ := List.exists_cons_of_ne_nil hne
    intro h
    have := hkeys j List.mem_cons_self
    simp [liveKeys, show (gangIdx m g).filter (posLive m) = [] from h] at this
  obtain ⟨hwake, hwoken⟩ := foldl_modThr_idem (wokenAt_idem b.cycle) (liveKeys m g) b
  rw [convergeGang_waits hm keys hx, gangEval_wakes hm' hlive hw hst, foldl_wake]
  refine ⟨onlyThreads_trans hout hwake hkeys, fun j hj => ?_⟩
  rw [hwoken j hj]
  obtain ⟨n, hn, rfl⟩ := List.mem_map.1 hj
  obtain ⟨u, hu⟩ := hblocked n hn
  rw [hu, hcycle]
  simp [wokenAt]

end

/-! A group that arrives at the first word of a collective chain. -/

/-- The threads of a group fetch the first word of a collective chain in the step of their core, and no other thread that is ready at that
word stands apart from them. -/
structure Arrives (s s1 s2 : State) (k : Nat) (ks : List Nat) (w : RawWord) (i : Instr) (rest : List RawWord) : Prop where
  turns : s.turns = []
  powered : s.boot.powered = true
  focus : isSimt s.focus = true
  core : coreOf s.focus = coreOf k
  quiet : (onCore s (coreOf k)).findSome? (asyncTrap s) = none
  can : (onCore s (coreOf k)).filter (canIssue s) ≠ []
  chosen : chooseGroup (formerUpdate s (coreOf k) ((onCore s (coreOf k)).filter (canIssue s))) (coreOf k)
    ((onCore s (coreOf k)).filter (canIssue s)) = (k :: ks, s1)
  fetches : Fetches s1 (k :: ks) w i rest true s2
  outside : ∀ j ∈ k :: ks, inChain s2 j = false
  together : ∀ j ∈ onCore s2 (coreOf k), canIssue s2 j = true → formerKey s2 j = formerKey s2 k → j ∈ k :: ks

section
variable {s s1 s2 : State} {k : Nat} {ks : List Nat} {w : RawWord} {i : Instr} {rest : List RawWord} (h : Arrives s s1 s2 k ks w i rest)
include h

/-- The group converges among the threads of the core that are ready at its word. -/
theorem Arrives.prepares : ∃ strict cand, (rest = [] → strict = isStrict i) ∧
    (∀ j, j ∈ cand → canIssue s2 j = true ∧ formerKey s2 j = formerKey s2 k ∧ j ∈ k :: ks) ∧
    (∀ j ∈ k :: ks, j ∈ onCore s2 (coreOf k) → canIssue s2 j = true → formerKey s2 j = formerKey s2 k → j ∈ cand) ∧
    prepare s1 (k :: ks) = issueOf i w rest true (convergeGroup s2 w.addr strict (k :: ks) cand) := by
  obtain ⟨ws, e, strict, hg, hgo, -⟩ := h.fetches
  refine ⟨strict, readyThere s2 k w ws e, fun hr => ?_, fun j hj => ?_, fun j hj hc hi hk => ?_, ?_⟩
  · subst hr
    exact strict_of_finding_last (hgo k List.mem_cons_self)
  · obtain ⟨hc, hj⟩ := List.mem_filter.1 hj
    simp only [Bool.and_eq_true, decide_eq_true_eq] at hj
    obtain ⟨⟨hi, hk⟩, -⟩ := hj
    exact ⟨hi, hk, h.together j hc hi hk⟩
  · refine List.mem_filter.2 ⟨hc, ?_⟩
    simp [hi, hk, hgo j hj]
  · have hnot : (true && !(k :: ks).all (inChain s2)) = true := by simp [h.outside k List.mem_cons_self]
    rw [prepare_eq hg hgo (List.cons_ne_nil k ks), if_pos hnot]
    rfl

theorem Arrives.step_eq : step s = (stepCore s (coreOf k)).getD (.fault .idle) := by
  rw [step_simt h.turns h.powered h.focus, h.core]

/-- A group of which nothing issues has done what its step does. -/
theorem Arrives.step_over {t : State} (hp : prepare s1 (k :: ks) = (.over, t)) : step s = .next t := by
  rw [h.step_eq, stepCore_over h.quiet h.can h.chosen hp]
  rfl

/-- R160: a thread without a team takes cause 0x05. -/
theorem Arrives.solo (hks : ks = []) (h0 : (thr s2 k).team = 0) (ht : Trappable k (thr s2 k)) : step s = .next (trapConverge s2 k) := by
  obtain ⟨strict, cand, -, hcand, -, hp⟩ := h.prepares
  have h1 := (trapConverge_spec s2 k ht).2.2
  rw [convergeGroup_solo (fun j hj => (hcand j hj).2.2) hks h0 (h1.trans h0)] at hp
  exact h.step_over hp

variable {m : Team} {g : Nat} (hm : teamK? s2 k = some m)
  (hgang : ∀ j ∈ k :: ks, (thr s2 j).team = (thr s2 k).team ∧ gangNo (thr s2 j) = g)
include hm hgang

/-- R161: an unchained strict collective that the gang may not issue. -/
theorem Arrives.strict_bad (hr : rest = []) (hs : isStrict i = true) (hb : strictBad m g = true) :
    step s = .next ((k :: ks).foldl trapConverge s2) := by
  obtain ⟨strict, cand, hstrict, hcand, -, hp⟩ := h.prepares
  rw [convergeGroup_gang (fun j hj => (hcand j hj).2.2) hm hgang, hstrict hr, hs, hb, if_neg (by simp),
    Bool.and_self, convergeGang_bad (teamK?_eq_some.1 hm).2] at hp
  exact h.step_over hp

variable (hplain : strictBad m g = false ∨ (rest = [] ∧ isStrict i = false))
include hplain

/-- R158: a gang that is whole there issues. -/
theorem Arrives.whole {s3 u : State} (hw : gangWhole m g (k :: ks) = true) (hl : byLane (liveKeys m g) = k :: ks)
    (ho : oldestGroup s2 [liveKeys m g] = (liveKeys m g, s3))
    (hready : ∀ j ∈ k :: ks, j ∈ onCore s2 (coreOf k) ∧ canIssue s2 j = true ∧ formerKey s2 j = formerKey s2 k)
    (he : experiment (issueAt s3 (k :: ks) w rest true) (coreOf k) (k :: ks) = (true, u)) :
    step s = andThen (exec i u) fun t => settleStops (afterGroup t (coreOf k) (k :: ks) i w.addr (asidK u k) (thr u k).team) := by
  obtain ⟨strict, cand, hstrict, hcand, hin, hp⟩ := h.prepares
  have hbad : (strict && strictBad m g) = false := by
    rcases hplain with hb | ⟨hr, hs⟩
    · simp [hb]
    · simp [hstrict hr, hs]
  have hall : ∀ j ∈ k :: ks, j ∈ cand := fun j hj => hin j hj (hready j hj).1 (hready j hj).2.1 (hready j hj).2.2
  have hwhole : gangWhole m g cand = true := by
    simp only [gangWhole, List.all_eq_true, Bool.and_eq_true, List.contains_iff_mem] at hw ⊢
    exact fun n hn => ⟨hall _ (hw n hn).1, (hw n hn).2⟩
  rw [convergeGroup_gang (fun j hj => (hcand j hj).2.2) hm hgang, hwhole, hbad, if_pos (by simp), pickGangs_one ho, hl, issueOf,
    if_neg (List.cons_ne_nil k ks)] at hp
  rw [h.step_eq, stepCore_go h.quiet h.can h.chosen hp he]
  rfl

/-- R159: a gang of which a live member is not ready there does not issue. -/
theorem Arrives.apart (habs : ∃ n ∈ livePositions m g, canIssue s2 (memberKey m n) = false ∨ formerKey s2 (memberKey m n) ≠ formerKey s2 k) :
    step s = .next (convergeGang s2 w.addr false (partOf s2 k) (asidK s2 k) (thr s2 k).team g (k :: ks)) := by
  obtain ⟨strict, cand, hstrict, hcand, -, hp⟩ := h.prepares
  have hbad : (strict && strictBad m g) = false := by
    rcases hplain with hb | ⟨hr, hs⟩
    · simp [hb]
    · simp [hstrict hr, hs]
  have hnot : gangWhole m g cand = false := by
    obtain ⟨n, hn, hne⟩ := habs
    rw [gangWhole, List.all_eq_false]
    refine ⟨n, hn, fun hall => ?_⟩
    simp only [Bool.and_eq_true, List.contains_iff_mem] at hall
    obtain ⟨hi, hk, -⟩ := hcand _ hall.1
    rcases hne with hne | hne
    · simp [hi] at hne
    · exact hne hk
  rw [convergeGroup_gang (fun j hj => (hcand j hj).2.2) hm hgang, hnot, hbad, if_neg (by simp)] at hp
  exact h.step_over hp

end

/-- Settles O7: the words that a group finds, and for one gang each of the outcomes of `convergeGang`. -/
theorem legalWordFetches : Obligations.LegalWordFetches := by
  refine ⟨fun s k ks w i s1 hw hf ha hh hd hj hw1 hr hs => fetches_fetched hw hf ha hh hd hj hw1 hr hs,
    fun s keys w rest i coll strict hw hk _ hd => fetches_kept hw hk hd,
    fun s k ks w i rest s1 s2 ht hp hfoc hcore hk hq hcan hch hf hout htog => ?_⟩
  have h : Arrives s s1 s2 k ks w i rest := ⟨ht, hp, hfoc, hcore, hq, hcan, hch, hf, hout, htog⟩
  refine ⟨fun hks h0 htr => ?_, fun m g hm hgang => ?_⟩
  · obtain ⟨hout, htraps, -⟩ := trapConverge_spec s2 k htr
    exact ⟨_, h.solo hks h0 htr, hout, htraps⟩
  have hteam := (teamK?_eq_some.1 hm).2
  have hone : ∀ j ∈ k :: ks, (thr s2 j).team = (thr s2 k).team ∧ gangNo (thr s2 j) = g := fun j hj => ⟨(hgang j hj).1, (hgang j hj).2.1⟩
  have hlive : ∀ j ∈ k :: ks, j ∈ liveKeys m g := fun j hj => by
    obtain ⟨-, -, n, hn, -, rfl⟩ := hgang j hj
    exact List.mem_map_of_mem hn
  refine ⟨fun hr hs hb hn htr => ?_, fun s3 u hplain hw hl ho hready he => h.whole hm hone hplain hw hl ho hready he,
    fun hplain habs hx hnot => ?_, fun hplain habs hx hall => ?_, fun hplain habs hx hn htr => ?_⟩
  · exact ⟨_, h.strict_bad hm hone hr hs hb, foldl_trapConverge hn s2 htr⟩
  · obtain ⟨n, hn, hk, hw⟩ := hnot
    exact ⟨_, h.apart hm hone hplain habs, convergeGang_blocks hteam hx hn hk hw⟩
  · exact ⟨_, h.apart hm hone hplain habs, convergeGang_joins hteam (fun y hy => (hx y hy).1) hlive (List.cons_ne_nil k ks)
      (fun y hy => (hx y hy).2) hall⟩
  · refine ⟨_, h.apart hm hone hplain habs, ?_⟩
    rw [convergeGang_elsewhere hteam _ hx]
    exact foldl_trapConverge hn s2 htr

end Sys2Proof.Machine
end

section
/-! Lane instructions on a group, and pair words (R86, R88-R92, R236-R240). -/

namespace Sys2Proof.Machine

/-- Settles O12: each thread of the group holds what the instruction computes for it (`laneExec_spec`, `laneThread_ends`). -/
theorem laneResults : Obligations.LaneResults := by
  intro i w f s hi hn hf
  obtain ⟨t, hexec, hs, hthr, hout⟩ := laneExec_spec w f hn hf
  have honly : OnlyThreads s.cur.keys s t := ⟨hs, hout⟩
  refine ⟨t, (exec_of_laneInstr hi s).trans hexec, honly, keepsMemory_of_only honly, fun k hk => ?_⟩
  rw [hthr k hk]
  exact laneThread_ends w (f (thr s k)) (thr s k)

/-! Values of pair opcodes (R89, R90). -/

theorem shift_amount (v : Word) : v.toNat % 64 = bits v 5 0 := by simp [bits]

theorem toNat_sll2 (d v : Word) (imm : BitVec 9) : (pairOp .sll2 d v imm).1.toNat = d.toNat * 2 ^ bits v 5 0 % 2 ^ 64 := by
  rw [← shift_amount, ← Nat.shiftLeft_eq]
  exact BitVec.toNat_shiftLeft

theorem toNat_srl2 (d v : Word) (imm : BitVec 9) : (pairOp .srl2 d v imm).1.toNat = d.toNat / 2 ^ bits v 5 0 := by
  rw [← shift_amount, ← Nat.shiftRight_eq_div_pow]
  exact BitVec.toNat_ushiftRight ..

theorem toInt_sra2 (d v : Word) (imm : BitVec 9) : (pairOp .sra2 d v imm).1.toInt = d.toInt / 2 ^ bits v 5 0 := by
  rw [← shift_amount]
  refine BitVec.toInt_sshiftRight.trans ?_
  rw [Int.shiftRight_eq_div_pow]
  norm_cast

theorem toInt_min2 (d v : Word) (imm : BitVec 9) : (pairOp .min2 d v imm).1.toInt = min d.toInt v.toInt := by
  simp only [pairOp, BitVec.slt_iff_toInt_lt]
  split <;> omega

theorem toInt_max2 (d v : Word) (imm : BitVec 9) : (pairOp .max2 d v imm).1.toInt = max d.toInt v.toInt := by
  simp only [pairOp, BitVec.slt_iff_toInt_lt]
  split <;> omega

/-- Each of the four elements of packed pair arithmetic is rounded by itself, for a format of 16 bits. -/
theorem elt_pair4 {fc : Nat} (hw : fwidth fc = 16) (op : FV → FV → FV × Nat) (a b : Word) {i : Nat} (hi : i < 4) :
    elt (pair4 fc op a b).1 fc i =
      (roundArith (ffmt fc) .rne false 0 (op (fval (ffmt fc) (elt a fc i)) (fval (ffmt fc) (elt b fc i)))).bits % 2 ^ 16 := by
  have hc : fcount fc = 4 := by rw [fcount, hw]
  have h := elt_lanes fc (fun i => roundArith (ffmt fc) .rne false 0 (op (fval (ffmt fc) (elt a fc i)) (fval (ffmt fc) (elt b fc i))))
    (i := i) (hc ▸ hi)
  rwa [hw, hc] at h

/-! Exact sums and products of finite values. -/

theorem ratOf_ofScaled (x u : Int) (z : Bool) : ratOf (ofScaled x u z) = some (x * (2 : ℚ) ^ u) := by
  unfold ofScaled
  split
  · next h => simp [ratOf, h]
  · by_cases hx : x < 0
    · simp [ratOf, hx, Nat.cast_natAbs, abs_of_neg]
    · simp [ratOf, hx, Nat.cast_natAbs, abs_of_nonneg (not_lt.1 hx)]

theorem ratOf_fneg {b : FV} {q : ℚ} (hb : ratOf b = some q) : ratOf (fneg b) = some (-q) := by
  cases b <;> simp only [ratOf, Option.some.injEq, reduceCtorEq] at hb
  next n m e => cases n <;> simp [← hb, fneg, ratOf]

theorem ratOf_fadd {a b : FV} {p q : ℚ} (mode : RMode) (ha : ratOf a = some p) (hb : ratOf b = some q) :
    ratOf (fadd mode a b).1 = some (p + q) := by
  cases a <;> cases b <;> simp only [ratOf, Option.some.injEq, reduceCtorEq] at ha hb
  next n m e n' m' e' =>
    rw [← ha, ← hb, ← scaled_cast n m (min_le_left e e'), ← scaled_cast n' m' (min_le_right e e'), ← add_mul, ← Int.cast_add]
    exact ratOf_ofScaled ..

theorem ratOf_fmul {a b : FV} {p q : ℚ} (ha : ratOf a = some p) (hb : ratOf b = some q) : ratOf (fmul a b).1 = some (p * q) := by
  cases a <;> cases b <;> simp only [ratOf, Option.some.injEq, reduceCtorEq] at ha hb
  next n m e n' m' e' =>
    have hz : (2 : ℚ) ^ (e + e') = 2 ^ e * 2 ^ e' := zpow_add₀ two_ne_zero e e'
    rw [← ha, ← hb]
    cases n <;> cases n' <;> simp [fmul, ratOf, hz] <;> ring

/-! The end of a pair word (R88). -/

/-- A thread after one slot has written. -/
def withSlot (p : PairSlot) (v : Word) (t : Thread) : Thread := if p.op = .nop2 then t else setReg t (pairDest p) v

theorem withSlot_rest (p : PairSlot) (v : Word) (t : Thread) :
    withSlot p v t = { t with x := (withSlot p v t).x, f := (withSlot p v t).f } := by
  unfold withSlot
  split
  · rfl
  · exact setReg_rest ..

theorem getReg_withSlot_same (t : Thread) {p : PairSlot} (v : Word) (hp : p.op ≠ .nop2) (h0 : pairDest p ≠ 0) :
    getReg (withSlot p v t) (pairDest p) = v := by
  rw [withSlot, if_neg hp, getReg_setReg_same t v h0]

theorem getReg_withSlot_other (t : Thread) {p : PairSlot} (v : Word) {n : Nat} (h : p.op = .nop2 ∨ n ≠ pairDest p) :
    getReg (withSlot p v t) n = getReg t n := by
  unfold withSlot
  split
  · rfl
  · next hp => exact getReg_setReg_other t v (h.resolve_left hp)

/-- A legal pair writes an even register by its slot 0 and an odd one by its slot 1 (R88). -/
theorem pairDest_parity {p0 p1 : PairSlot} (h : pairReason p0 p1 = none) :
    (p0.op ≠ .nop2 → pairDest p0 % 2 = 0) ∧ (p1.op ≠ .nop2 → pairDest p1 % 2 = 1) := by
  have hdest : ∀ p : PairSlot, pairDest p % 2 = p.d.toNat % 2 := fun p => by
    unfold pairDest
    split <;> omega
  unfold pairReason at h
  split_ifs at h with _ _ h0 h1
  simp only [slotParity, Bool.and_eq_true, decide_eq_true_eq, not_and, not_not, ne_eq] at h0 h1
  rw [hdest, hdest]
  exact ⟨h0, h1⟩

section
variable (h : Bool) (p0 p1 : PairSlot) (t : Thread)

theorem pairThread_getReg (n : Nat) :
    getReg (pairThread h p0 p1 t) n = getReg (withSlot p1 (slotResult t p1).1 (withSlot p0 (slotResult t p0).1 t)) n :=
  getReg_congr rfl rfl n

/-- A pair word writes registers, raises flags, and passes its eight bytes. -/
theorem pairThread_ends : (∀ n < 4, getLatch (pairThread h p0 p1 t) n = getLatch t n) ∧ (pairThread h p0 p1 t).pc = t.pc + 8 ∧
    RaisesOnly ((slotResult t p0).2 ||| (slotResult t p1).2) 0 t.lfsr t (pairThread h p0 p1 t) := by
  have hu : pairThread h p0 p1 t =
      let u := withSlot p1 (slotResult t p1).1 (withSlot p0 (slotResult t p0).1 t)
      { addFlags u ((slotResult t p0).2 ||| (slotResult t p1).2) with chain := chainNext u.chain h, pc := u.pc + 8 } := rfl
  rw [withSlot_rest p1, withSlot_rest p0] at hu
  refine ⟨fun n _ => ?_, by rw [hu], ?_⟩
  · rw [hu]
    exact latch_chainNext t t.chain h n
  · unfold RaisesOnly
    rw [hu]
    simp [addFlags, w64]

end

theorem fpTraps_of_raisesOnly {fl : Nat} {seed : Word} {a b : Thread} (h : RaisesOnly fl 0 seed a b) (n : Nat) :
    fpTraps b n = fpTraps a n := by
  unfold RaisesOnly at h
  rw [h]
  simp [fpTraps, w64]

/-- A pair word on a group in which no enabled flag is raised. -/
theorem execPairWord_spec (h : Bool) (p0 p1 : PairSlot) {s : State} (hn : s.cur.keys.Nodup)
    (hf : ∀ k ∈ s.cur.keys, isSimt k = true → fpTraps (thr s k) ((slotResult (thr s k) p0).2 ||| (slotResult (thr s k) p1).2) = false) :
    ∃ t, exec (.pairWord h p0 p1) s = .next t ∧ OnlyThreads s.cur.keys s t ∧
      ∀ k ∈ s.cur.keys, thr t k = pairThread h p0 p1 (thr s k) := by
  refine ⟨_, rfl, foldl_onlyThreads (P := fun k t => isSimt k = true → fpTraps t ((slotResult t p0).2 ||| (slotResult t p1).2) = false)
    (R := fun t u => u = pairThread h p0 p1 t) (fun s k hk => ?_) hn s hf⟩
  rw [fpCause_none fun hs => ?_]
  · exact ⟨onlyThreads_setThr .., thr_setThr_same ..⟩
  · rw [thr_setThr_same, fpTraps_of_raisesOnly (pairThread_ends h p0 p1 (thr s k)).2.2]
    exact hk hs

/-- Settles O15: each opcode's value, the exactness of finite sums and products, and the two slots' writes, which parity keeps apart. -/
theorem pairResults : Obligations.PairResults := by
  refine ⟨fun d v imm => ?_, fun a b p q ha hb => ?_, fun h p0 p1 s hn hr hf => ?_⟩
  · exact ⟨rfl, rfl, rfl, rfl, rfl, toNat_sll2 d v imm, toNat_srl2 d v imm, toInt_sra2 d v imm, rfl, rfl, rfl, toInt_min2 d v imm,
      toInt_max2 d v imm, rfl, rfl, rfl, rfl, rfl, rfl, rfl, fun i hi => ⟨elt_pair4 rfl _ d v hi, elt_pair4 rfl _ d v hi,
      elt_pair4 rfl _ d v hi, elt_pair4 rfl _ d v hi⟩⟩
  · refine ⟨ratOf_fadd .rne ha hb, ?_, ratOf_fmul ha hb⟩
    rw [sub_eq_add_neg]
    exact ratOf_fadd .rne ha (ratOf_fneg hb)
  · obtain ⟨t, hexec, honly, hthr⟩ := execPairWord_spec h p0 p1 hn hf
    obtain ⟨heven, hodd⟩ := pairDest_parity hr
    refine ⟨t, hexec, honly, keepsMemory_of_only honly, fun k hk => ?_⟩
    simp only [hthr k hk, pairThread_getReg]
    refine ⟨fun hop h0 => ?_, fun hop => ?_, fun n h0 h1 => ?_, pairThread_ends h p0 p1 (thr s k)⟩
    · have hne : p1.op = .nop2 ∨ pairDest p0 ≠ pairDest p1 := by
        by_cases h1 : p1.op = .nop2
        · exact .inl h1
        · have := heven hop
          have := hodd h1
          exact .inr (by omega)
      rw [getReg_withSlot_other _ _ hne, getReg_withSlot_same _ _ hop h0]
    · exact getReg_withSlot_same _ _ hop (by have := hodd hop; omega)
    · rw [getReg_withSlot_other _ _ h1, getReg_withSlot_other _ _ h0]

end Sys2Proof.Machine
end

section
/-! Doublewords that hardware writes one after the other, and the frame of a thread in memory (R122-R126, R129, R420, R481). -/

namespace Sys2Proof.Machine

theorem rdWord_congr {s t : State} (h : t.mem = s.mem) (a : Nat) : rdWord t a = rdWord s a := by
  unfold rdWord rdBytes
  rw [h]

theorem Memory.write_append (m : List Host.Cell) (a : Nat) (xs ys : List Byte) :
    Memory.write m a (xs ++ ys) = Memory.write (Memory.write m a xs) (a + xs.length) ys := by
  induction xs generalizing m a with
  | nil => rfl
  | cons x xs ih =>
    rw [List.cons_append, Memory.write, ih, Memory.write, List.length_cons, Nat.add_right_comm, Nat.add_assoc]

/-- Doublewords written one after the other are their bytes written at once. -/
theorem wrWords_mem (s : State) (a : Nat) (l : List Word) :
    (wrWords s a l).mem = Memory.write s.mem a (l.flatMap fun v => toBytes 8 v.toNat) := by
  induction l generalizing s a with
  | nil => rfl
  | cons v l ih =>
    rw [wrWords, ih, List.flatMap_cons, Memory.write_append, toBytes_length]
    rfl

/-- A doubleword reads as it was written among others. -/
theorem rdWord_wrWords (s : State) (a : Nat) (l : List Word) {i : Nat} (h : i < l.length) :
    rdWord (wrWords s a l) (a + 8 * i) = dw l i := by
  induction l generalizing s a i with
  | nil => exact absurd h (Nat.not_lt_zero i)
  | cons v l ih =>
    cases i with
    | zero =>
      rw [wrWords, rdWord_wrWords_apart _ _ _ (.inl (by omega)), Nat.mul_zero, Nat.add_zero, rdWord_wrWord_same]
      rfl
    | succ i =>
      rw [wrWords, show a + 8 * (i + 1) = a + 8 + 8 * i by omega, ih _ _ (by simpa using h)]
      rfl

theorem dw_rdWords (s : State) (a : Nat) {n i : Nat} (h : i < n) : dw (rdWords s a n) i = rdWord s (a + 8 * i) := by
  simp [dw, rdWords, h]

theorem flatMap_toBytes_length (l : List Word) : (l.flatMap fun v => toBytes 8 v.toNat).length = 8 * l.length := by
  induction l with
  | nil => rfl
  | cons v l ih => simp only [List.flatMap_cons, List.length_append, toBytes_length, ih, List.length_cons]; omega

/-- Doublewords that hardware posts to lines which it reaches are written at once (R420, R481). -/
theorem postWords_clear {s : State} {die a : Nat} {l : List Word} (h : postClear s die a (8 * l.length) = true) :
    postWords s die a l = wrBytes s hwKey a (l.flatMap fun v => toBytes 8 v.toNat) := by
  have hr : postReady s { die := die, at_ := a, what := .bytes (l.flatMap fun v => toBytes 8 v.toNat) } = true := by
    simp only [postReady, postBad, PostKind.size, flatMap_toBytes_length, h, Bool.not_false, Bool.and_self]
  rw [postWords, postBytes, post, if_pos hr]
  rfl

theorem pathOpen_congr {s t : State} (h : t.welts = s.welts) : ∀ l, pathOpen t l = pathOpen s l
  | [] => rfl
  | [_] => rfl
  | a :: b :: l => by
    have hb : ∀ x, boundaryOpen t x = boundaryOpen s x := fun x => by unfold boundaryOpen welt; rw [h]
    simp only [pathOpen, pathOpen_congr h (b :: l), hb]

/-- Whether hardware may write is told by the slices, the granule map, the routes, and the writes on their way. -/
theorem postClear_congr {s t : State} (hs : t.slices = s.slices) (hg : t.granules = s.granules) (hw : t.welts = s.welts)
    (hp : t.posted = s.posted) (die a n : Nat) : postClear t die a n = postClear s die a n := by
  have hd : ∀ x, homeDie t x = homeDie s x := fun x => by
    unfold homeDie capacityTier stackOf granule
    rw [hg]
  have ho : ∀ x, homeOpen t die x = homeOpen s die x := fun x => by rw [homeOpen, homeOpen, routeOpen, routeOpen, hd, pathOpen_congr hw]
  have hl : lineHeld t hwKey a n = lineHeld s hwKey a n := by rw [lineHeld, lineHeld, hs]
  rw [postClear, postClear, ho, ho, hl, hp]

@[simp] theorem postClear_setThr (s : State) (k : Nat) (u : Thread) (die a n : Nat) :
    postClear (setThr s k u) die a n = postClear s die a n := postClear_congr (t := setThr s k u) (s := s) rfl rfl rfl rfl die a n

/-! The doublewords of a frame. -/

theorem frameWords_length (t : Thread) (st : TState) (satp place : Word) : (frameWords t st satp place).length = 128 := by
  have hentries : ∀ g : Nat → List Word, (∀ e, (g e).length = 4) → ((List.range 8).flatMap g).length = 32 := fun g hg => by
    simp [List.length_flatMap, hg]
  rw [frameWords, List.length_append, hentries _ fun e => by split <;> rfl]
  simp

theorem dw_frameWords_status (t : Thread) (st : TState) (satp place : Word) : dw (frameWords t st satp place) 0 = statusWord t st := rfl

theorem dw_frameWords_pc (t : Thread) (st : TState) (satp place : Word) : dw (frameWords t st satp place) 1 = t.pc := rfl

theorem dw_frameWords_reg (t : Thread) (st : TState) (satp place : Word) {n : Nat} (h0 : 0 < n) (h : n < 32) :
    dw (frameWords t st satp place) (n + 1) = getReg t n := by
  obtain ⟨i, rfl⟩ : ∃ i, n = i + 1 := ⟨n - 1, by omega⟩
  have hi : i < ((List.range 31).map fun i => getReg t (i + 1)).length := by simp; omega
  simp only [dw, frameWords, List.cons_append, List.nil_append, List.append_assoc, List.getD_cons_succ]
  rw [List.getD_eq_getElem?_getD, List.getElem?_append_left hi, List.getElem?_eq_getElem hi]
  simp

theorem b2n_le (b : Bool) : b2n b ≤ 1 := by cases b <;> decide

theorem tstateCode_lt (st : TState) : st.code < 8 := by cases st <;> decide

/-- The fields of a status word (R123). -/
theorem statusWord_fields (t : Thread) (st : TState) :
    bits (statusWord t st) 3 0 = st.code ∧ bits (statusWord t st) 15 8 = t.cause % 256 ∧
    bit (statusWord t st) 20 = decide (t.team = 0) ∧ bit (statusWord t st) 22 = t.sigpend := by
  have hcode := tstateCode_lt st
  have hcause : t.cause % 256 < 256 := Nat.mod_lt _ (by decide)
  have hauto := b2n_le t.autoRet
  have hsig := b2n_le t.sigpend
  have hhelper := b2n_le t.helper
  have hsolo := b2n_le (decide (t.team = 0))
  have hchain := b2n_le ((frameChain t).live && decide ((frameChain t).pos ≠ 0))
  have hb : ∀ b : Bool, b = decide (b2n b = 1) := by decide
  have hsolo1 := hb (decide (t.team = 0))
  have hsig1 := hb t.sigpend
  simp only [statusWord, bits, bit, w64, BitVec.getLsbD_ofNat, BitVec.toNat_ofNat, Nat.testBit_eq_decide_div_mod_eq]
  generalize b2n t.sigpend = x1 at *
  generalize b2n (decide (t.team = 0)) = x2 at *
  generalize b2n t.autoRet = x3 at *
  generalize b2n t.helper = x4 at *
  generalize b2n ((frameChain t).live && decide ((frameChain t).pos ≠ 0)) = x5 at *
  generalize t.cause % 256 = x6 at *
  generalize st.code = x7 at *
  generalize t.held.length = x8 at *
  refine ⟨by omega, by omega, ?_, ?_⟩
  · rw [hsolo1, decide_eq_true (by decide : _ < 64), Bool.true_and, decide_eq_decide]
    omega
  · rw [hsig1, decide_eq_true (by decide : _ < 64), Bool.true_and, decide_eq_decide]
    omega

/-! A frame in memory. -/

/-- A thread's frame stands written with a state, and every byte outside it is as in `s`. -/
structure FrameWritten (s t : State) (u : Thread) (st : TState) : Prop where
  status : rdWord t u.frame = statusWord u st
  pc : rdWord t (u.frame + 8) = u.pc
  reg : ∀ n, 0 < n → n < 32 → rdWord t (u.frame + 8 + 8 * n) = getReg u n
  rest : ∀ b, b < u.frame ∨ u.frame + 1024 ≤ b → Memory.byte t.mem b = Memory.byte s.mem b

/-- What does not write memory keeps a frame. -/
theorem FrameWritten.of_mem {s t t' : State} {u : Thread} {st : TState} (h : FrameWritten s t u st) (hm : t'.mem = t.mem) :
    FrameWritten s t' u st where
  status := by rw [rdWord_congr hm]; exact h.status
  pc := by rw [rdWord_congr hm]; exact h.pc
  reg n h0 h32 := by rw [rdWord_congr hm]; exact h.reg n h0 h32
  rest b hb := by rw [hm]; exact h.rest b hb

/-- Every byte is told by memory alone, so that a frame may be compared with any state of the same memory. -/
theorem FrameWritten.since {s s' t : State} {u : Thread} {st : TState} (h : FrameWritten s t u st) (hm : s'.mem = s.mem) :
    FrameWritten s' t u st := { h with rest := fun b hb => by rw [hm]; exact h.rest b hb }

/-- A frame that hardware reaches is written at once, and nothing but memory and its marks differs. -/
theorem writeFrame_clear {s : State} {k : Nat} {u : Thread} (st : TState) (h : postClear s (agentDie k) u.frame 1024 = true) :
    writeFrame s k u st = wrBytes s hwKey u.frame
      ((frameWords { u with lastPlace := place k } st (satpOf s k) (place k)).flatMap fun v => toBytes 8 v.toNat) := by
  unfold writeFrame
  exact postWords_clear (by rw [frameWords_length]; exact h)

theorem writeFrame_rest {s : State} {k : Nat} {u : Thread} (st : TState) (h : postClear s (agentDie k) u.frame 1024 = true) :
    let t := writeFrame s k u st
    t.threads = s.threads ∧ t.transits = s.transits ∧ t.parts = s.parts ∧ t.harts = s.harts := by
  intro t
  rw [show t = _ from writeFrame_clear st h]
  exact ⟨wrBytes_threads .., wrBytes_transits .., wrBytes_parts .., wrBytes_harts ..⟩

theorem writeFrame_written {s : State} {k : Nat} {u : Thread} (st : TState) (h : postClear s (agentDie k) u.frame 1024 = true) :
    FrameWritten s (writeFrame s k u st) u st := by
  let l := frameWords { u with lastPlace := place k } st (satpOf s k) (place k)
  have hl : l.length = 128 := frameWords_length ..
  have hm : (writeFrame s k u st).mem = (wrWords s u.frame l).mem := by
    rw [writeFrame_clear st h, wrWords_mem, wrBytes_mem]
  have hword : ∀ i < 128, rdWord (writeFrame s k u st) (u.frame + 8 * i) = dw l i := fun i hi => by
    rw [rdWord_congr hm, rdWord_wrWords _ _ _ (by omega)]
  refine ⟨hword 0 (by omega), hword 1 (by omega), fun n h0 h32 => ?_, fun b hb => ?_⟩
  · rw [show u.frame + 8 + 8 * n = u.frame + 8 * (n + 1) by omega, hword _ (by omega)]
    exact dw_frameWords_reg _ _ _ _ h0 h32
  · rw [hm, byte_wrWords_outside _ _ _ (by omega)]

end Sys2Proof.Machine
end

section
/-! A thread that leaves its slot, and the way that its frame takes (R131-R139, R212, R432). -/

namespace Sys2Proof.Machine

theorem exec_one {s : State} {k : Nat} {f : State → Nat → State} {i : Instr} (h : exec i s = .next (forKeys s f))
    (hk : s.cur.keys = [k]) : exec i s = .next (f s k) := by rw [h, forKeys_one hk]

theorem occupied_false {s : State} {k : Nat} : occupied s k = false ↔ mget? s.threads k = none := Option.isSome_eq_false_iff.trans Option.isNone_iff_eq_none

@[simp] theorem endWord_frame (w : Wide) (v : Word) (t : Thread) : (endWord w v t).frame = t.frame := by rw [endWord_rest]

/-! Steps that neither write, send nor post. -/

theorem part_congr {s t : State} (h : t.parts = s.parts) (q : Nat) : part t q = part s q := by rw [part, part, h]

theorem retPend_modPart (s : State) (p q : Nat) {f : Partition → Partition} (hf : ∀ x, (f x).retPend = x.retPend) :
    (part (modPart s p f) q).retPend = (part s q).retPend := by
  by_cases h : q = p
  · rw [h, part_modPart_same, hf]
  · rw [part_modPart_other s f h]

theorem retPend_postReturn (s : State) (p fr reason : Nat) :
    (part (postReturn s p fr reason) p).retPend = (part s p).retPend ++ [(fr, reason)] := by
  rw [postReturn, part_modPart_same]

/-- No memory is written, no frame sent or posted, and no hart and no slot but `k` changed. -/
structure Quiet (k : Nat) (s t : State) : Prop where
  mem : t.mem = s.mem
  transits : t.transits = s.transits
  harts : t.harts = s.harts
  threads : ∀ j, j ≠ k → mget? t.threads j = mget? s.threads j
  retPend : ∀ q, (part t q).retPend = (part s q).retPend

theorem Quiet.refl (k : Nat) (s : State) : Quiet k s s := ⟨rfl, rfl, rfl, fun _ _ => rfl, fun _ => rfl⟩

theorem Quiet.trans {k : Nat} {s t u : State} (h : Quiet k s t) (h' : Quiet k t u) : Quiet k s u :=
  ⟨h'.mem.trans h.mem, h'.transits.trans h.transits, h'.harts.trans h.harts, fun j hj => (h'.threads j hj).trans (h.threads j hj),
    fun q => (h'.retPend q).trans (h.retPend q)⟩

theorem quiet_setThr (s : State) (k : Nat) (u : Thread) : Quiet k s (setThr s k u) :=
  ⟨rfl, rfl, rfl, fun _ hj => slot_setThr_other s u hj, fun _ => rfl⟩

theorem quiet_dropThr (s : State) (k : Nat) : Quiet k s (dropThr s k) := ⟨rfl, rfl, rfl, fun _ hj => mget?_mdel_other _ hj, fun _ => rfl⟩

theorem quiet_modPart (s : State) (k p : Nat) {f : Partition → Partition} (hf : ∀ x, (f x).retPend = x.retPend) :
    Quiet k s (modPart s p f) := ⟨rfl, rfl, rfl, fun _ _ => rfl, fun q => retPend_modPart s p q hf⟩

theorem quiet_modMember (s : State) (k p asid num i : Nat) (f : Member → Member) : Quiet k s (modMember s p asid num i f) :=
  ⟨rfl, rfl, rfl, fun _ _ => rfl, fun _ => rfl⟩

theorem quiet_stowLate (s : State) (k p : Nat) (t : Thread) : Quiet k s (stowLate s p t) := by
  have h0E : ∀ s x, Quiet k s (addLate0E s p t.tid x) := fun s x => quiet_modPart s k p fun _ => rfl
  have h16 : ∀ s x, Quiet k s (addLate16 s p t.tid x) := fun s x => quiet_modPart s k p fun _ => rfl
  unfold stowLate
  cases t.pend0E <;> cases t.pend16
  · exact .refl k s
  · exact h16 _ _
  · exact h0E _ _
  · exact (h0E _ _).trans (h16 _ _)

theorem quiet_leaveSlot (s : State) (k : Nat) : Quiet k s (leaveSlot s k) := by
  have hheld : ∀ u : State, Quiet k u
      (if (thr s k).task then { u with held := u.held ++ [((thr s k).part, (thr s k).tid, k)] } else u) := fun u => by
    split
    · exact ⟨rfl, rfl, rfl, fun _ _ => rfl, fun _ => rfl⟩
    · exact .refl k u
  have haway : ∀ u : State, Quiet k u
      (if (thr s k).team = 0 then u
        else modMember u (thr s k).part (asidOf (thr s k).satp) (thr s k).team (thr s k).tidx fun m =>
          { m with loc := .away, frame := (thr s k).frame }) := fun u => by
    split
    · exact .refl k u
    · exact quiet_modMember ..
  exact (quiet_stowLate s k (thr s k).part (thr s k)).trans ((hheld _).trans ((haway _).trans (quiet_dropThr _ k)))

theorem occupied_leaveSlot (s : State) (k : Nat) : occupied (leaveSlot s k) k = false := by
  rw [occupied_false]
  exact mget?_mdel_same ..

/-! mig (R131-R136). -/

theorem hKind_lt (h : Word) : hKind h < 4 := Nat.mod_lt _ (by decide)

theorem hKind_of_checked {s : State} {k : Nat} {h : Word} (hc : handleCheck s k h = 0) : hKind h < 3 := by
  have h3 : hKind h ≠ 3 := fun h3 => by simp [handleCheck, badHandle, h3] at hc
  have := hKind_lt h
  omega

theorem atPlace_hart {k : Nat} {h : Word} (t : Thread) (hk : isHart k = true) (hh : hKind h < 2) : atPlace k t h = false := by
  have hs : isSimt k = false := Bool.eq_false_iff.2 fun h => by rw [isHart_of_isSimt h] at hk; cases hk
  obtain h0 | h1 : hKind h = 0 ∨ hKind h = 1 := by omega
  · simp [atPlace, h0, hs]
  · simp [atPlace, h1, hs]

theorem dropHelper_rest (s : State) (t : Team) (i : Nat) :
    (dropHelper s t i).mem = s.mem ∧ (dropHelper s t i).transits = s.transits ∧ (dropHelper s t i).harts = s.harts ∧
      ∀ j, occupied s j = false → occupied (dropHelper s t i) j = false := by
  unfold dropHelper
  split
  · refine ⟨rfl, rfl, rfl, fun j hj => ?_⟩
    rw [occupied_false] at hj ⊢
    simp only [modMember, modTeam_threads, dropThr, mget?_mdel, hj, ite_self]
  · exact ⟨rfl, rfl, rfl, fun _ h => h⟩

section
variable (s : State) (p : Nat) (t : Thread) (fr : Nat) (satp : Word) (task : Option Nat) {h : Word}

theorem deliverFrame_return (hh : hKind h = 2) : deliverFrame s p t fr satp task h = postReturn s p fr 0 := by
  simp only [deliverFrame, hh]

/-- A frame for a team or a die is on its way, after those that are already; no slot is taken (R134). -/
theorem deliverFrame_sends (hh : hKind h < 2) :
    let u := deliverFrame s p t fr satp task h
    u.mem = s.mem ∧ u.harts = s.harts ∧ (∀ j, occupied s j = false → occupied u j = false) ∧
      ∃ x, u.transits = s.transits ++ [x] ∧ x.frame = fr ∧ x.kind = hKind h ∧
        (hKind h = 1 → x.target = if bit h 2 then 4 else bits h 1 0) := by
  obtain h0 | h1 : hKind h = 0 ∨ hKind h = 1 := by omega
  · simp only [deliverFrame, h0]
    split
    · exact ⟨rfl, rfl, fun _ h => h, _, rfl, rfl, rfl, fun h => by cases h⟩
    · obtain ⟨hmem, htrans, hharts, hfree⟩ := dropHelper_rest s (team s p (asidOf satp) (bits h 31 0)) (team s p (asidOf satp) (bits h 31 0)).count
      exact ⟨hmem, hharts, hfree, _, congrArg (· ++ _) htrans, rfl, rfl, fun h => by cases h⟩
  · simp only [deliverFrame, h1]
    exact ⟨trivial, trivial, fun _ h => h, _, rfl, rfl, rfl, fun _ => rfl⟩

end

theorem exec_mig {s : State} {k : Nat} {w : Wide} (hk : s.cur.keys = [k]) (ho : occupied s k = true) :
    exec (.mig w) s = .next (migOne w s k) :=
  (exec_one (i := .mig w) rfl hk).trans (by rw [if_pos ho])

theorem migOne_refused {w : Wide} {s : State} {k : Nat} (h : handleCheck s k (src (thr s k) w.s1) ≠ 0) :
    migOne w s k = setThr s k (endWord w (w64 (handleCheck s k (src (thr s k) w.s1))) (thr s k)) := if_pos h

theorem migOne_atPlace {w : Wide} {s : State} {k : Nat} (h : handleCheck s k (src (thr s k) w.s1) = 0)
    (hp : atPlace k (thr s k) (src (thr s k) w.s1) = true) : migOne w s k = setThr s k (endWord w 0 (thr s k)) := by
  simp [migOne, h, hp]

/-- The thread that a `mig` on a SIMT core writes to its frame: past the word, STATE migrating, nothing held (R125, R131). -/
def migThread (w : Wide) (t : Thread) : Thread := { endWord w 0 t with st := .migrating, reth := 0, held := [] }

@[simp] theorem migThread_frame (w : Wide) (t : Thread) : (migThread w t).frame = t.frame := endWord_frame w 0 t

@[simp] theorem migThread_pc (w : Wide) (t : Thread) : (migThread w t).pc = t.pc + 8 := endWord_pc w 0 t

/-- A thread's frame is written in its slot, and the slot is left (R131, R148). -/
theorem leaveSlot_written {s : State} {k : Nat} {u : Thread} (st : TState) (h : postClear s (agentDie k) u.frame 1024 = true) :
    let t := leaveSlot (writeFrame (setThr s k u) k u st) k
    occupied t k = false ∧ FrameWritten s t u st ∧ t.transits = s.transits ∧ ∀ q, (part t q).retPend = (part s q).retPend := by
  have hc : postClear (setThr s k u) (agentDie k) u.frame 1024 = true := by rw [postClear_setThr]; exact h
  have hq := quiet_leaveSlot (writeFrame (setThr s k u) k u st) k
  obtain ⟨-, htrans, hparts, -⟩ := writeFrame_rest st hc
  exact ⟨occupied_leaveSlot .., ((writeFrame_written st hc).of_mem hq.mem).since rfl, hq.transits.trans htrans,
    fun q => (hq.retPend q).trans (by rw [part_congr hparts, part_setThr])⟩

/-- R131, R134: a `mig` to another place leaves the slot, with the frame written, for the place that the handle names. -/
theorem migOne_leaves {w : Wide} {s : State} {k : Nat} (hk : isSimt k = true) (hc : handleCheck s k (src (thr s k) w.s1) = 0)
    (hp : atPlace k (thr s k) (src (thr s k) w.s1) = false) (hh : (thr s k).helper = false)
    (hr : inRanges s (thr s k).part (thr s k).frame 1024 = true) (hclear : postClear s (agentDie k) (thr s k).frame 1024 = true) :
    let t := migOne w s k
    let a := (thr s k).frame
    let h := src (thr s k) w.s1
    occupied t k = false ∧ FrameWritten s t (migThread w (thr s k)) .migrating ∧
      (hKind h = 2 → (part t (thr s k).part).retPend = (part s (thr s k).part).retPend ++ [(a, 0)]) ∧
      (hKind h < 2 → ∃ x, t.transits = s.transits ++ [x] ∧ x.frame = a ∧ x.kind = hKind h ∧
        (hKind h = 1 → x.target = if bit h 2 then 4 else bits h 1 0)) := by
  have hmig : migOne w s k = deliverFrame (leaveSlot (writeFrame (setThr s k (migThread w (thr s k))) k (migThread w (thr s k)) .migrating) k)
      (thr s k).part (migThread w (thr s k)) (thr s k).frame (thr s k).satp (if (thr s k).task then some k else none)
      (src (thr s k) w.s1) := by
    simp only [migOne, hc, hp, hh, isHart_of_isSimt hk, hr, ne_eq, not_true_eq_false, if_false, Bool.or_self, Bool.false_eq_true,
      Bool.not_true]
    rfl
  obtain ⟨hfree, hwritten, htrans, hpend⟩ := leaveSlot_written (s := s) (k := k) (u := migThread w (thr s k)) .migrating
    (by rw [migThread_frame]; exact hclear)
  rw [hmig]
  generalize leaveSlot (writeFrame (setThr s k (migThread w (thr s k))) k (migThread w (thr s k)) .migrating) k = v at *
  intro t a h
  obtain h2 | h2 : hKind h = 2 ∨ hKind h < 2 := by
    have : hKind h < 3 := hKind_of_checked hc
    omega
  · have ht : t = postReturn v (thr s k).part a 0 := deliverFrame_return _ _ _ _ _ _ h2
    rw [ht]
    exact ⟨hfree, hwritten.of_mem rfl, fun _ => by rw [retPend_postReturn, hpend], fun h' => by omega⟩
  · obtain ⟨hmem, -, hkeep, x, hx, hrest⟩ := deliverFrame_sends v (thr s k).part (migThread w (thr s k)) (thr s k).frame (thr s k).satp
      (if (thr s k).task then some k else none) h2
    exact ⟨hkeep k hfree, hwritten.of_mem hmem, fun h' => by omega, fun _ => ⟨x, hx.trans (by rw [htrans]), hrest⟩⟩

/-! texit on a SIMT core (R139, R212). -/

theorem noteEnded_ended (s : State) (p : Nat) (t : Thread) : (ended? (noteEnded s p [t]) p t.tid).isSome = true := by
  simp [ended?, noteEnded]

theorem quiet_noteEnded (s : State) (k p : Nat) (ts : List Thread) : Quiet k s (noteEnded s p ts) := quiet_modPart s k p fun _ => rfl

theorem memberExit_solo {num : Nat} (h : num = 0) (s : State) (p asid i : Nat) : memberExit s p asid num i = s := by simp [memberExit, h]

theorem exec_texit {s : State} {k : Nat} (w : Wide) (hk : s.cur.keys = [k]) (hs : isSimt k = true) (ho : occupied s k = true) :
    exec (.texit w) s = .next (endThread s k (src (thr s k) w.s1)) :=
  (exec_one (i := .texit w) rfl hk).trans (by rw [isHart_of_isSimt hs, if_neg Bool.false_ne_true, if_pos ho])

/-- The thread that an exit writes to its frame: STATE exited, its value in a0 (R123, R139). -/
def exitThread (v : Word) (t : Thread) : Thread := { setX t 10 v with st := .exited, wait := .none, held := [] }

theorem exitThread_frame (v : Word) (t : Thread) : (exitThread v t).frame = t.frame := by
  unfold exitThread setX
  rw [setReg_rest]

theorem exitThread_pc (v : Word) (t : Thread) : (exitThread v t).pc = t.pc := setReg_pc ..

theorem exitThread_team (v : Word) (t : Thread) : (exitThread v t).team = t.team := setReg_team ..

theorem exitThread_a0 (v : Word) (t : Thread) : getReg (exitThread v t) 10 = v :=
  (getReg_congr rfl rfl 10).trans (getReg_setReg_same t v (by decide))

/-- R139: the end of a solo thread: its slot is free, its frame written, and a posting with REASON 3 made. -/
theorem endThread_solo {s : State} {k : Nat} (v : Word) (hh : (thr s k).helper = false) (ht : (thr s k).task = false)
    (h0 : (thr s k).team = 0) (hclear : postClear s (agentDie k) (thr s k).frame 1024 = true) :
    let t := endThread s k v
    occupied t k = false ∧ (∀ j, j ≠ k → mget? t.threads j = mget? s.threads j) ∧ FrameWritten s t (exitThread v (thr s k)) .exited ∧
      (part t (thr s k).part).retPend = (part s (thr s k).part).retPend ++ [((thr s k).frame, 3)] ∧
      (ended? t (thr s k).part (thr s k).tid).isSome = true := by
  let u := exitThread v (thr s k)
  let s0 := { s with resvs := s.resvs.filter fun r => r.1 ≠ k }
  let s1 := noteEnded s0 (thr s k).part [thr s k]
  have hend : endThread s k v = postReturn (dropThr (writeFrame (setThr s1 k u) k u .exited) k) (thr s k).part (thr s k).frame 3 := by
    simp only [endThread, hh, ht, memberExit_solo h0, Bool.false_eq_true, if_false]
    rfl
  have hc : postClear (setThr s1 k u) (agentDie k) u.frame 1024 = true := by
    rw [exitThread_frame, postClear_congr (t := setThr s1 k u) (s := s) rfl rfl rfl rfl]
    exact hclear
  obtain ⟨hthreads, -, hparts, -⟩ := writeFrame_rest .exited hc
  have hwritten := writeFrame_written .exited hc
  rw [hend]
  generalize writeFrame (setThr s1 k u) k u .exited = y at *
  have hpart : ∀ q, part (dropThr y k) q = part s1 q := part_congr hparts
  refine ⟨?_, fun j hj => ?_, (hwritten.of_mem (by rfl)).since (by rfl), ?_, ?_⟩
  · rw [occupied_false]
    exact mget?_mdel_same ..
  · exact (mget?_mdel_other _ hj).trans (by rw [hthreads]; exact mget?_mput_other _ _ hj)
  · rw [retPend_postReturn, hpart, (quiet_noteEnded s0 k _ _).retPend]
    rfl
  · rw [ended?, postReturn, part_modPart_same, hpart]
    exact noteEnded_ended s0 (thr s k).part (thr s k)

/-- R212: the end of a task thread frees its slot, and neither writes nor posts. -/
theorem endThread_task {s : State} {k : Nat} (v : Word) (hh : (thr s k).helper = false) (ht : (thr s k).task = true) :
    let t := endThread s k v
    occupied t k = false ∧ (∀ j, j ≠ k → mget? t.threads j = mget? s.threads j) ∧ KeepsMemory s t ∧
      (part t (thr s k).part).retPend = (part s (thr s k).part).retPend ∧ t.held = s.held := by
  let s0 := { s with resvs := s.resvs.filter fun r => r.1 ≠ k }
  have hend : endThread s k v = dropThr (noteEnded s0 (thr s k).part [thr s k]) k := by
    simp only [endThread, hh, ht, Bool.false_eq_true, if_false, if_true]
    rfl
  have hq := (quiet_noteEnded s0 k (thr s k).part [thr s k]).trans (quiet_dropThr _ k)
  rw [hend]
  exact ⟨occupied_false.2 (mget?_mdel_same ..), hq.threads, fun _ => rfl, hq.retPend _, rfl⟩

end Sys2Proof.Machine
end

section
/-! A thread that leaves its hart by `mig` or `texit` (R135). -/

namespace Sys2Proof.Machine

theorem hart_congr {s t : State} (h : t.harts = s.harts) (k : Nat) : hart t k = hart s k := by rw [hart, hart, h]

/-- An exception of a hart writes no memory, sends no frame, and changes no partition. -/
theorem hartTrap_rest (s : State) (k code : Nat) (tval epc : Word) :
    let t := hartTrap s k false code tval epc
    t.mem = s.mem ∧ t.transits = s.transits ∧ t.parts = s.parts := by
  exact ⟨rfl, rfl, rfl⟩

/-- The registers of a hart behind an exception, in S mode where it is delegated, else in M mode (R443). -/
def HartTook (s : State) (k code : Nat) (tval : Word) (t : State) : Prop :=
  if (hart s k).mode ≠ .machine ∧ bit (hart s k).medeleg code = true then
    (hart t k).mode = .supervisor ∧ (hart t k).scause = w64 code ∧ (hart t k).sepc = (thr s k).pc ∧ (hart t k).stval = tval
  else (hart t k).mode = .machine ∧ (hart t k).mcause = w64 code ∧ (hart t k).mepc = (thr s k).pc ∧ (hart t k).mtval = tval

theorem hartTrap_took {s u : State} (k code : Nat) (tval : Word) (h : u.harts = s.harts) :
    HartTook s k code tval (hartTrap u k false code tval (thr s k).pc) := by
  obtain ⟨hsup, hmach⟩ := hartTrap_takes u k code tval (thr s k).pc
  rw [hart_congr h k] at hsup hmach
  unfold HartTook
  split
  · next hd =>
    obtain ⟨-, hmode, hcause, hepc, htval, -⟩ := hsup hd.1 hd.2
    exact ⟨hmode, hcause, hepc, htval⟩
  · next hd =>
    obtain ⟨-, hmode, hcause, hepc, htval, -⟩ := hmach (by
      by_contra hn
      rw [not_or, Bool.not_eq_false] at hn
      exact hd hn)
    exact ⟨hmode, hcause, hepc, htval⟩

@[simp] theorem hartFrameThread_frame (s : State) (k : Nat) : (hartFrameThread s k).frame = (hart s k).tframe.toNat := rfl

/-- The thread that a `mig` on a hart writes to its frame. -/
def hartMigThread (w : Wide) (s : State) (k : Nat) : Thread := { endWord w 0 (hartFrameThread s k) with st := .migrating }

@[simp] theorem hartMigThread_frame (w : Wide) (s : State) (k : Nat) : (hartMigThread w s k).frame = (hart s k).tframe.toNat := endWord_frame w 0 _

@[simp] theorem hartMigThread_pc (w : Wide) (s : State) (k : Nat) : (hartMigThread w s k).pc = (thr s k).pc + 8 := endWord_pc w 0 _

/-- The thread that a `texit` on a hart writes to its frame. -/
def hartExitThread (v : Word) (s : State) (k : Nat) : Thread := { setX (hartFrameThread s k) 10 v with st := .exited }

theorem hartExitThread_frame (v : Word) (s : State) (k : Nat) : (hartExitThread v s k).frame = (hart s k).tframe.toNat := by
  unfold hartExitThread setX
  rw [setReg_rest]
  rfl

theorem hartExitThread_pc (v : Word) (s : State) (k : Nat) : (hartExitThread v s k).pc = (thr s k).pc := setReg_pc ..

theorem hartExitThread_a0 (v : Word) (s : State) (k : Nat) : getReg (hartExitThread v s k) 10 = v :=
  (getReg_congr rfl rfl 10).trans (getReg_setReg_same _ v (by decide))

/-- A thread has left its hart by `texit`, where its frame stands written in `u`. -/
def hartLeft (s : State) (k : Nat) (u : State) : State :=
  let u := { u with held := u.held.filter fun h => !(h.1 = partOf u k && h.2.1 = (thr s k).tid) }
  hartTrap (modThr (noteEnded u (partOf u k) [{ hartFrameThread s k with satp := satpOf u k }]) k fun t => { t with away := true })
    k false 26 (w64 (hart s k).tframe.toNat) (thr u k).pc

theorem hartLeft_spec {s u : State} {k : Nat} (hk : isHart k = true) (hh : u.harts = s.harts) (ht : u.threads = s.threads) :
    let t := hartLeft s k u
    HartTook s k 26 (w64 (hart s k).tframe.toNat) t ∧ t.mem = u.mem ∧ (ended? t (partOf s k) (thr s k).tid).isSome = true := by
  have hp : ∀ l, partOf { u with held := l } k = partOf s k := fun l => by
    simp only [partOf, hk, hart_congr (t := { u with held := l }) hh, if_true]
  have hthr : ∀ l, thr { u with held := l } k = thr s k := fun l => by rw [thr, thr, ← ht]
  unfold hartLeft
  simp only [hp, hthr]
  exact ⟨hartTrap_took k 26 _ hh, rfl, noteEnded_ended _ (partOf s k) { hartFrameThread s k with satp := satpOf u k }⟩

section
variable {w : Wide} {s : State} {k : Nat}
variable (hk : isHart k = true) (hr : inRanges s (partOf s k) (hart s k).tframe.toNat 1024 = true)
variable (hrec : recordHeld s k (hart s k).tframe.toNat 8 = none)
include hk hr hrec

theorem migOne_hart (hh : (thr s k).helper = false) (hc : handleCheck s k (src (thr s k) w.s1) = 0) (h2 : hKind (src (thr s k) w.s1) < 2) :
    ∃ p satp task f, migOne w s k = hartTrap (modThr (deliverFrame
      (stowLate (writeFrame s k (hartMigThread w s k) .migrating) (partOf s k) (thr s k)) p (endWord w 0 (hartFrameThread s k))
      (hart s k).tframe.toNat satp task (src (thr s k) w.s1)) k f) k false 25 (w64 (hart s k).tframe.toNat) (thr s k).pc := by
  simp only [migOne, hc, hh, atPlace_hart (thr s k) hk h2, hk, hartFrameThread_frame, hr, hrec, ne_eq, not_true_eq_false, if_false, if_true,
    Bool.or_self, Bool.false_eq_true, Bool.not_true]
  exact ⟨_, _, _, _, rfl⟩

/-- R135: a `mig` on a hart to a team or a die sends the frame there, and takes exception 25. -/
theorem migOne_hart_sends (hh : (thr s k).helper = false) (hc : handleCheck s k (src (thr s k) w.s1) = 0)
    (h2 : hKind (src (thr s k) w.s1) < 2) (hclear : postClear s (agentDie k) (hart s k).tframe.toNat 1024 = true) :
    let t := migOne w s k
    HartTook s k 25 (w64 (hart s k).tframe.toNat) t ∧ FrameWritten s t (hartMigThread w s k) .migrating ∧
      ∃ x, t.transits = s.transits ++ [x] ∧ x.frame = (hart s k).tframe.toNat ∧ x.kind = hKind (src (thr s k) w.s1) := by
  have hclear' : postClear s (agentDie k) (hartMigThread w s k).frame 1024 = true := by rw [hartMigThread_frame]; exact hclear
  obtain ⟨p, satp, task, f, hmig⟩ := migOne_hart hk hr hrec hh hc h2
  have hwritten := writeFrame_written .migrating hclear'
  obtain ⟨-, htrans, -, hharts⟩ := writeFrame_rest .migrating hclear'
  rw [hmig]
  generalize writeFrame s k (hartMigThread w s k) .migrating = u at *
  have hq := quiet_stowLate u k (partOf s k) (thr s k)
  obtain ⟨hmem, hharts', -, x, hx, hframe, hkind, -⟩ := deliverFrame_sends (stowLate u (partOf s k) (thr s k)) p
    (endWord w 0 (hartFrameThread s k)) (hart s k).tframe.toNat satp task h2
  generalize deliverFrame (stowLate u (partOf s k) (thr s k)) p (endWord w 0 (hartFrameThread s k)) (hart s k).tframe.toNat
    satp task (src (thr s k) w.s1) = v at *
  obtain ⟨htmem, httrans, -⟩ := hartTrap_rest (modThr v k f) k 25 (w64 (hart s k).tframe.toNat) (thr s k).pc
  exact ⟨hartTrap_took k 25 _ (hharts'.trans (hq.harts.trans hharts)), hwritten.of_mem (htmem.trans (hmem.trans hq.mem)),
    x, httrans.trans (hx.trans (by rw [hq.transits, htrans])), hframe, hkind⟩

omit hk in
theorem exitOnHart_solo (v : Word) (h0 : (thr s k).team = 0) :
    exitOnHart s k v = hartLeft s k (writeFrame s k (hartExitThread v s k) .exited) := by
  have hteam : (hartFrameThread s k).team = 0 := h0
  simp only [exitOnHart, hartFrameThread_frame, hr, hrec, memberExit_solo hteam, Bool.false_eq_true, Bool.not_true, if_false]
  rfl

/-- R135, R139: a `texit` on a hart writes the frame, takes exception 26, and the thread is known as exited. -/
theorem exitOnHart_exits (v : Word) (h0 : (thr s k).team = 0) (hclear : postClear s (agentDie k) (hart s k).tframe.toNat 1024 = true) :
    let t := exitOnHart s k v
    HartTook s k 26 (w64 (hart s k).tframe.toNat) t ∧ FrameWritten s t (hartExitThread v s k) .exited ∧
      (ended? t (partOf s k) (thr s k).tid).isSome = true := by
  have hclear' : postClear s (agentDie k) (hartExitThread v s k).frame 1024 = true := by rw [hartExitThread_frame]; exact hclear
  obtain ⟨hthreads, -, -, hharts⟩ := writeFrame_rest .exited hclear'
  obtain ⟨htook, hmem, hended⟩ := hartLeft_spec hk hharts hthreads
  rw [exitOnHart_solo hr hrec v h0]
  exact ⟨htook, (writeFrame_written .exited hclear').of_mem hmem, hended⟩

end

end Sys2Proof.Machine
end

section
/-! `mig` and `texit` on SIMT threads and on harts (R123, R131-R139, R212). -/

namespace Sys2Proof.Machine

theorem exec_texit_hart {s : State} {k : Nat} (w : Wide) (hk : s.cur.keys = [k]) (hh : isHart k = true) :
    exec (.texit w) s = .next (exitOnHart s k (src (thr s k) w.s1)) :=
  (exec_one (i := .texit w) rfl hk).trans (by rw [if_pos hh])

/-- STATE of a frame that stands written (R123). -/
theorem FrameWritten.state {s t : State} {u : Thread} {st : TState} (h : FrameWritten s t u st) : bits (rdWord t u.frame) 3 0 = st.code := by
  rw [h.status]
  exact (statusWord_fields u st).1

/-- Settles O24: the frame is written first (`writeFrame_written`), and what follows it writes no memory. -/
theorem migrationAndExit : Obligations.MigrationAndExit := by
  refine ⟨fun s k w hkey hk ho => ⟨fun hc => ?_, fun hc hp => ?_, fun hc hp hh hr hclear => ?_⟩, fun s k w hkey hk hh ht h0 ho hclear => ?_,
    fun s k w hkey hk hh ht ho => ?_, fun s k w hkey hk hh hr hrec hclear => ⟨fun ho hc h2 => ?_, fun h0 => ?_⟩⟩
  · refine ⟨_, (exec_mig hkey ho).trans (by rw [migOne_refused hc]), onlyThreads_setThr .., ?_⟩
    rw [thr_setThr_same]
    exact endsWith_endWord ..
  · refine ⟨_, (exec_mig hkey ho).trans (by rw [migOne_atPlace hc hp]), onlyThreads_setThr .., ?_⟩
    rw [thr_setThr_same]
    exact endsWith_endWord ..
  · obtain ⟨hfree, hw, hret, hsend⟩ := migOne_leaves hk hc hp hh hr hclear
    rw [← migThread_frame w (thr s k)]
    refine ⟨_, exec_mig hkey ho, hfree, hw.state, hw.pc.trans (migThread_pc ..), hw.rest, fun h2 => ?_, fun h1 => ?_⟩
    · rw [migThread_frame]
      exact hret h2
    · obtain ⟨x, hx, hframe, hkind, htarget⟩ := hsend (by omega)
      exact ⟨x, hx, hframe.trans (migThread_frame ..).symm, hkind.trans h1, htarget h1⟩
  · obtain ⟨hfree, hother, hw, hret, hended⟩ := endThread_solo (src (thr s k) w.s1) hh ht h0 hclear
    have hsolo : bit (rdWord (endThread s k (src (thr s k) w.s1)) (exitThread (src (thr s k) w.s1) (thr s k)).frame) 20 = true := by
      rw [hw.status, (statusWord_fields _ _).2.2.1, exitThread_team, h0]
      rfl
    have ha0 := (hw.reg 10 (by decide) (by decide)).trans (exitThread_a0 ..)
    have hstate := hw.state
    have hpc := hw.pc.trans (exitThread_pc ..)
    have hrest := hw.rest
    rw [exitThread_frame] at hsolo ha0 hstate hpc hrest
    exact ⟨_, exec_texit w hkey hk ho, hfree, hother, hstate, hsolo, ha0, hpc, hrest, hret, hended⟩
  · exact ⟨_, exec_texit w hkey hk ho, endThread_task _ hh ht⟩
  · obtain ⟨htook, hw, x, hx, hframe, hkind⟩ := migOne_hart_sends hk hr hrec hh hc (by have := hKind_of_checked hc; omega) hclear
    have hstate := hw.state
    have hrest := hw.rest
    have hpc := hw.pc.trans (hartMigThread_pc ..)
    rw [hartMigThread_frame] at hstate hrest hpc
    exact ⟨_, x, exec_mig hkey ho, ⟨htook, hrest⟩, hstate, hpc, hx, hframe, hkind⟩
  · obtain ⟨htook, hw, hended⟩ := exitOnHart_exits hk hr hrec (src (thr s k) w.s1) h0 hclear
    have ha0 := (hw.reg 10 (by decide) (by decide)).trans (hartExitThread_a0 ..)
    have hstate := hw.state
    have hpc := hw.pc.trans (hartExitThread_pc ..)
    have hrest := hw.rest
    rw [hartExitThread_frame] at ha0 hstate hpc hrest
    exact ⟨_, exec_texit_hart w hkey hk, ⟨htook, hrest⟩, hstate, hpc, ha0, hended⟩

end Sys2Proof.Machine
end

section
/-! `tspawn` (R140, R153): threads that come into being at the indices of a team, one after the other. -/

namespace Sys2Proof.Machine

theorem thr_congr {s t : State} {k : Nat} (h : mget? t.threads k = mget? s.threads k) : thr t k = thr s k :=
  congrArg (fun o : Option Thread => o.getD {}) h

/-! The record of a team after its members' records change. -/

theorem team?_modTeam (s : State) {p asid num : Nat} {f : Team → Team}
    (hf : ∀ t, (f t).part = t.part ∧ (f t).asid = t.asid ∧ (f t).num = t.num) :
    team? (modTeam s p asid num f) p asid num = (team? s p asid num).map f := by
  unfold team? modTeam
  induction s.teams with
  | nil => rfl
  | cons t l ih =>
    obtain ⟨hp, ha, hn⟩ := hf t
    by_cases h : (t.part = p && t.asid = asid && t.num = num) = true
    · simp only [List.map_cons, h, if_true, List.find?_cons, hp, ha, hn, Option.map_some]
    · simp only [List.map_cons, h, List.find?_cons, Bool.false_eq_true, if_false, ih]

/-- A team stands as `m` does, but for the records of its members. -/
def StandsAs (m : Team) (s : State) : Prop := ∃ ms, team? s m.part m.asid m.num = some { m with members := ms }

theorem StandsAs.team {m : Team} {s : State} (h : StandsAs m s) : ∃ ms, team s m.part m.asid m.num = { m with members := ms } := by
  obtain ⟨ms, hms⟩ := h
  exact ⟨ms, by rw [Machine.team, hms]; rfl⟩

theorem standsAs_congr {m : Team} {s t : State} (ht : t.teams = s.teams) (h : StandsAs m s) : StandsAs m t := by
  unfold StandsAs team? at *
  rw [ht]
  exact h

theorem standsAs_modMember {m : Team} {s : State} (i : Nat) (f : Member → Member) (h : StandsAs m s) :
    StandsAs m (modMember s m.part m.asid m.num i f) := by
  obtain ⟨ms, hms⟩ := h
  unfold StandsAs modMember
  rw [team?_modTeam, hms]
  · exact ⟨_, rfl⟩
  · exact fun _ => ⟨rfl, rfl, rfl⟩

/-- A member's key is that of its index of `m`, whatever the records of the members say. -/
theorem memberKey_members (m : Team) (ms : SMap Member) (i : Nat) : memberKey { m with members := ms } i = memberKey m i := rfl

/-! What is done at one index of a team. -/

/-- No memory is written, no slot but that of the index changed, and of the team no more than the records of its members. -/
structure AtIndex (m : Team) (i : Nat) (s t : State) : Prop where
  mem : t.mem = s.mem
  threads : ∀ j, j ≠ memberKey m i → mget? t.threads j = mget? s.threads j
  stands : StandsAs m t

theorem AtIndex.trans {m : Team} {i : Nat} {s t u : State} (h : AtIndex m i s t) (h' : AtIndex m i t u) : AtIndex m i s u :=
  ⟨h'.mem.trans h.mem, fun j hj => (h'.threads j hj).trans (h.threads j hj), h'.stands⟩

theorem atIndex_dropHelper {m : Team} {s : State} (i : Nat) (h : StandsAs m s) :
    AtIndex m i s (dropHelper s (team s m.part m.asid m.num) i) := by
  obtain ⟨ms, hms⟩ := h.team
  rw [hms]
  unfold dropHelper
  split
  · exact ⟨rfl, fun j hj => mget?_mdel_other _ hj, standsAs_modMember i _ (standsAs_congr (s := s) rfl h)⟩
  · exact ⟨rfl, fun _ _ => rfl, h⟩

/-- What a thread holds that is created at an index (R140, R153). -/
structure CreatedAt (start arg hvec : Word) (helper : Bool) (i : Nat) (t : Thread) : Prop where
  pc : t.pc = start
  a0 : getReg t 10 = w64 i
  a1 : getReg t 11 = arg
  tidx : t.tidx = i
  helper : t.helper = helper
  hvec : t.trap.hvec = hvec

theorem newTid_rest (s : State) (p : Nat) :
    (newTid s p).2.mem = s.mem ∧ (newTid s p).2.threads = s.threads ∧ (newTid s p).2.teams = s.teams := ⟨rfl, rfl, rfl⟩

theorem newThread_spec {m : Team} {s : State} (i : Nat) (start arg hvec satp : Word) (helper : Bool) (h : StandsAs m s) :
    let t := newThread s m.part m.asid m.num i start arg hvec satp helper
    AtIndex m i s t ∧ CreatedAt start arg hvec helper i (thr t (memberKey m i)) := by
  obtain ⟨ms, hms⟩ := h.team
  obtain ⟨tid, s', hnew, hmem, hthreads, hteams⟩ : ∃ tid s', (if helper then (helperTid, s) else newTid s m.part) = (tid, s') ∧
      s'.mem = s.mem ∧ s'.threads = s.threads ∧ s'.teams = s.teams := by
    cases helper
    · exact ⟨_, _, rfl, newTid_rest s m.part⟩
    · exact ⟨_, _, rfl, rfl, rfl, rfl⟩
  unfold newThread
  simp only [hms, hnew, memberKey_members]
  refine ⟨⟨hmem, fun j hj => ?_, standsAs_modMember i _ (standsAs_congr (s := s) hteams h)⟩, ?_⟩
  · exact (slot_setThr_other s' _ hj).trans (by rw [hthreads])
  · simp only [modMember, thr_modTeam, thr_setThr_same]
    exact ⟨rfl, (mget_mset_other _ _ _ (by decide)).trans (mget_mset_same ..), mget_mset_same .., rfl, rfl, rfl⟩

/-! Indices one after the other. -/

section
variable {m : Team} {f : State → Nat → State}

/-- What is done at indices one after the other leaves every other slot. -/
theorem foldl_atIndex (hf : ∀ i s, StandsAs m s → AtIndex m i s (f s i)) (is : List Nat) {s : State} (h : StandsAs m s) :
    (is.foldl f s).mem = s.mem ∧ StandsAs m (is.foldl f s) ∧
      ∀ j, (∀ i ∈ is, j ≠ memberKey m i) → mget? (is.foldl f s).threads j = mget? s.threads j := by
  induction is generalizing s with
  | nil => exact ⟨rfl, h, fun _ _ => rfl⟩
  | cons i is ih =>
    obtain ⟨hmem, hthreads, hstands⟩ := hf i s h
    obtain ⟨hmem', hstands', hthreads'⟩ := ih hstands
    exact ⟨hmem'.trans hmem, hstands', fun j hj =>
      (hthreads' j fun i' hi' => hj i' (List.mem_cons_of_mem _ hi')).trans (hthreads j (hj i List.mem_cons_self))⟩

/-- What each index's slot holds once it is its turn, it holds at the end, where the slots are distinct. -/
theorem foldl_created {P : Nat → Thread → Prop} (hf : ∀ i s, StandsAs m s → AtIndex m i s (f s i))
    (hP : ∀ i s, StandsAs m s → P i (thr (f s i) (memberKey m i))) {is : List Nat} (hn : (is.map (memberKey m)).Nodup) {s : State}
    (h : StandsAs m s) : ∀ i ∈ is, P i (thr (is.foldl f s) (memberKey m i)) := by
  induction is generalizing s with
  | nil => exact fun i hi => absurd hi List.not_mem_nil
  | cons i is ih =>
    rw [List.map_cons, List.nodup_cons] at hn
    obtain ⟨hnot, hn⟩ := hn
    have hstands := (hf i s h).stands
    intro i' hi'
    rcases List.mem_cons.1 hi' with rfl | hi'
    · have hkeep := (foldl_atIndex hf is hstands).2.2 (memberKey m i') fun j hj e => hnot (List.mem_map.2 ⟨j, hj, e.symm⟩)
      rw [List.foldl_cons, thr_congr hkeep]
      exact hP i' s h
    · exact ih hn hstands i' hi'

end

end Sys2Proof.Machine
end

section
/-! `tspawn` on a member: the statuses, and the threads and helpers that it creates (R140, R153). -/

namespace Sys2Proof.Machine

theorem mem_span {a n x : Nat} : x ∈ span a n ↔ a ≤ x ∧ x < a + n := by
  simp only [span, List.mem_map, List.mem_range]
  exact ⟨fun ⟨i, hi, e⟩ => by omega, fun h => ⟨x - a, by omega, by omega⟩⟩

theorem nodup_span (a n : Nat) : (span a n).Nodup := List.nodup_range.map fun _ _ h => Nat.add_left_cancel h

/-- A member's team is the one that its number names (R128). -/
theorem teamK?_spec {s : State} {k : Nat} {m : Team} (hk : isSimt k = true) (h : teamK? s k = some m) :
    m.part = (thr s k).part ∧ m.asid = asidOf (thr s k).satp ∧ StandsAs m s := by
  have hpart : partOf s k = (thr s k).part := by simp [partOf, isHart_of_isSimt hk]
  have hasid : asidK s k = asidOf (thr s k).satp := by simp [asidK, satpOf, isHart_of_isSimt hk]
  unfold teamK? at h
  split at h
  · cases h
  · rw [hpart, hasid] at h
    have hm := List.find?_some h
    simp only [Bool.and_eq_true, decide_eq_true_eq] at hm
    obtain ⟨⟨hp, ha⟩, hn⟩ := hm
    refine ⟨hp, ha, m.members, ?_⟩
    show team? s m.part m.asid m.num = some m
    rw [hp, ha, hn]
    exact h

/-- The indices of a team at which slots are reserved have slots of their own. -/
def SlotsApart (m : Team) : Prop := ((List.range m.desc.l4).map (memberKey m)).Nodup

theorem SlotsApart.eq {m : Team} (h : SlotsApart m) {i j : Nat} (hi : i < m.desc.l4) (hj : j < m.desc.l4)
    (e : memberKey m i = memberKey m j) : i = j :=
  List.inj_on_of_nodup_map h (List.mem_range.2 hi) (List.mem_range.2 hj) e

/-- One thread that `tspawn` creates: a helper that stood at its index is discarded (R155). -/
def spawnAt (m : Team) (start arg hvec satp : Word) (s : State) (i : Nat) : State :=
  newThread (dropHelper s (team s m.part m.asid m.num) i) m.part m.asid m.num i start arg hvec satp false

/-- What `tspawn` makes of the package for a team, beside the end of its word. -/
def spawned (m : Team) (n : Nat) (start arg hvec satp : Word) (s : State) : State :=
  let s := modTeam ((span m.count n).foldl (spawnAt m start arg hvec satp) s) m.part m.asid m.num fun m => { m with count := m.count + n }
  if n = 0 then s else spawnHelpers s m.part m.asid m.num start arg hvec satp

section
variable {m : Team} {start arg hvec satp : Word}

theorem spawnAt_spec (i : Nat) (s : State) (h : StandsAs m s) :
    AtIndex m i s (spawnAt m start arg hvec satp s i) ∧ CreatedAt start arg hvec false i (thr (spawnAt m start arg hvec satp s i) (memberKey m i)) := by
  have hdrop := atIndex_dropHelper i h
  obtain ⟨hnew, hcreated⟩ := newThread_spec i start arg hvec satp false hdrop.stands
  exact ⟨hdrop.trans hnew, hcreated⟩

/-- The helpers that a spawn needs stand above the threads, up to the next multiple of four (R153). -/
theorem helperIdx_bounds {t : Team} {i : Nat} (h : i ∈ helperIdx t) : t.count ≤ i ∧ i < (t.count + 3) / 4 * 4 := by
  have := mem_span.1 (List.mem_of_mem_filter h)
  omega

theorem spawnHelpers_spec {s : State} (h : StandsAs m s) :
    let t := spawnHelpers s m.part m.asid m.num start arg hvec satp
    t.mem = s.mem ∧ StandsAs m t ∧ ∀ j, (∀ i, m.count ≤ i → i < (m.count + 3) / 4 * 4 → j ≠ memberKey m i) →
      mget? t.threads j = mget? s.threads j := by
  obtain ⟨hmem, hstands, hother⟩ := foldl_atIndex (fun i s h => (newThread_spec i start arg hvec satp true h).1)
    (helperIdx (team s m.part m.asid m.num)) h
  refine ⟨hmem, hstands, fun j hj => hother j fun i hi => ?_⟩
  obtain ⟨ms, hms⟩ := h.team
  obtain ⟨hlo, hhi⟩ := helperIdx_bounds hi
  rw [hms] at hlo hhi
  exact hj i hlo hhi

/-- R140: each new index has its thread, the count grows, and no slot but those of the indices from the count on is changed. -/
theorem spawned_spec {n : Nat} {s : State} (h : StandsAs m s) (hn : n ≤ m.desc.limit - m.count) (ha : SlotsApart m) :
    let t := spawned m n start arg hvec satp s
    t.mem = s.mem ∧ (team t m.part m.asid m.num).count = m.count + n ∧
      (∀ j, (∀ i < m.desc.l4, m.count ≤ i → j ≠ memberKey m i) → mget? t.threads j = mget? s.threads j) ∧
      ∀ i, m.count ≤ i → i < m.count + n → CreatedAt start arg hvec false i (thr t (memberKey m i)) := by
  have hl4 : m.desc.limit ≤ m.desc.l4 := by unfold Desc.l4; omega
  have hspan : ∀ i ∈ span m.count n, i < m.desc.l4 := fun i hi => by have := mem_span.1 hi; omega
  have hstep : ∀ i s, StandsAs m s → AtIndex m i s (spawnAt m start arg hvec satp s i) := fun i s h => (spawnAt_spec i s h).1
  obtain ⟨hmem, hstands, hother⟩ := foldl_atIndex hstep (span m.count n) h
  have hcreated := foldl_created hstep (fun i s h => (spawnAt_spec i s h).2)
    ((nodup_span m.count n).map_on fun i hi j hj => ha.eq (hspan i hi) (hspan j hj)) h
  have hcount : StandsAs { m with count := m.count + n } (modTeam ((span m.count n).foldl (spawnAt m start arg hvec satp) s) m.part m.asid
      m.num fun m => { m with count := m.count + n }) := by
    obtain ⟨ms, hms⟩ := hstands
    unfold StandsAs
    rw [team?_modTeam, hms]
    · exact ⟨ms, rfl⟩
    · exact fun _ => ⟨rfl, rfl, rfl⟩
  unfold spawned
  dsimp only
  split
  · next h0 =>
    obtain ⟨ms, hms⟩ := hcount.team
    exact ⟨hmem, congrArg Team.count hms, fun j hj => hother j fun i hi => hj i (hspan i hi) (mem_span.1 hi).1, fun i h1 h2 => by omega⟩
  · next h0 =>
    obtain ⟨hmem', hstands', hother'⟩ := spawnHelpers_spec (start := start) (arg := arg) (hvec := hvec) (satp := satp) hcount
    obtain ⟨ms, hms⟩ := hstands'.team
    have hquad : (m.count + n + 3) / 4 * 4 ≤ m.desc.l4 := by unfold Desc.l4; omega
    refine ⟨hmem'.trans hmem, congrArg Team.count hms, fun j hj => ?_, fun i h1 h2 => ?_⟩
    · rw [hother' j fun i hlo hhi => hj i (by simp only at hlo hhi; omega) (by simp only at hlo; omega)]
      exact hother j fun i hi => hj i (hspan i hi) (mem_span.1 hi).1
    · rw [thr_congr (hother' (memberKey m i) fun j hlo hhi e => by
        have := ha.eq (by omega) (by simp only at hlo hhi; omega) e
        simp only at hlo
        omega)]
      exact hcreated i (mem_span.2 ⟨h1, h2⟩)

end

section
variable {w : Wide} {s : State} {k : Nat} {m : Team}

theorem exec_tspawn (hk : s.cur.keys = [k]) (hh : (thr s k).helper = false) : exec (.tspawn w) s = .next (spawnOne w s k) :=
  (exec_one (i := .tspawn w) rfl hk).trans (by rw [hh]; rfl)

variable (hm : teamK? s k = some m) (hh : (thr s k).helper = false)
include hm hh

theorem spawnOne_odd (h : bit (src (thr s k) w.s1) 0 = true) : spawnOne w s k = setThr s k (endWord w (stw 2) (thr s k)) := by
  simp [spawnOne, hm, hh, h]

theorem spawnOne_many (h : bit (src (thr s k) w.s1) 0 = false) (hn : m.desc.limit - m.count < (src (thr s k) w.s2).toNat) :
    spawnOne w s k = setThr s k (endWord w (stw 1) (thr s k)) := by
  simp [spawnOne, hm, hh, h, hn]

theorem spawnOne_creates (hk : isSimt k = true) (h : bit (src (thr s k) w.s1) 0 = false)
    (hn : (src (thr s k) w.s2).toNat ≤ m.desc.limit - m.count) :
    spawnOne w s k = modThr (spawned m (src (thr s k) w.s2).toNat (src (thr s k) w.s1) (src (thr s k) w.s3) (thr s k).trap.hvec
      (thr s k).satp s) k (endWord w (w64 m.count)) := by
  obtain ⟨hp, ha, -⟩ := teamK?_spec hk hm
  simp only [spawnOne, hm, hh, h, Bool.false_eq_true, if_false, if_neg (Nat.not_lt.2 hn), ← hp, ← ha, gt_iff_lt]
  rfl

end

/-- Settles O25: two statuses that create nothing, and the threads of the new indices, whose slots are apart (`spawned_spec`). -/
theorem spawnCreates : Obligations.SpawnCreates := by
  refine fun s k w m hkey hk hh hm => ⟨fun h => ?_, fun h hn => ?_, fun h hn hapart hkeys => ?_⟩
  · refine ⟨_, (exec_tspawn hkey hh).trans (by rw [spawnOne_odd hm hh h]), onlyThreads_setThr .., ?_⟩
    rw [thr_setThr_same]
    exact endsWith_endWord ..
  · refine ⟨_, (exec_tspawn hkey hh).trans (by rw [spawnOne_many hm hh h hn]), onlyThreads_setThr .., ?_⟩
    rw [thr_setThr_same]
    exact endsWith_endWord ..
  · obtain ⟨hmem, hcount, hother, hcreated⟩ := spawned_spec (start := src (thr s k) w.s1) (arg := src (thr s k) w.s3)
      (hvec := (thr s k).trap.hvec) (satp := (thr s k).satp) (teamK?_spec hk hm).2.2 hn hapart
    have hself := thr_congr (hother k fun i hi hc => (hkeys i hi hc).symm)
    have hexec := (exec_tspawn (w := w) hkey hh).trans (congrArg _ (spawnOne_creates hm hh hk h hn))
    refine ⟨_, hexec, ?_, hcount, fun a => by rw [← hmem]; rfl, fun i h1 h2 => ?_⟩
    · rw [thr_modThr_same, hself]
      exact endsWith_endWord ..
    · obtain ⟨hpc, ha0, ha1, htidx, hhelper, hhvec⟩ := hcreated i h1 h2
      have hl4 : m.desc.limit ≤ m.desc.l4 := by unfold Desc.l4; omega
      dsimp only
      rw [thr_modThr_other _ _ (hkeys i (by omega) h1)]
      exact ⟨hpc, ha0, ha1, htidx, hhelper, hhvec⟩

end Sys2Proof.Machine
end

section
/-! Frames that load, signals, and postings to the return queue (R134, R137, R138, R145, R148, R151). -/

namespace Sys2Proof.Machine

/-! A frame that loads (R122-R126, R134). -/

theorem mget_foldl_mset (g : Nat → Word) (n i : Nat) :
    mget 0 ((List.range n).foldl (fun m i => mset 0 m (i + 1) (g i)) []) (i + 1) = if i < n then g i else 0 := by
  induction n with
  | zero => rfl
  | succ n ih =>
    rw [List.range_succ, List.foldl_append, List.foldl_cons, List.foldl_nil, mget_mset, ih]
    by_cases hlast : i = n
    · simp [hlast]
    · simp [hlast, show i < n ↔ i < n + 1 by omega]

/-- A thread that arrives is loaded from its frame, ready, and issues again what was held. -/
theorem arrival_loads (s : State) (x : Transit) : ∃ t0 : Thread, t0.st = .ready ∧ t0.frame = x.frame ∧
    (arrival s x).x = (loadFrameWords (readFrame s x.frame) t0).x ∧ (arrival s x).pc = (loadFrameWords (readFrame s x.frame) t0).pc ∧
    (arrival s x).st = t0.st ∧ (arrival s x).frame = t0.frame := by
  unfold arrival
  generalize readFrame s x.frame = l
  exact ⟨_, rfl, rfl, rfl, rfl, rfl, rfl⟩

theorem loadFrameWords_pc (l : List Word) (t : Thread) : (loadFrameWords l t).pc = setBit (dw l 1) 0 false := rfl

theorem loadFrameWords_x (l : List Word) (t : Thread) :
    (loadFrameWords l t).x = (List.range 31).foldl (fun m i => mset 0 m (i + 1) (dw l (2 + i))) [] := rfl

theorem getReg_loadFrameWords (l : List Word) (t : Thread) {n : Nat} (h0 : 0 < n) (h : n < 32) :
    mget 0 (loadFrameWords l t).x n = dw l (n + 1) := by
  obtain ⟨i, rfl⟩ : ∃ i, n = i + 1 := ⟨n - 1, by omega⟩
  rw [loadFrameWords_x, mget_foldl_mset, if_pos (by omega), Nat.add_comm 2 i]

theorem dw_readFrame (s : State) (a : Nat) {i : Nat} (h : i < 128) : dw (readFrame s a) i = rdWord s (a + 8 * i) := dw_rdWords s a h

/-- What a thread holds that arrives from a frame (R122, R134). -/
theorem arrival_spec (s : State) (x : Transit) : (arrival s x).st = .ready ∧ (arrival s x).pc = setBit (rdWord s (x.frame + 8)) 0 false ∧
    (arrival s x).frame = x.frame ∧ ∀ n, 0 < n → n < 32 → getReg (arrival s x) n = rdWord s (x.frame + 8 + 8 * n) := by
  obtain ⟨t0, hst0, hframe0, hx, hpc, hst, hframe⟩ := arrival_loads s x
  refine ⟨hst.trans hst0, ?_, hframe.trans hframe0, fun n h0 h => ?_⟩
  · rw [hpc, loadFrameWords_pc, dw_readFrame s x.frame (i := 1) (by omega)]
  · rw [getReg, if_neg (by omega), if_pos h, hx, getReg_loadFrameWords _ _ h0 h, dw_readFrame s x.frame (by omega),
      show x.frame + 8 * (n + 1) = x.frame + 8 + 8 * n by omega]

/-- A thread finds again what was pending for it, and is else as it was (R453). -/
theorem takeLate_spec (s : State) (k : Nat) :
    Quiet k s (takeLate s k) ∧ ∃ e n, thr (takeLate s k) k = { thr s k with pend0E := e, pend16 := n } := by
  unfold takeLate
  dsimp only
  split
  · exact ⟨.refl k s, _, _, rfl⟩
  · refine ⟨(quiet_modPart s k (partOf s k) ?_).trans (quiet_setThr _ k _), _, _, thr_modThr_same ..⟩
    exact fun _ => rfl

/-- The state in which a solo thread's frame has left the way to its die, and its slot is taken from those that are kept. -/
def landed (s : State) (k : Nat) : State := { dropTransit s 0 with held := (dropTransit s 0).held.filter fun h => h.2.2 ≠ k }

theorem landed_transits {s : State} {x : Transit} (hx : s.transits = [x]) (k : Nat) : (landed s k).transits = [] := by
  show s.transits.eraseIdx 0 = []
  rw [hx]
  rfl

theorem exec_frameLoad {s : State} {die cr lane slot : Nat} {x : Transit} (hx : s.transits = [x]) (hkind : x.kind = 1) (htask : x.task = none)
    (htarget : x.target = die) (hdie : die < 4) (hp : poisoned s x.frame 1024 = false) (hc : postClear s die x.frame 1024 = true)
    (ho : ownsCore s x.part (64 * die + cr) = true) (hcr : cr < 64)
    (hi : (idleSlots s (64 * die + cr)).contains (slotKey die cr lane slot) = true) :
    exec (.frameLoad 0 die cr lane slot) s = .next (takeLate (setThr (landed s (slotKey die cr lane slot)) (slotKey die cr lane slot)
      (arrival (landed s (slotKey die cr lane slot)) x)) (slotKey die cr lane slot)) := by
  have h4 : die ≠ 4 := by omega
  show execFrameLoad 0 die cr lane slot s = _
  simp only [execFrameLoad, hx, List.getElem?_cons_zero, hp, hc, hkind, htask, htarget, ho, hcr, hi, h4, Bool.false_eq_true, Bool.not_true,
    one_ne_zero, decide_true, Bool.and_self, if_false, if_true]
  rfl

/-! The latency side (R148, R151). -/

/-- The thread that leaves for the latency side with a REASON, where nothing is issued: RETH, and CAUSE of a signal or an `ecall`. -/
def outThread (k reason : Nat) (t : Thread) : Thread :=
  { t with
    st := .migrating, wait := .none, reth := if t.team = 0 then w64 (2 ^ 62 + dieOf k) else w64 t.team
    sigpend := t.sigpend && reason ≠ 1, cause := if reason = 1 then 0x17 else 0x13 }

theorem migrateOut_spec {s : State} {k : Nat} (reason : Nat) (hops : (thr s k).ops = [])
    (hclear : postClear s (agentDie k) (thr s k).frame 1024 = true) :
    let t := migrateOut s k reason
    occupied t k = false ∧ FrameWritten s t (outThread k reason (thr s k)) .migrating ∧
      (part t (thr s k).part).retPend = (part s (thr s k).part).retPend ++ [((thr s k).frame, reason)] := by
  have hmig : migrateOut s k reason = postReturn (leaveSlot (writeFrame (setThr s k (outThread k reason (thr s k))) k
      (outThread k reason (thr s k)) .migrating) k) (thr s k).part (thr s k).frame reason := by
    unfold migrateOut
    rw [capture_noOps hops]
    rfl
  have hframe : (outThread k reason (thr s k)).frame = (thr s k).frame := rfl
  obtain ⟨hfree, hwritten, -, hpend⟩ := leaveSlot_written (s := s) (k := k) (u := outThread k reason (thr s k)) .migrating
    (by rw [hframe]; exact hclear)
  rw [hmig]
  generalize leaveSlot (writeFrame (setThr s k (outThread k reason (thr s k))) k (outThread k reason (thr s k)) .migrating) k = v at *
  exact ⟨hfree, hwritten.of_mem (by rfl), by rw [retPend_postReturn, hpend]⟩

theorem exec_signalMigration {s : State} {k : Nat} (hk : isSimt k = true) (ho : occupied s k = true) (hst : (thr s k).st = .ready)
    (hw : (thr s k).wait = .none) (hs : (thr s k).sigpend = true) (hl : (thr s k).chain.live = false) (h15 : slotOf k ≠ 15)
    (hops : (thr s k).ops = []) (hmig : nextIsMig s k = false) (hfp : (thr s k).chain.fp = none) (h0E : (thr s k).pend0E = none)
    (h16 : (thr s k).pend16 = none) (h8 : (thr s k).held.length ≤ 8) :
    exec (.signalMigration k) s = .next (migrateOut s k 1) := by
  show execSignalMigration k s = _
  simp [execSignalMigration, hk, ho, hst, hw, hs, hl, isRsv, h15, hmig, hfp, h0E, h16, canCapture, hops, h8]

/-! The return queue (R137, R138). -/

theorem msi_rest (s : State) (v : Word) :
    (msi s v).mem = s.mem ∧ (msi s v).parts = s.parts ∧ (msi s v).threads = s.threads ∧ (msi s v).teams = s.teams := by
  unfold msi
  split
  · exact ⟨rfl, rfl, rfl, rfl⟩
  · exact ⟨rfl, rfl, rfl, rfl⟩

/-- The oldest posting has taken the ring's next slot, and the tail has moved on. -/
def returnPosted (s : State) (p base slot fr reason : Nat) (rest : List (Nat × Nat)) : State :=
  let u := modPart s p fun x => { x with retPend := rest }
  let u := if reason = 3 then u else wrWord u fr (setBits (rdWord u fr) 3 0 1)
  let u := wrWord u slot (w64 (fr / 16 * 16 + reason))
  msi (wrWord u (base + 8) (rdWord s (base + 8) + 1)) (part u p).retmsi

theorem returnPosted_spec (s : State) (p : Nat) {base slot : Nat} (fr reason : Nat) (rest : List (Nat × Nat)) (h : base + 16 ≤ slot) :
    let t := returnPosted s p base slot fr reason rest
    (part t p).retPend = rest ∧ rdWord t (base + 8) = rdWord s (base + 8) + 1 ∧ rdWord t slot = w64 (fr / 16 * 16 + reason) ∧
      t.threads = s.threads ∧ t.teams = s.teams := by
  unfold returnPosted
  extract_lets u v y
  have hu : v.parts = u.parts ∧ v.threads = s.threads ∧ v.teams = s.teams := by
    dsimp only [v]
    split
    · exact ⟨rfl, rfl, rfl⟩
    · exact ⟨rfl, rfl, rfl⟩
  obtain ⟨hmem, hparts, hthreads, hteams⟩ := msi_rest (wrWord y (base + 8) (rdWord s (base + 8) + 1)) (part y p).retmsi
  refine ⟨?_, ?_, ?_, hthreads.trans hu.2.1, hteams.trans hu.2.2⟩
  · have hpart : part (wrWord y (base + 8) (rdWord s (base + 8) + 1)) p = part u p := part_congr hu.1 p
    rw [part_congr hparts, hpart, part_modPart_same]
  · rw [rdWord_congr hmem, rdWord_wrWord_same]
  · rw [rdWord_congr hmem, rdWord_wrWord_apart _ _ _ (by omega), rdWord_wrWord_same]

section
variable {s : State} {p fr reason : Nat} {rest : List (Nat × Nat)} (hpend : (part s p).retPend = (fr, reason) :: rest)
variable {base n : Nat} (hbase : base = bits (part s p).retq 63 12 * 4096) (hn : n = ringSize (part s p).retq 20)
variable (hr : inRanges s p base (0x40 + 8 * n) = true) (hp : poisoned s base 64 = false) (hc : ringClear s base 64 = true)
include hpend hbase hn hr hp hc

theorem exec_returnQueuePost_posts (hs : ringClear s (base + 0x40 + 8 * ((rdWord s (base + 8)).toNat % n)) 8 = true)
    (hf : ringClear s fr 1024 = true) (hroom : (rdWord s (base + 8) - rdWord s base).toNat < n) :
    exec (.returnQueuePost p) s =
      .next (returnPosted s p base (base + 0x40 + 8 * ((rdWord s (base + 8)).toNat % n)) fr reason rest) := by
  subst hbase hn
  show execReturnQueuePost p s = _
  simp only [execReturnQueuePost, hpend, hr, hp, hc, hs, hf, ge_iff_le, Nat.not_le.2 hroom, decide_false, Bool.not_true, Bool.or_self,
    Bool.false_eq_true, if_false]
  rfl

theorem exec_returnQueuePost_full (hfull : n ≤ (rdWord s (base + 8) - rdWord s base).toNat) : exec (.returnQueuePost p) s = .next s := by
  subst hbase hn
  show execReturnQueuePost p s = _
  simp only [execReturnQueuePost, hpend, hr, hp, hc, ge_iff_le, hfull, decide_true, Bool.not_true, Bool.or_self, Bool.true_or,
    Bool.false_eq_true, if_false, if_true]

end

/-- Settles O26: a frame's words as they load (`arrival_spec`), a promotion, a migration with REASON 1 (`migrateOut_spec`), and the
ring's writes, of which the tail's is the last (`returnPosted_spec`). -/
theorem threadEventsAndPostings : Obligations.ThreadEventsAndPostings := by
  refine ⟨⟨fun s die cr lane slot x hx hkind htask htarget hdie hp hc ho hcr hi => ?_, fun s k hk hst hw hage => ?_,
    fun s k hk ho hst hw hs hl h15 hops hmig hfp h0E h16 h8 hclear => ?_⟩,
    fun s p fr reason rest hpend h16 hreason hr hp hc hs hf => ⟨fun hroom => ?_, fun hfull => ?_⟩⟩
  · obtain ⟨hq, e, n, hthr⟩ := takeLate_spec (setThr (landed s (slotKey die cr lane slot)) (slotKey die cr lane slot)
      (arrival (landed s (slotKey die cr lane slot)) x)) (slotKey die cr lane slot)
    rw [thr_setThr_same] at hthr
    obtain ⟨hst, hpc, hframe, hregs⟩ := arrival_spec (landed s (slotKey die cr lane slot)) x
    refine ⟨_, exec_frameLoad hx hkind htask htarget hdie hp hc ho hcr hi, hq.transits.trans ?_, fun a => by rw [hq.mem]; rfl,
      fun j hj => (hq.threads j hj).trans (slot_setThr_other _ _ hj), ?_⟩
    · exact landed_transits hx (slotKey die cr lane slot)
    · dsimp only
      rw [hthr]
      generalize arrival (landed s (slotKey die cr lane slot)) x = u at *
      exact ⟨hst, hpc, hframe, hregs⟩
  · have hexec : exec (.threadPromotion k) s = .next (modThr s k fun t => { t with promoted := true }) := by
      show execThreadPromotion k s = _
      simp [execThreadPromotion, hk, hst, hw, hage]
    exact ⟨_, hexec, onlyThreads_setThr .., thr_modThr_same ..⟩
  · obtain ⟨hfree, hw', hret⟩ := migrateOut_spec 1 hops hclear
    obtain ⟨-, hcause, -, hsig⟩ := statusWord_fields (outThread k 1 (thr s k)) .migrating
    rw [← hw'.status] at hcause hsig
    exact ⟨_, exec_signalMigration hk ho hst hw hs hl h15 hops hmig hfp h0E h16 h8, hfree, hw'.state,
      hsig.trans (Bool.and_false _), hcause, hw'.pc, hret⟩
  · obtain ⟨hrest, htail, hslot, hthreads, hteams⟩ := returnPosted_spec s p (base := bits (part s p).retq 63 12 * 4096) fr reason rest
      (slot := bits (part s p).retq 63 12 * 4096 + 0x40 +
        8 * ((rdWord s (bits (part s p).retq 63 12 * 4096 + 8)).toNat % ringSize (part s p).retq 20)) (by omega)
    rw [show fr / 16 * 16 = fr by omega] at hslot
    exact ⟨_, exec_returnQueuePost_posts hpend rfl rfl hr hp hc hs hf hroom, hrest, htail, hslot, hthreads, hteams⟩
  · exact exec_returnQueuePost_full hpend rfl rfl hr hp hc hfull

end Sys2Proof.Machine
end

section
/-! Calls through the mailbox (R148, R149, R444). -/

namespace Sys2Proof.Machine

/-! A thread that calls (R148, R149). -/

/-- What a thread's next record holds: its tid, its pc and a0-a7. -/
def callWords (t : Thread) : List Word := [w64 t.tid, t.pc] ++ (List.range 8).map fun i => getReg t (10 + i)

theorem callWords_length (t : Thread) : (callWords t).length = 10 := by simp [callWords]

theorem dw_callWords_arg (t : Thread) {i : Nat} (h : i < 8) : dw (callWords t) (2 + i) = getReg t (10 + i) := by
  simp [dw, callWords, h, Nat.add_comm 2 i]

theorem wrWord_threads (s : State) (a : Nat) (v : Word) : (wrWord s a v).threads = s.threads := rfl

theorem wrWords_threads (s : State) (a : Nat) (l : List Word) : (wrWords s a l).threads = s.threads := by
  induction l generalizing s a with
  | nil => rfl
  | cons v l ih => exact ih (wrWord s a v) (a + 8)

/-- The record of a call in the mailbox at `a`, and the tail past it. -/
def callWritten (s : State) (a n : Nat) (t : Thread) : State :=
  wrWord (wrWords s (a + 0x80 + 128 * (n % 31)) (callWords t)) (a + 0x48) (w64 (n + 1))

theorem thr_callWritten (s : State) (a n : Nat) (t : Thread) (k : Nat) : thr (callWritten s a n t) k = thr s k :=
  thr_congr (by rw [callWritten, wrWord_threads, wrWords_threads])

theorem rdWord_callWritten (s : State) (a n : Nat) (t : Thread) {i : Nat} (h : i < 10) :
    rdWord (callWritten s a n t) (a + 0x80 + 128 * (n % 31) + 8 * i) = dw (callWords t) i := by
  rw [callWritten, rdWord_wrWord_apart _ _ _ (by omega), rdWord_wrWords _ _ _ (by rw [callWords_length]; exact h)]

section
variable {s : State} {k : Nat} (hh : (thr s k).helper = false) (hbad : mailBad s (thr s k).part (coreOf k) = false)
variable (hheld : mailHeld s k = false)
include hh hbad hheld

theorem ecallSimt_calls {n : Nat} (hroom : mailRoom s k = some n) :
    ecallSimt s k = block (modThr (callWritten s (mailbox s (thr s k).part (coreOf k)) n (thr s k)) k fun t => { t with cause := 0x13 }) k
      (.mailbox (coreOf k) n) := by
  simp only [ecallSimt, hh, hbad, hheld, hroom, Bool.and_false, Bool.false_eq_true, if_false]
  rfl

theorem ecallSimt_migrates (hroom : mailRoom s k = none) (h15 : slotOf k ≠ 15) : ecallSimt s k = migrateOut s k 2 := by
  simp only [ecallSimt, hh, hbad, hheld, hroom, isRsv, h15, decide_false, Bool.and_false, Bool.false_eq_true, if_false]

end

theorem exec_ecall_simt {s : State} {k : Nat} (hkeys : s.cur.keys = [k]) (hk : isSimt k = true) :
    exec .ecall s = .next (ecallSimt s k) :=
  (exec_one (i := .ecall) rfl hkeys).trans (by simp [isHart_of_isSimt hk, isCob_of_isSimt hk])

/-! A call that the resident supervisor answers (R444). -/

/-- A caller whose record's word at 0x50 is 0: it goes on past its `ecall`, with what the record returns in a0 and a1. -/
def answered (s : State) (r : Nat) (t : Thread) : Thread :=
  { setReg (setReg t 10 (rdWord s (r + 0x58))) 11 (rdWord s (r + 0x60)) with
    pc := rdWord s (r + 8) + 4, st := .ready, wait := .none, wus := 0, age := s.cycle }

theorem getReg_answered (s : State) (r : Nat) (t : Thread) (n : Nat) :
    getReg (answered s r t) n = getReg (setReg (setReg t 10 (rdWord s (r + 0x58))) 11 (rdWord s (r + 0x60))) n := by
  unfold answered
  generalize setReg (setReg t 10 (rdWord s (r + 0x58))) 11 (rdWord s (r + 0x60)) = u
  exact getReg_congr rfl rfl n

theorem answered_a0 (s : State) (r : Nat) (t : Thread) : getReg (answered s r t) 10 = rdWord s (r + 0x58) := by
  rw [getReg_answered, getReg_setReg_other _ _ (by decide), getReg_setReg_same _ _ (by decide)]

theorem answered_a1 (s : State) (r : Nat) (t : Thread) : getReg (answered s r t) 11 = rdWord s (r + 0x60) := by
  rw [getReg_answered, getReg_setReg_same _ _ (by decide)]

theorem answered_keepsRegs (s : State) (r : Nat) (t : Thread) : KeepsRegs [10, 11] t (answered s r t) := fun n hn => by
  obtain ⟨h10, h11⟩ : n ≠ 10 ∧ n ≠ 11 := by simpa using hn
  rw [getReg_answered, getReg_setReg_other _ _ h11, getReg_setReg_other _ _ h10]

section
variable {s : State} {k x : Nat} {n : Word} {a r : Nat} (h15 : slotOf k = 15)
variable (ha : a = mailbox s (thr s k).part (coreOf k)) (hr : r = a + 0x80 + 128 * (n.toNat % 31))
variable (hin : inRanges s (thr s k).part a 4096 = true)
variable (hhead : (rdWord s (a + 0x40)).toNat ≤ n.toNat) (htail : n.toNat < (rdWord s (a + 0x48)).toNat)
variable (hx : mailWaiter s (thr s k).part (coreOf k) n.toNat ((rdWord s r).toNat % 2 ^ 32) = some x)
variable (hzero : rdWord s (r + 0x50) = 0)
include h15 ha hr hin hhead htail hx hzero

theorem mailPost_answers : mailPost s k n = (0, modThr s x (answered s r)) := by
  subst ha hr
  simp only [mailPost, h15, hin, hhead, htail, hx, hzero, ne_eq, not_true_eq_false, Bool.not_true, decide_true, Bool.and_self, Bool.or_self,
    Bool.false_eq_true, if_false, if_true]
  rfl

end

theorem exec_mbpost {s u : State} {k : Nat} {w : Wide} (hkeys : s.cur.keys = [k])
    (hrec : recordHeld s k (mailbox s (thr s k).part (coreOf k)) 4096 = none) (hpost : mailPost s k (src (thr s k) w.s1) = (0, u)) :
    exec (.mbpost w) s = .next (modThr u k (endWord w 0)) :=
  (exec_one (i := .mbpost w) rfl hkeys).trans (by simp only [hrec, ite_self, hpost, if_true])

/-- Settles O28: a call's record and tail (`rdWord_callWritten`), a migration with REASON 2 (`migrateOut_spec`), and the answer of a
record in the caller (`mailPost_answers`). -/
theorem mailboxCalls : Obligations.MailboxCalls := by
  refine ⟨fun s k n hkeys hk hh hbad hheld hroom => ?_, fun s k hkeys hk hh hbad hheld hroom h15 hops hclear => ?_,
    fun s k w x hkeys hk h15 => ?_⟩
  · generalize ha : mailbox s (thr s k).part (coreOf k) = a
    have hexec := (exec_ecall_simt hkeys hk).trans (congrArg _ (ecallSimt_calls hh hbad hheld hroom))
    rw [ha] at hexec
    have hthr := thr_callWritten s a n (thr s k) k
    have hrec (i : Nat) (hi : i < 10) := rdWord_callWritten s a n (thr s k) hi
    have htail : rdWord (callWritten s a n (thr s k)) (a + 0x48) = w64 (n + 1) := rdWord_wrWord_same ..
    refine ⟨_, hexec, ?_⟩
    generalize callWritten s a n (thr s k) = v at *
    generalize a + 0x80 + 128 * (n % 31) = r at *
    simp only [block, thr_modThr_same, hthr]
    refine ⟨trivial, trivial, trivial, fun m _ => getReg_congr rfl rfl m, hrec 0 (by decide), hrec 1 (by decide), fun i hi => ?_, htail⟩
    rw [← dw_callWords_arg _ hi, ← hrec (2 + i) (by omega), Nat.mul_add, ← Nat.add_assoc]
    rfl
  · obtain ⟨hfree, hwritten, hret⟩ := migrateOut_spec 2 hops hclear
    exact ⟨_, (exec_ecall_simt hkeys hk).trans (congrArg _ (ecallSimt_migrates hh hbad hheld hroom h15)), hfree, hwritten.pc, hret⟩
  · intro p n a r hrec hin hhead htail hx hxk hzero
    have hpost := mailPost_answers h15 rfl rfl hin hhead htail hx hzero
    refine ⟨_, exec_mbpost hkeys hrec hpost, ?_⟩
    have hthr : thr (modThr (modThr s x (answered s r)) k (endWord w 0)) x = answered s r (thr s x) := by
      rw [thr_modThr_other _ _ hxk, thr_modThr_same]
    rw [hthr, thr_modThr_same, thr_modThr_other _ _ hxk.symm]
    refine ⟨⟨rfl, fun j hj => ?_⟩, endsWith_endWord .., rfl, rfl, answered_a0 .., answered_a1 .., fun _ => answered_keepsRegs s r _ _⟩
    obtain ⟨hjk, hjx⟩ : j ≠ k ∧ j ≠ x := by simpa using hj
    exact (slot_setThr_other _ _ hjk).trans (slot_setThr_other _ _ hjx)

end Sys2Proof.Machine
end

section
/-! Gang instructions that move values (R164-R166, R170). -/

namespace Sys2Proof.Machine

/-- Every member of an issuing gang ends its word with its own value, computed from what all members held before (R164). -/
theorem gangExec_ends {i : Instr} {w : Wide} {f : Gang → Nat → Word} {s : State} (hi : exec i s = gangExec w f s)
    (hn : s.cur.keys.Nodup) :
    ∃ t, exec i s = .next t ∧ OnlyThreads s.cur.keys s t ∧ ∀ k ∈ s.cur.keys,
      EndsWith w (f (gangOf s k) (gangPos (thr s k))) (thr s k) (thr t k) ∧ KeepsRest (thr s k) (thr t k) := by
  obtain ⟨t, hexec, hs, hthr, hout⟩ := gangExec_spec w f hn
  refine ⟨t, hi.trans hexec, ⟨hs, hout⟩, fun k hk => ?_⟩
  rw [hthr k hk]
  exact ⟨endsWith_endWord .., keepsRest_endWord ..⟩

/-- Pick(p, q) (R164), as the operands that the members read. -/
theorem pick_eq (g : Gang) (f : BitVec 7) (p q : Nat) :
    g.pick f p q = if q < g.width ∧ g.live q = true then src (g.thread q) f else src (g.thread p) f := by
  simp [Gang.pick, Gang.val]

theorem exec_gbcast (w : Wide) (s : State) :
    exec (.gbcast w) s = gangExec w (fun g p => g.pick w.s1 p (w.imm11.toNat % 64)) s := rfl

theorem exec_gqx (w : Wide) (s : State) :
    exec (.gqx w) s = gangExec w (fun g p => g.pick w.s1 p (p ^^^ (w.fn.toNat + 1))) s := rfl

/-- The value that `gshfl` moves to position p of a gang (R165). -/
def shflVal (w : Wide) (g : Gang) (p : Nat) : Word :=
  match shflSource w (g.val p w.s2) p with | some q => g.pick w.s1 p q | none => g.val p w.s1

theorem exec_gshfl (w : Wide) (s : State) : exec (.gshfl w) s = gangExec w (shflVal w) s := rfl

/-- `gshfl` picks from the position of its form (R165); a position before 0 lies outside the gang. -/
theorem shflVal_eq (w : Wide) (g : Gang) (p : Nat) :
    let d := w.imm11.toNat % 64
    shflVal w g p = if w.fn = 0 then g.pick w.s1 p (g.val p w.s2).toNat
      else if w.fn = 1 then (if d ≤ p then g.pick w.s1 p (p - d) else g.val p w.s1)
      else if w.fn = 2 then g.pick w.s1 p (p + d) else g.pick w.s1 p (p ^^^ d) := by
  intro d
  have hfn (n : BitVec 6) : w.fn = n ↔ w.fn.toNat = n.toNat := BitVec.toNat_inj.symm
  simp only [hfn, shflVal, shflSource]
  match w.fn.toNat with
  | 0 | 2 | _ + 3 => rfl
  | 1 => by_cases hd : d ≤ p <;> simp [d, hd]

/-- Settles O16: each form is a gang instruction (`gangExec_ends`) whose value is Pick of a position (`pick_eq`, `shflVal_eq`). -/
theorem gangMoves : Obligations.GangMoves := by
  refine fun s hn => ⟨fun w => ?_, fun w => ?_, fun w => ?_⟩
  · have h := gangExec_ends (exec_gbcast w s) hn
    simp only [pick_eq] at h
    exact h
  · have h := gangExec_ends (exec_gqx w s) hn
    simp only [pick_eq] at h
    exact h
  · have h := gangExec_ends (exec_gshfl w s) hn
    simp only [shflVal_eq, pick_eq] at h
    exact h

end Sys2Proof.Machine
end

section
/-! Masks and votes over the contributing positions of a gang (R167, R172). -/

namespace Sys2Proof.Machine

theorem mem_contribs {g : Gang} {q : Nat} : q ∈ g.contribs ↔ q < g.width ∧ g.contrib q = true := by
  simp [Gang.contribs]

theorem testBit_orPositions (l : List Nat) (m q : Nat) :
    (l.foldl (fun m p => m ||| 2 ^ p) m).testBit q = (m.testBit q || decide (q ∈ l)) := by
  induction l generalizing m with
  | nil => simp
  | cons p l ih => simp [ih, Nat.testBit_or, Nat.testBit_two_pow, Bool.or_assoc, eq_comm]

theorem bit_posMask (l : List Nat) {q : Nat} (hq : q < 64) : bit (posMask l) q = decide (q ∈ l) := by
  rw [bit, posMask, w64, BitVec.getLsbD_ofNat, testBit_orPositions]
  simp [hq]

/-- The mask of the contributing positions with a property. -/
theorem bit_posMask_contribs (g : Gang) (P : Nat → Bool) {q : Nat} (hq : q < 64) :
    bit (posMask (g.contribs.filter P)) q = (decide (q < g.width) && g.contrib q && P q) := by
  rw [bit_posMask _ hq, Bool.eq_iff_iff]
  simp [mem_contribs]

theorem mem_uniq [DecidableEq α] {x : α} {l : List α} : x ∈ uniq l ↔ x ∈ l := by
  induction l with
  | nil => simp [uniq]
  | cons y l ih => by_cases hx : x = y <;> simp [uniq, ih, hx]

theorem uniq_length_le_one [DecidableEq α] {l : List α} : (uniq l).length ≤ 1 ↔ ∀ x ∈ l, ∀ y ∈ l, x = y := by
  constructor
  · intro h x hx y hy
    have hx' := mem_uniq.2 hx
    have hy' := mem_uniq.2 hy
    generalize uniq l = u at h hx' hy'
    match u, h, hx', hy' with
    | [_], _, hx', hy' => rw [List.mem_singleton.1 hx', List.mem_singleton.1 hy']
  · intro h
    by_cases hl : l = []
    · simp [hl, uniq]
    · have hconst : uniq l = [l.head hl] := uniq_const (fun x hx => h x hx _ (List.head_mem hl)) hl
      rw [hconst, List.length_singleton]

section
variable {w : Wide} (g : Gang)

theorem voteVal_any (h : w.fn = 0) :
    voteVal w g = if ∃ q, q < g.width ∧ g.contrib q = true ∧ g.val q w.s1 ≠ 0 then 1 else 0 := by
  simp [voteVal, h, mem_contribs]

theorem voteVal_all (h : w.fn = 1) :
    voteVal w g = if ∀ q < g.width, g.contrib q = true → g.val q w.s1 ≠ 0 then 1 else 0 := by
  simp [voteVal, h, mem_contribs]

theorem voteVal_ballot (h : w.fn = 2) {q : Nat} (hq : q < 64) :
    bit (voteVal w g) q = (decide (q < g.width) && g.contrib q && decide (g.val q w.s1 ≠ 0)) := by
  rw [← bit_posMask_contribs g (fun q => decide (g.val q w.s1 ≠ 0)) hq, voteVal, h]
  rfl

theorem voteVal_eq (h : w.fn = 3) :
    voteVal w g = if ∀ q < g.width, ∀ r < g.width, g.contrib q = true → g.contrib r = true → g.val q w.s1 = g.val r w.s1
      then 1 else 0 := by
  have hall : (uniq (g.contribs.map fun q => g.val q w.s1)).length ≤ 1 ↔
      ∀ q < g.width, ∀ r < g.width, g.contrib q = true → g.contrib r = true → g.val q w.s1 = g.val r w.s1 := by
    simp only [uniq_length_le_one, List.forall_mem_map, mem_contribs]
    exact ⟨fun h q hq r hr cq cr => h q ⟨hq, cq⟩ r ⟨hr, cr⟩, fun h q hq r hr => h q hq.1 r hr.1 hq.2 hr.2⟩
  simp only [voteVal, h, ← hall]
  rfl

end

end Sys2Proof.Machine
end

section
/-! The integer reductions and the scans of a gang (R168, R169). -/

namespace Sys2Proof.Machine

theorem toNat_sum (l : List Word) : l.sum.toNat = (l.map BitVec.toNat).sum % 2 ^ 64 := by
  induction l with
  | nil => rfl
  | cons v l ih => simp [BitVec.toNat_add, ih]

/-- A fold that keeps one of two values, and one whose key is no greater, gives such a one of all. -/
theorem foldl_keeps_least {key : Word → Int} {f : Word → Word → Word}
    (hf : ∀ a b, (f a b = a ∨ f a b = b) ∧ key (f a b) ≤ key a ∧ key (f a b) ≤ key b) (l : List Word) (a : Word) :
    (l.foldl f a ∈ l ∨ l.foldl f a = a) ∧ key (l.foldl f a) ≤ key a ∧ ∀ v ∈ l, key (l.foldl f a) ≤ key v := by
  induction l generalizing a with
  | nil => simp
  | cons b l ih =>
    obtain ⟨hmem, hfirst, hrest⟩ := ih (f a b)
    obtain ⟨hab, ha, hb⟩ := hf a b
    refine ⟨?_, hfirst.trans ha, List.forall_mem_cons.2 ⟨hfirst.trans hb, hrest⟩⟩
    rw [List.foldl_cons, List.mem_cons]
    rcases hmem with hl | hl
    · exact .inl (.inr hl)
    · rw [hl]
      exact hab.symm.imp_left .inl

section
variable (l : List Word) (a : Word) (i : Nat)

theorem bit_foldl_and : bit (l.foldl (· &&& ·) a) i = (bit a i && l.all (bit · i)) := by
  induction l generalizing a with
  | nil => simp
  | cons v l ih =>
    have hv : bit (a &&& v) i = (bit a i && bit v i) := BitVec.getLsbD_and
    rw [List.foldl_cons, ih, hv, List.all_cons, Bool.and_assoc]

theorem bit_foldl_or : bit (l.foldl (· ||| ·) a) i = (bit a i || l.any (bit · i)) := by
  induction l generalizing a with
  | nil => simp
  | cons v l ih =>
    have hv : bit (a ||| v) i = (bit a i || bit v i) := BitVec.getLsbD_or
    rw [List.foldl_cons, ih, hv, List.any_cons, Bool.or_assoc]

theorem bit_foldl_xor : bit (l.foldl (· ^^^ ·) a) i = (bit a i ^^ decide ((l.filter (bit · i)).length % 2 = 1)) := by
  induction l generalizing a with
  | nil => simp
  | cons v l ih =>
    have hv : bit (a ^^^ v) i = (bit a i ^^ bit v i) := BitVec.getLsbD_xor
    rw [List.foldl_cons, ih, hv, List.filter_cons]
    cases bit v i
    · simp
    · have hodd (n : Nat) : decide ((n + 1) % 2 = 1) = !decide (n % 2 = 1) := by
        rw [← decide_not]
        exact decide_eq_decide.2 (by omega)
      simp [hodd]

end

/-! The values of `gred` (R168). -/

section
variable {w : Wide} (g : Gang)

theorem redInt_add (h : w.fn.toNat = 0) :
    (redInt w g).toNat = ((g.contribs.map fun q => g.val q w.s1).map BitVec.toNat).sum % 2 ^ 64 := by
  rw [← toNat_sum, List.sum_eq_foldl, redInt, h]
  rfl

theorem redInt_min (h : w.fn.toNat = 1) : let vs := g.contribs.map fun q => g.val q w.s1
    (redInt w g ∈ vs ∨ redInt w g = 0x7FFF_FFFF_FFFF_FFFF) ∧ ∀ v ∈ vs, (redInt w g).toInt ≤ v.toInt := by
  intro vs
  have hmin := foldl_keeps_least (key := BitVec.toInt) (f := fun a b => if b.slt a then b else a)
    (fun a b => by simp only [BitVec.slt_iff_toInt_lt]; split <;> simp <;> omega) vs 0x7FFF_FFFF_FFFF_FFFF
  rw [redInt, h]
  exact ⟨hmin.1, hmin.2.2⟩

theorem redInt_max (h : w.fn.toNat = 2) : let vs := g.contribs.map fun q => g.val q w.s1
    (redInt w g ∈ vs ∨ redInt w g = 0x8000_0000_0000_0000) ∧ ∀ v ∈ vs, v.toInt ≤ (redInt w g).toInt := by
  intro vs
  have hmax := foldl_keeps_least (key := fun v => -v.toInt) (f := fun a b => if a.slt b then b else a)
    (fun a b => by simp only [BitVec.slt_iff_toInt_lt]; split <;> simp <;> omega) vs 0x8000_0000_0000_0000
  rw [redInt, h]
  exact ⟨hmax.1, fun v hv => Int.neg_le_neg_iff.1 (hmax.2.2 v hv)⟩

theorem bit_redInt_and (h : w.fn.toNat = 3) {i : Nat} (hi : i < 64) :
    bit (redInt w g) i = (g.contribs.map fun q => g.val q w.s1).all (bit · i) := by
  have hones : bit (BitVec.allOnes 64) i = true := BitVec.getLsbD_allOnes.trans (decide_eq_true hi)
  rw [redInt, h]
  exact (bit_foldl_and ..).trans (by rw [hones, Bool.true_and])

theorem bit_redInt_or (h : w.fn.toNat = 4) (i : Nat) :
    bit (redInt w g) i = (g.contribs.map fun q => g.val q w.s1).any (bit · i) := by
  rw [redInt, h]
  exact (bit_foldl_or ..).trans (by simp [bit])

theorem bit_redInt_xor (h : w.fn.toNat = 5) (i : Nat) :
    bit (redInt w g) i = decide (((g.contribs.map fun q => g.val q w.s1).filter (bit · i)).length % 2 = 1) := by
  rw [redInt, h]
  exact (bit_foldl_xor ..).trans (by simp [bit])

end

end Sys2Proof.Machine
end

section
/-! The sum tree of `gred.fadd.s` (R168). -/

namespace Sys2Proof.Machine

/-- The f32 sum of two encodings, rounded. -/
def addF32 (a b : Nat) : Nat := (roundArith f32F .rne false 0 (fadd .rne (fval f32F a) (fval f32F b))).bits

/-- The encoding at place q of a level of the tree. -/
def bitsAt (l : List (Nat × Nat)) (q : Nat) : Nat := (l.getD q (0, 0)).1

/-- A level of 2m elements is followed by m, each the sum of two neighbours. -/
theorem treeLevel_spec (m : Nat) (l : List (Nat × Nat)) (hl : l.length = 2 * m) :
    (treeLevel l).length = m ∧ ∀ q < m, bitsAt (treeLevel l) q = addF32 (bitsAt l (2 * q)) (bitsAt l (2 * q + 1)) := by
  induction m generalizing l with
  | zero => simp [List.length_eq_zero_iff.1 hl, treeLevel]
  | succ m ih =>
    match l, hl with
    | (a, fa) :: (b, fb) :: l, hl =>
      obtain ⟨hlen, hsum⟩ := ih l (by simpa [Nat.mul_succ] using hl)
      refine ⟨by simp [treeLevel, hlen], fun q hq => ?_⟩
      cases q with
      | zero => rfl
      | succ q => exact hsum q (by omega)

theorem treeLevels_length {n : Nat} {l : List (Nat × Nat)} (hl : l.length = 2 ^ n) {j : Nat} (hj : j ≤ n) :
    (treeLevel^[j] l).length = 2 ^ (n - j) := by
  induction j with
  | zero => exact hl
  | succ j ih =>
    rw [Function.iterate_succ_apply']
    refine (treeLevel_spec _ _ ?_).1
    rw [ih (by omega), show n - j = n - (j + 1) + 1 by omega, Nat.pow_succ']

theorem treeSum_eq (l : List (Nat × Nat)) (n : Nat) : treeSum l n = (treeLevel^[n] l).headD (0x8000_0000, 0) := by
  induction n generalizing l with
  | zero => rfl
  | succ n ih => exact ih (treeLevel l)

/-- The sum of 2^n values is the one element of level n. -/
theorem treeSum_bits {n : Nat} {l : List (Nat × Nat)} (hl : l.length = 2 ^ n) : (treeSum l n).1 = bitsAt (treeLevel^[n] l) 0 := by
  have hlen := treeLevels_length hl n.le_refl
  rw [Nat.sub_self, Nat.pow_zero, List.length_eq_one_iff] at hlen
  obtain ⟨x, hx⟩ := hlen
  rw [treeSum_eq, hx]
  rfl

/-- What each position gives to the sum: the f32 value of a contributor, else -0. -/
def faddLeaves (w : Wide) (g : Gang) : List (Nat × Nat) :=
  (List.range g.width).map fun q => (if g.contrib q then unbox32 (g.val q w.s1) else 0x8000_0000, 0)

theorem redFadd_eq (w : Wide) (g : Gang) {n : Nat} (hn : g.width = 2 ^ n) :
    (redFadd w g).1 = box32 (treeSum (faddLeaves w g) n).1 := by
  rw [← Nat.log2_two_pow (n := n), ← hn]
  rfl

end Sys2Proof.Machine
end

section
/-! How votes, reductions, scans, matches and `gsync` end (R73, R164, R167-R169, R171, R172). -/

namespace Sys2Proof.Machine

/-- Steps that change each thread by its key end as those changes alone, where none of the flags they raise is enabled. -/
theorem foldl_fpCause_none {g : Nat → Thread → Thread} {fl : Nat → Nat} (hg : ∀ k t, fpTraps (g k t) (fl k) = fpTraps t (fl k))
    {ks : List Nat} (hn : ks.Nodup) (s : State) (hf : ∀ k ∈ ks, isSimt k = true → fpTraps (thr s k) (fl k) = false) :
    ks.foldl (fun s k => fpCause (modThr s k (g k)) k (fl k)) s = ks.foldl (fun s k => modThr s k (g k)) s := by
  induction ks generalizing s with
  | nil => rfl
  | cons k ks ih =>
    obtain ⟨hk, hn⟩ := List.nodup_cons.1 hn
    have hhead : fpCause (modThr s k (g k)) k (fl k) = modThr s k (g k) := fpCause_none fun hs => by
      rw [thr_modThr_same, hg]
      exact hf k List.mem_cons_self hs
    rw [List.foldl_cons, List.foldl_cons, hhead]
    refine ih hn _ fun j hj hs => ?_
    rw [thr_modThr_other _ _ (show j ≠ k from fun h => hk (h ▸ hj))]
    exact hf j (List.mem_cons_of_mem _ hj) hs

/-- What `gred.fadd.s` makes of a member: it takes the sum, and the flags of all additions. -/
def faddMember (w : Wide) (r : Word × Nat) (t : Thread) : Thread := endWord w r.1 (addFlags t r.2)

theorem faddMember_ends (w : Wide) (r : Word × Nat) (t : Thread) :
    EndsWith w r.1 t (faddMember w r t) ∧ RaisesOnly r.2 0 t.lfsr t (faddMember w r t) :=
  ⟨endsWith_raised w r.1 t (addFlags t r.2) rfl rfl rfl rfl,
    (keepsRest_endWord w r.1 (addFlags t r.2)).trans (by simp [faddMember, addFlags, w64])⟩

theorem exec_gred_fadd {w : Wide} (hw : w.fn = 6) {s : State} (hn : s.cur.keys.Nodup)
    (hf : ∀ k ∈ s.cur.keys, isSimt k = true → fpTraps (thr s k) (redFadd w (gangOf s k)).2 = false) :
    exec (.gred w) s = .next (forKeys s fun s' k => modThr s' k (faddMember w (redFadd w (gangOf s k)))) := by
  have hfold := foldl_fpCause_none (g := fun k => faddMember w (redFadd w (gangOf s k))) (fl := fun k => (redFadd w (gangOf s k)).2)
    (fun k t => fpTraps_of_raisesOnly (faddMember_ends w (redFadd w (gangOf s k)) t).2 _) hn s hf
  exact (if_pos hw).trans (congrArg _ hfold)

theorem exec_gred_fadd_ends {w : Wide} (hw : w.fn = 6) {s : State} (hn : s.cur.keys.Nodup)
    (hf : ∀ k ∈ s.cur.keys, isSimt k = true → fpTraps (thr s k) (redFadd w (gangOf s k)).2 = false) :
    ∃ t, exec (.gred w) s = .next t ∧ OnlyThreads s.cur.keys s t ∧ ∀ k ∈ s.cur.keys,
      EndsWith w (redFadd w (gangOf s k)).1 (thr s k) (thr t k) ∧
      RaisesOnly (redFadd w (gangOf s k)).2 0 (thr s k).lfsr (thr s k) (thr t k) := by
  obtain ⟨hs, hthr, hout⟩ := forKeys_threads (fun k => faddMember w (redFadd w (gangOf s k))) hn
  refine ⟨_, exec_gred_fadd hw hn hf, ⟨hs, hout⟩, fun k hk => ?_⟩
  rw [hthr k hk]
  exact faddMember_ends ..

theorem exec_gvote (w : Wide) (s : State) : exec (.gvote w) s = gangExec w (fun g _ => voteVal w g) s := rfl

theorem exec_gred_int {w : Wide} (hw : w.fn ≠ 6) (s : State) : exec (.gred w) s = gangExec w (fun g _ => redInt w g) s := if_neg hw

theorem exec_gscan (w : Wide) (s : State) : exec (.gscan w) s = gangExec w (fun g p =>
    ((g.contribs.filter fun q => q < p || (w.fn = 0 && q = p)).map fun q => g.val q w.s1).sum) s := by
  simp only [List.sum_eq_foldl]
  rfl

theorem exec_gmatch (w : Wide) (s : State) : exec (.gmatch w) s = gangExec w (fun g p =>
    posMask (g.contribs.filter fun q => g.val q w.s1 = g.val p w.s1)) s := rfl

theorem exec_gsync_ends (w : Wide) {s : State} (hn : s.cur.keys.Nodup) :
    ∃ t, exec (.gsync w) s = .next t ∧ OnlyThreads s.cur.keys s t ∧ ∀ k ∈ s.cur.keys,
      EndsZero w (thr s k) (thr t k) ∧ KeepsRest (thr s k) (thr t k) := by
  obtain ⟨hs, hthr, hout⟩ := forKeys_threads (fun _ => endWord0 w) hn
  refine ⟨_, rfl, ⟨hs, hout⟩, fun k hk => ?_⟩
  rw [hthr k hk]
  exact ⟨endsZero_endWord0 .., keepsRest_endWord0 ..⟩

/-- Settles O17: the values of votes (`voteVal_any` and its like), integer reductions (`redInt_add` and its like), the sum tree by its
levels (`treeLevel_spec`), masks (`bit_posMask_contribs`), and the ends of the words. -/
theorem gangReductions : Obligations.GangReductions := by
  refine ⟨fun w g => ?_, fun w g n hn => ?_, fun s hn => ⟨fun w => ?_, fun w hw => gangExec_ends (exec_gred_int hw s) hn,
    fun w hw => exec_gred_fadd_ends hw hn, fun w => gangExec_ends (exec_gscan w s) hn, fun w => ?_, fun w => exec_gsync_ends w hn⟩⟩
  · exact ⟨redInt_add g, redInt_min g, redInt_max g, fun i hi =>
      ⟨fun h => bit_redInt_and g h hi, fun h => bit_redInt_or g h i, fun h => bit_redInt_xor g h i⟩⟩
  · have hlen : (faddLeaves w g).length = 2 ^ n := by simp [faddLeaves, hn]
    refine ⟨fun j => bitsAt (treeLevel^[j] (faddLeaves w g)), fun q hq => ?_, fun j hj q hq => ?_, ?_⟩
    · simp [bitsAt, faddLeaves, hn, hq]
    · have hlevel := treeLevels_length hlen hj.le
      rw [show n - j = n - j - 1 + 1 by omega, Nat.pow_succ'] at hlevel
      dsimp only
      rw [Function.iterate_succ_apply']
      exact (treeLevel_spec _ _ hlevel).2 q hq
    · rw [redFadd_eq w g hn, treeSum_bits hlen]
  · obtain ⟨t, hexec, honly, hends⟩ := gangExec_ends (exec_gvote w s) hn
    refine ⟨t, hexec, honly, fun k hk => ⟨(hends k hk).2, _, (hends k hk).1, ?_⟩⟩
    exact ⟨voteVal_any _, voteVal_all _, fun h _ hq => voteVal_ballot _ h hq, voteVal_eq _⟩
  · obtain ⟨t, hexec, honly, hends⟩ := gangExec_ends (exec_gmatch w s) hn
    exact ⟨t, hexec, honly, fun k hk => ⟨(hends k hk).2, _, (hends k hk).1, fun _ hq => bit_posMask_contribs _ _ hq⟩⟩

end Sys2Proof.Machine
end

section
/-! A core's L1 that gives way to scratch, and teams that come into being on a core (R25, R179-R182). -/

namespace Sys2Proof.Machine

/-! What a core's L1 evicts (R25, R179). -/

theorem choose_cons (s : State) (x : Nat) (l : List Nat) :
    ∃ y n, y ∈ x :: l ∧ choose s (x :: l) = (some y, { s with freeIdx := n }) := by
  cases l with
  | nil => exact ⟨x, s.freeIdx, List.mem_cons_self .., rfl⟩
  | cons y l =>
    have hlt : Config.freeNat s.freeIdx % ((y :: l).length + 1) < (x :: y :: l).length := Nat.mod_lt _ (Nat.succ_pos _)
    exact ⟨_, _, List.getD_eq_getElem _ x hlt ▸ List.getElem_mem hlt, rfl⟩

theorem choose_freeIdx (s : State) (l : List Nat) : ∃ n, (choose s l).2 = { s with freeIdx := n } := by
  cases l with
  | nil => exact ⟨s.freeIdx, rfl⟩
  | cons x l =>
    obtain ⟨_, n, _, h⟩ := choose_cons s x l
    exact ⟨n, by rw [h]⟩

/-- An eviction leaves threads, teams and partitions. -/
theorem evictL1_rest (s : State) (c line : Nat) :
    (evictL1 s c line).threads = s.threads ∧ (evictL1 s c line).teams = s.teams ∧ (evictL1 s c line).parts = s.parts := by
  unfold evictL1
  split
  · next l _ =>
    exact writeBackLine_keeps (P := fun t => t.threads = s.threads ∧ t.teams = s.teams ∧ t.parts = s.parts) l (fun _ _ _ h => h)
      ⟨rfl, rfl, rfl⟩
  · exact ⟨rfl, rfl, rfl⟩

/-- The eviction of a line that the core holds leaves it fewer lines. -/
theorem evictL1_fewer {s : State} {c line : Nat} (h : ∃ l ∈ s.l1, l.core = c ∧ l.line = line) :
    ((evictL1 s c line).l1.filter (·.core = c)).length < (s.l1.filter (·.core = c)).length := by
  obtain ⟨x, hx, hc, hl⟩ := h
  obtain ⟨y, hy⟩ : ∃ y, l1Copy? s c line = some y := Option.isSome_iff_exists.1 (List.find?_isSome.2 ⟨x, hx, by simp [hc, hl]⟩)
  have hl1 : (evictL1 s c line).l1 = s.l1.filter fun l => !(l.core = c && l.line = line) := by
    simp only [evictL1, hy, dropL1, (writeBackLine_rest s y).2.1]
  rw [hl1, List.filter_filter, ← List.filter_filter, List.filter_comm, List.length_filter_lt_length_iff_exists]
  exact ⟨x, List.mem_filter.2 ⟨hx, by simp [hc]⟩, by simp [hc, hl]⟩

/-- What an eviction and a choice keep, an L1 that evicts keeps. -/
theorem trimL1_keeps {P : State → Prop} {c : Nat} (hc : ∀ t n, P t → P { t with freeIdx := n })
    (he : ∀ t line, P t → P (evictL1 t c line)) (n : Nat) {s : State} (hs : P s) : P (trimL1 s c n) := by
  induction n generalizing s with
  | zero => exact hs
  | succ n ih =>
    rw [trimL1]
    split
    · exact hs
    · obtain ⟨i, hi⟩ := choose_freeIdx s ((s.l1.filter (·.core = c)).map (·.line))
      split
      · next line t h =>
        rw [h] at hi
        subst hi
        exact ih (he _ _ (hc _ _ hs))
      · next t h =>
        rw [h] at hi
        subst hi
        exact hc _ _ hs

theorem trimL1_fits (c n : Nat) {s : State} (h : (s.l1.filter (·.core = c)).length ≤ n) :
    ((trimL1 s c n).l1.filter (·.core = c)).length ≤ l1Lines (trimL1 s c n) c := by
  induction n generalizing s with
  | zero => exact le_trans h (Nat.zero_le _)
  | succ n ih =>
    rw [trimL1]
    split
    · next hfit => exact hfit
    · next hfit =>
      obtain ⟨x, xs, hcons⟩ := List.exists_cons_of_ne_nil (l := (s.l1.filter (·.core = c)).map (·.line)) fun hnil =>
        hfit (by rw [List.map_eq_nil_iff.1 hnil]; exact Nat.zero_le _)
      obtain ⟨line, i, hline, hchoose⟩ := choose_cons s x xs
      rw [← hcons] at hline hchoose
      obtain ⟨l, hl, hll⟩ := List.mem_map.1 hline
      obtain ⟨hmem, hcore⟩ := List.mem_filter.1 hl
      simp only [hchoose]
      have hfewer : _ < (s.l1.filter (·.core = c)).length :=
        evictL1_fewer (s := { s with freeIdx := i }) ⟨l, hmem, of_decide_eq_true hcore, hll⟩
      exact ih (by omega)

theorem fitL1_rest (s : State) (c : Nat) :
    (fitL1 s c).threads = s.threads ∧ (fitL1 s c).teams = s.teams ∧ (fitL1 s c).parts = s.parts := by
  refine trimL1_keeps (P := fun t => t.threads = s.threads ∧ t.teams = s.teams ∧ t.parts = s.parts) (fun _ _ h => h)
    (fun t line ⟨hthreads, hteams, hparts⟩ => ?_) _ ⟨rfl, rfl, rfl⟩
  obtain ⟨hthreads', hteams', hparts'⟩ := evictL1_rest t c line
  exact ⟨hthreads'.trans hthreads, hteams'.trans hteams, hparts'.trans hparts⟩

theorem fitL1_fits (s : State) (c : Nat) : ((fitL1 s c).l1.filter (·.core = c)).length ≤ l1Lines (fitL1 s c) c :=
  trimL1_fits c _ (List.length_filter_le ..)

theorem fitL1_uncopied {s : State} (c : Nat) (h : s.l1 = []) : fitL1 s c = s := by
  rw [fitL1, h]
  rfl

/-! A team on its core (R179, R181, R182). -/

/-- The reservation of slots makes choices alone. -/
theorem reserveSlots_freeIdx (s : State) (c : Nat) (d : Desc) : ∃ n, (reserveSlots s c d).2 = { s with freeIdx := n } := by
  refine List.foldlRecOn (motive := fun x : SMap Nat × List Nat × State => ∃ n, x.2.2 = { s with freeIdx := n }) _ _
    ⟨s.freeIdx, rfl⟩ fun x hx i _ => ?_
  obtain ⟨slots, idle, t⟩ := x
  obtain ⟨n, rfl⟩ := hx
  obtain ⟨m, hm⟩ := choose_freeIdx { s with freeIdx := n } (laneFree idle (i % 64))
  refine ⟨m, ?_⟩
  dsimp only
  split <;> exact hm

/-- A team has come into being in a context with a number, on core `c`: it stands there without members and with empty storage, and
beside it memory alone may differ, by the lines that the core's L1 evicts. -/
structure Admits (p asid num c : Nat) (d : Desc) (s t : State) (m : Team) : Prop where
  teams : t.teams = s.teams ++ [m]
  threads : t.threads = s.threads
  admissions : ∀ q, (part t q).admissions = (part s q).admissions
  mem : s.l1 = [] → KeepsMemory s t
  fits : (t.l1.filter (·.core = c)).length ≤ l1Lines t c
  ids : m.part = p ∧ m.asid = asid ∧ m.num = num
  place : m.st = .resident ∧ 64 * m.die + m.core = c ∧ m.desc = d
  empty : m.count = 0 ∧ m.members = [] ∧ m.scratch = [] ∧ m.tiles = [] ∧ m.accs = [] ∧ m.syncs = [] ∧ m.phase = 0

/-- What a change of a partition keeps of each, it keeps of every partition. -/
theorem field_modPart {β : Type} (g : Partition → β) (s : State) (p q : Nat) {f : Partition → Partition}
    (hf : ∀ x, g (f x) = g x) : g (part (modPart s p f) q) = g (part s q) := by
  by_cases h : q = p
  · rw [h, part_modPart_same, hf]
  · rw [part_modPart_other s f h]

/-- A context's counter of serials moves on (R181). -/
def nextSerial (asid : Nat) (q : Partition) : Partition :=
  { q with serials := mset 0 q.serials asid ((mget 0 q.serials asid + 1) % 2 ^ 32) }

theorem admitTeam_admits (s : State) (p asid num c : Nat) (d : Desc) : ∃ m, Admits p asid num c d s (admitTeam s p asid num c d) m := by
  obtain ⟨i, hi⟩ := reserveSlots_freeIdx s c d
  let m : Team :=
    { off := Config.freeNat i, part := p, asid := asid, num := num, st := .resident, serial := mget 0 (part s p).serials asid
      die := c / 64, core := c % 64, desc := d, slots := (reserveSlots s c d).1
      seeds := (List.range 60).map fun g => 0x9E37_79B9_7F4A_7C15#64 ^^^ w64 g }
  let u : State := { modPart s p (nextSerial asid) with freeIdx := i + 1, teams := s.teams ++ [m] }
  have hu : admitTeam s p asid num c d = fitL1 u c := by
    simp only [admitTeam, hi]
    rfl
  obtain ⟨hthreads, hteams, hparts⟩ := fitL1_rest u c
  rw [hu]
  exact ⟨m,
    { teams := hteams
      threads := hthreads
      admissions := fun q => by
        rw [part_congr hparts]
        exact field_modPart (·.admissions) s p q (f := nextSerial asid) fun _ => rfl
      mem := fun h => by rw [fitL1_uncopied c (show u.l1 = [] from h)]; exact fun _ => rfl
      fits := fitL1_fits ..
      ids := ⟨rfl, rfl, rfl⟩
      place := ⟨rfl, Nat.div_add_mod c 64, rfl⟩
      empty := ⟨rfl, rfl, rfl, rfl, rfl, rfl, rfl⟩ }⟩

end Sys2Proof.Machine
end

section
/-! `teamnew` and the admission queue (R176-R182, R187). -/

namespace Sys2Proof.Machine

/-! What a request answers (R177, R187). -/

section
variable {s : State} {p asid : Nat} {l : List Word}

theorem tryAdmit_badDesc (first : Bool) (h : descBad s p l = true) : tryAdmit s p asid l first = (some (newFail 3), s) := if_pos h

theorem tryAdmit_placed {c n : Nat} (hd : descBad s p l = false) (hh : hintBad s p (descOf l) = false) (hn : noNumber s p asid = false)
    (hc : hintPlace s p (descOf l) (fun _ => 0) = some c) (hf : freeNumber s p asid = some n) :
    tryAdmit s p asid l true = (some (w64 n), admitTeam s p asid n c (descOf l)) := by
  simp only [tryAdmit, hd, hh, hn, Bool.false_eq_true, if_false, if_true, hc, hf]

theorem tryAdmit_waits {first : Bool} (hd : descBad s p l = false) (hh : hintBad s p (descOf l) = false) (hn : noNumber s p asid = false)
    (hw : (descOf l).nowait = false) (h : first = false ∨ hintPlace s p (descOf l) (fun _ => 0) = none) :
    tryAdmit s p asid l first = (none, s) := by
  have hplace : (if first then hintPlace s p (descOf l) (fun _ => 0) else none) = none := by
    rcases h with h | h
    · rw [h]; rfl
    · rw [h, ite_self]
  simp only [tryAdmit, hd, hh, hn, Bool.false_eq_true, if_false, hplace, hw]

end

/-! `teamnew` of one thread or hart. -/

/-- A partition whose admission queue has a further request. -/
def enqueue (r : AdmitReq) (q : Partition) : Partition := { q with admissions := q.admissions ++ [r] }

section
variable {s s1 s2 : State} {k : Nat} {w : Wide} {l : List Word} (hk : s.cur.keys = [k]) (hh : (thr s k).helper = false)
  (hl : descLoad s k (src (thr s k) w.s1) = (.ok l, s1))
include hk hh hl

theorem exec_teamnew_answers {v : Word}
    (ha : tryAdmit s1 (partOf s1 k) (asidK s1 k) l ((part s1 (partOf s1 k)).admissions = []) = (some v, s2)) :
    exec (.teamnew w) s = .next (modThr s2 k (endWord w v)) := by
  have hone : teamnewOne w s k = modThr s2 k (endWord w v) := by
    simp only [teamnewOne, hh, Bool.false_eq_true, if_false, hl, ha]
  rw [exec_one (f := teamnewOne w) rfl hk, hone]

theorem exec_teamnew_waits
    (ha : tryAdmit s1 (partOf s1 k) (asidK s1 k) l ((part s1 (partOf s1 k)).admissions = []) = (none, s2)) :
    exec (.teamnew w) s = .next (blockOn (modPart s2 (partOf s1 k) (enqueue { key := k, desc := l })) k w .admission) := by
  have hone : teamnewOne w s k = blockOn (modPart s2 (partOf s1 k) (enqueue { key := k, desc := l })) k w .admission := by
    simp only [teamnewOne, hh, Bool.false_eq_true, if_false, hl, ha]
    rfl
  rw [exec_one (f := teamnewOne w) rfl hk, hone]

end

/-- What a thread that starts to wait keeps: its pc and its registers. -/
theorem blockOn_thread (s : State) (k : Nat) (w : Wide) (wt : Wait) :
    (thr (blockOn s k w wt) k).wait = wt ∧ (thr (blockOn s k w wt) k).pc = (thr s k).pc ∧
      KeepsRegs [] (thr s k) (thr (blockOn s k w wt) k) := by
  rw [blockOn, thr_modThr_same]
  exact ⟨rfl, rfl, fun n _ => getReg_congr rfl rfl n⟩

/-- Settles O30: a request is refused, placed or queued as `tryAdmit` answers it. -/
theorem teamCreation : Obligations.TeamCreation := by
  intro s k w l s1 hk _ hh hl p asid d
  refine ⟨fun hbad => ?_, fun hd hint hnum hq c n hc hn => ?_, fun hd hint hnum hwait hblocked => ?_⟩
  · refine ⟨_, exec_teamnew_answers hk hh hl (tryAdmit_badDesc _ hbad), onlyThreads_setThr .., ?_⟩
    rw [thr_modThr_same]
    exact endsWith_endWord ..
  · obtain ⟨m, hm⟩ := admitTeam_admits s1 p asid n c d
    obtain ⟨hpart, hasid, hnumber⟩ := hm.ids
    obtain ⟨hst, hcore, hdesc⟩ := hm.place
    have hanswer := tryAdmit_placed hd hint hnum hc hn
    rw [← decide_eq_true hq] at hanswer
    refine ⟨_, m, exec_teamnew_answers hk hh hl hanswer, ?_, hm.mem, hm.fits, hm.teams, hpart, hasid, hnumber, hst, hcore, hdesc,
      hm.empty⟩
    rw [thr_modThr_same, thr_congr (congrArg (mget? · k) hm.threads)]
    exact endsWith_endWord ..
  · have hqueued : decide ((part s1 p).admissions = []) = false ∨ hintPlace s1 p d (fun _ => 0) = none :=
      hblocked.imp_left decide_eq_false
    obtain ⟨hw, hpc, hregs⟩ := blockOn_thread (modPart s1 p (enqueue { key := k, desc := l })) k w .admission
    exact ⟨_, exec_teamnew_waits hk hh hl (tryAdmit_waits hd hint hnum hwait hqueued), rfl, fun _ => rfl, hw, hpc, hregs,
      by rw [blockOn, part_modThr, part_modPart_same, enqueue]⟩

end Sys2Proof.Machine
end

section
/-! ADMISSION, and what the release of a team leaves (R182, R187, R188). -/

namespace Sys2Proof.Machine

/-! A wait in the admission queue that ends (R187). -/

/-- What registers, latches, chain and pc tell of a thread's end, a thread that shares them has ended too. -/
theorem endsWith_of_same {w : Wide} {v : Word} {a b b' : Thread} (h : EndsWith w v a b) (hx : b'.x = b.x) (hf : b'.f = b.f)
    (hc : b'.chain = b.chain) (hp : b'.pc = b.pc) : EndsWith w v a b' := by
  obtain ⟨hd, hregs, hlatch, hlatches, hlive, hpc⟩ := h
  have hreg : ∀ n, getReg b' n = getReg b n := getReg_congr hx hf
  have hl : ∀ n, getLatch b' n = getLatch b n := fun n => by unfold getLatch; rw [hc]
  exact ⟨fun h0 h1 => (hreg _).trans (hd h0 h1), fun n hn => (hreg n).trans (hregs n hn), (hl _).trans hlatch,
    fun n h4 hne => (hl n).trans (hlatches n h4 hne), by rw [hc, hlive], by rw [hp, hpc]⟩

theorem finishWait_admission {s : State} {k : Nat} (v : Word) (hw : (thr s k).wait = .admission) :
    let t := finishWait s k v
    EndsWith (thr s k).ww v (thr s k) (thr t k) ∧ ((thr s k).st = .blocked → (thr t k).st = .ready) ∧ (thr t k).wait = .none := by
  intro t
  simp only [t, finishWait, thr_modThr_same, hw, Bool.false_eq_true, if_false]
  exact ⟨endsWith_of_same (endsWith_endWord ..) rfl rfl rfl rfl, fun hb => if_pos hb, trivial⟩

theorem exec_admission_answers {s s2 : State} {p : Nat} {r : AdmitReq} {rs : List AdmitReq} {v : Word}
    (hq : (part s p).admissions = r :: rs) (hst : (thr s r.key).st ≠ .halted)
    (ha : tryAdmit s p (asidK s r.key) r.desc true = (some v, s2)) :
    exec (.admission p) s = .next (finishWait (modPart s2 p fun q => { q with admissions := rs }) r.key v) := by
  change execAdmission p s = _
  simp only [execAdmission, hq, hst, if_false, ha]

/-! The threads of a team leave their slots. -/

/-- The threads of a package once a team's members, where it stands on a core, have left it. -/
def leftThreads (m : Team) (l : SMap Thread) : SMap Thread := if placed m then (residents m).foldl mdel l else l

theorem foldl_dropThr (ks : List Nat) (s : State) : ks.foldl dropThr s = { s with threads := ks.foldl mdel s.threads } := by
  induction ks generalizing s with
  | nil => rfl
  | cons k ks ih => rw [List.foldl_cons, ih]; rfl

theorem dropMembers_eq (s : State) (m : Team) :
    ∃ ps, dropMembers s m = { s with threads := leftThreads m s.threads, parts := ps } := by
  unfold dropMembers leftThreads
  split
  · simp only [foldl_dropThr]
    exact ⟨_, rfl⟩
  · exact ⟨s.parts, rfl⟩

theorem mget?_foldl_mdel (ks : List Nat) (l : SMap α) (j : Nat) : mget? (ks.foldl mdel l) j = if j ∈ ks then none else mget? l j := by
  induction ks generalizing l with
  | nil => rfl
  | cons k ks ih =>
    rw [List.foldl_cons, ih, mget?_mdel]
    by_cases hk : j = k <;> simp [hk]

theorem mget?_leftThreads_member {m : Team} (l : SMap Thread) {j : Nat} (hp : placed m = true) (hj : j ∈ residents m) :
    mget? (leftThreads m l) j = none := by
  rw [leftThreads, if_pos hp, mget?_foldl_mdel, if_pos hj]

theorem mget?_leftThreads_other {m : Team} (l : SMap Thread) {j : Nat} (hj : j ∉ residents m) :
    mget? (leftThreads m l) j = mget? l j := by
  unfold leftThreads
  split
  · rw [mget?_foldl_mdel, if_neg hj]
  · rfl

/-! The team's operations, and a debug command on it. -/

theorem dropPasses_none {s : State} {m : Team} (h : teamPasses s m = []) : ∃ es, dropPasses s m = { s with engines := es } := by
  unfold teamPasses at h
  simp only [dropPasses, dropWork, h, List.foldl_nil]
  exact ⟨_, rfl⟩

theorem loseCopies_none {s : State} (m : Team) (h : s.copies = []) : loseCopies s m = s := by rw [loseCopies, h]; rfl

theorem dbgResume_idle {s : State} {p : Nat} (asid num : Nat) (h : (part s p).dbgcmd = 0) : dbgResume s p asid num = s := by
  simp [dbgResume, h]

/-- A command that waited for a team which is gone is refused (R461). -/
theorem dbgResume_gone {s : State} {p asid num : Nat} (h : team? s p asid num = none) :
    ∃ ps, dbgResume s p asid num = { s with parts := ps } := by
  dsimp only [dbgResume]
  split
  · next hc =>
    simp only [Bool.and_eq_true, decide_eq_true_eq] at hc
    obtain ⟨⟨_, hasid⟩, hnum⟩ := hc
    simp only [dbgAct, hasid, hnum, h]
    exact ⟨_, rfl⟩
  · exact ⟨s.parts, rfl⟩

/-! The team's entry. -/

/-- The number of a team in a context of a partition names it. -/
def named (p asid num : Nat) (m : Team) : Bool := m.part = p && m.asid = asid && m.num = num

theorem team?_eq (s : State) (p asid num : Nat) : team? s p asid num = s.teams.find? (named p asid num) := rfl

theorem team?_congr {s t : State} (h : t.teams = s.teams) (p asid num : Nat) : team? t p asid num = team? s p asid num := by
  rw [team?, team?, h]

theorem team_of_team? {s : State} {p asid num : Nat} {m : Team} (h : team? s p asid num = some m) : team s p asid num = m := by
  rw [team, h]
  rfl

theorem team?_filter_same (s : State) (p asid num : Nat) :
    team? { s with teams := s.teams.filter fun x => !named p asid num x } p asid num = none := by
  rw [team?_eq, List.find?_filter, List.find?_eq_none]
  simp

theorem team?_filter_other (s : State) {p asid num q a n : Nat} (h : (q, a, n) ≠ (p, asid, num)) :
    team? { s with teams := s.teams.filter fun x => !named p asid num x } q a n = team? s q a n := by
  rw [team?_eq, team?_eq, List.find?_filter]
  congr 1
  funext x
  by_cases hx : named q a n x = true
  · have hx' : named p asid num x = false := Bool.eq_false_iff.2 fun hp => h (by simp_all [named])
    simp [hx, hx']
  · simp [hx]

/-- The package without a team's entry and threads. -/
def withoutTeam (s : State) (m : Team) (ps : SMap Partition) (es : SMap Engine) : State :=
  { s with
    threads := leftThreads m s.threads, parts := ps, engines := es, teams := s.teams.filter fun x => !named m.part m.asid m.num x }

/-- The release of a team with nothing of it outstanding: its entry and its threads are gone, and what waited for room may go on. -/
theorem releaseTeam_eq {s : State} {m : Team} (hm : team? s m.part m.asid m.num = some m) (ho : m.ops = 0) (hc : s.copies = [])
    (hp : teamPasses s m = []) :
    ∃ ps es, releaseTeam s m = wakeRoom (withoutTeam s m ps es) := by
  obtain ⟨ps1, hrefuse⟩ : ∃ ps, (if m.stopping = some 0 then dbgRefuse s m.part else s) = { s with parts := ps } := by
    split
    · exact ⟨_, rfl⟩
    · exact ⟨s.parts, rfl⟩
  obtain ⟨ps2, hdrop⟩ := dropMembers_eq { s with parts := ps1 } m
  obtain ⟨es, hpasses⟩ := dropPasses_none (s := { s with threads := leftThreads m s.threads, parts := ps2 }) (m := m) hp
  have hcopies := loseCopies_none (s := { s with threads := leftThreads m s.threads, parts := ps2, engines := es }) m hc
  have hteam := team_of_team? ((team?_congr (s := s) (t := { s with threads := leftThreads m s.threads, parts := ps2, engines := es }) rfl
    m.part m.asid m.num).trans hm)
  let u := withoutTeam s m ps2 es
  obtain ⟨ps3, hgone⟩ := dbgResume_gone (s := u) (team?_filter_same s m.part m.asid m.num)
  have hresume : ∃ ps, (if (part u m.part).dbgcmd ≠ 0 then dbgResume u m.part m.asid m.num else u) = { u with parts := ps } := by
    split
    · exact ⟨ps3, hgone⟩
    · exact ⟨ps2, rfl⟩
  obtain ⟨ps, hend⟩ := hresume
  refine ⟨ps, es, ?_⟩
  simp only [releaseTeam, hrefuse, hdrop, hpasses, hcopies, hteam, ho, if_true]
  exact congrArg wakeRoom hend

/-- A thread that finds room keeps registers, latches, chain and pc. -/
theorem wokenThread_keeps (s : State) (k : Nat) (t : Thread) :
    (wokenThread s k t).x = t.x ∧ (wokenThread s k t).f = t.f ∧ (wokenThread s k t).chain = t.chain ∧
      (wokenThread s k t).pc = t.pc := by
  unfold wokenThread
  split
  · split <;> exact ⟨rfl, rfl, rfl, rfl⟩
  · exact ⟨rfl, rfl, rfl, rfl⟩

theorem occupied_wakeRoom (s : State) (j : Nat) : occupied (wakeRoom s) j = occupied s j := by
  rw [occupied, mget?_wakeRoom, Option.isSome_map, occupied]

theorem team?_wakeRoom (s : State) (p asid num : Nat) : team? (wakeRoom s) p asid num = team? s p asid num := rfl

theorem thr_wakeRoom (s : State) (j : Nat) : ∃ t, thr (wakeRoom s) j = t ∧ t.x = (thr s j).x ∧ t.f = (thr s j).f ∧
    t.chain = (thr s j).chain ∧ t.pc = (thr s j).pc := by
  refine ⟨_, rfl, ?_⟩
  rw [thr, thr, mget?_wakeRoom]
  cases mget? s.threads j with
  | none => exact ⟨rfl, rfl, rfl, rfl⟩
  | some t => exact wokenThread_keeps s j t

end Sys2Proof.Machine
end

section
/-! `teamfree` and `teaminfo` (R188, R189), with ADMISSION (R187). -/

namespace Sys2Proof.Machine

/-! `teamfree` of one thread or hart. -/

/-- A handle that names a team gives it as the context lists it, and it is not HELD. -/
theorem handleTeam_some {s : State} {p asid : Nat} {h : Word} {m : Team} (hm : handleTeam s p asid h = some m) :
    team? s p asid (bits h 31 0) = some m := by
  unfold handleTeam at hm
  by_cases h0 : bits h 31 0 = 0
  · simp [h0] at hm
  · rw [if_neg h0] at hm
    split at hm
    · next t ht =>
      split at hm
      · cases hm
      · rw [ht, hm]
    · cases hm

section
variable {s : State} {k : Nat} {w : Wide} (hk : s.cur.keys = [k]) (hh : (thr s k).helper = false)
  (hb : handleBad (src (thr s k) w.s1) = false)
include hk hh hb

theorem exec_teamfree_noTeam (hm : handleTeam s (partOf s k) (asidK s k) (src (thr s k) w.s1) = none) :
    exec (.teamfree w) s = .next (modThr s k (endWord w (w64 2))) := by
  have hone : teamfreeOne w s k = modThr s k (endWord w (w64 2)) := by
    simp only [teamfreeOne, hh, hb, Bool.false_eq_true, if_false, hm]
  rw [exec_one (f := teamfreeOne w) rfl hk, hone]

variable {m : Team} (hm : handleTeam s (partOf s k) (asidK s k) (src (thr s k) w.s1) = some m)
include hm

theorem exec_teamfree_live (hst : m.st = .resident) (hl : liveReal m ≠ []) :
    exec (.teamfree w) s = .next (modThr s k (endWord w (w64 6))) := by
  have hone : teamfreeOne w s k = modThr s k (endWord w (w64 6)) := by
    simp only [teamfreeOne, hh, hb, Bool.false_eq_true, if_false, hm, hst, if_pos hl]
  rw [exec_one (f := teamfreeOne w) rfl hk, hone]

theorem exec_teamfree_releases (hc : s.copies = []) (hst : (m.st = .resident ∧ liveReal m = []) ∨ m.st = .saved ∨ m.st = .lost) :
    exec (.teamfree w) s = .next (modThr (releaseTeam s m) k (endWord w (w64 0))) := by
  have hone : teamfreeOne w s k = modThr (releaseTeam s m) k (endWord w (w64 0)) := by
    rcases hst with ⟨hst, hl⟩ | hst | hst
    · simp only [teamfreeOne, hh, hb, Bool.false_eq_true, if_false, hm, hst, hl, ne_eq, not_true_eq_false, hc, List.any_nil]
    · simp only [teamfreeOne, hh, hb, Bool.false_eq_true, if_false, hm, hst]
    · simp only [teamfreeOne, hh, hb, Bool.false_eq_true, if_false, hm, hst]
  rw [exec_one (f := teamfreeOne w) rfl hk, hone]

end

/-- What the end of `teamfree` finds of a released team, with the issuer's registers as they were. -/
theorem released_spec {s : State} {m : Team} {k : Nat} (f : Thread → Thread) (hm : team? s m.part m.asid m.num = some m)
    (ho : m.ops = 0) (hk : k ∉ residents m) (hc : s.copies = []) (hp : teamPasses s m = []) :
    let t := modThr (releaseTeam s m) k f
    (∃ u, thr t k = f u ∧ u.x = (thr s k).x ∧ u.f = (thr s k).f ∧ u.chain = (thr s k).chain ∧ u.pc = (thr s k).pc) ∧
    team? t m.part m.asid m.num = none ∧ (m.st = .resident → ∀ j ∈ residents m, occupied t j = false) ∧ KeepsMemory s t ∧
    ∀ q a n, (q, a, n) ≠ (m.part, m.asid, m.num) → team? t q a n = team? s q a n := by
  intro t
  obtain ⟨ps, es, heq⟩ := releaseTeam_eq hm ho hc hp
  simp only [t, heq]
  refine ⟨⟨_, thr_modThr_same .., ?_⟩, ?_, fun hst j hj => ?_, ?_, fun q a n hne => ?_⟩
  · obtain ⟨u, hu, hx, hf, hchain, hpc⟩ := thr_wakeRoom (withoutTeam s m ps es) k
    have hthr : thr (withoutTeam s m ps es) k = thr s k := thr_congr (mget?_leftThreads_other s.threads hk)
    rw [hthr] at hx hf hchain hpc
    rw [hu]
    exact ⟨hx, hf, hchain, hpc⟩
  · rw [teamOpt_modThr, team?_wakeRoom]
    exact team?_filter_same s m.part m.asid m.num
  · have hjk : j ≠ k := fun e => hk (e ▸ hj)
    rw [occupied_false, slot_modThr_other _ _ hjk, ← occupied_false, occupied_wakeRoom, occupied_false]
    exact mget?_leftThreads_member s.threads (by simp [placed, hst]) hj
  · exact fun _ => rfl
  · rw [teamOpt_modThr, team?_wakeRoom]
    exact team?_filter_other s hne

/-! `teaminfo` (R189). -/

theorem exec_teaminfo {s : State} {k : Nat} (w : Wide) (hk : s.cur.keys = [k]) (hh : (thr s k).helper = false) :
    ∃ v, exec (.teaminfo w) s = .next (modThr s k (endWord w v)) ∧
      (handleBad (src (thr s k) w.s1) = true → v = newFail 5) ∧
      (handleBad (src (thr s k) w.s1) = false → handleTeam s (partOf s k) (asidK s k) (src (thr s k) w.s1) = none → v = newFail 2) ∧
      (handleBad (src (thr s k) w.s1) = false → ∀ m, handleTeam s (partOf s k) (asidK s k) (src (thr s k) w.s1) = some m →
        (w.fn = 0 → v = teamStatus m) ∧ (w.fn = 1 → v = teamPlace m) ∧ (w.fn = 2 → v = w64 (liveReal m).length) ∧
          (w.fn = 3 → v = w64 m.phase)) := by
  refine ⟨_, (congrArg Host.Outcome.next (forKeys_one hk _) : execTeaminfo w s = _), fun hb => ?_, fun hb hm => ?_,
    fun hb m hm => ⟨fun hf => ?_, fun hf => ?_, fun hf => ?_, fun hf => ?_⟩⟩
  · simp only [hh, hb, Bool.false_eq_true, if_false, if_true]
  · simp only [hh, hb, hm, Bool.false_eq_true, if_false]
  all_goals
    simp only [hh, hb, hm, hf, Bool.false_eq_true, if_false]
    rfl

/-- The state's code in STATUS (R189). -/
theorem teamStatus_eq (m : Team) : ∃ code < 6, teamStatus m = w64 (m.serial * 2 ^ 32 + m.desc.cls * 2 ^ 30 +
      (if m.desc.gw = 64 then 2 else m.desc.gw / 32) * 2 ^ 28 + m.desc.limit * 2 ^ 18 + m.count * 256 + b2n m.halt * 16 + code) ∧
    (m.st = .resident → code = 1) ∧ (m.st = .saving → code = 2) ∧ (m.st = .saved → code = 3) ∧
      (m.st = .loading → code = 4) ∧ (m.st = .lost → code = 5) := by
  unfold teamStatus
  cases m.st <;> exact ⟨_, by decide, rfl, by simp⟩

theorem teamStatus_fields {m : Team} (hs : m.serial < 2 ^ 32) (hl : m.desc.limit ≤ 960) (hcount : m.count ≤ 960)
    (hcls : m.desc.cls < 4) (hgw : m.desc.gw ∈ [16, 32, 64]) :
    bits (teamStatus m) 63 32 = m.serial ∧ bits (teamStatus m) 27 18 = m.desc.limit ∧ bits (teamStatus m) 17 8 = m.count ∧
    bit (teamStatus m) 4 = m.halt ∧
    (m.st = .resident → bits (teamStatus m) 3 0 = 1) ∧ (m.st = .saving → bits (teamStatus m) 3 0 = 2) ∧
    (m.st = .saved → bits (teamStatus m) 3 0 = 3) ∧ (m.st = .loading → bits (teamStatus m) 3 0 = 4) ∧
    (m.st = .lost → bits (teamStatus m) 3 0 = 5) := by
  obtain ⟨code, hcode, heq, hresident, hsaving, hsaved, hloading, hlost⟩ := teamStatus_eq m
  have hg : (if m.desc.gw = 64 then 2 else m.desc.gw / 32) < 4 := by
    simp only [List.mem_cons, List.not_mem_nil, or_false] at hgw
    rcases hgw with h | h | h <;> rw [h] <;> decide
  have hb := b2n_le m.halt
  have hhalt : m.halt = decide (b2n m.halt = 1) := by cases m.halt <;> rfl
  rw [heq]
  simp only [bits, bit, w64, BitVec.getLsbD_ofNat, BitVec.toNat_ofNat, Nat.testBit_eq_decide_div_mod_eq]
  generalize (if m.desc.gw = 64 then 2 else m.desc.gw / 32) = g at *
  generalize b2n m.halt = x at *
  refine ⟨by omega, by omega, by omega, ?_, fun h => ?_, fun h => ?_, fun h => ?_, fun h => ?_, fun h => ?_⟩
  · rw [hhalt, decide_eq_true (by decide : 4 < 64), Bool.true_and, decide_eq_decide]
    omega
  · have := hresident h; omega
  · have := hsaving h; omega
  · have := hsaved h; omega
  · have := hloading h; omega
  · have := hlost h; omega

/-- Settles O31: ADMISSION answers its request with the team that is placed, the release of a team leaves no entry and no thread of it,
and STATUS is read field by field. -/
theorem teamAdmissionReleaseAndInfo : Obligations.TeamAdmissionReleaseAndInfo := by
  refine ⟨⟨?_, ?_⟩, ?_⟩
  · intro s p r c n hq hst hw d asid hd hint hnum hc hn
    obtain ⟨m, hm⟩ := admitTeam_admits s p asid n c d
    have hexec := exec_admission_answers hq hst (tryAdmit_placed hd hint hnum hc hn)
    generalize admitTeam s p asid n c d = u at hm hexec
    have hthr : thr (modPart u p fun q => { q with admissions := [] }) r.key = thr s r.key :=
      thr_congr (congrArg (mget? · r.key) hm.threads)
    obtain ⟨hends, hready, hnone⟩ := finishWait_admission (w64 n) (hthr ▸ hw)
    rw [hthr] at hends hready
    obtain ⟨_, hasid, hnumber⟩ := hm.ids
    obtain ⟨hresident, _, hdesc⟩ := hm.place
    exact ⟨_, m, hexec, by rw [finishWait, part_modThr, part_modPart_same], hm.teams, hnumber, hasid, hresident, hdesc, hends, hready,
      hnone⟩
  · intro s k w hk _ hh h p hb
    refine ⟨fun hm => ?_, fun m hm hst hl => ?_, fun m hm hpart hasid hnum ho hres hc hp hst => ?_⟩
    · exact ⟨_, exec_teamfree_noTeam hk hh hb hm, onlyThreads_setThr .., by rw [thr_modThr_same]; exact endsWith_endWord ..⟩
    · exact ⟨_, exec_teamfree_live hk hh hb hm hst hl, onlyThreads_setThr .., by rw [thr_modThr_same]; exact endsWith_endWord ..⟩
    · have hteam : team? s m.part m.asid m.num = some m := by rw [hpart, hasid, hnum]; exact handleTeam_some hm
      obtain ⟨⟨u, hu, hx, hf, hchain, hpc⟩, hgone, hslots, hmem, hothers⟩ :=
        released_spec (endWord w (w64 0)) hteam ho hres hc hp
      rw [hpart, hasid] at hgone hothers
      refine ⟨_, exec_teamfree_releases hk hh hb hm hc hst, ?_, hgone, hslots, hmem, hothers⟩
      rw [hu]
      exact endsWith_raised w _ _ _ hx hf hchain hpc
  · intro s k w hk _ hh h
    obtain ⟨v, hexec, hbad, hnone, hteam⟩ := exec_teaminfo w hk hh
    refine ⟨_, v, hexec, onlyThreads_setThr .., ?_, ?_, hbad, hnone, fun hb m hm => ?_⟩
    · rw [thr_modThr_same]; exact endsWith_endWord ..
    · rw [thr_modThr_same]; exact keepsRest_endWord ..
    · obtain ⟨hstatus, hplace, hlive, hphase⟩ := hteam hb m hm
      refine ⟨fun hf hs hl hcount hcls hgw => ?_, fun hf hst => ?_, fun hf hst => ?_, hlive, hphase⟩
      · rw [hstatus hf]
        exact teamStatus_fields hs hl hcount hcls hgw
      · rw [hplace hf, teamPlace, if_neg hst]
        rfl
      · rw [hplace hf, teamPlace, if_pos hst]

end Sys2Proof.Machine
end

section
/-! Waits that are examined again: they write no memory, end waits only, and leave a team's storage (R159, R188, R195, R200, R217, R226,
R228, R235, R265, R277, R285, R395, R404). -/

namespace Sys2Proof.Machine

/-- A team's members, entries, arrivals, phase and accumulators may have moved on, and nothing else of it. -/
def TeamSettles (a b : Team) : Prop :=
  b = { a with
    members := b.members, syncs := b.syncs, arr := b.arr, phase := b.phase, heldPhase := b.heldPhase, sweep := b.sweep
    accInfo := b.accInfo, accs := b.accs }

theorem TeamSettles.refl (a : Team) : TeamSettles a a := rfl

theorem TeamSettles.trans {a b c : Team} (h : TeamSettles a b) (h' : TeamSettles b c) : TeamSettles a c := by
  rw [TeamSettles] at h h' ⊢
  rw [h', h]

/-- Memory, partitions and eyelets are as they were, every team has settled, and a thread that waits did so before. -/
structure Settles (s t : State) : Prop where
  mem : t.mem = s.mem
  parts : t.parts = s.parts
  eyelets : t.eyelets = s.eyelets
  teams : ∃ f, (∀ m, TeamSettles m (f m)) ∧ t.teams = s.teams.map f
  waits : ∀ x ∈ t.threads, x.2.wait = .none ∨ ∃ y ∈ s.threads, y.2.wait = x.2.wait

theorem Settles.refl (s : State) : Settles s s where
  mem := rfl
  parts := rfl
  eyelets := rfl
  teams := ⟨id, .refl, (List.map_id _).symm⟩
  waits x hx := .inr ⟨x, hx, rfl⟩

theorem Settles.trans {s t u : State} (h : Settles s t) (h' : Settles t u) : Settles s u where
  mem := h'.mem.trans h.mem
  parts := h'.parts.trans h.parts
  eyelets := h'.eyelets.trans h.eyelets
  teams := by
    obtain ⟨f, hf, ht⟩ := h.teams
    obtain ⟨g, hg, hu⟩ := h'.teams
    exact ⟨g ∘ f, fun m => (hf m).trans (hg (f m)), by rw [hu, ht, List.map_map]⟩
  waits x hx := by
    obtain hn | ⟨y, hy, hyx⟩ := h'.waits x hx
    · exact .inl hn
    · rw [← hyx]
      exact h.waits y hy

/-! Small changes. -/

theorem settles_setThr {s : State} {k : Nat} {u : Thread} (hu : u.wait = .none ∨ u.wait = (thr s k).wait) :
    Settles s (setThr s k u) where
  mem := rfl
  parts := rfl
  eyelets := rfl
  teams := (Settles.refl s).teams
  waits x hx := by
    rcases mem_mput hx with rfl | hx
    · rcases hu with hu | hu
      · exact .inl hu
      · by_cases ho : occupied s k = true
        · exact .inr ⟨_, thr_mem ho, hu.symm⟩
        · refine .inl (hu.trans ?_)
          rw [thr, occupied_false.1 (Bool.eq_false_iff.2 ho)]
          rfl
    · exact .inr ⟨x, hx, rfl⟩

theorem settles_modThr (s : State) (k : Nat) {f : Thread → Thread} (hf : ∀ t, (f t).wait = .none ∨ (f t).wait = t.wait) :
    Settles s (modThr s k f) := settles_setThr (hf _)

theorem settles_dropThr (s : State) (k : Nat) : Settles s (dropThr s k) :=
  { Settles.refl s with waits := fun x hx => .inr ⟨x, mem_mdel hx, rfl⟩ }

theorem settles_modTeam (s : State) (p asid num : Nat) {f : Team → Team} (hf : ∀ m, TeamSettles m (f m)) :
    Settles s (modTeam s p asid num f) :=
  { Settles.refl s with
    teams := ⟨_, fun m => by split; exacts [hf m, .refl m], rfl⟩ }

/-- What is done thread by thread to the list of threads, where each keeps its wait or loses it. -/
theorem settles_mapThreads (s : State) {f : Nat × Thread → Nat × Thread}
    (hf : ∀ x, (f x).2.wait = .none ∨ (f x).2.wait = x.2.wait) : Settles s { s with threads := s.threads.map f } :=
  { Settles.refl s with
    waits := fun x hx => by
      obtain ⟨y, hy, rfl⟩ := List.mem_map.1 hx
      exact (hf y).imp_right fun h => ⟨y, hy, h.symm⟩ }

theorem settles_foldl {f : State → α → State} {s u : State} (l : List α) (h : Settles s u)
    (hf : ∀ t, Settles s t → ∀ a ∈ l, Settles t (f t a)) : Settles s (l.foldl f u) :=
  List.foldlRecOn l f h fun t ht a ha => ht.trans (hf t ht a ha)

theorem settles_foldl_all {f : State → α → State} (s : State) (l : List α) (hf : ∀ t a, Settles t (f t a)) :
    Settles s (l.foldl f s) :=
  settles_foldl l (.refl s) fun t _ a _ => hf t a

/-! Waits that end. -/

theorem settles_finishWait (s : State) (k : Nat) (v : Word) : Settles s (finishWait s k v) := settles_modThr s k fun _ => .inl rfl

theorem settles_finishWait0 (s : State) (k : Nat) : Settles s (finishWait0 s k) := settles_modThr s k fun _ => .inl rfl

theorem settles_wake (s : State) (k : Nat) : Settles s (wake s k) := settles_modThr s k fun t => .inl (by split <;> rfl)

theorem settles_endHart (s : State) (p asid : Nat) (wt : Wait) (v : Nat) : Settles s (endHart s p asid wt v) := by
  unfold endHart
  split
  · exact settles_finishWait ..
  · exact .refl s

theorem settles_wakeRoom (s : State) : Settles s (wakeRoom s) := by
  rw [wakeRoom_eq]
  refine settles_mapThreads s fun x => ?_
  unfold wokenThread
  split
  · split
    · exact .inl rfl
    · exact .inr rfl
  · exact .inr rfl

theorem settles_evalFreeing (s : State) : Settles s (evalFreeing s) := by
  refine settles_mapThreads s fun x => ?_
  dsimp only
  split
  · split
    · exact .inr rfl
    · exact .inl rfl
  · exact .inr rfl

theorem settles_evalPasses (s : State) : Settles s (evalPasses s) := by
  refine settles_foldl_all s _ fun t x => ?_
  dsimp only
  split
  · split
    · exact settles_wake ..
    · exact .refl t
  · exact .refl t

theorem settles_evalDrains (s : State) : Settles s (evalDrains s) := by
  refine settles_foldl_all s _ fun t x => ?_
  dsimp only
  split
  · split
    · exact settles_finishWait ..
    · exact .refl t
  · exact .refl t

theorem settles_evalLfences (s : State) : Settles s (evalLfences s) := by
  refine settles_foldl_all s _ fun t x => ?_
  dsimp only
  split
  · split
    · exact settles_finishWait ..
    · exact .refl t
  · exact .refl t

theorem settles_evalQueue (s : State) (pa : Nat) : Settles s (evalQueue s pa) := by
  dsimp only [evalQueue]
  split
  · exact .refl s
  · refine settles_foldl_all s _ fun t x => ?_
    split
    · exact settles_finishWait ..
    · exact .refl t

theorem settles_evalQueues (s : State) : Settles s (evalQueues s) := settles_foldl_all s _ settles_evalQueue

/-! Lace waits (R396). -/

theorem laceWaitsStand_of_settles {s t : State} (hs : LaceWaitsStand s) (h : Settles s t) : LaceWaitsStand t := by
  have heye : ∀ e, eyelet t e = eyelet s e := fun e => by rw [eyelet, eyelet, h.eyelets]
  intro x hx e n
  obtain hn | ⟨y, hy, hyx⟩ := h.waits x hx
  · rw [hn]
    exact ⟨fun _ hw => (nomatch hw), fun hw => (nomatch hw)⟩
  · rw [← hyx, heye]
    exact hs y hy e n

/-- A lace wait at an eyelet that still stands ends with its target, or goes on. -/
theorem settles_evalLaces {s : State} (hs : LaceWaitsStand s) : Settles s (evalLaces s) := by
  refine settles_foldl s.threads (.refl s) fun t ht x hx => ?_
  have heye : ∀ e, eyelet t e = eyelet s e := fun e => by rw [eyelet, eyelet, ht.eyelets]
  dsimp only
  split
  · next e n j hw =>
    obtain ⟨h0, h3, hj⟩ := (hs x hx e n).1 j hw
    have hgone : eyeGone (eyelet t e) j = none := by simp [eyeGone, heye, h0, h3, hj]
    simp only [hgone]
    split
    · exact .refl t
    · split
      · exact settles_finishWait ..
      · exact .refl t
  · next e n hw =>
    obtain ⟨h0, h3⟩ := (hs x hx e n).2 hw
    have hgone : eyeGone (eyelet t e) (eyelet t e).joins = none := by simp [eyeGone, heye, h0, h3]
    simp only [hgone]
    exact .refl t
  · exact .refl t

/-! Sync entries, gangs, helpers and accumulators. -/

theorem settles_setSync (s : State) (p asid num n : Nat) (e : SyncEntry) : Settles s (setSync s p asid num n e) :=
  settles_modTeam s p asid num fun _ => rfl

theorem settles_wakeSemGo (p asid num n : Nat) (ws : List (Nat × Nat)) (s : State) : Settles s (wakeSemGo s p asid num n ws) := by
  induction ws generalizing s with
  | nil => exact .refl s
  | cons x ws ih =>
    obtain ⟨i, amt⟩ := x
    dsimp only [wakeSemGo]
    split
    · exact ((settles_setSync ..).trans (settles_finishWait ..)).trans (ih _)
    · exact .refl s

theorem settles_wakeSem (s : State) (p asid num n : Nat) : Settles s (wakeSem s p asid num n) := settles_wakeSemGo ..

theorem settles_wakeBarrier (s : State) (p asid num n : Nat) : Settles s (wakeBarrier s p asid num n) := by
  refine settles_foldl_all s _ fun t k => ?_
  split
  · split
    · exact settles_finishWait ..
    · exact .refl t
  · exact .refl t

theorem settles_checkPhase (s : State) (p asid num n : Nat) : Settles s (checkPhase s p asid num n) := by
  dsimp only [checkPhase, completePhase]
  split
  · split
    · exact settles_modTeam s p asid num fun _ => rfl
    · refine (settles_modTeam s p asid num fun m => ?_).trans (settles_wakeBarrier ..)
      split <;> rfl
  · exact .refl s

theorem settles_gangEval (s : State) (p asid num g : Nat) : Settles s (gangEval s p asid num g) := by
  unfold gangEval
  split
  · exact .refl s
  · dsimp only
    split
    · exact .refl s
    · split
      · exact settles_foldl_all s _ fun t x => settles_wake t x.1
      · exact .refl s

theorem settles_modMember (s : State) (p asid num i : Nat) (f : Member → Member) : Settles s (modMember s p asid num i f) :=
  settles_modTeam s p asid num fun _ => rfl

theorem settles_retireHelpers (s : State) (p asid num q : Nat) : Settles s (retireHelpers s p asid num q) := by
  dsimp only [retireHelpers]
  split
  · exact settles_foldl_all s _ fun t i => (settles_dropThr t _).trans (settles_modMember ..)
  · exact .refl s

theorem settles_serveAccGo (m : Team) (n : Nat) (gs : List Nat) (s : State) : Settles s (serveAccGo s m n gs) := by
  induction gs generalizing s with
  | nil => exact .refl s
  | cons g gs ih =>
    unfold serveAccGo
    split
    · exact ih s
    · exact (settles_modTeam s m.part m.asid m.num (f := fun m => holdAcc m n _ _ gs) fun _ => rfl).trans
        (settles_foldl_all _ _ settles_finishWait0)
    · exact (settles_foldl_all s _ settles_wake).trans (ih _)

/-- Everything that waits in a team, examined again. -/
theorem settles_reevaluate {s : State} (hs : LaceWaitsStand s) (p asid num : Nat) : Settles s (reevaluate s p asid num) := by
  dsimp only [reevaluate]
  generalize team s p asid num = m
  have hhelpers := settles_foldl_all s (List.range (m.desc.l4 / 4)) fun t q => settles_retireHelpers t p asid num q
  have hsyncs := hhelpers.trans (settles_foldl_all _ (m.syncs.map (·.1)) fun t n =>
    (settles_wakeSem t p asid num n).trans (settles_wakeBarrier _ p asid num n))
  have hgangs := hsyncs.trans (settles_foldl_all _ (List.range ((m.desc.limit + m.desc.gw - 1) / max 1 m.desc.gw)) fun t g =>
    settles_gangEval t p asid num g)
  have haccs := hgangs.trans (settles_foldl_all _ (m.accInfo.filter fun x => x.2.st = 0 && x.2.waiters ≠ []) fun t x =>
    settles_serveAccGo (team t p asid num) x.1 x.2.waiters t)
  have hwaits := haccs.trans ((settles_wakeRoom _).trans ((settles_evalPasses _).trans ((settles_evalFreeing _).trans
    ((settles_evalDrains _).trans (settles_evalLfences _)))))
  exact hwaits.trans ((settles_evalLaces (laceWaitsStand_of_settles hs hwaits)).trans (settles_evalQueues _))

end Sys2Proof.Machine
end

section
/-! `teamload` and the team that its image makes resident (R195, R200, R201). -/

namespace Sys2Proof.Machine

/-! `teamload` of a hart. -/

/-- A team that is being loaded on core `c`, its slots reserved. -/
def loadingOn (c : Nat) (slots : SMap Nat) (m : Team) : Team :=
  { m with st := .loading, die := c / 64, core := c % 64, slots := slots, late := [] }

/-- A core with the range locks of a team's copies that were issued on other cores (R200, R311). -/
def foreignLocks (s : State) (m : Team) (c : Nat) (x : Core) : Core :=
  { x with rlocks := x.rlocks ++ (foreignCopies s m c).flatMap (Copy.locks · false) }

section
variable {s : State} {k : Nat} {w : Wide} (hk : s.cur.keys = [k])
  (hheld : (src (thr s k) w.s1).toNat % 4096 = 0 → recordHeld s k (src (thr s k) w.s1).toNat 64 = none)
include hk hheld

theorem exec_teamload_refused {c : Nat}
    (hr : loadCheck s (partOf s k) (asidK s k) (src (thr s k) w.s1) (src (thr s k) w.s2) = .error c) :
    exec (.teamload w) s = .next (setThr s k (endWord w (w64 c) (thr s k))) := by
  refine (congrArg Host.Outcome.next (forKeys_one hk _) : execTeamload w s = _).trans (congrArg Host.Outcome.next ?_)
  have hnone : (if (src (thr s k) w.s1).toNat % 4096 = 0 then recordHeld s k (src (thr s k) w.s1).toNat 64 else none) = none :=
    ite_eq_right_iff.2 hheld
  simp only [hnone, hr]

/-- The load starts: slots and range locks are reserved, the core's L1 gives way, and the hart waits. -/
theorem exec_teamload_starts {m : Team} {c : Nat}
    (hr : loadCheck s (partOf s k) (asidK s k) (src (thr s k) w.s1) (src (thr s k) w.s2) = .ok (m, c)) :
    ∃ n slots, exec (.teamload w) s = .next (blockOn (fitL1 (modCore (modTeam { s with freeIdx := n } m.part m.asid m.num
      (loadingOn c slots)) c (foreignLocks s m c)) c) k w (.teamload m.num)) := by
  obtain ⟨n, hn⟩ := reserveSlots_freeIdx s c m.desc
  rcases hslots : reserveSlots s c m.desc with ⟨slots, u⟩
  rw [hslots] at hn
  subst hn
  refine ⟨n, slots, (congrArg Host.Outcome.next (forKeys_one hk _) : execTeamload w s = _).trans (congrArg Host.Outcome.next ?_)⟩
  have hnone : (if (src (thr s k) w.s1).toNat % 4096 = 0 then recordHeld s k (src (thr s k) w.s1).toNat 64 else none) = none :=
    ite_eq_right_iff.2 hheld
  simp only [hnone, hr, hslots]
  rfl

end

/-! Storage restored from an image (R196, R200). -/

/-- Bytes set one after the other leave what stands below them. -/
theorem mget_foldl_zipIdx_below (bs : List Byte) (m : SMap Byte) {a o : Nat} (h : o < a) :
    mget 0 ((bs.zipIdx a).foldl (fun m x => mset 0 m x.2 x.1) m) o = mget 0 m o := by
  induction bs generalizing m a with
  | nil => rfl
  | cons b bs ih => rw [List.zipIdx_cons, List.foldl_cons, ih _ (by omega), mget_mset_other _ _ _ (by omega)]

theorem mget_foldl_zipIdx (bs : List Byte) (m : SMap Byte) (a : Nat) {i : Nat} (h : i < bs.length) :
    mget 0 ((bs.zipIdx a).foldl (fun m x => mset 0 m x.2 x.1) m) (a + i) = bs[i] := by
  induction bs generalizing m a i with
  | nil => exact absurd h (Nat.not_lt_zero i)
  | cons b bs ih =>
    rw [List.zipIdx_cons, List.foldl_cons]
    cases i with
    | zero =>
      rw [mget_foldl_zipIdx_below _ _ (by omega)]
      exact mget_mset_same 0 m a b
    | succ i => rw [show a + (i + 1) = a + 1 + i by omega, ih _ _ (by simpa using h)]; rfl

/-- Storage filled from memory holds memory's bytes. -/
theorem mget_fill (s : State) (a : Nat) {n o : Nat} (h : o < n) :
    mget 0 ((rdBytes s a n).zipIdx.foldl (fun m x => mset 0 m x.2 x.1) []) o = Memory.byte s.mem (a + o) := by
  have hlen : o < (rdBytes s a n).length := by rw [rdBytes, Memory.read_length]; exact h
  have := mget_foldl_zipIdx (rdBytes s a n) [] 0 hlen
  rw [Nat.zero_add] at this
  rw [this]
  simp only [rdBytes, Memory.read, span, List.getElem_map, List.getElem_range]

theorem restoreTeam_tiles (s : State) (m : Team) {o : Nat} (h : o < 8192 * m.desc.tiles) :
    mget 0 (restoreTeam s m).tiles o = Memory.byte s.mem (m.frame + (0x3000 + 1024 * m.desc.l4) + o) := mget_fill s _ h

theorem restoreTeam_scratch (s : State) (m : Team) {o : Nat} (h : o < 4096 * m.desc.scrpg) :
    mget 0 (restoreTeam s m).scratch o =
      Memory.byte s.mem (m.frame + (0x3000 + 1024 * m.desc.l4 + 8192 * m.desc.tiles + 65536 * m.desc.accs) + o) := mget_fill s _ h

/-- Exits that are made good change arrivals alone. -/
theorem forgetExits_eq (m : Team) : ∃ arr, forgetExits m = { m with arr := arr, exits := [] } := by
  have : ∃ arr, m.exits.foldl forgetArrival m = { m with arr := arr } := by
    refine List.foldlRecOn (motive := fun t => ∃ arr, t = { m with arr := arr }) m.exits forgetArrival ⟨m.arr, rfl⟩
      fun t ht i _ => ?_
    obtain ⟨arr, rfl⟩ := ht
    unfold forgetArrival
    split
    · split
      · exact ⟨_, rfl⟩
      · exact ⟨arr, rfl⟩
    · exact ⟨arr, rfl⟩
  obtain ⟨arr, h⟩ := this
  exact ⟨arr, by rw [forgetExits, h]⟩

/-! TEAMLOAD_COMPLETE (R200). -/

/-- The team as its image makes it resident. -/
def restored (s : State) (m : Team) : Team :=
  { forgetExits (restoreTeam { s with freeIdx := s.freeIdx + 1 } m) with
    late := [], kept := [], imageDone := false, touched := [], asks := [], off := Config.freeNat s.freeIdx }

theorem restored_spec (s : State) (m : Team) :
    (restored s m).part = m.part ∧ (restored s m).asid = m.asid ∧ (restored s m).num = m.num ∧ (restored s m).st = .resident ∧
    (restored s m).stopping = m.stopping ∧ (restored s m).tiles = (restoreTeam { s with freeIdx := s.freeIdx + 1 } m).tiles ∧
    (restored s m).scratch = (restoreTeam { s with freeIdx := s.freeIdx + 1 } m).scratch := by
  obtain ⟨arr, h⟩ := forgetExits_eq (restoreTeam { s with freeIdx := s.freeIdx + 1 } m)
  unfold restored
  rw [h]
  exact ⟨rfl, rfl, rfl, rfl, rfl, rfl, rfl⟩

/-- The package with the team restored and VALID cleared, its waits not yet examined. -/
def restoredIn (s : State) (m : Team) : State :=
  let u := modTeam { s with freeIdx := s.freeIdx + 1 } m.part m.asid m.num fun _ => restored s m
  let u := modPart u m.part fun q => { q with admissions := q.admissions ++ m.asks.map fun x => { key := memberKey m x.1, desc := x.2 } }
  wrWord u m.frame (setBit (rdWord u m.frame) 63 false)

/-- The entries whose phase is examined as the team is loaded (R222, R226). -/
def dueEntries (s : State) (m : Team) : List Nat := m.touched ++ if m.exits = [] then [] else (teamBarrier (restoreTeam s m)).toList

/-- Without members that were saved on the core and without late landings, a load restores the team and examines what waits. -/
theorem exec_teamloadComplete {s : State} {m : Team} (hm : team? s m.part m.asid m.num = some m) (hst : m.st = .loading)
    (hkept : m.kept = []) (hlate : m.late = []) (hpoison : poisoned s m.frame (frameSize m.desc) = false)
    (hclear : postClear s m.die m.frame (frameSize m.desc) = true) :
    exec (.teamloadComplete m.part m.asid m.num) s = .next (dbgResume (settleStops (wakeRoom (endHart (reevaluate
      ((dueEntries s m).foldl (fun t n => checkPhase t m.part m.asid m.num n) (restoredIn s m)) m.part m.asid m.num)
      m.part m.asid (.teamload m.num) 0))) m.part m.asid m.num) := by
  change execTeamloadComplete m.part m.asid m.num s = _
  simp only [execTeamloadComplete, hm, hst, hkept, hlate, hpoison, hclear, ne_eq, not_true_eq_false, decide_false, Bool.not_true,
    Bool.or_self, Bool.false_eq_true, if_false, List.foldl_nil]
  rfl

/-- What the end of a load finds, where no stop is in progress. -/
theorem teamloadComplete_spec {s : State} {m : Team} (hs : s.teams = [m]) (hst : m.st = .loading) (hkept : m.kept = [])
    (hlate : m.late = []) (hstop : m.stopping = none) (hdbg : (part s m.part).dbgcmd = 0)
    (hpoison : poisoned s m.frame (frameSize m.desc) = false)
    (hclear : postClear s m.die m.frame (frameSize m.desc) = true) (hlace : LaceWaitsStand s) :
    ∃ t m', exec (.teamloadComplete m.part m.asid m.num) s = .next t ∧ team? t m.part m.asid m.num = some m' ∧
      TeamSettles (restored s m) m' ∧ t.mem = (restoredIn s m).mem := by
  have hm : team? s m.part m.asid m.num = some m := by simp [team?, hs]
  obtain ⟨hpart, hasid, hnum, _, hstopped, _, _⟩ := restored_spec s m
  have hteams : (restoredIn s m).teams = [restored s m] := by
    have : (restoredIn s m).teams = (modTeam s m.part m.asid m.num fun _ => restored s m).teams := rfl
    rw [this, modTeam, hs]
    simp
  have hcmd : (part (restoredIn s m) m.part).dbgcmd = 0 := by
    simp only [restoredIn, wrWord, part_wrBytes, part_modPart_same]
    exact hdbg
  have hlaced : LaceWaitsStand (restoredIn s m) := hlace
  have hdue := settles_foldl_all (restoredIn s m) (dueEntries s m) fun t n => settles_checkPhase t m.part m.asid m.num n
  have h := hdue.trans ((settles_reevaluate (laceWaitsStand_of_settles hlaced hdue) m.part m.asid m.num).trans
    ((settles_endHart _ m.part m.asid (.teamload m.num) 0).trans (settles_wakeRoom _)))
  have hexec := exec_teamloadComplete hm hst hkept hlate hpoison hclear
  generalize wakeRoom _ = u at h hexec
  obtain ⟨f, hf, hu⟩ := h.teams
  rw [hteams, List.map_singleton] at hu
  obtain ⟨m', hm', hsettles⟩ : ∃ m', u.teams = [m'] ∧ TeamSettles (restored s m) m' := ⟨_, hu, hf _⟩
  have hsame : m'.part = m.part ∧ m'.asid = m.asid ∧ m'.num = m.num ∧ m'.stopping = none := by
    rw [hsettles]
    exact ⟨hpart, hasid, hnum, hstopped.trans hstop⟩
  obtain ⟨hp, ha, hn, hs'⟩ := hsame
  have hstops : settleStops u = u := by simp [settleStops, hm', hs']
  have hidle : dbgResume u m.part m.asid m.num = u := dbgResume_idle _ _ (by rw [part_congr h.parts]; exact hcmd)
  rw [hstops, hidle] at hexec
  exact ⟨u, m', hexec, by simp [team?, hm', hp, ha, hn], hsettles, h.mem⟩

/-- Settles O33: a load that is refused ends at once, one that starts leaves the hart waiting, and its completion restores storage
from the image; what is examined as the team becomes resident writes no memory. -/
theorem teamLoad : Obligations.TeamLoad := by
  refine ⟨?_, ?_⟩
  · intro s k w hk _ f r hheld
    refine ⟨fun c hr => ?_, fun m c hr hm => ?_⟩
    · exact ⟨_, exec_teamload_refused hk hheld hr, onlyThreads_setThr .., by rw [thr_setThr_same]; exact endsWith_endWord ..⟩
    · obtain ⟨n, slots, hexec⟩ := exec_teamload_starts hk hheld hr
      refine ⟨_, hexec, fun hl1 => ?_, ?_⟩
      · rw [fitL1_uncopied c (by exact hl1)]
        exact fun _ => rfl
      · generalize hu : modCore _ c (foreignLocks s m c) = u
        obtain ⟨hthreads, hteams, _⟩ := fitL1_rest u c
        obtain ⟨hw, hpc, _⟩ := blockOn_thread (fitL1 u c) k w (.teamload m.num)
        have hthr : thr (fitL1 u c) k = thr s k := thr_congr (by rw [hthreads, ← hu]; rfl)
        have hteam : team? (fitL1 u c) m.part m.asid m.num = some (loadingOn c slots m) := by
          rw [team?_congr hteams, ← hu, teamOpt_modCore, team?_modTeam _ (f := loadingOn c slots) fun _ => ⟨rfl, rfl, rfl⟩]
          exact congrArg (Option.map _) hm
        exact ⟨hw, hpc.trans (by rw [hthr]), _, hteam, rfl, Nat.div_add_mod c 64, rfl⟩
  · intro s p asid num m hs hp ha hn hst hkept hlate hstop hdbg hpoison hclear hlace o1 o3
    subst hp ha hn
    obtain ⟨t, m', hexec, hm', hsettles, hmem⟩ := teamloadComplete_spec hs hst hkept hlate hstop hdbg hpoison hclear hlace
    obtain ⟨_, _, _, hresident, _, htiles, hscratch⟩ := restored_spec s m
    refine ⟨t, m', hexec, hm', ?_, fun o ho => ?_, fun o ho => ?_, ?_⟩
    · rw [hsettles]; exact hresident
    · rw [hsettles]; exact (congrArg (mget 0 · o) htiles).trans (restoreTeam_tiles _ m ho)
    · rw [hsettles]; exact (congrArg (mget 0 · o) hscratch).trans (restoreTeam_scratch _ m ho)
    · rw [rdWord_congr hmem, restoredIn, rdWord_wrWord_same, bit_setBit _ _ (by decide), if_pos rfl]

end Sys2Proof.Machine
end

section
/-! The header of a team's image (R190, R196, R197). -/

namespace Sys2Proof.Machine

theorem rdWord_wrWords_head (s : State) (a : Nat) (v : Word) (l : List Word) : rdWord (wrWords s a (v :: l)) a = v :=
  rdWord_wrWords s a (v :: l) (i := 0) (Nat.succ_pos _)

/-- The first doubleword of an image (R197). -/
theorem writeImage_header (s : State) (m : Team) (kept : SMap Thread) :
    rdWord (writeImage s m kept) m.frame = w64 (2 ^ 63 + b2n m.halt * 2 ^ 61 + m.num) := by
  dsimp only [writeImage, teamHeader]
  exact rdWord_wrWords_head ..

theorem wrWords_parts (l : List Word) (s : State) (a : Nat) : (wrWords s a l).parts = s.parts := by
  induction l generalizing s a with
  | nil => rfl
  | cons v l ih => exact ih (wrWord s a v) (a + 8)

theorem writeImage_parts (s : State) (m : Team) (kept : SMap Thread) : (writeImage s m kept).parts = s.parts := by
  dsimp only [writeImage]
  rw [wrWords_parts]
  refine List.foldlRecOn (motive := fun u : State => u.parts = s.parts) kept _ ?_ fun u hu x _ => (wrWords_parts ..).trans hu
  exact List.foldlRecOn (motive := fun u : State => u.parts = s.parts) (imageParts m) _ rfl fun u hu x _ => hu

theorem dropMembers_mem (s : State) (m : Team) : (dropMembers s m).mem = s.mem := by
  obtain ⟨ps, h⟩ := dropMembers_eq s m
  rw [h]

theorem dropMembers_dbgcmd (s : State) (m : Team) (p : Nat) : (part (dropMembers s m) p).dbgcmd = (part s p).dbgcmd := by
  dsimp only [dropMembers]
  split
  · rw [foldl_dropThr]
    exact field_modPart (·.dbgcmd) _ m.part p
      (f := fun q => { q with admissions := q.admissions.filter fun r => !(residents m).contains r.key }) fun _ => rfl
  · rfl

/-- How a save ends writes no memory, where no debug command waits. -/
theorem saveEnd_mem {s : State} {p : Nat} (asid num v : Nat) (wt : Wait) (h : (part s p).dbgcmd = 0) :
    (dbgResume (wakeRoom (endHart s p asid wt v)) p asid num).mem = s.mem := by
  have hs := (settles_endHart s p asid wt v).trans (settles_wakeRoom _)
  rw [dbgResume_idle _ _ (by rw [part_congr hs.parts]; exact h), hs.mem]

/-- TEAMSAVE_IMAGE_WRITTEN where the team may be saved: memory is the image's, whatever follows it. -/
theorem exec_teamsaveImageWritten {s : State} {m : Team} (hm : team? s m.part m.asid m.num = some m) (hst : m.st = .saving)
    (hdead : s.us < m.deadline) (hready : saveReady s m = true) (hclear : postClear s m.die m.frame (frameSize m.desc) = true)
    (hstop : m.stopping = none) (hdbg : (part s m.part).dbgcmd = 0) :
    ∃ t kept, exec (.teamsaveImageWritten m.part m.asid m.num) s = .next t ∧ t.mem = (writeImage s m kept).mem := by
  have hsettle : settleStop s m = s := by simp only [settleStop, hstop]
  have hteam : team s m.part m.asid m.num = m := team_of_team? hm
  change ∃ t kept, execTeamsaveImageWritten m.part m.asid m.num s = .next t ∧ _
  simp only [execTeamsaveImageWritten, hm, hst, hready, hclear, Nat.not_le.2 hdead, hsettle, hteam, ne_eq, not_true_eq_false,
    decide_false, Bool.not_true, Bool.or_self, Bool.false_eq_true, if_false]
  refine ⟨_, _, rfl, (saveEnd_mem m.asid m.num 0 (.teamsave m.num) ?_).trans (dropMembers_mem _ m)⟩
  refine (dropMembers_dbgcmd _ m m.part).trans ?_
  rw [part_congr (writeImage_parts ..)]
  exact hdbg

/-! A team whose number no header holds. -/

/-- A team that is being saved under a number that no `teamnew` gives (R182). -/
def overnumbered : Team := { part := 0, asid := 0, num := 2 ^ 63, st := .saving, deadline := 1 }

/-- A package that holds that team alone. -/
def overnumberedState : State := { teams := [overnumbered] }

/-- Refutes O32: its clause on TEAMSAVE_IMAGE_WRITTEN lacks the bound `num < 4096` that its clause on the deadline has. The header's first
doubleword is 2^63 + TEAM (R197), so that VALID reads 0 in the image of a team numbered 2^63. -/
theorem not_teamSave : ¬ Obligations.TeamSave := by
  intro h
  obtain ⟨⟨_, himage⟩, _⟩ := h
  have hdead : overnumberedState.us < overnumbered.deadline := by decide
  have hclear : postClear overnumberedState overnumbered.die overnumbered.frame (frameSize overnumbered.desc) = true := by decide
  obtain ⟨t, hexec, _, _, hvalid, _⟩ := himage overnumberedState 0 0 (2 ^ 63) overnumbered rfl rfl rfl rfl rfl hdead rfl hclear rfl rfl
    (fun _ he => nomatch he) rfl
  obtain ⟨t', _, hexec', hmem⟩ := exec_teamsaveImageWritten (s := overnumberedState) (m := overnumbered) rfl rfl hdead rfl hclear
    rfl rfl
  obtain rfl : t = t' := Host.Outcome.next.inj (hexec.symm.trans hexec')
  rw [rdWord_congr hmem, writeImage_header] at hvalid
  exact absurd hvalid (by decide)

end Sys2Proof.Machine
end

section
/-! What an access keeps: translation, the walk that it needs, the place where it lands, and the operands of a queue instruction
write neither threads nor the partitions' records (R207, R215, R501, R502). -/

namespace Sys2Proof.Machine

/-- What an access leaves as it was, whatever it translates, evicts or pins. -/
structure AccessKeeps (s t : State) : Prop where
  threads : t.threads = s.threads
  parts : t.parts = s.parts

theorem AccessKeeps.refl (s : State) : AccessKeeps s s := ⟨rfl, rfl⟩

theorem AccessKeeps.trans {s t u : State} (h : AccessKeeps s t) (h' : AccessKeeps t u) : AccessKeeps s u :=
  ⟨h'.threads.trans h.threads, h'.parts.trans h.parts⟩

theorem AccessKeeps.thr {s t : State} (h : AccessKeeps s t) (k : Nat) : thr t k = thr s k :=
  thr_congr (congrArg (mget? · k) h.threads)

/-! Translation (R349-R367). -/

theorem accessKeeps_eccRecord (s : State) (p pa : Nat) : AccessKeeps s (eccRecord s p pa) := by
  dsimp only [eccRecord]
  split <;> exact ⟨rfl, rfl⟩

theorem accessKeeps_walkFill (s : State) (c : Ctx) (va : Word) (path : List (Nat × Nat)) : AccessKeeps s (walkFill s c va path) := by
  unfold walkFill
  split
  · exact .refl s
  · exact List.foldlRecOn (motive := AccessKeeps s) path _ (.refl s) fun t h _ _ => h.trans ⟨rfl, rfl⟩

/-- The A and D bits that a walk writes, where it needs to. -/
theorem accessKeeps_markLeaf (s : State) (need : Bool) (a : Nat) (pte : Word) :
    AccessKeeps s (if need then wrWord s a pte else s) := by
  cases need <;> exact ⟨rfl, rfl⟩

theorem accessKeeps_translateRaw (s : State) (c : Ctx) (va : Word) (acc : Acc) : AccessKeeps s (translateRaw s c va acc).2 := by
  dsimp only [translateRaw]
  split
  · exact .refl s
  split
  · exact .refl s
  split
  · exact .refl s
  split
  · exact .refl s
  split
  case h_1 => dsimp only; split <;> exact ⟨rfl, rfl⟩
  case h_2 =>
    split
    case h_1 =>
      dsimp only
      split
      · exact accessKeeps_eccRecord ..
      · exact .refl s
    case h_2 l _ =>
      generalize hu : walkFill s c va _ = u
      have hfill : AccessKeeps s u := hu ▸ accessKeeps_walkFill ..
      generalize (!bit l.pte 6 || (decide (acc = .store) && !bit l.pte 7)) = need
      have hmark := fun pte => hfill.trans (accessKeeps_markLeaf u need l.at_ pte)
      split
      · exact hfill
      split
      · exact hfill
      split
      · dsimp only
        split
        · exact (hmark _).trans (accessKeeps_eccRecord ..)
        · exact hmark _
      · exact (hmark _).trans ⟨rfl, rfl⟩

theorem accessKeeps_translate (s : State) (c : Ctx) (va : Word) (acc : Acc) : AccessKeeps s (translate s c va acc).2 := by
  have h := accessKeeps_translateRaw s c va acc
  unfold translate
  split
  · next heq => rw [heq] at h; exact h
  · next heq => rw [heq] at h; exact h

/-! Where an access lands (R501). -/

theorem accessKeeps_freeEvict (s : State) (line : Nat) : AccessKeeps s (freeEvict s line) :=
  ⟨(freeEvict_rest s line).1, freeEvict_parts s line⟩

theorem accessKeeps_pin (s : State) (p : Nat) (pat : Word) (pa : Nat) : AccessKeeps s (pin s p pat pa) := by
  dsimp only [pin]
  split
  · split <;> exact ⟨rfl, rfl⟩
  · exact .refl s

theorem accessKeeps_invalidate (s : State) (pat : Word) (pa : Nat) : AccessKeeps s (invalidate s pat pa) := by
  unfold invalidate
  split <;> exact ⟨rfl, rfl⟩

theorem accessKeeps_reach (s : State) (k : Nat) (va : Word) (n : Nat) (acc : Acc) (chk : Bool) :
    AccessKeeps s (reach s k va n acc chk).2 := by
  have h := accessKeeps_translate s (ctxOf s k acc) va acc
  dsimp only [reach]
  split
  · exact .refl s
  split
  case h_1 heq => rw [heq] at h; exact h
  case h_2 heq =>
    rw [heq] at h
    split
    · exact h
    split
    · split
      · exact h
      · exact h
      · split
        · exact h
        split
        · split
          · exact h
          · exact h.trans ⟨rfl, rfl⟩
        · exact h
    split
    · exact h
    split
    · exact h
    split
    · dsimp only
      split
      · exact h.trans (accessKeeps_eccRecord ..)
      · exact h
    · exact h.trans (accessKeeps_freeEvict ..)

/-! The operands of a queue instruction (R207). -/

theorem accessKeeps_coherentReach (s : State) (k : Nat) (va : Word) (n : Nat) (acc : Acc) :
    AccessKeeps s (coherentReach s k va n acc).2 := by
  have h := accessKeeps_reach s k va n acc false
  unfold coherentReach
  split
  case h_1 heq =>
    rw [heq] at h
    split
    · dsimp only
      split
      · exact h.trans ((accessKeeps_pin ..).trans (accessKeeps_invalidate ..))
      · exact h.trans (accessKeeps_pin ..)
    · exact h
  case h_2 heq => rw [heq] at h; exact h
  case h_3 heq => rw [heq] at h; exact h

theorem accessKeeps_qOperand (s : State) (k : Nat) (va : Word) (n al : Nat) (acc : Acc) :
    AccessKeeps s (qOperand s k va n al acc).2 := by
  have h := accessKeeps_coherentReach s k va n acc
  unfold qOperand
  split
  · exact .refl s
  split
  case h_1 heq => rw [heq] at h; exact h
  case h_2 heq => rw [heq] at h; exact h
  case h_3 heq => rw [heq] at h; exact h

theorem accessKeeps_of_qOperand {s s1 : State} {k n al : Nat} {va : Word} {acc : Acc} {r : Except Flt Nat}
    (h : qOperand s k va n al acc = (r, s1)) : AccessKeeps s s1 := by
  have := accessKeeps_qOperand s k va n al acc
  rwa [h] at this

/-- A page that a queue's access finds is no managed one. -/
theorem managed_of_coherentReach {s s1 : State} {k n pa : Nat} {va pat : Word} {acc : Acc}
    (h : coherentReach s k va n acc = (.ok (.mem pa pat), s1)) : managed pat = false := by
  unfold coherentReach at h
  split at h
  case h_1 =>
    split at h
    · next hpat =>
      cases h
      simp [managed, hpat]
    · cases h
  case h_2 => cases h
  case h_3 => cases h

/-- The record at the head is found by accesses alone. -/
theorem accessKeeps_readyRecord (s : State) (k pa : Nat) : AccessKeeps s (readyRecord s k pa).2 := by
  have hl := accessKeeps_qOperand s k (ringAddr (headerAt s pa) (qHead (headerAt s pa))) 32 32 .load
  dsimp only [readyRecord]
  split
  · exact .refl s
  split
  case h_1 heq => rw [heq] at hl; exact hl
  case h_2 u heq =>
    rw [heq] at hl
    have hs := hl.trans (accessKeeps_qOperand u k (ringAddr (headerAt s pa) (qHead (headerAt s pa))) 32 32 .store)
    split
    · split
      · next heq => rw [heq] at hs; exact hs
      · next heq => rw [heq] at hs; exact hs
    · exact hl

theorem accessKeeps_of_readyRecord {s s1 : State} {k pa : Nat} {r : Except Flt (Option (Nat × List Word))}
    (h : readyRecord s k pa = (r, s1)) : AccessKeeps s s1 := by
  have := accessKeeps_readyRecord s k pa
  rwa [h] at this

/-! The addresses of a queue in a context (R215, R502). -/

theorem accessKeeps_qPlace (s : State) (x : Ctx) (va : Word) (n : Nat) (acc : Acc) : AccessKeeps s (qPlace s x va n acc).2 := by
  have h := accessKeeps_translate s x va acc
  unfold qPlace
  generalize (if x.side = 1 then 4 + x.die else x.die) = die
  split
  · exact .refl s
  split
  case h_1 heq => rw [heq] at h; exact h
  case h_2 heq =>
    rw [heq] at h
    split
    · exact h
    split
    · exact h
    · exact h.trans (accessKeeps_pin ..)

theorem accessKeeps_of_qPlace {s s1 : State} {x : Ctx} {va : Word} {n : Nat} {acc : Acc} {r : Except Flt Nat}
    (h : qPlace s x va n acc = (r, s1)) : AccessKeeps s s1 := by
  have := accessKeeps_qPlace s x va n acc
  rwa [h] at this

theorem accessKeeps_examine (s : State) (x : Ctx) (q : Word) : AccessKeeps s (examine s x q).2 := by
  dsimp only [examine]
  split
  · exact .refl s
  split
  case h_1 hload => exact accessKeeps_of_qPlace hload
  case h_2 u hload =>
    have hu := accessKeeps_of_qPlace hload
    split
    · exact hu
    split
    case h_1 hstore => exact hu.trans (accessKeeps_of_qPlace hstore)
    case h_2 v hstore =>
      have hv := hu.trans (accessKeeps_of_qPlace hstore)
      split
      · exact hv
      split
      case h_1 hrec => exact hv.trans (accessKeeps_of_qPlace hrec)
      case h_2 y hrec =>
        have hy := hv.trans (accessKeeps_of_qPlace hrec)
        split
        · exact hy
        split
        · exact hy
        split
        · next hfree => exact hy.trans (accessKeeps_of_qPlace hfree)
        · next hfree => exact hy.trans (accessKeeps_of_qPlace hfree)

theorem accessKeeps_ringPages (s : State) (x : Ctx) (l : List Word) : AccessKeeps s (ringPages s x l).2 := by
  induction l generalizing s with
  | nil => exact .refl s
  | cons va l ih =>
    unfold ringPages
    split
    · next h => exact accessKeeps_of_qPlace h
    · next u h => exact (accessKeeps_of_qPlace h).trans (ih u)

end Sys2Proof.Machine
end

section
/-! Waits at a queue that are examined again, and the doublewords of a queue: reservations, published records and pops (R203-R205, R208,
R216, R217). -/

namespace Sys2Proof.Machine

/-! Doublewords written by any agent. -/

theorem rdWord_wrBytes_same (s : State) (k a : Nat) (v : Word) : rdWord (wrBytes s k a (toBytes 8 v.toNat)) a = v :=
  (rdWord_congr (s := wrWord s a v) rfl a).trans (rdWord_wrWord_same s a v)

theorem rdWord_wrBytes_apart (s : State) (k a : Nat) (bs : List Byte) {x : Nat} (h : x + 8 ≤ a ∨ a + bs.length ≤ x) :
    rdWord (wrBytes s k a bs) x = rdWord s x := by
  unfold rdWord
  rw [rdBytes_wrBytes_apart s k a bs h]

/-- A doubleword of those that are written at once. -/
theorem rdWord_wrBytes_words (s : State) (k a : Nat) (l : List Word) {i : Nat} (h : i < l.length) :
    rdWord (wrBytes s k a (l.flatMap fun v => toBytes 8 v.toNat)) (a + 8 * i) = dw l i := by
  rw [rdWord_congr (s := wrWords s a l) ((wrBytes_mem ..).trans (wrWords_mem ..).symm), rdWord_wrWords s a l h]

theorem dw_headerAt (s : State) (pa : Nat) {i : Nat} (h : i < 8) : dw (headerAt s pa) i = rdWord s (pa + 8 * i) := dw_rdWords s pa h

/-! Waits that are examined again (R217). -/

/-- In a map whose keys rise, every entry is the one of its key. -/
theorem mget?_of_mem {m : SMap α} {e : Nat × α} (hm : mkeys m = true) (he : e ∈ m) : mget? m e.1 = some e.2 := by
  induction m with
  | nil => cases he
  | cons c m ih =>
    obtain ⟨k, v⟩ := c
    rcases List.mem_cons.1 he with rfl | he
    · exact if_pos rfl
    · rw [mget?_cons, if_neg (mkeys_lt hm e he).ne', ih (mkeys_tail hm) he]

/-- What the end of each wait at the queue keeps, the examination of its waits keeps. -/
theorem evalQueue_keeps {P : State → Prop} {s : State} (pa : Nat)
    (hf : ∀ u x v, x ∈ s.threads → x.2.wait = .queue pa → P u → P (finishWait u x.1 v)) (hs : P s) : P (evalQueue s pa) := by
  dsimp only [evalQueue]
  split
  · exact hs
  · refine List.foldlRecOn (motive := P) s.threads _ hs fun u hu x hx => ?_
    split
    · next hw => exact hf u x _ hx (of_decide_eq_true (Bool.and_eq_true_iff.1 hw).1) hu
    · exact hu

theorem evalQueue_rest (s : State) (pa : Nat) : evalQueue s pa = { s with threads := (evalQueue s pa).threads } :=
  evalQueue_keeps (P := fun u => u = { s with threads := u.threads }) pa (fun u x v _ _ hu => congrArg
    (fun y : State => { y with threads := (finishWait u x.1 v).threads }) hu) rfl

theorem evalQueue_mem (s : State) (pa : Nat) : (evalQueue s pa).mem = s.mem := by rw [evalQueue_rest]

/-- Where keys rise, a thread that does not wait is none of those that go on. -/
theorem thr_evalQueue_idle {s : State} {k : Nat} (pa : Nat) (hm : mkeys s.threads = true) (hw : (thr s k).wait = .none) :
    thr (evalQueue s pa) k = thr s k := by
  refine evalQueue_keeps (P := fun u => thr u k = thr s k) pa (fun u x v hx hq hu => ?_) rfl
  obtain rfl | hne := eq_or_ne k x.1
  · rw [thr, mget?_of_mem hm hx] at hw
    rw [show x.2.wait = .none from hw] at hq
    cases hq
  · exact (thr_modThr_other u _ hne).trans hu

/-- The end of a wait leaves what a thread is. -/
theorem thr_finishWait_kind (s : State) (k : Nat) (v : Word) (j : Nat) :
    (thr (finishWait s k v) j).helper = (thr s j).helper ∧ (thr (finishWait s k v) j).task = (thr s j).task := by
  obtain rfl | hne := eq_or_ne j k
  · rw [finishWait, thr_modThr_same]
    generalize thr s j = t
    have hset : (if t.ww.w then t else setReg t t.ww.d.toNat v).helper = t.helper ∧
        (if t.ww.w then t else setReg t t.ww.d.toNat v).task = t.task := by
      split
      · exact ⟨rfl, rfl⟩
      · rw [setReg_rest]
        exact ⟨rfl, rfl⟩
    dsimp only
    split
    · exact hset
    · exact hset
  · rw [finishWait, thr_modThr_other _ _ hne]
    exact ⟨rfl, rfl⟩

theorem thr_evalQueue_kind (s : State) (pa j : Nat) :
    (thr (evalQueue s pa) j).helper = (thr s j).helper ∧ (thr (evalQueue s pa) j).task = (thr s j).task :=
  evalQueue_keeps (P := fun u => (thr u j).helper = (thr s j).helper ∧ (thr u j).task = (thr s j).task) pa (fun u x v _ _ hu =>
    ⟨(thr_finishWait_kind u x.1 v j).1.trans hu.1, (thr_finishWait_kind u x.1 v j).2.trans hu.2⟩) ⟨rfl, rfl⟩

/-! Reservations (R205, R208). -/

theorem reserve_full {s : State} {pa : Nat} (k : Nat) (h : ringFull (headerAt s pa) 1 = true) :
    reserve s k pa 1 = (none, wrBytes s k (pa + 0x18) (toBytes 8 (dw (headerAt s pa) 3 + 1).toNat)) := if_pos h

theorem reserve_fits {s : State} {pa : Nat} (k : Nat) (h : ringFull (headerAt s pa) 1 = false) :
    reserve s k pa 1 = (some (qRes (headerAt s pa)),
      evalQueue (wrBytes s k (pa + 8) (toBytes 8 (qRes (headerAt s pa) + 1).toNat)) pa) :=
  if_neg (Bool.eq_false_iff.1 h)

/-- The reserved position is counted. -/
theorem rdWord_reserve_fits {s : State} {pa : Nat} (k : Nat) (h : ringFull (headerAt s pa) 1 = false) :
    rdWord (reserve s k pa 1).2 (pa + 8) = qRes (headerAt s pa) + 1 := by
  rw [reserve_fits k h, rdWord_congr (evalQueue_mem ..), rdWord_wrBytes_same]

theorem thr_reserve_idle {s : State} {k : Nat} (writer pa : Nat) (hm : mkeys s.threads = true) (hw : (thr s k).wait = .none) :
    thr (reserve s writer pa 1).2 k = thr s k := by
  cases hf : ringFull (headerAt s pa) 1
  · rw [reserve_fits writer hf, thr_evalQueue_idle pa (by exact hm) (by exact hw), thr_wrBytes]
  · rw [reserve_full writer hf, thr_wrBytes]

/-- A reservation leaves what a thread is. -/
theorem thr_reserve_kind (s : State) (k pa j : Nat) :
    (thr (reserve s k pa 1).2 j).helper = (thr s j).helper ∧ (thr (reserve s k pa 1).2 j).task = (thr s j).task := by
  cases hf : ringFull (headerAt s pa) 1
  · rw [reserve_fits k hf]
    dsimp only
    obtain ⟨hhelper, htask⟩ := thr_evalQueue_kind (wrBytes s k (pa + 8) (toBytes 8 (qRes (headerAt s pa) + 1).toNat)) pa j
    rw [hhelper, htask, thr_wrBytes]
    exact ⟨rfl, rfl⟩
  · rw [reserve_full k hf, thr_wrBytes]
    exact ⟨rfl, rfl⟩

/-- A reservation leaves the queue's place and size alone. -/
theorem ringAddr_reserve (s : State) (k pa : Nat) (pos : Word) :
    ringAddr (headerAt (reserve s k pa 1).2 pa) pos = ringAddr (headerAt s pa) pos := by
  have h0 : dw (headerAt (reserve s k pa 1).2 pa) 0 = dw (headerAt s pa) 0 := by
    rw [dw_headerAt _ _ (by decide), dw_headerAt _ _ (by decide)]
    cases hf : ringFull (headerAt s pa) 1
    · rw [reserve_fits k hf, rdWord_congr (evalQueue_mem ..), rdWord_wrBytes_apart _ _ _ _ (by simp)]
    · rw [reserve_full k hf, rdWord_wrBytes_apart _ _ _ _ (by simp)]
  rw [ringAddr, h0, ringAddr]

/-! A pop (R205). -/

theorem rdWord_popAt_head (s : State) (k pa rpa : Nat) (r : List Word) :
    rdWord (popAt s k pa rpa r) (pa + 16) = qHead (headerAt s pa) + 1 := by
  dsimp only [popAt]
  rw [rdWord_congr (evalQueue_mem ..), rdWord_wrBytes_same]

theorem rdWord_popAt_free (s : State) (k : Nat) {pa rpa : Nat} (r : List Word) (h : rpa + 32 ≤ pa + 16 ∨ pa + 24 ≤ rpa + 24) :
    rdWord (popAt s k pa rpa r) (rpa + 24) = setBit (dw r 3) 0 false := by
  dsimp only [popAt]
  rw [rdWord_congr (evalQueue_mem ..), rdWord_wrBytes_apart _ _ _ _ (by rw [toBytes_length]; omega), rdWord_wrBytes_same]

theorem byte_popAt_outside (s : State) (k : Nat) {pa rpa a : Nat} (r : List Word) (ha : a < pa + 16 ∨ pa + 24 ≤ a)
    (ha' : a < rpa + 24 ∨ rpa + 32 ≤ a) : Memory.byte (popAt s k pa rpa r).mem a = Memory.byte s.mem a := by
  dsimp only [popAt]
  rw [evalQueue_mem, byte_wrBytes_outside _ _ _ _ (by rw [toBytes_length]; omega),
    byte_wrBytes_outside _ _ _ _ (by rw [toBytes_length]; omega)]

theorem thr_popAt_idle {s : State} {k : Nat} (writer pa rpa : Nat) (r : List Word) (hm : mkeys s.threads = true)
    (hw : (thr s k).wait = .none) : thr (popAt s writer pa rpa r) k = thr s k := by
  dsimp only [popAt]
  rw [thr_evalQueue_idle pa (by exact hm) (by exact hw), thr_wrBytes, thr_wrBytes]

theorem popAt_cycle (s : State) (k pa rpa : Nat) (r : List Word) : (popAt s k pa rpa r).cycle = s.cycle := by
  dsimp only [popAt]
  rw [evalQueue_rest]
  rfl

end Sys2Proof.Machine
end

section
/-! `qpush`, `qpop` and `qwait` (R203-R205, R208, R216, R217). -/

namespace Sys2Proof.Machine

/-! The ends of queue instructions. -/

theorem endsWith_modThr {s u : State} {k : Nat} (w : Wide) (v : Word) (h : thr u k = thr s k) :
    EndsWith w v (thr s k) (thr (modThr u k (endWord w v)) k) := by
  rw [thr_modThr_same, h]
  exact endsWith_endWord ..

/-- A word that only ends, after accesses. -/
theorem endsOnly {s u : State} {k : Nat} {w : Wide} {v : Word} {i : Instr} (h : AccessKeeps s u)
    (he : exec i s = .next (modThr u k (endWord w v))) :
    ∃ t, exec i s = .next t ∧ OnlyThreads [k] u t ∧ EndsWith w v (thr s k) (thr t k) :=
  ⟨_, he, onlyThreads_setThr .., endsWith_modThr w v (h.thr k)⟩

theorem AccessKeeps.idle {s t : State} {k : Nat} (h : AccessKeeps s t) (hm : mkeys s.threads = true) (hw : (Machine.thr s k).wait = .none) :
    mkeys t.threads = true ∧ (Machine.thr t k).wait = .none := by
  rw [h.thr, h.threads]
  exact ⟨hm, hw⟩

/-! Writes where a queue's access landed. -/

theorem pin_mem (s : State) (p : Nat) (pat : Word) (pa : Nat) : (pin s p pat pa).mem = s.mem := by
  dsimp only [pin]
  split
  · split <;> rfl
  · rfl

theorem invalidate_mem (s : State) (pat : Word) (pa : Nat) : (invalidate s pat pa).mem = s.mem := by
  unfold invalidate
  split <;> rfl

theorem writeLoc_unmanaged {pat : Word} (h : managed pat = false) (s : State) (k pa : Nat) (bs : List Byte) :
    writeLoc s k (.mem pa pat) bs = wrBytes (invalidate (pin s (partOf s k) pat pa) pat pa) k pa bs := by
  simp [writeLoc, h]

/-- The four doublewords of a record, as its writer leaves them. -/
theorem recordStored (u : State) (k a : Nat) (d0 d1 d2 d3 : Word) (f : Thread → Thread) :
    let t := modThr (wrBytes u k a ([d0, d1, d2, d3].flatMap fun v => toBytes 8 v.toNat)) k f
    (rdWord t a = d0 ∧ rdWord t (a + 8) = d1 ∧ rdWord t (a + 16) = d2 ∧ rdWord t (a + 24) = d3) ∧
      (∀ x, x + 8 ≤ a ∨ a + 32 ≤ x → rdWord t x = rdWord u x) ∧
      ∀ b, b < a ∨ a + 32 ≤ b → Memory.byte t.mem b = Memory.byte u.mem b := by
  have hlen : ([d0, d1, d2, d3].flatMap fun v => toBytes 8 v.toNat).length = 32 := flatMap_toBytes_length _
  have hword : ∀ i < 4, _ := fun i => rdWord_wrBytes_words u k a [d0, d1, d2, d3] (i := i)
  intro t
  simp only [t, rdWord_modThr, modThr_mem]
  exact ⟨⟨hword 0 (by decide), hword 1 (by decide), hword 2 (by decide), hword 3 (by decide)⟩,
    fun x hx => rdWord_wrBytes_apart _ _ _ _ (by rw [hlen]; exact hx),
    fun b hb => byte_wrBytes_outside _ _ _ _ (by rw [hlen]; exact hb)⟩

/-! `qpush` of one lane (R208). -/

section
variable {s s1 s2 : State} {k pa ra : Nat} {w : Wide}

theorem exec_qpush_done {v : Word} (hk : s.cur.keys = [k]) (h : pushCheck w s k = (.done v, s2)) :
    exec (.qpush w) s = .next (modThr s2 k (endWord w v)) := by
  change execQpush w s = _
  simp [execQpush, hk, h, uniq]

theorem exec_qpush_go {l : PushLane} (hk : s.cur.keys = [k]) (h : pushCheck w s k = (.go l, s2)) :
    exec (.qpush w) s = .next (pushQueue w s2 [l]) := by
  change execQpush w s = _
  simp [execQpush, hk, h, uniq]

variable (hh : (thr s k).helper = false) (hq : qOperand s k (src (thr s k) w.s1) 64 64 .store = (.ok pa, s1))
  (hr : qOperand s1 k (src (thr s k) w.s2) 32 32 .load = (.ok ra, s2))
include hh hq hr

/-- The checks of a lane whose operands are reached. -/
theorem pushCheck_reached : pushCheck w s k =
    (if headerBad (headerAt s2 pa) then .done (stw 2) else if recordBad (rdWords s2 ra 4) then .done (stw 3)
      else .go ⟨k, src (thr s k) w.s1, pa, rdWords s2 ra 4⟩, s2) := by
  simp only [pushCheck, hh, hq, hr, Bool.false_eq_true, if_false]
  split
  · rfl
  · split <;> rfl

end

section
variable {s : State} {w : Wide} {l : PushLane}
  (hheld : isHart l.key = true → ∀ x ∈ (thr s l.key).pushHeld, x.1 ≠ (thr s l.key).pc)
include hheld

/-- A lane that holds no position reserves a new one. -/
theorem pushQueue_unheld : pushQueue w s [l] = pushQueue.pushNew w s [l] := by
  have hnone : (if isHart l.key then (thr s l.key).pushHeld.find? fun x => x.1 = (thr s l.key).pc else none) = none := by
    split
    · next hhart => simpa using hheld hhart
    · rfl
  simp only [pushQueue, hnone]

theorem pushQueue_full (hf : ringFull (headerAt s l.pa) 1 = true) :
    pushQueue w s [l] = modThr (wrBytes s l.key (l.pa + 0x18) (toBytes 8 (dw (headerAt s l.pa) 3 + 1).toNat)) l.key
      (endWord w (stw 1)) := by
  rw [pushQueue_unheld hheld]
  simp only [pushQueue.pushNew, List.length_singleton, reserve_full l.key hf]
  rfl

theorem pushQueue_fits (hf : ringFull (headerAt s l.pa) 1 = false) :
    pushQueue w s [l] = pushWrite w (reserve s l.key l.pa 1).2 l (qRes (headerAt s l.pa)) := by
  rw [pushQueue_unheld hheld]
  simp [pushQueue.pushNew, reserve_fits l.key hf, w64]

end

/-- The record's write, where the ring is reached. -/
theorem pushWrite_reached {s s3 : State} {l : PushLane} {pos pat : Word} {rpa : Nat} (w : Wide)
    (h : coherentReach s l.key (ringAddr (headerAt s l.pa) pos) 32 .store = (.ok (.mem rpa pat), s3)) :
    pushWrite w s l pos = modThr (wrBytes (invalidate (pin s3 (partOf s3 l.key) pat rpa) pat rpa) l.key rpa
      ((published pos l.body).flatMap fun v => toBytes 8 v.toNat)) l.key (endWord w pos) := by
  simp only [pushWrite, h]
  rw [writeLoc_unmanaged (managed_of_coherentReach h)]

/-- What the write of a record leaves: its thread's end, the record, and everything else. -/
theorem pushed_spec {s s3 : State} {k rpa : Nat} {va : Word} (w : Wide) (pos pat : Word) (r : List Word)
    (h : coherentReach s k va 32 .store = (.ok (.mem rpa pat), s3)) :
    let t := modThr (wrBytes (invalidate (pin s3 (partOf s3 k) pat rpa) pat rpa) k rpa
      ((published pos r).flatMap fun v => toBytes 8 v.toNat)) k (endWord w pos)
    EndsWith w pos (thr s k) (thr t k) ∧ rdWord t rpa = dw r 0 ∧ rdWord t (rpa + 8) = dw r 1 ∧ rdWord t (rpa + 16) = dw r 2 ∧
      rdWord t (rpa + 24) = publishWord pos (dw r 3) ∧ (∀ x, x + 8 ≤ rpa ∨ rpa + 32 ≤ x → rdWord t x = rdWord s3 x) ∧
      ∀ a, a < rpa ∨ rpa + 32 ≤ a → Memory.byte t.mem a = Memory.byte s3.mem a := by
  have hkeep := accessKeeps_coherentReach s k va 32 .store
  rw [h] at hkeep
  have hquiet := hkeep.trans ((accessKeeps_pin s3 (partOf s3 k) pat rpa).trans (accessKeeps_invalidate _ pat rpa))
  have hmem : (invalidate (pin s3 (partOf s3 k) pat rpa) pat rpa).mem = s3.mem := (invalidate_mem ..).trans (pin_mem ..)
  generalize invalidate (pin s3 (partOf s3 k) pat rpa) pat rpa = u at hquiet hmem ⊢
  unfold published
  obtain ⟨⟨h0, h1, h2, h3⟩, hwords, hbytes⟩ := recordStored u k rpa (dw r 0) (dw r 1) (dw r 2) (publishWord pos (dw r 3))
    (endWord w pos)
  exact ⟨endsWith_modThr w pos ((thr_wrBytes ..).trans (hquiet.thr k)), h0, h1, h2, h3,
    fun x hx => (hwords x hx).trans (rdWord_congr hmem x), fun a ha => (hbytes a ha).trans (by rw [hmem])⟩

/-! `qpop` and `qwait` of one thread or hart (R216, R217). -/

section
variable {s s1 s2 s3 : State} {k pa ra : Nat} {w : Wide} (hk : s.cur.keys = [k]) (hh : (thr s k).helper = false)
include hk hh

section
variable (hq : qOperand s k (src (thr s k) w.s1) 64 64 .store = (.ok pa, s1))
  (hr : qOperand s1 k (src (thr s k) w.s2) 32 32 .store = (.ok ra, s2))
include hq hr

theorem exec_qpop_badHeader (hb : headerBad (headerAt s2 pa) = true) :
    exec (.qpop w) s = .next (modThr s2 k (endWord w (stw 2))) := by
  rw [exec_one (f := qpopOne w) rfl hk]
  simp only [qpopOne, hh, hq, hr, hb, Bool.false_eq_true, if_false, if_true]

variable (hb : headerBad (headerAt s2 pa) = false)
include hb

theorem exec_qpop_unready (hready : readyRecord s2 k pa = (.ok none, s3)) :
    exec (.qpop w) s = .next (modThr s3 k (endWord w (stw 1))) := by
  rw [exec_one (f := qpopOne w) rfl hk]
  simp only [qpopOne, hh, hq, hr, hb, hready, Bool.false_eq_true, if_false]

theorem exec_qpop_pops {rpa : Nat} {r : List Word} (hready : readyRecord s2 k pa = (.ok (some (rpa, r)), s3)) :
    exec (.qpop w) s = .next (modThr (wrBytes (popAt s3 k pa rpa r) k ra
      ([dw r 0, dw r 1, dw r 2, setBit (dw r 3) 0 false].flatMap fun v => toBytes 8 v.toNat)) k
      (endWord w (qHead (headerAt s3 pa)))) := by
  rw [exec_one (f := qpopOne w) rfl hk]
  simp only [qpopOne, hh, hq, hr, hb, hready, Bool.false_eq_true, if_false]

end

section
variable (hq : qOperand s k (src (thr s k) w.s1) 64 64 .load = (.ok pa, s1))
include hq

theorem exec_qwait_badHeader (hb : headerBad (headerAt s1 pa) = true) :
    exec (.qwait w) s = .next (modThr s1 k (endWord w (stw 2))) := by
  rw [exec_one (f := qwaitOne w) rfl hk]
  simp only [qwaitOne, hh, hq, hb, Bool.false_eq_true, if_false, if_true]

variable (hb : headerBad (headerAt s1 pa) = false)
include hb

theorem exec_qwait_counts (hc : qCount (headerAt s1 pa) ≠ 0) :
    exec (.qwait w) s = .next (modThr s1 k (endWord w (qRes (headerAt s1 pa) - qHead (headerAt s1 pa)))) := by
  rw [exec_one (f := qwaitOne w) rfl hk]
  simp only [qwaitOne, hh, hq, hb, Bool.false_eq_true, if_false, if_pos hc]
  simp only [qCount, w64, BitVec.ofNat_toNat, BitVec.setWidth_eq]

theorem exec_qwait_waits (hc : qCount (headerAt s1 pa) = 0) :
    exec (.qwait w) s = .next (blockOn s1 k w (.queue pa)) := by
  rw [exec_one (f := qwaitOne w) rfl hk]
  simp only [qwaitOne, hh, hq, hb, Bool.false_eq_true, if_false, hc, ne_eq, not_true_eq_false]

end
end

/-- Settles O34: each instruction ends as its checks answer it; a reservation, a published record and a pop write the doublewords
that R205 and R208 name, and examine waits that are not the issuer's. -/
theorem queuePushPop : Obligations.QueuePushPop := by
  intro s k w pa s1 hm hk _ hh hwait
  refine ⟨fun hq ra s2 => ⟨fun hr => ?_, fun hr => ?_⟩, fun hq => ?_⟩
  · intro h r pos full
    have hkeep := (accessKeeps_of_qOperand hq).trans (accessKeeps_of_qOperand hr)
    have hcheck := pushCheck_reached hh hq hr
    obtain ⟨hm2, hw2⟩ := hkeep.idle hm hwait
    refine ⟨fun hb => ?_, fun hb hbad => ?_, fun hb hgood hheld hf => ?_, fun hb hgood hheld hf rpa pat s3 hreach => ?_⟩
    · rw [if_pos hb] at hcheck
      exact endsOnly hkeep (exec_qpush_done hk hcheck)
    · rw [if_neg (Bool.eq_false_iff.1 hb), if_pos hbad] at hcheck
      exact endsOnly hkeep (exec_qpush_done hk hcheck)
    · rw [if_neg (Bool.eq_false_iff.1 hb), if_neg (Bool.eq_false_iff.1 hgood)] at hcheck
      rw [← hkeep.thr k] at hheld
      refine ⟨_, (exec_qpush_go hk hcheck).trans (congrArg _ (pushQueue_full hheld hf)), endsWith_modThr w _ (hkeep.thr k), ?_,
        fun a ha => ?_⟩
      · rw [rdWord_modThr, rdWord_wrBytes_same]
      · rw [modThr_mem, byte_wrBytes_outside _ _ _ _ (by rw [toBytes_length]; omega)]
    · rw [if_neg (Bool.eq_false_iff.1 hb), if_neg (Bool.eq_false_iff.1 hgood)] at hcheck
      have hexec := (exec_qpush_go hk hcheck).trans (congrArg _ (pushQueue_fits (by rwa [hkeep.thr k]) hf))
      rw [pushWrite_reached w (by rwa [ringAddr_reserve])] at hexec
      obtain ⟨hthr, h0, h1, h2, h3, hwords, hbytes⟩ := pushed_spec w pos pat r hreach
      rw [thr_reserve_idle k pa hm2 hw2, hkeep.thr k] at hthr
      refine ⟨_, hexec, hthr, h0, h1, h2, h3, fun hsame hapart => ?_, hbytes⟩
      exact (hwords _ (by omega)).trans ((rdWord_congr hsame _).trans (rdWord_reserve_fits k hf))
  · have hkeep := (accessKeeps_of_qOperand hq).trans (accessKeeps_of_qOperand hr)
    refine ⟨fun hb => endsOnly hkeep (exec_qpop_badHeader hk hh hq hr hb), fun hb s3 => ⟨fun hready => ?_, fun rpa r hready => ?_⟩⟩
    · exact endsOnly (hkeep.trans (accessKeeps_of_readyRecord hready)) (exec_qpop_unready hk hh hq hr hb hready)
    · have hkeep3 := hkeep.trans (accessKeeps_of_readyRecord hready)
      obtain ⟨hm3, hw3⟩ := hkeep3.idle hm hwait
      have hthr := (thr_popAt_idle k pa rpa r hm3 hw3).trans (hkeep3.thr k)
      obtain ⟨⟨h0, h1, h2, h3⟩, hwords, hbytes⟩ := recordStored (popAt s3 k pa rpa r) k ra (dw r 0) (dw r 1) (dw r 2)
        (setBit (dw r 3) 0 false) (endWord w (qHead (headerAt s3 pa)))
      refine ⟨_, exec_qpop_pops hk hh hq hr hb hready, endsWith_modThr w _ ((thr_wrBytes ..).trans hthr), h0, h1, h2, h3,
        fun hapart => ?_, fun hapart hfree => ?_, fun a ha hhead hrec => ?_⟩
      · exact (hwords _ (by omega)).trans (rdWord_popAt_head ..)
      · exact (hwords _ (by omega)).trans (rdWord_popAt_free _ _ _ hfree)
      · exact (hbytes a ha).trans (byte_popAt_outside _ _ _ hhead hrec)
  · have hkeep := accessKeeps_of_qOperand hq
    refine ⟨fun hb => endsOnly hkeep (exec_qwait_badHeader hk hh hq hb),
      fun hb hc => endsOnly hkeep (exec_qwait_counts hk hh hq hb hc), fun hb hc => ?_⟩
    obtain ⟨hw, hpc, hregs⟩ := blockOn_thread s1 k w (.queue pa)
    rw [hkeep.thr k] at hpc hregs
    exact ⟨_, exec_qwait_waits hk hh hq hb hc, onlyThreads_setThr .., hw, hpc, hregs⟩

end Sys2Proof.Machine
end

section
/-! `qbind` and DISPATCH (R210, R211, R502). -/

namespace Sys2Proof.Machine

/-! `qbind` of one hart (R210). -/

/-- A record that a `qbind` reads, as its cores take it; none where it names no header. -/
def bindingOf (s : State) (k : Nat) (l : List Word) : Option QBinding :=
  if dw l 0 = 0 then none else
    some { qva := dw l 0, satp := dw l 1, tmax := bits (dw l 2) 9 0, tfr := bits (dw l 4) 63 10 * 1024, suspended := false
           part := partOf s k }

/-- The cores of a die take a binding. -/
def bindCores (s : State) (d : Nat) (b : Option QBinding) (cs : List Nat) : State :=
  cs.foldl (fun s c => modCore s (64 * d + c) fun x => { x with binding := b }) s

theorem bindCores_rest (s : State) (d : Nat) (b : Option QBinding) (cs : List Nat) :
    bindCores s d b cs = { s with cores := (bindCores s d b cs).cores } :=
  List.foldlRecOn (motive := fun u : State => u = { s with cores := u.cores }) cs _ rfl fun _ hu _ _ => by rw [hu]; rfl

theorem core_bindCores_other (s : State) {d : Nat} (b : Option QBinding) {cs : List Nat} {n : Nat} (h : ∀ c ∈ cs, n ≠ 64 * d + c) :
    core (bindCores s d b cs) n = core s n :=
  List.foldlRecOn (motive := fun u : State => core u n = core s n) cs _ rfl fun u hu c hc =>
    (core_modCore_other u _ (h c hc)).trans hu

theorem binding_bindCores (s : State) (d : Nat) (b : Option QBinding) {cs : List Nat} {c : Nat} (h : c ∈ cs) :
    (core (bindCores s d b cs) (64 * d + c)).binding = b := by
  induction cs generalizing s with
  | nil => cases h
  | cons c' cs ih =>
    by_cases hc : c ∈ cs
    · exact ih _ hc
    · obtain rfl : c = c' := (List.mem_cons.1 h).resolve_right hc
      have hlast : core (bindCores s d b (c :: cs)) (64 * d + c) =
          core (modCore s (64 * d + c) fun x => { x with binding := b }) (64 * d + c) :=
        core_bindCores_other (n := 64 * d + c) _ b fun e he heq => hc (Nat.add_left_cancel heq ▸ he)
      rw [hlast, core_modCore_same]

section
variable {s : State} {k : Nat} {w : Wide} (hk : s.cur.keys = [k])
  (hheld : (src (thr s k) w.s1).toNat % 64 = 0 → recordHeld s k (src (thr s k) w.s1).toNat 64 = none)
include hk hheld

theorem exec_qbind_refused (hc : bindCheck s (partOf s k) (src (thr s k) w.s1) ≠ 0) :
    exec (.qbind w) s = .next (modThr s k (endWord w (stw (bindCheck s (partOf s k) (src (thr s k) w.s1))))) := by
  have hnone := ite_eq_right_iff.2 hheld
  rw [exec_one (f := qbindOne w) rfl hk]
  simp only [qbindOne, hnone, if_pos hc, if_neg hc]

theorem exec_qbind_binds {l : List Word} (hl : rdWords s (src (thr s k) w.s1).toNat 8 = l)
    (hc : bindCheck s (partOf s k) (src (thr s k) w.s1) = 0) :
    exec (.qbind w) s = .next (modThr (bindCores s (bits (dw l 2) 11 10) (bindingOf s k l)
      ((List.range 64).filter fun n => bit (dw l 3) n)) k (endWord w 0)) := by
  have hnone := ite_eq_right_iff.2 hheld
  rw [exec_one (f := qbindOne w) rfl hk]
  simp only [qbindOne, hnone, hl, hc, ne_eq, not_true_eq_false, if_false, if_true]
  rfl

end

/-! DISPATCH (R211, R502). -/

/-- The package once a task thread of a popped record stands in a slot of a core. -/
def startTask (s : State) (c k : Nat) (b : QBinding) (r : List Word) : State :=
  let u := newTid s b.part
  let v := modCore u.2 c fun x => { x with nextDispatch := u.2.cycle + 8 }
  setThr v k (taskThread v k u.1 b r)

theorem startTask_mem (s : State) (c k : Nat) (b : QBinding) (r : List Word) : (startTask s c k b r).mem = s.mem := rfl

theorem startTask_nextDispatch (s : State) (c k : Nat) (b : QBinding) (r : List Word) :
    (core (startTask s c k b r) c).nextDispatch = s.cycle + 8 := by
  dsimp only [startTask]
  rw [core_setThr, core_modCore_same]
  rfl

/-- What a task thread starts with (R211). -/
theorem thr_startTask (s : State) (c k : Nat) (b : QBinding) (r : List Word) :
    let u := thr (startTask s c k b r) k
    u.pc = dw r 0 ∧ getReg u 10 = dw r 1 ∧ getReg u 11 = dw r 2 ∧ getReg u 12 = dw r 3 ∧ u.st = .ready ∧ u.task = true ∧
      u.satp = b.satp ∧ u.part = b.part ∧ u.team = 0 := by
  dsimp only [startTask]
  rw [thr_setThr_same]
  refine ⟨rfl, ?_, ?_, ?_, rfl, rfl, rfl, rfl, rfl⟩ <;> simp [taskThread, getReg, mget_mset]

section
variable {s s1 : State} {c k : Nat} {b : QBinding} {rest : List Nat} (hb : (core s c).binding = some b) (hi : idleSlots s c = k :: rest)
  (hs : b.suspended = false) (hn : (core s c).nextDispatch ≤ s.cycle) (ht : tasksOf s c < b.tmax)
include hb hi hs hn ht

theorem exec_dispatch_stops {cause : Nat} {addr : Word} (he : examine s (dispatchCtx s c b) b.qva = (.stop cause addr, s1)) :
    exec (.dispatch c) s = .next (postFault (modCore s1 c fun x => { x with binding := some { b with suspended := true } }) b.part
      (faultRecord 7 false false false false cause 0 0 0 addr (w64 (c / 64 * 2 ^ 20 + c % 64 * 2 ^ 14 + c % 64 / 4 * 2 ^ 10)) b.qva
        (asidOf b.satp) 0 0)) := by
  change execDispatch c s = _
  simp only [execDispatch, hb, hi, hs, Nat.not_lt.2 hn, Nat.not_le.2 ht, he, decide_false, Bool.or_self,
    Bool.false_eq_true, if_false]

theorem exec_dispatch_starts {pa rpa : Nat} {r : List Word} (he : examine s (dispatchCtx s c b) b.qva = (.record pa rpa r, s1)) :
    exec (.dispatch c) s = .next (startTask (popAt s1 hwKey pa rpa r) c k b r) := by
  change execDispatch c s = _
  simp only [execDispatch, hb, hi, hs, Nat.not_lt.2 hn, Nat.not_le.2 ht, he, decide_false, Bool.or_self, Bool.false_eq_true, if_false]
  rfl

end

/-- Settles O35: a `qbind` binds the cores of its mask one by one, or none; DISPATCH pops what the examination finds, which touches
neither threads nor postings. -/
theorem tasksStart : Obligations.TasksStart := by
  refine ⟨?_, ?_⟩
  · intro s k w hk _ a c l d hheld
    refine ⟨fun hc => ⟨_, exec_qbind_refused hk hheld hc, onlyThreads_setThr .., endsWith_modThr w _ rfl⟩, fun hc => ?_⟩
    · have hexec := exec_qbind_binds (l := l) hk hheld rfl hc
      have hrest := bindCores_rest s d (bindingOf s k l) ((List.range 64).filter fun n => bit (dw l 3) n)
      have hmask : ∀ n, n ∈ (List.range 64).filter (fun n => bit (dw l 3) n) ↔ n < 64 ∧ bit (dw l 3) n = true := by simp
      generalize hcs : (List.range 64).filter (fun n => bit (dw l 3) n) = cs at hexec hrest hmask
      refine ⟨_, hexec, endsWith_modThr w _ (by rw [hrest]; rfl), keepsMemory_of_mem (by rw [modThr_mem, hrest]), fun j hj => ?_,
        fun n hn hbit => ?_, fun n hn => ?_⟩
      · rw [slot_modThr_other _ _ hj, hrest]
      · rw [core_modThr, binding_bindCores s d _ ((hmask n).2 ⟨hn, hbit⟩)]
        rfl
      · rw [core_modThr]
        refine core_bindCores_other s _ fun e he heq => ?_
        obtain ⟨h64, hbit⟩ := (hmask e).1 he
        rw [heq, Nat.add_sub_cancel_left] at hn
        simp only [hbit, Bool.true_eq_false, or_false] at hn
        omega
  · intro s c b k rest s1 hb hi hs hn ht
    have hkeep := accessKeeps_examine s (dispatchCtx s c b) b.qva
    refine ⟨fun pa rpa r he => ?_, fun cause addr he hcause => ?_⟩
    · have hmem := startTask_mem (popAt s1 hwKey pa rpa r) c k b r
      refine ⟨_, exec_dispatch_starts hb hi hs hn ht he, thr_startTask .., ?_, fun hapart => ?_, ?_, fun a ha ha' => ?_⟩
      · exact (rdWord_congr hmem _).trans (rdWord_popAt_head ..)
      · exact (rdWord_congr hmem _).trans (rdWord_popAt_free _ _ _ hapart)
      · rw [startTask_nextDispatch, popAt_cycle]
      · rw [hmem, byte_popAt_outside _ _ _ ha ha']
    · rw [he] at hkeep
      obtain ⟨hkind, hcode⟩ := faultRecord_head 7 false false false false cause 0 0 0 addr
        (w64 (c / 64 * 2 ^ 20 + c % 64 * 2 ^ 14 + c % 64 / 4 * 2 ^ 10)) b.qva (asidOf b.satp) 0 0 (by decide)
      refine ⟨_, exec_dispatch_stops hb hi hs hn ht he, hkeep.threads, rfl, ?_, _, ?_, hkind, hcode.trans (Nat.mod_eq_of_lt hcause),
        rfl, rfl⟩
      · rw [postFault, core_modPart, core_modCore_same]
      · rw [postFault, part_modPart_same, part_modCore, part_congr hkeep.parts]

end Sys2Proof.Machine
end

section
/-! `jinit`, `tend` and the push of a join block's record (R213-R215). -/

namespace Sys2Proof.Machine

/-! `jinit` of one thread or hart (R214). -/

section
variable {s s1 : State} {k pa : Nat} {w : Wide} (hk : s.cur.keys = [k]) (hh : (thr s k).helper = false)
  (hq : qOperand s k (src (thr s k) w.s1) 64 64 .store = (.ok pa, s1))
include hk hh hq

theorem exec_jinit_badCount (hn : src (thr s k) w.s2 = 0 ∨ bit (src (thr s k) w.s2) 63 = true) :
    exec (.jinit w) s = .next (modThr s1 k (endWord w (stw 3))) := by
  have hbad : (decide (src (thr s k) w.s2 = 0) || bit (src (thr s k) w.s2) 63) = true := by simpa using hn
  rw [exec_one (f := jinitOne w) rfl hk]
  simp only [jinitOne, hh, hq, hbad, Bool.false_eq_true, if_false, if_true]

/-- The block with its COUNT and QUEUE, and no error. -/
theorem exec_jinit_writes (h0 : src (thr s k) w.s2 ≠ 0) (h63 : bit (src (thr s k) w.s2) 63 = false) :
    exec (.jinit w) s = .next (modThr (wrBytes (wrBytes s1 k pa ([src (thr s k) w.s2, src (thr s k) w.s3].flatMap fun v =>
      toBytes 8 v.toNat)) k (pa + 48) (toBytes 8 (0 : Word).toNat)) k (endWord w 0)) := by
  rw [exec_one (f := jinitOne w) rfl hk]
  simp only [jinitOne, hh, hq, h0, h63, Bool.false_eq_true, if_false, decide_false, Bool.or_self]
  rfl

end

/-- The block as `jinit` leaves it. -/
theorem blockWritten (u : State) (k pa : Nat) (n q : Word) (f : Thread → Thread) :
    let t := modThr (wrBytes (wrBytes u k pa ([n, q].flatMap fun v => toBytes 8 v.toNat)) k (pa + 48) (toBytes 8 (0 : Word).toNat)) k f
    rdWord t pa = n ∧ rdWord t (pa + 8) = q ∧ rdWord t (pa + 48) = 0 ∧
      ∀ a, (a < pa ∨ pa + 16 ≤ a) → (a < pa + 48 ∨ pa + 56 ≤ a) → Memory.byte t.mem a = Memory.byte u.mem a := by
  have hlen : ([n, q].flatMap fun v => toBytes 8 v.toNat).length = 16 := flatMap_toBytes_length _
  have hword : ∀ i < 2, _ := fun i => rdWord_wrBytes_words u k pa [n, q] (i := i)
  intro t
  simp only [t, rdWord_modThr, modThr_mem]
  refine ⟨?_, ?_, rdWord_wrBytes_same .., fun a ha ha' => ?_⟩
  · rw [rdWord_wrBytes_apart _ _ _ _ (by omega)]
    exact hword 0 (by decide)
  · rw [rdWord_wrBytes_apart _ _ _ _ (by omega)]
    exact hword 1 (by decide)
  · rw [byte_wrBytes_outside _ _ _ _ (by rw [toBytes_length]; omega), byte_wrBytes_outside _ _ _ _ (by rw [hlen]; omega)]

/-! The push of a block's record (R215). -/

/-- A reservation that is refused counts so, and nothing goes on. -/
theorem accessKeeps_of_reserve {s t : State} {k pa : Nat} (h : reserve s k pa 1 = (none, t)) : AccessKeeps s t := by
  cases hf : ringFull (headerAt s pa) 1
  · rw [reserve_fits k hf] at h
    cases h
  · rw [reserve_full k hf] at h
    cases h
    exact ⟨rfl, rfl⟩

/-- What an attempt to push leaves of the thread that makes it: everything where it is to be made again, and what the thread is. -/
structure PushKeeps (s : State) (k : Nat) (x : Bool × State) : Prop where
  again : x.1 = false → AccessKeeps s x.2
  kind : (thr x.2 k).helper = (thr s k).helper ∧ (thr x.2 k).task = (thr s k).task

section
variable {s t : State} (h : AccessKeeps s t) (k : Nat)
include h

theorem AccessKeeps.pushAgain : PushKeeps s k (false, t) where
  again _ := h
  kind := by rw [h.thr]; exact ⟨rfl, rfl⟩

theorem AccessKeeps.pushOver (a : Nat) (bs : List Byte) : PushKeeps s k (true, wrBytes t k a bs) where
  again := nofun
  kind := by rw [thr_wrBytes, h.thr]; exact ⟨rfl, rfl⟩

end

theorem pushKeeps_pushOne (s : State) (k j : Nat) : PushKeeps s k (pushOne s k j) := by
  dsimp only [pushOne]
  split
  · exact (AccessKeeps.refl s).pushAgain k
  split
  · exact (AccessKeeps.refl s).pushOver k _ _
  split
  case h_1 hq =>
    have hu := accessKeeps_of_qPlace hq
    split
    · exact hu.pushAgain k
    · exact hu.pushOver k _ _
  case h_2 pa u hq =>
    have hu := accessKeeps_of_qPlace hq
    split
    · exact hu.pushOver k _ _
    have hpages := accessKeeps_ringPages u (ctxOf s k .store) (ringBases (headerAt u pa))
    split
    case h_1 hring =>
      rw [hring] at hpages
      split
      · exact (hu.trans hpages).pushAgain k
      · exact (hu.trans hpages).pushOver k _ _
    case h_2 v hring =>
      rw [hring] at hpages
      have hv := hu.trans hpages
      split
      case h_1 hplace =>
        have hy := hv.trans (accessKeeps_of_qPlace hplace)
        split
        · exact hy.pushAgain k
        · exact hy.pushOver k _ _
      case h_2 rpa y hplace =>
        have hy := hv.trans (accessKeeps_of_qPlace hplace)
        have hkind := thr_reserve_kind y k pa k
        rw [hy.thr] at hkind
        split
        · next hfull => exact ⟨fun _ => hy.trans (accessKeeps_of_reserve hfull), by rwa [hfull] at hkind⟩
        · next hfits => exact ⟨nofun, by rw [hfits] at hkind; rwa [thr_wrBytes]⟩

/-! `tend` of a task thread on a SIMT core (R215). -/

theorem occupied_of_task {s : State} {k : Nat} (h : (thr s k).task = true) : occupied s k = true := by
  by_contra ho
  rw [thr, occupied_false.1 (Bool.eq_false_iff.2 ho)] at h
  cases h

/-- A task thread that ends leaves its slot and nothing but the note of its end. -/
theorem endThread_task_eq {s : State} {k : Nat} (v : Word) (hh : (thr s k).helper = false) (ht : (thr s k).task = true) :
    endThread s k v = dropThr (noteEnded { s with resvs := s.resvs.filter fun r => r.1 ≠ k } (thr s k).part [thr s k]) k := by
  simp only [endThread, hh, ht, Bool.false_eq_true, if_false, if_true]

theorem tendEnd_simt {s : State} {k : Nat} (hk : isSimt k = true) : tendEnd s k = endThread s k 0 := by
  rw [tendEnd, isHart_of_isSimt hk, if_neg Bool.false_ne_true]

/-- The end of a task thread by `tend`. -/
theorem tendEnd_task {s : State} {k : Nat} (hk : isSimt k = true) (hh : (thr s k).helper = false) (ht : (thr s k).task = true) :
    let t := tendEnd s k
    occupied t k = false ∧ t.mem = s.mem ∧ (∀ j, j ≠ k → mget? t.threads j = mget? s.threads j) ∧
      ∃ e ∈ (part t (thr s k).part).ended, e.tid = (thr s k).tid := by
  rw [tendEnd_simt hk, endThread_task_eq 0 hh ht]
  refine ⟨occupied_false.2 (mget?_mdel_same ..), rfl, fun j hj => mget?_mdel_other _ hj, ?_⟩
  rw [part_dropThr, noteEnded, part_modPart_same]
  exact ⟨_, List.mem_cons_self .., rfl⟩

/-- The same, once a doubleword of the block is written. -/
theorem tendEnd_counted {s : State} {k : Nat} (a : Nat) (v : Word) (hk : isSimt k = true) (hh : (thr s k).helper = false)
    (ht : (thr s k).task = true) :
    let t := tendEnd (wrBytes s k a (toBytes 8 v.toNat)) k
    occupied t k = false ∧ rdWord t a = v ∧ ∀ b, b < a ∨ a + 8 ≤ b → Memory.byte t.mem b = Memory.byte s.mem b := by
  obtain ⟨hfree, hmem, -⟩ := tendEnd_task (s := wrBytes s k a (toBytes 8 v.toNat)) hk (by rwa [thr_wrBytes]) (by rwa [thr_wrBytes])
  exact ⟨hfree, by rw [rdWord_congr hmem, rdWord_wrBytes_same],
    fun b hb => by rw [hmem, byte_wrBytes_outside _ _ _ _ (by rwa [toBytes_length])]⟩

section
variable {s : State} {k : Nat} {w : Wide} (hc : s.cur.keys = [k]) (hh : (thr s k).helper = false) (ht : (thr s k).task = true)
include hc hh ht

theorem exec_tend_unjoined (hj : src (thr s k) w.s1 = 0) : exec (.tend w) s = .next (tendEnd s k) := by
  rw [exec_one (f := fun s k => if occupied s k || isHart k then tendOne w s k else s) rfl hc]
  simp only [occupied_of_task ht, Bool.true_or, if_true, tendOne, hh, hj, Bool.false_eq_true, if_false]

section
variable {pa : Nat} {s1 s2 : State} (hj : src (thr s k) w.s1 ≠ 0)
  (hq : qOperand s k (src (thr s k) w.s1) 64 64 .store = (.ok pa, s1))
include hj hq

theorem exec_tend_ends (hcount : joinCount s1 k pa = (false, s2)) : exec (.tend w) s = .next (tendEnd s2 k) := by
  rw [exec_one (f := fun s k => if occupied s k || isHart k then tendOne w s k else s) rfl hc]
  simp only [occupied_of_task ht, Bool.true_or, if_true, tendOne, hh, hj, hq, hcount, Bool.false_eq_true, if_false]

theorem exec_tend_pushes (hcount : joinCount s1 k pa = (true, s2)) :
    exec (.tend w) s = .next (tendPush (modThr s2 k fun t => { t with wus := 0 }) k pa) := by
  rw [exec_one (f := fun s k => if occupied s k || isHart k then tendOne w s k else s) rfl hc]
  simp only [occupied_of_task ht, Bool.true_or, if_true, tendOne, hh, hj, hq, hcount, Bool.false_eq_true, if_false]

end
end

theorem joinCount_done {s : State} {pa : Nat} (k : Nat) (h : rdWord s pa = 0) :
    joinCount s k pa = (false, wrBytes s k (pa + 48) (toBytes 8 (1 : Word).toNat)) := by
  simp only [joinCount, h, if_true]
  rfl

theorem joinCount_counts {s : State} {pa : Nat} (k : Nat) (h0 : rdWord s pa ≠ 0) (h1 : rdWord s pa ≠ 1) :
    joinCount s k pa = (false, wrBytes s k pa (toBytes 8 (rdWord s pa - 1).toNat)) := by
  simp only [joinCount, h0, h1, if_false, decide_false]

theorem joinCount_last {s : State} {pa : Nat} (k : Nat) (h : rdWord s pa = 1) :
    joinCount s k pa = (true, wrBytes s k pa (toBytes 8 (0 : Word).toNat)) := by
  simp [joinCount, h]

/-- A push that is over ends its thread; one that is not leaves it waiting for 64 cycles. -/
theorem tendPush_spec {s s1 : State} {k j : Nat} {done : Bool} (hk : isSimt k = true) (hh : (thr s k).helper = false)
    (ht : (thr s k).task = true) (hp : pushOne s k j = (done, s1)) :
    (tendPush s k j).mem = s1.mem ∧ (done = true → occupied (tendPush s k j) k = false) ∧
      (done = false → thr (tendPush s k j) k =
        { thr s1 k with st := .blocked, wait := .pushRetry (w64 j), holdTill := some (s1.cycle + 64) }) := by
  have hkind := (pushKeeps_pushOne s k j).kind
  rw [hp] at hkind
  cases done
  · have htend : tendPush s k j = modThr s1 k fun t =>
        { t with st := if isSimt k then .blocked else t.st, wait := .pushRetry (w64 j), holdTill := some (s1.cycle + 64) } := by
      simp only [tendPush, hp]
    rw [htend]
    refine ⟨rfl, nofun, fun _ => ?_⟩
    rw [thr_modThr_same, if_pos hk]
  · have htend : tendPush s k j = tendEnd (modThr s1 k fun t => { t with wait := .none, holdTill := none }) k := by
      simp only [tendPush, hp]
    obtain ⟨hfree, hmem, -⟩ := tendEnd_task (s := modThr s1 k fun t => { t with wait := .none, holdTill := none }) hk
      (by rw [thr_modThr_same]; exact hkind.1.trans hh) (by rw [thr_modThr_same]; exact hkind.2.trans ht)
    rw [htend]
    exact ⟨hmem, fun _ => hfree, nofun⟩

theorem exec_joinPushRetry {s : State} {k : Nat} {j : Word} (hw : (thr s k).wait = .pushRetry j) (hst : (thr s k).st = .blocked)
    (hd : (thr s k).holdTill = some s.cycle) : exec (.joinPushRetry k) s = .next (tendPush s k j.toNat) := by
  change execJoinPushRetry k s = _
  simp [execJoinPushRetry, hw, hst, hd]

/-- Settles O36: `jinit` writes its doublewords; a `tend` ends its thread, at once or after the block's record is pushed; a push that is
to be made again has changed nothing of the thread. -/
theorem joinBlocks : Obligations.JoinBlocks := by
  refine ⟨?_, ?_, ?_⟩
  · intro s k w pa s1 hk _ hh hq n
    have hkeep := accessKeeps_of_qOperand hq
    refine ⟨fun hn => endsOnly hkeep (exec_jinit_badCount hk hh hq hn), fun h0 h63 => ?_⟩
    exact ⟨_, exec_jinit_writes hk hh hq h0 h63, endsWith_modThr w _ (hkeep.thr k), blockWritten ..⟩
  · intro s k w hc hk hh ht _
    refine ⟨fun hj => ?_, fun hj pa s1 hq => ?_⟩
    · obtain ⟨hfree, hmem, hother, hended⟩ := tendEnd_task hk hh ht
      exact ⟨_, exec_tend_unjoined hc hh ht hj, hfree, keepsMemory_of_mem hmem, hother, hended⟩
    · intro n
      have hkeep := accessKeeps_of_qOperand hq
      have hh1 : (thr s1 k).helper = false := by rwa [hkeep.thr]
      have ht1 : (thr s1 k).task = true := by rwa [hkeep.thr]
      refine ⟨fun h0 => ?_, fun h0 h1 => ?_, fun h1 done s2 hp => ?_⟩
      · exact ⟨_, exec_tend_ends hc hh ht hj hq (joinCount_done k h0), tendEnd_counted (pa + 48) 1 hk hh1 ht1⟩
      · exact ⟨_, exec_tend_ends hc hh ht hj hq (joinCount_counts k h0 h1), tendEnd_counted pa (n - 1) hk hh1 ht1⟩
      · rw [joinCount_last k h1] at hp
        obtain ⟨hmem, hover, hagain⟩ := tendPush_spec hk (by rwa [thr_modThr_same, thr_wrBytes])
          (by rwa [thr_modThr_same, thr_wrBytes]) hp
        refine ⟨_, exec_tend_pushes hc hh ht hj hq (joinCount_last k h1), hmem, hover, fun hdone => ?_⟩
        rw [hagain hdone]
        exact ⟨rfl, rfl, rfl⟩
  · intro s k j done s1 hk hh ht _ hw hst hd hp
    obtain ⟨hmem, hover, hagain⟩ := tendPush_spec hk hh ht hp
    refine ⟨_, exec_joinPushRetry hw hst hd, hmem, hover, fun hdone => ?_⟩
    have hsame := (pushKeeps_pushOne s k j.toNat).again
    rw [hp] at hsame
    have hthr := (hsame hdone).thr k
    have hj : w64 j.toNat = j := by simp [w64]
    rw [hagain hdone, hthr, hj, ← hst, ← hw]
    exact ⟨rfl, rfl⟩

end Sys2Proof.Machine
end

section
/-! Words of one thread that give a result or start a wait (R225, R235). -/

namespace Sys2Proof.Machine

/-- A thread on a SIMT core that starts to wait is blocked, at its instruction. -/
theorem blockOn_simt {k : Nat} (hk : isSimt k = true) (s : State) (w : Wide) (wt : Wait) :
    OnlyThreads [k] s (blockOn s k w wt) ∧ (thr (blockOn s k w wt) k).wait = wt ∧ (thr (blockOn s k w wt) k).st = .blocked ∧
      (thr (blockOn s k w wt) k).pc = (thr s k).pc ∧ KeepsRegs [] (thr s k) (thr (blockOn s k w wt) k) := by
  obtain ⟨hwait, hpc, hregs⟩ := blockOn_thread s k w wt
  refine ⟨onlyThreads_setThr .., hwait, ?_, hpc, hregs⟩
  rw [blockOn, thr_modThr_same]
  exact if_pos hk

/-- A sync word that gives its result and does no more. -/
theorem ends_result {s : State} {k : Nat} {w : Wide} {v : Word} {i : Instr} (he : exec i s = .next (result s k w v)) :
    ∃ t, exec i s = .next t ∧ OnlyThreads [k] s t ∧ EndsWith w v (thr s k) (thr t k) := endsOnly (.refl s) he

/-- The end of a word leaves the thread's wait. -/
@[simp] theorem endWord_wait (w : Wide) (v : Word) (t : Thread) : (endWord w v t).wait = t.wait := by rw [endWord_rest]

end Sys2Proof.Machine
end

section
/-! `drain` and the hang watchdog (R233-R235). -/

namespace Sys2Proof.Machine

section
variable {s : State} {k : Nat} {w : Wide} (hc : s.cur.keys = [k]) (hh : (thr s k).helper = false)
include hc hh

theorem exec_drain_none (h : drainSet s k w.fn.toNat = ([], [], [])) : exec (.drain w) s = .next (result s k w 0) := by
  rw [exec_one (f := drainOne w) rfl hc]
  simp only [drainOne, hh, h, Bool.false_eq_true, if_false]

theorem exec_drain_waits {cs rs ls : List Nat} (h : drainSet s k w.fn.toNat = (cs, rs, ls)) (hne : (cs, rs, ls) ≠ ([], [], [])) :
    exec (.drain w) s = .next (blockOn s k w (.drain w.fn.toNat cs rs ls)) := by
  rw [exec_one (f := drainOne w) rfl hc]
  simp only [drainOne, hh, h, Bool.false_eq_true, if_false]
  split
  · next heq => exact absurd heq hne
  · next heq => cases heq; rfl

end

/-! The word that a thread waits in. -/

theorem gather_head_addr (s : State) (k : Nat) (pc : Word) (first : Bool) (n : Nat) :
    ∀ w ∈ (gather s k pc first n).1.1.head?, w.addr = pc := by
  cases n with
  | zero => exact nofun
  | succ n =>
    intro w hw
    unfold gather at hw
    split at hw
    · cases hw
    · dsimp only at hw
      split at hw
      · cases hw
      · split at hw <;> (cases hw; rfl)

/-- What a thread outside a chain is to issue begins where the words gathered at its pc begin. -/
theorem head?_wordsOf {t : Thread} (h : t.chain.words = []) (ws : List RawWord) (e : ChainEnd) :
    (wordsOf t ws e).1.head? = ws.head? := by
  have hn : 8 - min t.chain.pos 7 ≠ 0 := by omega
  simp only [wordsOf, h]
  split
  · rw [List.head?_take, if_neg hn]
  · rfl

/-- A thread that waits at a queue outside a chain waits in the word at its pc. -/
theorem waitingWord_addr {s : State} {k pa : Nat} (hw : (thr s k).wait = .queue pa) (hc : (thr s k).chain.words = []) :
    (waitingWord s k).addr = (thr s k).pc := by
  have hword : waitingWord s k = (chainAt s k).1.1.headD ⟨(thr s k).pc, 0, 8⟩ := by simp only [waitingWord, hw]
  have hhead : (chainAt s k).1.1.head? = (gather s k (thr s k).pc true (8 - min (thr s k).chain.pos 7)).1.1.head? := by
    simp only [chainAt, hc]
    exact head?_wordsOf hc ..
  rw [hword, List.headD_eq_head?_getD, hhead]
  cases h : (gather s k (thr s k).pc true (8 - min (thr s k).chain.pos 7)).1.1.head? with
  | none => rfl
  | some w => exact gather_head_addr _ _ _ _ _ w h

/-! WATCHDOG_EXPIRY (R234). -/

theorem exec_watchdogExpiry_early {s : State} {k : Nat}
    (h : (thr s k).wus < max 1 (bits (part s (thr s k).part).wdog 31 0)) : exec (.watchdogExpiry k) s = .next s := by
  change execWatchdogExpiry k s = _
  simp only [execWatchdogExpiry, decide_eq_false h.not_ge, Bool.and_false, Bool.false_eq_true, if_false]

theorem exec_watchdogExpiry_due {s : State} {k : Nat} (hk : isSimt k = true) (hw : watched s (thr s k) = true)
    (hlim : max 1 (bits (part s (thr s k).part).wdog 31 0) ≤ (thr s k).wus) (hen : bit (part s (thr s k).part).wdog 63 = true)
    (hh : (thr s k).helper = false) :
    exec (.watchdogExpiry k) s = .next (raiseTrap (abandonWait s k) k
      { code := 0x14, insn := (waitingWord s k).bits, addr := (waitingWord s k).addr } .load) := by
  change execWatchdogExpiry k s = _
  simp only [execWatchdogExpiry, hk, hw, hen, decide_eq_true hlim, hh, Bool.and_self, if_true, Bool.false_eq_true, if_false]

/-- A thread that abandons its wait at a queue leaves nothing behind. -/
theorem abandonWait_queue {s : State} {k pa : Nat} (hw : (thr s k).wait = .queue pa) (hb : (thr s k).st = .blocked) :
    abandonWait s k = setThr s k { thr s k with st := .ready, wait := .none, wus := 0, age := s.cycle } := by
  simp [abandonWait, modThr, hw, hb]

theorem blocked_of_watched {s : State} {t : Thread} (h : watched s t = true) : t.st = .blocked := by
  simp only [watched, Bool.and_eq_true, decide_eq_true_eq] at h
  exact h.1.1

/-- A thread whose record is `u`, with nothing issued, takes a cause in its handler (R433, R437). -/
theorem raiseTrap_setThr_user (s : State) {k : Nat} {u : Thread} {tr : Trap} (a : Acc) (hk : isSimt k = true) (hh : u.helper = false)
    (hi : u.trap.inh = false) (hv : u.trap.hvec ≠ 0) (ho : u.ops = []) (hr : routesUser tr.code = true) (hp : tr.priv = false)
    (hd : tr.dec = none) (hrace : tr.hrace = none) (hlace : tr.hlace = none) :
    let t := raiseTrap (setThr s k u) k tr a
    OnlyThreads [k] s t ∧ (thr t k).pc = u.trap.hvec ∧ (thr t k).wait = .none ∧ (thr t k).st = .ready ∧
      (thr t k).trap.hcause = w64 tr.code ∧ (thr t k).trap.hepc = u.pc ∧ (thr t k).trap.hdec2 = tr.addr ∧
      KeepsRegs [] u (thr t k) := by
  obtain ⟨htrap, hpc, -, hregs⟩ := enterHandler_noOps (tr := tr) ho hd hrace hlace
  obtain ⟨hst, hwait, -⟩ := enterHandler_ready (tr := tr) ho hd hrace hlace
  have hthr := thr_setThr_same s k u
  intro t
  have ht : t = setThr (setThr s k u) k { enterHandler tr u with age := s.cycle } := by
    rw [show t = raiseTrap (setThr s k u) k tr a from rfl,
      raiseTrap_user a hk (by rwa [hthr]) (by rwa [hthr]) (by rwa [hthr]) hr hp, hthr]
    rfl
  rw [ht, thr_setThr_same]
  exact ⟨onlyThreads_setThr_setThr .., hpc, hwait, hst, congrArg TrapState.hcause htrap, congrArg TrapState.hepc htrap,
    congrArg TrapState.hdec2 htrap, fun n _ => hregs n⟩

/-- Settles O39: an operation of FN is outstanding or none is; the watchdog's thread leaves its wait (`abandonWait_queue`) and enters its
handler with the word that it waited in (`waitingWord_addr`). -/
theorem drainAndWatchdog : Obligations.DrainAndWatchdog := by
  refine ⟨fun s k w hc hk hh => ⟨fun h => ends_result (exec_drain_none hc hh h), fun cs rs ls h hne =>
    ⟨_, exec_drain_waits hc hh h hne, blockOn_simt hk s w _⟩⟩, fun s k hk hw => ⟨exec_watchdogExpiry_early, ?_⟩⟩
  rintro hlim hen ⟨pa, hq⟩ hh hchain hv hi hops
  have hb := blocked_of_watched hw
  have hexec := exec_watchdogExpiry_due hk hw hlim hen hh
  rw [abandonWait_queue hq hb] at hexec
  obtain ⟨honly, hpc, hwait, hst, hcause, hepc, hdec2, hregs⟩ := raiseTrap_setThr_user s (k := k)
    (u := { thr s k with st := .ready, wait := .none, wus := 0, age := s.cycle })
    (tr := { code := 0x14, insn := (waitingWord s k).bits, addr := (waitingWord s k).addr }) .load hk hh hi hv hops rfl rfl rfl rfl rfl
  exact ⟨_, hexec, honly, hpc, hwait, hst, hcause, hepc, hdec2.trans (waitingWord_addr hq hchain), hregs⟩

end Sys2Proof.Machine
end

section
/-! Sync entries (R218-R226): an instruction on one entry of the issuer's team, the team's record once an entry is set, and waits that
end. -/

namespace Sys2Proof.Machine

/-! The issuer's team and entry (R225). -/

theorem team?_self {s : State} {p asid num : Nat} {m : Team} (h : team? s p asid num = some m) :
    team? s m.part m.asid m.num = some m := by
  have hm := List.find?_some h
  simp only [Bool.and_eq_true, decide_eq_true_eq] at hm
  obtain ⟨⟨hp, ha⟩, hn⟩ := hm
  rwa [hp, ha, hn]

theorem team?_of_teamK? {s : State} {k : Nat} {m : Team} (h : teamK? s k = some m) : team? s m.part m.asid m.num = some m :=
  team?_self (teamK?_eq_some.1 h).2

section
variable {s : State} {k : Nat} {w : Wide} (hh : (thr s k).helper = false)
include hh

theorem onEntry_absent (h : ∀ m, teamK? s k = some m → m.desc.syncs ≤ entryNo w) (f : Team → SyncEntry → State) :
    onEntry w s k f = result s k w (stw 2) := by
  simp only [onEntry, hh, Bool.false_eq_true, if_false]
  split
  · rfl
  · next m hm => exact if_pos (h m hm)

theorem onEntry_present {m : Team} (hm : teamK? s k = some m) (hn : entryNo w < m.desc.syncs) (f : Team → SyncEntry → State) :
    onEntry w s k f = f m (syncOf m (entryNo w)) := by
  simp only [onEntry, hh, hm, Bool.false_eq_true, if_false]
  exact if_neg hn.not_ge

/-- Every sync instruction on an entry of the issuer's team ends with status 2 where there is none. -/
theorem exec_sync_absent (hk : s.cur.keys = [k]) (h : ∀ m, teamK? s k = some m → m.desc.syncs ≤ entryNo w) {i : Instr}
    (hi : i ∈ [Instr.syinit w, .semacq w, .semtry w, .barrive w, .bwait w, .bexpect w, .barw w]) :
    exec i s = .next (result s k w (stw 2)) := by
  obtain ⟨f, hf⟩ : ∃ f : State → Nat → Team → SyncEntry → State,
      exec i s = .next (forKeys s fun s k => onEntry w s k (f s k)) := by
    fin_cases hi <;> exact ⟨_, rfl⟩
  rw [exec_one hf hk, onEntry_absent hh h]

end

/-! An entry of a team that is set. -/

/-- A team with one of its entries set. -/
def withEntry (m : Team) (n : Nat) (e : SyncEntry) : Team := { m with syncs := mset {} m.syncs n e }

@[simp] theorem syncOf_withEntry_same (m : Team) (n : Nat) (e : SyncEntry) : syncOf (withEntry m n e) n = e := mget_mset_same ..

theorem syncOf_withEntry_other (m : Team) {n j : Nat} (e : SyncEntry) (h : j ≠ n) : syncOf (withEntry m n e) j = syncOf m j :=
  mget_mset_other _ _ _ h

theorem setSync_eq (s : State) (p asid num n : Nat) (e : SyncEntry) :
    setSync s p asid num n e = modTeam s p asid num fun m => withEntry m n e := rfl

section
variable {s : State} {p asid num : Nat} {m : Team} (hm : team? s p asid num = some m)
include hm

theorem team?_setSync (n : Nat) (e : SyncEntry) : team? (setSync s p asid num n e) p asid num = some (withEntry m n e) := by
  rw [setSync_eq, team?_modTeam s (f := fun m => withEntry m n e) fun _ => ⟨rfl, rfl, rfl⟩, hm]
  rfl

theorem syncOf_setSync_same (n : Nat) (e : SyncEntry) : syncOf (team (setSync s p asid num n e) p asid num) n = e := by
  rw [team_of_team? (team?_setSync hm n e), syncOf_withEntry_same]

end

/-! Waits that end with a result. -/

/-- A blocked thread has left its wait, whose word has ended with a result. -/
structure LeavesWait (v : Word) (a b : Thread) : Prop where
  st : b.st = .ready
  wait : b.wait = .none
  ends : EndsWith a.ww v a b

/-- A wait whose word is still to pass (any but what is left of a `barw`, R232) ends with it. -/
theorem finishWait_leaves {s : State} {k : Nat} {a : Thread} (v : Word) (ha : thr s k = a) (hb : a.st = .blocked)
    (hw : ∀ n x, a.wait ≠ .barrier n x 2) : LeavesWait v a (thr (finishWait s k v) k) := by
  subst ha
  rw [finishWait, thr_modThr_same]
  dsimp only
  split
  · next hinj => exact absurd hinj (hw _ _)
  · exact ⟨if_pos hb, rfl, endsWith_of_same (endsWith_endWord ..) rfl rfl rfl rfl⟩

theorem thr_finishWait_other (s : State) {k j : Nat} (v : Word) (h : j ≠ k) : thr (finishWait s k v) j = thr s j :=
  thr_modThr_other s _ h

/-! Waiters of a semaphore that are examined (R228). -/

section
variable {s : State} {p asid num n : Nat} {m : Team} (hm : team? s p asid num = some m)
include hm

/-- Nothing is granted where VALUE does not suffice for the oldest waiter. -/
theorem wakeSem_short (h : ∀ x ∈ (syncOf m n).waiters.head?, (syncOf m n).value < x.2) : wakeSem s p asid num n = s := by
  rw [wakeSem, team_of_team? hm]
  cases hw : (syncOf m n).waiters with
  | nil => rfl
  | cons x ws =>
    have hlt : (syncOf m n).value < x.2 := h x (by rw [hw]; rfl)
    simp only [wakeSemGo, team_of_team? hm, decide_eq_false hlt.not_ge, Bool.and_false, Bool.false_eq_true, if_false]

theorem wakeSem_one {i x : Nat} (hw : (syncOf m n).waiters = [(i, x)]) (hb : (thr s (memberKey m i)).st = .blocked)
    (hx : x ≤ (syncOf m n).value) :
    wakeSem s p asid num n = finishWait (setSync s p asid num n { syncOf m n with value := (syncOf m n).value - x, waiters := [] })
      (memberKey m i) (w64 ((syncOf m n).value - x)) := by
  simp only [wakeSem, wakeSemGo, team_of_team? hm, hw, hb, decide_eq_true hx, decide_true, Bool.and_self, if_true]

/-- The one waiter of an entry is granted what VALUE suffices for: its `semacq` ends with what is left, and no other thread goes on. -/
theorem wakeSem_grants {i x q : Nat} (hw : (syncOf m n).waiters = [(i, x)]) (hb : (thr s (memberKey m i)).st = .blocked)
    (hsem : (thr s (memberKey m i)).wait = .sem n q) (hx : x ≤ (syncOf m n).value) :
    let t := wakeSem s p asid num n
    LeavesWait (w64 ((syncOf m n).value - x)) (thr s (memberKey m i)) (thr t (memberKey m i)) ∧
      team? t p asid num = some (withEntry m n { syncOf m n with value := (syncOf m n).value - x, waiters := [] }) ∧
      t.mem = s.mem ∧ ∀ j, j ≠ memberKey m i → mget? t.threads j = mget? s.threads j := by
  rw [wakeSem_one hm hw hb hx]
  refine ⟨finishWait_leaves _ rfl hb fun a y h => ?_, team?_setSync hm n _, rfl, fun j hj => slot_modThr_other _ _ hj⟩
  cases hsem.symm.trans h

end

/-! A phase that is examined (R226). -/

/-- Nothing makes an entry's phase complete. -/
def NotDue (m : Team) (e : SyncEntry) : Prop := e.kind ≠ 2 ∨ phaseDone m e = false ∨ e.pend ≠ 0

theorem checkPhase_notDue {s : State} {p asid num n : Nat} {m : Team} (hm : team? s p asid num = some m)
    (h : NotDue m (syncOf m n)) : checkPhase s p asid num n = s := by
  have hoff : (decide ((syncOf m n).kind = 2) && phaseDone m (syncOf m n) && decide ((syncOf m n).pend = 0)) = false := by
    rcases h with h | h | h <;> simp [h]
  simp only [checkPhase, team_of_team? hm, hoff, Bool.false_eq_true, if_false]

/-- An entry that is set with nothing due, and with no waiter that could be granted. -/
theorem setEntry_quiet {s : State} {m m1 : Team} {n : Nat} {e : SyncEntry} (hm : team? s m.part m.asid m.num = some m1)
    (hw : e.waiters = []) (hd : NotDue m1 e) : setEntry s m n e = setSync s m.part m.asid m.num n e := by
  have hset := team?_setSync hm n e
  rw [setEntry, wakeSem_short hset (by simp [hw]), checkPhase_notDue hset (by rwa [syncOf_withEntry_same])]

end Sys2Proof.Machine
end

section
/-! `syinit`, `semacq`, `semtry` and `semadd` (R225-R228). -/

namespace Sys2Proof.Machine

/-! `syinit` (R226). -/

section
variable {s : State} {k : Nat} {w : Wide} {m : Team} (hk : s.cur.keys = [k]) (hh : (thr s k).helper = false)
  (hm : teamK? s k = some m) (hn : entryNo w < m.desc.syncs)
include hk hh hm hn

theorem exec_syinit_badConfig (hb : configBad m (entryNo w) (src (thr s k) w.s1) (src (thr s k) w.s2) = true) :
    exec (.syinit w) s = .next (result s k w (stw 5)) := by
  rw [exec_one (f := syinitOne w) rfl hk, syinitOne, onEntry_present hh hm hn, if_pos hb]

theorem exec_syinit_waited (hb : configBad m (entryNo w) (src (thr s k) w.s1) (src (thr s k) w.s2) = false)
    (hw : entryWaited s m (entryNo w) = true) : exec (.syinit w) s = .next (result s k w (stw 6)) := by
  rw [exec_one (f := syinitOne w) rfl hk, syinitOne, onEntry_present hh hm hn, if_neg (Bool.eq_false_iff.1 hb), if_pos hw]

/-- A `syinit` that sets its entry, a team barrier with no arrival noted. -/
theorem exec_syinit_sets (hb : configBad m (entryNo w) (src (thr s k) w.s1) (src (thr s k) w.s2) = false)
    (hw : entryWaited s m (entryNo w) = false) :
    exec (.syinit w) s = .next (setEntry (if bit (src (thr s k) w.s1) 11 then
      modTeam (result s k w 0) m.part m.asid m.num fun m => { m with arr := [] } else result s k w 0) m (entryNo w)
        (initEntry m (src (thr s k) w.s1) (src (thr s k) w.s2))) := by
  rw [exec_one (f := syinitOne w) rfl hk, syinitOne, onEntry_present hh hm hn, if_neg (Bool.eq_false_iff.1 hb),
    if_neg (Bool.eq_false_iff.1 hw)]

end

/-- What a `syinit` of a team barrier leaves of the team's arrivals. -/
def arrivalsReset (tb : Bool) (m : Team) : Team := { m with arr := if tb then [] else m.arr }

theorem team?_arrivalsReset {s : State} {m : Team} (tb : Bool) (hm : team? s m.part m.asid m.num = some m) :
    team? (if tb then modTeam s m.part m.asid m.num fun m => { m with arr := [] } else s) m.part m.asid m.num =
      some (arrivalsReset tb m) := by
  cases tb
  · exact hm
  · rw [if_pos rfl, team?_modTeam s (f := fun m => { m with arr := [] }) fun _ => ⟨rfl, rfl, rfl⟩, hm]
    rfl

/-- A valid configuration of a barrier expects arrivals, those of the team's members where it is the team barrier. -/
theorem expects_of_config {m : Team} {n : Nat} {c v : Word} (hb : configBad m n c v = false) (hkind : bits c 13 12 = 2) :
    bit c 11 = true ∨ bits c 9 0 ≠ 0 := by
  by_contra h
  simp only [not_or, Bool.not_eq_true, not_not] at h
  simp [configBad, hkind, h] at hb

/-- No arrival has been made at an entry that `syinit` has set. -/
theorem notDue_initEntry {m : Team} {n : Nat} {c v : Word} (hb : configBad m n c v = false) (hl : liveReal m ≠ []) :
    NotDue (arrivalsReset (bit c 11) m) (initEntry m c v) := by
  by_cases hkind : bits c 13 12 = 2
  case neg => exact .inl hkind
  refine .inr (.inl ?_)
  obtain ⟨i, hi⟩ := List.exists_mem_of_ne_nil _ hl
  have hall : bit c 11 = true → ((liveReal m).all fun i => mget false (arrivalsReset (bit c 11) m).arr i) = false := fun htb =>
    List.all_eq_false.2 ⟨i, hi, by simp [arrivalsReset, htb, mget]⟩
  have hdone : phaseDone (arrivalsReset (bit c 11) m) (initEntry m c v) = ((bits c 9 0 ≠ 0 && 0 ≥ bits c 9 0) ||
      (bits c 9 0 = 0 && (liveReal m).all fun i => mget false (arrivalsReset (bit c 11) m).arr i)) := rfl
  rw [hdone]
  rcases expects_of_config hb hkind with htb | hexp
  · rw [hall htb]
    simp
  · simp [hexp]

/-! `semacq` and `semtry` (R228). -/

/-- The state in which a `semacq` of amount `a` waits behind the other waiters of its entry. -/
def semQueued (s : State) (k : Nat) (w : Wide) (m : Team) (n a : Nat) : State :=
  setSync (blockOn s k w (.sem n a)) m.part m.asid m.num n
    { syncOf m n with waiters := (syncOf m n).waiters ++ [((thr s k).tidx, a)] }

section
variable {s : State} {k : Nat} {w : Wide} {m : Team} (hk : s.cur.keys = [k]) (hh : (thr s k).helper = false)
  (hm : teamK? s k = some m) (hn : entryNo w < m.desc.syncs)
include hk hh hm hn

theorem exec_sem_badKind (hkind : (syncOf m (entryNo w)).kind ≠ 1) {i : Instr} (hi : i ∈ [Instr.semacq w, .semtry w]) :
    exec i s = .next (result s k w (stw 3)) := by
  fin_cases hi
  · rw [exec_one (f := semacqOne w) rfl hk, semacqOne, onEntry_present hh hm hn, if_pos hkind]
  · rw [exec_one (f := semtryOne w) rfl hk, semtryOne, onEntry_present hh hm hn, if_pos hkind]

variable (hkind : (syncOf m (entryNo w)).kind = 1)
include hkind

theorem exec_sem_badAmount (ha : 2 ^ 48 ≤ (src (thr s k) w.s1).toNat) {i : Instr} (hi : i ∈ [Instr.semacq w, .semtry w]) :
    exec i s = .next (result s k w (stw 4)) := by
  fin_cases hi
  · rw [exec_one (f := semacqOne w) rfl hk, semacqOne, onEntry_present hh hm hn, if_neg (not_not.2 hkind), if_pos ha]
  · rw [exec_one (f := semtryOne w) rfl hk, semtryOne, onEntry_present hh hm hn, if_neg (not_not.2 hkind), if_pos ha]

variable (ha : (src (thr s k) w.s1).toNat < 2 ^ 48)
include ha

/-- A `semacq` waits behind the others, and its entry is examined. -/
theorem exec_semacq_queues : exec (.semacq w) s = .next (wakeSem (semQueued s k w m (entryNo w) (src (thr s k) w.s1).toNat)
    m.part m.asid m.num (entryNo w)) := by
  rw [exec_one (f := semacqOne w) rfl hk, semacqOne, onEntry_present hh hm hn, if_neg (not_not.2 hkind), if_neg ha.not_ge, semQueued]

variable (h0 : (src (thr s k) w.s1).toNat ≠ 0)
include h0

theorem exec_semtry_takes (hw : (syncOf m (entryNo w)).waiters = []) (hv : (src (thr s k) w.s1).toNat ≤ (syncOf m (entryNo w)).value) :
    exec (.semtry w) s = .next (result (setSync s m.part m.asid m.num (entryNo w)
      { syncOf m (entryNo w) with value := (syncOf m (entryNo w)).value - (src (thr s k) w.s1).toNat }) k w
        (w64 ((syncOf m (entryNo w)).value - (src (thr s k) w.s1).toNat))) := by
  have hfree : (decide ((syncOf m (entryNo w)).waiters = []) &&
    decide ((syncOf m (entryNo w)).value ≥ (src (thr s k) w.s1).toNat)) = true := by simpa [hw] using hv
  rw [exec_one (f := semtryOne w) rfl hk, semtryOne, onEntry_present hh hm hn, if_neg (not_not.2 hkind), if_neg ha.not_ge, if_neg h0,
    if_pos hfree]

theorem exec_semtry_fails (h : (syncOf m (entryNo w)).waiters ≠ [] ∨ (syncOf m (entryNo w)).value < (src (thr s k) w.s1).toNat) :
    exec (.semtry w) s = .next (result s k w (stw 1)) := by
  have hshort : ¬(decide ((syncOf m (entryNo w)).waiters = []) &&
      decide ((syncOf m (entryNo w)).value ≥ (src (thr s k) w.s1).toNat)) = true := by
    simpa [or_iff_not_imp_left] using h
  rw [exec_one (f := semtryOne w) rfl hk, semtryOne, onEntry_present hh hm hn, if_neg (not_not.2 hkind), if_neg ha.not_ge, if_neg h0,
    if_neg hshort]

end

/-! `semadd` (R227). -/

/-- What reaches no image is not held at one. -/
theorem semaddHeld_resident {s : State} {k : Nat} {m : Team} {r b : Word} (hc : semaddCheck s k r b = .ok m) (hst : m.st = .resident) :
    semaddHeld s k r b = none := by
  unfold semaddCheck at hc
  split at hc
  · cases hc
  · next m' ht =>
    split at hc
    · cases hc
    · cases hc
      simp only [semaddHeld, ht, imageEntry, hst]
      rfl

section
variable {s : State} {k : Nat} {w : Wide} (hk : s.cur.keys = [k]) (hh : (thr s k).helper = false)
include hk hh

theorem exec_semadd_refused {c : Nat} (hheld : semaddHeld s k (src (thr s k) w.s1) (src (thr s k) w.s2) = none)
    (hc : semaddCheck s k (src (thr s k) w.s1) (src (thr s k) w.s2) = .error c) :
    exec (.semadd w) s = .next (result s k w (stw c)) := by
  rw [exec_one (f := semaddOne w) rfl hk]
  simp only [semaddOne, hh, hheld, hc, Bool.false_eq_true, if_false]

/-- A credit of a resident team's semaphore lands in its live entry. -/
theorem exec_semadd_credits {m : Team} (hc : semaddCheck s k (src (thr s k) w.s1) (src (thr s k) w.s2) = .ok m)
    (hm : team? s m.part m.asid m.num = some m) (hst : m.st = .resident) :
    exec (.semadd w) s = .next (creditLive (result s k w 0) m.part m.asid m.num (bits (src (thr s k) w.s1) 5 0)
      (src (thr s k) w.s2).toNat 0) := by
  have hteam : team? (result s k w 0) m.part m.asid m.num = some m := hm
  rw [exec_one (f := semaddOne w) rfl hk]
  simp only [semaddOne, hh, semaddHeld_resident hc hst, hc, Bool.false_eq_true, if_false, land, hteam, hst, ne_eq, not_true_eq_false,
    landLive, if_true]

end

theorem creditEntry_semaphore {e : SyncEntry} {n : Nat} (hkind : e.kind = 1) (hv : e.value + n ≤ 2 ^ 48 - 1) :
    creditEntry e n 0 = { e with value := e.value + n } := by
  simp only [creditEntry, hkind, hv.not_gt, if_false]

/-- A credit of a semaphore, whose waiters are then examined. -/
theorem creditLive_semaphore {s : State} {p asid num n b : Nat} {m : Team} (hm : team? s p asid num = some m)
    (hkind : (syncOf m n).kind = 1) (hv : (syncOf m n).value + b ≤ 2 ^ 48 - 1) :
    creditLive s p asid num n b 0 =
      checkPhase (wakeSem (setSync s p asid num n { syncOf m n with value := (syncOf m n).value + b }) p asid num n) p asid num n := by
  rw [creditLive, team_of_team? hm, creditEntry_semaphore hkind hv]

end Sys2Proof.Machine
end

section
/-! What is granted and credited at a semaphore, and `Obligations.Semaphores` (R225-R228). -/

namespace Sys2Proof.Machine

/-- What registers, latches, chain and pc tell of a thread's end, it tells of any thread that shared them before. -/
theorem endsWith_from_same {w : Wide} {v : Word} {a a' b : Thread} (h : EndsWith w v a b) (hx : a.x = a'.x) (hf : a.f = a'.f)
    (hc : a.chain = a'.chain) (hp : a.pc = a'.pc) : EndsWith w v a' b := by
  obtain ⟨hd, hregs, hlatch, hlatches, hlive, hpc⟩ := h
  refine ⟨hd, fun n hn => (hregs n hn).trans (getReg_congr hx hf n), hlatch, fun n h4 hne => (hlatches n h4 hne).trans ?_, hlive,
    by rw [hpc, hp]⟩
  unfold getLatch
  rw [hc]

/-- A word that has waited ends as one that has not. -/
theorem endsWith_of_blockOn {s : State} {k : Nat} {w : Wide} {wt : Wait} {v : Word} {b : Thread}
    (h : LeavesWait v (thr (blockOn s k w wt) k) b) : EndsWith w v (thr s k) b := by
  have hends := h.ends
  rw [blockOn, thr_modThr_same] at hends
  exact endsWith_from_same hends rfl rfl rfl rfl

theorem notDue_of_kind {m : Team} {e : SyncEntry} (h : e.kind = 1) : NotDue m e := .inl (by rw [h]; decide)

/-! `syinit`. -/

/-- The team and the rest of the package once a `syinit` has set its entry. -/
theorem syinit_sets {s : State} {m : Team} {n : Nat} {c v : Word} (hm : team? s m.part m.asid m.num = some m)
    (hb : configBad m n c v = false) (hl : liveReal m ≠ []) :
    let t := setEntry (if bit c 11 then modTeam s m.part m.asid m.num fun m => { m with arr := [] } else s) m n (initEntry m c v)
    t.threads = s.threads ∧ t.mem = s.mem ∧ syncOf (team t m.part m.asid m.num) n = initEntry m c v ∧
      ∀ j, j ≠ n → syncOf (team t m.part m.asid m.num) j = syncOf m j := by
  have hreset := team?_arrivalsReset (bit c 11) hm
  intro t
  have ht : t = setSync _ m.part m.asid m.num n _ := setEntry_quiet hreset rfl (notDue_initEntry hb hl)
  refine ⟨?_, ?_, ?_, fun j hj => ?_⟩
  · rw [ht, setSync_eq, modTeam_threads]
    split <;> rfl
  · rw [ht, setSync_eq, modTeam_mem]
    split <;> rfl
  · rw [ht, syncOf_setSync_same hreset]
  · rw [ht, team_of_team? (team?_setSync hreset ..), syncOf_withEntry_other _ _ hj]
    rfl

/-! `semacq` and `semtry`. -/

theorem team?_semQueued {s : State} {m : Team} (k n a : Nat) (w : Wide) (hm : team? s m.part m.asid m.num = some m) :
    team? (semQueued s k w m n a) m.part m.asid m.num =
      some (withEntry m n { syncOf m n with waiters := (syncOf m n).waiters ++ [((thr s k).tidx, a)] }) :=
  team?_setSync (s := blockOn s k w (.sem n a)) hm n _

section
variable {s : State} {k n a : Nat} {w : Wide} {m : Team} (hs : isSimt k = true) (hm : team? s m.part m.asid m.num = some m)
include hs hm

/-- The one waiter of an entry that suffices for it is granted at once. -/
theorem semacq_granted (hkey : memberKey m (thr s k).tidx = k) (hw : (syncOf m n).waiters = []) (ha : a ≤ (syncOf m n).value) :
    let t := wakeSem (semQueued s k w m n a) m.part m.asid m.num n
    EndsWith w (w64 ((syncOf m n).value - a)) (thr s k) (thr t k) ∧
      syncOf (team t m.part m.asid m.num) n = { syncOf m n with value := (syncOf m n).value - a } ∧ KeepsMemory s t ∧
      ∀ j, j ≠ k → mget? t.threads j = mget? s.threads j := by
  have hset := team?_semQueued k n a w hm
  obtain ⟨honly, hwait, hst, -⟩ := blockOn_simt hs s w (.sem n a)
  have hgrant := wakeSem_grants (n := n) (i := (thr s k).tidx) (x := a) (q := a) hset
  rw [syncOf_withEntry_same, show memberKey (withEntry m n _) (thr s k).tidx = k from hkey] at hgrant
  obtain ⟨hleaves, hafter, hmem, hslots⟩ := hgrant (by rw [hw, List.nil_append]) hst hwait ha
  refine ⟨endsWith_of_blockOn hleaves, ?_, keepsMemory_of_mem hmem, fun j hj => (hslots j hj).trans (honly.2 j (by simpa using hj))⟩
  rw [team_of_team? hafter, syncOf_withEntry_same, ← hw]

/-- A waiter behind others, or that VALUE does not suffice for, waits. -/
theorem semacq_waits (h : ∀ x ∈ ((syncOf m n).waiters ++ [((thr s k).tidx, a)]).head?, (syncOf m n).value < x.2) :
    let t := wakeSem (semQueued s k w m n a) m.part m.asid m.num n
    (thr t k).wait = .sem n a ∧ (thr t k).st = .blocked ∧ (thr t k).pc = (thr s k).pc ∧ KeepsRegs [] (thr s k) (thr t k) ∧
      syncOf (team t m.part m.asid m.num) n = { syncOf m n with waiters := (syncOf m n).waiters ++ [((thr s k).tidx, a)] } := by
  have hset := team?_semQueued k n a w hm
  obtain ⟨-, hwait, hst, hpc, hregs⟩ := blockOn_simt hs s w (.sem n a)
  rw [wakeSem_short hset (by rw [syncOf_withEntry_same]; exact h)]
  exact ⟨hwait, hst, hpc, hregs, by rw [team_of_team? hset, syncOf_withEntry_same]⟩

end

/-! `semadd`. -/

section
variable {s : State} {p asid num n b : Nat} {m : Team} (hm : team? s p asid num = some m) (hkind : (syncOf m n).kind = 1)
  (hv : (syncOf m n).value + b ≤ 2 ^ 48 - 1)
include hm hkind hv

theorem creditLive_unwaited (hw : (syncOf m n).waiters = []) :
    creditLive s p asid num n b 0 = setSync s p asid num n { syncOf m n with value := (syncOf m n).value + b } := by
  have hset := team?_setSync hm n { syncOf m n with value := (syncOf m n).value + b }
  rw [creditLive_semaphore hm hkind hv, wakeSem_short hset (by simp [hw]),
    checkPhase_notDue hset (by rw [syncOf_withEntry_same]; exact notDue_of_kind hkind)]

/-- A credit that suffices for the one waiter. -/
theorem creditLive_grants {i x q : Nat} (hw : (syncOf m n).waiters = [(i, x)]) (hb : (thr s (memberKey m i)).st = .blocked)
    (hsem : (thr s (memberKey m i)).wait = .sem n q) (hx : x ≤ (syncOf m n).value + b) :
    let t := creditLive s p asid num n b 0
    LeavesWait (w64 ((syncOf m n).value + b - x)) (thr s (memberKey m i)) (thr t (memberKey m i)) ∧
      syncOf (team t p asid num) n = { syncOf m n with value := (syncOf m n).value + b - x, waiters := [] } ∧
      ∀ j, j ≠ memberKey m i → thr t j = thr s j := by
  have hset := team?_setSync hm n { syncOf m n with value := (syncOf m n).value + b }
  have hgrant := wakeSem_grants (n := n) (i := i) (x := x) (q := q) hset
  rw [syncOf_withEntry_same] at hgrant
  obtain ⟨hleaves, hafter, -, hslots⟩ := hgrant hw hb hsem hx
  rw [creditLive_semaphore hm hkind hv, checkPhase_notDue hafter (by rw [syncOf_withEntry_same]; exact notDue_of_kind hkind)]
  exact ⟨hleaves, by rw [team_of_team? hafter, syncOf_withEntry_same], fun j hj => thr_congr (hslots j hj)⟩

end

/-- Settles O37: each instruction ends as its checks answer it; an entry that is set or taken from has no waiter that could go on, and the
one waiter of an entry is granted what then suffices for it (`wakeSem_grants`). -/
theorem semaphores : Obligations.Semaphores := by
  intro s k w hk hh n t0
  refine ⟨fun _ habs i hi => ends_result (exec_sync_absent hh hk habs hi), fun hs m hm hn hkey hl => ?_, ?_⟩
  · intro e c v a after
    have hteam := team?_of_teamK? hm
    refine ⟨fun hb => ends_result (exec_syinit_badConfig hk hh hm hn hb),
      fun hb hw => ends_result (exec_syinit_waited hk hh hm hn hb hw), fun hb hw => ?_,
      fun hkind i hi => ends_result (exec_sem_badKind hk hh hm hn hkind hi),
      fun hkind ha i hi => ends_result (exec_sem_badAmount hk hh hm hn hkind ha hi), fun hkind ha h0 hw hv => ?_,
      fun hkind ha h0 h => ends_result (exec_semtry_fails hk hh hm hn hkind ha h0 h), fun hkind ha h => ?_⟩
    · refine ⟨_, exec_syinit_sets hk hh hm hn hb hw, ?_⟩
      have hteam1 : team? (result s k w 0) m.part m.asid m.num = some m := hteam
      obtain ⟨hthreads, hmem, hentry, hothers⟩ := syinit_sets hteam1 hb hl
      refine ⟨?_, keepsMemory_of_mem hmem, fun j hj => ?_, congrArg SyncEntry.kind hentry, congrArg SyncEntry.tb hentry,
        congrArg SyncEntry.expect hentry, congrArg SyncEntry.arrived hentry, congrArg SyncEntry.waiters hentry,
        congrArg SyncEntry.phase hentry, fun h => (congrArg SyncEntry.value hentry).trans (if_pos h),
        fun h => (congrArg SyncEntry.pend hentry).trans (if_pos h), hothers⟩
      · rw [thr_congr (congrArg (mget? · k) hthreads)]
        exact endsWith_modThr w _ rfl
      · rw [hthreads]
        exact slot_modThr_other _ _ hj
    · intro i hi
      fin_cases hi
      · exact ⟨_, exec_semacq_queues hk hh hm hn hkind ha, semacq_granted hs hteam hkey hw hv⟩
      · refine ⟨_, exec_semtry_takes hk hh hm hn hkind ha h0 hw hv, endsWith_modThr w _ rfl, ?_, fun _ => rfl, fun j hj =>
          slot_modThr_other _ _ hj⟩
        exact syncOf_setSync_same hteam n _
    · exact ⟨_, exec_semacq_queues hk hh hm hn hkind ha, semacq_waits hs hteam h⟩
  · intro r b
    refine ⟨fun c hheld hc => ends_result (exec_semadd_refused hk hh hheld hc), fun m hc hm hst => ?_⟩
    intro e after hkind hv
    have hteam : team? (result s k w 0) m.part m.asid m.num = some m := hm
    have hexec := exec_semadd_credits hk hh hc hm hst
    refine ⟨fun hw => ?_, fun i x hw hb hsem hne hx => ?_⟩
    · rw [creditLive_unwaited hteam hkind hv hw] at hexec
      exact ⟨_, hexec, endsWith_modThr w _ rfl, fun _ => rfl, syncOf_setSync_same hteam _ _, fun j hj => slot_modThr_other _ _ hj⟩
    · obtain ⟨q, hq⟩ := hsem
      have hother : thr (result s k w 0) (memberKey m i) = thr s (memberKey m i) := thr_modThr_other s _ hne
      obtain ⟨hleaves, hafter, hthr⟩ := creditLive_grants hteam hkind hv hw (by rwa [hother]) (by rwa [hother]) hx
      rw [hother] at hleaves
      refine ⟨_, hexec, ?_, hafter, hleaves.st, hleaves.ends⟩
      rw [hthr k hne.symm]
      exact endsWith_modThr w _ rfl

end Sys2Proof.Machine
end

section
/-! A barrier's phase that completes, and the waiters that it makes ready (R226, R230). -/

namespace Sys2Proof.Machine

/-! A waiter of an entry whose phase has changed. -/

/-- A thread that waits on entry `n` for another phase than `ph` leaves its wait. -/
def leaveBarrier (n ph : Nat) (s : State) (k : Nat) : State :=
  match (thr s k).wait with
  | .barrier m x _ => if m = n && bits x 15 0 ≠ ph && (thr s k).st = .blocked then finishWait s k (w64 ph) else s
  | _ => s

theorem wakeBarrier_eq {s : State} {p asid num : Nat} {m : Team} (hm : team? s p asid num = some m) (n : Nat) :
    wakeBarrier s p asid num n = (residents m).foldl (leaveBarrier n (syncOf m n).phase) s := by
  rw [← team_of_team? hm]
  rfl

theorem leaveBarrier_cases (n ph : Nat) (s : State) (k : Nat) :
    leaveBarrier n ph s k = s ∨ leaveBarrier n ph s k = finishWait s k (w64 ph) := by
  unfold leaveBarrier
  split
  · split
    · exact .inr rfl
    · exact .inl rfl
  · exact .inl rfl

theorem leaveBarrier_idle {s : State} {k : Nat} (n ph : Nat) (h : (thr s k).wait = .none) : leaveBarrier n ph s k = s := by
  simp only [leaveBarrier, h]

theorem leaveBarrier_leaves {s : State} {k n ph q : Nat} {x : Word} (hw : (thr s k).wait = .barrier n x q) (hx : bits x 15 0 ≠ ph)
    (hb : (thr s k).st = .blocked) : leaveBarrier n ph s k = finishWait s k (w64 ph) := by
  simp [leaveBarrier, hw, hx, hb]

theorem leaveBarrier_rest (n ph : Nat) (s : State) (k : Nat) :
    leaveBarrier n ph s k = { s with threads := (leaveBarrier n ph s k).threads } := by
  rcases leaveBarrier_cases n ph s k with h | h
  · rw [h]
  · rw [h]
    rfl

theorem thr_leaveBarrier_other (n ph : Nat) (s : State) {k j : Nat} (h : j ≠ k) : thr (leaveBarrier n ph s k) j = thr s j := by
  rcases leaveBarrier_cases n ph s k with he | he <;> rw [he]
  exact thr_finishWait_other s _ h

/-! The waiters among a team's members. -/

theorem foldl_leaveBarrier_rest (n ph : Nat) (ks : List Nat) (s : State) :
    ks.foldl (leaveBarrier n ph) s = { s with threads := (ks.foldl (leaveBarrier n ph) s).threads } :=
  List.foldlRecOn (motive := fun u : State => u = { s with threads := u.threads }) ks _ rfl fun u hu k _ => by
    rw [leaveBarrier_rest n ph u k, hu]

theorem thr_foldl_leaveBarrier_idle {s : State} {j : Nat} (n ph : Nat) (ks : List Nat) (h : (thr s j).wait = .none) :
    thr (ks.foldl (leaveBarrier n ph) s) j = thr s j :=
  List.foldlRecOn (motive := fun u => thr u j = thr s j) ks _ rfl fun u hu k _ => by
    by_cases hk : j = k
    · rw [← hk, leaveBarrier_idle n ph (by rwa [hu]), hu]
    · rw [thr_leaveBarrier_other n ph u hk, hu]

/-- A member that waits on the entry for the phase before leaves its wait once. -/
theorem foldl_leaveBarrier_leaves {s : State} {j n ph q : Nat} {x : Word} {ks : List Nat} (hj : j ∈ ks)
    (hw : (thr s j).wait = .barrier n x q) (hx : bits x 15 0 ≠ ph) (hq : q ≠ 2) (hb : (thr s j).st = .blocked) :
    LeavesWait (w64 ph) (thr s j) (thr (ks.foldl (leaveBarrier n ph) s) j) := by
  induction ks generalizing s with
  | nil => cases hj
  | cons k ks ih =>
    rw [List.foldl_cons]
    by_cases hk : j = k
    · subst hk
      have hleaves := finishWait_leaves (w64 ph) (rfl : thr s j = thr s j) hb fun a y h => by
        cases hw.symm.trans h
        exact hq rfl
      rw [leaveBarrier_leaves hw hx hb, thr_foldl_leaveBarrier_idle n ph ks hleaves.wait]
      exact hleaves
    · have hthr := thr_leaveBarrier_other n ph s hk
      have hrest := ih (s := leaveBarrier n ph s k) ((List.mem_cons.1 hj).resolve_left hk) (by rwa [hthr]) (by rwa [hthr])
      rwa [hthr] at hrest

/-! The phase completes. -/

/-- A team as an entry's phase completes: the entry's next phase, and at its team barrier the team's (R226, R346). -/
def phasePassed (n : Nat) (t : Team) : Team :=
  let e := syncOf t n
  let t := { t with syncs := mset {} t.syncs n { e with phase := (e.phase + 1) % 65536, arrived := 0 } }
  if e.tb then { t with arr := [], phase := (t.phase + 1) % 2 ^ 64, heldPhase := none, sweep := t.tags ≠ [] } else t

theorem completePhase_eq (s : State) (p asid num n : Nat) :
    completePhase s p asid num n = wakeBarrier (modTeam s p asid num (phasePassed n)) p asid num n := rfl

theorem phasePassed_names (n : Nat) (t : Team) :
    (phasePassed n t).part = t.part ∧ (phasePassed n t).asid = t.asid ∧ (phasePassed n t).num = t.num := by
  dsimp only [phasePassed]
  split <;> exact ⟨rfl, rfl, rfl⟩

theorem residents_phasePassed (n : Nat) (t : Team) : residents (phasePassed n t) = residents t := by
  dsimp only [phasePassed]
  split <;> rfl

@[simp] theorem syncOf_phasePassed (n : Nat) (t : Team) :
    syncOf (phasePassed n t) n = { syncOf t n with phase := ((syncOf t n).phase + 1) % 65536, arrived := 0 } := by
  dsimp only [phasePassed]
  split <;> exact mget_mset_same ..

theorem phasePassed_teamBarrier {n : Nat} {t : Team} (h : (syncOf t n).tb = true) :
    (phasePassed n t).arr = [] ∧ (phasePassed n t).phase = (t.phase + 1) % 2 ^ 64 := by
  simp only [phasePassed, h, if_true, and_self]

theorem team?_phasePassed {s : State} {p asid num : Nat} {m : Team} (hm : team? s p asid num = some m) (n : Nat) :
    team? (modTeam s p asid num (phasePassed n)) p asid num = some (phasePassed n m) := by
  rw [team?_modTeam s (phasePassed_names n), hm]
  rfl

theorem checkPhase_completes {s : State} {p asid num n : Nat} {m : Team} (hm : team? s p asid num = some m)
    (hkind : (syncOf m n).kind = 2) (hdone : phaseDone m (syncOf m n) = true) (hpend : (syncOf m n).pend = 0)
    (hsweep : ((syncOf m n).tb && m.sweep) = false) : checkPhase s p asid num n = completePhase s p asid num n := by
  simp only [checkPhase, team_of_team? hm, hkind, hdone, hpend, hsweep, decide_true, Bool.and_self, if_true, Bool.false_eq_true, if_false]

/-- What a phase that completes leaves: the team at its next phase, threads that wait for nothing as they were, and the waiters of the
phase before on their way. -/
theorem checkPhase_completes_spec {s : State} {p asid num n : Nat} {m : Team} (hm : team? s p asid num = some m)
    (hkind : (syncOf m n).kind = 2) (hdone : phaseDone m (syncOf m n) = true) (hpend : (syncOf m n).pend = 0)
    (hsweep : ((syncOf m n).tb && m.sweep) = false) :
    let t := checkPhase s p asid num n
    let ph := ((syncOf m n).phase + 1) % 65536
    team? t p asid num = some (phasePassed n m) ∧ t.mem = s.mem ∧ (∀ j, (thr s j).wait = .none → thr t j = thr s j) ∧
      ∀ j ∈ residents m, ∀ x q, (thr s j).wait = .barrier n x q → bits x 15 0 ≠ ph → q ≠ 2 → (thr s j).st = .blocked →
        LeavesWait (w64 ph) (thr s j) (thr t j) := by
  have hteam := team?_phasePassed hm n
  rw [checkPhase_completes hm hkind hdone hpend hsweep, completePhase_eq, wakeBarrier_eq hteam, residents_phasePassed, syncOf_phasePassed]
  refine ⟨?_, ?_, fun j hj => thr_foldl_leaveBarrier_idle (s := modTeam s p asid num (phasePassed n)) n _ _ hj,
    fun j hj x q hw hx hq hb =>
      foldl_leaveBarrier_leaves (s := modTeam s p asid num (phasePassed n)) hj hw hx hq hb⟩
  · rw [foldl_leaveBarrier_rest]
    exact hteam
  · rw [foldl_leaveBarrier_rest]
    rfl

end Sys2Proof.Machine
end

section
/-! `barrive`, `bwait`, `bexpect` and `barw` (R230, R232). -/

namespace Sys2Proof.Machine

/-! An arrival. -/

/-- An entry that counts one more arrival. -/
def counted (e : SyncEntry) : SyncEntry := { e with arrived := e.arrived + 1 }

/-- A team at whose entry a member has arrived. -/
def arrivedAt (n idx : Nat) (e : SyncEntry) (m : Team) : Team :=
  { m with syncs := mset {} m.syncs n (counted e), arr := if e.tb then mset false m.arr idx true else m.arr }

@[simp] theorem syncOf_arrivedAt (n idx : Nat) (e : SyncEntry) (m : Team) :
    syncOf (arrivedAt n idx e m) n = counted e := mget_mset_same ..

/-- The state in which a member has arrived. -/
def arrived (s : State) (m : Team) (n idx : Nat) : State := modTeam s m.part m.asid m.num (arrivedAt n idx (syncOf m n))

theorem team?_arrived {s : State} {m : Team} (n idx : Nat) (hm : team? s m.part m.asid m.num = some m) :
    team? (arrived s m n idx) m.part m.asid m.num = some (arrivedAt n idx (syncOf m n) m) := by
  rw [arrived, team?_modTeam s (f := arrivedAt n idx (syncOf m n)) fun _ => ⟨rfl, rfl, rfl⟩, hm]
  rfl

theorem arrive_counts {m : Team} {n idx : Nat} (s : State) (hfirst : ((syncOf m n).tb && mget false m.arr idx) = false)
    (hroom : (syncOf m n).expect = 0 ∨ (syncOf m n).arrived < (syncOf m n).expect) :
    arrive s m n idx (syncOf m n) = (w64 (syncOf m n).phase, arrived s m n idx) := by
  have hfull : ¬(decide ((syncOf m n).expect ≠ 0) && decide ((syncOf m n).arrived ≥ (syncOf m n).expect)) = true := by
    simp only [Bool.and_eq_true, decide_eq_true_eq]
    omega
  rw [arrive, if_neg (Bool.eq_false_iff.1 hfirst)]
  dsimp only
  rw [if_neg hfull]
  rfl

theorem arrive_again {m : Team} {idx : Nat} {e : SyncEntry} (s : State) (n : Nat) (htb : e.tb = true) (harr : mget false m.arr idx = true) :
    arrive s m n idx e = (setBit (w64 e.phase) 63 true, s) := by
  rw [arrive, htb, harr]
  rfl

/-- An arrival that does not fill EXPECT, or finds bytes pending, completes no phase (R226). -/
theorem notDue_arrivedAt {m : Team} {n idx : Nat} {e : SyncEntry} (hd : e.arrived + 1 < e.expect ∨ e.pend ≠ 0) :
    NotDue (arrivedAt n idx e m) (counted e) := by
  refine .inr (hd.imp (fun hlt => ?_) id)
  have hexp : e.expect ≠ 0 := by omega
  simp [phaseDone, counted, hexp, hlt.not_ge]

theorem phaseDone_arrivedAt_last {m : Team} {n idx : Nat} {e : SyncEntry} (h : e.arrived + 1 = e.expect) :
    phaseDone (arrivedAt n idx e m) (counted e) = true := by
  have hexp : e.expect ≠ 0 := by omega
  simp [phaseDone, counted, hexp, h]

/-- The last member that arrives at the team barrier. -/
theorem phaseDone_arrivedAt_team {m : Team} {n idx : Nat} {e : SyncEntry} (htb : e.tb = true) (hexp : e.expect = 0)
    (hall : ∀ i ∈ liveReal m, i ≠ idx → mget false m.arr i = true) :
    phaseDone (arrivedAt n idx e m) (counted e) = true := by
  have harr : ∀ i ∈ liveReal m, mget false (mset false m.arr idx true) i = true := fun i hi => by
    rw [mget_mset]
    split
    · rfl
    · next hne => exact hall i hi hne
  have hlive : (liveReal m).all (fun i => mget false (mset false m.arr idx true) i) = true := List.all_eq_true.2 harr
  have hdone : phaseDone (arrivedAt n idx e m) (counted e) =
      ((decide (e.expect ≠ 0) && decide (e.arrived + 1 ≥ e.expect)) ||
        (decide (e.expect = 0) && (liveReal m).all fun i => mget false (if e.tb then mset false m.arr idx true else m.arr) i)) := rfl
  rw [hdone, htb, if_pos rfl, hlive]
  simp [hexp]

/-! The instructions. -/

section
variable {s : State} {k : Nat} {w : Wide} {m : Team} (hk : s.cur.keys = [k]) (hh : (thr s k).helper = false)
  (hm : teamK? s k = some m) (hn : entryNo w < m.desc.syncs)
include hk hh hm hn

theorem exec_barrier_badKind (hkind : (syncOf m (entryNo w)).kind ≠ 2) {i : Instr}
    (hi : i ∈ [Instr.barrive w, .bwait w, .bexpect w, .barw w]) : exec i s = .next (result s k w (stw 3)) := by
  fin_cases hi
  · rw [exec_one (f := barriveOne w) rfl hk, barriveOne, onEntry_present hh hm hn, if_pos hkind]
  · rw [exec_one (f := bwaitOne w) rfl hk, bwaitOne, onEntry_present hh hm hn, if_pos hkind]
  · rw [exec_one (f := bexpectOne w) rfl hk, bexpectOne, onEntry_present hh hm hn, if_pos hkind]
  · rw [exec_one (f := barwOne w) rfl hk, barwOne, onEntry_present hh hm hn, if_pos hkind]

variable (hkind : (syncOf m (entryNo w)).kind = 2)
include hkind

section
variable {v : Word} {u : State} (ha : arrive s m (entryNo w) (thr s k).tidx (syncOf m (entryNo w)) = (v, u))
include ha

theorem exec_barrive_arrives :
    exec (.barrive w) s = .next (checkPhase (result u k w v) m.part m.asid m.num (entryNo w)) := by
  rw [exec_one (f := barriveOne w) rfl hk, barriveOne, onEntry_present hh hm hn, if_neg (not_not.2 hkind), ha]

theorem exec_barw_arrives :
    exec (.barw w) s = .next (waitPhase (checkPhase u m.part m.asid m.num (entryNo w)) k w m v 1) := by
  rw [exec_one (f := barwOne w) rfl hk, barwOne, onEntry_present hh hm hn, if_neg (not_not.2 hkind), ha]

end

theorem exec_bwait_badToken (hb : bits (src (thr s k) w.s1) 62 16 ≠ 0) : exec (.bwait w) s = .next (result s k w (stw 4)) := by
  rw [exec_one (f := bwaitOne w) rfl hk, bwaitOne, onEntry_present hh hm hn, if_neg (not_not.2 hkind), if_pos hb]

theorem exec_bwait_waits (hb : bits (src (thr s k) w.s1) 62 16 = 0) :
    exec (.bwait w) s = .next (waitPhase s k w m (src (thr s k) w.s1) 0) := by
  rw [exec_one (f := bwaitOne w) rfl hk, bwaitOne, onEntry_present hh hm hn, if_neg (not_not.2 hkind), if_neg (not_not.2 hb)]

theorem exec_bexpect_badCount (hb : 2 ^ 35 ≤ (src (thr s k) w.s1).toNat) : exec (.bexpect w) s = .next (result s k w (stw 4)) := by
  rw [exec_one (f := bexpectOne w) rfl hk, bexpectOne, onEntry_present hh hm hn, if_neg (not_not.2 hkind), if_pos hb]

theorem exec_bexpect_adds (hb : (src (thr s k) w.s1).toNat < 2 ^ 35)
    (hp : (syncOf m (entryNo w)).pend + (src (thr s k) w.s1).toNat ≤ 2 ^ 35 - 1) :
    exec (.bexpect w) s = .next (setEntry (result s k w 0) m (entryNo w)
      { syncOf m (entryNo w) with pend := (syncOf m (entryNo w)).pend + (src (thr s k) w.s1).toNat }) := by
  rw [exec_one (f := bexpectOne w) rfl hk, bexpectOne, onEntry_present hh hm hn, if_neg (not_not.2 hkind), if_neg hb.not_ge]
  dsimp only
  rw [if_neg hp.not_gt]

end

/-! A wait for a phase (R230). -/

theorem bits_w64_phase {n : Nat} (h : n < 65536) : bits (w64 n) 15 0 = n := by
  simp only [bits, w64, BitVec.toNat_ofNat]
  omega

section
variable {s : State} {k : Nat} {w : Wide} {m m1 : Team} (hm : team? s m.part m.asid m.num = some m1) {tok : Word}
include hm

theorem waitPhase_passed (kind : Nat) (h : (syncOf m1 (entryNo w)).phase ≠ bits tok 15 0) :
    waitPhase s k w m tok kind = result s k w (w64 (syncOf m1 (entryNo w)).phase) := by
  rw [waitPhase, team_of_team? hm]
  exact if_pos h

theorem waitPhase_same (kind : Nat) (h : (syncOf m1 (entryNo w)).phase = bits tok 15 0) :
    waitPhase s k w m tok kind = blockOn s k w (.barrier (entryNo w) tok kind) := by
  rw [waitPhase, team_of_team? hm]
  exact if_neg (not_not.2 h)

end

/-! Arrivals that complete no phase, and those that do. -/

/-- What a member's arrival that completes the phase of entry `n` leaves, where its team was `m` once it had arrived: its word has ended
with `r`, the team is at its next phase, and the waiters of the phase before have left their waits. -/
structure PhaseCompletes (s : State) (k n : Nat) (w : Wide) (m : Team) (r : Word) (t : State) : Prop where
  ends : EndsWith w r (thr s k) (thr t k)
  mem : t.mem = s.mem
  team : team? t m.part m.asid m.num = some (phasePassed n m)
  waiters : ∀ j ∈ residents m, (thr s j).st = .blocked → ∀ x q, (thr s j).wait = .barrier n x q →
    bits x 15 0 ≠ ((syncOf m n).phase + 1) % 65536 → q ≠ 2 →
      LeavesWait (w64 (((syncOf m n).phase + 1) % 65536)) (thr s j) (thr t j)

/-- A thread that waits is another than one that does not. -/
theorem ne_of_waits {s : State} {j k n q : Nat} {x : Word} (hk : (thr s k).wait = .none) (hj : (thr s j).wait = .barrier n x q) :
    j ≠ k := fun h => by
  rw [h, hk] at hj
  cases hj

section
variable {s : State} {k : Nat} {w : Wide} {m : Team} (hk : s.cur.keys = [k]) (hh : (thr s k).helper = false)
  (hm : teamK? s k = some m) (hn : entryNo w < m.desc.syncs) (hkind : (syncOf m (entryNo w)).kind = 2)
  (hfirst : ((syncOf m (entryNo w)).tb && mget false m.arr (thr s k).tidx) = false)
  (hroom : (syncOf m (entryNo w)).expect = 0 ∨ (syncOf m (entryNo w)).arrived < (syncOf m (entryNo w)).expect)
include hk hh hm hn hkind hfirst hroom

section
variable (hdue : NotDue (arrivedAt (entryNo w) (thr s k).tidx (syncOf m (entryNo w)) m) (counted (syncOf m (entryNo w))))
include hdue

theorem exec_barrive_goesOn :
    exec (.barrive w) s = .next (result (arrived s m (entryNo w) (thr s k).tidx) k w (w64 (syncOf m (entryNo w)).phase)) := by
  rw [exec_barrive_arrives hk hh hm hn hkind (arrive_counts s hfirst hroom)]
  exact congrArg _ (checkPhase_notDue (team?_arrived _ _ (team?_of_teamK? hm)) (by rwa [syncOf_arrivedAt]))

theorem exec_barw_goesOn (hph : (syncOf m (entryNo w)).phase < 65536) :
    exec (.barw w) s = .next (blockOn (arrived s m (entryNo w) (thr s k).tidx) k w
      (.barrier (entryNo w) (w64 (syncOf m (entryNo w)).phase) 1)) := by
  have hteam := team?_arrived (entryNo w) (thr s k).tidx (team?_of_teamK? hm)
  have hsame : (syncOf m (entryNo w)).phase = bits (w64 (syncOf m (entryNo w)).phase) 15 0 := (bits_w64_phase hph).symm
  rw [exec_barw_arrives hk hh hm hn hkind (arrive_counts s hfirst hroom),
    checkPhase_notDue hteam (by rwa [syncOf_arrivedAt]), waitPhase_same hteam 1 (by rwa [syncOf_arrivedAt])]

end

section
variable (hdone : phaseDone (arrivedAt (entryNo w) (thr s k).tidx (syncOf m (entryNo w)) m) (counted (syncOf m (entryNo w))) = true)
  (hpend : (syncOf m (entryNo w)).pend = 0) (hsweep : ((syncOf m (entryNo w)).tb && m.sweep) = false) (hw : (thr s k).wait = .none)
include hdone hpend hsweep hw

theorem barrive_completes : ∃ t, exec (.barrive w) s = .next t ∧
    PhaseCompletes s k (entryNo w) w (arrivedAt (entryNo w) (thr s k).tidx (syncOf m (entryNo w)) m)
      (w64 (syncOf m (entryNo w)).phase) t := by
  have hteam := team?_arrived (entryNo w) (thr s k).tidx (team?_of_teamK? hm)
  obtain ⟨hpassed, hmem, hidle, hwaiters⟩ := checkPhase_completes_spec (n := entryNo w)
    (s := result (arrived s m (entryNo w) (thr s k).tidx) k w (w64 (syncOf m (entryNo w)).phase)) hteam
    (by rwa [syncOf_arrivedAt]) (by rwa [syncOf_arrivedAt]) (by rwa [syncOf_arrivedAt]) (by rwa [syncOf_arrivedAt])
  refine ⟨_, exec_barrive_arrives hk hh hm hn hkind (arrive_counts s hfirst hroom), ?_, hmem, hpassed,
    fun j hj hb x q hwait hx hq => ?_⟩
  · rw [hidle k (by rw [result, thr_modThr_same, endWord_wait]; exact hw)]
    exact endsWith_modThr w _ rfl
  · have hne := ne_of_waits hw hwait
    have hother : thr (result (arrived s m (entryNo w) (thr s k).tidx) k w (w64 (syncOf m (entryNo w)).phase)) j = thr s j :=
      thr_modThr_other _ _ hne
    have hleaves := hwaiters j hj x q (by rwa [hother]) hx hq (by rwa [hother])
    rwa [hother] at hleaves

theorem barw_completes (hph : (syncOf m (entryNo w)).phase < 65536) : ∃ t, exec (.barw w) s = .next t ∧
    PhaseCompletes s k (entryNo w) w (arrivedAt (entryNo w) (thr s k).tidx (syncOf m (entryNo w)) m)
      (w64 (((syncOf m (entryNo w)).phase + 1) % 65536)) t := by
  have hteam := team?_arrived (entryNo w) (thr s k).tidx (team?_of_teamK? hm)
  obtain ⟨hpassed, hmem, hidle, hwaiters⟩ := checkPhase_completes_spec (n := entryNo w) hteam
    (by rwa [syncOf_arrivedAt]) (by rwa [syncOf_arrivedAt]) (by rwa [syncOf_arrivedAt]) (by rwa [syncOf_arrivedAt])
  have hnext : (syncOf (phasePassed (entryNo w) (arrivedAt (entryNo w) (thr s k).tidx (syncOf m (entryNo w)) m)) (entryNo w)).phase =
      ((syncOf m (entryNo w)).phase + 1) % 65536 := by rw [syncOf_phasePassed, syncOf_arrivedAt, counted]
  have hexec := exec_barw_arrives hk hh hm hn hkind (arrive_counts s hfirst hroom)
  rw [waitPhase_passed hpassed 1 (by rw [hnext, bits_w64_phase hph]; omega), hnext] at hexec
  refine ⟨_, hexec, endsWith_modThr w _ (hidle k hw), hmem, hpassed, fun j hj hb x q hwait hx hq => ?_⟩
  rw [result, thr_modThr_other _ _ (ne_of_waits hw hwait)]
  exact hwaiters j hj x q hwait hx hq hb

end
end

section
variable {s t : State} {k n idx : Nat} {w : Wide} {m : Team} {e : SyncEntry} {r : Word}
  (h : PhaseCompletes s k n w (arrivedAt n idx e m) r t)
include h

theorem PhaseCompletes.entry :
    syncOf (Machine.team t m.part m.asid m.num) n = { e with phase := (e.phase + 1) % 65536, arrived := 0 } := by
  rw [team_of_team? (show team? t m.part m.asid m.num = _ from h.team), syncOf_phasePassed, syncOf_arrivedAt,
    counted]

/-- At the team barrier the team's phase completes with its entry's (R226). -/
theorem PhaseCompletes.teamPhase (htb : e.tb = true) :
    (Machine.team t m.part m.asid m.num).arr = [] ∧ (Machine.team t m.part m.asid m.num).phase = (m.phase + 1) % 2 ^ 64 := by
  rw [team_of_team? (show team? t m.part m.asid m.num = _ from h.team)]
  exact phasePassed_teamBarrier (by rwa [syncOf_arrivedAt])

theorem PhaseCompletes.wakes {j q : Nat} {x : Word} (hj : j ∈ residents m) (hb : (thr s j).st = .blocked)
    (hw : (thr s j).wait = .barrier n x q) (hx : bits x 15 0 = e.phase) (hq : q ≠ 2) :
    LeavesWait (w64 ((e.phase + 1) % 65536)) (thr s j) (thr t j) := by
  have hwaiters := h.waiters j hj hb x q hw
  rw [syncOf_arrivedAt, counted] at hwaiters
  exact hwaiters (by dsimp only; omega) hq

end

/-- Settles O38: an arrival that completes no phase is counted, one that does wakes the waiters (`checkPhase_completes_spec`); the waits end
or block as the entry's phase says. -/
theorem barriers : Obligations.Barriers := by
  intro s k w m hk hs hh hm hn hwait n e t0 a ph after
  have hteam := team?_of_teamK? hm
  have harrived := team?_arrived n t0.tidx hteam
  refine ⟨fun hkind i hi => ends_result (exec_barrier_badKind hk hh hm hn hkind hi),
    fun hkind htb hlt hph => ⟨fun hd => ?_, fun hlast hpend => ?_⟩,
    fun hkind htb harr hdone => ?_, fun hkind htb harr hexp hpend hsweep hall => ?_,
    fun hkind hb => ends_result (exec_bwait_badToken hk hh hm hn hkind hb), fun hkind hb hne => ?_, fun hkind hb hsame => ?_,
    fun hkind hb => ends_result (exec_bexpect_badCount hk hh hm hn hkind hb), fun hkind hb hw hp hd => ?_⟩
  · have hfirst : (e.tb && mget false m.arr t0.tidx) = false := by rw [htb, Bool.false_and]
    have hdue := notDue_arrivedAt (m := m) (n := n) (idx := t0.tidx) hd
    have hafter : syncOf (team (arrived s m n t0.tidx) m.part m.asid m.num) n = { e with arrived := e.arrived + 1 } := by
      rw [team_of_team? harrived, syncOf_arrivedAt, counted]
    obtain ⟨-, hw, hst, hpc, hregs⟩ := blockOn_simt hs (arrived s m n t0.tidx) w (.barrier n (w64 e.phase) 1)
    exact ⟨⟨_, exec_barrive_goesOn hk hh hm hn hkind hfirst (.inr hlt) hdue, endsWith_modThr w _ rfl, fun _ => rfl, hafter,
        fun j hj => slot_modThr_other _ _ hj⟩,
      _, exec_barw_goesOn hk hh hm hn hkind hfirst (.inr hlt) hdue hph, hw, hst, hpc, hregs, hafter⟩
  · have hfirst : (e.tb && mget false m.arr t0.tidx) = false := by rw [htb, Bool.false_and]
    have hdone := phaseDone_arrivedAt_last (m := m) (n := n) (idx := t0.tidx) hlast
    have hsweep : (e.tb && m.sweep) = false := by rw [htb, Bool.false_and]
    have hcompletes : ∀ i v, (i, v) ∈ [(Instr.barrive w, e.phase), (.barw w, ph)] →
        ∃ t, exec i s = .next t ∧ PhaseCompletes s k n w (arrivedAt n t0.tidx e m) (w64 v) t := by
      rintro i v hi
      simp only [List.mem_cons, Prod.mk.injEq, List.not_mem_nil, or_false] at hi
      rcases hi with ⟨rfl, rfl⟩ | ⟨rfl, rfl⟩
      · exact barrive_completes hk hh hm hn hkind hfirst (.inr hlt) hdone hpend hsweep hwait
      · exact barw_completes hk hh hm hn hkind hfirst (.inr hlt) hdone hpend hsweep hwait hph
    intro i v hi
    obtain ⟨t, hexec, hc⟩ := hcompletes i v hi
    refine ⟨t, hexec, hc.ends, keepsMemory_of_mem hc.mem, hc.entry, fun j hj hb x q hw hx hq => ?_⟩
    have hleaves := hc.wakes hj hb hw hx hq
    exact ⟨hleaves.st, hleaves.wait, hleaves.ends⟩
  · have hexec := exec_barrive_arrives hk hh hm hn hkind (arrive_again s n htb harr)
    rw [checkPhase_notDue (s := result ..) hteam (.inr (.inl hdone))] at hexec
    exact ends_result hexec
  · have hfirst : (e.tb && mget false m.arr t0.tidx) = false := by rw [harr, Bool.and_false]
    obtain ⟨t, hexec, hc⟩ := barrive_completes hk hh hm hn hkind hfirst (.inl hexp) (phaseDone_arrivedAt_team htb hexp hall) hpend
      (by rw [hsweep, Bool.and_false]) hwait
    exact ⟨t, hexec, hc.ends, hc.entry, hc.teamPhase htb⟩
  · have hexec := exec_bwait_waits hk hh hm hn hkind hb
    rw [waitPhase_passed hteam 0 hne] at hexec
    exact ends_result hexec
  · have hexec := exec_bwait_waits hk hh hm hn hkind hb
    rw [waitPhase_same hteam 0 hsame] at hexec
    exact ⟨_, hexec, blockOn_simt hs s w _⟩
  · have hexec := exec_bexpect_adds hk hh hm hn hkind hb hp
    have hteam1 : team? (result s k w 0) m.part m.asid m.num = some m := hteam
    rw [setEntry_quiet (e := { e with pend := e.pend + a.toNat }) hteam1 hw (.inr hd)] at hexec
    exact ⟨_, hexec, endsWith_modThr w _ rfl, fun _ => rfl, syncOf_setSync_same hteam1 _ _, fun j hj => slot_modThr_other _ _ hj⟩

end Sys2Proof.Machine
end
